-- ==== Sys2Proof/Word.lean ====
section
/-! DEFINITION. The word types of the ZK9: 8-bit bytes and the 32-bit little-endian words of every register (00 R4). -/

namespace Sys2Proof

/-- One byte. -/
abbrev Byte := BitVec 8

/-- One 32-bit register or packet word (00 R4). -/
abbrev Word := BitVec 32

/-- A 64-bit quantity: a block index or an item value (00 R10, 13 R364). -/
abbrev Dword := BitVec 64

end Sys2Proof
end

