-- ==== Sys2Proof/Syntax.lean ====
section
/-! DEFINITION. The commands of the ZK9: one constructor per row of spec/opcode_table.json, with the operands the
row's rule gives it. An operand that ranges over an index of the spec is a `Fin`, so no command names a port, a
channel or a register that does not exist. `t` is always the CORE clock (1.25 ns) at which the step comes about. -/

namespace Sys2Proof

/-- The four operating profiles (05 R130). -/
inductive Profile where
  | F | D | T | E
  deriving DecidableEq, Repr

/-- The transports a command packet may arrive on (13 R353). -/
inductive Transport where
  | pcie | spi | mbx (c : Fin 16) | linkA | linkB | drop
  deriving DecidableEq, Repr

/-- What a command carries besides its parameter words: transport, host tag, FORCE and PEER flags (13 R357), the
management session it came in (06 R180) and whether a standby forwarded it over the twin link (12 R330). -/
structure Hdr where
  via : Transport
  tag : Word
  force : Bool := false
  peer : Bool := false
  session : BitVec 16 := 0
  forwarded : Bool := false
  deriving DecidableEq, Repr

/-- A tagged sample: 32-bit Q5.27 value and 8-bit residue tag (02 R39). -/
structure TSample where
  val : BitVec 32
  tag : BitVec 8
  deriving DecidableEq, Repr

/-- A memory error that strikes before an access: the byte address of an ECC word and whether it is uncorrectable
(17 R445). -/
structure Upset where
  addr : Nat
  uncorrectable : Bool
  deriving DecidableEq, Repr

/-- Outputs of a pass that an engine does not hand on before the next tick (01 R26, R543). `outs` names sources
(pass 1), bus codes, chain codes and sink elements as the passes number them, each with the number of the block's samples
that was handed on; `none` is every sample of every output that the engine makes in the pass. -/
structure LateOut where
  engine : Fin 24
  pass : Fin 3
  outs : Option (List (Nat × Nat))
  deriving DecidableEq, Repr

/-- What a block tick finds: the CORE clock of the tick, the converter words that the crossings delivered of the block that
ends (by input, and by sense tap, in sample order; none where a sample was not delivered: 01 R17),
the engines whose passes of the new block are not finished in time, memory upsets, the outcome of the table check,
the shadow test and the crossing probe of the block (01 R23, R26; 12 R348; 06 R174; 04 R124), the FLT_N pins that are low (10
R288), and the core (0 CMD, 1 SUP) that traps on an uncorrectable word of its own memory (17 R453). -/
structure TickIn where
  t : Nat
  ain : List (List (Option Word)) := []
  sense : List (Nat × List (Option Word)) := []
  late : List LateOut := []
  upsets : List Upset := []
  engineTrap : Option (Fin 24) := none
  tableBad : Option (Fin 66) := none
  shadowFail : Option (Fin 24) := none
  shadowDone : Bool := true
  probeFail : Option (Fin 19) := none
  flt : BitVec 64 := 0
  coreTrap : Option (Fin 2) := none
  /-- from now on the CMD core cannot complete the command that it takes next -/
  internal : Bool := false
  /-- words of CMD, SUP and engine memories that their owners read in the block (17 R451, R453) -/
  ownReads : List Word := []
  /-- a locked sequence that has been granted and runs: its master and target (16 R439) -/
  locked : Option (Byte × BitVec 5) := none
  deriving DecidableEq, Repr

/-- Why the PCIe transport is reset (15 R405). -/
inductive PcieCause where
  | linkDown | perst | flr
  deriving DecidableEq, Repr

/-- What the clock monitors report (10 R271): the MOD PLL's lock detector loses lock or finds it again, or a run of 256
MEDIA clocks was counted; a run that does not complete counts 4188 CORE clocks. A count within the limits ends a period
error. -/
inductive ClockCause where
  | modUnlock
  | modLock
  | mediaRun (count : BitVec 13)
  deriving DecidableEq, Repr

/-- The heartbeat paths (12 R340). -/
inductive HbPath where
  | T | L | D
  deriving DecidableEq, Repr

/-- A mend capture or ring copy carried in the bulk section (12 R335, R336): named words of a region. -/
structure BulkWord where
  region : Fin 64
  key : Nat
  value : Nat
  deriving DecidableEq, Repr

/-- One record of the command mirror section of a block frame (12 R325, R329, R330). -/
inductive MirrorRec where
  /-- a command forwarded to the lead: opcode, header, parameter words -/
  | command (opcode : BitVec 16) (h : Hdr) (params : List Word)
  /-- the lead's reply to a forwarded command -/
  | reply (h : Hdr) (words : List Word)
  /-- the lead's mirrored tack set, sent for validation -/
  | tackSet (items : List (Word × Dword))
  /-- a rebuild of the lead has begun: the lookup items of its tack set (06 R172) -/
  | rebuild (items : List (Word × Dword))
  /-- the standby's verdict: 0 or the refusing status, and the failing item -/
  | verdict (status : Byte) (item : Word)
  /-- a press that lands at L, with its mirrored items, and whether it is a PRESS_AT -/
  | press (L : Dword) (items : List (Word × Dword)) (named : Bool)
  /-- a mirrored PROFILE_SET that lands at L and resumes at A, with the mirrored items that it applies -/
  | profile (p : Profile) (L A : Dword) (items : List (Word × Dword))
  /-- the peer has completed its airing copy -/
  | airingDone
  /-- a mend request for a region -/
  | mend (region : Fin 64)
  /-- a waiting PRESS_AT is withdrawn -/
  | withdraw (L : Dword)
  /-- a swap of roles that lands at L -/
  | swap (L : Dword)
  deriving DecidableEq, Repr

/-- A twin block frame as received (12 R325). -/
structure TwinFrame where
  n : Dword
  peg : BitVec 6
  role : BitVec 3
  unmatched : Bool
  safe : Bool
  epoch : Word
  level : Byte
  paths : BitVec 3
  health : BitVec 16
  version : Word := 0
  serial : List (Nat × List TSample) := []
  analogue : List (List TSample) := []
  digest : List Dword := []
  /-- number of the first mirror record, and how many of the peer's the sender has taken (log 85) -/
  first : Nat := 0
  heard : Nat := 0
  mirror : List MirrorRec := []
  bulk : List BulkWord := []
  deriving DecidableEq, Repr

/-- One heartbeat frame's fields (12 R341). -/
structure Heartbeat where
  level : Byte
  peg : Byte
  role : BitVec 3
  unmatched : Bool
  safe : Bool
  epoch : Word
  paths : BitVec 3
  twinLevel : Byte
  peer : Byte
  block : Dword
  health : BitVec 16
  profile : Profile := .F
  deriving DecidableEq, Repr

/-- What one 1 kHz scan measures (09 R250 to R259): for each input the contact, R_c and R_d in ohms; for each
contact the loop resistance in ohms; the battery and rail converter codes. -/
structure ScanIn where
  t : Nat
  inputs : List (Bool × Nat × Nat)
  loops : List Nat
  batt : BitVec 12
  rails : List (BitVec 12)
  deriving DecidableEq, Repr

/-- What guards CHATTER on an input or a contact (09 R253, R256). -/
inductive ChatterOf where
  | button (n : Fin 16) (k : Fin 4)
  | det (n : Fin 16)
  | contact (k : Fin 32)
  deriving DecidableEq, Repr

/-- An event of a reference input (11 R290, R293): what a 1 s gate that ends with it measured (0.01 ppb), media time minus
its time (ns), how far it lies from where it was expected (PTP and PPS_IN: ns; WCLK_IN and REF10M_IN: millionths of a
period), whether it is off the expected grid, and for input 4 whether it is an edge of PPS_IN and not of REF10M_IN. -/
structure RefEv where
  t : Nat
  gate : Option Int := none
  phase : Int := 0
  glitch : Nat := 0
  offGrid : Bool := false
  pps : Bool := false
  deriving DecidableEq, Repr

/-- The data set of an Announce message (11 R312, R314). -/
structure AnnounceMsg where
  gm : Dword
  priority1 : Byte
  clockClass : Byte
  accuracy : Byte
  variance : BitVec 16
  priority2 : Byte
  steps : BitVec 16
  sender : Dword
  deriving DecidableEq, Repr

/-- How a received PTP message came (11 R312): its domain, and over UDP/IPv4 or on layer 2. -/
structure PtpVia where
  domain : Byte := 0
  udp : Bool := false
  deriving DecidableEq, Repr

/-- Where and how a PTP message came in (11 R312): port LINKA, LINKB or DROP. -/
structure PtpRx where
  port : Fin 3
  via : PtpVia := {}
  deriving DecidableEq, Repr

/-- The identity of a PTP port: its clock and its number (11 R314). -/
structure PtpPortId where
  clock : Dword
  port : BitVec 16
  deriving DecidableEq, Repr

/-- What a Delay_Resp tells (11 R313): when the master received the Delay_Req (ns), and the correction (ns). -/
structure DelayResp where
  receipt : Nat
  correction : Int
  deriving DecidableEq, Repr

/-- The pins of an SFP+ module's optics (07 R189): TX_FAULT and RX_LOS. -/
structure SfpOptics where
  txFault : Bool
  rxLos : Bool
  deriving DecidableEq, Repr

/-- A channel of a serial audio port (08 R226): transmit or receive, and its number. -/
structure SapSlot where
  tx : Bool
  ch : Fin 32
  deriving DecidableEq, Repr

/-- One host memory access through a BAR: offset, byte count and, for a write, the bytes, with the positions of those that are
not enabled (15 R403, R404), and whether it is a locked request (16 R439). -/
structure BarReq where
  bar2 : Bool
  offset : Nat
  size : Nat
  write : Bool
  data : List Byte := []
  off : List Nat := []
  locked : Bool := false
  upsets : List Upset := []
  deriving DecidableEq, Repr

/-- What the host writes into the configuration space of the function (15 R402, R415): Bus Master Enable, MSI-X Enable, the
function mask, and the power state D3hot. -/
structure PciCfg where
  bme : Bool := true
  msixEn : Bool := true
  funcMask : Bool := false
  d3hot : Bool := false
  deriving DecidableEq, Repr

/-- A data link that comes up: its lanes as HOST_STATUS.WIDTH codes them (15 R424), and what the host then configures. -/
structure PcieUp where
  width : BitVec 3
  cfg : PciCfg := {}
  deriving DecidableEq, Repr

/-- One access of a locked sequence (16 R439). -/
structure LockAcc where
  addr : Word
  write : Bool := false
  size : Nat := 4
  deriving DecidableEq, Repr

/-- The registers whose read latches companions (95, LATCHING_READ). -/
inductive LatchReg where
  | blkLo | landLo | zMag (m : Fin 64) | ptpNs | errFirst | errHead
  deriving DecidableEq, Repr

/-- The monitored supply rails (20 R515). -/
inductive Rail where
  | core | mem | io18
  deriving DecidableEq, Repr

/-- JTAG instructions (21 R532). -/
inductive JtagIr where
  | bypass | idcode | sample | extest
  deriving DecidableEq, Repr

/-- The header fields of an image that matter after it verified (19 R500). -/
structure ImageHead where
  version : Word
  levels : Word
  keySlot : Fin 4
  revoke : BitVec 4
  /-- of an image that came with the flash: its KEY matches the OTP hash, and its SIGNATURE verifies -/
  keyGood : Bool := true
  signed : Bool := true
  deriving DecidableEq, Repr

/-- A boot record (19 R499). -/
structure BootRec where
  seq : Word := 0
  select : Nat := 0
  trial : Bool := false
  tried : Bool := false
  prev : Nat := 0
  deriving DecidableEq, Repr

/-- What a job reports when it ends, where its outcome depends on what it met (14 R393, R396, R399): for RINSE the
errors found; for SELF_TEST the result words; for FLOW_TABLE_REBUILD whether the read-back verified. -/
structure JobFind where
  corrected : List Nat := []
  uncorrected : List Nat := []
  tests : List Word := []
  failed : Bool := false
  deriving DecidableEq, Repr

/-- The commands: one constructor per row of spec/opcode_table.json, in the table's order. -/
inductive Instr where
  | hello (h : Hdr) (level : Word)
  | getVersion (h : Hdr)
  | tackSet (h : Hdr) (items : List (Word × Dword))
  | tackGet (h : Hdr) (ids : List Word)
  | tackClear (h : Hdr)
  | press (h : Hdr)
  | pressAt (h : Hdr) (L : Dword)
  | pressedGet (h : Hdr) (ids : List Word)
  | tackList (h : Hdr) (first : Word)
  | jobStatus (h : Hdr) (slot : Word)
  | jobResultRead (h : Hdr) (slot first count : Word)
  | jobAbandon (h : Hdr) (slot w1 : Word)
  | snapshot (h : Hdr) (ranges : List (Word × Word))
  | ledgerRead (h : Hdr)
  | countersRead (h : Hdr) (set first count : Word)
  | rinse (h : Hdr) (start len : Word)
  | fill (h : Hdr) (start len value tag : Word)
  | lineSweep (h : Hdr) (groups : Word)
  | pilotMeasure (h : Hdr) (mask : Dword) (window : Word)
  | channelRetry (h : Hdr) (mask : Dword)
  | selfTest (h : Hdr) (tests : Word)
  | flowTableRebuild (h : Hdr)
  | refForce (h : Hdr) (input : Word)
  | refClearHistory (h : Hdr)
  | twinMend (h : Hdr) (mask : Dword)
  | twinSwap (h : Hdr)
  | twinForceLead (h : Hdr)
  | imageStage (h : Hdr) (slot offset : Word) (data : List Word)
  | imageVerify (h : Hdr) (slot : Word)
  | imageActivate (h : Hdr) (w0 : Word)
  | errRead (h : Hdr) (w0 w1 : Word)
  | errAck (h : Hdr) (code : Word) (blk : Dword)
  | safeExit (h : Hdr)
  | profileSet (h : Hdr) (code : Word) (L : Dword)
  | pegReport (h : Hdr)
  | sessionOpen (h : Hdr) (nonce : List Word)
  | csrWrite (master : Byte) (addr value : Word)
  | hostReqProdWrite (master : Byte) (value : BitVec 16)
  | requestRingEntry (t : Nat)
  | hostRplConsWrite (master : Byte) (value : BitVec 16)
  | hostIrqPendClear (master : Byte) (value : Word)
  | msixUnmask (vec : Option (Fin 32))
  | pcieReset (cause : PcieCause)
  | pcieLinkUp (speed : BitVec 2) (link : PcieUp)
  | spiWrite (addr : Word) (bytes : List Byte) (upsets : List Upset)
  | spiRead (addr : Word) (words : Nat) (late : List Bool) (upsets : List Upset)
  | spiStatus (count : Nat)
  | cmdPut (bytes : List Byte)
  | rplGet (count : Nat)
  | spiUnknownOpcode (op : Byte)
  | mbxGo (master : Byte) (c : Fin 16) (len : BitVec 5) (t : Nat)
  | mbxAck (master : Byte) (c : Fin 16)
  | mbxCancel (master : Byte) (c : Fin 16)
  | mbxBindWrite (master : Byte) (c : Fin 16) (value : Word)
  | mbxLockSet (master : Byte)
  | mbxDbRingWrite (master : Byte) (i : Fin 28) (value : Word)
  | crossWaitDetect (c d : Fin 16) (t : Nat)
  | replyCancel (c : Fin 16) (t : Nat)
  | busLockRead (master : Byte) (n : Fin 32)
  | busLockWrite (master : Byte) (n : Fin 32) (value : Word)
  | busLockForce (master : Byte) (value : Word)
  | busService (master : Byte) (key : BitVec 16)
  | lockTimeout (master : Byte) (target : BitVec 5) (rest : List LockAcc)
  | errHeadAck (master : Byte) (value : Word)
  | errRearmBus (master : Byte)
  | errRearmMem (master : Byte)
  | overflowSeenClear (master : Byte)
  | commandPacket
  | blockTick (inp : TickIn)
  | firBankRewrite (m : Fin 64)
  | flowTableRewrite
  | pressLands
  | todSet (t : Nat)
  | pageRelease
  | crossfadeEnd
  | rampEnd
  | firExchangeEnd (m : Fin 64)
  | gateHoldExpiry (src : BitVec 12)
  | sinkWindowBoundary (e : BitVec 12)
  | tickStop
  | sapColdRestart
  | coldPressResume (t : Nat)
  | mediaSilent (t : Nat)
  | mediaResume (t : Nat)
  | xqSourceSilent (k : Fin 19) (midWrite : Bool)
  | xqSourceResume (k : Fin 19)
  | clockError (cause : ClockCause) (t : Nat)
  | clockQualified (t : Nat)
  | channelTrip (m : Fin 64) (driver : Bool) (t : Nat)
  | tripReport (m : Fin 64)
  | retryStart (m : Fin 64)
  | retryEnd (m : Fin 64)
  | rampUpComplete (m : Fin 64)
  | disableRampEnd (m : Fin 64)
  | playAttemptReset (m : Fin 64)
  | railTripHoldEnd (k : Fin 8) (t : Nat)
  | xq6InputLost (t : Nat)
  | xq6InputResume (t : Nat)
  | pilotWindowEnd (m : Fin 64)
  | sweepPointEnd (k : Fin 8)
  | jobStart (slot : Fin 64)
  | rebuildComplete
  | airingIntervalEnd
  | airingWithdraw
  | copyArrival (port : Fin 2) (t : Nat)
  | sessionIdleClose (id : BitVec 16) (t : Nat)
  | presentationClose
  | missingWindow (ctx : BitVec 10)
  | pathLost (k : Fin 4)
  | linkFrameRx (port : Fin 2) (bytes : List Byte) (fcsOk : Bool) (t : Nat)
  | rxTruncation (mac : Fin 3) (bytes : List Byte) (t : Nat)
  | hamperRefill (mac : Fin 3) (ring : Fin 8)
  | bufferReturn (mac : Fin 3) (ring : Fin 8)
  | txRingPoll (mac : Fin 3) (ring : Fin 8) (t : Nat)
  | linkTxFrameEnd (port : Fin 2) (t : Nat)
  | audioFrameStale (port : Fin 2)
  | linkUp (port : Fin 2) (t : Nat)
  | linkDown (port : Fin 2) (blockLock localFault remoteFault : Bool)
  | sfpFault (port : Fin 2) (modAbs : Bool) (optics : SfpOptics)
  | dropTxOpportunity (t : Nat)
  | dropCollision (lateColl : Bool) (t : Nat)
  | dropTxEnd (t : Nat)
  | dropQ3Stale (t : Nat)
  | dropFrameRx (bytes : List Byte) (fcsOk : Bool) (t : Nat)
  | speechFrameRx (bytes : List Byte) (fcsOk : Bool) (t : Nat)
  | speechWindow (n : Fin 4)
  | twinFrameRx (frame : TwinFrame)
  | twinFrameMissed (bad : Bool)
  | twinLinkChange (lane0 lane1 aligned : Bool)
  | heartbeatSendL (t : Nat)
  | heartbeatSendD (t : Nat)
  | heartbeatRx (drop : Bool) (hb : Heartbeat) (t : Nat)
  | roleTakeEffect
  | pathFail (p : HbPath) (t : Nat)
  | pathTRestore
  | sapFrame (p : Fin 16) (din : List Bool)
  | nonaudioRelease (p : Fin 16) (k : Fin 16)
  | leadFramesEnd (p : Fin 16)
  | zeroCrossing (p : Fin 16) (slot : SapSlot) (word : Word)
  | zcTimeout (p : Fin 16) (tx : Bool) (ch : Fin 32)
  | sapStoppingEnd (p : Fin 16)
  | ainScan (s : ScanIn)
  | insertionChange (n : Fin 16)
  | classChange (n : Fin 16)
  | buttonChange (n : Fin 16) (k : Fin 4)
  | chatterEnd (c : ChatterOf)
  | stuck (n : Fin 16) (k : Fin 4)
  | biasOverload (n : Fin 16)
  | ainGainStep (n : Fin 16)
  | contactStateChange (k : Fin 32)
  | mainsHalfCycle (rms : Nat) (freq : Option Nat) (t : Nat)
  | mainsZcTimeout (t : Nat)
  | mainsRestore (t : Nat)
  | batteryCondition (critical : Bool)
  | railWindow (r : Fin 8)
  | refEvent (x : Fin 6) (ev : RefEv)
  | inputStopped (x : Fin 6) (t : Nat)
  | inputQualified (x : Fin 6) (t : Nat)
  | wtrExpiry (x : Fin 6) (t : Nat)
  | driftVote (t : Nat)
  | selectorEvaluation (t : Nat)
  | switchComplete (t : Nat)
  | dpllLocked (t : Nat)
  | holdoverLimit (t : Nat)
  | modelUpdate (temp : Int) (t : Nat)
  | modelValid
  | tickIndexReload
  | ptpSyncRx (rx : PtpRx) (origin ingress : Nat) (correction : Int) (master : Dword) (t : Nat)
  | announceTimeout (m : Fin 3) (t : Nat)
  | announceRx (rx : PtpRx) (a : AnnounceMsg) (t : Nat)
  | masterReturn (m : Fin 3) (t : Nat)
  | announceSend (m : Fin 3) (t : Nat)
  | syncSend (m : Fin 3) (t : Nat)
  | delayReqRx (rx : PtpRx) (requester : PtpPortId) (seq : BitVec 16) (t : Nat)
  | safeEntry (t : Nat)
  | coreReload (verified : Bool)
  | safeExitStart
  | safeStateEnd
  | exitAbandon
  | engineReload (n : Fin 24)
  | dmaRestart (c : Fin 4) (upsets : List Upset)
  | backgroundRinsePass (corrected uncorrected : List Nat)
  | tempThreshold (temp : Int)
  | thermalTrip
  | brownOut (rail : Rail)
  | resetAssert
  | testEnReset (high : Bool)
  | resetRelease
  | headPeg (t : Nat)
  | pegTokenRx (first second : Byte) (t : Nat)
  | pegTokenSend (t : Nat)
  | romBoot (flashOk : Bool) (records : List (List Word)) (images : List (Option ImageHead))
  | imageLoad
  | sramInit
  | stageRefEntry (t : Nat)
  | refWaitEnd (t : Nat)
  | delayStoreInit
  | twinStageEnd (t : Nat)
  | audioEnable (t : Nat)
  | startupWatchdog (t : Nat)
  | jobEnd (slot : Fin 64) (find : JobFind) (t : Nat)
  | backgroundErase (slot : Fin 2) (sectors : Nat)
  | coldPressLedgerCheck (t : Nat)
  | latchingRead (master : Byte) (r : LatchReg)
  | barAccess (req : BarReq)
  | delayRespRx (rx : PtpRx) (seq : BitVec 16) (resp : DelayResp) (t : Nat)
  | boundaryScan (ir : JtagIr) (shift : List Bool)
  deriving DecidableEq, Repr

end Sys2Proof
end

