-- ==== Sys2Proof/Machine/Maps.lean ====
section
/-! DEFINITION. Maps by index, bit fields and byte order: the plain helpers of the machine. -/

namespace Sys2Proof.Machine

/-- The value at index `k`. -/
def mget? {α : Type} : List (Nat × α) → Nat → Option α
  | [], _ => none
  | (i, v) :: m, k => if k = i then some v else if k < i then none else mget? m k

/-- The value at index `k`, or `d`. -/
def mget {α : Type} (m : List (Nat × α)) (k : Nat) (d : α) : α := (mget? m k).getD d

/-- The map with index `k` at `v`. -/
def mset {α : Type} : List (Nat × α) → Nat → α → List (Nat × α)
  | [], k, v => [(k, v)]
  | (i, w) :: m, k, v =>
    if k = i then (k, v) :: m else if k < i then (k, v) :: (i, w) :: m else (i, w) :: mset m k v

/-- The map without index `k`. -/
def mdel {α : Type} : List (Nat × α) → Nat → List (Nat × α)
  | [], _ => []
  | (i, w) :: m, k => if k = i then m else if k < i then (i, w) :: m else (i, w) :: mdel m k

/-- The map with index `k` at `f` of its value there. -/
def mmod {α : Type} (m : List (Nat × α)) (k : Nat) (d : α) (f : α → α) : List (Nat × α) := mset m k (f (mget m k d))

/-- Every value changed by `f` of its index. -/
def mmap {α : Type} (m : List (Nat × α)) (f : Nat → α → α) : List (Nat × α) := m.map fun p => (p.1, f p.1 p.2)

/-- The indices of a map. -/
def mkeys {α : Type} (m : List (Nat × α)) : List Nat := m.map Prod.fst

/-- The entries from index `lo` up to, not including, `hi`. -/
def mrange {α : Type} (m : List (Nat × α)) (lo hi : Nat) : List (Nat × α) :=
  m.filter fun p => lo ≤ p.1 && p.1 < hi

/-- Element `i` of a list, changed by `f`. -/
def lmod {α : Type} (l : List α) (i : Nat) (f : α → α) : List α := l.modify i f

/-- 1 for true. -/
def b2n (b : Bool) : Nat := if b then 1 else 0

/-- The field of `w` bits from bit `lo` of `x`. -/
def field (x lo w : Nat) : Nat := (x >>> lo) % 2 ^ w

/-- Bit `i` of `x`. -/
def bitOf (x i : Nat) : Bool := x.testBit i

/-- A 32-bit word from fields (lowest bit, width, value); values are cut to their width. -/
def pack (fs : List (Nat × Nat × Nat)) : Word :=
  BitVec.ofNat 32 (fs.foldl (fun a f => a + (f.2.2 % 2 ^ f.2.1) * 2 ^ f.1) 0)

/-- A word whose bit i is `p i`. -/
def packBits (n : Nat) (p : Nat → Bool) : Nat := (List.range n).foldl (fun a i => a + b2n (p i) * 2 ^ i) 0

/-- The low and high words of a 64-bit quantity. -/
def lo32 (n : Nat) : Word := BitVec.ofNat 32 n
def hi32 (n : Nat) : Word := BitVec.ofNat 32 (n / 2 ^ 32)

/-- The 64-bit quantity of two words, low word first (14 R383). -/
def join64 (lo hi : Word) : Nat := lo.toNat + hi.toNat * 2 ^ 32

/-- `n` little-endian bytes of `x`. -/
def leBytes : Nat → Nat → List Byte
  | 0, _ => []
  | n + 1, x => BitVec.ofNat 8 x :: leBytes n (x / 256)

/-- The little-endian number of some bytes. -/
def ofLe : List Byte → Nat
  | [] => 0
  | b :: bs => b.toNat + 256 * ofLe bs

/-- `n` big-endian bytes of `x`. -/
def beBytes (n x : Nat) : List Byte := (leBytes n x).reverse

/-- The big-endian number of some bytes. -/
def ofBe (bs : List Byte) : Nat := ofLe bs.reverse

/-- The bytes of words, each little-endian (00 R4). -/
def wordBytes (ws : List Word) : List Byte := ws.flatMap fun w => leBytes 4 w.toNat

/-- Whole little-endian words of some bytes; a part of a word at the end is dropped. -/
def bytesWords : List Byte → List Word
  | a :: b :: c :: d :: r => BitVec.ofNat 32 (ofLe [a, b, c, d]) :: bytesWords r
  | _ => []

/-- `a` mod `m` for 16-bit ring indices. -/
def ringDiff (a b : BitVec 16) : Nat := (a - b).toNat

/-- A signed value cut to `n` bits, and read back. -/
def signed (n x : Nat) : Int := if x % 2 ^ n < 2 ^ (n - 1) then (x % 2 ^ n : Nat) else (x % 2 ^ n : Nat) - (2 ^ n : Nat)

/-- The `n`-bit two's-complement pattern of an integer. -/
def pattern (n : Nat) (v : Int) : Nat := (v % (2 ^ n : Nat)).toNat

/-- A word from a natural number, and from a signed number that saturates at 32 bits. -/
def w32 (n : Nat) : Word := BitVec.ofNat 32 n
def sat32 (v : Int) : Word := BitVec.ofNat 32 (pattern 32 (max (-2147483648) (min 2147483647 v)))

/-- Saturating count up to `top`. -/
def satInc (top n : Nat) : Nat := if n < top then n + 1 else n

/-- Ceiling of a quotient. -/
def ceilDiv (a b : Nat) : Nat := (a + b - 1) / b

/-- The positions at which `p` holds, below `n`. -/
def indices (n : Nat) (p : Nat → Bool) : List Nat := (List.range n).filter p

/-- Sum of a list. -/
def total (l : List Nat) : Nat := l.foldl (· + ·) 0

end Sys2Proof.Machine
end

