-- ==== Sys2Proof/Machine/Exact.lean ====
section
/-! DEFINITION. The exact real-valued formulas of the spec, rounded under 00 R540. Powers of ten with a rational exponent
of a small denominator are decided by comparing exact powers; sines, exponentials and the compressor's target are
computed to 192 fraction bits (log 18). -/

namespace Sys2Proof.Machine

/-- The greatest `r` below `acc + 2^bits` that satisfies the downward closed `p`. -/
def greatest (p : Nat → Bool) : Nat → Nat → Nat
  | 0, acc => acc
  | b + 1, acc => greatest p b (if p (acc + 2 ^ b) then acc + 2 ^ b else acc)

/-- round(s x 10^(g / 2000)) (00 R540): r <= x + 1/2 is decided by 2000th powers. -/
def roundPow10 (s : Nat) (g : Int) : Nat :=
  if g = 0 then s else greatest (fun r => decide ((2 * r - 1) ^ 2000 * 10 ^ (-g).toNat ≤ (2 * s) ^ 2000 * 10 ^ g.toNat)) 34 0

/-- round(2^30 / sqrt n) (03 R81). -/
def roundRoot (n : Nat) : Nat := greatest (fun r => decide ((2 * r - 1) ^ 2 * n ≤ 2 ^ 62)) 31 0

/-- round(a / b), halves away from zero (00 R540). -/
def roundDiv (a : Int) (b : Nat) : Int :=
  if 0 ≤ a then (2 * a + b) / (2 * b : Nat) else -((2 * (-a) + b) / (2 * b : Nat))

/-- round(2000 x log10(e / 2^27)) for e > 0 (04 R115): the greatest l with 10^(2l - 1) <= (e / 2^27)^4000. -/
def level (e : Nat) : Int :=
  (greatest (fun k =>
    let m : Int := 2 * ((k : Int) - 20000) - 1
    decide (10 ^ m.toNat * 2 ^ 108000 ≤ e ^ 4000 * 10 ^ (-m).toNat)) 15 0 : Nat) - 20000

/-- Fraction bits of the fixed-point evaluations. -/
def fxBits : Nat := 192

/-- x^1/1 + x^3/3 + ..., or with alternating signs, for x = 1/k: atanh or atan of 1/k, in fixed point. -/
def atanSum (alt : Bool) (k : Nat) : Nat → Nat → Nat → Int
  | 0, _, _ => 0
  | f + 1, i, p =>
    let t : Int := ((p / (2 * i + 1) : Nat) : Int)
    (if alt && i % 2 = 1 then -t else t) + atanSum alt k f (i + 1) (p / (k * k))

def atanFx (k : Nat) : Int := atanSum true k 100 0 (2 ^ fxBits / k)
def atanhFx (k : Nat) : Int := atanSum false k 100 0 (2 ^ fxBits / k)

/-- Pi, by Machin's formula. -/
def piFx : Int := 4 * (4 * atanFx 5 - atanFx 239)

/-- ln 10 = 6 atanh(1/3) + 2 atanh(1/9). -/
def ln10Fx : Int := 6 * atanhFx 3 + 2 * atanhFx 9

/-- Product of fixed-point values. -/
def fxMul (a b : Int) : Int := a * b / (2 ^ fxBits : Nat)

/-- Sum of x^i / i! from term i on, where `t` is term i. -/
def expSum (x : Int) : Nat → Nat → Int → Int
  | 0, _, _ => 0
  | f + 1, i, t => t + expSum x f (i + 1) (fxMul t x / ((i + 1 : Nat) : Int))

/-- exp of a fixed-point value of small size. -/
def expFx (x : Int) : Int := expSum x 100 0 (2 ^ fxBits : Nat)

/-- Sum of the sine series from the term of x^(2i+1) on. -/
def sinSum (x2 : Int) : Nat → Nat → Int → Int
  | 0, _, _ => 0
  | f + 1, i, t => t + sinSum x2 f (i + 1) (-(fxMul t x2 / (((2 * i + 2) * (2 * i + 3) : Nat) : Int)))

/-- A fixed-point value times s, rounded. -/
def fxRound (s : Nat) (x : Int) : Int := (2 * s * x + (2 ^ fxBits : Nat)) / (2 ^ (fxBits + 1) : Nat)

/-- round(2^30 x sin(pi a / 2b)) for 0 <= a <= b. -/
def sinQ (a b : Nat) : Int :=
  let x := piFx * a / (2 * b : Nat)
  fxRound (2 ^ 30) (sinSum (fxMul x x) 60 0 x)

/-- Sine and cosine of a / b of a turn, in fixed point. -/
def sinTurn (a b : Nat) : Int :=
  let q := 4 * (a % b) / b
  let r := 4 * (a % b) % b
  let x := piFx * (if q % 2 = 0 then r else b - r : Nat) / (2 * b : Nat)
  let s := sinSum (fxMul x x) 60 0 x
  if q < 2 then s else -s
def cosTurn (a b : Nat) : Int := sinTurn (4 * a + b) (4 * b)

/-- T[k] of the generators' sine table (03 R72). -/
def sineTable (k : Nat) : Int :=
  let q := (k / 256) % 4
  let r := k % 256
  let m := if q % 2 = 0 then sinQ r 256 else sinQ (256 - r) 256
  if q < 2 then m else -m

/-- round(2^27 x 10^(p / q)) for a rational exponent (04 R115). -/
def pow10Ratio (p : Int) (q : Nat) : Nat :=
  let i := p / (q : Int)
  let f := p % (q : Int)
  let m := expFx (ln10Fx * f / (q : Int))
  (if 0 ≤ i then fxRound (2 ^ 27 * 10 ^ i.toNat) m
   else (2 * 2 ^ 27 * m / (10 ^ (-i).toNat : Nat) + (2 ^ fxBits : Nat)) / (2 ^ (fxBits + 1) : Nat)).toNat

/-- round(2^30 x (1 - exp(-a / b))) (04 R115). -/
def oneMinusExp (a b : Nat) : Int :=
  let x : Int := (2 ^ fxBits : Nat) * a / (b : Int)
  -- a large exponent leaves nothing of the exponential
  if 20 * b < a then 2 ^ 30 else
    let e := expFx (x / 16)
    let e2 := fxMul e e
    let e4 := fxMul e2 e2
    let e8 := fxMul e4 e4
    let e16 := fxMul e8 e8
    fxRound (2 ^ 30) ((2 ^ fxBits : Nat) - (2 ^ (2 * fxBits) : Nat) / e16)

end Sys2Proof.Machine
end

