-- ==== Sys2Proof/Machine/Crypto.lean ====
section
/-! DEFINITION. The checks the spec names: CRC-32C (13 R358), the Ethernet CRC-32 (07 R191), SHA-256 and HMAC-SHA-256
(06 R180), ECDSA over P-256 (19 R500). The spec gives the CRC-32C; the others are the published algorithms
(PRESUMED, log 19). -/

namespace Sys2Proof.Machine

/-- Eight steps of a reflected CRC. -/
def crcBits (poly : Nat) : Nat → Nat → Nat
  | 0, c => c
  | n + 1, c => crcBits poly n (if c % 2 = 1 then (c / 2) ^^^ poly else c / 2)

/-- One byte into a reflected CRC. -/
def crcByte (poly c : Nat) (b : Byte) : Nat := crcBits poly 8 (c ^^^ b.toNat)

/-- A reflected 32-bit CRC with initial value and final XOR 0xFFFF_FFFF. -/
def crc (poly : Nat) (bs : List Byte) : Word :=
  BitVec.ofNat 32 ((bs.foldl (crcByte poly) 0xFFFFFFFF) ^^^ 0xFFFFFFFF)

/-- CRC-32C (13 R358): polynomial 0x1EDC_6F41, reflected. -/
def crc32c (bs : List Byte) : Word := crc 0x82F63B78 bs

/-- The Ethernet CRC-32. -/
def crc32 (bs : List Byte) : Word := crc 0xEDB88320 bs

/-! SHA-256, with its constants computed from the primes, and its eight working variables kept as the last four values of
two running sequences -/

def firstPrimes : List Nat :=
  (List.range 312).filter fun n => decide (1 < n) && (List.range 18).all fun d => decide (d < 2) || d = n || decide (n % d ≠ 0)

/-- The first 32 fraction bits of the k-th root of p. -/
def rootBits (k p : Nat) : Word := BitVec.ofNat 32 (greatest (fun r => decide (r ^ k ≤ p * 2 ^ (32 * k))) 37 0)

/-- A word's rotations, combined. -/
def spin (x : Word) (ns : List Nat) : Word := ns.foldl (fun a n => a ^^^ x.rotateRight n) 0

/-- The state within a block: both sequences, newest first, and the next sixteen words of the schedule. -/
structure Digester where
  up : List Word
  low : List Word
  ahead : List Word

/-- One of the 64 rounds. -/
def Digester.round (s : Digester) (k : Word) : Digester :=
  let x := fun i => s.up.getD i 0
  let y := fun i => s.low.getD i 0
  let w := fun i => s.ahead.getD i 0
  let choice := y 2 ^^^ (y 0 &&& (y 1 ^^^ y 2))
  let most := (x 0 &&& (x 1 ||| x 2)) ||| (x 1 &&& x 2)
  let t := k + w 0 + y 3 + choice + spin (y 0) [6, 11, 25]
  let fresh := w 0 + w 9 + (spin (w 1) [7, 18] ^^^ w 1 >>> 3) + (spin (w 14) [17, 19] ^^^ w 14 >>> 10)
  { up := (t + most + spin (x 0) [2, 13, 22]) :: s.up.take 3, low := (t + x 3) :: s.low.take 3, ahead := s.ahead.drop 1 ++ [fresh] }

/-- The chaining value after one more block of 64 bytes. -/
def digestBlock (ks h : List Word) (block : List Byte) : List Word :=
  let ahead := (List.range 16).map fun i => BitVec.ofNat 32 (ofBe ((block.drop (4 * i)).take 4))
  let r := ks.foldl Digester.round { up := h.take 4, low := h.drop 4, ahead := ahead }
  (h.zip (r.up ++ r.low)).map fun p => p.1 + p.2

/-- SHA-256. -/
def sha256 (m : List Byte) : List Byte :=
  let n := (m.length + 72) / 64
  let padded := m ++ [0x80] ++ List.replicate (64 * n - 9 - m.length) 0 ++ beBytes 8 (8 * m.length)
  let ks := firstPrimes.map (rootBits 3)
  let h := (List.range n).foldl (fun h i => digestBlock ks h ((padded.drop (64 * i)).take 64)) ((firstPrimes.take 8).map (rootBits 2))
  h.flatMap fun w => beBytes 4 w.toNat

/-- HMAC-SHA-256. -/
def hmacSha256 (key m : List Byte) : List Byte :=
  let k0 := if key.length ≤ 64 then key else sha256 key
  let k := k0 ++ List.replicate (64 - k0.length) 0
  sha256 (k.map (· ^^^ 0x5c) ++ sha256 (k.map (· ^^^ 0x36) ++ m))

/-! ECDSA on P-256 -/

def p256 : Nat := 0xffffffff00000001000000000000000000000000ffffffffffffffffffffffff
def n256 : Nat := 0xffffffff00000000ffffffffffffffffbce6faada7179e84f3b9cac2fc632551
def b256 : Nat := 0x5ac635d8aa3a93e7b3ebbd55769886bc651d06b0cc53b0f63bce3c3e27d2604b
def g256 : Nat × Nat :=
  (0x6b17d1f2e12c4247f8bce6e563a440f277037d812deb33a0f4a13945d898c296,
   0x4fe342e2fe1a7f9b8ee7eb4a7c0f9e162bce33576b315ececbb6406837bf51f5)

/-- b^e mod m over the low `n` bits of e, most significant first. -/
def powMod (m b e : Nat) : Nat → Nat → Nat
  | 0, acc => acc
  | n + 1, acc =>
    let a := acc * acc % m
    powMod m b e n (if e.testBit n then a * b % m else a)

def invMod (m a : Nat) : Nat := powMod m (a % m) (m - 2) 256 1

/-- Addition of affine points; none is the point at infinity. -/
def ecAdd : Option (Nat × Nat) → Option (Nat × Nat) → Option (Nat × Nat)
  | none, q => q
  | p, none => p
  | some (x1, y1), some (x2, y2) =>
    let p := p256
    let slope : Option Nat :=
      if x1 = x2 then
        if (y1 + y2) % p = 0 then none
        else some ((3 * x1 * x1 + p - 3) % p * invMod p (2 * y1) % p)
      else some ((y2 + p - y1) % p * invMod p ((x2 + p - x1) % p) % p)
    match slope with
    | none => none
    | some l =>
      let x3 := (l * l + 2 * p - x1 - x2) % p
      some (x3, (l * (x1 + p - x3) + p - y1) % p)

/-- Scalar multiple over the low `n` bits of k, most significant first. -/
def ecMul (k : Nat) (q : Option (Nat × Nat)) : Nat → Option (Nat × Nat) → Option (Nat × Nat)
  | 0, acc => acc
  | n + 1, acc =>
    let d := ecAdd acc acc
    ecMul k q n (if k.testBit n then ecAdd d q else d)

/-- Whether (r, s) signs the digest `e` under the public key. -/
def ecdsaVerify (key : Nat × Nat) (e r s : Nat) : Bool :=
  let ok := 0 < r && r < n256 && 0 < s && s < n256 && key.1 < p256 && key.2 < p256 &&
    (key.2 * key.2) % p256 = (key.1 * key.1 * key.1 + (p256 - 3) * key.1 + b256) % p256
  ok &&
    let w := invMod n256 s
    match ecAdd (ecMul (e * w % n256) (some g256) 256 none) (ecMul (r * w % n256) (some key) 256 none) with
    | none => false
    | some q => q.1 % n256 = r

end Sys2Proof.Machine
end

