-- ==== Sys2Proof/Config.lean ====
section
/-! DEFINITION. The free values of the model: what the spec leaves open and the ZK9 nevertheless produces. Each is an
opaque constant, so nothing can be proved about its value; notes/assumptions names the entry of each. -/

namespace Sys2Proof.Config

/-- A fresh 32-bit value the spec does not state (log 4), by the state's counter. -/
opaque freeWord : Nat → BitVec 32

/-- The hash that manufacture programs into an OTP key slot (19 R501, log 6). -/
opaque keyHash : Nat → List (BitVec 8)

/-- A byte of a memory word that was never written, and whether its read meets no error, a corrected error or an
uncorrectable one (0, 1, 2): 17 R447 (log 7). -/
opaque unwrittenByte : Nat → BitVec 8
opaque unwrittenOutcome : Nat → Fin 3

/-- The syndrome of an ECC event; its coding is not specified (17 R459, log 8). -/
opaque syndrome : Nat → BitVec 8

/-- The firmware's own binary64 sine, cosine and square-root routines, and its power 10^x (04 R104, log 9), by the numbers
that the binary64 values stand for. -/
opaque fwSin : Rat → Rat
opaque fwCos : Rat → Rat
opaque fwSqrt : Rat → Rat
opaque fwPow10 : Rat → Rat

/-- Whether a quantity shown in steps is rounded up; the spec gives the step only (04 R128, log 10). -/
opaque stepUp : Int → Nat → Bool

/-- Which FREE pages a press takes: the position among them (04 R110, log 11). -/
opaque pagePick : Nat → Nat

/-- The mixing of one word into a region's digest (12 R333, log 12). -/
opaque digestMix : Nat → Nat → Nat → BitVec 64

/-- The ZK9 nonce and the session ID of a management session (06 R179, log 13). -/
opaque nonce : Nat → List (BitVec 32)
opaque sessionId : Nat → BitVec 16

/-- Output of the DROP speech rate converter: its filter is not given (07 R206, log 14). By the received samples around the
one that leaves (none where no frame brought it) and the position among those that the converter puts in its place. -/
opaque speechSample : List (Option Int) → Nat → BitVec 24

/-- The argument of an impedance whose voltage or current vector is 0, in 0.01 degree from -180 (10 R279, log 76). -/
opaque zeroArg : Int → Int → Int → Int → Fin 36001

/-- The random back-off of a collided DROP frame, in opportunities (07 R200, log 15). -/
opaque backoff : Nat → Nat

/-- The 64 KiB piece of the flow-table area in which the n-th copy lies (17 R450, log 31). -/
opaque flowPlace : Nat → Fin 4

/-- ADDR of a descriptor that firmware posts: where it keeps the frame is its own (07 R214, log 77): MAC, ring, descriptor. -/
opaque frameAddr : Nat → Nat → Nat → BitVec 32

/-- A measurement that the spec leaves to the analogue world: by kind, instance and counter (log 16). -/
opaque measured : Nat → Nat → Nat → Nat

/-- What an engine memory word holds (01 R11, log 17): recursive state, by kind (0 high-pass filter of a source, 1 biquads of
a chain, 2 compressor detector, 3 limiter gain, 4 bus scale, 5 history of an array filter), element and word; or none. -/
opaque engineWord : Nat → Option (Nat × Nat × Nat)

/-- What a core or engine memory holds after the image was loaded: the firmware's own bytes, by load and address (17 R448, log
44). -/
opaque imageByte : Nat → Nat → BitVec 8

/-- How far the background rinse has come, by CORE clock: it runs in the time that is left (17 R456, log 86). -/
opaque rinsePos : Nat → Nat

/-- The engine that an assignment of graph work gives an output of a pass (01 R11, log 17): assignment, pass, output. -/
opaque engineOf : Nat → Nat → Nat → Fin 24

/-- MOD_CH_m.STATE while XQ_8 is source silent: the code that reports a channel unknown is not given (01 R14, log 67). -/
opaque unknownState : Nat → Nat → BitVec 3

/-- The inactive level of BCLK of a serial port, by sap.bclk_edge: the spec does not give it (08 R234, R239, log 78). -/
opaque bclkIdle : Bool → Bool

/-- The cell of the boundary register that drives an output pin under EXTEST: the BSDL file gives it (21 R532, log 27). -/
opaque boundaryCell : Nat → Nat

end Sys2Proof.Config
end

