-- ==== Sys2Proof/Machine/Design.lean ====
section
/-! DEFINITION. The design of biquad and high-pass coefficients in IEEE 754 binary64 arithmetic (04 R104): the table'
formulas, each operation rounded to binary64, parts the firmware's own sine, cosine, power and square-root routines, which
the spec does not give (log 9). -/

namespace Sys2Proof.Machine

/-- A binary64 value, by the number it stands for. -/
abbrev F64 := Rat

/-- m x 2^e. -/
def scale2 (m : Int) (e : Int) : F64 := if 0 ≤ e then (m * 2 ^ e.toNat : Int) else mkRat m (2 ^ (-e).toNat)

/-- The nearest integer to a / b, halves to even. -/
def nearestEven (a b : Nat) : Nat :=
  let q := a / b
  let r := 2 * (a % b)
  if r < b || (r = b && q % 2 = 0) then q else q + 1

/-- The binary64 value nearest to a number, ties to even; the designs stay far below the largest one. -/
def toF64 (x : Rat) : F64 :=
  if x.num = 0 then 0
  else
    let n := x.num.natAbs
    let parts := fun (e : Int) => (n * 2 ^ (-e).toNat, x.den * 2 ^ e.toNat)
    let e0 : Int := (Nat.log2 n : Int) - Nat.log2 x.den - 52
    let q0 := parts e0
    let e := max (-1074) (if q0.1 < 2 ^ 52 * q0.2 then e0 - 1 else e0)
    let q := parts e
    let m : Int := nearestEven q.1 q.2
    scale2 (if x.num < 0 then -m else m) e

def fAdd (a b : F64) : F64 := toF64 (a + b)
def fSub (a b : F64) : F64 := toF64 (a - b)
def fMul (a b : F64) : F64 := toF64 (a * b)
def fDiv (a b : F64) : F64 := toF64 (a / b)

/-- Pi in binary64. -/
def piF64 : F64 := scale2 884279719003555 (-48)

/-- A quotient in Q4.28, rounded under 00 R540. -/
def toQ28 (x : F64) : Int := roundDiv (x.num * 2 ^ 28) x.den

/-- The numbers of a design row: c, alpha and A. -/
structure BqVars where
  c : F64
  al : F64
  A : F64

/-- c and alpha at f Hz with a quality of q. -/
def bqVars (f q A : F64) (fs : Nat) : BqVars :=
  let w := fDiv (fMul (fMul 2 piF64) f) fs
  { c := Config.fwCos w, al := fDiv (Config.fwSin w) (fMul 2 q), A := A }

/-- A shelf (04 R104): `s` is 1 for the low and -1 for the high shelf; b0, b1, b2, a0, a1, a2. -/
def shelf (s : F64) (v : BqVars) : List F64 :=
  let up := fAdd v.A 1
  let dn := fSub v.A 1
  let upc := fMul up v.c
  let dnc := fMul dn v.c
  let root := fMul (fMul 2 (Config.fwSqrt v.A)) v.al
  let num := fSub up (s * dnc)
  let den := fAdd up (s * dnc)
  [fMul v.A (fAdd num root), fMul (fMul (2 * s) v.A) (fSub dn (s * upc)), fMul v.A (fSub num root),
    fAdd den root, fMul (-2 * s) (fAdd dn (s * upc)), fSub den root]

/-- The rows of the table for types 1 to 8: b0, b1, b2, a0, a1, a2. -/
def bqRow (t : Nat) (v : BqVars) : List F64 :=
  let b1 := -2 * v.c
  let tail := [fAdd 1 v.al, b1, fSub 1 v.al]
  match t with
  | 1 => [fAdd 1 (fMul v.al v.A), b1, fSub 1 (fMul v.al v.A), fAdd 1 (fDiv v.al v.A), b1, fSub 1 (fDiv v.al v.A)]
  | 2 => shelf 1 v
  | 3 => shelf (-1) v
  | 4 => let h := fSub 1 v.c; [fDiv h 2, h, fDiv h 2] ++ tail
  | 5 => let h := fAdd 1 v.c; [fDiv h 2, -h, fDiv h 2] ++ tail
  | 6 => [v.al, 0, -v.al] ++ tail
  | 7 => [1, b1, 1] ++ tail
  | _ => [fSub 1 v.al, b1, fAdd 1 v.al] ++ tail

/-- b0, b1, b2, a1 and a2 in Q4.28. -/
def bqQuotients (r : List F64) : Int × Int × Int × Int × Int :=
  let k := fun i => toQ28 (fDiv (r.getD i 0) (r.getD 3 1))
  (k 0, k 1, k 2, k 4, k 5)

/-- The coefficients of a biquad: type, frequency in mHz, gain in 0.01 dB, quality in 0.001, sample rate. -/
def bqDesign (t f : Nat) (g : Int) (q fs : Nat) : Int × Int × Int × Int × Int :=
  let A := Config.fwPow10 (fDiv (fDiv g 100) 40)
  bqQuotients (bqRow t (bqVars (fDiv f 1000) (fDiv q 1000) A fs))

/-- The coefficients of a high-pass section of a source (03 R73): section, frequency in Hz, order, sample rate. -/
def hpfDesign (sec f order fs : Nat) : Int × Int × Int × Int × Int :=
  let cosOf := fun k : F64 => Config.fwCos (fDiv (fMul k piF64) 8)
  let q := if order = 0 then fDiv 1 (Config.fwSqrt 2) else fDiv 1 (fMul 2 (cosOf (if sec = 0 then 1 else 3)))
  bqQuotients (bqRow 5 (bqVars f q 1 fs))

end Sys2Proof.Machine
end

