-- ==== Sys2Proof/Machine/Operands.lean ====
section
/-! DEFINITION. The operands of the commands: profile capacities (05 R130), the source space and the sink elements
(03 R68, R91), and the items with their types, ranges, defaults and mirroring (00 R8, R9; 14 R401; 12 R328). -/

namespace Sys2Proof.Machine

/-! Profiles (05 R130) -/

def Profile.code : Profile → Nat
  | .F => 0 | .D => 1 | .T => 2 | .E => 3

def profileOf : Nat → Option Profile
  | 0 => some .F | 1 => some .D | 2 => some .T | 3 => some .E | _ => none

/-- Sample rate in Hz. -/
def fsOf : Profile → Nat
  | .F => 96000 | .D => 48000 | .T => 96000 | .E => 48000
/-- Block length B in samples. -/
def blkLen : Profile → Nat
  | .F => 8 | .D => 8 | .T => 4 | .E => 8
/-- Blocks per second (02 R58). -/
def bps (p : Profile) : Nat := fsOf p / blkLen p
/-- Blocks in 1 ms (05 R137). -/
def fadeBlocks (p : Profile) : Nat := bps p / 1000
def netCh : Profile → Nat
  | .F => 1024 | .D => 2048 | .T => 512 | .E => 512
def busCount : Profile → Nat
  | .F => 256 | .D => 512 | .T => 128 | .E => 128
def tapCount : Profile → Nat
  | .E => 32 | _ => 64
def chainCount : Profile → Nat
  | .F => 256 | .D => 512 | .T => 128 | .E => 128
def firTaps : Profile → Nat
  | .F => 2048 | .D => 4096 | .T => 512 | .E => 1024
/-- Serial port slots and compacted channels per port. -/
def sapCh : Profile → Nat
  | .F => 16 | .D => 32 | .T => 16 | .E => 32
/-- Engines powered (01 R12). -/
def engPowered : Profile → BitVec 24
  | .E => 0x0000FF | _ => 0xFFFFFF
/-- Block period in CORE clocks x 3 (a block of profile F is 66,666 2/3 clocks; 01 R20). -/
def period3 : Profile → Nat
  | .F => 200000 | .D => 400000 | .T => 100000 | .E => 400000

/-! The source space and the sinks (03 R68, R91) -/

/-- A serial port channel number that the profile gives: port p, channel c at 32p + c. -/
def sapChannelOk (p : Profile) (n : Nat) : Bool := n < 512 && n % 32 < sapCh p

/-- A source number of 0 to 2751 that the profile gives (03 R68); the generators 2747 to 2751 are reserved (R71). -/
def sourceOk (p : Profile) (n : Nat) : Bool :=
  if n < 2048 then n < netCh p
  else if n < 2560 then sapChannelOk p (n - 2048)
  else if n < 2724 then true
  else 2736 ≤ n && n < 2747

/-- A bus output code that the profile gives. -/
def busCodeOk (p : Profile) (n : Nat) : Bool := 3072 ≤ n && n < 3072 + busCount p

/-- An output chain code that the profile gives. -/
def chainCodeOk (p : Profile) (n : Nat) : Bool := 3584 ≤ n && n < 3584 + chainCount p

/-- What tap.source, out.source and sink.source take (03 R69, 04 R102). -/
def tapSourceOk (p : Profile) (n : Nat) : Bool := n < 2752 && sourceOk p n
def outSourceOk (p : Profile) (n : Nat) : Bool := sourceOk p n || busCodeOk p n
def sinkSourceOk (p : Profile) (n : Nat) : Bool :=
  sourceOk p n || busCodeOk p n || chainCodeOk p n

/-- The sink elements of the profile (03 R91). -/
def sinkOk (p : Profile) (e : Nat) : Bool :=
  if e < 2048 then e < netCh p else if e < 2560 then sapChannelOk p (e - 2048) else e < 2624

/-! Items (00 R8) -/

def itemFam (id : Nat) : Nat := id / 2 ^ 24
def itemEl (id : Nat) : Nat := id / 2 ^ 12 % 2 ^ 12
def itemField (id : Nat) : Nat := id % 2 ^ 12
/-- The ID of family, element, field. -/
def item (fam el f : Nat) : Nat := fam * 2 ^ 24 + el * 2 ^ 12 + f

/-- An item's type and range: width in bits, whether signed, least and greatest value, default. -/
structure ItemSpec where
  bits : Nat
  sgn : Bool
  lo : Int
  hi : Int
  dflt : Int
  deriving DecidableEq, Repr

def uns (bits : Nat) (lo hi dflt : Int) : Option ItemSpec := some ⟨bits, false, lo, hi, dflt⟩
def sgd (bits : Nat) (lo hi dflt : Int) : Option ItemSpec := some ⟨bits, true, lo, hi, dflt⟩

/-- system (01 R18, 06 R182, 07 R221). -/
def systemItem (el f : Nat) : Option ItemSpec :=
  if el ≠ 0 then none else
  match f with
  | 0x001 => uns 64 0 (2 ^ 48 - 1) 0
  | 0x010 => uns 8 2 3 3
  | 0x011 => uns 16 0x600 0xFFFF 0x88B5
  | 0x012 => uns 16 1024 65535 18800
  | 0x013 => uns 32 0 (2 ^ 32 - 1) 0
  | 0x014 => uns 8 1 255 16
  | 0x015 => uns 8 0 1 0
  | 0x016 => uns 16 0x600 0xFFFF 0x88B6
  | 0x020 => uns 8 0 1 0
  | 0x021 => uns 8 0 31 0
  | 0x024 | 0x025 | 0x026 | 0x027 => uns 16 0 0xFFFF 0
  | 0x030 | 0x031 | 0x032 | 0x033 | 0x034 | 0x035 | 0x036 | 0x037 => uns 64 0 (2 ^ 48 - 1) 0
  | 0x038 | 0x039 => uns 8 0 1 1
  | _ => none

/-- src (03 R76). -/
def srcItem (p : Profile) (s f : Nat) : Option ItemSpec :=
  let tone := (2737 ≤ s && s ≤ 2744) || s = 2746
  if 2752 ≤ s then none else
  match f with
  | 0x001 => sgd 16 (-9600) 2400 0
  | 0x002 => uns 8 0 1 0
  | 0x003 => uns 16 0 1000 0
  | 0x004 => uns 8 0 1 0
  | 0x005 => uns 8 0 2 0
  | 0x006 => sgd 16 (-12000) 0 (-6000)
  | 0x007 => uns 16 0 65535 6000
  | 0x010 => if tone then uns 32 10000 (500 * fsOf p) (if s = 2746 then 20000000 else 1000000) else none
  | 0x011 => if tone || s = 2745 then sgd 16 (-12000) 0 (if s = 2746 then -4000 else -2000) else none
  | 0x012 => if s = 2745 then uns 32 0 (2 ^ 32 - 1) 1 else none
  | _ => none

/-- bus and tap (03 R85). -/
def busItem (p : Profile) (b f : Nat) : Option ItemSpec :=
  if busCount p ≤ b then none else
  match f with
  | 1 => uns 8 0 2 0
  | 2 => uns 8 1 (tapCount p) 1
  | 3 => uns 8 1 64 8
  | 4 => uns 16 0 0xFFFF 2000
  | 5 => uns 8 1 64 8
  | _ => none

def tapItem (p : Profile) (b f : Nat) : Option ItemSpec :=
  if busCount p ≤ b ∨ tapCount p ≤ f / 16 then none else
  match f % 16 with
  | 0 => uns 16 0 2751 2736
  | 1 => sgd 16 (-9600) 600 0
  | 2 => uns 8 0 1 0
  | 3 => uns 8 0 7 0
  | 4 => uns 8 0 32 4
  | 5 => uns 8 0 1 0
  | _ => none

/-- out (04 R119). -/
def outItem (p : Profile) (c f : Nat) : Option ItemSpec :=
  if chainCount p ≤ c then none else
  if 0x100 ≤ f then
    if 24 ≤ (f - 0x100) / 16 then none else
    match f % 16 with
    | 0 => uns 8 0 9 0
    | 1 => uns 32 10000 (450 * fsOf p) 1000000
    | 2 => sgd 16 (-2400) 2400 0
    | 3 => uns 16 100 30000 707
    | 4 => sgd 32 (-2 ^ 31) (2 ^ 31 - 1) 0x10000000
    | 5 | 6 | 7 | 8 => sgd 32 (-2 ^ 31) (2 ^ 31 - 1) 0
    | _ => none
  else
    match f with
    | 0x01 => uns 16 0 4095 2736
    | 0x02 => uns 8 0 32 4
    | 0x03 => uns 8 0 1 0
    | 0x04 => sgd 16 (-9600) 2400 0
    | 0x05 => uns 8 0 1 0
    | 0x06 => uns 8 0 64 4
    | 0x07 => uns 8 0 1 1
    | 0x08 => uns 8 1 64 4
    | 0x10 => uns 32 0 (2 * fsOf p) 0
    | 0x11 => uns 32 0 (2 * fsOf p) 0
    | 0x12 => uns 8 0 32 8
    | 0x13 => uns 8 0 1 0
    | 0x20 => uns 8 0 1 0
    | 0x21 => sgd 16 (-6000) 2400 (-1000)
    | 0x22 => uns 16 100 2000 400
    | 0x23 => uns 16 1 10000 500
    | 0x24 => uns 16 1 10000 200
    | 0x25 => sgd 16 0 2400 0
    | 0x30 => uns 8 0 1 1
    | 0x31 => sgd 16 (-6000) 2400 0
    | 0x32 => uns 16 1 6000 600
    | _ => none

/-- fir (04 R125). -/
def firItem (el f : Nat) : Option ItemSpec :=
  if el < 64 then
    match f with
    | 1 => uns 8 0 1 0
    | 2 => uns 16 1 4096 1
    | 3 => uns 8 0 32 4
    | 4 => uns 8 0 1 0
    | _ => none
  else if 0x100 ≤ el ∧ el < 0x200 ∧ f < 1024 then
    sgd 32 (-2 ^ 31) (2 ^ 31 - 1) (if el % 4 = 0 ∧ f = 0 then 0x40000000 else 0)
  else none

/-- sink (02 R56, 03 R94). -/
def sinkItem (p : Profile) (e f : Nat) : Option ItemSpec :=
  if !sinkOk p e then none else
  match f with
  | 0x01 => uns 16 0 4095 2736
  | 0x02 => uns 8 0 32 4
  | 0x03 => uns 8 0 1 0
  | 0x20 => uns 8 0 1 0
  | 0x21 => uns 16 0 65535 16
  | 0x22 => uns 8 0 1 0
  | _ => none

/-- flow (06 R181). -/
def flowItem (x f : Nat) : Option ItemSpec :=
  if 1024 ≤ x then none else
  match f with
  | 0x01 => uns 8 0 2 0
  | 0x02 => uns 16 1 65535 1
  | 0x03 => uns 8 1 32 32
  | 0x04 => uns 16 0 65535 0
  | 0x05 => uns 8 0 1 0
  | 0x06 => uns 8 1 16 2
  | 0x07 => uns 8 0 1 0
  | 0x10 => uns 64 0 (2 ^ 48 - 1) 0
  | 0x11 => uns 32 0 (2 ^ 32 - 1) 0
  | 0x12 => uns 16 0 4094 0
  | 0x13 => uns 8 0 7 6
  | 0x14 => uns 8 0 63 46
  | 0x20 | 0x21 => uns 64 0 (2 ^ 48 - 1) 0
  | _ => none

/-- sap (08 R243). -/
def sapItem (el f : Nat) : Option ItemSpec :=
  if 16 ≤ el then none else
  match f with
  | 0x01 => uns 8 0 1 0
  | 0x02 => uns 16 16 1024 256
  | 0x03 => uns 8 8 32 32
  | 0x04 => uns 8 0 255 0
  | 0x05 => uns 8 1 32 8
  | 0x06 | 0x07 => uns 32 0 (2 ^ 32 - 1) 0
  | 0x08 | 0x09 | 0x0A | 0x0B => uns 8 0 1 0
  | 0x0C => uns 8 0 8 0
  | 0x0D => uns 8 0 1 0
  | 0x0E => uns 8 2 255 16
  | 0x0F => uns 16 100 50000 5000
  | 0x10 => uns 8 0 1 1
  | 0x11 => uns 16 64 65535 8192
  | _ => none

/-- ain (09 R261). -/
def ainItem (el f : Nat) : Option ItemSpec :=
  if el < 16 then
    match f with
    | 1 => uns 8 0 60 0
    | 2 => uns 8 0 2 0
    | 3 => uns 8 15 90 48
    | 4 => uns 8 0 3 0
    | 5 => uns 16 1 3600 300
    | 6 => uns 8 2 50 10
    | 7 => uns 8 0 1 1
    | _ => none
  else if el < 0x30 then
    match f with
    | 1 => uns 8 0 1 0
    | 2 => uns 8 2 50 10
    | _ => none
  else if el = 0x30 then
    match f with
    | 1 => uns 16 200 600 400
    | 2 => uns 16 700 2400 1800
    | 3 => uns 16 100 60000 1000
    | 4 => uns 16 100 65535 6000
    | 5 => uns 16 0 65535 2280
    | 6 => uns 16 0 65535 2100
    | 0x30 => uns 8 0 15 15
    | _ =>
      if 0x10 ≤ f ∧ f < 0x18 then uns 16 100 65535 6000
      else if 0x18 ≤ f ∧ f < 0x20 then uns 16 0 65535 0
      else if 0x20 ≤ f ∧ f < 0x28 then uns 16 0 65535 65535
      else none
  else none

/-- mod (10 R287). -/
def modItem (p : Profile) (el f : Nat) : Option ItemSpec :=
  if el < 64 then
    match f with
    | 0x01 => uns 8 0 1 0
    | 0x02 => uns 16 10 6000 1500
    | 0x03 => uns 16 10 20000 4000
    | 0x04 => uns 8 1 255 200
    | 0x05 => uns 16 100 60000 1000
    | 0x06 => uns 8 1 20 5
    | 0x07 => uns 16 10 2000 200
    | 0x08 => uns 32 0 16777215 1000
    | 0x09 => uns 32 1 16777215 16777215
    | 0x10 => uns 8 0 1 1
    | 0x11 => uns 32 16000000 (450 * fsOf p) 20000000
    | 0x12 => sgd 16 (-8000) (-2000) (-4000)
    | 0x13 => uns 16 10 10000 1000
    | 0x20 => uns 8 0 4 0
    | 0x21 => sgd 16 (-9600) 0 (-600)
    | 0x30 => uns 32 0 16777215 0
    | 0x31 => uns 8 5 50 20
    | 0x32 => uns 16 0 21500 0
    | _ => none
  else if el < 0x48 then
    match f with
    | 1 => uns 8 0 4 1
    | 2 => uns 16 0 2000 200
    | 3 => uns 16 0 2000 1600
    | 4 => uns 16 0 500 50
    | 5 => uns 16 1 1000 10
    | 6 => uns 16 100 2000 2000
    | 7 => uns 16 0 1000 20
    | _ => none
  else none

/-- ref (11 R317). -/
def refItem (el f : Nat) : Option ItemSpec :=
  if el < 6 then
    match f with
    | 1 => uns 8 0 6 (if el = 5 then 0 else el + 1)
    | 2 => uns 16 1 600 10
    | 3 => sgd 32 (-500000000) 500000000 0
    | _ => none
  else if el = 0x10 then
    match f with
    | 0x01 => uns 16 1000 20000 5000
    | 0x02 => uns 16 2000 40000 10000
    | 0x03 => uns 16 10 3600 60
    | 0x04 => uns 16 0 3600 60
    | 0x05 => uns 8 0 1 1
    | 0x06 => uns 16 10 10000 100
    | 0x07 => uns 32 1000 100000000 100000
    | 0x08 => uns 32 60 604800 86400
    | 0x09 => uns 16 10 3600 300
    | 0x0A => uns 8 0 2 0
    | 0x10 | 0x11 => sgd 32 (-500000000) 500000000 0
    | 0x12 => uns 8 0 1 0
    | 0x20 => uns 64 0 (2 ^ 48 - 1) 0
    | _ => none
  else if el = 0x20 then
    match f with
    | 1 => uns 8 0 1 0
    | 2 => uns 8 0 127 0
    | 3 => sgd 8 (-7) 0 (-3)
    | 4 => uns 8 0 1 0
    | 5 | 6 => uns 8 0 255 128
    | 7 => uns 8 0 7 7
    | 8 => uns 32 100 1000000 1000
    | _ => none
  else none

/-- twin (12 R350), drop (07 R220), err (18 R482). -/
def twinItem (el f : Nat) : Option ItemSpec :=
  if el ≠ 0 then none else
  match f with
  | 0x01 => uns 8 0 1 0
  | 0x02 => uns 8 0 62 0
  | 0x03 => uns 8 0 15 0
  | 0x10 => uns 16 0 0xFFFF 0
  | 0x11 => uns 64 0 (2 ^ 64 - 1) (2 ^ 64 - 1)
  | 0x12 => uns 8 1 16 4
  | _ => none

def dropItem (el f : Nat) : Option ItemSpec :=
  if el ≠ 0 then none else
  match f with
  | 0x01 => uns 8 0 1 1
  | 0x02 => uns 16 500 20000 6000
  | 0x03 => uns 16 96 1600 160
  | 0x10 => uns 8 0 1 0
  | 0x11 => uns 8 0 31 0
  | 0x14 | 0x15 | 0x16 | 0x17 => uns 16 0 0xFFFF 0
  | 0x20 | 0x21 | 0x22 | 0x23 => uns 8 0 62 0
  | _ => none

def errItem (el f : Nat) : Option ItemSpec :=
  if el ≠ 0 then none else
  match f with
  | 1 => uns 8 1 255 3
  | 2 => uns 8 0 1 1
  | 3 => uns 8 0 2 1
  | 4 => uns 8 0 1 1
  | 5 => uns 8 0 1 1
  | _ => none

/-- The item an ID names in a profile; none is BAD_ITEM (13 R361). -/
def itemSpec (p : Profile) (id : Nat) : Option ItemSpec :=
  let el := itemEl id
  let f := itemField id
  match itemFam id with
  | 0x01 => systemItem el f
  | 0x02 => srcItem p el f
  | 0x03 => busItem p el f
  | 0x04 => tapItem p el f
  | 0x05 => outItem p el f
  | 0x06 => firItem el f
  | 0x07 => sinkItem p el f
  | 0x08 => flowItem el f
  | 0x09 => sapItem el f
  | 0x0A => ainItem el f
  | 0x0B => modItem p el f
  | 0x0C => refItem el f
  | 0x0D => twinItem el f
  | 0x0E => dropItem el f
  | 0x0F => errItem el f
  | _ => none

/-- The default of an item, whatever the profile gives: R95 keeps items whose elements a profile does not have. -/
def itemDefault (id : Nat) : Int :=
  match itemSpec .D id with
  | some s => s.dflt
  | none => match itemSpec .F id with
    | some s => s.dflt
    | none => 0

/-- An EtherType that R182 and R221 refuse. -/
def reservedEtype (v : Int) : Bool := v = 0x800 || v = 0x8100 || v = 0x86DD || v = 0x88F7

/-- Values inside the range that the item's rule still refuses, judged on the item alone (00 R9). -/
def itemExtra (p : Profile) (id : Nat) (v : Int) : Bool :=
  let f := itemField id
  let n := v.toNat
  match itemFam id with
  | 0x01 =>
    if f = 0x11 ∨ f = 0x16 then !reservedEtype v
    else if 0x24 ≤ f ∧ f ≤ 0x27 then n = 0 || 0x600 ≤ n
    else if 0x30 ≤ f ∧ f ≤ 0x37 then n = 0 || n.testBit 40
    else true
  | 0x02 => if f = 0x003 then n = 0 || 10 ≤ n else true
  | 0x03 => if f = 0x004 then n ≤ 6000 || n = 0xFFFF else true
  | 0x04 => if f % 16 = 0 then tapSourceOk p n else true
  | 0x05 => if f = 0x001 then outSourceOk p n else true
  | 0x07 => if f = 0x001 then sinkSourceOk p n else true
  | 0x09 => if f = 0x006 ∨ f = 0x007 then (indices 32 (n.testBit ·)).length ≤ sapCh p else true
  | 0x0B => if f = 0x32 ∧ itemEl id < 64 then n = 0 || (18500 ≤ n && n % 500 = 0) else true
  | 0x0E => if 0x14 ≤ f ∧ f ≤ 0x17 then n = 0 || 0x600 ≤ n else true
  | _ => true

/-- A 64-bit item value read in the item's type (13 R364); none where it does not fit. -/
def itemRead (s : ItemSpec) (raw : Dword) : Option Int :=
  if s.sgn then
    let v := signed 64 raw.toNat
    if -(2 ^ (s.bits - 1) : Int) ≤ v ∧ v < (2 ^ (s.bits - 1) : Int) then some v else none
  else if raw.toNat < 2 ^ s.bits then some (raw.toNat : Int) else none

/-- The item's value as 64 bits, for replies. -/
def itemWrite (v : Int) : Dword := BitVec.ofInt 64 v

/-- Whether an item is mirrored (12 R328). -/
def itemMirrored (id : Nat) : Bool :=
  let f := itemField id
  match itemFam id with
  | 0x01 => f = 0x001 || f = 0x010 || f = 0x011 || f = 0x012 || f = 0x014 || f = 0x016
  | 0x02 | 0x03 | 0x04 | 0x05 | 0x06 | 0x08 => true
  | 0x07 => itemEl id < 2048
  | 0x0D => 0x10 ≤ f
  | 0x0E => f = 0x03 || (0x20 ≤ f && f ≤ 0x23)
  | _ => false

/-- The value of an item among some items. -/
def itemIn (m : List (Nat × Int)) (id : Nat) : Int := mget m id (itemDefault id)

end Sys2Proof.Machine
end

