-- ==== Sys2Proof/Machine/State.lean ====
section
/-! DEFINITION. The state of the ZK9: every register, queue, buffer, counter, mode and pin the spec gives it, as plain
data, one structure per block of the part; and the state right after RESET_N is released. The docstring of a field
names what the spec calls it, its width, the rule that gives it and its value at reset. -/

namespace Sys2Proof.Machine

/-- A finite map from index to value in ascending index order; an index that is not listed has the default that the
reader of the map names. -/
abbrev Map (α : Type) := List (Nat × α)

/-- Item values by item ID (00 R8), ascending; an item that is not listed has its default (the item tables). -/
abbrev Items := Map Int

/-! ### Errors (chapter 18) -/

/-- The classes of an error code (18 R462). -/
inductive Cls where
  | note | fault | fatal
  deriving DecidableEq, Repr

/-- One error record (18 R463); `seq` is the model's own number of the record, so that a record latched by a read of
ERR_HEAD_CODE can be found again (18 R469). -/
structure Rec where
  code : Nat
  cls : Cls
  safe : Bool := false
  during : Bool := false
  repeats : Nat := 0
  blk : Nat := 0
  detail : Nat := 0
  seq : Nat := 0
  deriving DecidableEq, Repr

/-- The ERR block (18 R463 to R484). -/
structure Err where
  /-- record queue, oldest first; 16 x 128 bits; 18 R466; reset empty -/
  queue : List Rec := []
  /-- first-error latch; 128 bits; 18 R468; reset empty -/
  first : Option Rec := none
  /-- ERR_FIRST_BLK_LO/HI and DETAIL as latched by the last read of ERR_FIRST_CODE; 3 x 32; 18 R483; reset 0 -/
  firstView : Nat × Nat := (0, 0)
  /-- ERR_HEAD_BLK_LO/HI and DETAIL as latched by the last read of ERR_HEAD_CODE; 3 x 32; 18 R483; reset 0 -/
  headView : Nat × Nat := (0, 0)
  /-- the record latched by the last read of ERR_HEAD_CODE; -; 18 R469; reset none -/
  headSeq : Option Nat := none
  /-- number of the next record (the model's own, see Rec.seq); -; 18 R469; reset 1 -/
  nextSeq : Nat := 1
  /-- records raised in the present CORE clock and not yet entered; -; 18 R466; reset empty -/
  raising : List Rec := []
  /-- (code, DETAIL) pairs already raised in the present window of R58; -; 02 R58; reset empty -/
  seen : List (Nat × Nat) := []
  /-- ERR_STATUS.OVERFLOW_SEEN; 1; 18 R483; reset 0 -/
  overflowSeen : Bool := false
  /-- ERR_STATUS.FATAL_SEEN; 1; 18 R483; reset 0 -/
  fatalSeen : Bool := false
  /-- ERR_STATUS.LOST_HOLD; 1; 18 R467; reset 0 -/
  lostHold : Bool := false
  /-- ERR_OVERFLOW.COUNT; 16 saturating; 18 R483; reset 0 -/
  lostCount : Nat := 0
  /-- ERR_OVERFLOW.LAST_CODE; 16; 18 R483; reset 0 -/
  lostLast : Nat := 0
  /-- ERR_COUNT_NOTE; 32; 18 R483; reset 0 -/
  notes : Word := 0
  /-- ERR_COUNT_FAULT; 32; 18 R483; reset 0 -/
  faults : Word := 0
  /-- ERR_COUNT_FATAL; 32; 18 R483; reset 0 -/
  fatals : Word := 0
  /-- ERR_STATUS.HANDLING and ERR_HANDLING: code, DETAIL and raising block of the FATAL being handled; 16+; 18 R471; reset none -/
  handling : Option (Nat × Nat × Nat) := none
  /-- ERR_STATUS.ENTRY_PENDING: cause and reason of the entry that is pending; 18; 18 R474; reset none -/
  entry : Option (Nat × Nat) := none
  /-- ERR_STATUS.SAFE; 1; 18 R474; reset 0 -/
  safe : Bool := false
  /-- ERR_STATUS.EXITING, with the exit block L; 1 + 64; 18 R479; reset none -/
  exiting : Option Nat := none
  /-- an exit abandoned by a FATAL, acting at the next tick; 1; 18 R542; reset 0 -/
  abandon : Bool := false
  /-- ERR_STATUS.RELOADING; 1; 18 R477; reset 0 -/
  reloading : Bool := false
  /-- a core reload failed; 1; 18 R477; reset 0 -/
  reloadFailed : Bool := false
  /-- the core that trapped (0x01 or 0x02; 0x03 both), 0 none; 8; 18 R477; reset 0 -/
  trapped : Byte := 0
  /-- ERR_SAFE.CAUSE; 16; 18 R483; reset 0 -/
  safeCause : Nat := 0
  /-- ERR_SAFE.REASON; 2; 18 R483; reset 0 -/
  safeReason : Nat := 0
  /-- ERR_SAFE_BLK, the block T of the latest entry; 32 (held whole); 18 R483; reset 0 -/
  safeBlk : Nat := 0
  /-- ERR_SAFE_COUNT.ENTRIES; 16; 18 R483; reset 0 -/
  safeEntries : BitVec 16 := 0
  /-- ERR_SAFE_COUNT.EXITS; 16; 18 R483; reset 0 -/
  safeExits : BitVec 16 := 0
  /-- engines that overran at each of the latest consecutive overrunning ticks, newest first; 24 each; 18 R473; reset empty -/
  overruns : List Nat := []
  deriving DecidableEq, Repr

/-! ### Memory, its protection and the bus matrix (chapters 16 and 17) -/

/-- The bytes of the memories. `cells` lists the bytes written since their area was last written whole, strictly
ascending and never equal to what an unlisted byte reads as; `zeroed` lists the areas (base, end) that the ZK9 has
written with zeros (17 R448); a byte in no such area was never written (17 R447). -/
structure Memory where
  /-- shared SRAM, delay store and other memory bytes; 8 each; 16 R432; reset unwritten -/
  cells : List Host.Cell := []
  /-- areas written with zeros; -; 17 R448; reset none -/
  zeroed : List (Nat × Nat) := []
  /-- core and engine memories written from an image: base, end, number of the load; -; 17 R448; reset none -/
  loaded : List (Nat × Nat × Nat) := []
  /-- tag lanes of engine memory words that are not 0; 8 each; 17 R446; reset 0 -/
  tags : Map Nat := []
  /-- ECC words in error, by base address; true: uncorrectable; -; 17 R445; reset none -/
  upset : Map Bool := []
  deriving DecidableEq, Repr

/-- The MEM block (17 R451 to R459). -/
structure MemUnit where
  /-- the memories; -; 16 R432; reset unwritten -/
  bytes : Memory := {}
  /-- MEM_STATUS.CE_SEEN; 1; 17 R459; reset 0 -/
  ceSeen : Bool := false
  /-- MEM_STATUS.UE_SEEN; 1; 17 R459; reset 0 -/
  ueSeen : Bool := false
  /-- MEM_STATUS.REPEAT_SEEN; 1; 17 R459; reset 0 -/
  repeatSeen : Bool := false
  /-- MEM_STATUS.BG_RUN; 1; 17 R459; reset 0. While it is 1, MEM_BG_POS is the free position of the pass (log 86), else 0 -/
  bgRun : Bool := false
  /-- MEM_STATUS.DMA_HALT; 4; 17 R459; reset 0 -/
  dmaHalt : BitVec 4 := 0
  /-- MEM_CE_COUNT; 32; 17 R459; reset 0 -/
  ce : Word := 0
  /-- MEM_UE_COUNT; 32; 17 R459; reset 0 -/
  ue : Word := 0
  /-- MEM_POISON_COUNT; 32; 17 R459; reset 0 -/
  poison : Word := 0
  /-- MEM_FIRST_ADDR; 32; 17 R459; reset 0 -/
  firstAddr : Word := 0
  /-- MEM_FIRST_INFO; 32; 17 R459; reset 0 -/
  firstInfo : Word := 0
  /-- code and block of the record the held first event raised; -; 17 R459; reset none -/
  firstRec : Option (Nat × Nat) := none
  /-- MEM_LAST_ADDR; 32; 17 R459; reset 0 -/
  lastAddr : Word := 0
  /-- MEM_LAST_INFO; 32; 17 R459; reset 0 -/
  lastInfo : Word := 0
  /-- MEM_DMA_ADDR_c; 4 x 32; 17 R459; reset 0 -/
  dmaAddr : List Word := [0, 0, 0, 0]
  /-- MEM_DMA_HALTS; 32; 17 R459; reset 0 -/
  dmaHalts : Word := 0
  /-- MEM_BG_PASSES; 32; 17 R459; reset 0 -/
  bgPasses : Word := 0
  /-- MEM_BG_UE; 32; 17 R459; reset 0 -/
  bgUe : Word := 0
  /-- addresses of the last 8 darns, newest first; 8 x 32; 17 R452; reset empty -/
  darns : List Nat := []
  deriving DecidableEq, Repr

/-- The BUS block (16 R436 to R443). -/
structure BusUnit where
  /-- BUS_STATUS.SERVICE and BUS_SERVICE.MASTER: master that entered service mode; 8; 16 R443; reset 0 -/
  service : Byte := 0
  /-- master that wrote KEY 0x5E7A last, when the next expected key is 0xA7E5; 8; 16 R436; reset none -/
  armed : Option Byte := none
  /-- BUS_STATUS.ERR_SEEN; 1; 16 R443; reset 0 -/
  errSeen : Bool := false
  /-- BUS_STATUS.LOCK_TIMEOUT_SEEN; 1; 16 R443; reset 0 -/
  timeoutSeen : Bool := false
  /-- BUS_STATUS.SEM_ERR_SEEN; 1; 16 R443; reset 0 -/
  semSeen : Bool := false
  /-- BUS_ERR_COUNT; 32; 16 R443; reset 0 -/
  errCount : Word := 0
  /-- BUS_ERR_FIRST_ADDR; 32; 16 R443; reset 0 -/
  firstAddr : Word := 0
  /-- BUS_ERR_FIRST_INFO; 32; 16 R443; reset 0 -/
  firstInfo : Word := 0
  /-- BUS_ERR_LAST_ADDR; 32; 16 R443; reset 0 -/
  lastAddr : Word := 0
  /-- BUS_ERR_LAST_INFO; 32; 16 R443; reset 0 -/
  lastInfo : Word := 0
  /-- BUS_LOCKSEQ; 13: master and target of the locked sequence now running; 16 R443; reset 0 -/
  lockSeq : Byte × BitVec 5 := (0, 0)
  /-- CORE clock by which it was granted; -; 16 R440; reset 0 -/
  lockAt : Nat := 0
  /-- BUS_LOCK_TIMEOUTS; 32; 16 R443; reset 0 -/
  timeouts : Word := 0
  /-- BUS_LOCK_n, BUS_LOCK_VIEW_n, BUS_LOCK_HELD: owners of the semaphores, 0 free; 32 x 8; 16 R441; reset 0 -/
  owners : List Byte := List.replicate 32 0
  /-- BUS_SEM_ERR.MASTER; 8; 16 R443; reset 0 -/
  semMaster : Byte := 0
  /-- BUS_SEM_ERR.LOCK; 5; 16 R443; reset 0 -/
  semLock : BitVec 5 := 0
  /-- BUS_SEM_ERR.CAUSE; 3; 16 R443; reset 0 -/
  semCause : BitVec 3 := 0
  /-- BUS_SEM_ERR.COUNT; 16 saturating; 16 R443; reset 0 -/
  semCount : Nat := 0
  deriving DecidableEq, Repr

/-! ### Host interface and mailboxes (chapter 15) -/

/-- What the function reports of itself (15 R402); the subsystem IDs come from OTP. -/
structure PciIds where
  vendor : BitVec 16 := 0xDA35
  device : BitVec 16 := 0x0009
  revision : Byte := 0xA1
  classCode : BitVec 24 := 0x040100
  /-- capability IDs: power management, PCI Express, MSI-X; extended: Advanced Error Reporting -/
  caps : List Byte := [0x01, 0x10, 0x11]
  extCaps : List (BitVec 16) := [0x0001]
  aspm : Bool := false
  deriving DecidableEq, Repr

/-- The HOST block (15 R402 to R416, R424). -/
structure HostUnit where
  /-- identity and capabilities of the function; -; 15 R402; reset as its table gives, capability IDs PRESUMED (PCI Express, log
  28) -/
  ids : PciIds := {}
  /-- power state D3hot, else D0; 1; 15 R402; reset D0 -/
  d3hot : Bool := false
  /-- HOST_STATUS.LINK_UP; 1; 15 R424; reset 0 -/
  linkUp : Bool := false
  /-- HOST_STATUS.SPEED; 2; 15 R424; reset 0 -/
  speed : BitVec 2 := 0
  /-- HOST_STATUS.WIDTH; 3; 15 R424; reset 0 -/
  width : BitVec 3 := 0
  /-- HOST_STATUS.BME, Bus Master Enable; 1; 15 R424; reset 0 -/
  bme : Bool := false
  /-- HOST_STATUS.MSIX_EN; 1; 15 R424; reset 0 -/
  msixEn : Bool := false
  /-- MSI-X function mask; 1; 15 R415; reset DESIGN CHOICE 0 (log 5) -/
  funcMask : Bool := false
  /-- HOST_STATUS.REQ_IDX_ERR; 1; 15 R424; reset 0 -/
  reqIdxErr : Bool := false
  /-- HOST_STATUS.RPL_IDX_ERR; 1; 15 R424; reset 0 -/
  rplIdxErr : Bool := false
  /-- HOST_STATUS.PCIE_RESET_SEEN; 1; 15 R424; reset 0 -/
  resetSeen : Bool := false
  /-- number of PCIe transport resets so far, which tells stale replies; -; 15 R405; reset 0 -/
  generation : Nat := 0
  /-- HOST_REQ_PROD; 16; 15 R424; reset 0 -/
  reqProd : BitVec 16 := 0
  /-- HOST_REQ_CONS; 16; 15 R424; reset 0 -/
  reqCons : BitVec 16 := 0
  /-- the packet at the head of the request ring has been counted as held back; 1; 13 R355; reset 0 -/
  reqHeld : Bool := false
  /-- HOST_RPL_PROD; 16; 15 R424; reset 0 -/
  rplProd : BitVec 16 := 0
  /-- HOST_RPL_CONS; 16; 15 R424; reset 0 -/
  rplCons : BitVec 16 := 0
  /-- replies the CMD core owes to PCIe packets; -; 15 R408; reset 0 -/
  owed : Nat := 0
  /-- HOST_IRQ_PEND; 32; 15 R424; reset 0 -/
  pend : Word := 0
  /-- pulse causes that are 1 in the present CORE clock; 32; 15 R413; reset 0 -/
  pulses : List (Fin 32) := []
  /-- HOST_SPI_IRQ_EN; 32; 15 R424; reset 0 -/
  spiIrqEn : Word := 0
  /-- HOST_TICK_DIV; 16; 15 R424; reset 0 -/
  tickDiv : BitVec 16 := 0
  /-- MSI-X table, four words per vector, bits [31:1] of the last reserved; 32 x 128; 15 R415; reset PRESUMED masked entries of zeros (log 5) -/
  msix : List (List Word) := List.replicate 32 [0, 0, 0, 1]
  /-- of the present PEND: vectors whose message has been sent, and vectors that were not masked when PEND rose and MSI-X or
  bus mastering was off; 2 x 32; 15 R415; reset 0 -/
  msixSent : Word × Word := (0, 0)
  /-- HOST_SPI_STATUS.LAST; 8; 15 R424; reset 0xA0 -/
  spiLast : Byte := 0xA0
  /-- HOST_SPI_STATUS.OPCODE; 8; 15 R424; reset 0 -/
  spiOpcode : Byte := 0
  /-- HOST_SPI_STATUS.ERRORS; 16 saturating; 15 R424; reset 0 -/
  spiErrors : Nat := 0
  /-- HOST_SPI_ERR_ADDR; 32; 15 R424; reset 0 -/
  spiErrAddr : Word := 0
  /-- SPI status bit ERR: the previous transaction was refused or failed; 1; 15 R410; reset 0 -/
  spiErr : Bool := false
  /-- SPI replies waiting, oldest first; 4 x 2048; 15 R412; reset empty -/
  spiReplies : List (List Word) := []
  /-- replies owed to SPI packets in the stream; -; 15 R412; reset 0 -/
  spiOwed : Nat := 0
  /-- AER status: a Completer Abort was recorded; 1; 15 R404; reset 0 -/
  aerAbort : Bool := false
  deriving DecidableEq, Repr

/-- One mailbox channel (15 R417 to R420, R425). -/
structure MbxCh where
  /-- MBX_BIND_c.SENDER; 8; 15 R425; reset 0 -/
  sender : Byte := 0
  /-- MBX_BIND_c.RECEIVER; 8; 15 R425; reset 0 -/
  receiver : Byte := 0
  /-- MBX_BIND_c.VALID; 1; 15 R425; reset 0 -/
  valid : Bool := false
  /-- MBX_MSG_c_0 to 15; 16 x 32; 15 R425; reset DESIGN CHOICE 0 (log 5) -/
  msg : List Word := List.replicate 16 0
  /-- MBX_CTRL_c.LEN; 5; 15 R425; reset 0 -/
  len : BitVec 5 := 0
  /-- MBX_CTRL_c.GO; 1; 15 R425; reset 0 -/
  go : Bool := false
  /-- CORE clock at which GO set (MBX_GO_TIME_c); 32 us; 15 R425; reset 0 -/
  goAt : Nat := 0
  /-- MBX_COUNT_c.ACKED; 16; 15 R425; reset 0 -/
  acked : BitVec 16 := 0
  /-- MBX_COUNT_c.CANCELLED; 16; 15 R425; reset 0 -/
  cancelled : BitVec 16 := 0
  /-- words of a command packet collected so far; -; 15 R420; reset empty -/
  part : List Word := []
  /-- the message in the channel belongs to a reply; 1; 15 R420; reset 0 -/
  reply : Bool := false
  /-- words of a reply still to be sent on this channel; -; 15 R420; reset empty -/
  rest : List Word := []
  /-- replies waiting behind it; -; 15 R420; reset empty -/
  waiting : List (List Word) := []
  deriving DecidableEq, Repr

/-- The MBX block (15 R417 to R425). -/
structure Mbx where
  /-- the 16 channels; -; 15 R417; reset unbound -/
  ch : List MbxCh := List.replicate 16 {}
  /-- MBX_LOCK.LOCKED; 1; 15 R425; reset 0 -/
  locked : Bool := false
  /-- MBX_CROSS_WAIT.WAIT; 16; 15 R425; reset 0x0064 -/
  crossWait : BitVec 16 := 0x64
  /-- MBX_STATUS.CROSS; 16; 15 R425; reset 0 -/
  cross : BitVec 16 := 0
  /-- pairs that have been reported; -; 15 R422; reset none -/
  told : List (Nat × Nat) := []
  /-- MBX_STATUS.ACCESS_ERR; 1; 15 R425; reset 0 -/
  accessErr : Bool := false
  /-- MBX_ERR_LOG.MASTER; 8; 15 R425; reset 0 -/
  logMaster : Byte := 0
  /-- MBX_ERR_LOG.CHANNEL; 4; 15 R425; reset 0 -/
  logChannel : BitVec 4 := 0
  /-- MBX_ERR_LOG.CAUSE; 3; 15 R425; reset 0 -/
  logCause : BitVec 3 := 0
  /-- MBX_CROSS_EVENTS; 32; 15 R425; reset 0 -/
  crossEvents : Word := 0
  /-- MBX_DB_i; 28 x 32; 15 R425; reset 0 -/
  bells : List Word := List.replicate 28 0
  /-- MBX_DB_MASK_i; 28 x 32; 15 R425; reset 0 -/
  masks : List Word := List.replicate 28 0
  deriving DecidableEq, Repr

/-! ### Commands, jobs and presses (chapters 13 and 14) -/

/-- A packet in the command stream (13 R353): the bytes it came in, as words, with its byte count, the transport, the
management session, whether the lead got it forwarded, the PCIe reset generation that tells a stale reply, and the bytes of a management
frame before its flow header. -/
structure Pkt where
  via : Transport
  words : List Word
  bytes : Nat
  session : BitVec 16 := 0
  forwarded : Bool := false
  generation : Nat := 0
  head : List Byte := []
  /-- CORE clock at which it entered the stream -/
  at_ : Nat := 0
  deriving DecidableEq, Repr

/-- Job states (13 R376). -/
inductive JobSt where
  | free | queued | running | partialResult | done | failed | abandoned
  deriving DecidableEq, Repr

/-- One job slot (13 R375). -/
structure Job where
  /-- STATE; 3; 13 R375; reset FREE -/
  st : JobSt := .free
  /-- FAIL_STATUS; 8; 13 R375; reset 0 -/
  fail : Byte := 0
  /-- SEQ; 16; 13 R375; reset 0 -/
  seq : BitVec 16 := 0
  /-- OPCODE; 16; 13 R375; reset 0 -/
  opcode : BitVec 16 := 0
  /-- TAG; 32; 13 R375; reset 0 -/
  tag : Word := 0
  /-- PROGRESS; 32; 13 R375; reset 0 -/
  progress : Nat := 0
  /-- PROGRESS_TOTAL; 32; 13 R375; reset 0 -/
  total : Nat := 0
  /-- RESULT, its first RESULT_LEN words; 1016 x 32; 13 R375; reset empty -/
  result : List Word := []
  /-- START_BLK; 64; 13 R375; reset 0 -/
  startBlk : Nat := 0
  /-- CORE clock at which the job ended; -; 13 R379; reset 0 -/
  endedAt : Nat := 0
  /-- order of acceptance; -; 14 R385; reset 0 -/
  order : Nat := 0
  /-- parameters of the job's command; -; 14 R393; reset empty -/
  param : List Nat := []
  deriving DecidableEq, Repr

/-- A press that has been accepted and has not landed (13 R367 to R371). -/
structure Press where
  /-- landing block L -/
  land : Nat
  /-- its items in tack order, fir entries as 0x0600_0000 + m x 0x1000 -/
  items : List (Nat × Int)
  /-- pages allocated for a chain: (chain, pages in ring order) -/
  pages : List (Nat × List Nat) := []
  /-- job slot of a PRESS_AT -/
  slot : Option Nat := none
  /-- it changes lookup items and airs the table copy at L (06 R173) -/
  airs : Bool := false
  /-- the interval of its copy has begun -/
  aired : Bool := false
  /-- only the mirrored items, sent by the lead (12 R329) -/
  mirrored : Bool := false
  /-- it is a PRESS_AT, whose landing index is mirrored state (12 R332) -/
  named : Bool := false
  deriving DecidableEq, Repr

/-- A press that waits for its airing table (13 R369): its items, pages, rebuild slot and whether it came from the
other unit's host. -/
structure Waiting where
  items : List (Nat × Int)
  pages : List (Nat × List Nat)
  slot : Nat
  deriving DecidableEq, Repr

/-- A PROFILE_SET under way (05 R134 to R138). -/
structure ColdPress where
  profile : Profile
  /-- L, its landing block in the old profile -/
  land : Nat
  /-- A, the first tick of the new profile -/
  resume : Nat
  /-- the tack set it took -/
  items : List (Nat × Int)
  slot : Nat
  /-- block ticks have stopped (05 R137 step 3) -/
  stopped : Bool := false
  /-- the last tick has been carried out whole: TICK_STOP comes ahead of the rest of it -/
  ticked : Bool := false
  /-- the swap of table and configuration is done -/
  built : Bool := false
  /-- the serial ports have restarted (08 R241) -/
  ports : Bool := false
  deriving DecidableEq, Repr

/-- A SNAPSHOT that waits for the next tick (13 R373): its command, its ranges (address, words), and its job slot where it
has more than 56 words. -/
structure SnapWait where
  hdr : Hdr
  ranges : List (Nat × Nat)
  slot : Option Nat := none
  generation : Nat := 0
  deriving DecidableEq, Repr

/-- A command whose reply waits for the twin (12 R329, R330; 13 R362): opcode, header, parameter words, and whether it
waits for the peer's reply or, on the lead, for the standby's verdict. -/
structure Await where
  opcode : Nat
  hdr : Hdr
  params : List Word
  reply : Bool
  generation : Nat := 0
  deriving DecidableEq, Repr

/-- The CMD core's command state (13, 14). -/
structure Cmd where
  /-- command stream, oldest first; 32 packets; 13 R355; reset empty -/
  stream : List Pkt := []
  /-- tack set in the order first tacked; 4096 x (32 + 64); 13 R364; reset empty -/
  tack : List (Nat × Int) := []
  /-- a press PENDING (PRESS_WAIT bit 0); -; 13 R369; reset none -/
  waiting : Option Waiting := none
  /-- presses accepted and not landed, in order of acceptance (PRESS_WAIT bit 1 for a PRESS_AT); -; 13 R367; reset none -/
  presses : List Press := []
  /-- a PROFILE_SET under way; -; 05 R134; reset none -/
  cold : Option ColdPress := none
  /-- the job table's slots; 64 slots; 13 R375; reset FREE with SEQ 0 -/
  jobs : List Job := List.replicate 64 {}
  /-- next order of acceptance of a job; -; 14 R385; reset 0 -/
  nextOrder : Nat := 0
  /-- TAKEN; 32; 13 R375; reset 0 -/
  taken : Word := 0
  /-- REFUSED; 32; 13 R375; reset 0 -/
  refusals : Word := 0
  /-- DISCARD_TARGET; 32; 13 R375; reset 0 -/
  discards : Word := 0
  /-- STREAM_FULL; 32; 13 R375; reset 0 -/
  full : Word := 0
  /-- GRAPH_LAND_LO/HI: landing block of the latest press; 64; 03 R99; reset 0 -/
  landed : Nat := 0
  /-- GRAPH_LAND_HI as latched by the last read of GRAPH_LAND_LO; 32; 03 R99; reset 0 -/
  landHi : Word := 0
  /-- SNAPSHOTs waiting for the next tick; -; 13 R373; reset none -/
  snaps : List SnapWait := []
  /-- commands that wait for the twin, oldest first; -; 12 R330; reset none -/
  awaits : List Await := []
  /-- the local tack set joins the next press of the lead; 1; 12 R329; reset 0 -/
  joins : Bool := false
  /-- pages the standby holds for the tack set it has validated; -; 12 R329; reset none -/
  reserved : List (Nat × List Nat) := []
  /-- blocks that filling the pages of the press that waits takes, on the lead; -; 12 R329; reset 0 -/
  fill : Nat := 0
  /-- the CMD core cannot complete the next command that it takes: it replies INTERNAL; 1; 13 R361; reset 0 -/
  fails : Bool := false
  /-- the job table and the rings have been written (start-up); 1; 13 R375; reset 0 -/
  ready : Bool := false
  deriving DecidableEq, Repr

/-! ### The block cycle (chapter 01) -/

/-- The configuration in force for one graph block: item values and the IDs a press landed at that block. -/
structure Gen where
  items : Items := []
  landed : List Nat := []
  deriving DecidableEq, Repr

/-- The SYS block and the block cycle (01 R14 to R37). -/
structure Sys where
  /-- SYS_BLK_LO/HI: index of the current graph block; 64; 01 R36; reset 0 -/
  blk : Nat := 0
  /-- SYS_BLK_HI as latched by the last read of SYS_BLK_LO; 32; 01 R36; reset 0 -/
  blkHi : Word := 0
  /-- SYS_TICK.TICK_RUN; 1; 01 R36; reset 0 -/
  tickRun : Bool := false
  /-- SYS_TICK.MEDIA_SILENT; 1; 01 R36; reset 0 -/
  mediaSilent : Bool := false
  /-- SYS_TICK.PROFILE; 2; 01 R36; reset F -/
  profile : Profile := .F
  /-- SYS_TICK.AUDIO_EN; 1; 01 R36; reset 0 -/
  audioEn : Bool := false
  /-- SYS_TICK_CYCLES; 20; 01 R36; reset 0 -/
  cycles : Nat := 0
  /-- CORE clock of the latest tick; -; 01 R36; reset 0 -/
  tickAt : Nat := 0
  /-- CORE clock from which the tick watch counts: the latest tick, or where ticks resumed; -; 01 R22; reset 0 -/
  watch : Nat := 0
  /-- engines powered once the latest change of power is complete (SYS_ENG_PWR); 24; 01 R36; reset 0 -/
  engPwr : BitVec 24 := 0
  /-- engines powered before that change; 24; 20 R517; reset 0 -/
  engWas : BitVec 24 := 0
  /-- CORE clock at which that change began; -; 20 R517; reset 0 -/
  engAt : Nat := 0
  /-- SYS_ENG_OVERRUN; 24; 01 R36; reset 0 -/
  engOverrun : BitVec 24 := 0
  /-- SYS_XQ_SILENT; 19; 01 R36; reset 0 -/
  xqSilent : BitVec 19 := 0
  /-- SYS_XQ_SILENT_LATCH; 19; 01 R36; reset 0 -/
  xqLatch : BitVec 19 := 0
  /-- crossings that have been source silent since the latest tick, so that the block has no entry of theirs; 19; 01 R16; reset 0 -/
  xqWhole : BitVec 19 := 0
  /-- number of the assignment of graph work to engines: one for each cold press; -; 01 R11; reset 0 -/
  assign : Nat := 0
  /-- engines whose passes of the block under way end late, found at the next tick; 24; 01 R26; reset none -/
  late : List (Fin 24) := []
  /-- engines that trapped, to be rewritten at the next block boundary; 24; 17 R453; reset 0 -/
  engTrap : BitVec 24 := 0
  /-- words of engine memories on which an engine trapped, until they are rewritten; -; 17 R453; reset none -/
  trapWords : List Nat := []
  /-- the block index is to be loaded from media time at the next tick; 1; 19 R494; reset 0 -/
  reload : Bool := false
  /-- graph blocks below this index read silence for serial, analogue, sense and fallback sources; -; 01 R22; reset 0 -/
  silentUntil : Nat := 0
  /-- the block whose items have been brought into force ahead of its tick (PRESS_LANDS); -; 01 R31; reset none -/
  ahead : Option Nat := none
  /-- pressed items in force for the current graph block; -; 01 R31; reset defaults -/
  now : Gen := {}
  /-- those of the block before (pass 2); -; 01 R31; reset defaults -/
  prev : Gen := {}
  /-- those of two blocks before (pass 3); -; 01 R31; reset defaults -/
  prev2 : Gen := {}
  deriving DecidableEq, Repr

/-! ### The signal graph (chapters 02 to 04) -/

/-- A tagged sample as the engines hold it (02 R39): the value read as a signed integer, and the tag. -/
structure Smp where
  v : Int := 0
  t : Nat := 0
  deriving DecidableEq, Repr

/-- A gain ramp (03 R79): from `v0` to `v1` over `r` samples, of which `j` have passed. -/
structure Ramp where
  v0 : Int := 0
  v1 : Int := 0
  r : Nat := 0
  j : Nat := 0
  deriving DecidableEq, Repr

/-- A running crossfade (03 R86, R88): the outgoing codes with their frozen weights, the incoming code, S, shape and
the samples that have passed. -/
structure Fade where
  olds : List (Nat × Int)
  dest : Nat
  s : Nat
  shape : Nat
  j : Nat
  restarted : Bool := false
  deriving DecidableEq, Repr

/-- A selector (03 R86 to R90): its selection, a running crossfade, and a deferred selection with S and shape. -/
structure Sel where
  cur : Nat := 2736
  fade : Option Fade := none
  deferred : Option (Nat × Nat × Nat) := none
  deriving DecidableEq, Repr

/-- State of one biquad (04 R103). -/
structure BqSt where
  x1 : Smp := {}
  x2 : Smp := {}
  y1 : Smp := {}
  y2 : Smp := {}
  deriving DecidableEq, Repr

/-- Dynamic state of one source (03 R73, R74). -/
structure SrcSt where
  hp1 : BqSt := {}
  hp2 : BqSt := {}
  gate : Bool := false
  hold : Nat := 0
  deriving DecidableEq, Repr

/-- Dynamic state of one tap (03 R77 to R83). -/
structure TapSt where
  gain : Ramp := {}
  duck : Ramp := { v0 := 1073741824, v1 := 1073741824 }
  sel : Sel := {}
  deriving DecidableEq, Repr

/-- Dynamic state of one bus (03 R80 to R83). -/
structure BusSt where
  n : Nat := 1
  prio : Option Nat := none
  scale : Ramp := { v0 := 1073741824, v1 := 1073741824 }
  /-- the word of the scaling state carries tag 255 (02 R49) -/
  scaleBad : Bool := false
  taps : Map TapSt := []
  /-- ducking gain of the taps that no press has named (03 R82) -/
  rest : Ramp := { v0 := 1073741824, v1 := 1073741824 }
  /-- a scaling, and a ducking ramp ran in the block shown -/
  scaleRun : Bool := false
  duckRun : Bool := false
  deriving DecidableEq, Repr

/-- What GRAPH_OUT_STATE_c shows of a block of pass 2 (04 R128): COMP_GR, SEL_XFADE, DLY_XFADE, PAGES. -/
structure ChainView where
  compGr : Nat := 0
  selFade : Bool := false
  dlyFade : Bool := false
  pages : Nat := 0
  deriving DecidableEq, Repr

/-- Dynamic state of one output chain (04 R101 to R118). -/
structure ChainSt where
  sel : Sel := {}
  bq : Map BqSt := []
  /-- biquads set to act as OFF by a cold press (04 R126) -/
  bqOff : List Nat := []
  gain : Ramp := { v0 := 134217728, v1 := 134217728 }
  /-- physical pages of the ring, in order -/
  pages : List Nat := []
  dly : Sel := { cur := 0 }
  compOn : Bool := false
  e : Int := 0
  /-- the word of the detector e carries tag 255 (02 R49) -/
  eBad : Bool := false
  comp : Ramp := { v0 := 134217728, v1 := 134217728 }
  compGr : Nat := 0
  /-- what the latest pass 2 gives the registers, and what the pass 2 before it gave: the block of pass 3 -/
  seen : ChainView := {}
  shown : ChainView := {}
  /-- peaks of stage 4 of the latest blocks, newest first, with their graph blocks (10 R274) -/
  peaks : List (Nat × Nat) := []
  limOn : Bool := true
  g : Int := 1073741824
  /-- the word of the gain g carries tag 255 (02 R49) -/
  gBad : Bool := false
  limGr : Nat := 0
  limAct : Bool := false
  mute : Ramp := {}
  deriving DecidableEq, Repr

/-- One coefficient bank of an array filter (04 R121): coefficients by index (default 2^30 at 0, else 0), length, mode. -/
structure FirBank where
  coef : Map Int := []
  length : Nat := 1
  mode : Nat := 0
  /-- fir.switch_blocks and fir.switch_shape, tacked with it (04 R121) -/
  blocks : Nat := 4
  shape : Nat := 0
  deriving DecidableEq, Repr

/-- State of one array filter (04 R120 to R124). -/
structure FirSt where
  bank : FirBank := {}
  shadow : FirBank := {}
  /-- the input history, newest first -/
  hist : List Smp := []
  /-- the running exchange: S, shape, samples passed -/
  xchg : Option (Nat × Nat × Nat) := none
  /-- an accepted press that exchanges it has not finished (04 R123) -/
  busy : Bool := false
  /-- an exchange ran in the block shown (GRAPH_FIR_STATE_m.XCHG; 04 R128) -/
  ran : Bool := false
  deriving DecidableEq, Repr

/-- State of one sink (02 R57 to R61, 03 R92). -/
structure SinkSt where
  sel : Sel := {}
  /-- failures counted in the present window -/
  fails : Nat := 0
  /-- index of that window -/
  win : Nat := 0
  /-- TAG_FAIL; 32 saturating -/
  failTotal : Nat := 0
  /-- TAG_MUTES; 32 saturating -/
  mutes : Nat := 0
  muted : Bool := false
  /-- code and block index of the muting FAULT, until it is acknowledged: a sink under LATCH waits for that -/
  waits : Option (Nat × Nat) := none
  /-- last value that passed -/
  held : Option Int := none
  /-- ramp from silence after an un-mute: S, shape, samples passed (02 R60) -/
  unmute : Option (Nat × Nat × Nat) := none
  deriving DecidableEq, Repr

/-- State of a delay page (04 R114). -/
inductive PageSt where
  | filling | owned | releasing (at_ : Nat)
  deriving DecidableEq, Repr

/-- A page that is not FREE (04 R128). -/
structure Page where
  chain : Nat
  order : Nat
  st : PageSt
  deriving DecidableEq, Repr

/-- Counts captured at the latest tick for the ledgers (13 R372, 14 R390). -/
structure Capture where
  n : Nat := 0
  /-- per q: FREE, IN_FLIGHT, HELD -/
  cred : List (Nat × Nat × Nat) := []
  /-- pages: FREE, OWNED, FILLING, RELEASING -/
  pages : Nat × Nat × Nat × Nat := (2048, 0, 0, 0)
  /-- hampers: FREE, RING, ASSEMBLING, HOST -/
  hampers : Nat × Nat × Nat × Nat := (16384, 0, 0, 0)
  /-- per m: TIMED, WRITTEN, LOST, IN_QUEUE -/
  stamps : List (Nat × Nat × Nat × Nat) := []
  /-- mismatches at N: credit q as bits 7:0, pages 8, hampers 9, timestamps 12:10 -/
  bad : Word := 0
  /-- counter sets 0 and 1 as captured: (set, element) -> words -/
  counters : List (Nat × Nat × List Word) := []
  deriving DecidableEq, Repr

/-- The GRAPH block and the engines' dynamic state (02, 03, 04). -/
structure Graph where
  /-- source states; 2752; 03 R96; reset cleared -/
  src : Map SrcSt := []
  /-- bus states (GRAPH_BUS_STATE_b, GRAPH_BUS_SCALE_b); 512; 03 R99; reset N 1, scale 0x4000_0000 -/
  bus : Map BusSt := []
  /-- chain states (GRAPH_OUT_STATE_c); 512; 04 R128; reset cleared -/
  chain : Map ChainSt := []
  /-- array filters (GRAPH_FIR_STATE_m, GRAPH_FIR_CRC_m); 64; 04 R128; reset default banks -/
  fir : Map FirSt := []
  /-- sinks (TAG_FAIL, TAG_MUTES, MUTED_COUNT); 2624; 02 R57; reset 2736, not muted -/
  sink : Map SinkSt := []
  /-- conditioned sources and bus outputs of the current graph block, by code; -; 01 R24; reset zeros -/
  pass1 : Map (List Smp) := []
  /-- those of the block before; -; 01 R24; reset zeros -/
  pass1b : Map (List Smp) := []
  /-- limiter inputs of the previous graph block, by chain; -; 04 R116; reset zeros -/
  pass2 : Map (List Smp) := []
  /-- graph block whose pass 1 has run last, and the one whose pass 2 has; none after a gap; -; 01 R24; reset none -/
  at1 : Option Nat := none
  at2 : Option Nat := none
  /-- samples at the sinks of the next output block, by sink element: those of a modulator before its exit check; -; 01 R25;
  reset zeros -/
  out : Map (List Smp) := []
  /-- items that govern that block; -; 01 R31; reset defaults -/
  outItems : Items := []
  /-- network and serial sinks of which samples of that block were not handed on, with how many; -; 01 R543; reset none -/
  left : Map Nat := []
  /-- pages that are not FREE (GRAPH_PAGE_p); 2048; 04 R128; reset all FREE -/
  pages : Map Page := []
  /-- GRAPH_STATUS.RUN; 1; 03 R99; reset 0 -/
  run : Bool := false
  /-- sources whose presence gate is open in the block of GRAPH_STATE_BLK (GRAPH_GATE_OPEN); 12; 03 R99; reset none -/
  opens : List Nat := []
  /-- first output block that an exit-check window counts; 64; 05 R139; reset 0 -/
  winFrom : Nat := 0
  /-- GRAPH_STATUS.DANGLING; 1; 03 R99; reset 0 -/
  dangling : Bool := false
  /-- GRAPH_STATUS.LEDGER_ERR; 1; 03 R99; reset 0 -/
  ledgerErr : Bool := false
  /-- GRAPH_STATE_BLK; 32; 03 R99; reset 0 -/
  stateBlk : Nat := 0
  /-- credits of the crossings, per q: FREE, IN_FLIGHT, HELD; 8 x 3; 03 R97; reset all FREE -/
  cred : List (Nat × Nat × Nat) :=
    [(64, 0, 0), (32, 0, 0), (64, 0, 0), (64, 0, 0), (128, 0, 0), (16, 0, 0), (128, 0, 0), (128, 0, 0)]
  /-- GRAPH_CRED_ERR; 8; 03 R99; reset 0 -/
  credErr : BitVec 8 := 0
  /-- GRAPH_CRED_ERR_BLK; 32; 03 R99; reset 0 -/
  credErrBlk : Nat := 0
  /-- GRAPH_DLY_ERR_BLK; 32; 04 R128; reset 0 -/
  dlyErrBlk : Nat := 0
  /-- counts captured at the latest tick (GRAPH_CRED_q, GRAPH_DLY_LEDGER0/1, HAMPER_LEDGER0/1); -; 13 R372; reset as reset -/
  cap : Capture := {}
  /-- GRAPH_TAG_STATUS.FAIL_SEEN; 1; 02 R63; reset 0 -/
  failSeen : Bool := false
  /-- GRAPH_TAG_STATUS.POISON_SEEN; 1; 02 R63; reset 0 -/
  poisonSeen : Bool := false
  /-- GRAPH_TAG_STATUS.STATE_CLEARED; 1; 02 R63; reset 0 -/
  stateCleared : Bool := false
  /-- GRAPH_TAG_FAIL_TOTAL; 32; 02 R63; reset 0 -/
  failTotal : Word := 0
  /-- GRAPH_TAG_POISON_TOTAL; 32; 02 R63; reset 0 -/
  poisonTotal : Word := 0
  /-- GRAPH_TAG_LAST; 32; 02 R63; reset 0 -/
  tagLast : Word := 0
  /-- GRAPH_TAG_LAST_BLK; 32; 02 R63; reset 0 -/
  tagLastBlk : Nat := 0
  /-- GRAPH_TAG_STATE_CLEAR; 32; 02 R63; reset 0 -/
  clears : Word := 0
  /-- sink fade of a cold press, a safe exit or audio enable: from, to (0 or 2^30), first output block; -; 05 R137; reset none -/
  fade : Option (Ramp × Nat) := none
  /-- the same for network transmit sinks, whose fade gains are mirrored; -; 12 R332; reset none -/
  netFade : Option (Ramp × Nat) := none
  /-- pressed copies whose CRC failed and whose rewrite is due: filter m as m, flow table 64, configuration 65; -; 04 R124; reset none -/
  rewrites : List Nat := []
  deriving DecidableEq, Repr

/-! ### Flows (chapter 06) -/

/-- State of one presentation block of a LISTEN context (06 R164). -/
inductive EntrySt where
  | empty | fallback | good | missing
  deriving DecidableEq, Repr

/-- A window entry (06 R164): block, state, paths seen, and the kept samples by channel. -/
structure Entry where
  block : Nat
  st : EntrySt := .empty
  paths : BitVec 4 := 0
  kept : List (List Smp) := []
  deriving DecidableEq, Repr

/-- The per-path counters of a context (06 R183): ACCEPT, DUP, LATE_DUP, LATE_LOSS, RESIDUE, EARLY, LEVEL, FORMAT, then
MIN_SLACK of the last completed window and of the present one. -/
structure PathCnt where
  counts : List Nat := List.replicate 8 0
  minSlack : Nat := 0xFFFFFFFF
  nowSlack : Nat := 0xFFFFFFFF
  deriving DecidableEq, Repr

/-- A LISTEN context (06 R160 to R168, R183). -/
structure Listen where
  /-- cursor C; 64; 06 R164; reset 0 -/
  cursor : Nat := 0
  /-- the window of 64 entries, by block mod 64; -; 06 R164; reset EMPTY -/
  win : Map Entry := []
  /-- per-path counters; 4 x 9 x 32; 06 R183; reset 0 -/
  paths : List PathCnt := [{}, {}, {}, {}]
  /-- FALLBACK, MISSING, OFFSET_DIFF; 3 x 32 saturating; 06 R183; reset 0 -/
  fallback : Nat := 0
  missing : Nat := 0
  offsetDiff : Nat := 0
  /-- last presented sample of each channel (HOLD); -; 06 R166; reset 0 -/
  last : List Smp := []
  /-- every block presented so far in this window was MISSING, and whether the window was whole; -; 06 R167; reset 0 -/
  allMissing : Bool := false
  /-- a whole window was MISSING and the FAULT is due; 1; 06 R167; reset 0 -/
  faultDue : Bool := false
  /-- window of the latest NOTE 0x0901; -; 06 R167; reset none -/
  noted : Option Nat := none
  /-- an outage of 0x0902 is running; 1; 06 R167; reset 0 -/
  outage : Bool := false
  /-- no NOTE 0x0901 for blocks below this index; 64; 06 R173; reset 0 -/
  quietUntil : Nat := 0
  deriving DecidableEq, Repr

/-- A slot of the flow table (06 R169): 48-bit address, flow ID, context, whether UDP. -/
structure Slot where
  addr : Nat
  flow : Nat
  ctx : Nat
  udp : Bool
  deriving DecidableEq, Repr

/-- A copy of the flow table (06 R169). -/
structure FlowTable where
  slots : Map Slot := []
  seed : Nat := 0
  maxProbe : Nat := 0
  deriving DecidableEq, Repr

/-- The interval in which both table copies are looked up (06 R173): L, the first tick T, the airing copy, and the old
configuration. -/
structure Airing where
  land : Nat
  since : Nat
  table : FlowTable
  /-- items of the new and the old configuration -/
  new : Items
  old : Items
  /-- set by AIRING_WITHDRAW's cause: the interval ends at the next tick (06 R546) -/
  withdrawn : Bool := false
  deriving DecidableEq, Repr

/-- A management session (06 R179). Its own counter starts at 1 and the last one heard at 0 (log 91). -/
structure Session where
  id : BitVec 16
  key : List Byte
  /-- last accepted counter, and the ZK9's own next counter -/
  heard : Nat := 0
  own : Nat := 1
  /-- the bytes before the flow header of its latest request -/
  peer : List Byte := []
  usedAt : Nat := 0
  deriving DecidableEq, Repr

/-- The FLOW block (06 R146 to R184). -/
structure FlowUnit where
  /-- LISTEN contexts; 1024; 06 R164; reset none -/
  ctx : Map Listen := []
  /-- the pressed copy (FLOW_TABLE_CRC, FLOW_TABLE_SEED); 64 KiB; 06 R184; reset empty -/
  table : FlowTable := {}
  /-- the built airing copy with the lookup items it was built for (FLOW_AIRING_CRC, AIRING_READY); 64 KiB; 06 R170; reset none -/
  built : Option (FlowTable × List (Nat × Int)) := none
  /-- the lookup items the rebuild under way builds for, and whether it is verified; -; 06 R170; reset none -/
  building : Option (List (Nat × Int) × Bool) := none
  /-- the peer has completed its copy for the latest press or rebuild; 1; 06 R172; reset 0 -/
  peerDone : Bool := false
  /-- the airing intervals, in the order in which they began; -; 06 R173; reset none -/
  airing : List Airing := []
  /-- airing copies that have become the pressed copy, which settles where the copies lie; -; 06 R173; reset 0 -/
  exchanges : Nat := 0
  /-- FLOW_STATUS.TABLE_ERR; 1; 06 R184; reset 0 -/
  tableErr : Bool := false
  /-- FLOW_STATUS.PATH_DOWN; 4; 06 R184; reset 0 -/
  pathDown : BitVec 4 := 0
  /-- paths that delivered a copy since the last window's end; 4; 06 R168; reset 0 -/
  delivered : BitVec 4 := 0
  /-- those of the window that ended last, once it was whole; 4; 06 R168; reset none -/
  ended : Option (BitVec 4) := none
  /-- first presentation block closed in the present window; 64; 06 R168; reset 0 -/
  winFrom : Nat := 0
  /-- first presentation block whose MISSING window counts after a cold press; 64; 05 R140; reset 0 -/
  missFrom : Nat := 0
  /-- FLOW_STATUS.OFFSET_DIFF; 1; 06 R184; reset 0 -/
  offsetDiff : Bool := false
  /-- receiver's level in force; 8; 06 R177; reset 3 -/
  rxLevel : Nat := 3
  /-- FLOW_DROP_UNKNOWN, LEVEL, FORMAT, MISSING_TOTAL; 4 x 32; 06 R184; reset 0 -/
  drops : List Word := [0, 0, 0, 0]
  /-- FLOW_MGMT_DROP.AUTH; 16 saturating; 06 R184; reset 0 -/
  auth : Nat := 0
  /-- FLOW_MGMT_DROP.SESSION; 16 saturating; 06 R184; reset 0 -/
  noSession : Nat := 0
  /-- FLOW_PATH_ACCEPT, DUP, LATE, LOSS, RESIDUE, EARLY per path; 4 x 6 x 32; 06 R184; reset 0 -/
  paths : List (List Word) := List.replicate 4 (List.replicate 6 0)
  /-- FLOW_PATH_SLACK_k MIN and LAST, and the least slack of the present window; 4 x 3 x 16; 06 R184; reset 0xFFFF -/
  slack : List (Nat × Nat × Nat) := List.replicate 4 (0xFFFF, 0xFFFF, 0xFFFF)
  /-- next presentation block to close; 64; 06 R162; reset 0 -/
  nextClose : Nat := 0
  /-- the block that closed last presented no listener, for audio was not enabled; 1; 19 R496; reset 0 -/
  unheard : Bool := false
  /-- presentation store: channels of the contexts presented for the next graph block, by context; -; 06 R166; reset empty -/
  store : Map (List (List Smp)) := []
  /-- management sessions; 8; 06 R179; reset none -/
  sessions : List Session := []
  /-- what came before the flow header of the management request taken last; -; 06 R180; reset empty -/
  replyTo : List Byte := []
  deriving DecidableEq, Repr

/-! ### MACs, rings and speech (chapter 07) -/

/-- A frame to be sent (07 R194, R214): its descriptor's slot on a host ring, a status fixed before sending, the bytes
without FCS, TS_REQ, the sequence number of an audio frame, posting time, attempts and back-off end; the Follow_Up that a
PTP Sync is sent with, but for its timestamp, and the sequence number of a Delay_Req (11 R313, R314). -/
structure TxFrame where
  slot : Option Nat := none
  fixed : Option Nat := none
  bytes : List Byte
  tsReq : Bool := false
  seq : Option Nat := none
  postedAt : Nat := 0
  attempts : Nat := 0
  waitUntil : Nat := 0
  follow : List Byte := []
  asks : Option (BitVec 16) := none
  deriving DecidableEq, Repr

/-- A received frame its firmware owner has not processed yet (07 R192). -/
structure RxFrame where
  bytes : List Byte
  trunc : Bool
  bufs : List Nat
  at_ : Nat
  deriving DecidableEq, Repr

/-- A completion that a halted DMA channel holds back (17 R454): of a receive ring, with its buffers, its descriptor words
but the phase, and the frame; or of a transmit ring, with its slot, attempts, status and timestamp words. A timed one takes its timestamp
when it is written. -/
inductive HeldBack where
  | rx (ring : Nat) (bufs : List Nat) (words : List Word) (timed : Bool) (frame : RxFrame)
  | tx (ring slot attempts status : Nat) (ts : List Word) (timed : Bool)
  deriving DecidableEq, Repr

/-- The block's side of one receive ring (07 R212, R213). -/
structure RxSide where
  /-- descriptors written so far (slot and PHASE of the next); -; 07 R212; reset 0 -/
  made : Nat := 0
  /-- return entries taken; -; 07 R213; reset 0 -/
  taken : Nat := 0
  /-- frames the firmware owner has not processed; -; 07 R192; reset empty -/
  inbox : List RxFrame := []
  /-- entries the firmware owner has written into the return queue; -; 07 R213; reset 0 -/
  given : Nat := 0
  deriving DecidableEq, Repr

/-- The block's side of one transmit ring (07 R194, R214). -/
structure TxSide where
  /-- LINK_TXR_STAT_r.CONSUMER; 16; 07 R216; reset 0 -/
  consumed : BitVec 16 := 0
  /-- descriptors taken from the ring; 16; 07 R214; reset 0 -/
  fetched : BitVec 16 := 0
  /-- frames in the ring, oldest first; at most 256; 07 R194; reset empty -/
  queue : List TxFrame := []
  /-- frames that the firmware owner will post when the ring has room; -; 07 R194; reset empty -/
  owner : List TxFrame := []
  deriving DecidableEq, Repr

/-- One MAC: 0 LINKA, 1 LINKB, 2 DROP (07 R216, R218). -/
structure Mac where
  /-- LINK_STATUS.LINK_UP; 1; 07 R216; reset 0 -/
  up : Bool := false
  /-- LINK_STATUS.BLOCK_LOCK; 1; 07 R216; reset 0 -/
  blockLock : Bool := false
  /-- LINK_STATUS.LOCAL_FAULT; 1; 07 R216; reset 0 -/
  localFault : Bool := false
  /-- LINK_STATUS.REMOTE_FAULT; 1; 07 R216; reset 0 -/
  remoteFault : Bool := false
  /-- LINK_STATUS.MOD_ABS; 1; 07 R216; reset 0 -/
  modAbs : Bool := false
  /-- LINK_STATUS.RX_LOS; 1; 07 R216; reset 0 -/
  rxLos : Bool := false
  /-- LINK_STATUS.TX_FAULT; 1; 07 R216; reset 0 -/
  txFault : Bool := false
  /-- LINK_STATUS.LINK_CHANGE; 1; 07 R216; reset 0 -/
  change : Bool := false
  /-- LINK_UP has cleared, and a frame that was being received then may still end; 1; 07 R190; reset 0 -/
  cut : Bool := false
  /-- LINK_CTRL.PORT_EN, DROP_CTRL.PORT_EN; 1; 07 R216; reset 0 -/
  portEn : Bool := false
  /-- LINK_CTRL.TX_DISABLE and its pin; 1; 07 R216; reset 1 -/
  txDisable : Bool := true
  /-- LINK_HASH_n, DROP_HASH_n: the set bins; 512; 07 R216; reset 0 -/
  hash : List Word := List.replicate 16 0
  /-- counters GOOD, FCS, SIZE, FILTERED, UNCLAIMED, TRUNC, SENT, DROPPED; 8 x 32; 07 R216; reset 0 -/
  counts : List Word := List.replicate 8 0
  /-- receive rings; 8; 07 R192; reset empty -/
  rx : List RxSide := List.replicate 8 {}
  /-- transmit rings; 8; 07 R194; reset empty -/
  tx : List TxSide := List.replicate 8 {}
  /-- the frame being sent, with its ring; -; 07 R194; reset none -/
  sending : Option (Nat × TxFrame) := none
  /-- completions a halted DMA channel holds back; -; 17 R454; reset empty -/
  heldBack : List HeldBack := []
  deriving DecidableEq, Repr

/-- One fallback speech channel (07 R205 to R207). -/
structure Speech where
  /-- samples by speech index; 4160 x 16; 07 R205; reset empty -/
  buf : Map Int := []
  /-- CORE clock of its latest accepted frame (DROP_STATUS.SPEECH); -; 07 R218; reset none -/
  lastAt : Option Nat := none
  /-- a frame was accepted in the present window; 1; 07 R207; reset 0 -/
  heard : Bool := false
  /-- 0x0803 was raised and no frame accepted since; 1; 07 R207; reset 0 -/
  silent : Bool := false
  /-- DROP_SPEECH_MISS_n; 32; 07 R218; reset 0 -/
  miss : Word := 0
  /-- what a press changed at block L, until tick L has captured block L - 1: L, whether the channel was enabled, its lag in
  speech samples and its buffer; -; 07 R206, R207; reset none -/
  was : Option (Nat × Bool × Nat × Map Int) := none
  deriving DecidableEq, Repr

/-- The DROP block's own registers (07 R218) and the hamper registers (07 R217). -/
structure DropUnit where
  /-- DROP_STATUS.CARRIER; 1; 07 R218; reset 0 -/
  carrier : Bool := false
  /-- DROP_STATUS.COLL_SEEN; 1; 07 R218; reset 0 -/
  collSeen : Bool := false
  /-- DROP_COLLISIONS, LATE_COLL, EXCESS_COLL, TX_STALE, SPEECH_LATE, SPEECH_EARLY; 6 x 32; 07 R218; reset 0 -/
  counts : List Word := List.replicate 6 0
  /-- fallback speech channels 0 to 3; -; 07 R205; reset empty -/
  speech : List Speech := [{}, {}, {}, {}]
  /-- HAMPER_STATUS.LEDGER_ERR; 1; 07 R217; reset 0 -/
  hamperErr : Bool := false
  /-- HAMPER_STATUS.BAD_RETURN; 1; 07 R217; reset 0 -/
  badReturnSeen : Bool := false
  /-- HAMPER_STATUS.TRUNC_SEEN; 1; 07 R217; reset 0 -/
  truncSeen : Bool := false
  /-- HAMPER_ERR_BLK; 32; 07 R217; reset 0 -/
  hamperErrBlk : Nat := 0
  /-- HAMPER_BAD_RETURN; 32; 07 R217; reset 0 -/
  badReturns : Word := 0
  /-- HAMPER_TRUNC_TOTAL; 32; 07 R217; reset 0 -/
  truncs : Word := 0
  deriving DecidableEq, Repr

/-- One receive ring's buffers (07 R208): posted in ring order, being assembled, held by the ring's owner. -/
structure RxRing where
  /-- RING buffers; -; 07 R208; reset none -/
  posted : List Nat := []
  /-- ASSEMBLING buffers; -; 07 R208; reset none -/
  asm : List Nat := []
  /-- HOST buffers; -; 07 R208; reset none -/
  held : List Nat := []
  deriving DecidableEq, Repr

/-- The hampers (07 R208): FREE buffers, and the 24 receive rings, ring r of MAC m at 8m + r. -/
structure Hamper where
  /-- FREE buffers; 16,384; 07 R208; reset all -/
  free : List Nat := List.range 16384
  /-- the receive rings; 24; 07 R192; reset empty -/
  rings : List RxRing := List.replicate 24 {}
  deriving DecidableEq, Repr

/-! ### Serial ports (chapter 08) -/

/-- Port states (08 R244). -/
inductive SapSt where
  | stopped | lead | zcWait | run | stopping | clockHold
  deriving DecidableEq, Repr

/-- The format a port's clocks run with (08 R243, R244). -/
structure SapFmt where
  enable : Bool := false
  bits : Nat := 256
  width : Nat := 32
  offset : Nat := 0
  slots : Nat := 8
  half : Bool := false
  low : Bool := false
  rise : Bool := false
  hiz : Bool := false
  seam : Nat := 0
  zk7 : Bool := false
  leadFrames : Nat := 16
  deriving DecidableEq, Repr

/-- One bit clock of a frame on the wire (08 R227, R229, R230). -/
structure SapBit where
  /-- the MOD count at which it begins -/
  start : Nat
  /-- the length of its launch phase in MOD clocks, at whose start DOUT and FS change -/
  launch : Nat
  /-- the level of BCLK in the launch phase; in the rest of the bit clock, at whose start DIN is sampled, it is the other -/
  bclk : Bool
  fs : Bool
  /-- the level of DOUT; none is high impedance -/
  dout : Option Bool
  deriving DecidableEq, Repr

/-- One serial port (08 R225 to R244). -/
structure SapPort where
  /-- SAP_STATUS.STATE; 3; 08 R244; reset STOPPED -/
  st : SapSt := .stopped
  /-- SAP_STATUS.FORMAT_ERR; 1; 08 R244; reset 0 -/
  formatErr : Bool := false
  /-- SAP_STATUS.NONAUDIO_SEEN; 1; 08 R244; reset 0 -/
  nonaudioSeen : Bool := false
  /-- SAP_STATUS.ZC_TIMEOUT_SEEN; 1; 08 R244; reset 0 -/
  zcSeen : Bool := false
  /-- SAP_DIV: INT, FRAC; 10 + 16; 08 R244; reset 0 -/
  div : Nat × Nat := (0, 0)
  /-- SAP_FRAME and SAP_FORMAT, the format in force; -; 08 R244; reset the item defaults -/
  fmt : SapFmt := {}
  /-- SAP_RX_ACTIVE; 32; 08 R244; reset 0 -/
  rxMask : Nat := 0
  /-- SAP_TX_ACTIVE; 32; 08 R244; reset 0 -/
  txMask : Nat := 0
  /-- SAP_NONAUDIO.PAIRS: muted pairs with the frames since their last preamble; 16; 08 R244; reset none -/
  pairs : Map Nat := []
  /-- SAP_START_FRAME, held whole; 32; 08 R244; reset 0 -/
  startFrame : Nat := 0
  /-- SAP_DATA_FRAME, held whole; 32; 08 R244; reset 0 -/
  dataFrame : Nat := 0
  /-- data has passed since the latest clock start; 1; 08 R244; reset 0 -/
  dataSeen : Bool := false
  /-- SAP_RESTARTS; 32; 08 R244; reset 0 -/
  restarts : Word := 0
  /-- SAP_ZC_TIMEOUTS; 32; 08 R244; reset 0 -/
  zcTimeouts : Word := 0
  /-- SAP_NONAUDIO_EVENTS; 32; 08 R244; reset 0 -/
  nonaudioEvents : Word := 0
  /-- index of the next frame; -; 08 R225; reset 0 -/
  frame : Nat := 0
  /-- receive slots that wait for a zero crossing, with the frame their wait began at; -; 08 R236; reset none -/
  rxWait : Map Nat := []
  /-- transmit slots that wait, or that still send while the port is STOPPING; -; 08 R236, R237; reset none -/
  txWait : Map Nat := []
  /-- samples of the previous frame by slot, received and sent; -; 08 R236; reset none -/
  rxLast : Map Int := []
  txLast : Map Int := []
  /-- captured frames: index, and the samples of the channels that pass data; -; 08 R226; reset none -/
  captured : Map (Map Smp) := []
  deriving DecidableEq, Repr

/-- The SAP block (08 R244, R245). -/
structure Sap where
  /-- ports 0 to 15; -; 08 R244; reset STOPPED -/
  ports : List SapPort := List.replicate 16 {}
  /-- the output block being played: its index and the samples by sink element; -; 08 R226; reset none -/
  play : Nat × Map (List Smp) := (0, [])
  deriving DecidableEq, Repr

/-! ### Analogue inputs, contacts and supply sense (chapter 09) -/

/-- A change of a debounced state: its scan, what CHATTER would hold from before it (a STUCK button reads released), and
whether 20 scans decided it: the release by a class change is no debounced change (09 R252, R253). -/
structure DebChange where
  scan : Nat
  before : Bool
  counted : Bool := true
  deriving DecidableEq, Repr

/-- A debounced two-state signal with its CHATTER guard (09 R253): the debounced state, consecutive scans that show the
other state, the scans of its latest changes, the CHATTER guard (reported state, scan at which it ends), and the scan
since which it has held its state. -/
structure Deb where
  state : Bool := false
  count : Nat := 0
  changes : List DebChange := []
  chatter : Option (Bool × Nat) := none
  since : Nat := 0
  deriving DecidableEq, Repr

/-- One microphone or line input (09 R248 to R254, R262). -/
structure AinIn where
  /-- the AIN_DET_n contact (INSERTED, DET_CHATTER); 2; 09 R262; reset 0 -/
  det : Deb := {}
  /-- a removal has been debounced and no insertion since; 1; 09 R250; reset 0 -/
  removed : Bool := false
  /-- first sample index that reads 0 after a removal; -; 09 R250; reset none -/
  mutedFrom : Option Nat := none
  /-- AIN_STATUS_n.CLASS; 3; 09 R262; reset 0 -/
  cls : Nat := 0
  /-- candidate class and the scans it has held; -; 09 R251; reset 0 -/
  cand : Nat × Nat := (0, 0)
  /-- buttons 0 to 3 (BUTTONS, CHATTER); 4 x 2; 09 R262; reset released -/
  buttons : List Deb := [{}, {}, {}, {}]
  /-- AIN_STATUS_n.STUCK; 4; 09 R262; reset 0 -/
  stuck : BitVec 4 := 0
  /-- the bias is off for an overload; 1; 09 R249; reset 0 -/
  overload : Bool := false
  /-- AIN_STATUS_n.BIAS_OVL; 1; 09 R262; reset 0 -/
  biasOvl : Bool := false
  /-- AIN_STATUS_n.GAIN; 6; 09 R262; reset 0 -/
  gain : Nat := 0
  /-- AIN_SCAN_n.RC; 16; 09 R262; reset 0xFFFF -/
  rc : Nat := 0xFFFF
  /-- AIN_SCAN_n.RD; 16; 09 R262; reset 0xFFFF -/
  rd : Nat := 0xFFFF
  deriving DecidableEq, Repr

/-- One supervised contact (09 R255, R262). -/
structure Contact where
  /-- AIN_CONTACT_k.STATE; 2; 09 R262; reset NORMAL -/
  st : Nat := 0
  /-- the debounced state; 2; 09 R255; reset NORMAL -/
  deb : Nat := 0
  /-- state of the latest scan and the scans that showed it; -; 09 R255; reset NORMAL -/
  cand : Nat × Nat := (0, 0)
  /-- scans of its latest debounced changes with the state before each; -; 09 R256; reset none -/
  changes : List (Nat × Nat) := []
  /-- AIN_CONTACT_k.CHATTER: state reported and the scan at which it ends; 1; 09 R262; reset 0 -/
  chatter : Option (Nat × Nat) := none
  /-- AIN_CONTACT_k.LOOP; 16; 09 R262; reset 0xFFFF -/
  loop_ : Nat := 0xFFFF
  deriving DecidableEq, Repr

/-- The battery or one of its conditions: readings in a row that would set it, and that would clear it (09 R259). -/
structure Cond where
  on : Bool := false
  set : Nat := 0
  clear : Nat := 0
  deriving DecidableEq, Repr

/-- One supervised rail (09 R259, R262). -/
structure RailSense where
  /-- AIN_RAIL_r.VOLTS; 16; 09 R262; reset 0 -/
  volts : Nat := 0
  /-- AIN_RAIL_r.LOW and HIGH: the latest reading lies below or above the window; 2; 09 R262; reset 0 -/
  low : Bool := false
  high : Bool := false
  /-- out of its window, and the readings in a row that show the other; 1; 09 R259; reset 0 -/
  out : Bool := false
  count : Nat := 0
  deriving DecidableEq, Repr

/-- The AIN block (09 R247 to R262). -/
structure Ain where
  /-- AIN_0 to AIN_15; -; 09 R262; reset not inserted -/
  ins : List AinIn := List.replicate 16 {}
  /-- CONTACT_0 to CONTACT_31; -; 09 R262; reset NORMAL -/
  contacts : List Contact := List.replicate 32 {}
  /-- AIN_EVENT; 18; 09 R262; reset 0 -/
  event : Word := 0
  /-- AIN_EVENT_BLK; 32; 09 R262; reset 0 -/
  eventBlk : Nat := 0
  /-- number of 1 kHz scans so far, and the block of the latest; -; 09 R250; reset 0 -/
  scans : Nat := 0
  scanBlk : Nat := 0
  /-- AIN_MAINS.VRMS; 12; 09 R262; reset 0 -/
  vrms : Nat := 0
  /-- AIN_MAINS.FREQ; 13; 09 R262; reset 0 -/
  freq : Nat := 0
  /-- AIN_MAINS.FAIL; 1; 09 R262; reset 1 -/
  mainsFail : Bool := true
  /-- CORE clock of the latest zero crossing, while crossings follow one another; -; 09 R258; reset none -/
  lastZc : Option Nat := none
  /-- CORE clock since which every half-cycle was good; -; 09 R258; reset none -/
  goodSince : Option Nat := none
  /-- AIN_BATT.VOLTS; 16; 09 R262; reset 0 -/
  batt : Nat := 0
  /-- AIN_BATT.LOW; 1; 09 R262; reset 0 -/
  low : Cond := {}
  /-- AIN_BATT.CRITICAL; 1; 09 R262; reset 0 -/
  critical : Cond := {}
  /-- AIN_RAIL_0 to 7; -; 09 R262; reset 0 -/
  rails : List RailSense := List.replicate 8 {}
  /-- AIN_PSU_ALERT.ASSERTED and PSU_ALERT_N; 1; 09 R262; reset 0 -/
  psuAlert : Bool := false
  /-- AIN_PSU_ALERT.CAUSE; 4; 09 R262; reset 0 -/
  psuCause : Nat := 0
  deriving DecidableEq, Repr

/-! ### Power stage (chapter 10) -/

/-- Channel states (10 R268). -/
inductive ModSt where
  | off | rampUp | play | muted | tripped | retry | lockedOut | test
  deriving DecidableEq, Repr

/-- A demodulation under way (10 R279): sums of v and i against cosine and sine (in 2^-192), the blocks it runs over, the
frequency in mHz, the samples taken, and whether it is valid so far. -/
structure Meas where
  vc : Int := 0
  vs : Int := 0
  ic : Int := 0
  is_ : Int := 0
  first : Nat := 0
  last : Nat := 0
  freq : Nat := 0
  n : Nat := 0
  ok : Bool := true
  deriving DecidableEq, Repr

/-- An impedance result (10 R279). -/
structure ZRes where
  mag : Nat := 0xFFFFFF
  phase : Int := 0
  open_ : Bool := false
  valid : Bool := false
  retry : Bool := false
  blk : Nat := 0
  deriving DecidableEq, Repr

/-- The result of a sweep (MOD_SWEEP_m; 10 R282). -/
structure SweepRes where
  cls : Nat := 0
  eolOk : Bool := false
  noBaseline : Bool := false
  lrTested : Bool := false
  lrFail : Bool := false
  mean : Nat := 0
  deriving DecidableEq, Repr

/-- One modulator channel (10 R264 to R288). -/
structure ModCh where
  /-- MOD_CH_m.STATE; 3; 10 R288; reset OFF -/
  st : ModSt := .off
  /-- channel gain; Q2.30; 10 R268; reset 0 -/
  gain : Ramp := {}
  /-- the ramp to 0 of a disable runs; 1; 10 R269; reset 0 -/
  disabling : Bool := false
  /-- RAMP_UP follows a RETRY; 1; 10 R269; reset 0 -/
  fromRetry : Bool := false
  /-- CHANNEL_RETRY was taken and acts at the next tick; 1; 10 R269; reset 0 -/
  forced : Bool := false
  /-- mod.enable pressed during a clock error; -; 10 R272; reset none -/
  stored : Option Bool := none
  /-- MOD_CH_m.CLK_HOLD; 1; 10 R288; reset 0 -/
  clkHold : Bool := false
  /-- MOD_CH_m.LR_ACTIVE; 1; 10 R288; reset 0 -/
  lrActive : Bool := false
  /-- last-resort gain; Q2.30; 10 R285; reset 0 -/
  lrGain : Ramp := {}
  /-- MOD_CH_m.CAUSE; 2; 10 R288; reset 0 -/
  cause : Nat := 0
  /-- MOD_CH_m.FLT; 1; 10 R288; reset 0 -/
  flt : Bool := false
  /-- MOD_CH_m.ATTEMPTS; 5; 10 R288; reset 0 -/
  attempts : Nat := 0
  /-- MOD_CH_m.Z_ALARM; 1; 10 R288; reset 0 -/
  zAlarm : Bool := false
  /-- MOD_CH_m.CLIP_SEEN; 1; 10 R288; reset 0 -/
  clipSeen : Bool := false
  /-- MOD_CH_m.PEAK; 8; 10 R288; reset 0xFF -/
  peak : Nat := 0xFF
  /-- MOD_Z_MAG_m, MOD_Z_PHASE_m, MOD_Z_BLK_m; 3 x 32; 10 R288; reset MAG 0xFF_FFFF -/
  z : ZRes := {}
  /-- PHASE and BLK as latched by the last read of MOD_Z_MAG_m; 2 x 32; 10 R288; reset 0 -/
  zView : Int × Nat := (0, 0)
  /-- MOD_SWEEP_m; 32; 10 R288; reset 0 -/
  sweep : SweepRes := {}
  /-- MOD_TRIP_COUNT_m; 32; 10 R288; reset 0 -/
  trips : Word := 0
  /-- MOD_CLIP_COUNT_m; 32; 10 R288; reset 0 -/
  clips : Word := 0
  /-- block and CORE clock at which the state was entered; -; 10 R269; reset 0 -/
  since : Nat := 0
  sinceClk : Nat := 0
  /-- a trip not yet reported: its cause and the block it fell in; -; 10 R267; reset none -/
  unreported : Option (Nat × Nat) := none
  /-- it was switching when XQ_6 stopped; 1; 10 R273; reset 0 -/
  wasOn : Bool := false
  /-- the pilot window under way, and one that has ended; -; 10 R279; reset none -/
  win : Option Meas := none
  done : Option Meas := none
  /-- the retry measurement under way; -; 10 R270; reset none -/
  extra : Option Meas := none
  /-- the sweep point under way; -; 10 R281; reset none -/
  point : Option Meas := none
  /-- the window of a PILOT_MEASURE job; -; 14 R394; reset none -/
  job : Option Meas := none
  /-- samples into the closed loop in the block being played; Q5.27; 10 R265; reset none -/
  drive : List Int := []
  /-- magnitude of the sink samples of the output block being played, pilot included; -; 10 R274; reset 0 -/
  sinkPeak : Nat := 0
  deriving DecidableEq, Repr

/-- One rail group (10 R274 to R277). -/
structure RailGrp where
  /-- setpoint, in 10 mV (MOD_RAIL_k.SETPOINT in 0.1 V); 12; 10 R288; reset 0 -/
  set : Nat := 0
  /-- MOD_RAIL_k.LEAD; 3; 10 R288; reset 0 -/
  lead : Nat := 0
  /-- MOD_RAIL_k.TRIP_HOLD: CORE clock at which the hold began; 1; 10 R288; reset none -/
  hold : Option Nat := none
  /-- MOD_RAIL_k.DUTY; 11; 10 R288; reset 0 -/
  duty : Nat := 0
  deriving DecidableEq, Repr

/-- A LINE_SWEEP under way (10 R281): job slot, groups left, the present group with its point, the block the point
began in, the channels that take part and their results by point. -/
structure Sweep where
  slot : Nat
  groups : List Nat
  point : Nat := 0
  began : Nat := 0
  part : List Nat := []
  mags : Map (List ZRes) := []
  completed : Nat := 0
  deriving DecidableEq, Repr

/-- The MOD block (10 R264 to R288). -/
structure Pow where
  /-- MOD_0 to MOD_63; -; 10 R288; reset OFF -/
  ch : List ModCh := List.replicate 64 {}
  /-- RAIL_0 to RAIL_7; -; 10 R288; reset 0 -/
  rails : List RailGrp := List.replicate 8 {}
  /-- MOD_TRIP_LO/HI; 64; 10 R288; reset 0 -/
  trip : BitVec 64 := 0
  /-- MOD_STATUS.CLK_ERR; 1; 10 R288; reset 0 -/
  clkErr : Bool := false
  /-- MOD_STATUS.CLK_QUAL; 1; 10 R288; reset 0 -/
  clkQual : Bool := false
  /-- CORE clock of the latest clock error; -; 10 R272; reset 0 -/
  errAt : Nat := 0
  /-- the clocks qualified and held channels resume at the next tick; 1; 10 R272; reset 0 -/
  resume : Bool := false
  /-- MOD_STATUS.INPUT_LOST; 1; 10 R288; reset 0 -/
  inputLost : Bool := false
  /-- XQ_6 entries resumed; the channels resume at the next tick; 1; 10 R273; reset 0 -/
  inputBack : Bool := false
  /-- MOD_STATUS.SAFE_LR; 1; 10 R288; reset 0 -/
  safeLr : Bool := false
  /-- sense samples captured in blocks below this index make no valid window; -; 05 R139; reset 0 -/
  badBelow : Nat := 0
  /-- MOD_STATUS.CLK_ERR_SEEN; 1; 10 R288; reset 0 -/
  clkErrSeen : Bool := false
  /-- MOD_STATUS.SWEEP_RUN and the sweep; 1; 10 R288; reset none -/
  sweep : Option Sweep := none
  deriving DecidableEq, Repr

/-! ### References and PTP (chapter 11) -/

/-- One reference input (11 R292 to R297, R318). -/
structure RefIn where
  /-- REF_IN_x.PRESENT; 1; 11 R318; reset 0 -/
  present : Bool := false
  /-- REF_IN_x.QUALIFIED; 1; 11 R318; reset 0, LOSC 1 -/
  qualified : Bool := false
  /-- REF_IN_x.ELIGIBLE; 1; 11 R318; reset 0 -/
  eligible : Bool := false
  /-- REF_IN_x.WARN; 1; 11 R318; reset 0 -/
  warn : Bool := false
  /-- REF_IN_x.CAUSE; 3; 11 R318; reset 0 -/
  cause : Nat := 0
  /-- it was qualified before, so ref.wtr applies; 1; 11 R297; reset 0 -/
  before : Bool := false
  /-- CORE clock since which every condition of R292 has held; -; 11 R292; reset none -/
  goodSince : Option Nat := none
  /-- CORE clock of its latest qualification (REF_IN_x.WTR_LEFT); 16 s; 11 R297; reset 0 -/
  qualAt : Nat := 0
  /-- CORE clock of the latest event, of REF10M_IN for PPS; -; 11 R293; reset 0 -/
  lastAt : Nat := 0
  /-- edges of PPS_IN arrive (input 4), and the CORE clock of the latest; -; 11 R293; reset 0 -/
  pps : Bool := false
  ppsAt : Nat := 0
  /-- successive events off the expected grid; -; 11 R293; reset 0 -/
  offGrid : Nat := 0
  /-- its 1 s gates of the last hour, newest first: CORE clock of the end, offset in 0.01 ppb; -; 11 R294; reset empty -/
  gates : List (Nat × Int) := []
  /-- the offset of its latest gate, in 0.01 ppb; -; 11 R298; reset none -/
  freq : Option Int := none
  /-- fs has changed under WCLK_IN, which no event has met yet; 1; 11 R317; reset 0 -/
  rateMoved : Bool := false
  /-- media time minus its time, ns; -; 11 R298; reset 0 -/
  phase : Int := 0
  /-- REF_OFS_x; 32; 11 R318; reset 0 -/
  nu : Int := 0
  /-- REF_DEV_x; 32; 11 R318; reset 0 -/
  dev : Int := 0
  deriving DecidableEq, Repr

/-- DPLL states (11 R302). -/
inductive Dpll where
  | freeRun | acquire | locked | holdover | holdoverLimit
  deriving DecidableEq, Repr

/-- The REF block (11 R290 to R318). -/
structure Ref where
  /-- REF_STATUS.STATE; 3; 11 R318; reset FREE_RUN -/
  st : Dpll := .freeRun
  /-- REF_STATUS.SELECTED; 3; 11 R318; reset 6 -/
  selected : Nat := 6
  /-- REF_STATUS.SWITCHING; 1; 11 R318; reset 0 -/
  switching : Bool := false
  /-- REF_STATUS.MODEL_VALID; 1; 11 R318; reset 0 -/
  modelValid : Bool := false
  /-- REF_STATUS.NO_VOTE; 1; 11 R318; reset 1 -/
  noVote : Bool := true
  /-- REF_STATUS.LOSC_DRIFT; 1; 11 R318; reset 0 -/
  loscDrift : Bool := false
  /-- REF_STATUS.FORCED and the forced input; 1 + 3; 11 R301; reset none -/
  forced : Option Nat := none
  /-- REF_STATUS.REALIGN; 1; 11 R318; reset 0 -/
  realign : Bool := false
  /-- REF_STATUS.STATE_CHANGE; 1; 11 R318; reset 0 -/
  stateChange : Bool := false
  /-- REF_IN_x, REF_OFS_x, REF_DEV_x, REF_QUAL; 6 x 96; 11 R318; reset 0, LOSC qualified -/
  ins : List RefIn := [{}, {}, {}, {}, {}, { qualified := true }]
  /-- media time minus the time of the selected input at its latest event, ns (REF_PHASE); 32; 11 R318; reset 0 -/
  delta : Int := 0
  /-- how far media time has moved against the selected input since then, 10^-4 ns; -; 11 R298; reset 0 -/
  moved : Int := 0
  /-- REF_FREQ; 32; 11 R318; reset 0 -/
  freq : Int := 0
  /-- changes of the output frequency in the last 12 s, newest first: CORE clock, 0.01 ppb; -; 11 R303; reset empty -/
  history : List (Nat × Int) := []
  /-- REF_SWITCHES; 32; 11 R318; reset 0 -/
  switches : Word := 0
  /-- CORE clock at which the present holdover began (REF_HOLD_TIME); 32 s; 11 R318; reset none -/
  holdSince : Option Nat := none
  /-- MODEL_VALID was set when HOLDOVER was entered; 1; 11 R305; reset 0 -/
  holdModel : Bool := false
  /-- frequency aimed at in holdover, 0.01 ppb; -; 11 R303; reset 0 -/
  holdTarget : Int := 0
  /-- the input selected when the latest holdover began, 6 none; -; 11 R314; reset 6 -/
  heldInput : Nat := 6
  /-- CORE clock since which LOSC deviates by less than ref.warn_ppb; -; 11 R296; reset none -/
  loscGoodSince : Option Nat := none
  /-- CORE clock since which the switch is complete with delta within ref.lock_window; -; 11 R302; reset none -/
  lockSince : Option Nat := none
  /-- seconds of LOCKED since reset or REF_CLEAR_HISTORY; -; 11 R304; reset 0 -/
  lockedFor : Nat := 0
  /-- learning records: offset 0.01 ppb, temperature 0.01 C, second; -; 11 R304; reset empty -/
  records : List (Int × Int × Nat) := []
  /-- REF_MODEL_Y0; 32; 11 R318; reset 0 -/
  y0 : Int := 0
  /-- REF_MODEL_TC; 32; 11 R318; reset 0 -/
  tc : Int := 0
  /-- REF_MODEL_AGE; 32; 11 R318; reset 0 -/
  age : Int := 0
  /-- REF_TEMP; 16; 11 R318; reset 0 -/
  temp : Int := 0
  /-- a SELF_TEST REF suspends selection; 1; 11 R302; reset 0 -/
  testing : Bool := false
  /-- what REF_STATUS, but for STATE_CHANGE, and REF_PHASE show, taken every 10 ms; 2 x 32; 11 R318; reset NO_VOTE, SELECTED 6; 0 -/
  quick : List Word := [0x130, 0]
  /-- what the other REF registers show, taken every second: REF_QUAL, REF_FREQ, REF_SWITCHES, REF_HOLD_TIME, REF_IN_x, REF_OFS_x,
  REF_DEV_x, REF_MODEL_Y0, TC, AGE, REF_TEMP; 26 x 32; 11 R318; reset 0, LOSC qualified -/
  shown : List Word := [0x20, 0, 0, 0] ++ [0, 0, 0, 0, 0, 2] ++ List.replicate 16 0
  /-- the REF block is enabled (pins REF_STATE, PPS_OUT, WCLK_OUT driven); 1; 11 R316; reset 0 -/
  enabled : Bool := false
  /-- seconds that ref.tod_seconds is about to set; 48; 11 R311; reset none -/
  tod : Option Nat := none
  deriving DecidableEq, Repr

/-- PTP port states (11 R312). -/
inductive PortSt where
  | disabled | listening | following | master | passive | faulty
  deriving DecidableEq, Repr

/-- One PTP port (11 R312 to R314, R319). -/
structure PtpPort where
  /-- PTP_PORT_m.STATE; 3; 11 R319; reset 0 -/
  st : PortSt := .disabled
  /-- PTP_PORT_m.SYNC_OK; 1; 11 R319; reset 0 -/
  syncOk : Bool := false
  /-- PTP_PORT_m.CLASS; 8; 11 R319; reset 0xF8 -/
  cls : Byte := 0xF8
  /-- PTP_DELAY_m; 32; 11 R319; reset 0 -/
  delay : Int := 0
  /-- PTP_OFFSET_m; 32; 11 R319; reset 0 -/
  offset : Int := 0
  /-- PTP_GM_ID_LO/HI_m; 64; 11 R319; reset 0 -/
  gm : Dword := 0
  /-- the best Announce held and when it came; -; 11 R312; reset none -/
  best : Option (AnnounceMsg × Nat) := none
  /-- the masters heard: the latest Announce of each and when its latest ones came; -; 11 R312; reset none -/
  foreign : List (AnnounceMsg × List Nat) := []
  /-- the master followed last; 64; 11 R293; reset none -/
  master : Option Dword := none
  /-- receipt minus egress of the latest Delay_Req answered, less the correction, ns; -; 11 R313; reset none -/
  back : Option Int := none
  /-- Syncs since the last Delay_Req; -; 11 R313; reset 0 -/
  syncs : Nat := 0
  /-- of the latest Sync: its offset from the master in ns, its CORE clock, and the master's time; -; 11 R313; reset none -/
  lastSync : Option (Int × Nat × Int) := none
  /-- sequence and egress time (ns) of the Delay_Req under way; -; 11 R313; reset none -/
  asked : Option (BitVec 16 × Nat) := none
  /-- CORE clock and master time at which the present 1 s gate began; -; 11 R294; reset none -/
  gate : Option (Nat × Int) := none
  /-- next sequence numbers of Delay_Req, Sync and Announce; 3 x 16; 11 R312; reset 0 -/
  seqs : BitVec 16 × BitVec 16 × BitVec 16 := (0, 0, 0)
  deriving DecidableEq, Repr

/-- One timestamp record (07 R197, R219). -/
structure Stamp where
  words : List Word
  deriving DecidableEq, Repr

/-- The PTP block: time counter, ports and timestamp queues (11 R310, R319; 07 R195 to R198, R219). -/
structure Ptp where
  /-- the time counter (PTP_TIME_NS, SEC_LO, SEC_HI), in 2^-32 ns; 48 + 30 + 32; 11 R310; reset 0 -/
  time : Nat := 0
  /-- PTP_INCR_INT and PTP_INCR_FRAC, in 2^-32 ns; 8 + 32; 11 R319; reset 1.25 ns -/
  incr : Nat := 5368709120
  /-- seconds as latched by the last read of PTP_TIME_NS; 48; 11 R310; reset 0 -/
  secView : Nat := 0
  /-- ports 0 LINKA, 1 LINKB, 2 DROP; -; 11 R319; reset DISABLED -/
  ports : List PtpPort := [{}, {}, {}]
  /-- timestamp queues; 64, 64, 16 records; 07 R197; reset empty -/
  queues : List (List Stamp) := [[], [], []]
  /-- TIMED, WRITTEN, LOST per m; 3 x 32 each; 07 R219; reset 0 -/
  counts : List (Word × Word × Word) := [(0, 0, 0), (0, 0, 0), (0, 0, 0)]
  /-- ledger error and its block, per m; 3 x 33; 07 R219; reset 0 -/
  ledgerErr : List (Bool × Nat) := [(false, 0), (false, 0), (false, 0)]
  /-- TS_LOST seen, per m; 3; 07 R219; reset 0 -/
  lostSeen : List Bool := [false, false, false]
  /-- companion words latched by a read of a queue's first word; -; 07 R219; reset 0 -/
  view : List (List Word) := [[0, 0, 0, 0], [0, 0, 0, 0], [0, 0, 0, 0]]
  deriving DecidableEq, Repr

/-- The CLK block (11 R320). -/
structure Clk where
  /-- CLK_STATUS.CORE_LOCK; 1; 11 R320; reset 0 -/
  coreLock : Bool := false
  /-- CLK_STATUS.MOD_LOCK; 1; 11 R320; reset 0 -/
  modLock : Bool := false
  /-- CLK_STATUS.MEDIA_OK; 1; 11 R320; reset 0 -/
  mediaOk : Bool := false
  /-- CLK_STATUS.MOD_UNLOCK_SEEN; 1; 11 R320; reset 0 -/
  modUnlockSeen : Bool := false
  /-- CLK_STATUS.MEDIA_ERR_SEEN; 1; 11 R320; reset 0 -/
  mediaErrSeen : Bool := false
  /-- CLK_MEDIA_RUN; 13; 11 R320; reset 0 -/
  mediaRun : BitVec 13 := 0
  deriving DecidableEq, Repr

/-! ### Twin operation (chapter 12) -/

/-- Twin roles (12 R322). -/
inductive Role where
  | solo | negotiating | lead | standby | mending | orphan
  deriving DecidableEq, Repr

/-- The state of one past graph block that digests, mends and replays need (12 R332, R335): its inputs and
configuration, what pass 1 gave, and the state at its logical end. -/
structure Past where
  blk : Nat
  ins : Map (List Smp)
  cfg : Gen
  pass1 : Map (List Smp)
  src : Map SrcSt
  bus : Map BusSt
  chain2 : Map ChainSt := []
  chain3 : Map ChainSt := []
  fir : Map FirSt := []
  sink : Map SinkSt := []
  /-- chain outputs of pass 3, for a replay of the sinks -/
  outs : Map (List Smp) := []
  /-- last presented samples of the HOLD contexts, and the landing indices of waiting PRESS_ATs -/
  last : Map (List Smp) := []
  waits : List Nat := []
  /-- the fade of the network sinks -/
  fade : Option (Ramp × Nat) := none
  /-- H_48 to H_55, as they stand after pass 2 of the block -/
  rings : List Nat := []
  /-- H_0 to H_63 of the block, once its pass 3 has run -/
  digest : Option (List Dword) := none
  deriving DecidableEq, Repr

/-- The TWIN block (12 R322 to R351). -/
structure Twin where
  /-- TWIN_STATUS.ROLE; 3; 12 R351; reset SOLO -/
  role : Role := .solo
  /-- TWIN_STATUS.UNMATCHED; 1; 12 R351; reset 0 -/
  unmatched : Bool := false
  /-- TWIN_STATUS.PATHS: T, L, D; 3; 12 R351; reset 0 -/
  pathT : Bool := false
  pathL : Bool := false
  pathD : Bool := false
  /-- TWIN_STATUS.COPY_SUSPENDED; 1; 12 R351; reset 0 -/
  suspended : Bool := false
  /-- TWIN_STATUS.PEER_LOST; 1; 12 R351; reset 0 -/
  peerLost : Bool := false
  /-- TWIN_STATUS.VERSION_DIFF; 1; 12 R351; reset 0 -/
  versionDiff : Bool := false
  /-- TWIN_STATUS.MEND_INCOMPLETE; 1; 12 R351; reset 0 -/
  mendIncomplete : Bool := false
  /-- TWIN_STATUS.ROLE_CHANGE; 1; 12 R351; reset 0 -/
  roleChange : Bool := false
  /-- TWIN_STATUS.PEER_SAFE; 1; 12 R351; reset 0 -/
  peerSafe : Bool := false
  /-- TWIN_EPOCH; 32; 12 R351; reset 0 -/
  epoch : Word := 0
  /-- TWIN_PEER: PEG, ROLE, PATHS, LEVEL; 6 + 3 + 3 + 8; 12 R351; reset 0 -/
  peerPeg : Nat := 0
  peerRole : BitVec 3 := 0
  peerPaths : BitVec 3 := 0
  peerLevel : Byte := 0
  /-- the peer's last seen epoch; 32; 12 R345; reset 0 -/
  peerEpoch : Word := 0
  /-- TWIN_LINK; 4; 12 R351; reset 0 -/
  lane0 : Bool := false
  lane1 : Bool := false
  aligned : Bool := false
  frameOk : Bool := false
  /-- TWIN_DIGEST_LO/HI; 64; 12 R351; reset 0 -/
  own : Nat := 0
  /-- TWIN_PEER_DIGEST_LO/HI; 64; 12 R351; reset 0 -/
  peer : Nat := 0
  /-- the latest comparison matched in every region; 1; 12 R348; reset DESIGN CHOICE 1 (log 5) -/
  matched : Bool := true
  /-- TWIN_DIGEST_BLK; 32; 12 R351; reset 0 -/
  digestBlk : Nat := 0
  /-- TWIN_MENDING_LO/HI: region, graph block of the comparison that started its mend; 64; 12 R351; reset none -/
  mending : Map Nat := []
  /-- TWIN_DIVERGENT_LO/HI; 64; 12 R351; reset none -/
  divergent : List Nat := []
  /-- GRAPH_TAG_FAIL_TOTAL at the latest TWIN_HEALTH, which TAGS is told by; 32; 12 R348; reset 0 -/
  failMark : Word := 0
  /-- mends started per region in the present window of R58; -; 12 R338; reset none -/
  started : Map Nat := []
  /-- the window of R58 that `started` counts in; -; 12 R338; reset 0 -/
  startedWin : Nat := 0
  /-- TWIN_MISMATCHES; 32; 12 R351; reset 0 -/
  mismatches : Word := 0
  /-- TWIN_MENDS; 32; 12 R351; reset 0 -/
  mends : Word := 0
  /-- TWIN_FRAMES_MISSED; 32; 12 R351; reset 0 -/
  missed : Word := 0
  /-- TWIN_FRAMES_BAD; 32; 12 R351; reset 0 -/
  bad : Word := 0
  /-- TWIN_FORWARDED; 32; 12 R351; reset 0 -/
  forwarded : Word := 0
  /-- TWIN_HB_AGE.T; 8; 12 R351; reset 0xFF -/
  ageT : Nat := 0xFF
  /-- CORE clock of the latest LINK and DROP heartbeat (TWIN_HB_AGE.L, D); 2 x 8; 12 R351; reset none -/
  lastL : Option Nat := none
  lastD : Option Nat := none
  /-- frames missed in a row, good frames in a row; -; 12 R340; reset 0 -/
  missRun : Nat := 0
  goodRun : Nat := 0
  /-- the latest good frame was for this block, and it; -; 12 R325; reset none -/
  frame : Option TwinFrame := none
  /-- TWIN_HEALTH.CURRENT; 8; 12 R351; reset 0 -/
  health : Nat := 0
  /-- TWIN_HEALTH.SEEN; 8; 12 R351; reset 0 -/
  healthSeen : Nat := 0
  /-- TWIN_HEALTH_BLK; 32; 12 R351; reset 0 -/
  healthBlk : Nat := 0
  /-- TWIN_PEER_HEALTH; 16; 12 R351; reset 0 -/
  peerHealth : BitVec 16 := 0
  /-- TWIN_SHADOW: ENGINE, PASS, FAIL_ENGINE, SKIPPED; 5 + 2 + 5 + 16; 12 R351; reset 0 -/
  shEngine : Nat := 0
  shPass : Nat := 0
  shFail : Nat := 0
  shSkipped : Nat := 0
  /-- position in the shadow rotation, the blocks that its comparison has run without an end, and engines that failed in the
  rotation, with the pairs since; -; 12 R348; reset 0 -/
  shPos : Nat := 0
  shWait : Nat := 0
  shRecent : Map Nat := []
  /-- a role that takes effect at the next tick, with its epoch and whether a full mend follows; -; 12 R343; reset none -/
  next : Option (Role × Word × Bool) := none
  /-- a swap that lands at L; 64; 12 R345; reset none -/
  swapAt : Option Nat := none
  /-- a full mend is due; 1; 12 R337; reset 0 -/
  fullMend : Bool := false
  /-- past graph blocks, newest first, at most 16 (the replay store); -; 12 R335; reset empty -/
  past : List Past := []
  /-- mirror records to send in the next block frame; -; 12 R325; reset none -/
  mirror : List MirrorRec := []
  /-- mirror records that the peer has not acknowledged, oldest first, the number of the first of them, and how many bytes of
  it have left in frames that it did not fit in; -; 12 R325; reset none, 0, 0 -/
  unacked : List MirrorRec := []
  sent : Nat := 0
  part : Nat := 0
  /-- mirror records taken of the peer; -; 12 R325; reset 0 -/
  taken : Nat := 0
  /-- regions the peer asked for: region, graph block captured and the words still to send (none captured yet); -; 12 R335,
  R336; reset none -/
  asked : List (Nat × Option (Nat × List (Nat × Nat))) := []
  /-- captured words to send in the bulk section; -; 12 R335; reset none -/
  bulk : List BulkWord := []
  /-- positions of a ring or filter region received since its mend began, by region; -; 12 R336; reset none -/
  covered : Map (List Nat) := []
  /-- job slot of a TWIN_MEND and its regions; -; 12 R345; reset none -/
  mendJob : Option (Nat × List Nat) := none
  /-- regions that have left MENDING mended since the latest TWIN_MEND, and the block in which one left it last; -; 14 R398;
  reset none, 0 -/
  mended : List Nat := []
  leftBlk : Nat := 0
  /-- regions of a TWIN_MEND whose mend waits for a ring region; -; 12 R335; reset none -/
  deferred : List Nat := []
  /-- the peer's profile as its heartbeats tell it; 2; 12 R323; reset none -/
  peerProfile : Option Profile := none
  /-- a swap under UNMATCHED: the last output block of the duty before it, and whether this unit had that; 64 + 1; 12 R347;
  reset none -/
  dutyTo : Option (Nat × Bool) := none
  /-- captures of the serial and analogue inputs of the past two blocks, by block, for pair timing; -; 12 R327; reset none -/
  caps : Map (Map (List Smp)) := []
  deriving DecidableEq, Repr

/-! ### Start-up, images and pegs (chapters 19 to 21) -/

/-- Start-up stages (19 R491). -/
inductive Stage where
  | rom | load | sram | line | ref | fill | twin | audio | halt
  deriving DecidableEq, Repr

/-- One image slot of the flash (19 R498): whether it still holds what the flash came with, the bytes staged since the
erasure, the header of its image, whether it verified, sectors erased, and the bytes staged when it verified. -/
structure ImgSlot where
  factory : Bool := true
  bytes : List Byte := []
  head : Option ImageHead := none
  verified : Bool := false
  erased : Nat := 0
  expect : Nat := 0
  deriving DecidableEq, Repr

/-- Start-up, identity, flash and package pins (19, 20, 21). -/
structure Boot where
  /-- STARTUP.STAGE; 4; 19 R490; reset ROM -/
  stage : Stage := .rom
  /-- STARTUP.SLOT; 1; 19 R490; reset 0 -/
  slot : Nat := 0
  /-- STARTUP.TRIAL; 1; 19 R490; reset 0 -/
  trial : Bool := false
  /-- STARTUP.FALLBACK; 1; 19 R490; reset 0 -/
  fallback : Bool := false
  /-- STARTUP.REF_WAIT_EXPIRED; 1; 19 R490; reset 0 -/
  refWaitExpired : Bool := false
  /-- STARTUP.HALT_CAUSE; 4; 19 R490; reset 0 -/
  haltCause : Nat := 0
  /-- CORE clock of entry into the stage (STARTUP_MS); 32; 19 R490; reset 0 -/
  stageAt : Nat := 0
  /-- STARTUP_AUDIO_BLK; 32; 19 R490; reset 0 -/
  audioBlk : Nat := 0
  /-- stage TWIN has ended: audio is enabled at the next tick; 1; 19 R496; reset 0 -/
  audioDue : Bool := false
  /-- peg; 6; 19 R487; reset 0 -/
  peg : BitVec 6 := 0
  /-- a valid token was received (PEG_REPORT w0 bit 6); 1; 19 R487; reset 0 -/
  tokenIn : Bool := false
  /-- a token was sent; CORE clock of the latest; -; 19 R487; reset none -/
  tokenOut : Option Nat := none
  /-- the NOTE 0x0013 and the FAULT 0x0012 have been raised since reset; 2; 19 R488, R489; reset 0 -/
  differs : Bool := false
  conflict : Bool := false
  /-- base of the unit's station addresses, from OTP; 48; 07 R186; reset DESIGN CHOICE 0 (log 5) -/
  unitBase : Nat := 0
  /-- OTP bit that disables service mode; 1; 16 R436; reset DESIGN CHOICE 0 (log 5) -/
  serviceDisable : Bool := false
  /-- subsystem vendor and subsystem ID, from OTP; 32; 15 R402; reset 0 (unprogrammed) -/
  subsystem : Word := 0
  /-- management key, from OTP; 256; 06 R178; reset DESIGN CHOICE empty (log 5) -/
  mgmtKey : List Byte := []
  /-- revoked key slots (OTP); 4; 19 R504; reset 0 -/
  revoked : BitVec 4 := 0
  /-- copies 0 and 1 of the boot record in flash, as words; 2 x 7 x 32; 19 R498, R499; reset none, none (they come with
  ROM_BOOT, log 26) -/
  records : List (List Word) := [[], []]
  /-- image slots 0 and 1 of the flash; 2 x 8 MiB; 19 R498; reset as delivered -/
  slots : List ImgSlot := [{}, {}]
  /-- codes of stage ROM that the CMD core raises once it runs; -; 19 R508; reset none -/
  notes : List (Nat × Cls) := []
  /-- a reset is due once the reply has left (IMAGE_ACTIVATE with NOW); 1; 14 R399; reset 0 -/
  resetDue : Bool := false
  /-- temperature NOTE 0x0020 or FAULT 0x0021 stands; 2; 20 R524; reset 0 -/
  hot : Nat := 0
  /-- a brown-out or an over-temperature holds the part in reset; 1; 20 R515, R524; reset 0 -/
  powerHeld : Bool := false
  /-- level of the RESET_N pin; 1; 21 R532; reset 1 -/
  resetN : Bool := true
  /-- TEST_EN is high; 1; 21 R532; reset 0 -/
  testEn : Bool := false
  /-- EXTEST is the JTAG instruction in force; 1; 21 R532; reset 0 -/
  extest : Bool := false
  /-- boundary register as last updated, and the pins it drives under EXTEST; -; 21 R532; reset empty -/
  boundary : List Bool := []
  deriving DecidableEq, Repr

/-! ### The whole part -/

/-- What the ZK9 sent or drove because of the latest command: replies, frames, bus completions, interrupt messages,
SPI bytes, tokens. Outputs of earlier commands are not kept. -/
inductive Out where
  /-- a command reply on its transport (13 R360) -/
  | reply (via : Transport) (words : List Word)
  /-- a PCIe completion: the bytes read, or none for Completer Abort (15 R404) -/
  | completion (data : Option (List Byte))
  /-- an Unsupported Request completion (16 R439) -/
  | unsupported
  /-- a posted write taken, or discarded with an error response (15 R404) -/
  | posted (ok : Bool)
  /-- a value returned on the bus to a master inside the part -/
  | busRead (data : Option Word)
  /-- a bus-fault trap to a core (16 R437) -/
  | trap (master : Byte)
  /-- an MSI-X message: vector, address, data (15 R415) -/
  | msix (v : Nat) (addr : Nat) (data : Word)
  /-- bytes shifted out on SPI_MISO, the status byte first (15 R410) -/
  | spi (bytes : List Byte)
  /-- a frame sent by a MAC, without FCS: 0 LINKA, 1 LINKB, 2 DROP (07 R194) -/
  | frame (mac : Nat) (bytes : List Byte)
  /-- a block frame on the twin link (12 R325) -/
  | twin (f : TwinFrame)
  /-- an enumeration token on PEG_OUT (19 R486) -/
  | token (first second : Byte)
  /-- a frame of a serial port (08 R227 to R230): port, frame index, its bit clocks -/
  | sap (port frame : Nat) (bits : List SapBit)
  /-- the pins of a serial port whose clocks stand (08 R234, R239): the levels of BCLK and FS, and DOUT -/
  | sapIdle (port : Nat) (bclk fs : Bool) (dout : Option Bool)
  /-- bits shifted out on TDO (21 R532) -/
  | tdo (bits : List Bool)
  deriving DecidableEq, Repr

/-- The ZK9 but for its hampers. -/
structure Chip where
  /-- outputs of the latest command; -; 13 R356; reset none -/
  out : List Out := []
  /-- RESET_N is low; 1; 20 R516; reset 0 -/
  held : Bool := false
  /-- CORE clocks since RESET_N was released; -; 01 R20; reset 0 -/
  clk : Nat := 0
  /-- the model's own counter of free values taken; -; log 4; reset DESIGN CHOICE 0 (log 4) -/
  fresh : Nat := 0
  /-- audio has been enabled since reset (FAULT_N, R481); 1; 18 R481; reset 0 -/
  audioOnce : Bool := false
  sys : Sys := {}
  err : Err := {}
  mem : MemUnit := {}
  bus : BusUnit := {}
  host : HostUnit := {}
  mbx : Mbx := {}
  cmd : Cmd := {}
  graph : Graph := {}
  macs : List Mac := [{}, {}, {}]
  drop : DropUnit := {}
  flow : FlowUnit := {}
  ref : Ref := {}
  ptp : Ptp := {}
  clock : Clk := {}
  sap : Sap := {}
  ain : Ain := {}
  pow : Pow := {}
  twin : Twin := {}
  boot : Boot := {}
  deriving DecidableEq, Repr

/-- A fault: none of the commands ends in one (every effect the spec gives is taken). -/
inductive Fault where
  deriving DecidableEq, Repr

/-- A refusal. -/
inductive Refusal where
  /-- Raised by exec for a command that has no meaning yet; safe, since nothing is claimed of it. -/
  | notModelled (mnemonic : String)
  deriving DecidableEq, Repr

/-- The whole state: the commands that wait, first in, first out; the hampers; the rest of the part. -/
structure State where
  /-- commands waiting, front first (the model's own); -; log 1; reset DESIGN CHOICE empty (log 1) -/
  pending : List Instr := []
  /-- the hampers; 16,384 buffers; 07 R208; reset all FREE -/
  ham : Hamper := {}
  /-- the rest of the part -/
  chip : Chip := {}
  deriving DecidableEq, Repr

/-- The part right after RESET_N is released (00 R7): every field at its reset value. -/
def State.reset : State := {}

end Sys2Proof.Machine
end

