-- ==== Sys2Proof/Machine/Ops.lean ====
section
/-! DEFINITION. The named operations every command shares: items in force, time, free values, outputs, raising errors
(18 R461 to R473), the fault output (18 R481), interrupts (15 R413 to R416), and running a command on the part. -/

namespace Sys2Proof.Machine

/-- Update of one unit of the part. -/
def Chip.onErr (f : Err → Err) (c : Chip) : Chip := { c with err := f c.err }
def Chip.onMem (f : MemUnit → MemUnit) (c : Chip) : Chip := { c with mem := f c.mem }
def Chip.onBus (f : BusUnit → BusUnit) (c : Chip) : Chip := { c with bus := f c.bus }
def Chip.onHost (f : HostUnit → HostUnit) (c : Chip) : Chip := { c with host := f c.host }
def Chip.onMbx (f : Mbx → Mbx) (c : Chip) : Chip := { c with mbx := f c.mbx }
def Chip.onCmd (f : Cmd → Cmd) (c : Chip) : Chip := { c with cmd := f c.cmd }
def Chip.onSys (f : Sys → Sys) (c : Chip) : Chip := { c with sys := f c.sys }
def Chip.onGraph (f : Graph → Graph) (c : Chip) : Chip := { c with graph := f c.graph }
def Chip.onDrop (f : DropUnit → DropUnit) (c : Chip) : Chip := { c with drop := f c.drop }
def Chip.onFlow (f : FlowUnit → FlowUnit) (c : Chip) : Chip := { c with flow := f c.flow }
def Chip.onRef (f : Ref → Ref) (c : Chip) : Chip := { c with ref := f c.ref }
def Chip.onPtp (f : Ptp → Ptp) (c : Chip) : Chip := { c with ptp := f c.ptp }
def Chip.onSap (f : Sap → Sap) (c : Chip) : Chip := { c with sap := f c.sap }
def Chip.onAin (f : Ain → Ain) (c : Chip) : Chip := { c with ain := f c.ain }
def Chip.onPow (f : Pow → Pow) (c : Chip) : Chip := { c with pow := f c.pow }
def Chip.onTwin (f : Twin → Twin) (c : Chip) : Chip := { c with twin := f c.twin }
def Chip.onBoot (f : Boot → Boot) (c : Chip) : Chip := { c with boot := f c.boot }
def Chip.onMac (m : Nat) (f : Mac → Mac) (c : Chip) : Chip := { c with macs := lmod c.macs m f }

/-- MAC m of the part. -/
def Chip.mac (c : Chip) (m : Nat) : Mac := c.macs.getD m {}

/-- The pressed value of an item for the current graph block, for the block before, and for the one before that. -/
def Chip.it (c : Chip) (id : Nat) : Int := itemIn c.sys.now.items id
def Chip.itPrev (c : Chip) (id : Nat) : Int := itemIn c.sys.prev.items id
def Chip.itPrev2 (c : Chip) (id : Nat) : Int := itemIn c.sys.prev2.items id
/-- As a natural number, and as a flag. -/
def Chip.itN (c : Chip) (id : Nat) : Nat := (c.it id).toNat
def Chip.itB (c : Chip) (id : Nat) : Bool := c.it id ≠ 0

/-- The active profile, its block length and its blocks per second. -/
def Chip.prof (c : Chip) : Profile := c.sys.profile
def Chip.B (c : Chip) : Nat := blkLen c.sys.profile
def Chip.W (c : Chip) : Nat := bps c.sys.profile

/-- The block period in CORE clocks, rounded down. -/
def Chip.period (c : Chip) : Nat := period3 c.sys.profile / 3

/-- CORE clocks per microsecond, millisecond, second. -/
def usClk : Nat := 800
def msClk : Nat := 800000
def secClk : Nat := 800000000

/-- The PTP counter holds 48-bit seconds: one turn of it, in 2^-32 ns (11 R310). -/
def timeTurn : Nat := 2 ^ 48 * 10 ^ 9 * 2 ^ 32

/-- Time passes to CORE clock `t`: the PTP counter adds PTP_INCR at every clock (11 R310). -/
def Chip.advance (t : Nat) (c : Chip) : Chip :=
  if t ≤ c.clk then c
  else { c with clk := t, ptp := { c.ptp with time := (c.ptp.time + (t - c.clk) * c.ptp.incr) % timeTurn } }

/-- Media time in whole nanoseconds (11 R310). -/
def Chip.nowNs (c : Chip) : Nat := c.ptp.time / 2 ^ 32

/-- More than 1.5 block periods have passed since a CORE clock (01 R22, 18 R474): in profile F, more than 100,000 clocks. -/
def Chip.overdue (c : Chip) (since : Nat) : Bool := period3 c.sys.profile + 2 * since < 2 * c.clk

/-- The block index of a media time in ns (01 R19). For a media time before the epoch, where the rule would give a negative
index that no register holds, the model takes index 0 (log 74). -/
def blockAt (p : Profile) (epoch ns : Nat) : Nat := (ns - epoch * 10 ^ 9) * fsOf p / (blkLen p * 10 ^ 9)

/-- The media epoch in force, in seconds (01 R18). -/
def Chip.epoch (c : Chip) : Nat := c.itN (item 0x01 0 0x001)

/-- Takes a fresh free value; the counter moves on. -/
def Chip.tick (c : Chip) : Chip := { c with fresh := c.fresh + 1 }

/-- Adds an output. -/
def Chip.emit (o : Out) (c : Chip) : Chip := { c with out := c.out ++ [o] }

/-! Errors (18) -/

/-- Raises an error of the present CORE clock (18 R461): code, class, DETAIL, and the block index the rule names, or
the current graph block (R464). -/
def Chip.raise (code : Nat) (cls : Cls) (detail : Nat := 0) (blk : Option Nat := none) (c : Chip) : Chip :=
  { c with err := { c.err with raising := c.err.raising ++
      [{ code := code, cls := cls, detail := detail % 2 ^ 32, blk := blk.getD c.sys.blk }] } }

/-- Raises an error only at its first event in the present window of R58, for the element `key`. -/
def Chip.raiseFirst (code : Nat) (cls : Cls) (key : Nat := 0) (detail : Nat := 0) (c : Chip) : Chip :=
  if (code, key) ∈ c.err.seen then c
  else ({ c with err := { c.err with seen := (code, key) :: c.err.seen } }).raise code cls detail

/-- The ledgers whose FATAL has a recovery (18 R471). -/
def ledgerCode (code : Nat) : Bool := code = 0x0630 || code = 0x0A30 || code = 0x1030 || code = 0x1040

/-- err items in force. -/
def Chip.errItem (c : Chip) (f : Nat) : Nat := c.itN (item 0x0F 0 f)

/-- FATAL handling starts, ends FAILED, or does not (18 R471, R472). -/
def Chip.fatal (r : Rec) (c : Chip) : Chip :=
  c.onErr fun e =>
    let e := { e with fatalSeen := true }
    if e.safe then if e.exiting.isSome then { e with abandon := true } else e
    else if e.entry.isSome then e
    else match e.handling with
      | some _ => { e with handling := none, entry := some (r.code, 2) }
      | none =>
        if ledgerCode r.code && c.errItem 2 = 1 then { e with handling := some (r.code, r.detail, r.blk) }
        else { e with entry := some (r.code, 1) }

/-- A record that finds the queue full (18 R467). -/
def Chip.lose (r : Rec) (c : Chip) : Chip :=
  let mode := c.errItem 3
  let holds := (r.cls = .fault ∧ mode = 2) ∨ (r.cls = .fatal ∧ 1 ≤ mode)
  c.onErr fun e => { e with
    lostCount := satInc 0xFFFF e.lostCount, lostLast := r.code, overflowSeen := true,
    lostHold := e.lostHold || decide holds,
    first := if r.cls = .note then e.first else e.first <|> some r }

/-- Counts a raise in its class (18 R483). -/
def Err.count (e : Err) (cls : Cls) : Err :=
  match cls with
  | .note => { e with notes := e.notes + 1 }
  | .fault => { e with faults := e.faults + 1 }
  | .fatal => { e with fatals := e.fatals + 1 }

/-- A NOTE or FAULT whose code and DETAIL a queued record has (18 R465). -/
def repeats (q : List Rec) (r : Rec) : Bool :=
  r.cls ≠ .fatal && q.any fun x => x.code = r.code && x.detail = r.detail

/-- A repeat raises the REPEAT of the queued record and does nothing else (18 R465). -/
def Err.repeated (e : Err) (r : Rec) : Err :=
  { e with queue := e.queue.map fun x =>
      if x.code = r.code && x.detail = r.detail then { x with repeats := satInc 255 x.repeats } else x }

/-- The NOTE 0x0301 at the first loss of a window: the queue is full, so it repeats a queued one or is itself lost (18
R465, R467). -/
def Chip.noteLoss (r : Rec) (c : Chip) : Chip :=
  if (0x0301, 0) ∈ c.err.seen then c
  else
    let n := { r with code := 0x0301, cls := .note, detail := 0, blk := c.sys.blk }
    let c := c.onErr fun e => { e with seen := (0x0301, 0) :: e.seen, notes := e.notes + 1, nextSeq := e.nextSeq + 1 }
    if repeats c.err.queue n then c.onErr fun e => e.repeated n
    else if c.errItem 5 = 0 then c
    else c.lose n

/-- Enters one raise into the records (18 R463 to R468, R472). -/
def Chip.enter1 (r0 : Rec) (c : Chip) : Chip :=
  let e := c.err
  let r := { r0 with safe := e.safe, during := !e.safe && (e.handling.isSome || e.entry.isSome), seq := e.nextSeq }
  let c := c.onErr fun e => { e.count r.cls with nextSeq := e.nextSeq + 1 }
  let c :=
    if repeats e.queue r then c.onErr fun e => e.repeated r
    else if r.cls = .note && c.errItem 5 = 0 then c
    else if e.queue.length < 16 then
      let c := c.onErr fun e => { e with
        queue := e.queue ++ [r], first := if r.cls = .note then e.first else e.first <|> some r }
      if r.cls = .note then c else c.onHost fun h => { h with pulses := 3 :: h.pulses }
    else (c.lose r).noteLoss r
  if r.cls = .fatal then c.fatal r else c

/-- Inserts a raise in ascending order of code, after its equals (18 R466). -/
def insertRec (r : Rec) : List Rec → List Rec
  | [] => [r]
  | x :: xs => if r.code < x.code then r :: x :: xs else x :: insertRec r xs

/-- Enters the raises of the CORE clock, in ascending order of source block, then of cause (18 R466). -/
def Chip.enterAll (c : Chip) : Chip :=
  let rs := c.err.raising.foldl (fun a r => insertRec r a) []
  rs.foldl (fun c r => c.enter1 r) (c.onErr fun e => { e with raising := [] })

/-- FAULT_N is driven low (18 R481). -/
def Chip.faultN (c : Chip) : Bool :=
  let e := c.err
  let all := e.queue ++ e.first.toList
  let mode := c.errItem 3
  !c.audioOnce || e.safe || e.lostHold ||
    (1 ≤ mode && all.any fun r => r.cls = .fatal) || (mode = 2 && all.any fun r => r.cls = .fault)

/-! Interrupts (15 R413 to R416) -/

/-- A receiver's doorbells call it: one is set and enabled. It interrupts the CMD core, the SUP core and the engines, and
stands behind vectors 2 and 28 for the hosts (15 R421). -/
def Chip.bellIrq (i : Nat) (c : Chip) : Bool := c.mbx.bells.getD i 0 &&& c.mbx.masks.getD i 0 ≠ 0

/-- RAW of the level causes now (15 R414). -/
def Chip.rawLevel (c : Chip) (v : Nat) : Bool :=
  match v with
  | 0 => c.host.rplProd ≠ c.host.rplCons
  | 2 => c.bellIrq 26
  | 4 => c.faultN
  | 6 => c.ain.event ≠ 0
  | 7 => c.pow.trip ≠ 0
  | 8 => c.ref.stateChange
  | 9 => c.twin.roleChange
  | 10 => (c.mac 0).change || (c.mac 1).change
  | 28 => c.bellIrq 27
  | _ => false

/-- HOST_IRQ_RAW: the levels (15 R424). Its reset value there is 0, while vector 4 is FAULT_N asserted, which 18 R481 drives
from reset: the spec conflicts with itself, and the model lets bit 4 read 1 from the release on (log 87). -/
def Chip.rawWord (c : Chip) : Word := BitVec.ofNat 32 (packBits 32 c.rawLevel)

/-- Raises a pulse cause. -/
def Chip.pulse (v : Fin 32) (c : Chip) : Chip := c.onHost fun h => { h with pulses := v :: h.pulses }

/-- The vector is masked, alone or with the function (15 R415). -/
def HostUnit.masked (h : HostUnit) (v : Nat) : Bool := h.funcMask || ((h.msix.getD v []).getD 3 1).getLsbD 0

/-- The MSI-X message of a vector. -/
def HostUnit.message (h : HostUnit) (v : Nat) : Out :=
  let e := h.msix.getD v []
  .msix v (join64 (e.getD 0 0) (e.getD 1 0)) (e.getD 2 0)

/-- Sends the message of vector v when its PEND is set, none was sent for it, and nothing masks it (15 R415). While XQ_18 is
source silent no message crosses: what is due goes out once beats resume (01 R14, log 67). -/
def Chip.deliver (c : Chip) (v : Nat) : Chip :=
  let h := c.host
  if h.pend.getLsbD v && !(h.msixSent.1 ||| h.msixSent.2).getLsbD v && h.msixEn && h.bme && !h.d3hot && !h.masked v &&
      !c.sys.xqSilent.getLsbD 18 then
    (c.onHost fun h => { h with msixSent := (h.msixSent.1 ||| BitVec.ofNat 32 (2 ^ v), h.msixSent.2) }).emit (h.message v)
  else c

/-- Which messages of the present PEND bits are settled, when `rising` rise: none of the rising ones has been sent; one that
rises unmasked while MSI-X or bus mastering is off gets its message only when it is unmasked anew (15 R415). -/
def HostUnit.msixRise (rising : Word) (h : HostUnit) : Word × Word :=
  let off := if h.msixEn && h.bme then 0 else rising
  let unmasked := BitVec.ofNat 32 (packBits 32 fun v => !h.masked v)
  (h.msixSent.1 &&& ~~~rising, ((h.msixSent.2 &&& ~~~rising) ||| off) &&& unmasked)

/-- Sets the PEND bits of the causes that are 1, sends what is due, and ends the pulses (15 R413, R415). -/
def Chip.settleIrq (c : Chip) : Chip :=
  let raw := c.rawWord ||| BitVec.ofNat 32 (packBits 32 fun v => c.host.pulses.any fun p => p.val = v)
  let rising := raw &&& ~~~c.host.pend
  let c := c.onHost fun h => { h with pend := h.pend ||| raw, pulses := [], msixSent := h.msixRise rising }
  (List.range 32).foldl Chip.deliver c

/-- SPI_IRQ_N is driven low (15 R416). -/
def Chip.spiIrq (c : Chip) : Bool := c.host.pend &&& c.host.spiIrqEn ≠ 0

/-- The records and the interrupts of what has happened. -/
def Chip.settle (c : Chip) : Chip := c.enterAll.settleIrq

/-! Running a command -/

/-- The outputs of the latest command are those of this one. -/
def Chip.begin (c : Chip) : Chip := { c with out := [] }

/-- Runs a command on the part and settles it. While RESET_N is low nothing acts. -/
def act (f : Chip → Chip) (s : State) : Host.Outcome State Fault Refusal :=
  .next { s with chip := if s.chip.held then s.chip.begin else (f s.chip.begin).settle }

/-- Runs a command that also moves hamper buffers. -/
def actHam (f : Hamper × Chip → Hamper × Chip) (s : State) : Host.Outcome State Fault Refusal :=
  if s.chip.held then .next { s with chip := s.chip.begin }
  else
    let r := f (s.ham, s.chip.begin)
    .next { s with ham := r.1, chip := r.2.settle }

/-- Runs a command that acts also while RESET_N is low. -/
def actRaw (f : State → State) (s : State) : Host.Outcome State Fault Refusal := .next (f s)

end Sys2Proof.Machine
end

