-- ==== Sys2Proof/Machine/Memory.lean ====
section
/-! DEFINITION. The memories (16 R432, 17 R445 to R455): bytes, ECC words, darning, uncorrectable reads by requester,
partial writes, and the event log of the MEM block. -/

namespace Sys2Proof.Machine

/-- Bits [63:40] of an entry of the delay store window: they read as 0 (02 R40). -/
def noBits (a : Nat) : Bool := 0x30000000 ≤ a && a < 0x34000000 && 5 ≤ a % 8

/-- Whether a byte reads as 0 while nothing is written to it: bits that the delay store does not have, and the areas that
were written with zeros (17 R448). -/
def Memory.zeroedAt (m : Memory) (a : Nat) : Bool := noBits a || m.zeroed.any fun r => r.1 ≤ a && a < r.2

/-- The byte at an address; none where nothing was ever written (17 R447). -/
def Memory.get? (m : Memory) (a : Nat) : Option Byte :=
  match mget? m.cells a with
  | some b => some b
  | none => if m.zeroedAt a then some 0 else none

/-- Writes one byte, keeping the canonical form. -/
def Memory.put (m : Memory) (a : Nat) (b : Byte) : Memory :=
  if b = 0 && m.zeroedAt a then { m with cells := mdel m.cells a } else { m with cells := mset m.cells a b }

/-- Writes bytes from an address on. -/
def Memory.puts (m : Memory) : Nat → List Byte → Memory
  | _, [] => m
  | a, b :: bs => (m.put a b).puts (a + 1) bs

/-- Writes a whole area with zeros. -/
def Memory.zero (m : Memory) (lo hi : Nat) : Memory :=
  { m with
    cells := m.cells.filter fun c => c.1 < lo || hi ≤ c.1
    zeroed := if m.zeroed.any (fun r => r.1 ≤ lo && hi ≤ r.2) then m.zeroed else (lo, hi) :: m.zeroed
    upset := m.upset.filter fun c => c.1 < lo || hi ≤ c.1 }

/-- Writes a whole memory from an image; `n` is the number of the load. -/
def Memory.load (m : Memory) (n lo hi : Nat) : Memory :=
  { m with
    cells := m.cells.filter fun c => c.1 < lo || hi ≤ c.1
    loaded := (lo, hi, n) :: m.loaded.filter fun r => r.1 < lo || hi ≤ r.1
    tags := m.tags.filter fun c => c.1 < lo || hi ≤ c.1
    upset := m.upset.filter fun c => c.1 < lo || hi ≤ c.1 }

/-- The load that wrote the memory of an address. -/
def Memory.loadOf (m : Memory) (a : Nat) : Option Nat := (m.loaded.find? fun r => r.1 ≤ a && a < r.2.1).map fun r => r.2.2

/-- The canonical form: addresses strictly rising, and no entry equal to what the unlisted address reads as.
Outside the zeroed areas that is a free value, so every byte written there is listed. -/
def Memory.wf (m : Memory) : Bool :=
  decide (m.cells.Pairwise fun a b => a.1 < b.1) && m.cells.all fun c => !(c.2 = 0 && m.zeroedAt c.1)

/-- The byte a read finds: an unwritten one, and one of an image, is a free value of its address. -/
def Memory.byte (m : Memory) (a : Nat) : Byte :=
  (m.get? a).getD (match m.loadOf a with | some n => Config.imageByte n a | none => Config.unwrittenByte a)

/-- `n` bytes from an address. -/
def Memory.bytes (m : Memory) (a n : Nat) : List Byte := (List.range n).map fun i => m.byte (a + i)

/-! The address map (16 R432) -/

/-- Targets with memory: index, base, size in bytes, bytes of address space per ECC word (17 R445). -/
def targetOf (a : Nat) : Option (Nat × Nat × Nat × Nat) :=
  if a < 0x40000 then some (0, 0, 0x40000, 8)
  else if 0x10000000 ≤ a ∧ a < 0x10200000 then some (1, 0x10000000, 0x200000, 8)
  else if 0x11000000 ≤ a ∧ a < 0x11080000 then some (2, 0x11000000, 0x80000, 8)
  else if 0x20000000 ≤ a ∧ a < 0x20600000 then
    let n := (a - 0x20000000) / 0x40000
    some (3 + n, 0x20000000 + n * 0x40000, 0x40000, 4)
  else if 0x30000000 ≤ a ∧ a < 0x34000000 then some (27, 0x30000000, 0x4000000, 16)
  else if 0x40000000 ≤ a ∧ a < 0x40800000 then some (28, 0x40000000, 0x800000, 8)
  else none

/-- Target index of any address: 29 is the CSR space of 18 blocks, 30 the default target. -/
def targetIndex (a : Nat) : Nat :=
  match targetOf a with
  | some t => t.1
  | none => if 0x50000000 ≤ a ∧ a < 0x50120000 then 29 else 30

/-- The engines that are powered now: a change goes in steps of four engines, 100 us apart (20 R517), in ascending order (log
82). -/
def Chip.powered (c : Chip) : BitVec 24 :=
  let s := c.sys
  let steps := (indices 24 fun n => s.engPwr.getLsbD n != s.engWas.getLsbD n).zipIdx
  steps.foldl (fun b q => if s.engAt + q.2 / 4 * (100 * usClk) ≤ c.clk then b ^^^ BitVec.ofNat 24 (2 ^ q.1) else b) s.engWas

/-- Bytes per ECC word of a target, and the base of the ECC word of an address. -/
def eccSize (target : Nat) : Nat := if target = 27 then 16 else if 3 ≤ target ∧ target < 27 then 4 else 8
def eccBase (a : Nat) : Nat := a - a % eccSize (targetIndex a)

/-- State of an ECC word: no error, correctable, uncorrectable. -/
inductive Ecc where
  | good | ce | ue
  deriving DecidableEq, Repr

/-- The state of the ECC word at base `w`; a word never written is in a free state (17 R447). -/
def Memory.ecc (m : Memory) (w : Nat) : Ecc :=
  match mget? m.upset w with
  | some true => .ue
  | some false => .ce
  | none =>
    match m.get? w with
    | some _ => .good
    | none => if (m.loadOf w).isSome then .good else match Config.unwrittenOutcome w with
      | 0 => .good | 1 => .ce | 2 => .ue

/-! The event log (17 R451, R459) -/

/-- An information word of the MEM block; the syndrome is a free value. -/
def memInfo (master target kind syn : Nat) : Word := pack [(0, 8, master), (8, 5, target), (13, 3, kind), (16, 8, syn)]

/-- Logs an event (17 R459): kind, requester, address, and the code of the record it raises. -/
def Chip.memEvent (kind master a : Nat) (code : Option Nat) (c : Chip) : Chip :=
  let info := memInfo master (targetIndex a) kind (Config.syndrome c.fresh).toNat
  let hold := kind ≠ 1 && field c.mem.firstInfo.toNat 13 3 = 0
  let blk := c.sys.blk
  (c.onMem fun m =>
    let m := { m with lastAddr := lo32 a, lastInfo := info }
    if hold then { m with firstAddr := lo32 a, firstInfo := info, firstRec := code.map fun k => (k, blk) } else m).tick

/-- A darn (17 R451, R452): the corrected word is written back, counted and logged. -/
def Chip.darn (master w : Nat) (c : Chip) : Chip :=
  let again := c.mem.darns.contains w
  let c := (c.onMem fun m => { m with
    bytes := { (m.bytes.puts w (m.bytes.bytes w (eccSize (targetIndex w)))) with upset := mdel m.bytes.upset w }
    ce := m.ce + 1, ceSeen := true, repeatSeen := m.repeatSeen || again,
    darns := (w :: m.darns).take 8 }).memEvent 1 master w none
  let c := c.raiseFirst 0x0201 .note 0 w
  if again then c.raiseFirst 0x0202 .note 0 w else c

/-- An uncorrectable read (17 R453): counted, logged, and the given code raised at its first in a window. -/
def Chip.ueRead (master a code : Nat) (cls : Cls) (key : Nat) (c : Chip) : Chip :=
  ((c.onMem fun m => { m with ue := m.ue + 1, ueSeen := true }).memEvent 2 master a (some code)).raiseFirst code cls key a

/-- The bases of the ECC words that `n` bytes at `a` touch. -/
def eccWords (a n : Nat) : List Nat :=
  let s := eccSize (targetIndex a)
  (List.range ((a % s + n + s - 1) / s)).map fun i => eccBase a + i * s

/-- Corrects the correctable words of a range before a read or a merge. -/
def Chip.correct (master : Nat) (ws : List Nat) (c : Chip) : Chip :=
  ws.foldl (fun c w => if c.mem.bytes.ecc w = .ce then c.darn master w else c) c

/-- The first uncorrectable word of a range. -/
def Chip.badWord (c : Chip) (ws : List Nat) : Option Nat := ws.find? fun w => c.mem.bytes.ecc w = .ue

/-- Marks the memory errors that strike before an access (17 R445). -/
def Chip.strike (us : List Upset) (c : Chip) : Chip :=
  us.foldl (fun c u => match targetOf u.addr with
    | some _ => c.onMem fun m => { m with bytes := { m.bytes with
        upset := mset m.bytes.upset (eccBase u.addr) (u.uncorrectable || mget m.bytes.upset (eccBase u.addr) false) } }
    | none => c) c

/-- Writes bytes that cover whole ECC words or words without error; check bits are regenerated. -/
def Chip.store (a : Nat) (bs : List Byte) (c : Chip) : Chip :=
  let ws := eccWords a bs.length
  c.onMem fun m => { m with bytes :=
    { (m.bytes.puts a bs) with
      upset := m.bytes.upset.filter fun u => u.1 ∉ ws, tags := m.bytes.tags.filter fun t => t.1 ∉ ws } }

/-- The bytes of one ECC word after a part of it is written over the word as read. -/
def Chip.merge (w a : Nat) (bs : List Byte) (c : Chip) : List Byte :=
  let old := c.mem.bytes.bytes w (eccSize (targetIndex w))
  old.mapIdx fun i b => if a ≤ w + i ∧ w + i < a + bs.length then bs.getD (w + i - a) 0 else b

/-- A host write of the enabled bytes (17 R455): an uncorrectable word that it covers only in part discards its part. The flag
tells whether every part was written. -/
def Chip.hostStorePart (master a : Nat) (bs : List (Option Byte)) (c : Chip) : Bool × Chip :=
  (eccWords a bs.length).foldl (fun (r : Bool × Chip) w =>
    let part := (List.range (eccSize (targetIndex w))).map fun i => if a ≤ w + i then bs.getD (w + i - a) none else none
    let c := r.2
    if part.all Option.isSome then (r.1, c.store w (part.filterMap id))
    else if part.all Option.isNone then r
    else
      let c := c.correct master [w]
      match c.mem.bytes.ecc w with
      | .ue => (false, (c.onMem fun m => { m with ueSeen := true }).memEvent 4 master (max a w) none)
      | _ => (r.1, c.store w (part.mapIdx fun i b => b.getD (c.mem.bytes.byte (w + i))))) (true, c)
def Chip.hostStore (master a : Nat) (bs : List Byte) (c : Chip) : Bool × Chip := c.hostStorePart master a (bs.map some)

/-- Reads a sample of the delay store as an engine of pass 2 does (17 R453): an uncorrectable word reads as poison and is
written back as poison. -/
def Chip.readSample (engine s : Nat) (c : Chip) : Smp × Chip :=
  let a := 0x30000000 + 8 * s
  let w := eccBase a
  match c.mem.bytes.ecc w with
  | .ue =>
    let c := c.ueRead engine w 0x0210 .fault 0
    let c := c.store w ((List.range 16).map fun i => if i % 8 = 4 then 0xFF else 0)
    (poisonRead, c.onMem fun m => { m with poison := m.poison + 1 })
  | .ce => let c := c.darn engine w; (sampleAt c a, c)
  | .good => (sampleAt c a, c)
where
  poisonRead : Smp := { v := 0, t := 255 }
  sampleAt (c : Chip) (a : Nat) : Smp :=
    { v := signed 32 (ofLe (c.mem.bytes.bytes a 4)), t := (c.mem.bytes.byte (a + 4)).toNat }

/-- The 8 bytes of a tagged sample in the delay store, or in shared SRAM (02 R40, 17 R446). -/
def sampleBytes (x : Smp) : List Byte := leBytes 4 (pattern 32 x.v) ++ [BitVec.ofNat 8 x.t, 0, 0, 0]

/-- A tagged sample in an engine memory word: the value in its data bits, the tag in its lane (17 R446). -/
def Chip.storeEngine (a : Nat) (x : Smp) (c : Chip) : Chip :=
  (c.store a (leBytes 4 (pattern 32 x.v))).onMem fun m => { m with bytes := { m.bytes with
    tags := if x.t = 0 then mdel m.bytes.tags a else mset m.bytes.tags a x.t } }

/-- Writes two samples 2w and 2w + 1 of the delay store in one whole-word write (04 R109). -/
def Chip.writePair (s : Nat) (x y : Smp) (c : Chip) : Chip := c.store (0x30000000 + 8 * s) (sampleBytes x ++ sampleBytes y)

/-! DMA channels (17 R454): 0 LINKA, 1 LINKB, 2 DROP, 3 TWIN DMA -/

def Chip.dmaHalted (c : Chip) (ch : Nat) : Bool := c.mem.dmaHalt.getLsbD ch

/-- Halts a DMA channel at the failing word. -/
def Chip.haltDma (ch a : Nat) (c : Chip) : Chip :=
  let c := c.ueRead (0x30 + ch) a 0x0212 .fault ch
  c.onMem fun m => { m with
    dmaHalt := m.dmaHalt ||| BitVec.ofNat 4 (2 ^ ch), dmaHalts := m.dmaHalts + 1,
    dmaAddr := m.dmaAddr.set ch (lo32 a) }

/-- A DMA read: the bytes, or a halt. -/
def Chip.dmaRead (ch a n : Nat) (c : Chip) : Option (List Byte) × Chip :=
  let ws := eccWords a n
  let c := c.correct (0x30 + ch) ws
  match c.badWord ws with
  | some w => (none, c.haltDma ch w)
  | none => (some (c.mem.bytes.bytes a n), c)

/-! Bus masters and their error responses (16 R427, R437) -/

def isCore (m : Byte) : Bool := m = 0x01 || m = 0x02
def isEngine (m : Byte) : Bool := 0x10 ≤ m.toNat && m.toNat < 0x28
def isDma (m : Byte) : Bool := 0x30 ≤ m.toNat && m.toNat < 0x34
def isHost (m : Byte) : Bool := m = 0x40 || m = 0x41

/-- What a refused read returns on the bus (16 R437): a core traps instead, and PCIe sees Completer Abort. -/
def refusedRead (master : Byte) : Option Word :=
  if isEngine master then some 0 else if master = 0x41 then some 0xFFFFFFFF else none

/-- What an error response does to the requester (16 R437); PCIe and SPI see it in their completions. A DMA channel halts as
it does on an uncorrectable word. -/
def Chip.errorResponse (master : Byte) (addr : Nat) (c : Chip) : Chip :=
  if isCore master then c.emit (.trap master)
  else if isEngine master then c.raise 0x0102 .fault
  else if isDma master then
    let ch := master.toNat - 0x30
    ((c.raise 0x0102 .fault).raiseFirst 0x0212 .fault ch addr).onMem fun m => { m with
      dmaHalt := m.dmaHalt ||| BitVec.ofNat 4 (2 ^ ch), dmaHalts := m.dmaHalts + 1, dmaAddr := m.dmaAddr.set ch (lo32 addr) }
  else if master = 0x40 then c.onHost fun h => { h with aerAbort := true }
  else c

/-! The cores (17 R453, 18 R477) -/

/-- The core is trapped, alone or with the other. -/
def Err.traps (e : Err) (core : Byte) : Bool := e.trapped = core || e.trapped = 3

/-- A trapped core can be reloaded while the other survives (18 R477). -/
def Err.reloadable (e : Err) : Bool := e.trapped = 1 || e.trapped = 2

/-- A core traps on an uncorrectable read (17 R453, 18 R477). -/
def Chip.coreTrap (core : Byte) (a : Nat) (c : Chip) : Chip :=
  let c := c.onMem fun m => { m with ue := m.ue + 1, ueSeen := true }
  let c := (c.memEvent 2 core.toNat a (some 0x0220)).raise 0x0220 .fatal core.toNat
  let on := c.errItem 4 = 1
  (c.onErr fun e =>
    let e := { e with trapped := if e.trapped = 0 then core else e.trapped ||| core }
    { e with reloading := e.reloadable && (e.reloading || (e.safe && on)) }).emit (.trap core)

/-- A core reads `n` bytes at `a`: correctable words are darned, an uncorrectable one traps it. The flag tells whether it read
them. -/
def Chip.coreRead (core : Byte) (a n : Nat) (c : Chip) : Bool × Chip :=
  let ws := eccWords a n
  let c := c.correct core.toNat ws
  match c.badWord ws with
  | some w => (false, c.coreTrap core w)
  | none => (true, c)

/-- A core reads several ranges in turn, until one traps it. -/
def Chip.coreReads (core : Byte) (rs : List (Nat × Nat)) (c : Chip) : Bool × Chip :=
  rs.foldl (fun r q => if r.1 then r.2.coreRead core q.1 q.2 else r) (true, c)

/-! Partial writes (17 R455) -/

/-- What a write over a part of an uncorrectable word leaves of it (17 R455): the new part, poison in the samples it does
not touch, zeros elsewhere. Bytes 5 to 7 of an entry are no part of its sample. -/
def poisonMerge (w s a : Nat) (bs : List Byte) : List Byte :=
  let hit := fun i => a ≤ w + i && w + i < a + bs.length
  (List.range s).map fun i =>
    if hit i then bs.getD (w + i - a) 0
    else if s = 16 ∧ i % 8 = 4 ∧ !((List.range 5).any fun j => hit (i / 8 * 8 + j)) then 0xFF else 0

/-- A write by a core, an engine or a DMA channel. -/
def Chip.innerStore (master : Byte) (a : Nat) (bs : List Byte) (c : Chip) : Bool × Chip :=
  (eccWords a bs.length).foldl (fun (r : Bool × Chip) w =>
    let s := eccSize (targetIndex w)
    let c := r.2
    if a ≤ w ∧ w + s ≤ a + bs.length then (r.1, c.store w ((bs.drop (w - a)).take s))
    else
      let c := c.correct master.toNat [w]
      match c.mem.bytes.ecc w with
      | .ue =>
        let c := c.store w (poisonMerge w s a bs)
        let c := c.onMem fun m => { m with poison := m.poison + 1, ueSeen := true }
        let c := c.memEvent 3 master.toNat (max a w) (if isEngine master then none else some 0x0214)
        if isEngine master then (r.1, c)
        else (false, (c.raiseFirst 0x0214 .fault 0 (max a w)).errorResponse master w)
      | _ => (r.1, c.store w (c.merge w a bs))) (true, c)

/-- Little-endian words read and written by the ZK9 itself in its own areas. -/
def Chip.word (c : Chip) (a : Nat) : Word := BitVec.ofNat 32 (ofLe (c.mem.bytes.bytes a 4))
def Chip.putWords (a : Nat) (ws : List Word) (c : Chip) : Chip := c.store a (wordBytes ws)

end Sys2Proof.Machine
end

