-- ==== Sys2Proof/Machine/Tags.lean ====
section
/-! DEFINITION. Tagged arithmetic (02 R38 to R52), gain ramps (03 R79) and selectors with their crossfades (03 R86 to
R90). -/

namespace Sys2Proof.Machine

/-- A tag that is poison or reserved (02 R39, R47). -/
def badTag (t : Nat) : Bool := 250 < t

/-- The residue of a value modulo 251 (02 R39). -/
def residue (v : Int) : Nat := (v % 251).toNat

/-- Sum and product of tags (02 R43, R44, R47). -/
def tagAdd (a b : Nat) : Nat := if badTag a || badTag b then 255 else (a + b) % 251
def tagMul (a b : Nat) : Nat := if badTag a || badTag b then 255 else a * b % 251

/-- The inverse of 2^k modulo 251 (02 R45): 126 is the inverse of 2. -/
def invPow2 (k : Nat) : Nat := 126 ^ k % 251

/-- A sample times a coefficient, exact (02 R44). -/
def smul (x : Smp) (c : Int) : Smp := { v := x.v * c, t := tagMul x.t (residue c) }

/-- Sum of accumulator terms (02 R43). -/
def sadd (a b : Smp) : Smp := { v := a.v + b.v, t := tagAdd a.t b.t }

/-- The rounded value floor((a + 2^(k-1)) / 2^k) (02 R45). -/
def roundShift (k : Nat) (a : Int) : Int := if k = 0 then a else (a + (2 ^ (k - 1) : Nat)) / (2 ^ k : Nat)

/-- Rounding of an accumulator with k fraction bits, with its tag (02 R45). -/
def roundAcc (k : Nat) (a : Smp) : Smp :=
  let r := roundShift k a.v
  let d := a.v - r * (2 ^ k : Nat)
  { v := r, t := if badTag a.t then 255 else (a.t + 251 - residue d) * invPow2 k % 251 }

/-- Saturation to the limits lo and hi, with the tag of R46. -/
def clampTo (lo hi : Int) (a : Smp) : Smp :=
  let l := if a.v < lo then lo else hi
  if a.v < lo ∨ hi < a.v then { v := l, t := tagAdd a.t (residue (l - a.v)) } else a

/-- Saturation to 32 bits (02 R46). -/
def sat (a : Smp) : Smp := clampTo (-2 ^ 31) (2 ^ 31 - 1) a

/-- r30 of a coefficient product (03 R77). -/
def r30 (x : Int) : Int := roundShift 30 x

/-- Round with k fraction bits, then saturate. -/
def writeBack (k : Nat) (a : Smp) : Smp := sat (roundAcc k a)

/-- Poison: value 0 with tag 255. -/
def poison : Smp := { v := 0, t := 255 }

/-- A block of which the first `k` samples were handed on: the rest is replaced by poison (01 R26, R543). -/
def cutAt (k : Nat) (xs : List Smp) : List Smp := xs.mapIdx fun i x => if k ≤ i then poison else x

/-- A whole block of silence. -/
def silence (b : Nat) : List Smp := List.replicate b {}

/-- The entry of a 32-bit input word into Q5.27 with its tag (02 R42). At every entry point the word carries 24 bits or is
cut to them: bits [7:0] are 0 (02 R41). -/
def enter (w : Word) : Smp :=
  let v := w.toInt / 256 * 256
  { v := v / 16, t := residue v * 204 % 251 }

/-- A sample that no crossing delivered by the tick (01 R17), marked until pass 1 gathers it. -/
def undelivered : Smp := { v := 0, t := 256 }

/-- It enters the graph as value 0 with tag 0. -/
def gathered (x : Smp) : Smp := if x = undelivered then {} else x

/-- The exit check (02 R51). -/
def passes (x : Smp) : Bool := x.t ≤ 250 && x.t == residue x.v

/-- Conversion to 24 bits with the residue derived from the tag (02 R52). -/
def to24 (x : Smp) : Smp := clampTo (-2 ^ 23) (2 ^ 23 - 1) (roundAcc 4 x)

/-- Tagged samples of the twin link and the store. -/
def ofTS (x : TSample) : Smp := { v := x.val.toInt, t := x.tag.toNat }
def toTS (x : Smp) : TSample := { val := BitVec.ofInt 32 x.v, tag := BitVec.ofNat 8 x.t }

/-! Ramps (03 R79) -/

/-- The value at sample `j` of a ramp. -/
def Ramp.atSample (r : Ramp) (j : Nat) : Int :=
  if j < r.r then r.v0 + (r.v1 - r.v0) * ((j : Int) + 1) / (r.r : Int) else r.v1

/-- The value at the last sample that has passed. -/
def Ramp.last (r : Ramp) : Int := if r.j = 0 then r.v0 else r.atSample (r.j - 1)

/-- The value at sample `i` of the block under way. -/
def Ramp.now (r : Ramp) (i : Nat) : Int := r.atSample (r.j + i)

/-- A steady value. -/
def Ramp.steady (v : Int) : Ramp := { v0 := v, v1 := v }

/-- A new target over `n` samples, from the current value (03 R79); the target held already changes nothing. -/
def Ramp.aim (r : Ramp) (v : Int) (n : Nat) : Ramp :=
  if v = r.v1 then r else { v0 := r.last, v1 := v, r := n, j := 0 }

/-- `b` samples have passed. -/
def Ramp.pass (r : Ramp) (b : Nat) : Ramp :=
  if r.r ≤ r.j + b then Ramp.steady r.v1 else { r with j := r.j + b }

def Ramp.running (r : Ramp) : Bool := r.j < r.r

/-- A fade that begins with output block `q.2`, after b samples of output block O; a fade-in that is complete is over (05
R137). -/
def fadePass (b O : Nat) (f : Option (Ramp × Nat)) : Option (Ramp × Nat) :=
  f.bind fun q =>
    if O < q.2 then some q
    else
      let r := q.1.pass b
      if r.running || r.v1 = 0 then some (r, q.2) else none

/-! Selectors (03 R86 to R90) -/

/-- Weights of the incoming and outgoing side at sample j of a crossfade over s samples (03 R86). -/
def weightIn (shape j s : Nat) : Int :=
  if shape = 0 then roundDiv (2 ^ 30 * ((j : Int) + 1)) s else sinQ (j + 1) s
def weightOut (shape j s : Nat) : Int :=
  if shape = 0 then 2 ^ 30 - weightIn 0 j s else sinQ (s - (j + 1)) s

/-- The codes a crossfade reads at sample j, with their weights: at the last sample only the incoming one. -/
def Fade.weights (f : Fade) (j : Nat) : List (Nat × Int) :=
  if f.s ≤ j + 1 then [(f.dest, weightIn f.shape j f.s)]
  else (f.olds.map fun o => (o.1, r30 (weightOut f.shape j f.s * o.2))) ++ [(f.dest, weightIn f.shape j f.s)]

/-- An ordinary crossfade. -/
def Fade.start (a b s shape : Nat) : Fade := { olds := [(a, 2 ^ 30)], dest := b, s := s, shape := shape, j := 0 }

/-- The selector at the first sample of a graph block: `pressed` tells that a press landing at this block names it,
with the value, S and shape in force (03 R86 to R90). The flag tells a deferral. -/
def Sel.drive (x : Sel) (pressed : Bool) (v s shape : Nat) : Sel × Bool :=
  match pressed, x.fade with
  | false, none =>
    match x.deferred with
    | some d => ({ x with fade := some (Fade.start x.cur d.1 d.2.1 d.2.2), deferred := none }, false)
    | none => (x, false)
  | false, some _ => (x, false)
  | true, none =>
    if v = x.cur then ({ x with deferred := none }, false)
    else if s = 0 then ({ cur := v }, false)
    else ({ x with fade := some (Fade.start x.cur v s shape), deferred := none }, false)
  | true, some f =>
    if v = f.dest then ({ x with deferred := none }, false)
    else if s = 0 then ({ cur := v }, false)
    else if f.restarted then ({ x with deferred := some (v, s, shape) }, true)
    else
      let frozen := f.weights (f.j - 1)
      ({ x with fade := some { olds := frozen, dest := v, s := s, shape := shape, j := 0, restarted := true } }, false)

/-- `b` samples have passed: a crossfade that reached its last sample ends (CROSSFADE_END). -/
def Sel.pass (x : Sel) (b : Nat) : Sel :=
  match x.fade with
  | none => x
  | some f => if f.s ≤ f.j + b then { x with cur := f.dest, fade := none } else { x with fade := some { f with j := f.j + b } }

/-- The codes a selector reads now. -/
def Sel.codes (x : Sel) : List Nat :=
  match x.fade with
  | none => [x.cur]
  | some f => f.olds.map Prod.fst ++ [f.dest]

/-- Sample i of a selector's output at a sink, a chain or a delay read (03 R86, R88): the current source unchanged, or
the weighted sum, rounded and saturated. -/
def Sel.sample (x : Sel) (read : Nat → Nat → Smp) (i : Nat) : Smp :=
  match x.fade with
  | none => read x.cur i
  | some f => writeBack 30 ((f.weights (f.j + i)).foldl (fun a w => sadd a (smul (read w.1 i) w.2)) {})

end Sys2Proof.Machine
end

