-- ==== Sys2Proof/Machine/Graph.lean ====
section
/-! DEFINITION. The signal graph: generators, conditioning, presence gates, buses (03), output chains, the delay store,
compressor, limiter, array filters (04), sink selection and the exit check (02). -/

namespace Sys2Proof.Machine

/-- 1.0 in Q2.30. -/
def one30 : Int := 2 ^ 30

/-- The elements of a family that some items name, ascending, with those a state map names. -/
def elements {α : Type} (items : Items) (fam : Nat) (m : Map α) : List Nat :=
  let ks := (mkeys (mrange items (fam * 2 ^ 24) ((fam + 1) * 2 ^ 24))).map itemEl
  ((ks.map fun k => (k, ())).foldl (fun a p => mset a p.1 ()) ((mkeys m).map fun k => (k, ()))).map Prod.fst

/-! Generators (03 R72) -/

/-- round(2^27 x 10^(g / 2000)), and 0 at -96 dB for the gain items. -/
def gain27 (g : Int) : Int := roundPow10 (2 ^ 27) g
def mutableGain (s : Nat) (g : Int) : Int := if g = -9600 then 0 else roundPow10 s g

/-- One sine sample: frequency in mHz, level, absolute index. -/
def sineSample (fs freq : Nat) (lev : Int) (n : Nat) : Int :=
  let inc := roundDiv (freq * 2 ^ 32 : Nat) (1000 * fs)
  let phi := ((inc * (n : Int)) % ((2 ^ 32 : Nat) : Int)).toNat
  let k : Nat := phi / 2 ^ 22
  let f : Nat := phi % 2 ^ 22
  let a := sineTable k
  let s := a + (sineTable (k + 1) - a) * f / (2 ^ 22 : Nat)
  (lev * s + 2 ^ 29) / (2 ^ 30 : Nat)

/-- mix of R72. -/
def mix64 (z : Nat) : Nat :=
  let z := (z ^^^ (z >>> 30)) * 0xBF58476D1CE4E5B9 % 2 ^ 64
  let z := (z ^^^ (z >>> 27)) * 0x94D049BB133111EB % 2 ^ 64
  z ^^^ (z >>> 31)

/-- One PINK sample. -/
def pinkSample (seed : Nat) (lev : Int) (n : Nat) : Int :=
  let sum := (List.range 16).foldl (fun (a : Int) k =>
    a + signed 32 (mix64 ((((n % 2 ^ 64) >>> k) + (seed * 16 + k) * 0x9E3779B97F4A7C15) % 2 ^ 64) / 2 ^ 32)) 0
  (lev * sum + 2 ^ 34) / (2 ^ 35 : Nat)

/-- A freshly tagged Q5.27 value (02 R41). -/
def tagged (v : Int) : Smp := { v := v, t := residue v }

/-- The samples of generator `s` for block `n` (03 R71, R72). -/
def generator (p : Profile) (items : Items) (s n : Nat) : List Smp :=
  let b := blkLen p
  let g := fun f => itemIn items (item 0x02 s f)
  let lev := gain27 (g 0x011)
  (List.range b).map fun i =>
    if s = 2745 then tagged (pinkSample (g 0x012).toNat lev (n * b + i))
    else tagged (sineSample (fsOf p) (g 0x010).toNat lev (n * b + i))

/-! Biquads (04 R103 to R106) -/

/-- One biquad sample. -/
def bqStep (k : Int × Int × Int × Int × Int) (s : BqSt) (x : Smp) : Smp × BqSt :=
  let y := writeBack 28 (sadd (sadd (sadd (sadd (smul x k.1) (smul s.x1 k.2.1)) (smul s.x2 k.2.2.1))
    (smul s.y1 (-k.2.2.2.1))) (smul s.y2 (-k.2.2.2.2)))
  (y, { x1 := x, x2 := s.x1, y1 := y, y2 := s.y1 })

/-- A block through a biquad. -/
def bqRun (k : Int × Int × Int × Int × Int) (s : BqSt) (xs : List Smp) : List Smp × BqSt :=
  let r := xs.foldl (fun (a : List Smp × BqSt) x => let q := bqStep k a.2 x; (q.1 :: a.1, q.2)) ([], s)
  (r.1.reverse, r.2)

/-- A state word written back: poison becomes value 0 with tag 0, and is counted (02 R49). The spec does not say what one
event is: each word cleared counts once, and the words that one call clears share one NOTE (log 68). -/
def clearWord (x : Smp) : Smp × Nat := if x.t = 255 then ({}, 1) else (x, 0)
def clearBq (s : BqSt) : BqSt × Nat :=
  let a := clearWord s.x1
  let b := clearWord s.x2
  let c := clearWord s.y1
  let d := clearWord s.y2
  ({ x1 := a.1, x2 := b.1, y1 := c.1, y2 := d.1 }, a.2 + b.2 + c.2 + d.2)

/-- The coefficients of biquad q of chain c (04 R104, R106); none for OFF. -/
def bqCoefs (p : Profile) (items : Items) (c q : Nat) : Option (Int × Int × Int × Int × Int) :=
  let g := fun f => itemIn items (item 0x05 c (0x100 + q * 16 + f))
  match (g 0).toNat with
  | 0 => none
  | 9 => some (g 4, g 5, g 6, g 7, g 8)
  | t => some (bqDesign t (g 1).toNat (g 2) (g 3).toNat (fsOf p))

/-- The press-time test of a section: every coefficient in range, and stable (04 R104). -/
def bqStable (k : Int × Int × Int × Int × Int) : Bool :=
  let ok := fun x : Int => -2 ^ 31 ≤ x && x ≤ 2 ^ 31 - 1
  ok k.1 && ok k.2.1 && ok k.2.2.1 && ok k.2.2.2.1 && ok k.2.2.2.2 &&
    k.2.2.2.2.natAbs < 2 ^ 28 && (k.2.2.2.1.natAbs : Int) < 2 ^ 28 + k.2.2.2.2

/-! Conditioning and gates (03 R73 to R75) -/

/-- The conditioned samples of a source and its filter state; the count of cleared words. -/
def condition (p : Profile) (items : Items) (s : Nat) (st : SrcSt) (xs : List Smp) : List Smp × SrcSt × Nat :=
  let g := fun f => itemIn items (item 0x02 s f)
  let k := mutableGain (2 ^ 27) (g 0x001)
  let xs := xs.map fun x => writeBack 27 (smul x k)
  let xs := if g 0x002 = 1 then xs.map fun x => sat (smul x (-1)) else xs
  let f := (g 0x003).toNat
  let order := (g 0x004).toNat
  if f = 0 then (xs, { st with hp1 := {}, hp2 := {} }, 0)
  else
    let r1 := bqRun (hpfDesign 0 f order (fsOf p)) st.hp1 xs
    let c1 := clearBq r1.2
    if order = 0 then (r1.1, { st with hp1 := c1.1, hp2 := {} }, c1.2)
    else
      let r2 := bqRun (hpfDesign 1 f order (fsOf p)) st.hp2 r1.1
      let c2 := clearBq r2.2
      (r2.1, { st with hp1 := c1.1, hp2 := c2.1 }, c1.2 + c2.2)

/-- The block peak: poisoned samples do not count. -/
def blockPeak (xs : List Smp) : Nat := xs.foldl (fun a x => if x.t = 255 then a else max a x.v.natAbs) 0

/-- The AUTO detector of a gate after a block (03 R74). -/
def gateStep (thr hold : Nat) (st : SrcSt) (peak : Nat) : SrcSt :=
  if thr ≤ peak then { st with gate := true, hold := hold }
  else if !st.gate then st
  else if st.hold = 0 then { st with gate := false }
  else if hold = 0 then { st with gate := false, hold := 0 }
  else { st with hold := st.hold - 1 }

/-- The gate that governs the block: the detector, or as fixed by src.gate_mode. -/
def gateOpen (items : Items) (s : Nat) (st : SrcSt) : Bool :=
  match (itemIn items (item 0x02 s 0x005)).toNat with
  | 1 => true | 2 => false | _ => st.gate

/-- The sources of block n: conditioned samples by number, states, open gates and cleared words. `ins` holds the
delivered inputs. What is not delivered is gathered as zeros and conditioned like any other sample (03 R73), and closes the
gate of its source for the block (01 R17, 03 R70); the spec leaves open what the AUTO detector of that source does: it
closes, with its hold counter at 0 (log 69). Sources with nothing delivered and cleared state stay silent and are left out. -/
def sources (p : Profile) (items : Items) (n : Nat) (ins : Map (List Smp)) (src : Map SrcSt) :
    Map (List Smp) × Map SrcSt × List Nat × Nat :=
  let gens := (List.range 10).map fun k => (2737 + k, generator p items (2737 + k) n)
  let rest := (mkeys src).filter fun s => (mget? ins s).isNone && !(2737 ≤ s && s < 2747)
  let none_ := List.replicate (blkLen p) undelivered
  let start : Map (List Smp) × Map SrcSt × List Nat × Nat := ([], [], [], 0)
  (ins ++ gens ++ rest.map fun s => (s, none_)).foldl (fun (a : Map (List Smp) × Map SrcSt × List Nat × Nat) q =>
    let whole := !q.2.contains undelivered
    let c := condition p items q.1 (mget src q.1 {}) (q.2.map gathered)
    let g := if whole
      then gateStep (gain27 (itemIn items (item 0x02 q.1 0x006))).toNat (itemIn items (item 0x02 q.1 0x007)).toNat
        c.2.1 (blockPeak c.1)
      else { c.2.1 with gate := false, hold := 0 }
    (mset a.1 q.1 c.1, if g = {} then a.2.1 else mset a.2.1 q.1 g,
      if whole && gateOpen items q.1 g then q.1 :: a.2.2.1 else a.2.2.1, a.2.2.2 + c.2.2)) start

/-! Buses (03 R77 to R84) -/

/-- What a tap needs in a block. -/
structure TapCfg where
  idx : Nat
  on : Bool
  prio : Nat
  st : TapSt

/-- The taps of a bus in block n, their selectors and gain ramps driven by the press that lands there; the deferrals. -/
def tapsOf (p : Profile) (cfg : Gen) (b : Nat) (st : BusSt) : List TapCfg × Nat :=
  let base := item 0x04 b 0
  let named := ((mkeys (mrange cfg.items base (base + 0x1000))).map fun id => itemField id / 16) ++ mkeys st.taps
  let ids := (indices (tapCount p) fun t => named.contains t)
  ids.foldl (fun (a : List TapCfg × Nat) t =>
    let g := fun f => itemIn cfg.items (base + t * 16 + f)
    let s := mget st.taps t { duck := st.rest }
    let d := s.sel.drive (cfg.landed.contains (base + t * 16)) (g 0).toNat ((g 4).toNat * blkLen p) (g 5).toNat
    let target := if g 2 = 1 then mutableGain (2 ^ 30) (g 1) else 0
    let s := { s with sel := d.1, gain := s.gain.aim target ((g 4).toNat * blkLen p) }
    (a.1 ++ [{ idx := t, on := g 2 = 1, prio := (g 3).toNat, st := s }], a.2 + b2n d.2)) ([], 0)

/-- The scaling target (03 R81). -/
def scaleTarget (mode n : Nat) : Int :=
  match mode with
  | 0 => one30 | 1 => roundDiv (2 ^ 30) n | _ => roundRoot n

/-- The ducking target of a tap of priority `q` (03 R82, R83). -/
def duckTarget (depth : Nat) (win : Option Nat) (q : Nat) : Int :=
  match win with
  | none => one30
  | some w => if w ≤ q then one30 else if w = 7 then 0 else if depth = 0xFFFF then 0 else roundPow10 (2 ^ 30) (-depth)

/-- One output sample of a bus (03 R77). -/
def busSample (p1 : Map (List Smp)) (taps : List TapCfg) (scale : Ramp) (i : Nat) : Smp :=
  let read := fun s => (mget p1 s []).getD i {}
  writeBack 30 (taps.foldl (fun acc t =>
    let g := t.st.gain.now i
    if !t.on && g = 0 then acc
    else
      let w := r30 (r30 (g * t.st.duck.now i) * scale.now i)
      match t.st.sel.fade with
      | none => sadd acc (smul (read t.st.sel.cur) w)
      | some f => (f.weights (f.j + i)).foldl (fun acc q => sadd acc (smul (read q.1) (r30 (w * q.2)))) acc) {})

/-- One bus in one block (03 R77 to R84): samples, state and deferrals. A poisoned word of its scaling state poisons the
block's samples and is written back cleared (02 R49). -/
def busBlock (p : Profile) (cfg : Gen) (opens : List Nat) (p1 : Map (List Smp)) (b : Nat) (st : BusSt) :
    List Smp × BusSt × Nat :=
  let g := fun f => itemIn cfg.items (item 0x03 b f)
  let B := blkLen p
  let tp := tapsOf p cfg b st
  let active := tp.1.filter fun t => t.on && t.st.sel.codes.any opens.contains
  let win := if active.isEmpty then none else some (active.foldl (fun a t => max a t.prio) 0)
  let counted := if win = some 7 then active.filter fun t => t.prio = 7 else active
  let n := max counted.length (g 2).toNat
  let scale := st.scale.aim (scaleTarget (g 1).toNat n) ((g 3).toNat * B)
  let taps := tp.1.map fun t => { t with
    st := { t.st with duck := t.st.duck.aim (duckTarget (g 4).toNat win t.prio) ((g 5).toNat * B) } }
  let all := tp.1.length = tapCount p
  let rest := if all then Ramp.steady (duckTarget (g 4).toNat win 0)
    else st.rest.aim (duckTarget (g 4).toNat win 0) ((g 5).toNat * B)
  let out := (List.range B).map fun i =>
    let y := busSample p1 taps scale i
    if st.scaleBad then { y with t := 255 } else y
  let pass := fun s : TapSt => { gain := s.gain.pass B, duck := s.duck.pass B, sel := s.sel.pass B : TapSt }
  (out, { n := n, prio := win, scale := if st.scaleBad then Ramp.steady 0 else scale.pass B,
          taps := taps.foldl (fun m t => mset m t.idx (pass t.st)) [],
          scaleRun := scale.running, duckRun := rest.running || taps.any fun t => t.st.duck.running, rest := rest.pass B }, tp.2)

/-- Pass 1 of block n: sources, gates and buses; the open gates, cleared words and deferrals. -/
def pass1 (p : Profile) (cfg : Gen) (n : Nat) (ins : Map (List Smp)) (g : Graph) : Graph × Nat × Nat :=
  let s := sources p cfg.items n ins g.src
  let named := (elements cfg.items 0x04 (g.bus.map fun q => (q.1, ()))) ++ elements cfg.items 0x03 ([] : Map Unit)
  let buses := indices (busCount p) named.contains
  let r := buses.foldl (fun (a : Map (List Smp) × Map BusSt × Nat) b =>
    let k := busBlock p cfg s.2.2.1 s.1 b (mget g.bus b {})
    (mset a.1 (3072 + b) k.1, mset a.2.1 b k.2.1, a.2.2 + k.2.2)) (s.1, ([] : Map BusSt), 0)
  let lost := (g.bus.filter fun q => q.2.scaleBad).length
  ({ g with src := s.2.1, bus := r.2.1, pass1b := g.pass1, pass1 := r.1, stateBlk := n, opens := s.2.2.1 },
    s.2.2.2 + lost, r.2.2)

/-! Counting what the passes found -/

/-- Counts cleared recursive state and raises the NOTE 0x1022 (02 R49). -/
def Chip.countClears (n : Nat) (c : Chip) : Chip :=
  if n = 0 then c
  else (c.onGraph fun g => { g with clears := g.clears + BitVec.ofNat 32 n, stateCleared := true }).raise 0x1022 .note

/-- Raises one NOTE 0x1010 for each deferral (03 R89). -/
def Chip.countDefers (n : Nat) (c : Chip) : Chip := (List.range n).foldl (fun c _ => c.raise 0x1010 .note) c

/-! Output chains (04) -/

/-- The biquads of a chain over a block. -/
def chainBiquads (p : Profile) (items : Items) (c : Nat) (st : ChainSt) (xs : List Smp) : List Smp × Map BqSt × Nat :=
  let base := item 0x05 c 0x100
  let named := (mkeys (mrange items base (base + 0x180))).map fun id => (itemField id - 0x100) / 16
  (indices 24 named.contains).foldl (fun (a : List Smp × Map BqSt × Nat) q =>
    if st.bqOff.contains q then a else
    match bqCoefs p items c q with
    | none => a
    | some k =>
      let r := bqRun k (mget a.2.1 q {}) a.1
      let w := clearBq r.2
      (r.1, mset a.2.1 q w.1, a.2.2 + w.2)) (xs, st.bq, 0)

/-- The physical delay store sample of ring position r. -/
def ringSample (pages : List Nat) (r : Nat) : Nat := pages.getD (r / 4096) 0 * 4096 + r % 4096

/-- Writes a block into a ring, two samples of a word at a time (04 R109). -/
def Chip.ringWrite (pages : List Nat) (n : Nat) : List Smp → Chip → Chip
  | x :: y :: r, c => (c.writePair (ringSample pages (n % (pages.length * 4096))) x y).ringWrite pages (n + 2) r
  | _, c => c

/-- Reads the ring at delay `d` for absolute index n. -/
def Chip.ringRead (engine : Nat) (pages : List Nat) (n d : Nat) (c : Chip) : Smp × Chip :=
  let len := pages.length * 4096
  c.readSample engine (ringSample pages ((n + len * (d / len + 1) - d) % len))

/-- The alignment delay of a block (04 R109, R113): reads every position the selector reads, sample by sample. -/
def Chip.delayBlock (engine : Nat) (pages : List Nat) (sel : Sel) (n0 b : Nat) (c : Chip) : List Smp × Chip :=
  (List.range b).foldl (fun (a : List Smp × Chip) i =>
    let ds := match sel.fade with
      | none => [sel.cur]
      | some f => (f.weights (f.j + i)).map Prod.fst
    let rs := ds.foldl (fun (q : Map Smp × Chip) d =>
      let r := q.2.ringRead engine pages (n0 + i) d
      (mset q.1 d r.1, r.2)) ([], a.2)
    (a.1 ++ [sel.sample (fun d _ => mget rs.1 d {}) i], rs.2)) ([], c)

/-- The compressor's gain reduction in 0.01 dB at a detector value, as a fraction over 100 x ratio units (04 R115):
(l - T)(ratio - 100) / ratio. -/
def compReduction (e : Int) (thr ratio : Int) : Int :=
  if e ≤ 0 then 0 else let l := level e.toNat; if thr < l then (l - thr) * (ratio - 100) else 0

/-- A reduction of `num / den` 0.01 dB in steps of 0.25 dB, cut at 63.75 dB; whether a part step counts is free. -/
def grSteps (num : Int) (den : Nat) : Nat :=
  let k := (num / (25 * den : Nat)).toNat
  min 255 (if num % (25 * den : Nat) = 0 then k else k + b2n (Config.stepUp num den))

/-- The compressor over a block (04 R115): samples, detector and its ramp to the next block's gain, and the words cleared.
A poisoned detector word is written back as 0, from which the next target is taken (02 R49). -/
def compBlock (p : Profile) (items : Items) (c : Nat) (st : ChainSt) (xs : List Smp) : List Smp × ChainSt × Nat :=
  let g := fun f => itemIn items (item 0x05 c f)
  if g 0x20 = 0 then (xs, { st with compOn := false, compGr := 0, comp := Ramp.steady st.comp.v1 }, 0)
  else
    let B := blkLen p
    let st := if st.compOn then st
      else { st with compOn := true, e := 0, eBad := false, comp := Ramp.steady (roundPow10 (2 ^ 27) (g 0x25)) }
    let aa := oneMinusExp (100000) ((g 0x23).toNat * fsOf p)
    let ar := oneMinusExp (1000) ((g 0x24).toNat * fsOf p)
    let e := xs.foldl (fun (e : Int) x =>
      let a : Int := if x.t = 255 then 0 else x.v.natAbs
      e + (if e < a then aa else ar) * (a - e) / (2 ^ 30 : Nat)) st.e
    let e := if st.eBad then 0 else e
    let ys := xs.mapIdx fun i x => writeBack 27 (smul x (st.comp.now i))
    let ratio := g 0x22
    let gr := compReduction e (g 0x21) ratio
    let target := pow10Ratio (g 0x25 * ratio - gr) (2000 * ratio.toNat)
    (ys, { st with e := e, eBad := false, comp := (st.comp.pass B).aim target B, compGr := grSteps gr ratio.toNat }, b2n st.eBad)

/-- The owned pages of a chain, in ring order. -/
def ownedPages (pages : Map Page) (c : Nat) : List Nat :=
  let own := pages.filter fun q => q.2.chain = c && q.2.st = .owned
  (List.range own.length).filterMap fun o => (own.find? fun q => q.2.order = o).map Prod.fst

/-- The ring of a chain for graph block n: a press that landed in the block after it has not taken its pages yet (04 R111). -/
def ringFor (pages : Map Page) (n c : Nat) (delayMax : Int) : List Nat :=
  let old := pages.filter fun q => q.2.chain = c && q.2.st = .releasing (n + 1)
  if delayMax = 0 then []
  else if old.isEmpty then ownedPages pages c
  else (List.range old.length).filterMap fun o => (old.find? fun q => q.2.order = o).map Prod.fst

/-- A biquad that a cold press set aside acts again from the block at which a press that changes it lands (04 R126). -/
def bqHeld (cfg : Gen) (k : Nat) (off : List Nat) : List Nat :=
  off.filter fun b => !cfg.landed.any fun id =>
    itemFam id = 5 && itemEl id = k && 0x100 ≤ itemField id && (itemField id - 0x100) / 16 = b

/-- The engine that makes output `k` of a pass: the firmware's assignment, free but for the engines that are powered
(01 R11, R12; log 17). -/
def Chip.engineFor (c : Chip) (pass k : Nat) : Nat :=
  let n := (Config.engineOf c.sys.assign pass k).val
  if c.prof = .E then n % 8 else n

/-- Pass 2 of graph block n for one chain: its limiter input (04 R101). The engine that makes it reads the ring. -/
def Chip.chainBlock (cfg : Gen) (n : Nat) (k : Nat) (c : Chip) : List Smp × Chip :=
  let p := c.prof
  let B := blkLen p
  let g := fun f => itemIn cfg.items (item 0x05 k f)
  let hit := fun f => cfg.landed.contains (item 0x05 k f)
  let st := mget c.graph.chain k {}
  let st := { st with bqOff := bqHeld cfg k st.bqOff }
  let src := c.graph.pass1b
  -- stage 1
  let d := st.sel.drive (hit 1) (g 1).toNat ((g 2).toNat * B) (g 3).toNat
  let xs := (List.range B).map (d.1.sample fun s i => (mget src s []).getD i {})
  -- stage 2
  let q := chainBiquads p cfg.items k st xs
  -- stage 3
  let coef := mutableGain (2 ^ 27) (g 4) * (if g 5 = 1 then -1 else 1)
  let gain := st.gain.aim coef ((g 6).toNat * B)
  let xs := q.1.mapIdx fun i x => writeBack 27 (smul x (gain.now i))
  -- stage 4
  let fresh := hit 0x10
  let pages := if fresh then ringFor c.graph.pages n k (g 0x10) else st.pages
  let dl := if fresh then ({ cur := (g 0x11).toNat }, false)
    else st.dly.drive (hit 0x11) (g 0x11).toNat ((g 0x12).toNat * B) (g 0x13).toNat
  let r := if pages.isEmpty then (xs, c)
    else (c.ringWrite pages (n * B) xs).delayBlock (0x10 + c.engineFor 1 (3584 + k)) pages dl.1 (n * B) B
  let c := r.2
  -- stage 5
  let m := compBlock p cfg.items k st r.1
  let st := { m.2.1 with
    sel := d.1.pass B, bq := q.2.1, gain := gain.pass B, pages := pages, dly := dl.1.pass B,
    peaks := ((n, blockPeak r.1) :: st.peaks).take 4, shown := st.seen,
    seen := { compGr := m.2.1.compGr, selFade := d.1.fade.isSome, dlyFade := dl.1.fade.isSome, pages := pages.length } }
  (m.1, ((c.onGraph fun g => { g with chain := mset g.chain k st }).countClears (q.2.2 + m.2.2)).countDefers (b2n d.2 + b2n dl.2))

/-- The chains that exist in the profile and have items or state. -/
def Chip.chains (cfg : Gen) (c : Chip) : List Nat :=
  let named := elements cfg.items 0x05 c.graph.chain
  indices (chainCount c.prof) named.contains

/-- Pass 2 of graph block n: limiter inputs by chain. -/
def Chip.pass2 (cfg : Gen) (n : Nat) (c : Chip) : Map (List Smp) × Chip :=
  (c.chains cfg).foldl (fun (a : Map (List Smp) × Chip) k =>
    let r := a.2.chainBlock cfg n k
    (mset a.1 k r.1, r.2)) ([], c)

/-! Limiter and mute (04 R116 to R118) -/

/-- need(n) for a ceiling (04 R116). -/
def limNeed (ceil : Int) (x : Smp) : Int :=
  if x.t = 255 ∨ (x.v.natAbs : Int) ≤ ceil then one30 else 2 ^ 30 * ceil / (x.v.natAbs : Int)

/-- a(n): the least need over the window, ramped in (04 R116). -/
def limAhead (b : Nat) (needs : List Int) (n : Nat) : Int :=
  (List.range (b + 1)).foldl (fun m j =>
    let q := needs.getD (n + j) one30
    min m (q + (one30 - q) * j / (b : Int))) one30

/-- The limiter on a block with its look-ahead block (04 R116), and the words cleared: a poisoned gain word poisons the
block's samples and is written back as 0 (02 R49). -/
def limBlock (p : Profile) (items : Items) (k : Nat) (st : ChainSt) (xs ahead : List Smp) : List Smp × ChainSt × Nat :=
  let it := fun f => itemIn items (item 0x05 k f)
  if it 0x30 = 0 then (xs, { st with limOn := false, limGr := 0, limAct := false }, 0)
  else
    let B := blkLen p
    let st := if st.limOn then st else { st with limOn := true, g := one30, gBad := false }
    let ceil : Int := roundPow10 (2 ^ 27) (it 0x31)
    let needs := (xs ++ ahead).map (limNeed ceil)
    let step := roundDiv (2 ^ 30) ((it 0x32).toNat * B)
    let r := xs.zipIdx.foldl (fun (a : List Smp × Int × Bool) x =>
      let g := min (min (limAhead B needs x.2) (a.2.1 + step)) one30
      let y := writeBack 30 (smul x.1 g)
      let l := if y.v < 0 then -ceil else ceil
      let y := if ceil < (y.v.natAbs : Int) then { v := l, t := tagAdd y.t (residue (l - y.v)) } else y
      (y :: a.1, g, a.2.2 || decide (g < one30))) ([], st.g, false)
    let ys := if st.gBad then r.1.map fun y => { y with t := 255 } else r.1
    let g := if st.gBad then 0 else r.2.1
    let gr := if one30 ≤ g then 0 else if g ≤ 0 then 255 else grSteps (-(level ((g / 8).toNat))) 1
    (ys.reverse, { st with g := g, gBad := false, limAct := r.2.2, limGr := gr }, b2n st.gBad)

/-- Mute (04 R118). -/
def muteBlock (p : Profile) (items : Items) (k : Nat) (st : ChainSt) (xs : List Smp) : List Smp × ChainSt :=
  let it := fun f => itemIn items (item 0x05 k f)
  let r := st.mute.aim (if it 7 = 1 then 0 else one30) ((it 8).toNat * blkLen p)
  (xs.mapIdx fun i x => writeBack 30 (smul x (r.now i)), { st with mute := r.pass (blkLen p) })

/-- Stages 6 to 8 of a chain for graph block n, with the limiter input of n + 1. -/
def Chip.chainOut (cfg : Gen) (k : Nat) (xs ahead : List Smp) (c : Chip) : List Smp × Chip :=
  let st := mget c.graph.chain k {}
  let l := limBlock c.prof cfg.items k st xs ahead
  let m := muteBlock c.prof cfg.items k l.2.1 l.1
  (m.1, (c.onGraph fun g => { g with chain := mset g.chain k m.2 }).countClears l.2.2)

/-! Memory errors in recursive state (17 R453, 02 R49) -/

/-- A filter state of which word `i` reads as value 0 with tag 255. -/
def BqSt.poison (i : Nat) (s : BqSt) : BqSt :=
  match i with
  | 0 => { s with x1 := Machine.poison } | 1 => { s with x2 := Machine.poison } | 2 => { s with y1 := Machine.poison }
  | _ => { s with y2 := Machine.poison }

/-- The state word that `Config.engineWord` names reads as value 0 with tag 255; none where the passes of the tick do not
read it. -/
def Chip.poisonState (kind el i : Nat) (c : Chip) : Option Chip :=
  let two := c.graph.at1.isSome
  let three := c.graph.at2.isSome
  let p := c.prof
  let st := mget c.graph.chain el {}
  let keep := fun (b : Bool) (f : Graph → Graph) => if b then some (c.onGraph f) else none
  let chain := fun (b : Bool) (f : ChainSt → ChainSt) =>
    keep (b && decide (el < chainCount p)) fun g => { g with chain := mmod g.chain el {} f }
  match kind with
  | 0 =>
    let second := 4 ≤ i
    let f := fun s : SrcSt => if second then { s with hp2 := s.hp2.poison (i - 4) } else { s with hp1 := s.hp1.poison i }
    keep (decide (i < 8) && c.it (item 2 el 3) ≠ 0 && (!second || c.it (item 2 el 4) = 1)) fun g =>
      { g with src := mmod g.src el {} f }
  | 1 =>
    chain (two && decide (i < 96) && !st.bqOff.contains (i / 4) && (bqCoefs p c.sys.prev.items el (i / 4)).isSome) fun s =>
      { s with bq := mmod s.bq (i / 4) {} (BqSt.poison (i % 4)) }
  | 2 => chain (two && st.compOn && c.itPrev (item 5 el 0x20) = 1) fun s => { s with eBad := true }
  | 3 => chain (three && st.limOn && c.itPrev2 (item 5 el 0x30) = 1) fun s => { s with gBad := true }
  | 4 => keep (decide (el < busCount p)) fun g => { g with bus := mmod g.bus el {} fun s => { s with scaleBad := true } }
  | 5 =>
    keep (three && decide (el < 64) && decide (i < (mget c.graph.fir el {}).hist.length)) fun g =>
      { g with fir := mmod g.fir el {} fun s => { s with hist := s.hist.set i Machine.poison } }
  | _ => none

/-- The passes read recursive state from engine memories: a correctable word is darned, an uncorrectable one poisons the
state that it holds and is written back (17 R451, R453). -/
def Chip.readState (c : Chip) : Chip :=
  let mine := c.mem.bytes.upset.filter fun q =>
    let t := targetIndex q.1
    3 ≤ t && t < 27 && c.powered.getLsbD (t - 3)
  mine.foldl (fun c q =>
    let master := 0x10 + (targetIndex q.1 - 3)
    match (Config.engineWord q.1).bind fun k => c.poisonState k.1 k.2.1 k.2.2 with
    | none => c
    | some hit =>
      if q.2 then
        ((hit.ueRead master q.1 0x0210 .fault 0).onMem fun m => { m with
          poison := m.poison + 1 }).storeEngine q.1 Machine.poison
      else c.darn master q.1) c

/-! Array filters (04 R120 to R124) -/

/-- Coefficient i of a bank. -/
def FirBank.coefAt (b : FirBank) (i : Nat) : Int := mget b.coef i (if i = 0 then 0x40000000 else 0)

/-- Effective length (04 R120). -/
def FirBank.len (p : Profile) (b : FirBank) : Nat := min b.length (firTaps p)

/-- CRC-32C of a bank (04 R122). -/
def FirBank.crc (b : FirBank) : Word :=
  let go := fun (s : Nat) (v : Int) => (leBytes 4 (pattern 32 v)).foldl (crcByte 0x82F63B78) s
  let s := (List.range 4096).foldl (fun s i => go s (b.coefAt i)) 0xFFFFFFFF
  BitVec.ofNat 32 (go (go s b.length) b.mode ^^^ 0xFFFFFFFF)

/-- One output sample of a bank on a history whose newest sample is `x`. -/
def FirBank.out (p : Profile) (b : FirBank) (hist : List Smp) : Smp :=
  if b.mode = 0 then hist.getD 0 {}
  else writeBack 30 ((hist.take (b.len p)).zipIdx.foldl (fun a h => sadd a (smul h.1 (b.coefAt h.2))) {})

/-- An array filter over a block: samples, state and cleared words. A running exchange crossfades from the pressed to the
shadow bank (04 R122). -/
def firBlock (p : Profile) (st : FirSt) (xs : List Smp) : List Smp × FirSt × Nat :=
  let r := xs.zipIdx.foldl (fun (a : List Smp × List Smp) x =>
    let h := (x.1 :: a.2).take (firTaps p)
    let y := match st.xchg with
      | none => st.bank.out p h
      | some (s, shape, j) =>
        if s ≤ j + x.2 + 1 then st.shadow.out p h
        else writeBack 30 (sadd (smul (st.bank.out p h) (weightOut shape (j + x.2) s))
          (smul (st.shadow.out p h) (weightIn shape (j + x.2) s)))
    (y :: a.1, h)) ([], st.hist)
  let cl := r.2.foldl (fun n h => n + (clearWord h).2) 0
  let hist := r.2.map fun h => (clearWord h).1
  let st := { st with hist := hist, ran := st.xchg.isSome }
  let st := match st.xchg with
    | none => st
    | some (s, shape, j) =>
      if s ≤ j + xs.length then { st with bank := st.shadow, xchg := none, busy := false }
      else { st with xchg := some (s, shape, j + xs.length) }
  (r.1.reverse, st, cl)

/-- Starts the exchange of a filter at the first sample of L (04 R122); with no switch blocks the new bank applies. -/
def firStart (s shape : Nat) (st : FirSt) : FirSt :=
  if s = 0 then { st with bank := st.shadow, xchg := none, busy := false } else { st with xchg := some (s, shape, 0) }

/-! Exits (02 R50 to R61) -/

/-- Whether a sink is a modulator's. -/
def isMod (e : Nat) : Bool := 2560 ≤ e

/-- Sink `e` waits for an acknowledgement before it un-mutes: LATCH is in force and its FAULT is not acknowledged (02 R60). -/
def latched (items : Items) (e : Nat) (st : SinkSt) : Bool := itemIn items (item 0x07 e 0x22) = 1 && st.waits.isSome

/-- The window boundary of a sink (02 R58, R60; 05 R139): a muted sink that counted no failure in a whole window, and waits
for no acknowledgement, un-mutes with its switch_blocks. -/
def Chip.sinkBoundary (items : Items) (e o : Nat) (c : Chip) : Chip :=
  let k := o / c.W
  let st := mget c.graph.sink e {}
  if st.win = k then c
  else
    let whole := c.graph.winFrom + c.W ≤ k * c.W
    let free := st.muted && st.fails = 0 && whole && !latched items e st
    let s := (itemIn items (item 0x07 e 2)).toNat * c.B
    let st := { st with
      win := k, fails := 0, muted := st.muted && !free, waits := if free then none else st.waits
      unmute := if free && s ≠ 0 then some (s, (itemIn items (item 0x07 e 3)).toNat, 0) else st.unmute }
    c.onGraph fun g => { g with sink := mset g.sink e st }

/-- One sample at an exit (02 R57 to R59): the value that leaves, whether it was substituted, the sink, and the failures
to raise (NOTE, then FAULT). `counts` tells that a window counts the sample (05 R139). -/
def exitSample (policy limit : Nat) (counts : Bool) (code blk : Nat) (st : SinkSt) (x : Smp) :
    Smp × Bool × SinkSt × Bool × Bool :=
  if passes x then
    (if st.muted then {} else x, st.muted, { st with held := some x.v }, false, false)
  else
    let n := st.fails + b2n counts
    let mutes := !st.muted && counts && limit < n
    let st' := { st with
      fails := n, failTotal := satInc 0xFFFFFFFF st.failTotal, muted := st.muted || mutes,
      mutes := if mutes then satInc 0xFFFFFFFF st.mutes else st.mutes,
      waits := if mutes then some (code, blk) else st.waits,
      unmute := if mutes then none else st.unmute }
    let y := if st'.muted then {} else if policy = 1 then tagged (st.held.getD 0) else {}
    (y, true, st', counts && st.fails = 0, mutes)

/-- The exit check of a sink over a block of output block o (02 R51 to R64): what leaves, and whether any sample was
substituted or the sink is muted. GRAPH_TAG_LAST takes the failures of a block in the order of their checks (log 70). While
XQ_8 is silent the GRAPH block hears of no failure at a modulator (02 R62, log 67). -/
def Chip.exitCheck (items : Items) (e o : Nat) (xs : List Smp) (c : Chip) : List Smp × Bool × Chip :=
  let it := fun f => (itemIn items (item 0x07 e f)).toNat
  let note := if isMod e then 0x0E20 else 0x1020
  let flt := if isMod e then 0x0E21 else 0x1021
  let told := !(isMod e && c.sys.xqSilent.getLsbD 8)
  let c := c.sinkBoundary items e o
  let st0 := mget c.graph.sink e {}
  let r := xs.foldl (fun (a : List Smp × Bool × SinkSt × Chip) x =>
    let q := exitSample (it 0x20) (it 0x21) (c.graph.winFrom ≤ o) flt c.sys.blk a.2.2.1 x
    let c := a.2.2.2
    let c := if passes x || !told then c else
      let c := c.onGraph fun g => { g with
        failSeen := true, failTotal := g.failTotal + 1, poisonSeen := g.poisonSeen || x.t = 255,
        poisonTotal := if x.t = 255 then g.poisonTotal + 1 else g.poisonTotal,
        tagLast := pack [(0, 12, e), (16, 8, x.t), (24, 8, residue x.v)], tagLastBlk := o }
      let c := if q.2.2.2.1 then c.raise note .note e else c
      if q.2.2.2.2 then c.raise flt .fault e else c
    (q.1 :: a.1, a.2.1 || q.2.1, q.2.2.1, c)) ([], st0.muted, st0, c)
  let st := r.2.2.1
  -- the ramp after an un-mute (02 R60)
  let ys := r.1.reverse
  let ramp := match st.unmute with
    | none => (ys, st)
    | some (s, shape, j) =>
      (ys.mapIdx fun i y => if s ≤ j + i then y else writeBack 30 (smul y (weightIn shape (j + i) s)),
       { st with unmute := if s ≤ j + ys.length then none else some (s, shape, j + ys.length) })
  (ramp.1, r.2.1, r.2.2.2.onGraph fun g => { g with sink := if ramp.2 = {} then mdel g.sink e else mset g.sink e ramp.2 })

/-- The block residue byte of a channel (02 R53). -/
def blockResidue (withdrawn : Bool) (xs24 : List Smp) : Byte :=
  if withdrawn then 254 else BitVec.ofNat 8 (xs24.foldl (fun a x => tagAdd a x.t) 0)

/-- ERR_ACK acknowledges the muting FAULT of the sinks that hold the code, by index or all (02 R60). -/
def Chip.releaseSinks (code : Nat) (blk : Option Nat) (c : Chip) : Chip :=
  c.onGraph fun g => { g with sink := mmap g.sink fun _ st => match st.waits with
    | some w => if w.1 = code && (blk = none || blk = some w.2) then { st with waits := none } else st
    | none => st }

/-- Whether a sink under LATCH waits on an acknowledgement that names this code and index. -/
def Chip.sinkWaits (c : Chip) (code : Nat) (blk : Option Nat) : Bool :=
  c.graph.sink.any fun q => match q.2.waits with
    | some w => latched c.sys.now.items q.1 q.2 && w.1 = code && (blk = none || blk = some w.2)
    | none => false

end Sys2Proof.Machine
end

