-- ==== Sys2Proof/Machine/Serial.lean ====
section
/-! DEFINITION. The serial ports (08): formats, clock starts, lead frames and zero-crossing waits, masks, frames on the
wire, non-audio muting, clock holds. -/

namespace Sys2Proof.Machine

/-- The format that pressed items give port p (08 R243). -/
def sapFmt (items : Items) (p : Nat) : SapFmt :=
  let g := fun f => (itemIn items (item 0x09 p f)).toNat
  { enable := g 1 = 1, bits := g 2, width := g 3, offset := g 4, slots := g 5, half := g 8 = 1, low := g 9 = 1,
    rise := g 10 = 1, hiz := g 11 = 1, seam := g 12, zk7 := g 13 = 1, leadFrames := g 14 }

/-- The masks that pressed items give port p: receive, transmit. -/
def sapMask (items : Items) (tx : Bool) (p : Nat) : Nat := (itemIn items (item 0x09 p (if tx then 7 else 6))).toNat

/-- The format and the masks obey R228. -/
def sapFormatOk (p : Profile) (f : SapFmt) (rx tx : Nat) : Bool :=
  f.bits * fsOf p ≤ 49152000 && f.offset + f.slots * f.width ≤ f.bits && !(f.half && f.bits % 2 = 1) &&
    rx < 2 ^ f.slots && tx < 2 ^ f.slots

/-- Port q is enabled with a format or masks that break R228. -/
def sapBroken (p : Profile) (items : Items) (q : Nat) : Bool :=
  (sapFmt items q).enable && !sapFormatOk p (sapFmt items q) (sapMask items false q) (sapMask items true q)

/-- Two enabled members of one seam group differ in lead_frames or start_mode (08 R235). -/
def sapSeamBad (items : Items) : Bool :=
  let fs := (List.range 16).map (sapFmt items)
  fs.any fun a => fs.any fun b =>
    a.enable && b.enable && a.seam ≠ 0 && a.seam = b.seam && (a.leadFrames ≠ b.leadFrames || a.zk7 ≠ b.zk7)

/-- MOD clocks per sample (08 R225). -/
def modPerSample (p : Profile) : Nat := if fsOf p = 96000 then 4096 else 8192

/-- The divider (08 R227): INT and FRAC. -/
def sapDivider (p : Profile) (bits : Nat) : Nat × Nat :=
  let m := modPerSample p
  let i := m / bits
  let f := (roundDiv ((m % bits) * 65536 : Nat) bits).toNat
  if f = 65536 then (i + 1, 0) else (i, f)

/-- The enabled slots of a mask, ascending: channel c is at position c (08 R231). -/
def slotsOf (mask : Nat) : List Nat := indices 32 (mask.testBit ·)

/-- The `n` lowest-numbered set bits of a mask (08 R241). -/
def trimMask (n mask : Nat) : Nat := packBits 32 fun i => mask.testBit i && (slotsOf (mask % 2 ^ i)).length < n

/-- The mask in force from pressed items: a mask that enables more slots than the profile allows keeps its lowest (08 R241). -/
def sapLive (p : Profile) (items : Items) (tx : Bool) (q : Nat) : Nat := trimMask (sapCh p) (sapMask items tx q)

/-- The ports' clocks run. -/
def SapPort.running (x : SapPort) : Bool := x.st ≠ .stopped && x.st ≠ .clockHold

/-- The pins of port p at rest (08 R234, R239); the inactive level of BCLK is free (log 78). -/
def Chip.sapIdle (p : Nat) (fmt : SapFmt) (c : Chip) : Chip :=
  c.emit (.sapIdle p (Config.bclkIdle fmt.rise) fmt.low (if fmt.hiz then none else some false))

/-- Runs `f` and shows the pins of every port that it leaves at rest otherwise than it found it. -/
def Chip.sapShow (f : Chip → Chip) (c : Chip) : Chip :=
  let c' := f c
  (c.sap.ports.zip c'.sap.ports).zipIdx.foldl (fun c q =>
    if !q.1.2.running && (q.1.1.running || q.1.1.fmt ≠ q.1.2.fmt) then c.sapIdle q.2 q.1.2.fmt else c) c'

/-- A wait at frame f for every slot of a mask. -/
def waitAll (mask f : Nat) : Map Nat := (slotsOf mask).map fun s => (s, f)

/-- Data passes for the first time since the latest start. -/
def SapPort.passed (n : Nat) (x : SapPort) : SapPort :=
  if x.dataSeen then x else { x with dataSeen := true, dataFrame := n }

/-- The state a port that passes some data shows. -/
def SapPort.settled (x : SapPort) : SapPort :=
  if x.st = .zcWait && x.rxWait.isEmpty && x.txWait.isEmpty then { x with st := .run } else x

/-- The muted pairs whose slots a receive mask both enables: the others are released (08 R242). -/
def keepPairs (rx : Nat) (m : Map Nat) : Map Nat := m.filter fun q => rx.testBit (2 * q.1) && rx.testBit (2 * q.1 + 1)

/-- Clocks start at frame f with the given format and masks (08 R233, R236, R238). -/
def SapPort.start (p : Profile) (fmt : SapFmt) (rx tx f : Nat) (x : SapPort) : SapPort :=
  let x := { x with
    fmt := fmt, rxMask := rx, txMask := tx, div := sapDivider p fmt.bits, startFrame := f, frame := f,
    restarts := x.restarts + 1, dataSeen := false, formatErr := false,
    rxWait := if fmt.zk7 then waitAll rx f else [], txWait := if fmt.zk7 then waitAll tx f else [],
    rxLast := [], txLast := [], pairs := keepPairs rx x.pairs, st := if fmt.zk7 then .zcWait else .lead }
  x.settled

/-- Clocks stop (08 R234). -/
def SapPort.stop (x : SapPort) : SapPort := { x with st := .stopped, rxWait := [], txWait := [] }

/-- Clocks stop on a clock error (08 R239). -/
def SapPort.hold (x : SapPort) : SapPort :=
  if x.st = .stopped then x else { x with st := .clockHold, rxWait := [], txWait := [] }

/-- New masks at frame f (08 R232, R236, R238, R242): newly enabled slots wait under ZK7, disabled ones leave. -/
def SapPort.remask (rx tx f : Nat) (x : SapPort) : SapPort :=
  let keep := fun (mask : Nat) (m : Map Nat) => m.filter fun q => mask.testBit q.1
  let add := fun (old new : Nat) (m : Map Nat) =>
    if x.fmt.zk7 then (slotsOf new).foldl (fun m s => if old.testBit s then m else mset m s f) m else m
  let x' := { x with
    rxMask := rx, txMask := tx,
    rxWait := add x.rxMask rx (keep rx x.rxWait), txWait := add x.txMask tx (keep tx x.txWait),
    pairs := keepPairs rx x.pairs }
  if x.st = .run && !(x'.rxWait.isEmpty && x'.txWait.isEmpty) then { x' with st := .zcWait } else x'.settled

/-- The fields whose change restarts a port. -/
def SapFmt.restartKey (f : SapFmt) : SapFmt := { f with hiz := false }

/-- Port p is restarted or started by a press: a restart item of an enabled port changed (08 R233). -/
def sapStarts (old new : Items) (p : Nat) : Bool :=
  (sapFmt new p).enable && (sapFmt new p).restartKey ≠ (sapFmt old p).restartKey

/-- The slots of a stopping port that still send: those that a mask keeps (08 R237). -/
def keepWaits (mask : Nat) (m : Map Nat) : Map Nat := m.filter fun q => mask.testBit q.1

/-- A ZK7 port disabled at frame f (08 R237): its transmit channels send on, each until its own crossing; a channel that
still waited sends 0 already, and one whose slot the new mask leaves out leaves at f. -/
def SapPort.wane (rx tx f : Nat) (x : SapPort) : SapPort :=
  { x with
    fmt := { x.fmt with enable := false }, st := .stopping, rxMask := rx, txMask := tx, rxWait := []
    txWait := keepWaits tx ((waitAll x.txMask f).filter fun q => (mget? x.txWait q.1).isNone)
    pairs := keepPairs rx x.pairs }

/-- The effect of a press that lands at L on the ports (08 R232 to R238); ports in CLOCK_HOLD store it (R239). -/
def Chip.sapLand (old new : Items) (L : Nat) (c : Chip) : Chip :=
  c.sapShow fun c =>
  let p := c.prof
  let f := L * c.B
  let groups := ((List.range 16).filter (sapStarts old new)).map fun q => (sapFmt new q).seam
  c.onSap fun s => { s with
    ports := s.ports.mapIdx fun q x =>
    let fmt := sapFmt new q
    let rx := sapLive p new false q
    let tx := sapLive p new true q
    if x.st = .clockHold then x
    else if fmt.enable then
      if sapStarts old new q || (fmt.seam ≠ 0 && groups.contains fmt.seam) then x.start p fmt rx tx f
      else
        let x := { x with fmt := { x.fmt with hiz := fmt.hiz } }
        if x.st = .stopped then x
        else if rx ≠ x.rxMask || tx ≠ x.txMask then x.remask rx tx f else x
    else
      match x.st with
      | .stopped => { x with fmt := fmt, rxMask := rx, txMask := tx, formatErr := false, pairs := keepPairs rx x.pairs }
      | .stopping => { x with
          fmt := { x.fmt with hiz := fmt.hiz }, rxMask := rx, txMask := tx, txWait := keepWaits tx x.txWait
          pairs := keepPairs rx x.pairs }
      | _ =>
        if x.fmt.zk7 then { x with fmt := { x.fmt with hiz := fmt.hiz } }.wane rx tx f
        else { x.stop with fmt := fmt, rxMask := rx, txMask := tx, pairs := keepPairs rx x.pairs } }

/-- The frames of graph block n begin at n x B (08 R226); what was captured in other blocks than the last is over. -/
def Chip.sapAlign (n : Nat) (c : Chip) : Chip :=
  let b := c.B
  let late := fun (q : Nat × Map Smp) => q.1 < n * b && decide (n * b ≤ q.1 + b)
  c.onSap fun s => { s with ports := s.ports.map fun x =>
    let x := { x with captured := x.captured.filter late }
    if x.running then { x with frame := n * b } else x }

/-- Frames in the zero-crossing timeout. -/
def zcFrames (p : Profile) (us : Nat) : Nat := ceilDiv (us * fsOf p) 1000000

/-- A wait ends by a crossing (08 R236): not at the frame where it began. -/
def crossed (began n : Nat) (prev : Option Int) (v : Int) : Bool :=
  began < n && (v = 0 || match prev with | some q => decide ((q < 0) ≠ (v < 0)) | none => false)

/-- Counts timeouts of a port (08 R236). -/
def Chip.sapTimeouts (p k : Nat) (c : Chip) : Chip :=
  if k = 0 then c
  else
    (c.onSap fun s => { s with ports := lmod s.ports p fun x => { x with
      zcTimeouts := x.zcTimeouts + BitVec.ofNat 32 k, zcSeen := true } }).raiseFirst 0x0C04 .note p p

/-- The waits of one direction at frame n: those that stay, and how many timed out. -/
def stepWaits (limit n : Nat) (last now : Map Int) (waits : Map Nat) : Map Nat × Nat :=
  waits.foldl (fun (a : Map Nat × Nat) q =>
    if crossed q.2 n (mget? last q.1) (mget now q.1 0) then a
    else if q.2 + limit ≤ n then (a.1, a.2 + 1)
    else (a.1 ++ [q], a.2)) ([], 0)

/-- The 24-bit sample that port p's transmit slot would carry in frame n: none played is 0. -/
def Chip.sapTx (c : Chip) (p n : Nat) (x : SapPort) (slot : Nat) : Int :=
  let ch := ((slotsOf x.txMask).takeWhile (· < slot)).length
  if c.sap.play.1 = n / c.B && !c.sys.xqSilent.getLsbD 4 then
    (to24 ((mget c.sap.play.2 (2048 + 32 * p + ch) []).getD (n % c.B) {})).v
  else 0

/-- The entry word of receive slot s (08 R229, R230): the bits of its bit clocks, MSB first, left-justified. `din` holds DIN as
sampled in each bit clock of the frame. -/
def entryWord (fmt : SapFmt) (din : List Bool) (s : Nat) : Word :=
  (List.range fmt.width).foldl (fun w b =>
    if din.getD (fmt.offset + s * fmt.width + b) false then w ||| BitVec.ofNat 32 (2 ^ (31 - b)) else w) 0

/-- The non-audio state of the pairs after a frame (08 R242): pairs, and how many were detected. -/
def stepPairs (hold : Nat) (x : SapPort) (words : Nat → Word) : Map Nat × Nat :=
  (List.range 16).foldl (fun (a : Map Nat × Nat) k =>
    let on := x.rxMask.testBit (2 * k) && x.rxMask.testBit (2 * k + 1) && 16 ≤ x.fmt.width
    let hit := on && (words (2 * k)).toNat / 65536 = 0xF872 && (words (2 * k + 1)).toNat / 65536 = 0x4E1F
    if hit then (mset a.1 k 0, a.2 + 1)
    else match mget? x.pairs k with
      | none => a
      | some m => if hold ≤ m then a else (mset a.1 k (m + 1), a.2)) ([], 0)

/-- The bits of one frame on the wire (08 R227, R229, R230), from the slot words of the transmit slots. -/
def sapWire (p : Profile) (fmt : SapFmt) (words : Map Int) : List SapBit :=
  let d := sapDivider p fmt.bits
  let begins := fun k => if fmt.bits ≤ k then modPerSample p else k * (d.1 * 65536 + d.2) / 65536
  (List.range fmt.bits).map fun k =>
    let act := if fmt.half then k < fmt.bits / 2 else k = 0
    let bit : Option Bool :=
      if fmt.offset ≤ k && k < fmt.offset + fmt.slots * fmt.width then
        match mget? words ((k - fmt.offset) / fmt.width) with
        | some v =>
          let b := (k - fmt.offset) % fmt.width
          some (if b < 24 then (pattern 24 v).testBit (23 - b) else false)
        | none => if fmt.hiz then none else some false
      else if fmt.hiz then none else some false
    { start := begins k, launch := (begins (k + 1) - begins k) / 2, bclk := fmt.rise, fs := decide act != fmt.low, dout := bit }

/-- Runs the next frame of port p with what DIN carries in each of its bit clocks. -/
def Chip.sapFrame (p : Nat) (din : List Bool) (c : Chip) : Chip :=
  let x := c.sap.ports.getD p {}
  let put := fun (y : SapPort) (c : Chip) => c.onSap fun s => { s with ports := s.ports.set p y }
  if !x.running then c
  else if x.st = .stopping && x.txWait.isEmpty then c.sapShow (put x.stop)
  else
    let n := x.frame
    let limit := zcFrames c.prof (c.itN (item 0x09 p 0x0F))
    let x := if x.st = .lead && x.startFrame + x.fmt.leadFrames ≤ n then { x with st := .run } else x
    let lead := x.st = .lead
    -- receive
    let words := entryWord x.fmt din
    let rxNow : Map Int := (slotsOf x.rxMask).map fun s => (s, (enter (words s)).v)
    let rw := stepWaits limit n x.rxLast rxNow x.rxWait
    let hold := c.itN (item 0x09 p 0x11)
    let na := if c.itB (item 0x09 p 0x10) then stepPairs hold x words else ([], 0)
    let open_ : List (Nat × Nat) := if lead || x.st = .stopping then [] else
      ((slotsOf x.rxMask).zipIdx).filter fun s => (mget? rw.1 s.1).isNone && (mget? na.1 (s.1 / 2)).isNone
    let cap : Map Smp := open_.map fun s => (s.2, enter (words s.1))
    -- transmit
    let txNow : Map Int := (slotsOf x.txMask).map fun s => (s, c.sapTx p n x s)
    let tw := stepWaits limit n x.txLast txNow x.txWait
    let sends := fun s => if x.st = .stopping then (mget? tw.1 s).isSome else !lead && (mget? tw.1 s).isNone
    let out : Map Int := txNow.map fun q => (q.1, if sends q.1 then q.2 else 0)
    let passing := !lead && x.st ≠ .stopping && (!cap.isEmpty || (slotsOf x.txMask).any sends || (x.rxMask = 0 && x.txMask = 0))
    let y := { x with
      rxWait := rw.1, txWait := tw.1, rxLast := rxNow, txLast := txNow, frame := n + 1, pairs := na.1,
      nonaudioEvents := x.nonaudioEvents + BitVec.ofNat 32 na.2, nonaudioSeen := x.nonaudioSeen || 0 < na.2,
      captured := mset (x.captured.filter fun q => n < q.1 + 4 * c.B) n (if c.sys.xqSilent.getLsbD 1 then [] else cap) }
    let y := (if passing then y.passed n else y).settled
    let c := (put y c).sapTimeouts p (rw.2 + tw.2)
    let c := if 0 < na.2 then c.raiseFirst 0x0C03 .note p p else c
    c.emit (.sap p n (sapWire c.prof x.fmt out))

/-- The samples of the serial channels captured during block m, by source number; a sample that a channel did not pass
counts as not delivered, and a channel that passed none is not listed (08 R226, R233, R236). -/
def Chip.sapSources (m : Nat) (c : Chip) : Map (List Smp) :=
  let b := c.B
  let xs := (c.sap.ports.zipIdx).flatMap fun px =>
    let fs := (List.range b).map fun i => mget px.1.captured (m * b + i) []
    let chans := indices 32 fun ch => fs.any fun f => (mget? f ch).isSome
    chans.map fun ch => (2048 + 32 * px.2 + ch, fs.map fun f => mget f ch undelivered)
  xs

/-- The clock error stops every port (08 R239). -/
def Chip.sapClockError (c : Chip) : Chip :=
  let hit := c.sap.ports.any fun x => x.st ≠ .stopped && x.st ≠ .clockHold
  let c := c.sapShow (Chip.onSap fun s => { s with ports := s.ports.map SapPort.hold })
  if hit then c.raise 0x0C01 .note else c

/-- The absolute index of the sample period under way (03 R72). -/
def Chip.sampleNow (c : Chip) : Nat := (c.nowNs - c.epoch * 10 ^ 9) * fsOf c.prof / 10 ^ 9

/-- Port q with the stored items: its clocks start at frame f, but a port that is disabled, or whose stored format breaks
R228 in the profile, is STOPPED (08 R239, R241). -/
def SapPort.startStored (p : Profile) (items : Items) (q f : Nat) (x : SapPort) : SapPort :=
  let fmt := sapFmt items q
  let rx := sapLive p items false q
  let tx := sapLive p items true q
  if sapBroken p items q then { x.stop with formatErr := true }
  else if fmt.enable then x.start p fmt rx tx f
  else { x.stop with fmt := fmt, rxMask := rx, txMask := tx, formatErr := false, pairs := keepPairs rx x.pairs }

/-- The ports in CLOCK_HOLD restart with the stored items at the first frame after qualification (08 R239). -/
def Chip.sapQualified (c : Chip) : Chip :=
  let hit := c.sap.ports.any fun x => x.st = .clockHold
  let f := c.sampleNow + 1
  let c' := c.sapShow fun c => c.onSap fun s => { s with
    ports := s.ports.mapIdx fun q x => if x.st = .clockHold then x.startStored c.prof c.sys.now.items q f else x }
  if hit then c'.raise 0x0C02 .note else c'

/-- Every port stops its clocks at the tick that ends the old profile (08 R241). -/
def Chip.sapColdStop (c : Chip) : Chip :=
  c.sapShow (Chip.onSap fun s => { s with ports := s.ports.map fun x =>
    { (if x.st = .clockHold then x else x.stop) with captured := [] } })

/-- Every enabled port restarts 6 ms before tick A of the new profile (08 R241). -/
def Chip.sapColdStart (A : Nat) (c : Chip) : Chip :=
  let p := c.prof
  let items := c.sys.now.items
  let f := A * c.B - 6 * fsOf p / 1000
  let trims := fun q => [false, true].any fun tx => sapLive p items tx q ≠ sapMask items tx q
  let hit := (List.range 16).any fun q => sapBroken p items q || trims q
  let c' := c.sapShow fun c => c.onSap fun s => { s with
    ports := s.ports.mapIdx fun q x => if x.st = .clockHold then x else x.startStored p items q f }
  if hit then c'.raise 0x0C05 .note else c'

/-! The commands -/

/-- Lead frames end when frame F + lead_frames is the next frame (08 R233). -/
def execLeadFramesEnd (p : Fin 16) (s : State) : Host.Outcome State Fault Refusal :=
  act (Chip.onSap fun u => { u with
    ports := lmod u.ports p.val fun x =>
    if x.st = .lead && x.startFrame + x.fmt.leadFrames ≤ x.frame then ({ x with st := .run }).passed x.frame else x }) s

/-- The slot of a compacted channel. -/
def slotOf (mask ch : Nat) : Nat := (slotsOf mask).getD ch 32

/-- Ends the wait of one channel at the next frame. -/
def SapPort.endWait (tx : Bool) (ch : Nat) (x : SapPort) : SapPort :=
  let waits := if tx then x.txWait else x.rxWait
  let slot := slotOf (if tx then x.txMask else x.rxMask) ch
  if (mget? waits slot).isNone then x
  else
    let x := if tx then { x with txWait := mdel x.txWait slot } else { x with rxWait := mdel x.rxWait slot }
    if x.st = .stopping then x else (x.passed x.frame).settled

/-- The clocks of a stopping port stop (08 R237). -/
def execSapStoppingEnd (p : Fin 16) (s : State) : Host.Outcome State Fault Refusal :=
  act (Chip.sapShow (Chip.onSap fun u => { u with
    ports := lmod u.ports p.val fun x => if x.st = .stopping && x.txWait.isEmpty then x.stop else x })) s

end Sys2Proof.Machine
end

