-- ==== Sys2Proof/Machine/Inputs.lean ====
section
/-! DEFINITION. The AIN block (09): insertion, accessory class, buttons, contacts, mains, battery, rails, PSU_ALERT_N. -/

namespace Sys2Proof.Machine

def Chip.ainIn (c : Chip) (n : Nat) : AinIn := c.ain.ins.getD n {}
def Chip.onAinIn (n : Nat) (f : AinIn → AinIn) (c : Chip) : Chip :=
  c.onAin fun a => { a with ins := lmod a.ins n f }
def Chip.onContact (k : Nat) (f : Contact → Contact) (c : Chip) : Chip :=
  c.onAin fun a => { a with contacts := lmod a.contacts k f }

/-- What a signal is reported as: the CHATTER guard holds the state it had (09 R253). -/
def Deb.reported (d : Deb) : Bool := match d.chatter with | some q => q.1 | none => d.state

/-- Insertion as reported. -/
def AinIn.inserted (x : AinIn) : Bool := x.det.reported

/-- Button k as reported: in every class but CALL_STATION released (09 R252); STUCK reads released (09 R253). -/
def AinIn.button (x : AinIn) (k : Nat) : Bool := x.cls = 3 && !x.stuck.getLsbD k && (x.buttons.getD k {}).reported

/-- Bias is applied (09 R249, R250): mode 0 OFF, 1 ON, 2 AUTO. -/
def Chip.biasOn (n : Nat) (c : Chip) : Bool :=
  let x := c.ainIn n
  let mode := c.itN (item 0x0A n 2)
  !x.removed && !x.overload && (mode = 1 || (mode = 2 && (x.cls = 2 || x.cls = 3)))

/-! The speech rate converter (07 R206) -/

/-- Fallback channel n at absolute index a: whether it is enabled, its lag in speech samples and its buffer. Before the block of
a press that changes it, they are those of before (07 R207). -/
def Chip.speechAt (n a : Nat) (c : Chip) : Bool × Nat × Map Int :=
  let x := c.drop.speech.getD n {}
  let now := (decide (c.itN (item 0x0E 0 (0x20 + n)) ≠ 0), c.itN (item 0x0E 0 3) + 24, x.buf)
  match x.was with
  | some w => if a < w.1 * c.B then w.2 else now
  | none => now

/-- Output of the converter of channel n at absolute index a; none where no accepted frame brought the sample. It depends on
the received samples and nothing else; how far its filter reaches is the model's choice (log 14). -/
def Chip.speechOut (n a : Nat) (c : Chip) : Option (BitVec 24) :=
  let fac := fsOf c.prof / 16000
  let x := c.speechAt n a
  let lag := x.2.1
  let buf := x.2.2
  let m := a / fac - lag
  if a / fac < lag || (mget? buf m).isNone then none
  else some (Config.speechSample ((List.range 49).map fun j => if m + j < 24 then none else mget? buf (m + j - 24)) (a % fac))

/-- What the last-resort path reads. -/
def Chip.speechValue (n a : Nat) (c : Chip) : Int :=
  if (c.speechAt n a).1 then match c.speechOut n a with
    | some w => w.toInt * 16
    | none => 0
  else 0

/-- The candidate class of a reading in ohms (09 R251). -/
def classOf (inserted : Bool) (rc rd : Nat) : Nat :=
  if !inserted then 0
  else if rd < 20 ∨ rc < 500 then 5
  else if 15500 ≤ rc ∧ rc ≤ 31500 then 3
  else if 500 ≤ rc ∧ rc < 12000 then 2
  else if rd < 2000 ∧ 100000 ≤ rc then 1
  else 4

/-- The decoded ladder (09 R252): bits 0 to 3 of q, or none for an invalid scan. -/
def ladder (rc : Nat) : Option Nat :=
  let q := roundDiv ((rc : Int) - 16000) 1000
  if ((rc : Int) - 16000 - q * 1000).natAbs ≤ 300 then some (q % 16).toNat else none

/-- One scan of a two-state signal. -/
def Deb.scan (shows : Bool) (d : Deb) : Deb :=
  if shows = d.state then { d with count := 0 } else { d with count := min 20 (d.count + 1) }

/-- Changes within the last 1000 scans. -/
def recent (scan : Nat) (l : List DebChange) : List DebChange := l.filter fun q => scan < q.scan + 1000

/-- How many of them 20 scans decided. -/
def changesIn (scan : Nat) (l : List DebChange) : Nat := ((recent scan l).filter (·.counted)).length

/-- The debounced state changes: the guard may start, and holds the state at the start of the last 1000 scans (09 R253). The
flag tells that it did. -/
def Deb.flip (scan limit : Nat) (stuck : Bool) (d : Deb) : Deb × Bool :=
  let ch := { scan := scan, before := d.state && !stuck } :: recent scan d.changes
  let d' := { d with state := !d.state, count := 0, changes := ch, since := scan }
  if d.chatter.isNone && limit < changesIn scan ch then
    ({ d' with chatter := some ((ch.getLast?.map (·.before)).getD d.state, scan + 10000) }, true)
  else (d', false)

/-- A button of an input that leaves CALL_STATION is released (09 R252). -/
def Deb.release (scan : Nat) (stuck : Bool) (d : Deb) : Deb :=
  if d.state then { d with
    state := false, count := 0, since := scan
    changes := { scan := scan, before := !stuck, counted := false } :: recent scan d.changes }
  else { d with count := 0 }

/-- The guard ends, or extends by 10 s (09 R253). -/
def Deb.unguard (scan limit : Nat) (d : Deb) : Deb :=
  match d.chatter with
  | none => d
  | some q =>
    if scan < q.2 then d
    else if changesIn scan d.changes ≤ limit then { d with chatter := none }
    else { d with chatter := some (q.1, q.2 + 10000) }

/-- The class in force: NONE while not inserted (09 R251); outside CALL_STATION every button is released (09 R252). -/
def AinIn.settle (scan : Nat) (x : AinIn) : AinIn :=
  let x := if x.inserted then x else { x with cls := 0, cand := (0, 0) }
  if x.cls = 3 then x
  else { x with buttons := x.buttons.mapIdx fun k b => b.release scan (x.stuck.getLsbD k), stuck := 0 }

/-- A reported state of input n changed (09 R254). -/
def Chip.ainEvent (bit : Nat) (c : Chip) : Chip :=
  c.onAin fun a => { a with event := a.event ||| BitVec.ofNat 32 (2 ^ bit), eventBlk := a.scanBlk }

/-- Records an event where what is reported of input n changed. -/
def Chip.ainReport (n : Nat) (before : AinIn) (c : Chip) : Chip :=
  let x := c.ainIn n
  let same := x.inserted = before.inserted && x.cls = before.cls &&
    (List.range 4).all fun k => x.button k = before.button k
  if same then c else c.ainEvent n

/-- The conditions that hold now, as ain.psu_alert_mask numbers them (09 R260). -/
def Chip.psuConditions (c : Chip) : Nat :=
  let a := c.ain
  b2n a.mainsFail + 2 * b2n a.low.on + 4 * b2n a.critical.on + 8 * b2n (a.rails.any fun r => r.out)

/-- PSU_ALERT_N is driven at once; it is released in a scan only (09 R260). -/
def Chip.psuAlert (release : Bool) (c : Chip) : Chip :=
  let q := c.psuConditions
  let hit := q &&& c.itN (item 0x0A 0x30 0x30) ≠ 0
  c.onAin fun a => { a with psuCause := q, psuAlert := hit || (a.psuAlert && !release) }

/-- A mains, battery or rail condition changed. -/
def Chip.powerEvent (c : Chip) : Chip := (c.ainEvent 17).psuAlert false

/-! Contacts (09 R255) -/

/-- Loop states in order of resistance: SHORT, ACTIVE, NORMAL, OPEN. -/
def loopCode : Nat → Nat
  | 0 => 3 | 1 => 1 | 2 => 0 | _ => 2
def loopRank : Nat → Nat
  | 3 => 0 | 1 => 1 | 0 => 2 | _ => 3

/-- The state of a loop resistance, with 5 % hysteresis about the state held (log 20). -/
def loopState (held r : Nat) : Nat :=
  let k := loopRank held
  let bounds := [500, 4000, 20000]
  let up := (bounds.drop k).filter fun b => b * 105 < r * 100
  let down := (bounds.take k).filter fun b => r * 100 < b * 95
  loopCode (k + up.length - down.length)

/-- One scan of a contact. -/
def Contact.scan (r : Nat) (k : Contact) : Contact :=
  let s := loopState k.cand.1 r
  { k with loop_ := min 0xFFFF r, cand := if s = k.cand.1 then (s, min 20 (k.cand.2 + 1)) else (s, 1) }

/-- What a contact reports after its debounced state or its guard changed: FAULT 0x0D10, NOTE 0x0D11 (09 R256). -/
def Chip.contactReport (k : Nat) (c : Chip) : Chip :=
  let x := c.ain.contacts.getD k {}
  let new := match x.chatter with | some q => q.1 | none => x.deb
  if new = x.st then c
  else
    let bad := fun s => s = 2 || s = 3
    let c := (c.onContact k fun x => { x with st := new }).ainEvent 16
    if bad new then c.raise 0x0D10 .fault k
    else if bad x.st then c.raise 0x0D11 .note k else c

/-! Scans (09 R250, R259) -/

/-- One reading of the battery against a threshold: the node voltage is `num` / 4096 (09 R259). -/
def Cond.scan (num thr : Nat) (q : Cond) : Cond :=
  { q with set := if num < thr * 4096 then min 100 (q.set + 1) else 0
           clear := if thr * 4096 * 101 < num * 100 then min 100 (q.clear + 1) else 0 }

/-- One reading of a rail against its window. -/
def RailSense.scan (num lo hi : Nat) (y : RailSense) : RailSense :=
  let low := num < lo * 4096
  let high := hi * 4096 < num
  { y with
    volts := min 0xFFFF (num / 4096), low := low, high := high
    count := if (low || high) = y.out then 0 else min 3 (y.count + 1) }

/-- The 1 kHz scan. -/
def Chip.ainScan (x : ScanIn) (c : Chip) : Chip :=
  let it := fun f => c.itN (item 0x0A 0x30 f)
  let batt := x.batt.toNat * it 4
  let c := c.onAin fun a => { a with
    scans := a.scans + 1, scanBlk := c.sys.blk
    ins := a.ins.mapIdx fun n y => match x.inputs[n]? with
      | none => y
      | some (closed, rc, rd) =>
        let cand := classOf y.inserted rc rd
        let station := y.cls = 3
        { y with
          det := y.det.scan closed, rc := min 0xFFFF (rc / 10), rd := min 0xFFFF (rd / 10)
          cand := if cand = y.cand.1 then (cand, min 100 (y.cand.2 + 1)) else (cand, 1)
          buttons := if !station then y.buttons else match ladder rc with
            | none => y.buttons.map fun b => { b with count := 0 }
            | some q => y.buttons.mapIdx fun k b => b.scan (!q.testBit k) }
    contacts := a.contacts.mapIdx fun k y => match x.loops[k]? with
      | none => y
      | some r => if c.itB (item 0x0A (0x10 + k) 1) then y.scan r else { y with loop_ := min 0xFFFF r }
    batt := min 0xFFFF (batt / 4096), low := a.low.scan batt (it 5), critical := a.critical.scan batt (it 6)
    rails := a.rails.mapIdx fun r y => match x.rails[r]? with
      | none => y
      | some code => y.scan (code.toNat * it (0x10 + r)) (it (0x18 + r)) (it (0x20 + r)) }
  c.psuAlert true

/-- The samples of the analogue inputs captured during block m, from the 24-bit left-justified words that the converters
gave and the crossing delivered (01 R17, 09 R247, R250). -/
def Chip.ainSources (m : Nat) (words : List (List (Option Word))) (c : Chip) : Map (List Smp) :=
  (words.take 16).mapIdx fun n ws =>
    let x := c.ainIn n
    let mute := if c.itB (item 0x0A n 7) && x.removed then x.mutedFrom else none
    (2560 + n, (List.range c.B).map fun i =>
      match ws[i]?.join with
      | none => undelivered
      | some w => if mute.any (· ≤ m * c.B + i) then {} else enter w)

/-- The effect of a press on the AIN block (09 R249, R256, R260). -/
def Chip.ainLand (old new : Items) (c : Chip) : Chip :=
  let ch := fun id => itemIn old id ≠ itemIn new id
  (c.onAin fun a => { a with
    ins := a.ins.mapIdx fun n x => if ch (item 0x0A n 2) || ch (item 0x0A n 3) then { x with overload := false } else x
    contacts := a.contacts.mapIdx fun k x => if ch (item 0x0A (0x10 + k) 1) then { loop_ := x.loop_ } else x }).psuAlert false

/-! The commands -/

def execAinScan (x : ScanIn) (s : State) : Host.Outcome State Fault Refusal := 
  act (fun c => (c.advance x.t).ainScan x) s

/-- A debounced insertion or removal (09 R250, R253). -/
def execInsertionChange (n : Fin 16) (s : State) : Host.Outcome State Fault Refusal :=
  act (fun c =>
    let x := c.ainIn n.val
    if x.det.count < 20 then c
    else
      let d := x.det.flip c.ain.scans (c.itN (item 0x0A n.val 6)) false
      let first := c.sampleNow + 1
      let c := c.onAinIn n.val fun y =>
        if d.1.state then { y with det := d.1, removed := false, mutedFrom := none, overload := false }
        else { y with det := d.1, removed := true, mutedFrom := some first }
      let c := if d.2 then c.raise 0x0D02 .note n.val else c
      (c.onAinIn n.val (AinIn.settle c.ain.scans)).ainReport n.val x) s

/-- The class reported changes when one candidate has held for 100 ms (09 R251). -/
def execClassChange (n : Fin 16) (s : State) : Host.Outcome State Fault Refusal :=
  act (fun c =>
    let x := c.ainIn n.val
    if x.cand.2 < 100 ∨ x.cand.1 = x.cls ∨ !x.inserted then c
    else
      let c := c.onAinIn n.val fun y => { y with cls := y.cand.1 }.settle c.ain.scans
      let c := if x.cand.1 = 5 then c.raise 0x0D04 .note n.val else c
      c.ainReport n.val x) s

/-- A button's debounced state changes (09 R253). -/
def execButtonChange (n : Fin 16) (k : Fin 4) (s : State) : Host.Outcome State Fault Refusal :=
  act (fun c =>
    let x := c.ainIn n.val
    let b := x.buttons.getD k.val {}
    if b.count < 20 ∨ x.cls ≠ 3 then c
    else
      let d := b.flip c.ain.scans (c.itN (item 0x0A n.val 6)) (x.stuck.getLsbD k.val)
      let c := c.onAinIn n.val fun y => { y with
        buttons := y.buttons.set k.val d.1
        stuck := if d.1.state then y.stuck else y.stuck &&& ~~~(BitVec.ofNat 4 (2 ^ k.val)) }
      let c := if d.2 then c.raise 0x0D02 .note n.val else c
      c.ainReport n.val x) s

/-- A CHATTER guard ends or extends (09 R253, R256). -/
def execChatterEnd (g : ChatterOf) (s : State) : Host.Outcome State Fault Refusal :=
  act (fun c =>
    let now := c.ain.scans
    match g with
    | .button n k =>
      let x := c.ainIn n.val
      let lim := c.itN (item 0x0A n.val 6)
      (c.onAinIn n.val fun y => { y with buttons := lmod y.buttons k.val (Deb.unguard now lim) }).ainReport n.val x
    | .det n =>
      let x := c.ainIn n.val
      let lim := c.itN (item 0x0A n.val 6)
      (c.onAinIn n.val fun y => { y with det := y.det.unguard now lim }.settle now).ainReport n.val x
    | .contact k =>
      let lim := c.itN (item 0x0A (0x10 + k.val) 2)
      (c.onContact k.val fun y =>
        match y.chatter with
        | none => y
        | some q =>
          if now < q.2 then y
          else if (y.changes.filter fun h => now < h.1 + 1000).length ≤ lim then { y with chatter := none }
          else { y with chatter := some (q.1, q.2 + 10000) }).contactReport k.val) s

/-- A button debounced pressed for ain.ptt_max_hold is STUCK (09 R253). -/
def execStuck (n : Fin 16) (k : Fin 4) (s : State) : Host.Outcome State Fault Refusal :=
  act (fun c =>
    let x := c.ainIn n.val
    let b := x.buttons.getD k.val {}
    if b.state && !x.stuck.getLsbD k.val && b.since + 1000 * c.itN (item 0x0A n.val 5) ≤ c.ain.scans then
      ((c.onAinIn n.val fun y => { y with stuck := y.stuck ||| BitVec.ofNat 4 (2 ^ k.val) }).raise 0x0D01 .note n.val).ainReport n.val x
    else c) s

/-- A bias overload switches the bias off (09 R249). -/
def execBiasOverload (n : Fin 16) (s : State) : Host.Outcome State Fault Refusal :=
  act (fun c =>
    if c.biasOn n.val then
      (c.onAinIn n.val fun y => { y with overload := true, biasOvl := true }).raise 0x0D05 .note n.val
    else c) s

/-- The gain moves 1 dB towards its target (09 R248). -/
def execAinGainStep (n : Fin 16) (s : State) : Host.Outcome State Fault Refusal :=
  act (fun c =>
    let t := c.itN (item 0x0A n.val 1)
    c.onAinIn n.val fun y =>
      { y with gain := if y.gain < t then y.gain + 1 else if t < y.gain then y.gain - 1 else y.gain }) s

/-- A contact's debounced state changes after 20 scans (09 R255, R256). -/
def execContactStateChange (k : Fin 32) (s : State) : Host.Outcome State Fault Refusal :=
  act (fun c =>
    let x := c.ain.contacts.getD k.val {}
    if !c.itB (item 0x0A (0x10 + k.val) 1) ∨ x.cand.2 < 20 ∨ x.cand.1 = x.deb then c
    else
      let now := c.ain.scans
      let ch := (now, x.deb) :: x.changes.filter fun h => now < h.1 + 1000
      let y := { x with deb := x.cand.1, changes := ch }
      let y := if y.chatter.isNone && c.itN (item 0x0A (0x10 + k.val) 2) < ch.length
        then { y with chatter := some ((ch.getLast?.getD (0, 0)).2, now + 10000) } else y
      (c.onContact k.val fun _ => y).contactReport k.val) s

/-- MAINS_FAIL is declared (09 R258). -/
def Chip.mainsFails (c : Chip) : Chip :=
  let c' := c.onAin fun a => { a with mainsFail := true, goodSince := none }
  if c.ain.mainsFail then c' else (c'.raise 0x0D20 .fault).powerEvent

/-- A half-cycle ends at a zero crossing (09 R257, R258). `rms` is the RMS voltage at the pin in 0.1 mV. The half-cycle began
at the crossing before, if that one lies less than 15 ms back. -/
def execMainsHalfCycle (rms : Nat) (freq : Option Nat) (t : Nat) (s : State) : Host.Outcome State Fault Refusal :=
  act (fun c =>
    let c := c.advance t
    let late := c.ain.lastZc.any fun z => z + 15 * msClk ≤ t
    let c := if late then c.mainsFails else c
    let v := rms * c.itN (item 0x0A 0x30 1) / 500
    let bad := v < c.itN (item 0x0A 0x30 2) || (match freq with | some f => f < 4500 || 6500 < f | none => false)
    let began := if late then t else c.ain.lastZc.getD t
    let c := c.onAin fun a => { a with
      vrms := min 0xFFF v, freq := match freq with | some f => min 0x1FFF f | none => a.freq
      goodSince := if bad then none else a.goodSince <|> some began, lastZc := some t }
    if bad then c.mainsFails else c) s

/-- 15 ms without a zero crossing (09 R258). -/
def execMainsZcTimeout (t : Nat) (s : State) : Host.Outcome State Fault Refusal :=
  act (fun c =>
    let c := c.advance t
    if c.ain.lastZc.any fun z => z + 15 * msClk ≤ t then c.mainsFails.onAin fun a => { a with lastZc := none } else c) s

/-- MAINS_FAIL clears after unbroken good half-cycles, counted to the latest zero crossing (09 R258). -/
def execMainsRestore (t : Nat) (s : State) : Host.Outcome State Fault Refusal :=
  act (fun c =>
    let c := c.advance t
    match c.ain.mainsFail, c.ain.goodSince with
    | true, some f =>
      if f + c.itN (item 0x0A 0x30 3) * msClk ≤ c.ain.lastZc.getD 0 then
        ((c.onAin fun a => { a with mainsFail := false }).raise 0x0D21 .note).powerEvent
      else c
    | _, _ => c) s

/-- The battery crosses a threshold for 100 readings (09 R259); DETAIL is 0 for both, as the rule names no instance. -/
def execBatteryCondition (critical : Bool) (s : State) : Host.Outcome State Fault Refusal :=
  act (fun c =>
    let q := if critical then c.ain.critical else c.ain.low
    let put := fun (on : Bool) (c : Chip) => c.onAin fun a =>
      if critical then { a with critical := { on := on } } else { a with low := { on := on } }
    if !q.on && 100 ≤ q.set then ((put true c).raise 0x0D22 .fault).powerEvent
    else if q.on && 100 ≤ q.clear then ((put false c).raise 0x0D24 .note).powerEvent
    else c) s

/-- A rail leaves its window or comes back (09 R259). -/
def execRailWindow (r : Fin 8) (s : State) : Host.Outcome State Fault Refusal :=
  act (fun c =>
    let q := c.ain.rails.getD r.val {}
    if q.count < 3 then c
    else
      let c := c.onAin fun a => { a with rails := lmod a.rails r.val fun y => { y with out := !y.out, count := 0 } }
      (if q.out then c.raise 0x0D24 .note r.val else c.raise 0x0D23 .fault r.val).powerEvent) s

end Sys2Proof.Machine
end

