-- ==== Sys2Proof/Machine/Jobs.lean ====
section
/-! DEFINITION. The job table (13 R375 to R381): slot states, the words of a slot, taking and ending jobs. -/

namespace Sys2Proof.Machine

/-- STATE codes (13 R376). -/
def JobSt.code : JobSt → Nat
  | .free => 0 | .queued => 1 | .running => 2 | .partialResult => 3 | .done => 4 | .failed => 5 | .abandoned => 6

/-- The slot holds a job that has not ended, and one that has. -/
def JobSt.live (s : JobSt) : Bool := s = .queued || s = .running || s = .partialResult
def JobSt.ended (s : JobSt) : Bool := s = .done || s = .failed || s = .abandoned

/-- The STATUS word, and words 0x000 to 0x01C of a slot (13 R375). -/
def Job.statusWord (j : Job) : Word := pack [(0, 3, j.st.code), (8, 8, j.fail.toNat), (16, 16, j.seq.toNat)]
def Job.words (j : Job) : List Word :=
  [j.statusWord, pack [(0, 16, j.opcode.toNat)], j.tag, lo32 j.progress, lo32 j.total, lo32 j.result.length,
    lo32 j.startBlk, hi32 j.startBlk]

def Chip.job (c : Chip) (k : Nat) : Job := c.cmd.jobs.getD k {}
def Chip.onJob (k : Nat) (f : Job → Job) (c : Chip) : Chip := c.onCmd fun d => { d with jobs := lmod d.jobs k f }

/-- Slots that hold a live job of an opcode, in order of acceptance. -/
def Chip.liveJobs (op : Nat) (c : Chip) : List Nat :=
  let ks := indices 64 fun k => (c.job k).st.live && (c.job k).opcode.toNat = op
  ks.mergeSort fun a b => (c.job a).order ≤ (c.job b).order
def Chip.hasJob (op : Nat) (c : Chip) : Bool := !(c.liveJobs op).isEmpty

/-- The slot a new job takes: the lowest FREE one, else the one that ended earliest, at least 10 s ago (13 R379). -/
def Chip.slotFor (c : Chip) : Option Nat :=
  match (indices 64 fun k => (c.job k).st = .free).head? with
  | some k => some k
  | none =>
    let old := indices 64 fun k => (c.job k).st.ended && (c.job k).endedAt + 10 * secClk ≤ c.clk
    old.foldl (fun b k => match b with
      | none => some k
      | some q => if (c.job k).endedAt < (c.job q).endedAt then some k else some q) none

/-- A command starts a job in slot k (13 R377). -/
def Chip.takeJob (k opcode : Nat) (tag : Word) (param : List Nat) (total : Nat) (c : Chip) : Chip :=
  let n := c.cmd.nextOrder
  (c.onJob k fun j => {
    st := .queued, seq := j.seq + 1, opcode := BitVec.ofNat 16 opcode, tag := tag, param := param, total := total, order := n }).onCmd
    fun d => { d with nextOrder := n + 1 }

/-- The executor takes the job: it leaves QUEUED in the current block. -/
def Chip.runJob (k : Nat) (c : Chip) : Chip :=
  c.onJob k fun j => if j.st = .queued then { j with st := .running, startBlk := c.sys.blk } else j

/-- Result words become readable. -/
def Chip.partJob (k : Nat) (ws : List Word) (progress : Nat) (c : Chip) : Chip :=
  c.onJob k fun j => if j.st = .running ∨ j.st = .partialResult
    then { j with st := .partialResult, result := j.result ++ ws, progress := max j.progress progress } else j

/-- A live job ends (13 R377), pulsing vector 5 (15 R414). -/
def Chip.endJob (k : Nat) (st : JobSt) (fail : Nat) (ws : List Word) (c : Chip) : Chip :=
  if (c.job k).st.live then
    (c.onJob k fun j => { j with
      st := st, fail := BitVec.ofNat 8 fail, result := j.result ++ ws, endedAt := c.clk,
      progress := if st = .done then max j.progress j.total else j.progress }).pulse 5
  else c

/-- Every live job of some opcodes ends FAILED with NOT_PERMITTED (13 R381). -/
def Chip.failJobs (ops : List Nat) (c : Chip) : Chip :=
  (ops.flatMap fun op => c.liveJobs op).foldl (fun c k => c.endJob k .failed 0x14 []) c

end Sys2Proof.Machine
end

