-- ==== Sys2Proof/Machine/Power.lean ====
section
/-! DEFINITION. The power stage (10): channel states, trips, clock errors, rails, pilot demodulation, line sweep and the
last-resort path. -/

namespace Sys2Proof.Machine

def Chip.modCh (c : Chip) (m : Nat) : ModCh := c.pow.ch.getD m {}
def Chip.onMod (m : Nat) (f : ModCh → ModCh) (c : Chip) : Chip := c.onPow fun p => { p with ch := lmod p.ch m f }
def Chip.onMods (f : Nat → ModCh → ModCh) (c : Chip) : Chip := c.onPow fun p => { p with ch := p.ch.mapIdx f }

/-- An item of channel m, and of rail group k. -/
def Chip.modIt (c : Chip) (m f : Nat) : Nat := c.itN (item 0x0B m f)
def Chip.railIt (c : Chip) (k f : Nat) : Nat := c.itN (item 0x0B (0x40 + k) f)

/-- The switching states (10 R269). -/
def ModSt.switching (s : ModSt) : Bool := s = .rampUp || s = .play || s = .muted || s = .retry || s = .test
/-- The states that a line sweep measures (10 R281). -/
def ModSt.swept (s : ModSt) : Bool := s = .rampUp || s = .play || s = .test
/-- The states whose envelope and pilot windows count (10 R274, R279). -/
def ModSt.counts (s : ModSt) : Bool := s = .rampUp || s = .play || s = .retry || s = .test

/-- -20 dB in Q2.30 (10 R268). -/
def retryGain : Int := 107374182

/-- The clocks are not yet qualified: an error exists, or its 10 ms run, or the tick that follows is to come (10 R272). -/
def Pow.clockHeld (p : Pow) : Bool := p.clkErr || p.clkQual || p.resume

/-- Samples of mod.ramp_up. -/
def Chip.rampLen (c : Chip) (m : Nat) : Nat := c.modIt m 7 * fsOf c.prof / 1000

/-- Enters a state at the present block. -/
def ModCh.enter (st : ModSt) (c : Chip) (x : ModCh) : ModCh :=
  { x with st := st, since := c.sys.blk, sinceClk := c.clk, disabling := false }

/-- RAMP_UP from gain g0 (10 R269). -/
def ModCh.ramp (g0 : Int) (m : Nat) (c : Chip) (x : ModCh) : ModCh :=
  { x.enter .rampUp c with gain := { v0 := g0, v1 := 2 ^ 30, r := c.rampLen m }, lrActive := false }

/-- MUTED: gain 0. -/
def ModCh.mute (c : Chip) (x : ModCh) : ModCh := { x.enter .muted c with gain := Ramp.steady 0, lrActive := false }

/-- The sink of channel m is muted (02 R58). -/
def Chip.modMuted (c : Chip) (m : Nat) : Bool := (mget c.graph.sink (2560 + m) {}).muted

/-- The role of a channel in the safe state (10 R285). -/
def ModCh.safeRole (m : Nat) (c : Chip) (x : ModCh) : ModCh :=
  let x := { x with fromRetry := false }
  if c.modIt m 0x20 ≠ 0 then
    { x.enter .play c with lrActive := true, gain := Ramp.steady (2 ^ 30), lrGain := { v0 := 0, v1 := 2 ^ 30, r := 8 * c.B } }
  else x.mute c

/-- A channel starts switching from off (10 R269). -/
def ModCh.turnOn (m : Nat) (c : Chip) (x : ModCh) : ModCh :=
  if c.err.safe then x.safeRole m c
  else if c.modMuted m then { x.mute c with fromRetry := false } else { x.ramp 0 m c with fromRetry := false }

/-- The outputs go to the off state. -/
def ModCh.off (st : ModSt) (c : Chip) (x : ModCh) : ModCh :=
  { x.enter st c with gain := {}, lrActive := false, extra := none, fromRetry := false, forced := false, drive := [] }

/-- RETRY: -20 dB, pilot on, a measurement over the last 90 ms (10 R269, R270). -/
def ModCh.retry (m : Nat) (c : Chip) (x : ModCh) : ModCh :=
  { x.enter .retry c with
    gain := Ramp.steady retryGain, forced := false
    extra := some { freq := c.modIt m 0x11, first := c.sys.blk + c.W / 100, last := c.sys.blk + c.W / 10 } }

/-- A failed attempt or a trip: TRIPPED, or LOCKED_OUT with its FAULT (10 R269). -/
def Chip.modTripped (m : Nat) (attempt : Bool) (c : Chip) : Chip :=
  let x := c.modCh m
  let n := x.attempts + b2n attempt
  let locked := c.modIt m 6 ≤ n
  let c := c.onMod m fun x => { x.off (if locked then .lockedOut else .tripped) c with attempts := n }
  if locked then c.raise 0x0E02 .fault m else c

/-- The duty of a setpoint in 10 mV (10 R276). -/
def Chip.railDuty (c : Chip) (k set : Nat) : Nat := (roundDiv (set * 1024 : Nat) (10 * c.railIt k 6)).toNat

/-- The hold of a rail group after a trip (10 R277). -/
def Chip.railHold (k : Nat) (c : Chip) : Chip :=
  let s := 10 * c.railIt k 2
  c.onPow fun p => { p with rails := lmod p.rails k fun r => { r with hold := some c.clk, set := s, duty := c.railDuty k s } }

/-- A trip (10 R267). -/
def Chip.modTrip (m : Nat) (driver : Bool) (c : Chip) : Chip :=
  let cause := if driver then 2 else 1
  let x := c.modCh m
  let c := c.onMod m fun x => { x with cause := cause, flt := x.flt || driver }
  if !x.st.switching then c
  else
    let c := (c.modTripped m (x.st = .retry)).railHold (m / 8)
    c.onMod m fun x => { x with unreported := some (cause, c.sys.blk) }

/-- The effect of a press that names the items `ids` on channel m (10 R269, R272). A channel that the ramp to 0 takes out of
TEST leaves the sweep. -/
def Chip.modLand (ids : List Nat) (new : Items) (m : Nat) (c : Chip) : Chip :=
  let b := itemIn new (item 0x0B m 1)
  if !ids.contains (item 0x0B m 1) then c
  else if c.pow.clockHeld then c.onMod m fun x => { x with stored := some (b = 1) }
  else c.onMod m fun x =>
    if b = 1 then
      if x.st.switching && x.disabling then
        if c.err.safe then x.safeRole m c else if c.modMuted m then x.mute c else x.ramp x.gain.last m c
      else if x.st = .off then x.turnOn m c else x
    else
      if x.st.switching then
        if x.disabling then x else { x with disabling := true, gain := { v0 := x.gain.last, v1 := 0, r := 64 } }
      else if x.st = .tripped ∨ x.st = .lockedOut then { x.off .off c with attempts := 0 }
      else x

/-- What a channel does at a tick before it plays: resumption after a clock error or a lost input, forced retries, and
the mute of its sink (10 R269, R272, R273). While the input is lost, states are held. A channel that was muted on its way from
RETRY to PLAY reaches PLAY here. -/
def Chip.modStates (c : Chip) : Chip :=
  let resume := c.pow.resume
  let back := c.pow.inputBack
  let c1 := c.onMods fun m x =>
    let x := if !resume then x else
      let held := x.clkHold
      let stored := x.stored
      let x := { x with clkHold := false, stored := none }
      match stored, held with
      | some false, _ => if x.st = .tripped ∨ x.st = .lockedOut then { x.off .off c with attempts := 0 } else x
      | some true, _ => if x.st = .off then x.turnOn m c else x
      | none, true => x.turnOn m c
      | none, false => x
    let x := if back then
        let on := x.wasOn && x.st.switching && !x.disabling
        let x := { x with wasOn := false }
        if !on then x else if c.err.safe then x.safeRole m c else x.ramp 0 m c
      else x
    let held := c.pow.clkErr || c.pow.clkQual
    if c.pow.inputLost then x else
    let x := if x.forced && (x.st = .tripped || x.st = .lockedOut) && !c.err.safe && !held then x.retry m c else x
    if c.err.safe ∨ x.disabling then x
    else if (x.st = .rampUp || x.st = .play) && c.modMuted m then x.mute c
    else if x.st = .muted && !c.modMuted m then { x.enter .play c with gain := Ramp.steady (2 ^ 30) }
    else x
  let c1 := (List.range 64).foldl (fun c m =>
    let x := c.modCh m
    if x.st = .play && x.fromRetry then (c.onMod m fun x => { x with fromRetry := false }).raise 0x0E03 .note m else c) c1
  let c2 := c1.onPow fun p => { p with resume := false, inputBack := false }
  if resume then c2.raise 0x0E05 .note else c2

/-- Entry to the safe state (10 R285). -/
def Chip.modSafe (c : Chip) : Chip :=
  let c := c.onMods fun m x => if x.st.switching then x.safeRole m c else x
  c.onPow fun p => { p with safeLr := true }

/-- The first tick that brings graph output after SAFE_EXIT (10 R285). -/
def Chip.modSafeEnd (c : Chip) : Chip :=
  let c := c.onMods fun m x => if x.st = .play ∨ x.st = .muted then x.ramp 0 m c else x
  c.onPow fun p => { p with safeLr := false }

/-- The last-resort samples of a channel for one block (10 R284): converter output of the block before, at its gain. -/
def Chip.lrSamples (m n : Nat) (x : ModCh) (c : Chip) : List Int :=
  let ch := c.modIt m 0x20
  let g : Int := roundPow10 (2 ^ 30) (c.it (item 0x0B m 0x21))
  (List.range c.B).map fun i =>
    let s := c.speechValue (ch - 1) ((n - 1) * c.B + i)
    r30 (r30 (s * g) * x.lrGain.now i)

/-- The sweep point of channel m: which one, if the sweep measures the channel. -/
def Chip.pointOf (m : Nat) (c : Chip) : Option Nat :=
  match c.pow.sweep with
  | some w => if w.part.contains m then some w.point else none
  | none => none

/-- The sine of the last-resort point: 20 kHz at mod.pilot_level after mod.lr_gain; none at another time (10 R283). Its phase
is not stated: the model takes that of a generator (log 60). -/
def Chip.lrSine (n m : Nat) (c : Chip) : List Int :=
  if c.pointOf m = some 9 ∧ c.modIt m 0x20 ≠ 0 then
    let a := gain27 (c.it (item 0x0B m 0x12))
    (List.range c.B).map fun i => sineSample (fsOf c.prof) 20000000 a (n * c.B + i)
  else []

/-- The pilot or sweep frequency of channel m in pass 3; none is no pilot (10 R278, R281, R283). -/
def Chip.pilotFreq (m : Nat) (c : Chip) : Option Nat :=
  let x := c.modCh m
  match c.pointOf m with
  | some p => if p < 9 then some (18000000 + 500000 * p) else if c.modIt m 0x20 ≠ 0 then none else plain x
  | none => plain x
where
  plain (x : ModCh) : Option Nat :=
    let measured := match x.job with | some q => q.first ≤ c.sys.blk && c.sys.blk < q.last | none => false
    if c.modIt m 0x10 = 1 || x.st = .retry || measured then some (c.modIt m 0x11) else none

/-- Pilot samples of graph block g. -/
def Chip.pilot (g m : Nat) (c : Chip) : List Smp :=
  match c.pilotFreq m with
  | none => []
  | some f =>
    let a := gain27 (c.it (item 0x0B m 0x12))
    (List.range c.B).map fun i => tagged (sineSample (fsOf c.prof) f a (g * c.B + i))

/-- A channel gain passes a block; a ramp that ended before the block is over. -/
def Ramp.play (r : Ramp) (b : Nat) : Ramp := if r.r ≤ r.j then Ramp.steady r.v1 else { r with j := r.j + b }

/-- The input of channel m for block n (10 R265 step 2, R268, R283). The block with which TEST begins was made in pass 3 before
it: of it the sweep tone alone plays. -/
def Chip.modInput (n m : Nat) (c : Chip) : List Int :=
  let x := c.modCh m
  let sink := (mget c.sap.play.2 (2560 + m) []).map Smp.v
  if x.lrActive then c.lrSamples m n x
  else if c.pow.safeLr then []
  else
    let graph := if x.st = .test ∧ n ≤ x.since + 1 then (c.pilot (n - 3) m).map Smp.v else sink
    let lr := c.lrSine n m
    if lr.isEmpty then graph else lr.mapIdx fun i v => v + graph.getD i 0

/-- The samples of block n after the channel gain (10 R265). -/
def Chip.modAmp (n m : Nat) (c : Chip) : List Int :=
  let x := c.modCh m
  let input := c.modInput n m
  (List.range c.B).map fun i => r30 (input.getD i 0 * x.gain.now i)

/-- The input limit of the closed loop. -/
def clipped (v : Int) : Int := max (-2 ^ 27) (min (2 ^ 27) v)

/-- Samples that the input limit changes. -/
def clipHits (amp : List Int) : Nat := (amp.filter fun v => v ≠ clipped v).length

/-- Clipped samples are counted, and the first in a window noted (10 R265). -/
def Chip.modClips (m hits : Nat) (c : Chip) : Chip :=
  if hits = 0 then c
  else (c.onMod m fun x => { x with clips := x.clips + BitVec.ofNat 32 hits, clipSeen := true }).raiseFirst 0x0E15 .note m m

/-- Channel m plays the samples of its sink for block n (10 R265): selection, channel gain, clipping. While XQ_6 is stopped
nothing plays, and a ramp goes on (10 R273). -/
def Chip.modPlay (n m : Nat) (c : Chip) : Chip :=
  let x := c.modCh m
  if !x.st.switching ∨ c.pow.clockHeld then if x.drive.isEmpty then c else c.onMod m fun x => { x with drive := [] }
  else if c.pow.inputLost then c.onMod m fun x => { x with drive := [], gain := x.gain.play c.B }
  else
    let b := c.B
    let amp := c.modAmp n m
    let c := c.onMod m fun x => { x with drive := amp.map clipped, gain := x.gain.play b, lrGain := x.lrGain.pass b }
    c.modClips m (clipHits amp)

/-- A channel whose gain began a ramp at this tick plays the block with it; `before` clips of it are counted already. -/
def Chip.modReplay (m before : Nat) (c : Chip) : Chip :=
  if c.pow.inputLost ∨ c.pow.clockHeld then c
  else
    let amp := c.modAmp c.sys.blk m
    let c := c.onMod m fun x => { x with drive := amp.map clipped, gain := x.gain.play c.B }
    c.modClips m (clipHits amp - before)

/-! Pilot and demodulation (10 R278, R279) -/

/-- phi of sample n at a frequency in mHz. -/
def phaseOf (fs freq n : Nat) : Nat := ((roundDiv (freq * 2 ^ 32 : Nat) (1000 * fs)).toNat * n) % 2 ^ 32

/-- One block of sense samples into a measurement. -/
def Meas.add (fs n0 : Nat) (ok : Bool) (v i : List Smp) (q : Meas) : Meas :=
  let r := (v.zip i).zipIdx.foldl (fun (a : Meas) s =>
    let phi := phaseOf fs a.freq (n0 + s.2)
    let co := cosTurn phi (2 ^ 32)
    let si := sinTurn phi (2 ^ 32)
    { a with vc := a.vc + s.1.1.v * co, vs := a.vs + s.1.1.v * si, ic := a.ic + s.1.2.v * co, is_ := a.is_ + s.1.2.v * si }) q
  { r with n := r.n + v.length, ok := r.ok && ok }

/-- Whether the angle of (x, y), y taken upwards, is at least k half-hundredths of a degree, for 0 <= k <= 36000. -/
def angleAtLeast (x y : Int) (k : Nat) : Bool :=
  0 ≤ cosTurn k 72000 * y - sinTurn k 72000 * x

/-- The angle of (x, y) in 0.01 degree, rounded once (log 21). -/
def angle (x y : Int) : Int :=
  let half := fun (y : Int) => ((greatest (fun k => k = 0 || (k ≤ 36000 && angleAtLeast x y k)) 16 0 + 1) / 2 : Nat)
  if 0 ≤ y then half y else -(half (-y) : Int)

/-- The phase of a measurement. Where a vector is 0 its argument has no value: free. -/
def Meas.phase (q : Meas) : Int :=
  let x := q.vc * q.ic + q.vs * q.is_
  let y := q.vs * q.ic - q.vc * q.is_
  if x = 0 ∧ y = 0 then ((Config.zeroArg q.vc q.vs q.ic q.is_).val : Int) - 18000 else angle x y

/-- The impedance of a finished measurement (10 R279). -/
def Meas.result (vscale iscale : Nat) (valid retry : Bool) (q : Meas) : ZRes :=
  let i2 := (q.ic ^ 2 + q.is_ ^ 2).toNat
  let v2 := (q.vc ^ 2 + q.vs ^ 2).toNat
  -- 2 |i| / N below 128
  let low := 4 * i2 < (128 * q.n * 2 ^ fxBits) ^ 2
  let blk := q.last - 1
  if low then { mag := 0xFFFFFF, phase := q.phase, open_ := true, valid := valid, retry := retry, blk := blk }
  else
    let num := v2 * (10000 * vscale) ^ 2
    let den := i2 * iscale ^ 2
    let mag := min 0xFFFFFF (greatest (fun r => r = 0 || decide ((2 * r - 1) ^ 2 * den ≤ 4 * num)) 64 0)
    { mag := mag, phase := q.phase, valid := valid, retry := retry, blk := blk }

/-- The pilot windows of channel m take in graph block n, whose sense samples were captured in block `cap` (10 R279, 05
R139). -/
def Chip.modSense (n cap m : Nat) (v i : List Smp) (present : Bool) (c : Chip) : Chip :=
  let x := c.modCh m
  let b := c.B
  let w := max 1 (c.modIt m 0x13 * c.W / 1000)
  let cold := match c.cmd.cold with | some k => decide (k.land + 3 ≤ cap) | none => false
  let ok := x.st.counts && present && !c.pow.clkErr && !cold && c.pow.badBelow ≤ cap
  let step := fun (q : Meas) => if q.first ≤ n && n < q.last then q.add (fsOf c.prof) (n * b) ok v i else q
  let win := if c.modIt m 0x10 = 0 then none
    else if n % w = 0 then some { freq := c.modIt m 0x11, first := n, last := n + w : Meas } else x.win
  let win := win.map step
  let ended := match win with | some q => decide (q.last ≤ n + 1) | none => false
  c.onMod m fun x => { x with
    win := if ended then none else win, done := if ended then win else x.done
    extra := x.extra.map step, point := x.point.map step, job := x.job.map step }

/-- The programme peak in 0.25 dB steps below 0 dBFS (10 R288). -/
def peakCode (p : Nat) : Nat :=
  if p = 0 then 255 else if 2 ^ 27 ≤ p then 0 else grSteps (-(level p)) 1

/-! Rails (10 R274 to R277) -/

/-- K of a chain and filter, as a numerator over 2^57 (10 R274): makeup in Q5.27, filter sum in Q2.30 (log 21). -/
def Chip.envGain (k m : Nat) (c : Chip) : Nat :=
  let mk := if c.it (item 0x05 k 0x20) = 0 then 2 ^ 27 else roundPow10 (2 ^ 27) (c.it (item 0x05 k 0x25))
  let f := (mget c.graph.fir m {}).bank
  let h := if f.mode = 0 then 2 ^ 30
    else total ((List.range (f.len c.prof)).map fun i => (f.coefAt i).natAbs)
  mk * h

/-- The magnitude that a chain's ring will read for graph block g at delay d. -/
def Chip.ringPeak (pages : List Nat) (g d : Nat) (c : Chip) : Nat :=
  let len := pages.length * 4096
  (List.range c.B).foldl (fun a i =>
    let n := g * c.B + i
    let s := ringSample pages ((n + len * (d / len + 1) - d) % len)
    let x := Chip.readSample.sampleAt c (0x30000000 + 8 * s)
    if x.t = 255 then a else max a x.v.natAbs) 0

/-- The envelope of channel m for output block x, over 2^57, as known at tick t (10 R274, R275). -/
def Chip.envelope (m t x : Nat) (c : Chip) : Nat :=
  let ch := c.modCh m
  if !ch.st.counts then 0
  else
    let src := c.itN (item 0x07 (2560 + m) 1)
    if 3584 ≤ src then
      let k := src - 3584
      let st := mget c.graph.chain k {}
      let g := x - 3
      let peak :=
        match st.peaks.find? fun q => q.1 = g with
        | some q => q.2
        | none =>
          if st.pages.isEmpty ∨ g + 2 ≤ t then 0
          else st.dly.codes.foldl (fun a d => max a (c.ringPeak st.pages g d)) 0
      peak * c.envGain k m + (if (c.pilotFreq m).isSome then (gain27 (c.it (item 0x0B m 0x12))).toNat * 2 ^ 57 else 0)
    else if x = t then ch.sinkPeak * 2 ^ 57 else 0

/-- lambda of a channel (10 R275). -/
def Chip.envLead (m : Nat) (c : Chip) : Nat :=
  let src := c.itN (item 0x07 (2560 + m) 1)
  if src < 3584 then 0
  else
    let st := mget c.graph.chain (src - 3584) {}
    let d := st.dly.codes.foldl min (st.dly.codes.headD 0)
    1 + d / c.B

/-- The setpoint of group k at tick t (10 R276). -/
def Chip.railSet (k t : Nat) (c : Chip) : Chip :=
  let r := c.pow.rails.getD k {}
  let ms := (List.range 8).map (8 * k + ·)
  let on := ms.filter fun m => c.modIt m 1 = 1
  let lead := on.foldl (fun a m => min a (c.envLead m)) (c.railIt k 1)
  let need := fun m x => let e := c.envelope m t x
    if e = 0 then 0 else ceilDiv (e * c.modIt m 2) (2 ^ 84)
  let v := fun x => ms.foldl (fun a m => max a (need m x)) 0 + c.railIt k 4
  let top := (List.range (lead + 1)).foldl (fun a i => max a (v (t + i))) 0
  let s := max (10 * top) (r.set - c.railIt k 5)
  let s := min (max s (10 * c.railIt k 2)) (10 * c.railIt k 3)
  let s := if r.hold.isSome then 10 * c.railIt k 2 else s
  let duty := if c.pow.clockHeld then 0 else c.railDuty k s
  c.onPow fun p => { p with rails := p.rails.set k { r with set := s, lead := lead, duty := duty } }

/-- The setpoints of all groups; while XQ_7 is silent they hold (10 R273). -/
def Chip.railsTick (t : Nat) (c : Chip) : Chip :=
  if c.sys.xqSilent.getLsbD 7 then c else (List.range 8).foldl (fun c k => c.railSet k t) c

/-! Clock errors (10 R271, R272) -/

/-- The modulators turn off. -/
def Chip.modClockError (c : Chip) : Chip :=
  let c := c.onMods fun _ x =>
    match x.st with
    | .rampUp | .play | .muted => { x.off .off c with clkHold := !x.disabling }
    | .retry => x.off .tripped c
    | .test => x.off .off c
    | _ => x
  let before := c.pow.clkErr
  let c := c.onPow fun p => { p with
    clkErr := true, clkQual := false, resume := false, clkErrSeen := true, errAt := c.clk
    rails := p.rails.map fun r => { r with duty := 0 }
    sweep := p.sweep.map fun w => { w with part := [] } }
  if before then c else c.raise 0x0E04 .fault

/-- A condition of a clock error stands: the MOD PLL is unlocked, a MEDIA period is out, or XQ_5 is silent (10 R271, 01 R14). -/
def Chip.clockBad (c : Chip) : Bool := !c.clock.modLock || !c.clock.mediaOk || c.sys.xqSilent.getLsbD 5

/-- The last condition has gone: the error ends, and the 10 ms without one begin (10 R272). -/
def Chip.clockEnds (c : Chip) : Chip :=
  if c.pow.clkErr && !c.clockBad then c.onPow fun p => { p with clkErr := false, clkQual := true, errAt := c.clk } else c

/-! The line sweep (10 R281 to R283) -/

/-- Channels that a group sweeps: OFF enters TEST, PLAY and RAMP_UP go on (10 R281). A clock error leaves none (10 R272). -/
def Chip.sweepJoin (c : Chip) (k : Nat) : List Nat :=
  if c.pow.clockHeld then []
  else ((List.range 8).map (8 * k + ·)).filter fun m =>
    let x := c.modCh m
    !x.disabling && (x.st = .off || x.st = .play || x.st = .rampUp)

/-- Channel m has a last-resort channel. -/
def Chip.hasLr (m : Nat) (c : Chip) : Bool := c.modIt m 0x20 ≠ 0

/-- A sweep point begins. The points of a channel in TEST end with the ninth, but for one with a last-resort channel (10 R281,
R283). -/
def Chip.sweepPoint (w : Sweep) (c : Chip) : Chip :=
  let b := c.sys.blk
  let f := if w.point < 9 then 18000000 + 500000 * w.point else 20000000
  let c := w.part.foldl (fun c m => c.onMod m fun x =>
    if w.point < 9 ∨ c.hasLr m then { x with point := some { freq := f, first := b + c.W / 100, last := b + c.W / 10 } }
    else if x.st = .test then { x.off .off c with point := none } else { x with point := none }) c
  c.onPow fun p => { p with sweep := some { w with began := b } }

/-- A group begins: its channels in OFF enter TEST. -/
def Chip.sweepStart (w : Sweep) (c : Chip) : Chip :=
  let c := w.part.foldl (fun c m => c.onMod m fun x =>
    if x.st = .off then { x.enter .test c with gain := Ramp.steady (2 ^ 30) } else x) c
  c.sweepPoint w

/-- The class of a swept channel (10 R282). -/
def Chip.sweepClass (m : Nat) (pts : List (Nat × Bool)) (c : Chip) : SweepRes :=
  let mags := pts.map Prod.fst
  let sum := total mags
  let eol := c.modIt m 0x32
  let at9 := fun i => mags.getD i 0
  let eolOk := eol = 0 || 20 * at9 ((eol - 18000) / 500) ≤ 9 * (at9 0 + at9 8)
  let base := c.modIt m 0x30
  let tol := c.modIt m 0x31
  let cls :=
    if sum < 9 * c.modIt m 8 then 3
    else if pts.any Prod.snd || !eolOk then 2
    else if base ≠ 0 && sum * 100 < 9 * base * (100 - tol) then 4
    else if (base ≠ 0 && 9 * base * (100 + tol) < sum * 100) || 9 * c.modIt m 9 < sum then 5
    else 1
  { cls := cls, eolOk := eolOk, noBaseline := base = 0, mean := (roundDiv (sum : Nat) 9).toNat }

/-- The words MOD_Z_MAG_m, MOD_Z_PHASE_m and MOD_SWEEP_m (10 R288). -/
def ZRes.magWord (z : ZRes) : Word := pack [(0, 24, z.mag), (24, 1, b2n z.valid), (25, 1, b2n z.open_), (26, 1, b2n z.retry)]
def ZRes.phaseWord (z : ZRes) : Word := pack [(0, 16, pattern 16 z.phase)]
def SweepRes.word (r : SweepRes) : Word :=
  pack [(0, 3, r.cls), (3, 1, b2n r.eolOk), (4, 1, b2n r.noBaseline), (5, 1, b2n r.lrTested), (6, 1, b2n r.lrFail), (8, 24, r.mean)]

/-- A group ends: results of its channels (10 R282, R283), and their eleven words each (14 R395). -/
def Chip.sweepResults (w : Sweep) (k : Nat) (c : Chip) : Chip :=
  let c := ((List.range 8).map (8 * k + ·)).foldl (fun c m =>
    let zs := mget w.mags m []
    let r : SweepRes :=
      if !w.part.contains m ∨ zs.length < 9 then { cls := 6, noBaseline := c.modIt m 0x30 = 0 }
      else
        let r := c.sweepClass m ((zs.take 9).map fun z => (z.mag, z.open_))
        match zs[9]? with
        | none => r
        | some q =>
          let ref := (zs.getD 4 {}).mag
          { r with lrTested := true, lrFail := 5 * ref < 100 * ((q.mag : Int) - ref).natAbs }
    let c := c.onMod m fun x => { (if x.st = .test && !x.disabling then x.off .off c else x) with sweep := r, point := none }
    let c := c.partJob w.slot (r.word :: (List.range 10).map fun i => (zs.getD i {}).magWord) 0
    let c := if r.cls ≠ 1 ∧ r.cls ≠ 6 then c.raise 0x0E13 .fault m else c
    if r.lrFail then c.raise 0x0E14 .fault m else c) c
  c.onJob w.slot fun j => { j with progress := 8 * (k + 1) }

/-- The next group begins; groups that the command does not name are SKIPPED without time (14 R394); after the last the
job ends. `n` bounds the groups left. -/
def Chip.sweepGroup : Nat → Sweep → Chip → Chip
  | 0, w, c => (c.onPow fun p => { p with sweep := none }).endJob w.slot .done 0 []
  | n + 1, w, c =>
    let k := 7 - n
    if w.groups.contains k then
      c.sweepStart { w with part := c.sweepJoin k, point := 0, mags := [], groups := w.groups.filter (k ≤ ·), completed := 8 * k }
    else Chip.sweepGroup n w (c.sweepResults { w with part := [], mags := [] } k)

/-! The commands -/

/-- A report of the clock monitors (10 R271): a condition that begins declares a clock error, and one that ends may end it
(log 60). -/
def execClockError (cause : ClockCause) (t : Nat) (s : State) : Host.Outcome State Fault Refusal :=
  act (fun c =>
    let c := c.advance t
    let bad := match cause with
      | .modUnlock => true
      | .modLock => false
      | .mediaRun n => n.toNat < 4146 || 4187 < n.toNat
    let c := { c with clock := match cause with
      | .modUnlock => { c.clock with modLock := false, modUnlockSeen := true }
      | .modLock => { c.clock with modLock := true }
      | .mediaRun n => if bad then { c.clock with mediaRun := n, mediaOk := false, mediaErrSeen := true }
          else { c.clock with mediaRun := n, mediaOk := true } }
    let c := if cause = .modUnlock then c.raise 0x1102 .note else c
    if bad then c.modClockError.sapClockError else c.clockEnds) s

/-- 10 ms without a clock error (10 R272): the clocks are qualified. -/
def Chip.modQualified (c : Chip) : Chip := c.onPow fun p => { p with clkQual := false, resume := true }

def execChannelTrip (m : Fin 64) (driver : Bool) (t : Nat) (s : State) : Host.Outcome State Fault Refusal :=
  act (fun c => (c.advance t).modTrip m.val driver) s

/-- The CORE side records a trip at the first tick after it has crossed XQ_8 (10 R267). -/
def execTripReport (m : Fin 64) (s : State) : Host.Outcome State Fault Refusal :=
  act (fun c => match (c.modCh m.val).unreported with
    | none => c
    | some q =>
      if c.sys.blk ≤ q.2 ∨ c.sys.xqSilent.getLsbD 8 then c
      else
        let c := (c.onMod m.val fun x => { x with unreported := none, trips := x.trips + 1 }).onPow fun p =>
          { p with trip := p.trip ||| BitVec.ofNat 64 (2 ^ m.val) }
        c.raise (if q.1 = 2 then 0x0E06 else 0x0E01) .note m.val) s

/-- The first tick at least mod.retry_interval after the trip (10 R269). -/
def execRetryStart (m : Fin 64) (s : State) : Host.Outcome State Fault Refusal :=
  act (fun c =>
    let x := c.modCh m.val
    if x.st = .tripped && !c.err.safe && !c.pow.clockHeld && !c.pow.inputLost && x.sinceClk + c.modIt m.val 5 * msClk ≤ c.sys.tickAt then
      (c.onMod m.val (ModCh.retry m.val c)).modPlay c.sys.blk m.val
    else c) s

/-- A valid window inside the range clears the impedance alarm (10 R280). -/
def Chip.alarmEnds (m : Nat) (c : Chip) : Chip :=
  if (c.modCh m).zAlarm then (c.onMod m fun x => { x with zAlarm := false }).raise 0x0E12 .note m else c

/-- The block that begins follows one that a cold press makes invalid for measurements (05 R139). -/
def Chip.coldOverlap (c : Chip) : Bool := c.cmd.cold.any fun k => k.land + 3 < c.sys.blk

/-- 100 ms in RETRY have passed (10 R269, R270). One that overlaps the invalid interval of a cold press starts again at tick A;
while the input is lost, states are held (R273). -/
def execRetryEnd (m : Fin 64) (s : State) : Host.Outcome State Fault Refusal :=
  act (fun c =>
    let x := c.modCh m.val
    if x.st ≠ .retry ∨ x.disabling ∨ c.pow.inputLost ∨ c.coldOverlap ∨ c.sys.blk < x.since + c.W / 10 then c
    else
      let before := clipHits (c.modAmp c.sys.blk m.val)
      let q := x.extra.getD { ok := false }
      let z := q.result (c.modIt m.val 2) (c.modIt m.val 3) q.ok true
      let c := c.onMod m.val fun x => { x with z := z, extra := none }
      if z.valid && c.modIt m.val 8 ≤ z.mag && z.mag ≤ c.modIt m.val 9 then
        ((c.onMod m.val fun x => { x.ramp retryGain m.val c with fromRetry := true }).modReplay m.val before).alarmEnds m.val
      else c.modTripped m.val true) s

/-- The gain reached 1.0 before the block that plays (10 R269). -/
def execRampUpComplete (m : Fin 64) (s : State) : Host.Outcome State Fault Refusal :=
  act (fun c =>
    let x := c.modCh m.val
    if x.st = .rampUp && !x.disabling && !c.pow.inputLost && x.gain.r = 0 then
      let c := c.onMod m.val fun x => { x.enter .play c with fromRetry := false }
      if x.fromRetry then c.raise 0x0E03 .note m.val else c
    else c) s

/-- The ramp to 0 of a disable ended before the block that plays (10 R269). -/
def execDisableRampEnd (m : Fin 64) (s : State) : Host.Outcome State Fault Refusal :=
  act (fun c => c.onMod m.val fun x =>
    if x.st.switching && x.disabling && !c.pow.inputLost && x.gain.r = 0 then x.off .off c else x) s

/-- 60 s in PLAY without a trip (10 R269). -/
def execPlayAttemptReset (m : Fin 64) (s : State) : Host.Outcome State Fault Refusal :=
  act (fun c => c.onMod m.val fun x =>
    if x.st = .play && x.since + 60 * c.W ≤ c.sys.blk then { x with attempts := 0 } else x) s

/-- The hold of a rail group ends (10 R277). -/
def execRailTripHoldEnd (k : Fin 8) (t : Nat) (s : State) : Host.Outcome State Fault Refusal :=
  act (fun c =>
    let c := c.advance t
    c.onPow fun p => { p with rails := lmod p.rails k.val fun r => match r.hold with
      | some h => if h + c.railIt k.val 7 * msClk ≤ t then { r with hold := none } else r
      | none => r }) s

/-- Entries of XQ_6 stop: every channel is off, its state held (10 R273). -/
def Chip.inputLose (c : Chip) : Chip :=
  if c.pow.inputLost then c
  else ((c.onMods fun _ x => { x with wasOn := x.st.switching, drive := [] }).onPow fun p => { p with inputLost := true, inputBack := false }).raise 0x0E07 .fault

def execXq6InputLost (t : Nat) (s : State) : Host.Outcome State Fault Refusal :=
  act (fun c =>
    (c.advance t).inputLose) s

/-- Entries of XQ_6 resume: the channels come back at the next tick (10 R273). -/
def Chip.inputResume (c : Chip) : Chip :=
  if c.pow.inputLost then c.onPow fun p => { p with inputLost := false, inputBack := true } else c

def execXq6InputResume (t : Nat) (s : State) : Host.Outcome State Fault Refusal :=
  act (fun c =>
    (c.advance t).inputResume) s

/-- A pilot window ends: results and alarm (10 R279, R280). -/
def execPilotWindowEnd (m : Fin 64) (s : State) : Host.Outcome State Fault Refusal :=
  act (fun c =>
    let x := c.modCh m.val
    match x.done with
    | none => c
    | some q =>
      let z := q.result (c.modIt m.val 2) (c.modIt m.val 3) q.ok false
      let inside := c.modIt m.val 8 ≤ z.mag && z.mag ≤ c.modIt m.val 9
      let c := c.onMod m.val fun x => { x with z := z, done := none }
      if z.valid && x.st = .play && !inside then
        let c' := c.onMod m.val fun x => { x with zAlarm := true }
        c'.raise 0x0E11 .fault m.val
      else if z.valid && inside then c.alarmEnds m.val
      else c) s

/-- A 100 ms sweep point of group k ends (10 R281). A channel that has left the states of a sweep, or is being disabled, is
swept no more (log 64). -/
def execSweepPointEnd (k : Fin 8) (s : State) : Host.Outcome State Fault Refusal :=
  act (fun c => match c.pow.sweep with
    | none => c
    | some w =>
      if w.groups.head? ≠ some k.val ∨ c.sys.blk < w.began + c.W / 10 then c
      else
        let live := fun m => let x := c.modCh m; x.st.swept && !x.disabling
        let mags := (w.part.filter live).foldl (fun a m =>
          match (c.modCh m).point with
          | some e => mset a m (mget a m [] ++ [e.result (c.modIt m 2) (c.modIt m 3) e.ok false])
          | none => a) w.mags
        let w := { w with mags := mags, part := if w.point < 9 then w.part.filter live else w.part, point := w.point + 1 }
        let tenth := ((List.range 8).map (8 * k.val + ·)).any fun m => c.hasLr m
        if w.point < 9 ∨ (w.point = 9 ∧ tenth) then c.sweepPoint w
        else
          let c := c.sweepResults w k.val
          c.sweepGroup (7 - k.val) { w with groups := w.groups.drop 1, completed := w.completed + 8 }) s

end Sys2Proof.Machine
end

