-- ==== Sys2Proof/Machine/Refs.lean ====
section
/-! DEFINITION. Clock references (11): qualification, the drift vote, selection and switching, the DPLL states, holdover and
its model, steering of the PTP time counter. Frequencies are in 0.01 ppb. -/

namespace Sys2Proof.Machine

def Chip.refIn (c : Chip) (x : Nat) : RefIn := c.ref.ins.getD x {}
def Chip.onRefIn (x : Nat) (f : RefIn → RefIn) (c : Chip) : Chip := c.onRef fun r => { r with ins := lmod r.ins x f }

/-- Items of the selector and of PTP (11 R317). -/
def Chip.refSel (c : Chip) (f : Nat) : Nat := c.itN (item 0x0C 0x10 f)
def Chip.ptpIt (c : Chip) (f : Nat) : Int := c.it (item 0x0C 0x20 f)
/-- The GRANDMASTER role is pressed. -/
def Chip.grandmaster (c : Chip) : Bool := c.ptpIt 1 = 1

/-- Edges of WCLK_IN in a second (11 R290, R317). -/
def Chip.wclkRate (c : Chip) : Nat := match c.refSel 0xA with | 0 => fsOf c.prof | 1 => 48000 | _ => 96000

/-- The expected period of an input in CORE clocks (11 R290); for PPS that of REF10M_IN, while PPS_IN has 1 s. -/
def Chip.refPeriod (c : Chip) (x : Nat) : Nat :=
  if x ≤ 2 then secClk / 2 ^ (-(c.ptpIt 3)).toNat
  else if x = 3 then secClk / c.wclkRate
  else 80

/-- A phase against a grid of `rate` marks a second, taken to the nearest mark. -/
def nearest (rate : Nat) (ns : Int) : Int := roundDiv ((ns * rate + 500000000) % 1000000000 - 500000000) rate

/-- Media time minus the time of input x at its latest event, with ref.in_offset (11 R298, R310): of WCLK_IN against the
grid of samples, of PPS against whole seconds. -/
def Chip.refDelta (c : Chip) (x : Nat) : Int :=
  let off := c.it (item 0x0C x 3)
  let d := (c.refIn x).phase
  if x ≤ 2 then d + off else if x = 3 then nearest c.wclkRate (d - off) else if x = 4 then nearest 1 (d - off) else 0

/-- The frequency of input x from its latest gate. -/
def Chip.refFreq (c : Chip) (x : Nat) : Int := if x = 5 then 0 else (c.refIn x).freq.getD 0

/-- The events of input x arrive: for PPS those of both pins (11 R293). -/
def RefIn.arriving (x : Nat) (i : RefIn) : Bool := i.present && (x ≠ 4 || i.pps)

/-- Its deviation does not bar its qualification: one disqualified for DRIFT must lie below ref.warn_ppb (11 R292). -/
def Chip.refCalm (c : Chip) (x : Nat) : Bool :=
  (c.refIn x).cause ≠ 5 || (c.refIn x).qualified || (c.refIn x).dev.natAbs < 100 * c.refSel 1

/-- Media time minus the time of the selected input now, ns (11 R298). -/
def Chip.deltaNow (c : Chip) : Int := c.ref.delta + roundDiv c.ref.moved 10000

/-- |delta| is within ref.lock_window. -/
def Chip.inWindow (c : Chip) : Bool := c.deltaNow.natAbs ≤ c.refSel 6

/-- The second of R302 counts while a complete switch keeps delta in the window. -/
def Chip.lockWatch (c : Chip) : Chip :=
  c.onRef fun r => { r with
    lockSince := if r.st = .acquire && !r.switching && c.inWindow then r.lockSince <|> some c.clk else none }

/-- PTP_INCR at a frequency offset: 1.25 ns in 2^-32 ns (11 R310). -/
def ptpIncr (f : Int) : Nat := (5368709120 + roundDiv (5368709120 * f) (10 ^ 11)).toNat

/-- The points of a history back to the one in force at clock `from_`. -/
def pointsFrom (from_ : Nat) : List (Nat × Int) → List (Nat × Int)
  | [] => []
  | q :: qs => if q.1 ≤ from_ then [q] else q :: pointsFrom from_ qs

/-- The output runs at a frequency; never more than 60 ppm from nominal (11 R299). -/
def Chip.setFreq (f : Int) (c : Chip) : Chip :=
  let f := max (-6000000) (min 6000000 f)
  (c.onRef fun r => { r with
    freq := f
    history := if f = r.freq then r.history else pointsFrom (c.clk - 12 * secClk) ((c.clk, f) :: r.history) }).onPtp fun p =>
    { p with incr := ptpIncr f }

/-- The sum of the frequency over the CORE clocks from `from_` to `to_`; before the oldest point it was nominal. -/
def freqSum (from_ to_ : Nat) : List (Nat × Int) → Int
  | [] => 0
  | q :: qs =>
    q.2 * ((to_ - max from_ q.1 : Nat) : Int) + (if q.1 ≤ from_ then 0 else freqSum from_ (min to_ q.1) qs)

/-- What the output gains on a reference of frequency `f` from CORE clock `from_` until now, in ns: 1.25 ns a clock. -/
def Chip.gained (f : Int) (from_ : Nat) (c : Chip) : Int :=
  roundDiv ((freqSum from_ c.clk c.ref.history - f * ((c.clk - from_ : Nat) : Int)) * 5) (4 * 10 ^ 11)

/-- Media time minus the time of input x now (11 R298, R307): its latest event, and the drift since. -/
def Chip.refDeltaNow (c : Chip) (x : Nat) : Int :=
  let i := c.refIn x
  if 5 ≤ x then 0 else c.refDelta x + c.gained (c.refFreq x) (if x = 4 then i.ppsAt else i.lastAt)

/-- A change of DPLL state (11 R302). -/
def Chip.dpll (st : Dpll) (c : Chip) : Chip :=
  if c.ref.st = st then c else c.onRef fun r => { r with st := st, stateChange := true }

/-- Mean of some values, rounded. -/
def mean (l : List Int) : Int := if l.isEmpty then 0 else roundDiv (l.foldl (· + ·) 0) l.length

/-- The holdover target on entry (11 R303). -/
def Chip.holdTarget (c : Chip) : Int :=
  let r := c.ref
  if r.modelValid then
    r.y0 + roundDiv (r.tc * (r.temp - mean (r.records.map fun q => q.2.1))) 100 +
      roundDiv (r.age * ((c.clk / secClk : Nat) - mean (r.records.map fun q => (q.2.2 : Int)))) 86400
  else if 11 * secClk ≤ c.clk then
    roundDiv (freqSum (c.clk - 11 * secClk) (c.clk - secClk) r.history) (10 * secClk)
  else r.freq

/-- HOLDOVER is entered (11 R302, R303). -/
def Chip.holdover (c : Chip) : Chip :=
  let t := c.holdTarget
  (c.onRef fun r => { r with
    heldInput := r.selected, selected := 6, switching := false, lockSince := none, holdSince := some c.clk, holdModel := r.modelValid
    holdTarget := t }).dpll .holdover

/-- Input x is disqualified (11 R293, R300); of one that is not qualified only the count of R292 starts again. -/
def Chip.disqualify (x cause : Nat) (c : Chip) : Chip :=
  if !(c.refIn x).qualified then c.onRefIn x fun i => { i with goodSince := none }
  else
    let c := c.onRefIn x fun i => { i with qualified := false, eligible := false, warn := false, cause := cause, goodSince := none }
    if c.ref.selected = x ∧ (c.ref.st = .acquire ∨ c.ref.st = .locked) then (c.raise 0x0B02 .fault x).holdover
    else c.raise 0x0B01 .note x

/-- What an event shows against its input (11 R293): a cause, or none. The first event of a WCLK_IN that keeps its rate across
a cold press to another fs shows RATE (11 R317). -/
def Chip.refCause (x : Nat) (ev : RefEv) (c : Chip) : Option Nat :=
  let limit := if x ≤ 2 then (c.ptpIt 8).toNat else if x = 4 && ev.pps then 50 else 50000
  if x = 3 && (c.refIn x).rateMoved && (decide (limit < ev.glitch) || ev.offGrid) then some 3
  else if limit < ev.glitch then some 2
  else if ev.offGrid && (x ≤ 2 || (x = 3 && 1 ≤ (c.refIn x).offGrid)) then some 3
  else match ev.gate with
    | some g => if 5000000 < g.natAbs then some 4 else none
    | none => none

/-- A reference event on input x (11 R292, R293); an edge of PPS_IN gives the phase of input 4, one of REF10M_IN its
frequency. -/
def Chip.refEvent (x : Nat) (ev : RefEv) (c : Chip) : Chip :=
  let cause := c.refCause x ev
  let pps := x = 4 && ev.pps
  let c := c.onRefIn x fun i =>
    if pps then { i with pps := true, ppsAt := c.clk, phase := ev.phase }
    else { i with
      present := true, lastAt := c.clk, phase := if x = 4 then i.phase else ev.phase
      offGrid := if ev.offGrid then i.offGrid + 1 else 0, rateMoved := false, freq := ev.gate.or i.freq
      gates := match ev.gate with
        | some g => (c.clk, g) :: i.gates.filter fun q => c.clk < q.1 + 3600 * secClk
        | none => i.gates }
  let c := if c.ref.selected = x && (x ≠ 4 || pps) then c.onRef fun r => { r with delta := c.refDelta x, moved := 0 } else c
  let c := match cause with
    | some k => (c.disqualify x k).onRefIn x fun i => { i with goodSince := some c.clk }
    | none => c
  let good := (c.refIn x).arriving x && c.refCalm x
  (c.onRefIn x fun i => { i with goodSince := if good then i.goodSince <|> some c.clk else none }).lockWatch

/-! The drift vote (11 R294 to R296) -/

/-- Inserts into an ascending list. -/
def insertInt (v : Int) : List Int → List Int
  | [] => [v]
  | x :: xs => if v ≤ x then v :: x :: xs else x :: insertInt v xs

/-- The median; the mean of the two middle values of an even number (11 R294). -/
def median (l : List Int) : Int :=
  let s := l.foldl (fun a v => insertInt v a) []
  let n := s.length
  if n % 2 = 1 then s.getD (n / 2) 0 else roundDiv (s.getD (n / 2 - 1) 0 + s.getD (n / 2) 0) 2

/-- WARN of a voter after a vote. -/
def Chip.refWarn (x : Nat) (dev : Int) (c : Chip) : Chip :=
  let w := 100 * c.refSel 1
  let was := (c.refIn x).warn
  let on := if w < dev.natAbs then true else if dev.natAbs * 10 < w * 8 then false else was
  let c := c.onRefIn x fun i => { i with dev := dev, warn := on }
  if on && !was then c.raise 0x0B04 .note x else c

/-- LOSC's own deviation (11 R296). -/
def Chip.loscVote (dev : Int) (c : Chip) : Chip :=
  let c := if 100 * c.refSel 2 < dev.natAbs && !c.ref.loscDrift then
      ((c.onRef fun r => { r with loscDrift := true, modelValid := false }).onRefIn 5 fun i => { i with eligible := false }).raise 0x0B06 .fault
    else c
  let good := dev.natAbs < 100 * c.refSel 1
  let since := if good then c.ref.loscGoodSince <|> some c.clk else none
  let c := c.onRef fun r => { r with loscGoodSince := since }
  match c.ref.loscDrift, since with
  | true, some t => if t + c.refSel 3 * secClk ≤ c.clk then c.onRef fun r => { r with loscDrift := false } else c
  | _, _ => c

/-- One vote of a second. -/
def Chip.driftVote (c : Chip) : Chip :=
  let w := c.refSel 3
  let measure := fun (x : Nat) (i : RefIn) =>
    if x = 5 then { i with nu := 0 }
    else if i.arriving x then
      { i with nu := mean ((i.gates.filter fun q => c.clk < q.1 + w * secClk).map Prod.snd) }
    else i
  let c := c.onRef fun r => { r with ins := r.ins.mapIdx measure }
  let voters := (List.range 6).filter fun x => (c.refIn x).qualified
  let nus := voters.map fun x => (c.refIn x).nu
  let m := median nus
  let c' := if 3 ≤ voters.length then
      let c := c.onRef fun r => { r with noVote := false }
      voters.foldl (fun c x =>
        let d := (c.refIn x).nu - m
        let c := c.refWarn x d
        if x = 5 then c.loscVote d else if 100 * c.refSel 2 < d.natAbs then c.disqualify x 5 else c) c
    else
      let c := if c.ref.noVote then c else (c.onRef fun r => { r with noVote := true }).raise 0x0B07 .note
      (voters.foldl (fun c x => c.refWarn x 0) c).loscVote 0
  -- inputs disqualified for DRIFT whose events still arrive (R295), against the voters of this vote
  (List.range 5).foldl (fun c' x =>
    let i := c.refIn x
    if !i.qualified && i.cause = 5 && i.arriving x then
      let d := if 2 ≤ voters.length then i.nu - median (i.nu :: nus) else i.nu
      let c' := c'.onRefIn x fun i => { i with dev := d }
      if c'.refCalm x then c' else c'.onRefIn x fun i => { i with goodSince := none }
    else c') c'

/-! Selection (11 R297 to R301) -/

/-- The input R291 names. -/
def Chip.refChoice (c : Chip) : Option Nat :=
  (List.range 6).foldl (fun (a : Option Nat) x =>
    let p := c.itN (item 0x0C x 1)
    if (c.refIn x).eligible && p ≠ 0 && !(c.grandmaster && x ≤ 2) then
      match a with
      | some y => if p < c.itN (item 0x0C y 1) then some x else a
      | none => some x
    else a) none

/-- The time counter steps by `ns`: the phases of the inputs and what the PTP ports hold of its times move with it
(11 R307, R311). -/
def Chip.timeStep (ns : Int) (c : Chip) : Chip :=
  let c := c.onRef fun r => { r with ins := r.ins.mapIdx fun x i => { i with
    phase := if x ≤ 2 then i.phase + ns else if x = 3 then nearest (c.wclkRate) (i.phase + ns) else nearest 1 (i.phase + ns) } }
  (c.onPtp fun p => { p with
    time := ((p.time + ns * 2 ^ 32) % (timeTurn : Int)).toNat
    ports := p.ports.map fun x => { x with
      lastSync := x.lastSync.map fun q => (q.1 + ns, q.2), back := x.back.map (· - ns)
      asked := x.asked.map fun q => (q.1, (q.2 + ns).toNat) } }).onSys fun s => { s with reload := s.reload || ns ≠ 0 }

/-- A switch to input x starts (11 R298, R307, R308). -/
def Chip.refSwitch (x : Nat) (c : Chip) : Chip :=
  let d := c.refDeltaNow x
  let far := (c.refSel 7 : Int) < d.natAbs
  let c := (c.onRef fun r => { r with
    selected := x, switching := true, delta := d, moved := 0, switches := r.switches + 1, holdSince := none
    lockSince := none }).dpll .acquire
  let c := c.raise 0x0B03 .note x
  if c.audioOnce then
    if far then (c.onRef fun r => { r with realign := true }).raise 0x0B10 .fault x else c
  else
    ((c.timeStep (-d)).onRef fun r => { r with delta := 0 }).setFreq (c.refFreq x)

/-- The integer square root, rounded down. -/
def isqrt (n : Nat) : Nat := greatest (fun r => decide (r * r ≤ n)) 40 0

/-- The frequency aimed at: the reference plus a correction of at most 0.1 ppm that can return to 0 at 0.1 ppm per second
by the time delta is closed to a nanosecond (11 R298); the holdover target; or nominal. -/
def Chip.aimFreq (c : Chip) : Int :=
  let r := c.ref
  match r.st with
  | .acquire | .locked =>
    let d := c.deltaNow
    let corr : Int := min 10000 (100 * isqrt (200 * (d.natAbs - 1)) : Nat)
    c.refFreq r.selected + (if 0 < d then -corr else corr)
  | .holdover | .holdoverLimit => r.holdTarget
  | .freeRun => 0

/-- 10 ms of steering, by at most 0.1 ppm per second; delta moves with the difference to the reference: 0.01 ppb over 10 ms
are 10^-4 ns. -/
def Chip.steer (c : Chip) : Chip :=
  let a := c.aimFreq
  let f := c.ref.freq
  let c := c.setFreq (if f + 100 < a then f + 100 else if a < f - 100 then f - 100 else a)
  (c.onRef fun r => { r with moved := if r.selected < 5 then r.moved + (f - c.refFreq r.selected) else 0 }).lockWatch

/-- The input that is selected at an evaluation: the forced one while it is qualified, without ref.revertive the selected
one while it is qualified and may be eligible, else the choice of R291 (11 R297, R301). -/
def Chip.refPick (c : Chip) : Option Nat :=
  let r := c.ref
  match r.forced.filter fun x => (c.refIn x).qualified with
  | some x => some x
  | none => if c.refSel 5 = 0 && r.selected < 6 && (c.refIn r.selected).qualified then some r.selected else c.refChoice

/-- The selector's evaluation every 10 ms (11 R297, R301). -/
def Chip.evaluate (c : Chip) : Chip :=
  let c := if c.ref.loscDrift then c else c.onRefIn 5 fun i => { i with eligible := true }
  let c := if c.ref.switching || c.ref.testing then c
    else match c.refPick with
      | some x => if x = c.ref.selected then c else c.refSwitch x
      | none => c
  c.steer

/-- REF_CLEAR_HISTORY (11 R302): the model and the drift history go; holdover becomes FREE_RUN. -/
def Chip.refClear (c : Chip) : Chip :=
  let c := c.onRef fun r => { r with
    modelValid := false, lockedFor := 0, records := [], y0 := 0, tc := 0, age := 0
    ins := r.ins.map fun i => { i with gates := [], nu := 0, dev := 0 } }
  if c.ref.st = .holdover ∨ c.ref.st = .holdoverLimit then (c.onRef fun r => { r with holdSince := none }).dpll .freeRun else c

/-- SELF_TEST of the REF block starts and ends (11 R302). -/
def Chip.refTestStart (c : Chip) : Chip :=
  (c.onRef fun r => { r with testing := true, selected := 6, switching := false, holdSince := none }).dpll .freeRun
def Chip.refTestEnd (c : Chip) : Chip :=
  let c := c.onRef fun r => { r with testing := false }
  match c.refPick with
  | some x => c.refSwitch x
  | none => c

/-! The holdover model (11 R304) -/

/-- The fit over the records: Y0, C in 0.01 ppb per degree, A in 0.01 ppb per day. -/
def fitModel (rs : List (Int × Int × Nat)) : Int × Int × Int :=
  let n := rs.length
  if n = 0 then (0, 0, 0)
  else
    let sum := fun (f : Int × Int × Nat → Int) => (rs.map f).foldl (· + ·) 0
    let sy := sum fun q => q.1
    let sT := sum fun q => q.2.1
    let st := sum fun q => (q.2.2 : Int)
    -- centred sums times n
    let cov := fun (f g : Int × Int × Nat → Int) (sf sg : Int) => n * sum (fun q => f q * g q) - sf * sg
    let y := fun q : Int × Int × Nat => q.1
    let T := fun q : Int × Int × Nat => q.2.1
    let t := fun q : Int × Int × Nat => (q.2.2 : Int)
    let tt := cov t t st st
    let TT := cov T T sT sT
    let Tt := cov T t sT st
    let yT := cov y T sy sT
    let yt := cov y t sy st
    let span := fun (f : Int × Int × Nat → Int) =>
      (rs.map f).foldl max (f (rs.headD (0, 0, 0))) - (rs.map f).foldl min (f (rs.headD (0, 0, 0)))
    let useC := 200 ≤ span T
    let useA := 21600 ≤ span t
    let div := fun (a b : Int) => if b ≤ 0 then 0 else roundDiv a b.toNat
    let det := TT * tt - Tt * Tt
    if useC && useA && 0 < det then
      (mean (rs.map y), div (100 * (yT * tt - yt * Tt)) det, div (86400 * (yt * TT - yT * Tt)) det)
    else if useC then (mean (rs.map y), div (100 * yT) TT, 0)
    else if useA then (mean (rs.map y), 0, div (86400 * yt) tt)
    else (mean (rs.map y), 0, 0)

/-- The update of each second (11 R303, R304). -/
def Chip.modelUpdate (temp : Int) (c : Chip) : Chip :=
  let sec := c.clk / secClk
  let r := c.ref
  let learn := r.st = .locked && r.selected < 5 && !r.loscDrift
  let records := if learn then (c.refFreq r.selected, temp, sec) :: (r.records.filter fun q => sec < q.2.2 + 604800) else r.records
  let m := fitModel records
  let c := c.onRef fun r =>
    let r := { r with temp := temp }
    if learn then { r with records := records, lockedFor := r.lockedFor + 1, y0 := m.1, tc := m.2.1, age := m.2.2 } else r
  if (c.ref.st = .holdover ∨ c.ref.st = .holdoverLimit) ∧ c.ref.modelValid then
    let t := c.holdTarget
    c.onRef fun r => { r with holdTarget := t }
  else c

/-! PTP ports and their MACs (11 R312, R314) -/

def Chip.onPort (m : Nat) (f : PtpPort → PtpPort) (c : Chip) : Chip :=
  c.onPtp fun p => { p with ports := lmod p.ports m f }

/-- PTP port m starts in its role, or is FAULTY while its MAC is down. Before the REF block is enabled it is DISABLED. -/
def Chip.ptpIdle (m : Nat) (c : Chip) : Chip :=
  let st : PortSt :=
    if !c.ref.enabled then .disabled
    else if c.grandmaster && !(c.ptpIt 7).toNat.testBit m then .disabled
    else if !(c.mac m).up then .faulty
    else if c.grandmaster then .master else .listening
  c.onPort m fun x => { x with st := st, best := none, syncOk := false, lastSync := none, asked := none, back := none, gate := none, foreign := [] }

/-- Its MAC goes down or comes up. -/
def Chip.ptpDown (m : Nat) (c : Chip) : Chip := c.ptpIdle m
def Chip.ptpUp (m : Nat) (c : Chip) : Chip := c.ptpIdle m

/-! Outputs (11 R315, R316) -/

/-- The code on REF_STATE_2 to REF_STATE_0, and REF_ALARM_N driven low. -/
def Ref.code (r : Ref) : Nat :=
  if !r.enabled then 7 else match r.st with
  | .freeRun => 0 | .acquire => 1 | .locked => 2 | .holdover => 3 | .holdoverLimit => 4
def Dpll.code : Dpll → Nat
  | .freeRun => 0 | .acquire => 1 | .locked => 2 | .holdover => 3 | .holdoverLimit => 4
def Ref.alarm (r : Ref) : Bool := r.enabled && (r.st = .freeRun || r.st = .holdoverLimit || r.loscDrift)

/-- PPS_OUT and WCLK_OUT now (11 R315). -/
def Chip.squelched (c : Chip) : Bool :=
  !c.ref.enabled || (c.refSel 0x12 = 1 && (c.ref.st = .freeRun || c.ref.st = .holdoverLimit))
def Chip.ppsOut (c : Chip) : Bool :=
  let t : Int := (c.nowNs : Int) - c.it (item 0x0C 0x10 0x11)
  !c.squelched && decide (t % 1000000000 < 1000000)
def Chip.wclkOut (c : Chip) : Bool :=
  let t : Int := (c.nowNs : Int) - c.it (item 0x0C 0x10 0x10)
  !c.squelched && decide (t * (fsOf c.prof : Int) % 1000000000 < 500000000)

/-! What the registers show (11 R318) -/

/-- Seconds until input x becomes eligible (11 R297). -/
def Chip.wtrLeft (x : Nat) (c : Chip) : Nat :=
  let i := c.refIn x
  if i.qualified && !i.eligible && x < 5 then ceilDiv (i.qualAt + c.refSel 4 * secClk - c.clk) secClk else 0

/-- REF_IN_x. The events of LOSC_IN arrive while CORE runs (11 R296). -/
def Chip.refInWord (c : Chip) (x : Nat) : Word :=
  let i := c.refIn x
  pack [(0, 1, b2n (x = 5 || i.arriving x)), (1, 1, b2n i.qualified), (2, 1, b2n i.eligible), (3, 1, b2n i.warn), (4, 3, i.cause),
    (16, 16, c.wtrLeft x)]

/-- The registers that update every second. -/
def Chip.refWords (c : Chip) : List Word :=
  let r := c.ref
  let hold := match r.holdSince with | some t => w32 (min 0xFFFFFFFF ((c.clk - t) / secClk)) | none => 0
  let bits := fun (f : RefIn → Bool) => packBits 6 fun x => f (c.refIn x)
  [pack [(0, 6, bits RefIn.qualified), (8, 6, bits RefIn.eligible), (16, 6, bits RefIn.warn)], sat32 r.freq, r.switches, hold] ++
    (List.range 6).map c.refInWord ++ (List.range 6).map (fun x => sat32 (c.refIn x).nu) ++
    (List.range 6).map (fun x => sat32 (c.refIn x).dev) ++ [sat32 r.y0, sat32 r.tc, sat32 r.age, w32 (pattern 16 r.temp)]

/-- REF_STATUS, but for STATE_CHANGE, and REF_PHASE, which update every 10 ms. -/
def Chip.refQuick (c : Chip) : List Word :=
  let r := c.ref
  [pack [(0, 3, r.st.code), (3, 3, r.selected), (6, 1, b2n r.switching), (7, 1, b2n r.modelValid), (8, 1, b2n r.noVote),
    (9, 1, b2n r.loscDrift), (10, 1, b2n r.forced.isSome), (11, 1, b2n r.realign)], sat32 c.deltaNow]

def Chip.showSecond (c : Chip) : Chip := c.onRef fun r => { r with shown := c.refWords }
def Chip.showQuick (c : Chip) : Chip := c.onRef fun r => { r with quick := c.refQuick }

/-! The commands: nothing of the REF block acts before it is enabled (19 R491, R505) -/

/-- A command of the REF block at CORE clock t. -/
def refAct (t : Nat) (f : Chip → Chip) (s : State) : Host.Outcome State Fault Refusal :=
  act (fun c => let c := c.advance t; if c.ref.enabled then f c else c) s

def execRefEvent (x : Fin 6) (ev : RefEv) (s : State) : Host.Outcome State Fault Refusal :=
  refAct ev.t (fun c =>
    if x.val = 5 ∨ (c.grandmaster ∧ x.val ≤ 2) then c else c.refEvent x.val ev) s

/-- The events of input x have stopped: it is disqualified, one disqualified for DRIFT again (11 R293, R295). -/
def Chip.refStops (x : Nat) (c : Chip) : Chip :=
  let i := c.refIn x
  let c := if x ≤ 2 then c.onPort x fun p => { p with syncOk := false } else c
  if i.qualified then c.disqualify x 1
  else
    let c := c.onRefIn x fun i => { i with goodSince := none }
    if i.cause = 5 then (c.onRefIn x fun i => { i with cause := 1 }).raise 0x0B01 .note x else c

/-- No event within two expected periods (11 R293); for PPS on either pin. -/
def execInputStopped (x : Fin 6) (t : Nat) (s : State) : Host.Outcome State Fault Refusal :=
  refAct t (fun c =>
    let i := c.refIn x.val
    let main := i.present && i.lastAt + 2 * c.refPeriod x.val ≤ t
    let pps := x.val = 4 && i.pps && i.ppsAt + 2 * secClk ≤ t
    if x.val < 5 && (main || pps) then
      (c.onRefIn x.val fun i => { i with present := i.present && !main, pps := i.pps && !pps }).refStops x.val
    else c) s

/-- Input x has met R292 for ref.qual_time. -/
def execInputQualified (x : Fin 6) (t : Nat) (s : State) : Host.Outcome State Fault Refusal :=
  refAct t (fun c =>
    let i := c.refIn x.val
    match i.goodSince with
    | none => c
    | some g =>
      if x.val < 5 && !i.qualified && i.arriving x.val && c.refCalm x.val && !(c.grandmaster && x.val ≤ 2) &&
          g + c.itN (item 0x0C x.val 2) * secClk ≤ t then
        c.onRefIn x.val fun i => { i with qualified := true, qualAt := t, before := true, eligible := !i.before }
      else c) s

/-- The wait to restore ends (11 R297). -/
def execWtrExpiry (x : Fin 6) (t : Nat) (s : State) : Host.Outcome State Fault Refusal :=
  refAct t (fun c =>
    let i := c.refIn x.val
    if i.qualified && !i.eligible && x.val < 5 && i.qualAt + c.refSel 4 * secClk ≤ t && !(c.grandmaster && x.val ≤ 2) then
      c.onRefIn x.val fun i => { i with eligible := true }
    else c) s

def execDriftVote (t : Nat) (s : State) : Host.Outcome State Fault Refusal := refAct t (fun c => c.driftVote.showSecond) s

def execSelectorEvaluation (t : Nat) (s : State) : Host.Outcome State Fault Refusal :=
  refAct t (fun c => c.evaluate.showQuick) s

/-- The switch is complete: the correction is back at 0 with delta in the window (11 R298). -/
def execSwitchComplete (t : Nat) (s : State) : Host.Outcome State Fault Refusal :=
  refAct t (fun c =>
    if c.ref.switching && c.inWindow && c.ref.freq = c.refFreq c.ref.selected then
      c.onRef fun r => { r with switching := false, realign := false, lockSince := some t }
    else c) s

/-- 1 s more within ref.lock_window (11 R298, R302). -/
def execDpllLocked (t : Nat) (s : State) : Host.Outcome State Fault Refusal :=
  refAct t (fun c =>
    match c.ref.lockSince with
    | some f =>
      if c.ref.st = .acquire && !c.ref.switching && c.inWindow && f + secClk ≤ t then
        (c.dpll .locked).raise 0x0B08 .note
      else c
    | none => c) s

/-- The holdover limit (11 R305). -/
def execHoldoverLimit (t : Nat) (s : State) : Host.Outcome State Fault Refusal :=
  refAct t (fun c =>
    let lim := if c.ref.holdModel then c.refSel 8 else c.refSel 9
    match c.ref.holdSince with
    | some f => if c.ref.st = .holdover && f + lim * secClk ≤ t then (c.dpll .holdoverLimit).raise 0x0B05 .fault else c
    | none => c) s

def execModelUpdate (temp : Int) (t : Nat) (s : State) : Host.Outcome State Fault Refusal :=
  refAct t (fun c => (c.modelUpdate temp).showSecond) s

/-- MODEL_VALID after 30 min of LOCKED (11 R304). -/
def execModelValid (s : State) : Host.Outcome State Fault Refusal :=
  act (fun c => if 1800 ≤ c.ref.lockedFor && !c.ref.loscDrift then c.onRef fun r => { r with modelValid := true } else c) s

/-- The seconds of ref.tod_seconds at a whole second of the counter, without a PTP input (11 R311). -/
def execTodSet (t : Nat) (s : State) : Host.Outcome State Fault Refusal :=
  act (fun c =>
    let c := c.advance t
    match c.ref.tod with
    | some sec =>
      if c.audioOnce then c
      else
        let c' := c.onRef fun r => { r with tod := none }
        if c.ref.selected ≤ 2 then c'
        else c'.timeStep (((sec : Int) - (c.nowNs / 10 ^ 9 : Nat)) * 10 ^ 9)
    | none => c) s

end Sys2Proof.Machine
end

