-- ==== Sys2Proof/Machine/Macs.lean ====
section
/-! DEFINITION. The MACs (07): hampers, address filter, classification, receive and transmit descriptors, timestamps, the
LINK ports, the DROP bus and fallback speech. Frames are held without their FCS. -/

namespace Sys2Proof.Machine

/-! Hampers (07 R208): every move takes one buffer from one state to another -/

/-- Ring r of MAC m among the 24. -/
def ringIx (m r : Nat) : Nat := 8 * m + r

def Hamper.ring (h : Hamper) (i : Nat) : RxRing := h.rings.getD i {}

/-- The first `n` FREE buffers are posted on ring i. -/
def Hamper.refill (i n : Nat) (h : Hamper) : Hamper :=
  if i < h.rings.length then
    { h with free := h.free.drop n, rings := lmod h.rings i fun r => { r with posted := r.posted ++ h.free.take n } }
  else h

/-- The first `n` posted buffers of ring i are taken for a frame. -/
def Hamper.take (i n : Nat) (h : Hamper) : Hamper :=
  { h with rings := lmod h.rings i fun r => { r with posted := r.posted.drop n, asm := r.asm ++ r.posted.take n } }

/-- The first `n` buffers being assembled on ring i go to the ring's owner. -/
def Hamper.complete (i n : Nat) (h : Hamper) : Hamper :=
  { h with rings := lmod h.rings i fun r => { r with asm := r.asm.drop n, held := r.held ++ r.asm.take n } }

/-- The buffers being assembled on ring i go back to its tail (07 R210), but for the first `k`. -/
def Hamper.giveBack (i k : Nat) (h : Hamper) : Hamper :=
  { h with rings := lmod h.rings i fun r => { r with asm := r.asm.take k, posted := r.posted ++ r.asm.drop k } }

/-- The owner returns a buffer of ring i. -/
def Hamper.returned (i b : Nat) (h : Hamper) : Hamper :=
  if b ∈ (h.ring i).held then
    { h with free := h.free ++ [b], rings := lmod h.rings i fun r => { r with held := r.held.erase b } }
  else h

/-- The four counts of R208. -/
def Hamper.counts (h : Hamper) : Nat × Nat × Nat × Nat :=
  (h.free.length, total (h.rings.map fun r => r.posted.length), total (h.rings.map fun r => r.asm.length),
    total (h.rings.map fun r => r.held.length))

/-- The target of ring r of MAC m (07 R192). -/
def rxTarget (m r : Nat) : Nat :=
  if m < 2 then [6144, 64, 32, 256, 64, 64, 64, 64].getD r 0 else [64, 32, 32, 128, 32, 32, 32, 32].getD r 0

/-! Ring addresses (07 R541) -/

def macBase (m : Nat) : Nat := [0x40440000, 0x40494000, 0x404E8000].getD m 0
def rxBase (m r : Nat) : Nat :=
  macBase m + (if m < 2 then
    [0, 0x30000, 0x30800, 0x30C00, 0x32C00, 0x33400, 0x33C00, 0x34400].getD r 0
  else [0, 0x800, 0xC00, 0x1000, 0x2000, 0x2400, 0x2800, 0x2C00].getD r 0)
def rxRet (m r : Nat) : Nat :=
  macBase m + (if m < 2 then (if r = 0 then 0x35000 else 0x3C000 + (r - 1) * 0x800) else 0x3000 + r * 0x400)
def txBase (m r : Nat) : Nat := macBase m + (if m < 2 then 0x40000 else 0x5000) + r * 0x2400

/-! Addresses and items -/

/-- The station address (07 R186). -/
def Chip.station (c : Chip) : Nat := c.boot.unitBase / 64 * 64 + c.boot.peg.toNat

def Chip.sysIt (c : Chip) (f : Nat) : Nat := c.itN (item 0x01 0 f)
def Chip.dropIt (c : Chip) (f : Nat) : Nat := c.itN (item 0x0E 0 f)

/-- A big-endian field of a frame. -/
def be (bs : List Byte) (o n : Nat) : Nat := ofBe ((List.range n).map fun i => bs.getD (o + i) 0)

/-- The bin of a group address (07 R191). -/
def hashBin (mac : Nat) : Nat := (crc32 (beBytes 6 mac)).toNat % 512

/-- RFC 1112 mapping of a multicast IPv4 address. -/
def ipGroup (ip : Nat) : Nat := 0x01005E000000 + ip % 2 ^ 23
def isMulticast (ip : Nat) : Bool := ip / 2 ^ 28 = 14
def isGroup (mac : Nat) : Bool := mac.testBit 40

/-- Flow contexts that some item names. -/
def flowCtxs (items : Items) : List Nat :=
  (elements items 0x08 ([] : Map Unit)).filter (· < 1024)

def flowIt (items : Items) (x f : Nat) : Nat := (itemIn items (item 0x08 x f)).toNat

/-- The range of context x fits the profile; one that does not acts as OFF (06 R150). -/
def ctxFits (p : Profile) (items : Items) (x : Nat) : Bool := flowIt items x 4 + flowIt items x 3 ≤ netCh p

/-- The bins that a press sets (07 R191). -/
def hashBins (p : Profile) (items : Items) : List Nat :=
  let flows := (flowCtxs items).filterMap fun x =>
    if flowIt items x 1 ≠ 2 ∨ !ctxFits p items x then none
    else if flowIt items x 5 = 0 then (if isGroup (flowIt items x 0x10) then some (flowIt items x 0x10) else none)
    else if isMulticast (flowIt items x 0x11) then some (ipGroup (flowIt items x 0x11)) else none
  let hosts := ((List.range 8).map fun g => (itemIn items (item 0x01 0 (0x30 + g))).toNat).filter (· ≠ 0)
  ([0x03DA00000001, 0x011B19000000, 0x0180C200000E, 0x01005E000181, 0x01005E00006B] ++ flows ++ hosts).map hashBin

/-- The hash registers of a set of bins. -/
def hashWords (bins : List Nat) : List Word :=
  (List.range 16).map fun n => BitVec.ofNat 32 (packBits 32 fun j => bins.contains (32 * n + j))

/-- The CMD core sets the bins at every press. -/
def Chip.setHash (items : Items) (c : Chip) : Chip :=
  let ws := hashWords (hashBins c.prof items)
  { c with macs := c.macs.map fun m => { m with hash := ws } }

/-- The destination passes the filter of MAC m. -/
def Chip.accepts (m : Nat) (bs : List Byte) (c : Chip) : Bool :=
  let d := be bs 0 6
  d = c.station || d = 0xFFFFFFFFFFFF ||
    (isGroup d && (((c.mac m).hash.getD (hashBin d / 32) 0).getLsbD (hashBin d % 32)))

/-- EtherType after a VLAN tag, and the offset of what follows it. -/
def etherType (bs : List Byte) : Nat × Nat := if be bs 12 2 = 0x8100 then (be bs 16 2, 18) else (be bs 12 2, 14)

/-- The UDP destination port of an IPv4 frame whose header begins at h, where it lies in the first 64 bytes (07 R192). -/
def udpPort (bs : List Byte) (h : Nat) : Option Nat :=
  let o := h + 4 * (be bs h 1 % 16) + 2
  if be bs (h + 9) 1 = 17 ∧ o + 2 ≤ 64 then some (be bs o 2) else none

/-- Control frames are taken at the level in force and the one below (07 R193). -/
def Chip.levelOk (lev : Nat) (c : Chip) : Bool := lev = c.flow.rxLevel || lev + 1 = c.flow.rxLevel

/-- The ring that takes a frame on MAC m; none is unclaimed (07 R192). -/
def Chip.classify (m : Nat) (bs : List Byte) (c : Chip) : Option Nat :=
  let e := etherType bs
  let p := if e.1 = 0x800 then udpPort bs e.2 else none
  let ctl := e.1 = c.sysIt 0x16
  let kind := be bs e.2 1
  let lev := c.levelOk (be bs (e.2 + 1) 1)
  let etype := fun j => if m < 2 then c.sysIt (0x24 + j) else c.dropIt (0x14 + j)
  let claimed := e.1 = c.sysIt 0x11 || e.1 = 0x88F7 || ctl
  let host := if claimed then none else (List.range 4).find? fun j => etype j ≠ 0 && etype j = e.1
  let all := if m < 2 then c.sysIt 0x20 = 1 else c.dropIt 0x10 = 1
  if m < 2 then
    if e.1 = c.sysIt 0x11 ∨ p = some (c.sysIt 0x12) then some 0
    else if e.1 = 0x88F7 ∨ p = some 319 ∨ p = some 320 then some 1
    else if ctl ∧ kind = 0x10 then (if lev then some 2 else none)
    else match host with
      | some j => some (4 + j)
      | none => if ctl then (if lev then some 3 else none) else if all then some 3 else none
  else
    if e.1 = c.sysIt 0x11 then (if kind = 2 then some 0 else if kind ≠ 1 ∧ all then some 3 else none)
    else if e.1 = 0x88F7 then some 1
    else if ctl ∧ kind = 0x10 then (if lev then some 2 else none)
    else match host with
      | some j => some (4 + j)
      | none => if ctl then (if kind ≠ 0x20 ∧ lev then some 3 else none) else if all then some 3 else none

/-- Whether ring r of MAC m is timed on receive. -/
def Chip.rxTimed (m r : Nat) (c : Chip) : Bool :=
  if r = 1 then true
  else if r = 0 ∨ r = 2 then false
  else (if m < 2 then c.sysIt 0x21 else c.dropIt 0x11).testBit (r - 3)

/-! Counters -/

/-- Counts: 0 GOOD, 1 FCS, 2 SIZE, 3 FILTERED, 4 UNCLAIMED, 5 TRUNC, 6 SENT, 7 DROPPED. -/
def Chip.macCount (m i : Nat) (c : Chip) : Chip := c.onMac m fun x => { x with counts := lmod x.counts i (· + 1) }
/-- Counts of DROP: 0 collisions, 1 late, 2 excess, 3 stale, 4 speech late, 5 speech early. -/
def Chip.dropCount (i : Nat) (c : Chip) : Chip := c.onDrop fun d => { d with counts := lmod d.counts i (· + 1) }

/-! Timestamps (07 R195 to R198) -/

def tsDepth (m : Nat) : Nat := if m < 2 then 64 else 16

/-- The time of the first symbol after the SFD of a frame of `len` bytes that ends now on MAC m (07 R195), in ns: 0.8 ns
a byte on a LINK port, 800 ns on DROP. -/
def Chip.sfdTime (m len : Nat) (c : Chip) : Nat :=
  let n := max 60 len + 4
  c.nowNs - (if m < 2 then n * 4 / 5 else n * 800)

/-- The timestamp words 4 to 6 of a time in ns. -/
def stampWords (ns : Nat) : List Word :=
  let sec := ns / 10 ^ 9
  [pack [(0, 30, ns % 10 ^ 9), (30, 1, 1)], lo32 sec, pack [(0, 16, sec / 2 ^ 32)]]

/-- A frame of MAC m, of `len` bytes and ending now, counts as timed: its record enters the queue, or is lost (07 R196,
R197). The flag tells that it was stored. -/
def Chip.timed (m len : Nat) (c : Chip) : Bool × Chip :=
  let ns := c.sfdTime m len
  let q := c.ptp.queues.getD m []
  let c := c.onPtp fun p => { p with counts := lmod p.counts m fun k => (k.1 + 1, k.2.1, k.2.2) }
  if q.length < tsDepth m then
    (true, c.onPtp fun p => { p with queues := lmod p.queues m (· ++ [⟨stampWords ns⟩]) })
  else
    let c := c.onPtp fun p => { p with
      counts := lmod p.counts m fun k => (k.1, k.2.1, k.2.2 + 1), lostSeen := p.lostSeen.set m true }
    (false, c.raiseFirst 0x0A31 .note m m)

/-- The DMA writes the oldest record into a descriptor. -/
def Chip.stampOut (m : Nat) (c : Chip) : List Word × Chip :=
  match c.ptp.queues.getD m [] with
  | [] => ([0, 0, 0], c)
  | q :: _ =>
    (q.words, c.onPtp fun p => { p with
      queues := lmod p.queues m (·.drop 1), counts := lmod p.counts m fun k => (k.1, k.2.1 + 1, k.2.2) })

/-- TS_LOST in place of a timestamp. -/
def lostStamp : List Word := [0x80000000, 0, 0]

/-! Receiving (07 R208 to R212) -/

/-- A receive descriptor but for its phase. -/
def rxWords (len : Nat) (trunc : Bool) (bufs : List Nat) (ts : List Word) (blk : Nat) : List Word :=
  let b := fun i => bufs.getD i 0xFFFF
  [pack [(0, 11, len), (11, 3, bufs.length), (16, 2, b2n trunc)],
   pack [(0, 16, b 0), (16, 16, b 1)], pack [(0, 16, b 2), (16, 16, b 3)], pack [(0, 16, b 4), (16, 16, b 5)]]
    ++ ts ++ [lo32 blk]

/-- Writes a descriptor in the next slot of a completion ring; on a host ring it is an interrupt cause (15 R414). -/
def Chip.rxDescriptor (m r : Nat) (ws : List Word) (c : Chip) : Chip :=
  let n := ((c.mac m).rx.getD r {}).made
  let t := rxTarget m r
  let phase : Word := if n / t % 2 = 0 then 0x80000000 else 0
  let ws := ws.mapIdx fun i w => if i = 0 then w ||| phase else w
  let c := (c.putWords (rxBase m r + 32 * (n % t)) ws).onMac m fun x => { x with
    rx := lmod x.rx r fun y => { y with made := n + 1 } }
  if 3 ≤ r then c.pulse (Fin.ofNat 32 (11 + 5 * m + (r - 3))) else c

/-- Buffers a frame needs. -/
def buffersFor (bs : List Byte) : Nat := max 1 ((bs.length + 255) / 256)

/-- Writes a frame into its buffers, the last one filled with zeros (07 R210). -/
def Chip.fillBuffers : List Nat → List Byte → Chip → Chip
  | [], _, c => c
  | b :: more, bs, c =>
    let part := bs.take 256
    (c.store (0x40000000 + b * 256) (part ++ List.replicate (256 - part.length) 0)).fillBuffers more (bs.drop 256)

/-- A receive completion is written: its buffers go to the owner of the ring, who finds the frame (07 R208, R212). -/
def rxComplete (m r : Nat) (bufs : List Nat) (ws : List Word) (timed : Bool) (f : RxFrame) (s : Hamper × Chip) : Hamper × Chip :=
  let c := s.2
  let st := if timed then c.stampOut m else ((ws.drop 4).take 3, c)
  let c := st.2.rxDescriptor m r (ws.take 4 ++ st.1 ++ [lo32 c.sys.blk])
  let c := c.onMac m fun x => { x with rx := lmod x.rx r fun y =>
    if r < 3 then { y with inbox := y.inbox ++ [{ f with at_ := c.clk }] } else y }
  (s.1.complete (ringIx m r) bufs.length, if f.trunc then c else c.macCount m 0)

/-- Delivers the completion of a frame whose buffers are assembled, or holds it back while the DMA channel is halted. -/
def deliverRx (m r : Nat) (bs : List Byte) (trunc timed : Bool) (bufs : List Nat) (s : Hamper × Chip) : Hamper × Chip :=
  let c := s.2
  let t := if timed then c.timed m bs.length else (false, c)
  let c := t.2
  let ws := rxWords bs.length trunc bufs (if timed && !t.1 then lostStamp else [0, 0, 0]) c.sys.blk
  let f : RxFrame := { bytes := bs, trunc := trunc, bufs := bufs, at_ := c.clk }
  if c.dmaHalted m then (s.1, c.onMac m fun x => { x with heldBack := x.heldBack ++ [.rx r bufs ws t.1 f] })
  else rxComplete m r bufs ws t.1 f (s.1, c)

/-- The port takes frames now. -/
def Chip.rxOn (m : Nat) (c : Chip) : Bool :=
  if m < 2 then (c.mac m).up && (c.mac m).portEn else (c.mac m).portEn && !c.sys.xqSilent.getLsbD 15

/-- A truncated frame (07 R211): the filled buffers go to the owner. -/
def truncate (m r n : Nat) (bs : List Byte) (s : Hamper × Chip) : Hamper × Chip :=
  let bufs := (s.1.ring (ringIx m r)).posted.take n
  let h := s.1.take (ringIx m r) n
  let c := (((s.2.macCount m 5).onDrop fun d => { d with truncs := d.truncs + 1, truncSeen := true }).raiseFirst 0x0633 .note).fillBuffers bufs bs
  if n = 0 then (h, c) else deliverRx m r (bs.take (256 * n)) true false bufs (h, c)

/-- A frame whose FCS is bad, or that was cut off (07 R190, R210): it is written into buffers, which go back to the tail of
their ring; completions held back keep theirs. -/
def receiveBad (m r : Nat) (bs : List Byte) (s : Hamper × Chip) : Hamper × Chip :=
  let i := ringIx m r
  let ring := s.1.ring i
  let n := min (buffersFor bs) ring.posted.length
  ((s.1.take i n).giveBack i ring.asm.length, (s.2.fillBuffers (ring.posted.take n) bs).macCount m 1)

/-- A frame received whole on MAC m (07 R188 to R212). When the port has gone down within a frame, its end comes as that of a
frame with a bad FCS (07 R190, R210). -/
def receive (m : Nat) (bs : List Byte) (fcsOk : Bool) (s : Hamper × Chip) : Hamper × Chip :=
  let on := s.2.rxOn m
  let c := if on then s.2 else s.2.onMac m fun x => { x with cut := false }
  if !on && (fcsOk || !(s.2.mac m).cut) then s
  else if bs.length < 60 ∨ 1518 < bs.length then (s.1, c.macCount m 2)
  else if !c.accepts m bs ∨ (m < 2 ∧ (etherType bs).1 = 0x8808) then (s.1, c.macCount m 3)
  else match c.classify m bs with
    | none => (s.1, c.macCount m 4)
    | some r =>
      if !fcsOk then receiveBad m r bs (s.1, c)
      else
        let need := buffersFor bs
        let ring := s.1.ring (ringIx m r)
        -- with completions held back, their buffers stay in front of this frame's
        if ring.posted.length < need then truncate m r ring.posted.length bs (s.1, c)
        else
          let bufs := ring.posted.take need
          deliverRx m r bs false (c.rxTimed m r) bufs (s.1.take (ringIx m r) need, c.fillBuffers bufs bs)

/-- The firmware owner writes buffers into a return queue and advances its producer index (07 R213). -/
def Chip.giveBuffers (m r : Nat) (bufs : List Nat) (c : Chip) : Chip :=
  let t := rxTarget m r
  let g := ((c.mac m).rx.getD r {}).given
  let c := (bufs.zipIdx).foldl (fun c b => c.putWords (rxRet m r + 4 * ((g + b.2) % t)) [BitVec.ofNat 32 b.1]) c
  let g' := g + bufs.length
  (c.putWords (rxRet m r + 4 * t) [BitVec.ofNat 32 (g' % 65536)]).onMac m fun x => { x with rx := lmod x.rx r fun y => { y with given := g' } }

/-- The core that owns ring r of MAC m (07 R192); ring 0 of a LINK port is the FLOW block's. -/
def ringCore (m r : Nat) : Option Byte := if r = 2 then some 0x02 else if r = 0 ∧ m < 2 then none else some 0x01

/-- The owner of a ring reads the descriptor and the buffers of its oldest frame. 17 R453 gives the FLOW block's reads no
handling of their own: they meet no error here (log 82). -/
def Chip.readFrame (m r : Nat) (f : RxFrame) (c : Chip) : Bool × Chip :=
  match ringCore m r with
  | none => (true, c)
  | some core =>
    let x := (c.mac m).rx.getD r {}
    c.coreReads core ((rxBase m r + 32 * ((x.made - x.inbox.length) % rxTarget m r), 32) ::
      f.bufs.map fun b => (0x40000000 + b * 256, 256))

/-- The firmware owner takes the oldest frame of a ring and returns its buffers. A trapped core takes none, and an
uncorrectable word of the frame traps it (17 R453). -/
def Chip.popInbox (m r : Nat) (c : Chip) : Option RxFrame × Chip :=
  match ((c.mac m).rx.getD r {}).inbox with
  | [] => (none, c)
  | f :: _ =>
    if (ringCore m r).any c.err.traps then (none, c)
    else
    let q := c.readFrame m r f
    let c := q.2
    if !q.1 then (none, c)
    else (some f, (c.onMac m fun x => { x with rx := lmod x.rx r fun y => { y with inbox := y.inbox.drop 1 } }).giveBuffers m r f.bufs)

/-! Refill and returns (07 R209, R213) -/

def refill (m r : Nat) (s : Hamper × Chip) : Hamper × Chip :=
  let i := ringIx m r
  let q := s.1.ring i
  let n := rxTarget m r - (q.posted.length + q.asm.length + q.held.length)
  (s.1.refill i (min n s.1.free.length), s.2)

/-- Takes one returned index. -/
def takeReturn (i b : Nat) (s : Hamper × Chip) : Hamper × Chip :=
  if b ∈ (s.1.ring i).held then (s.1.returned i b, s.2)
  else (s.1, (s.2.onDrop fun d => { d with badReturns := d.badReturns + 1, badReturnSeen := true }).raise 0x0632 .note)

/-- The refill engine reads the return queue of a ring. -/
def returns (m r : Nat) (s : Hamper × Chip) : Hamper × Chip :=
  let i := ringIx m r
  let x := (s.2.mac m).rx.getD r {}
  if s.2.dmaHalted m then s
  else
    let t := rxTarget m r
    let p := s.2.dmaRead m (rxRet m r + 4 * t) 4
    match p.1 with
    | none => (s.1, p.2)
    | some bs =>
      let n := min t (ringDiff (BitVec.ofNat 16 (ofLe bs)) (BitVec.ofNat 16 x.taken))
      (List.range n).foldl (fun s k =>
        if s.2.dmaHalted m then s
        else
          let e := s.2.dmaRead m (rxRet m r + 4 * ((x.taken + k) % t)) 4
          match e.1 with
          | none => (s.1, e.2)
          | some q =>
            let c := e.2.onMac m fun y => { y with rx := lmod y.rx r fun z => { z with taken := z.taken + 1 } }
            takeReturn i (ofLe (q.take 2)) (s.1, c)) (s.1, p.2)

/-! Transmitting (07 R194, R214) -/

/-- Adds a frame to a transmit ring. -/
def Chip.enqueue (m r : Nat) (f : TxFrame) (c : Chip) : Chip :=
  c.onMac m fun x => { x with tx := lmod x.tx r fun y => { y with queue := y.queue ++ [f], fetched := y.fetched + 1 } }

/-- The firmware owner posts a frame in the next descriptor of a ring and advances the producer index; the MAC reads it (07
R214). -/
def Chip.postTx (m r : Nat) (f : TxFrame) (c : Chip) : Chip :=
  let n := ((c.mac m).tx.getD r {}).fetched
  let slot := n.toNat % 256
  let w1 := pack [(0, 11, f.bytes.length), (16, 1, b2n f.tsReq)]
  let c := c.putWords (txBase m r + 32 * slot) [Config.frameAddr m r n.toNat &&& 0xFFFFFFFC, w1]
  (c.putWords (txBase m r + 0x2000) [BitVec.ofNat 32 (n + 1).toNat]).enqueue m r { f with slot := some slot }

/-- Descriptors of a ring that are posted and not completed. -/
def TxSide.used (y : TxSide) : Nat := ringDiff y.fetched y.consumed

/-- A firmware owner sends a frame on a ring of its own (0 to 3): at once, or when the ring of 256 descriptors has room. -/
def Chip.queueTx (m r : Nat) (f : TxFrame) (c : Chip) : Chip :=
  let y := (c.mac m).tx.getD r {}
  if y.owner.isEmpty ∧ y.used < 256 then c.postTx m r f
  else c.onMac m fun x => { x with tx := lmod x.tx r fun y => { y with owner := y.owner ++ [f] } }

/-- A descriptor has completed: the owner posts the next frame that waits. -/
def Chip.postNext (m r : Nat) (c : Chip) : Chip :=
  match ((c.mac m).tx.getD r {}).owner with
  | [] => c
  | f :: _ => (c.onMac m fun x => { x with tx := lmod x.tx r fun y => { y with owner := y.owner.drop 1 } }).postTx m r f

/-- The status that keeps a frame from being sent now: down, or DROP disabled or peg 0. -/
def Chip.txBar (m : Nat) (c : Chip) : Option Nat :=
  if m < 2 then
    if !((c.mac m).up && (c.mac m).portEn) then some 1 else if c.boot.peg = 0 then some 5 else none
  else if !(c.mac m).portEn ∨ c.boot.peg = 0 then some 5 else none

/-- Writes the completion of a descriptor (07 R214): its DMA channel writes words 1, 2 and 4 to 7; word 3 is nobody's. A channel
that its first write halts writes no more of it, and holds the completion back (17 R454, R455). -/
def Chip.txComplete (m r slot attempts status : Nat) (ts : List Word) (c : Chip) : Chip :=
  let n := ((c.mac m).tx.getD r {}).consumed.toNat
  let a := txBase m r + 32 * slot
  let w1 := (c.word (a + 4) &&& 0x00FFFFFF) ||| BitVec.ofNat 32 (status * 2 ^ 24)
  let phase : Word := if n / 256 % 2 = 0 then 0x80000000 else 0
  let put := fun o ws (c : Chip) => (c.innerStore (BitVec.ofNat 8 (0x30 + m)) (a + o) (wordBytes ws)).2
  let c := put 4 [w1, BitVec.ofNat 32 attempts] c
  if c.dmaHalted m then c.onMac m fun x => { x with heldBack := x.heldBack ++ [.tx r slot attempts status ts false] }
  else
    let c := (put 16 (ts ++ [phase]) c).onMac m fun x => { x with
      tx := lmod x.tx r fun y => { y with consumed := y.consumed + 1 } }
    let c := if status = 0 then c else c.macCount m 7
    (if 4 ≤ r then c.pulse 26 else c).postNext m r

/-- A frame of a ring is done with, with a status and timestamp words: its descriptor completes, or waits while the DMA
channel is halted (17 R454). -/
def Chip.txDone (m r : Nat) (f : TxFrame) (status : Nat) (ts : List Word) (timed : Bool) (c : Chip) : Chip :=
  let c := if status = 0 then c.macCount m 6 else c
  match f.slot with
  | none => c
  | some slot =>
    if c.dmaHalted m then
      c.onMac m fun x => { x with heldBack := x.heldBack ++ [.tx r slot f.attempts status ts timed] }
    else
      let st := if timed then c.stampOut m else (ts, c)
      st.2.txComplete m r slot f.attempts status st.1

/-- A frame of ring r is being sent: no later descriptor of the ring completes before its own (07 R214). -/
def Mac.busy (x : Mac) (r : Nat) : Bool := x.sending.any fun q => q.1 = r

/-- Completes without sending what stands at the head of a ring and cannot be sent; at most `n` frames. -/
def Chip.txFlush (m r : Nat) : Nat → Chip → Chip
  | 0, c => c
  | n + 1, c =>
    match ((c.mac m).tx.getD r {}).queue with
    | [] => c
    | f :: _ =>
      match f.fixed <|> c.txBar m with
      | some s =>
        if (c.mac m).busy r then c
        else ((c.onMac m fun x => { x with tx := lmod x.tx r fun y => { y with queue := y.queue.drop 1 } }).txDone m r f s [0, 0, 0] false).txFlush m r n
      | none => c

/-- Flushes every ring of MAC m. -/
def Chip.txFlushAll (m : Nat) (c : Chip) : Chip :=
  (List.range 8).foldl (fun c r =>
    let y := (c.mac m).tx.getD r {}
    c.txFlush m r (y.queue.length + y.owner.length)) c

/-- Starts the head of ring r. -/
def Chip.txStart (m r : Nat) (c : Chip) : Chip :=
  match ((c.mac m).tx.getD r {}).queue with
  | [] => c
  | f :: _ => c.onMac m fun x => { x with
      sending := some (r, { f with attempts := f.attempts + 1 })
      tx := lmod x.tx r fun y => { y with queue := y.queue.drop 1 } }

/-- A LINK port chooses its next frame: the non-empty ring with the lowest index (07 R194). A halted DMA channel starts none
(17 R454). -/
def Chip.linkKick (m : Nat) (c : Chip) : Chip :=
  let c := c.txFlushAll m
  let stopped := c.sys.xqSilent.getLsbD (if m = 0 then 10 else 12)
  if (c.mac m).sending.isSome ∨ stopped ∨ c.dmaHalted m then c
  else match (List.range 8).find? fun r => !(((c.mac m).tx.getD r {}).queue.isEmpty) with
    | some r => c.txStart m r
    | none => c

/-- A frame on the wire is padded to 60 bytes. -/
def padFrame (bs : List Byte) : List Byte := bs ++ List.replicate (60 - bs.length) 0

/-- What the CMD core does when a PTP frame has been sent at `ns`: a Sync is followed by its Follow_Up (11 R314); a
Delay_Req's egress time is kept (11 R313). -/
def Chip.ptpSent (m r : Nat) (f : TxFrame) (ns : Nat) (c : Chip) : Chip :=
  let c := match f.asks with
    | some q => c.onPtp fun p => { p with ports := lmod p.ports m fun x => { x with asked := some (q, ns) } }
    | none => c
  if f.follow = [] then c
  else
    let o := f.follow.length - 10
    c.queueTx m r { bytes := f.follow.take o ++ beBytes 6 (ns / 10 ^ 9) ++ beBytes 4 (ns % 10 ^ 9), postedAt := c.clk }

/-- The frame being sent has ended well (07 R196, R214). -/
def Chip.txSent (m : Nat) (c : Chip) : Chip :=
  match (c.mac m).sending with
  | none => c
  | some (r, f) =>
    let c := (c.onMac m fun x => { x with sending := none }).emit (.frame m (padFrame f.bytes))
    let ns := c.sfdTime m f.bytes.length
    let t := if f.tsReq then c.timed m f.bytes.length else (false, c)
    (t.2.ptpSent m r f ns).txDone m r f 0 (if f.tsReq && !t.1 then lostStamp else [0, 0, 0]) t.1

/-- The DMA channel of MAC m runs again: what it held back completes in order, until it halts again (17 R454). -/
def releaseHeld (m : Nat) (s : Hamper × Chip) : Hamper × Chip :=
  (s.2.mac m).heldBack.foldl (fun s h =>
    let c := s.2
    if c.dmaHalted m then (s.1, c.onMac m fun x => { x with heldBack := x.heldBack ++ [h] })
    else match h with
    | .rx ring bufs words timed frame => rxComplete m ring bufs words timed frame (s.1, c)
    | .tx ring slot attempts status ts timed =>
      let st := if timed then c.stampOut m else (ts, c)
      (s.1, st.2.txComplete m ring slot attempts status st.1))
    (s.1, s.2.onMac m fun x => { x with heldBack := [] })

/-- Reads the descriptors posted on a host ring (07 R214). ADDR must be 4-byte aligned; what an unaligned one in shared SRAM
does is not said, and here it completes with BAD_DESC too (log 77). -/
def Chip.txFetch (m r : Nat) (c : Chip) : Chip :=
  if r < 4 ∨ c.dmaHalted m then c
  else
    let p := c.dmaRead m (txBase m r + 0x2000) 4
    match p.1 with
    | none => p.2
    | some bs =>
      let y := (c.mac m).tx.getD r {}
      let room := 256 - ringDiff y.fetched y.consumed
      let n := min room (ringDiff (BitVec.ofNat 16 (ofLe bs)) y.fetched)
      (List.range n).foldl (fun c _ =>
        if c.dmaHalted m then c
        else
          let slot := ((c.mac m).tx.getD r {}).fetched.toNat % 256
          let d := c.dmaRead m (txBase m r + 32 * slot) 8
          match d.1 with
          | none => d.2
          | some b =>
            let a := ofLe (b.take 4)
            let w1 := ofLe (b.drop 4)
            let len := w1 % 2048
            let bad := a % 4 ≠ 0 ∨ len < 14 ∨ 1518 < len ∨ a < 0x40000000 ∨ 0x40800000 < a + len
            let q := if bad then (some [], d.2) else d.2.dmaRead m a len
            match q.1 with
            | none => q.2
            | some frame => q.2.enqueue m r
                { slot := some slot, fixed := if bad then some 4 else none, bytes := frame, tsReq := w1.testBit 16, postedAt := c.clk })
        p.2

/-! DROP (07 R199 to R202) -/

/-- The queue of a DROP ring. -/
def dropQueue (r : Nat) : Nat := [0, 1, 2, 2, 0, 1, 2, 3].getD r 0

/-- The ring whose head is the head of queue q: one whose frame has been tried and waits in back-off stays (07 R201). -/
def Chip.dropHead (q : Nat) (c : Chip) : Option Nat :=
  let mine := (List.range 8).filter fun r => dropQueue r = q && !(((c.mac 2).tx.getD r {}).queue.isEmpty)
  let tried := fun r => ((c.mac 2).tx.getD r {}).queue.head?.any fun f => 0 < f.attempts
  (mine.find? tried).or mine.head?

/-- A STALE or EXCESS_COLL discard is counted (07 R200, R202). -/
def Chip.dropNote (status : Nat) (c : Chip) : Chip := (c.dropCount (if status = 2 then 2 else 3)).raiseFirst 0x0801 .note

/-- Marks the frames of a ring that `stale` names, of which none has been tried: they complete with STALE in their turn. -/
def Chip.markStale (m r : Nat) (stale : TxFrame → Bool) (c : Chip) : Chip :=
  let mark := fun f : TxFrame => if stale f && f.attempts = 0 && f.fixed.isNone then { f with fixed := some 3 } else f
  c.onMac m fun x => { x with tx := lmod x.tx r fun y => { y with queue := y.queue.map mark, owner := y.owner.map mark } }

/-- Discards the stale frames of Q3, unless they have started (07 R202). -/
def Chip.dropStale (c : Chip) : Chip :=
  let stale := fun f : TxFrame => decide (f.postedAt + c.dropIt 2 * usClk ≤ c.clk)
  let hit := ((c.mac 2).tx.getD 7 {}).queue.filter fun f => stale f && f.attempts = 0 && f.fixed.isNone
  (hit.foldl (fun c _ => c.dropNote 3) (c.markStale 2 7 stale)).txFlushAll 2

/-! Fallback speech (07 R203 to R207) -/

/-- The speech index of the present media time. -/
def Chip.speechIndex (c : Chip) : Nat := (c.nowNs - c.epoch * 10 ^ 9) * 16000 / 10 ^ 9

/-- The 64-bit value with low 32 bits `lo` nearest to `near`. -/
def extend32 (lo near : Nat) : Nat :=
  let base := near / 2 ^ 32 * 2 ^ 32 + lo
  if near + 2 ^ 31 < base ∧ 2 ^ 32 ≤ base then base - 2 ^ 32
  else if base + 2 ^ 31 ≤ near then base + 2 ^ 32 else base

/-- Channel n is enabled. -/
def Chip.speechPeg (n : Nat) (c : Chip) : Nat := c.dropIt (0x20 + n)

/-- The group address of control frames. -/
def ctlGroup : Nat := 0x03DA00000001

/-- A frame of the control EtherType and kind 0x20. -/
def Chip.isSpeech (bs : List Byte) (c : Chip) : Bool :=
  let e := etherType bs
  e.1 = c.sysIt 0x16 && be bs e.2 1 = 0x20

/-- A channel's buffer takes the 64 samples from index mf on, where none was received before; it holds 4160 samples, the
latest ones (07 R205; which ones leave it is the model's choice, log 77). -/
def Speech.take (mf : Nat) (at_ : Nat → Int) (x : Speech) : Map Int :=
  let buf := (List.range 64).foldl (fun (b : Map Int) i =>
    if (mget? b (mf + i)).isSome then b else mset b (mf + i) (at_ i)) x.buf
  buf.drop (buf.length - 4160)

/-- A speech frame that passed its FCS (07 R193, R204, R205). -/
def Chip.speechFrame (bs : List Byte) (c : Chip) : Chip :=
  let h := (etherType bs).2
  let mask := be bs (h + 3) 1 % 16
  let peg := be bs (h + 2) 1
  let now := c.speechIndex
  let mf := extend32 (be bs (h + 4) 4) now
  let chans := indices 4 mask.testBit
  let cp := chans.length
  if !c.rxOn 2 ∨ !c.isSpeech bs then c
  else if bs.length < 60 ∨ 1518 < bs.length then c.macCount 2 2
  else if !c.accepts 2 bs then c.macCount 2 3
  else if be bs 0 6 ≠ ctlGroup ∨ !c.levelOk (be bs (h + 1) 1) then c.macCount 2 4
  else if (mf + c.dropIt 3) * 10 ^ 9 < (c.nowNs - c.epoch * 10 ^ 9) * 16000 then c.dropCount 4
  else if now + 4096 < mf then c.dropCount 5
  else (chans.zipIdx).foldl (fun c q =>
    let n := q.1
    if c.speechPeg n ≠ peg ∨ peg = 0 then c
    else
      let x := c.drop.speech.getD n {}
      let buf := x.take mf fun i => signed 16 (be bs (h + 12 + 2 * (i * cp + q.2)) 2)
      let y : Speech := { x with buf := buf, lastAt := some c.clk, heard := true, silent := false }
      let c := c.onDrop fun d => { d with speech := d.speech.set n y }
      if x.silent then c.raise 0x0804 .note n else c) c

/-- A frame with the unit's own source address while it does not transmit (19 R489). -/
def Chip.pegConflict (bs : List Byte) (c : Chip) : Chip :=
  if c.rxOn 2 ∧ be bs 6 6 = c.station ∧ c.boot.peg ≠ 0 ∧ (c.mac 2).sending.isNone ∧ !c.boot.conflict then
    (c.onBoot fun b => { b with conflict := true }).raise 0x0012 .fault
  else c

/-- A speech frame on the bus; a bad FCS is counted, also of a frame within which the port went down (07 R205, R210). -/
def Chip.speechRx (bs : List Byte) (fcsOk : Bool) (c : Chip) : Chip :=
  if fcsOk then (c.pegConflict bs).speechFrame bs
  else if c.rxOn 2 then c.macCount 2 1
  else if (c.mac 2).cut then (c.onMac 2 fun x => { x with cut := false }).macCount 2 1
  else c

/-- Fallback sources captured during block b (07 R206): an enabled channel's converter output, with what it misses. -/
def Chip.speechSources (b : Nat) (c : Chip) : Map (List Smp) × Chip :=
  let fac := fsOf c.prof / 16000
  (List.range 4).foldl (fun (a : Map (List Smp) × Chip) n =>
    let c := a.2
    let x := c.drop.speech.getD n {}
    if !(c.speechAt n (b * c.B)).1 then (a.1, c.onDrop fun d => { d with speech := d.speech.set n { x with was := none } })
    else
      let xs := (List.range c.B).map fun i => match c.speechOut n (b * c.B + i) with
        | some w => enter (BitVec.ofNat 32 (w.toNat * 256))
        | none => {}
      let miss := ((List.range c.B).filter fun i => (b * c.B + i) % fac = 0 && (c.speechOut n (b * c.B + i)).isNone).length
      let c := c.onDrop fun d => { d with speech := d.speech.set n { x with was := none, miss := x.miss + BitVec.ofNat 32 miss } }
      let c := if 0 < miss then c.raiseFirst 0x0802 .note n n else c
      (mset a.1 (2720 + n) xs, c)) ([], c)

/-- What a press does to the speech buffers at block L (07 R207). What a channel emits in block L - 1 is captured at tick L
(R206), after this: it stays until then. -/
def Chip.speechLand (old new : Items) (L : Nat) (c : Chip) : Chip :=
  let ch := fun f => itemIn old (item 0x0E 0 f) ≠ itemIn new (item 0x0E 0 f)
  let was := fun f => (itemIn old (item 0x0E 0 f)).toNat
  let clear := fun (n : Nat) (x : Speech) =>
    if ch 3 || ch (0x20 + n) then
      { x with was := x.was.or (some (L, decide (was (0x20 + n) ≠ 0), was 3 + 24, x.buf)), buf := [] }
    else x
  c.onDrop fun d => { d with speech := d.speech.mapIdx clear }

/-! Ports (07 R189, R190, R222) -/

/-- LINK_UP clears (07 R190); `note` is false when a press disabled the port. -/
def Chip.linkFalls (m : Nat) (note : Bool) (c : Chip) : Chip :=
  if !(c.mac m).up then c
  else
    let sending := (c.mac m).sending
    let c := c.onMac m fun x => { x with up := false, change := true, cut := true, sending := none }
    let c := match sending with
      | some (r, f) => c.txDone m r f 1 [0, 0, 0] false
      | none => c
    let c := (c.txFlushAll m).ptpDown m
    if note then c.raise (if m = 0 then 0x0601 else 0x0701) .note else c

/-- An absent module or a transmitter fault on an enabled port (07 R189). -/
def Chip.sfpFail (m : Nat) (c : Chip) : Chip := (c.raise (if m = 0 then 0x0603 else 0x0703) .fault).linkFalls m true

/-- LINK_CTRL follows the enable item of a port. A module that is absent or faulty by then fails at once. -/
def Chip.linkEnable (m : Nat) (on : Bool) (c : Chip) : Chip :=
  if on then
    let c := c.onMac m fun x => { x with portEn := true, txDisable := false }
    if (c.mac m).modAbs || (c.mac m).txFault then c.sfpFail m else c
  else (c.linkFalls m false).onMac m fun x => { x with portEn := false, txDisable := true }

/-- DROP is enabled or not (07 R199): disabled, its descriptors complete with DISABLED. -/
def Chip.dropEnable (on : Bool) (c : Chip) : Chip :=
  let c := c.onMac 2 fun x => { x with portEn := on, up := on, cut := !on && (x.portEn || x.cut) }
  let c := if on then c.ptpUp 2 else c.ptpDown 2
  if on then c
  else
    let c := match (c.mac 2).sending with
      | some (r, f) => ((c.onDrop fun d => { d with carrier := false }).onMac 2 fun x => { x with sending := none }).txDone 2 r f 5
          [0, 0, 0] false
      | none => c
    c.txFlushAll 2

/-- The effect of a press on the ports. -/
def Chip.portLand (old new : Items) (c : Chip) : Chip :=
  if c.boot.stage = .rom ∨ c.boot.stage = .load ∨ c.boot.stage = .sram ∨ c.boot.stage = .line then c
  else
    let ch := fun id => itemIn old id ≠ itemIn new id
    let on := fun id => itemIn new id = 1
    let c := if ch (item 0x01 0 0x38) then c.linkEnable 0 (on (item 0x01 0 0x38)) else c
    let c := if ch (item 0x01 0 0x39) then c.linkEnable 1 (on (item 0x01 0 0x39)) else c
    if ch (item 0x0E 0 1) then c.dropEnable (on (item 0x0E 0 1)) else c

/-! The commands -/

def execRxTruncation (mac : Fin 3) (bytes : List Byte) (t : Nat) (s : State) : Host.Outcome State Fault Refusal :=
  actHam (fun p =>
    let c := p.2.advance t
    let c := if mac.val = 2 then c.pegConflict bytes else c
    if !c.rxOn mac.val ∨ !c.accepts mac.val bytes then (p.1, c)
    else match c.classify mac.val bytes with
      | none => (p.1, c)
      | some r =>
        let n := (p.1.ring (ringIx mac.val r)).posted.length
        if n < buffersFor bytes then truncate mac.val r n bytes (p.1, c) else (p.1, c)) s

def execLinkFrameRx (port : Fin 2) (bytes : List Byte) (fcsOk : Bool) (t : Nat) (s : State) : Host.Outcome State Fault Refusal :=
  actHam (fun p => receive port.val bytes fcsOk (p.1, p.2.advance t)) s

def execHamperRefill (mac : Fin 3) (ring : Fin 8) (s : State) : Host.Outcome State Fault Refusal :=
  actHam (refill mac.val ring.val) s

def execBufferReturn (mac : Fin 3) (ring : Fin 8) (s : State) : Host.Outcome State Fault Refusal :=
  actHam (returns mac.val ring.val) s

/-- A MAC reads a ring's producer index (07 R214); a LINK port that sends nothing starts the next frame. -/
def execTxRingPoll (mac : Fin 3) (ring : Fin 8) (t : Nat) (s : State) : Host.Outcome State Fault Refusal :=
  act (fun c =>
    let c := (c.advance t).txFetch mac.val ring.val
    if mac.val < 2 then c.linkKick mac.val else c.txFlushAll 2) s

def execLinkTxFrameEnd (port : Fin 2) (t : Nat) (s : State) : Host.Outcome State Fault Refusal :=
  act (fun c => ((c.advance t).txSent port.val).linkKick port.val) s

/-- Audio frames that have not started by tick O are STALE (07 R194). -/
def execAudioFrameStale (port : Fin 2) (s : State) : Host.Outcome State Fault Refusal :=
  act (fun c =>
    let stale := fun f : TxFrame => match f.seq with | some o => decide (o ≤ c.sys.blk) | none => false
    (c.markStale port.val 0 stale).txFlushAll port.val) s

/-- 10 ms of block lock without fault (07 R189). -/
def execLinkUp (port : Fin 2) (t : Nat) (s : State) : Host.Outcome State Fault Refusal :=
  act (fun c =>
    let c := c.advance t
    let x := c.mac port.val
    if x.portEn && !x.up && !x.modAbs && !x.txFault then
      (((c.onMac port.val fun x => { x with
        up := true, change := true, cut := false, blockLock := true, localFault := false, remoteFault := false }).ptpUp
          port.val).raise (if port.val = 0 then 0x0602 else 0x0702) .note).linkKick port.val
    else c) s

/-- Block lock is lost or a fault shows (07 R189, R190). -/
def execLinkDown (port : Fin 2) (blockLock localFault remoteFault : Bool) (s : State) : Host.Outcome State Fault Refusal :=
  act (fun c =>
    let c := c.onMac port.val fun x => { x with
      blockLock := blockLock, localFault := localFault, remoteFault := remoteFault }
    if !blockLock || localFault || remoteFault then c.linkFalls port.val true else c) s

/-- The SFP+ module's pins (07 R189, R222). -/
def execSfpFault (port : Fin 2) (modAbs : Bool) (optics : SfpOptics) (s : State) : Host.Outcome State Fault Refusal :=
  act (fun c =>
    let x := c.mac port.val
    let c := c.onMac port.val fun x => { x with modAbs := modAbs, txFault := optics.txFault, rxLos := optics.rxLos }
    if x.portEn && ((modAbs && !x.modAbs) || (optics.txFault && !x.txFault)) then c.sfpFail port.val else c) s

/-- A transmit opportunity (07 R201): the head of the highest non-empty queue, unless it is in back-off. -/
def execDropTxOpportunity (t : Nat) (s : State) : Host.Outcome State Fault Refusal :=
  act (fun c =>
    let c := (c.advance t).txFlushAll 2
    if (c.mac 2).sending.isSome ∨ (c.txBar 2).isSome ∨ c.sys.xqSilent.getLsbD 16 ∨ c.dmaHalted 2 then c
    else match [3, 2, 1, 0].findSome? fun q => c.dropHead q with
      | none => c
      | some r =>
        match ((c.mac 2).tx.getD r {}).queue with
        | f :: _ => if c.clk < f.waitUntil then c else (c.txStart 2 r).onDrop fun d => { d with carrier := true }
        | [] => c) s

/-- A collision (07 R200): jam, then back-off, or a discard after the 16th attempt. -/
def execDropCollision (lateColl : Bool) (t : Nat) (s : State) : Host.Outcome State Fault Refusal :=
  act (fun c =>
    let c := c.advance t
    match (c.mac 2).sending with
    | none => c
    | some (r, f) =>
      let c := ((c.dropCount 0).onDrop fun d => { d with collSeen := true, carrier := false }).onMac 2 fun x => { x with sending := none }
      let c := if lateColl then c.dropCount 1 else c
      if 16 ≤ f.attempts then ((c.dropNote 2).txDone 2 r f 2 [0, 0, 0] false).txFlushAll 2
      else
        let slots := Config.backoff c.fresh % 2 ^ min f.attempts 10
        (c.tick).onMac 2 fun x => { x with tx := lmod x.tx r fun y =>
          { y with queue := { f with waitUntil := t + slots * 40960 } :: y.queue } }) s

def execDropTxEnd (t : Nat) (s : State) : Host.Outcome State Fault Refusal :=
  act (fun c => (((c.advance t).txSent 2).onDrop fun d => { d with carrier := false }).txFlushAll 2) s

def execDropQ3Stale (t : Nat) (s : State) : Host.Outcome State Fault Refusal :=
  act (fun c => (c.advance t).dropStale) s

def execSpeechFrameRx (bytes : List Byte) (fcsOk : Bool) (t : Nat) (s : State) : Host.Outcome State Fault Refusal :=
  act (fun c => (c.advance t).speechRx bytes fcsOk) s

/-- A window of speech channel n ends (07 R207). -/
def execSpeechWindow (n : Fin 4) (s : State) : Host.Outcome State Fault Refusal :=
  act (fun c =>
    let x := c.drop.speech.getD n.val {}
    let y : Speech := { x with heard := false, silent := x.silent || (c.speechPeg n.val ≠ 0 && !x.heard) }
    let c := c.onDrop fun d => { d with speech := d.speech.set n.val y }
    if c.speechPeg n.val ≠ 0 && !x.heard && !x.silent then c.raise 0x0803 .fault n.val else c) s

end Sys2Proof.Machine
end

