-- ==== Sys2Proof/Machine/Flows.lean ====
section
/-! DEFINITION. Audio flows (06): the frame, talking, the flow table and its airing copy, copies and their windows,
presentation, and management frames. -/

namespace Sys2Proof.Machine

/-! Items that presses will put in force -/

/-- Items with a list of new values; a value at its default is not listed. The entries of array filters are no items. -/
def setItems (m : Items) (l : List (Nat × Int)) : Items :=
  l.foldl (fun m q => if itemFam q.1 = 6 then m else if q.2 = itemDefault q.1 then mdel m q.1 else mset m q.1 q.2) m

/-- Adds a press behind those that land no later. -/
def insertPress (q : Press) : List Press → List Press
  | [] => [q]
  | x :: xs => if q.land < x.land then q :: x :: xs else x :: insertPress q xs

/-- The accepted presses that land at block P or before, in the order in which they apply (13 R371). -/
def Chip.pressesTo (P : Nat) (c : Chip) : List Press :=
  (c.cmd.presses.foldl (fun a q => insertPress q a) []).filter fun q => q.land ≤ P

/-- The items in force for graph block P. -/
def Chip.itemsAt (P : Nat) (c : Chip) : Items := (c.pressesTo P).foldl (fun m q => setItems m q.items) c.sys.now.items

/-! Contexts (06 R146 to R150) -/

/-- Contexts that talk (1) or listen (2). -/
def ctxsOf (p : Profile) (items : Items) (dir : Nat) : List Nat :=
  (flowCtxs items).filter fun x => flowIt items x 1 = dir && ctxFits p items x

/-! The flow table (06 R169) -/

/-- A lookup key: address, flow ID, whether UDP. -/
structure Key where
  addr : Nat
  flow : Nat
  udp : Bool
  deriving DecidableEq, Repr

/-- The hash of a key under a seed. -/
def Key.hash (seed : Nat) (k : Key) : Nat :=
  ((beBytes 6 k.addr ++ beBytes 2 k.flow).foldl (crcByte 0x82F63B78) (seed * 0x11111111)) ^^^ 0xFFFFFFFF

/-- The key of a context for one of its talkers. -/
def ctxKey (items : Items) (x f : Nat) : Key :=
  let udp := flowIt items x 5 = 1
  { addr := if udp then flowIt items x f % 2 ^ 32 else flowIt items x f, flow := flowIt items x 2, udp := udp }

/-- The keys of the LISTEN contexts with their contexts, in the order of a build. -/
def tableKeys (p : Profile) (items : Items) : List (Key × Nat) :=
  (ctxsOf p items 2).flatMap fun x =>
    (ctxKey items x 0x20, x) :: (if flowIt items x 0x21 = 0 then [] else [(ctxKey items x 0x21, x)])

/-- The first empty slot of a key's probe sequence, with its probe number. -/
def freeSlot (slots : Map Slot) (h : Nat) : Option (Nat × Nat) :=
  ((List.range 8).map fun p => ((h + p) % 4096, p)).find? fun q => (mget? slots q.1).isNone

/-- Inserts keys under a seed. -/
def insertKeys (seed : Nat) : List (Key × Nat) → FlowTable → Option FlowTable
  | [], t => some t
  | (k, x) :: ks, t =>
    match freeSlot t.slots (k.hash seed) with
    | none => none
    | some (j, p) => insertKeys seed ks
        { t with slots := mset t.slots j ⟨k.addr, k.flow, x, k.udp⟩, maxProbe := max t.maxProbe (p + 1) }

/-- The table of the LISTEN contexts, under the first seed that fits (06 R170). -/
def buildTable (p : Profile) (items : Items) : Option FlowTable :=
  let ks := tableKeys p items
  (List.range 16).findSome? fun i => insertKeys i ks { seed := i }

/-- Looks a key up: it stops at the key, at an empty slot, or after 8 slots. -/
def lookupFrom (slots : Map Slot) (k : Key) (h : Nat) : Nat → Nat → Option Nat
  | 0, _ => none
  | n + 1, p =>
    match mget? slots ((h + p) % 4096) with
    | none => none
    | some s => if s.addr = k.addr ∧ s.flow = k.flow ∧ s.udp = k.udp then some s.ctx else lookupFrom slots k h n (p + 1)

def FlowTable.lookup (t : FlowTable) (k : Key) : Option Nat := lookupFrom t.slots k (k.hash t.seed) 8 0

/-- The words of a slot. -/
def Slot.words (s : Slot) : List Word :=
  [lo32 s.addr, pack [(0, 16, s.addr / 2 ^ 32), (16, 16, s.flow)], pack [(0, 10, s.ctx), (10, 1, b2n s.udp), (31, 1, 1)], 0]

/-- The CRC of a copy over its 65,536 bytes. -/
def FlowTable.crc (t : FlowTable) : Word :=
  BitVec.ofNat 32 (((List.range 4096).foldl (fun a j =>
    let ws := match mget? t.slots j with
      | some s => s.words
      | none => [0, 0, 0, 0]
    (wordBytes ws).foldl (crcByte 0x82F63B78) a) 0xFFFFFFFF) ^^^ 0xFFFFFFFF)

/-- Byte o of a copy. -/
def FlowTable.byte (t : FlowTable) (o : Nat) : Byte :=
  match mget? t.slots (o / 16) with
  | some s => (wordBytes s.words).getD (o % 16) 0
  | none => 0

/-- FLOW_TABLE_SEED of a copy. -/
def FlowTable.seedWord (t : FlowTable) : Word := pack [(0, 4, t.seed), (8, 4, t.maxProbe)]

/-- Lookup items (06 R170). -/
def isLookup (id : Nat) : Bool :=
  (itemFam id = 8 && [1, 2, 5, 0x20, 0x21].contains (itemField id)) || id = item 1 0 0x11 || id = item 1 0 0x12

/-- The lookup items among some items. -/
def lookups (items : Items) : Items := items.filter fun q => isLookup q.1

/-! Frames (06 R151 to R155) -/

/-- An Ethernet header: destination, source, VLAN tag control (0 none), EtherType. -/
def ethHead (dst src tag etype : Nat) : List Byte :=
  beBytes 6 dst ++ beBytes 6 src ++ (if tag = 0 then [] else beBytes 2 0x8100 ++ beBytes 2 tag) ++ beBytes 2 etype

/-- Ones' complement sum of 16-bit big-endian words. -/
def onesSum (bs : List Byte) : Nat :=
  let s := total ((List.range ((bs.length + 1) / 2)).map fun i => be bs (2 * i) 2)
  let s := s % 65536 + s / 65536
  s % 65536 + s / 65536

/-- The IPv4 and UDP headers of a payload of `len` bytes (06 R154). -/
def ipUdpHead (tos ttl src dst port len : Nat) : List Byte :=
  let a := [0x45, BitVec.ofNat 8 tos] ++ beBytes 2 (28 + len) ++ beBytes 2 0 ++ beBytes 2 0x4000 ++
    [BitVec.ofNat 8 ttl, 17]
  let b := beBytes 4 src ++ beBytes 4 dst
  let sum := 65535 - onesSum (a ++ b)
  a ++ beBytes 2 sum ++ b ++ beBytes 2 port ++ beBytes 2 port ++ beBytes 2 (8 + len) ++ beBytes 2 0

/-- Zero bytes up to a multiple of 4. -/
def pad4 (bs : List Byte) : List Byte := bs ++ List.replicate ((4 - bs.length % 4) % 4) 0

/-- The header before a flow payload of context x. -/
def Chip.flowHead (items : Items) (x len : Nat) (c : Chip) : List Byte :=
  let g := flowIt items x
  let sys := fun f => (itemIn items (item 0x01 0 f)).toNat
  let tag := if g 0x12 = 0 then 0 else g 0x13 * 2 ^ 13 + g 0x12
  if g 5 = 0 then ethHead (g 0x10) c.station tag (sys 0x11)
  else
    let dst := if isMulticast (g 0x11) then ipGroup (g 0x11) else g 0x10
    ethHead dst c.station tag 0x800 ++ ipUdpHead (g 0x14 * 4) (sys 0x14) (sys 0x13) (g 0x11) (sys 0x12) len

/-- The talker's status in output block o and whether it sends (06 R158): FAULT 1, STANDBY 2, ORPHAN 4, WITHDRAWN 8. A swap
under UNMATCHED moves the duty behind a block of its own (12 R347). -/
def Chip.talkStatus (o : Nat) (c : Chip) : Option Nat :=
  let before := c.twin.dutyTo.filter fun q => c.twin.unmatched && o ≤ q.1
  if c.err.safe then some 9
  else if before.any fun q => q.2 && c.twin.role = .standby then some 0
  else if before.any fun q => !q.2 && c.twin.role = .lead then none
  else match c.twin.role with
    | .standby => if c.twin.unmatched then none else some 2
    | .orphan => some 6
    | .mending => if c.twin.unmatched then none else some 10
    | _ => some 0

/-- The timing byte of a profile. -/
def timingByte (p : Profile) : Nat := (if fsOf p = 48000 then 0x10 else 0x20) + blkLen p

/-- The flow payload of context x for output block o: `outs` holds, per sink element, the samples that left the exit
check and whether any was substituted. -/
def Chip.audioPayload (items : Items) (x o : Nat) (outs : Map (List Smp × Bool)) (status : Nat) (c : Chip) : List Byte :=
  let p := c.prof
  let n := flowIt items x 3
  let base := flowIt items x 4
  let level := (itemIn items (item 0x01 0 0x10)).toNat
  let chan := fun k => if c.err.safe then (silence (blkLen p), true) else mget outs (base + k) (silence (blkLen p), false)
  let all24 := (List.range n).map fun k => ((chan k).1.map to24, (chan k).2)
  let residues := all24.map fun q => blockResidue (level ≠ 2 && (q.2 || status / 8 % 2 = 1)) q.1
  let status := if residues.contains 254 then status ||| 8 else status
  let head := [0x01, BitVec.ofNat 8 level] ++ beBytes 2 (flowIt items x 2) ++ beBytes 4 o ++
    [BitVec.ofNat 8 (flowIt items x 6), BitVec.ofNat 8 n] ++
    (if level = 2 then List.replicate 6 0
     else [BitVec.ofNat 8 (timingByte p), BitVec.ofNat 8 status, BitVec.ofNat 8 c.boot.peg.toNat, 0, 0, 0])
  let body := (List.range (blkLen p)).flatMap fun i => all24.flatMap fun q => beBytes 4 (pattern 24 (q.1.getD i {}).v * 256)
  pad4 (head ++ body ++ residues)

/-- Sends the frames of output block o (06 R156); a frame that holds a sample of `late` is not whole and goes STALE
(01 R543). -/
def Chip.talk (items : Items) (o : Nat) (outs : Map (List Smp × Bool)) (late : List Nat) (c : Chip) : Chip :=
  match c.talkStatus o with
  | none => c
  | some status =>
    let c := (ctxsOf c.prof items 1).foldl (fun c x =>
      let pay := c.audioPayload items x o outs status
      let bs := c.flowHead items x pay.length ++ pay
      let bad := (List.range (flowIt items x 3)).any fun k => late.contains (flowIt items x 4 + k)
      let f : TxFrame := { bytes := bs, seq := some o, fixed := if bad then some 3 else none, postedAt := c.clk }
      (c.queueTx 0 0 f).queueTx 1 0 f) c
    (c.linkKick 0).linkKick 1

/-! Copies (06 R160 to R165) -/

/-- A frame of ring 0: where the flow header begins, its source address and form. -/
structure FlowFrame where
  bytes : List Byte
  h : Nat
  src : Nat
  udp : Bool

/-- The form of a frame, by the ethertype and UDP port in force at its arrival (log 91). -/
def Chip.flowFrame (bs : List Byte) (c : Chip) : FlowFrame :=
  let e := etherType bs
  if e.1 = c.sysIt 0x11 then { bytes := bs, h := e.2, src := be bs 6 6, udp := false }
  else { bytes := bs, h := e.2 + 28, src := be bs (e.2 + 12) 4, udp := true }

/-- A UDP-form frame obeys R155. -/
def Chip.udpOk (f : FlowFrame) (c : Chip) : Bool :=
  let o := f.h - 28
  let b := fun i n => be f.bytes (o + i) n
  let dst := b 16 4
  !f.udp || (b 0 1 = 0x45 && onesSum ((f.bytes.drop o).take 20) = 65535 && b 6 2 % 0x4000 = 0 && b 9 1 = 17 &&
    b 22 2 = c.sysIt 0x12 && ((dst ≠ 0 && dst = c.sysIt 0x13) || isMulticast dst))

/-- A byte or field of the flow header; what a short copy lacks reads as 0 (log 91). -/
def FlowFrame.at_ (f : FlowFrame) (o n : Nat) : Nat := be f.bytes (f.h + o) n

/-- Saturating count i of path k of a context. -/
def Listen.count (k i : Nat) (x : Listen) : Listen :=
  { x with paths := lmod x.paths k fun q => { q with counts := lmod q.counts i (satInc 0xFFFFFFFF) } }

def Chip.onCtx (x : Nat) (f : Listen → Listen) (c : Chip) : Chip :=
  c.onFlow fun u => { u with ctx := mmod u.ctx x { cursor := u.nextClose } f }

/-- Register i of path k: 0 ACCEPT, 1 DUP, 2 LATE, 3 LOSS, 4 RESIDUE, 5 EARLY. -/
def Chip.pathCount (k i : Nat) (c : Chip) : Chip :=
  c.onFlow fun u => { u with paths := lmod u.paths k fun q => lmod q i (· + 1) }

/-- FLOW_DROP_UNKNOWN 0, LEVEL 1, FORMAT 2, MISSING_TOTAL 3. -/
def Chip.dropped (i : Nat) (c : Chip) : Chip := c.onFlow fun u => { u with drops := lmod u.drops i (· + 1) }

/-- The profile budget in CORE clocks (06 R162). -/
def budget : Profile → Nat
  | .F => 66000 | .D => 132000 | .E => 132000 | .T => 33000

/-- The CORE clock at which presentation block P closes, as far as the present tick tells. -/
def Chip.closeAt (P : Nat) (c : Chip) : Nat :=
  c.sys.tickAt + (P - 1 - c.sys.blk) * period3 c.prof / 3 + budget c.prof

/-- Records the slack of an in-time copy (06 R163, R184). -/
def Chip.slack (x k P t : Nat) (c : Chip) : Chip :=
  let s := (c.closeAt P - t) / 16
  let s16 := min s 0xFFFF
  (c.onCtx x fun q => { q with paths := lmod q.paths k fun z => { z with nowSlack := min z.nowSlack s } }).onFlow
    fun u => { u with slack := lmod u.slack k fun z => (z.1, s16, min z.2.2 s16) }

/-- A path delivers (06 R168). -/
def Chip.delivers (k : Nat) (c : Chip) : Chip :=
  let down := c.flow.pathDown.getLsbD k
  let bit : BitVec 4 := BitVec.ofNat 4 (2 ^ k)
  let c := c.onFlow fun u => { u with delivered := u.delivered ||| bit, pathDown := u.pathDown &&& ~~~bit }
  if down then c.raise 0x0905 .note k else c

/-- Which context takes a copy, under which items (06 R165, R173). -/
def Chip.governs (k : Key) (seq : Nat) (c : Chip) : Option (Nat × Items) :=
  let cursor := fun x => (mget c.flow.ctx x { cursor := c.flow.nextClose }).cursor
  let at_ := fun (items : Items) x => extend32 seq (cursor x - flowIt items x 6) + flowIt items x 6
  match c.flow.airing with
  | [] => (c.flow.table.lookup k).map fun x => (x, c.sys.now.items)
  | a :: as =>
    let old := match c.flow.table.lookup k with
      | some x => if at_ a.old x < a.land then some (x, a.old) else none
      | none => none
    -- a later interval's old configuration is the new one of the interval before it
    ((a :: as).foldl (fun (r : Option (Nat × Items)) b => match b.table.lookup k with
      | some x => if b.land ≤ at_ b.new x then some (x, b.new) else r
      | none => r) old)

/-- The 24-bit samples of channel k of a copy with n channels, as entry words. -/
def FlowFrame.chan (f : FlowFrame) (p : Profile) (n k : Nat) : List Nat :=
  (List.range (blkLen p)).map fun i => f.at_ (16 + 4 * (i * n + k)) 4 / 256

/-- The residue check of a copy (02 R54); `level2` makes a withdrawn byte invalid (06 R176). -/
def FlowFrame.residueOk (f : FlowFrame) (p : Profile) (n : Nat) (level2 : Bool) : Bool :=
  (List.range n).all fun k =>
    let b := f.at_ (16 + 4 * blkLen p * n + k) 1
    let s := (((f.chan p n k).map fun w => signed 24 w).foldl (· + ·) 0) % 251
    (b = 254 && !level2) || (b ≤ 250 && (b : Int) = s)

/-- The samples of a copy with their tags (02 R42). -/
def FlowFrame.samples (f : FlowFrame) (p : Profile) (n : Nat) : List (List Smp) :=
  (List.range n).map fun k => (f.chan p n k).map fun w => enter (BitVec.ofNat 32 (w * 256))

/-- Keeps a copy in a window entry. -/
def Listen.keep (P : Nat) (e : Entry) (x : Listen) : Listen := { x with win := mset x.win (P % 64) e }

/-- One audio copy on LINK port l, completed at CORE clock t (06 R165). -/
def Chip.copy (f : FlowFrame) (l t : Nat) (c : Chip) : Chip :=
  let key : Key := { addr := f.src, flow := f.at_ 2 2, udp := f.udp }
  let seq := f.at_ 4 4
  match c.governs key seq with
  | none => if c.udpOk f then c.dropped 0 else c.dropped 2
  | some (x, items) =>
    let alt := (ctxKey items x 0x21).addr
    let k := 2 * b2n (flowIt items x 0x21 ≠ 0 && f.src = alt) + l
    let c := c.delivers k
    let lev := f.at_ 1 1
    let n := flowIt items x 3
    if !c.udpOk f then (c.dropped 2).onCtx x (Listen.count k 7)
    else if !c.levelOk lev then (c.dropped 1).onCtx x (Listen.count k 6)
    else if (lev ≠ 2 ∧ f.at_ 10 1 ≠ timingByte c.prof) ∨ f.at_ 9 1 ≠ n then (c.dropped 2).onCtx x (Listen.count k 7)
    else
      let c := if f.at_ 8 1 ≠ flowIt items x 6 then
          (c.onCtx x fun q => { q with offsetDiff := satInc 0xFFFFFFFF q.offsetDiff }).onFlow fun u => { u with offsetDiff := true }
        else c
      let q := mget c.flow.ctx x { cursor := c.flow.nextClose }
      let P := extend32 seq (q.cursor - flowIt items x 6) + flowIt items x 6
      if q.cursor + 32 ≤ P ∨ P + 32 < q.cursor then (c.pathCount k 5).onCtx x (Listen.count k 5)
      else
        let e := mget q.win (P % 64) { block := P }
        let e : Entry := if e.block = P then e else { block := P }
        let e := { e with paths := e.paths ||| BitVec.ofNat 4 (2 ^ k) }
        let c := c.onCtx x (Listen.keep P e)
        if P < q.cursor then
          if e.st = .good ∨ e.st = .fallback then (c.pathCount k 2).onCtx x (Listen.count k 2)
          else ((c.pathCount k 2).pathCount k 3).onCtx x (Listen.count k 3)
        else
          let c := c.slack x k P t
          let dup := (c.pathCount k 1).onCtx x (Listen.count k 1)
          let status := if lev = 2 then 0 else f.at_ 11 1
          if e.st = .good then dup
          else if !f.residueOk c.prof n (lev = 2) then (c.pathCount k 4).onCtx x (Listen.count k 4)
          else if status / 8 % 2 = 1 ∨ status % 2 = 1 then
            if e.st = .empty then c.onCtx x (Listen.keep P { e with st := .fallback, kept := f.samples c.prof n })
            else dup
          else
            ((c.onCtx x (Listen.keep P { e with st := .good, kept := f.samples c.prof n })).pathCount k 0).onCtx x (Listen.count k 0)

/-! Management frames (06 R178 to R180) -/

/-- The session key (06 R179). The spec gives neither the width and byte order of the session ID in it nor the byte order of
the nonces: two bytes, big-endian, and words as packets carry them (log 13). -/
def sessionKey (mgmt : List Byte) (host zk9 : List Word) (id : Nat) : List Byte :=
  hmacSha256 mgmt ([0x5A, 0x4B, 0x39, 0x53] ++ wordBytes host ++ wordBytes zk9 ++ beBytes 2 id)

/-- The reply frame to a request whose Ethernet bytes were `head`: addresses exchanged, the VLAN tag and the TOS byte of the
request (log 91), the packet, and its check under a key (none: zero). -/
def Chip.mgmtFrame (head : List Byte) (session counter : Nat) (words : List Word) (key : Option (List Byte)) (c : Chip) : List Byte :=
  let pkt := wordBytes words
  let body := [0x02, BitVec.ofNat 8 (c.sysIt 0x10)] ++ beBytes 2 session ++ beBytes 4 counter ++ beBytes 2 pkt.length ++
    [0x01, 0, 0, 0, 0, 0] ++ pkt
  let check := match key with
    | some k => hmacSha256 k body
    | none => List.replicate 32 0
  let pay := body ++ check
  let e := etherType head
  let tag := if e.2 = 18 then be head 14 2 else 0
  ethHead (be head 6 6) c.station tag e.1 ++
    (if e.1 = 0x800 then
      ipUdpHead (be head (e.2 + 1) 1) (c.sysIt 0x14) (c.sysIt 0x13) (be head (e.2 + 12) 4) (c.sysIt 0x12) pay.length
     else []) ++ pay

/-- The management port of a transport: 0 LINKA, 1 LINKB, 2 DROP. -/
def viaPort : Transport → Option Nat
  | .linkA => some 0
  | .linkB => some 1
  | .drop => some 2
  | _ => none

def portTransport (m : Nat) : Transport := if m = 0 then .linkA else if m = 1 then .linkB else .drop

/-- Queues a firmware frame of MAC m on a ring; a LINK port starts it when idle. -/
def Chip.sendFrame (m r : Nat) (bs : List Byte) (ts : Bool) (c : Chip) : Chip :=
  let c := c.queueTx m r { bytes := bs, tsReq := ts, postedAt := c.clk }
  if m < 2 then c.linkKick m else c.txFlushAll 2

/-- Sends a management reply on its port: queue ring 0 of a LINK port, Q1 of DROP. -/
def Chip.sendMgmt (m : Nat) (bs : List Byte) (c : Chip) : Chip := c.sendFrame m (if m < 2 then 0 else 1) bs false

/-- A reply with its header (13 R360) and its CRC-32C. -/
def replyWords (opcode status tag peg w2 : Nat) (result : List Word) : List Word :=
  let w0 := pack [(0, 16, opcode), (16, 8, status), (24, 8, result.length)]
  let w2 := BitVec.ofNat 32 (peg % 64 + w2 / 64 * 64)
  let t := BitVec.ofNat 32 tag
  let k := crc32c (wordBytes ([w0, t, w2, 0] ++ result))
  [w0, t, w2, k] ++ result

/-- A refusal made without taking the packet, copying its words 0 to 2. -/
def Chip.refuseEarly (words : List Word) (status : Nat) (c : Chip) : List Word :=
  replyWords ((words.getD 0 0).toNat % 65536) status (words.getD 1 0).toNat c.boot.peg.toNat 0 []

/-- The order of packets that complete in the same CORE clock (13 R354); what comes over the twin link comes last (log 40). -/
def Pkt.rank (p : Pkt) : Nat :=
  if p.forwarded then 6 else match p.via with
  | .pcie => 0 | .spi => 1 | .mbx _ => 2 | .linkA => 3 | .linkB => 4 | .drop => 5

/-- A packet enters the command stream (13 R354). -/
def Chip.enterStream (p : Pkt) (c : Chip) : Chip :=
  let p := { p with at_ := c.clk }
  let behind := fun (q : Pkt) => decide (q.at_ = p.at_) && decide (p.rank < q.rank)
  c.onCmd fun d => { d with stream := (d.stream.filter fun q => !behind q) ++ p :: d.stream.filter behind }

/-- A management request on port m (06 R180). Which counter takes one that is truncated or of malformed length is not said:
it counts as one with an invalid check, in AUTH (log 77). -/
def Chip.mgmt (f : FlowFrame) (m : Nat) (c : Chip) : Chip :=
  let len := f.at_ 8 2
  let id := f.at_ 2 2
  let counter := f.at_ 4 4
  let body := (f.bytes.drop f.h).take (16 + len)
  let check := (f.bytes.drop (f.h + 16 + len)).take 32
  let words := bytesWords (body.drop 16)
  let head := f.bytes.take f.h
  let whole := f.h + 48 + len ≤ f.bytes.length && len % 4 = 0 && 16 ≤ len && len ≤ 256
  let bad := c.onFlow fun u => { u with auth := satInc 0xFFFF u.auth }
  if c.sysIt 0x15 ≠ 1 ∨ f.at_ 10 1 ≠ 0 then c
  else if !c.udpOk f then c.dropped 2
  else if !c.levelOk (f.at_ 1 1) then c.dropped 1
  else if !whole then bad
  else
    let opens := id = 0 && (words.getD 0 0).toNat % 65536 = 0x0C01
    let session := c.flow.sessions.find? fun s => s.id.toNat = id
    let accept := fun (c : Chip) =>
      let pkt : Pkt := { via := portTransport m, words := words, bytes := len, session := BitVec.ofNat 16 id, head := head }
      if c.cmd.stream.length < 32 then c.enterStream pkt
      else
        let c := c.onCmd fun k => { k with full := k.full + 1, refusals := k.refusals + 1 }
        let r := c.refuseEarly words 0x16
        match c.flow.sessions.find? fun s => s.id.toNat = id with
        | some s =>
          let c := c.onFlow fun u => { u with sessions := u.sessions.map fun z => if z.id = s.id then { z with own := z.own + 1 } else z }
          c.sendMgmt m (c.mgmtFrame head id s.own r (some s.key))
        | none => c.sendMgmt m (c.mgmtFrame head 0 0 r (some c.boot.mgmtKey))
    if opens then (if check = hmacSha256 c.boot.mgmtKey body then accept c else bad)
    else match session with
      | none =>
        let c := c.onFlow fun u => { u with noSession := satInc 0xFFFF u.noSession }
        (c.onCmd fun k => { k with refusals := k.refusals + 1 }).sendMgmt m
          (c.mgmtFrame head id 0 (c.refuseEarly words 0x1A) none)
      | some s =>
        if check ≠ hmacSha256 s.key body ∨ counter ≤ s.heard then bad
        else accept (c.onFlow fun u => { u with sessions := u.sessions.map fun z =>
          if z.id = s.id then { z with heard := counter, usedAt := c.clk, peer := head } else z })

/-- A frame that arrived on ring 0 of a LINK port (06 R165). -/
def Chip.arrive (x : RxFrame) (l : Nat) (c : Chip) : Chip :=
  let f := c.flowFrame x.bytes
  if x.trunc then c
  else if !c.udpOk f then c.copy f l x.at_
  else if f.at_ 0 1 = 2 then c.mgmt f l
  else if f.at_ 0 1 ≠ 1 then c.dropped 0
  else c.copy f l x.at_

/-- Takes and processes the frame at the head of a LINK port's ring 0. -/
def Chip.takeCopy (l : Nat) (c : Chip) : Chip :=
  match c.popInbox l 0 with
  | (none, c) => c
  | (some x, c) => c.arrive x l

/-- The copies that arrived before CORE clock `t`, oldest first, at most `n` of them (06 R162). -/
def Chip.takeUntil (t : Nat) : Nat → Chip → Chip
  | 0, c => c
  | n + 1, c =>
    let first := fun l => (((c.mac l).rx.getD 0 {}).inbox.head?).map fun x : RxFrame => x.at_
    match first 0, first 1 with
    | some a, some b => if min a b < t then (c.takeCopy (if a ≤ b then 0 else 1)).takeUntil t n else c
    | some a, none => if a < t then (c.takeCopy 0).takeUntil t n else c
    | none, some b => if b < t then (c.takeCopy 1).takeUntil t n else c
    | none, none => c

/-! Presentation (06 R162, R166, R167) -/

/-- Presents block P of context x; the samples by channel. Entries that were kept from before a press without lookup items
are presented under the new items (log 91). -/
def Chip.present (items : Items) (P x : Nat) (c : Chip) : Chip :=
  let W := c.W
  let B := c.B
  let n := flowIt items x 3
  let q := mget c.flow.ctx x { cursor := P }
  let q := if P % W = 0 then { q with allMissing := true } else q
  let e := mget q.win (P % 64) { block := P }
  let e : Entry := if e.block = P then e else { block := P }
  let last := P % W + 1 = W
  let slackEnd := fun (z : PathCnt) => if last then { z with minSlack := z.nowSlack, nowSlack := 0xFFFFFFFF } else z
  let q := { q with cursor := P + 1, paths := q.paths.map slackEnd }
  if e.st = .good ∨ e.st = .fallback then
    let chans := (List.range n).map fun k => e.kept.getD k (silence B)
    let outage := q.outage
    let q := { q with
      fallback := if e.st = .fallback then satInc 0xFFFFFFFF q.fallback else q.fallback,
      last := chans.map fun ys => ys.getLastD {}, allMissing := false, outage := false }
    let c := c.onFlow fun u => { u with ctx := mset u.ctx x q, store := mset u.store x chans }
    if outage then c.raise 0x0903 .note x else c
  else
    let hold := flowIt items x 7 = 1
    let held := (List.range n).map fun k => if hold then q.last.getD k {} else {}
    let quiet := P < max q.quietUntil c.flow.missFrom
    let note := !quiet && q.noted ≠ some (P / W)
    let all := q.allMissing && !quiet
    let q := { q with
      win := mset q.win (P % 64) { e with st := .missing }, missing := satInc 0xFFFFFFFF q.missing, last := held,
      allMissing := all, faultDue := q.faultDue || (all && last),
      noted := if note then some (P / W) else q.noted }
    let c := (c.onFlow fun u => { u with
      ctx := mset u.ctx x q, store := mset u.store x (held.map fun y => List.replicate B y) }).dropped 3
    if note then c.raise 0x0901 .note x else c

/-- Contexts whose items other than flow.base and flow.miss_policy differ. -/
def ctxChanged (old new : Items) (x : Nat) : Bool :=
  [1, 2, 3, 5, 6, 0x10, 0x11, 0x12, 0x13, 0x14, 0x20, 0x21].any fun f => flowIt old x f ≠ flowIt new x f

/-- Clears the entries for blocks `L` and later of the changed LISTEN contexts; those of the others are kept (log 91). -/
def Chip.clearFrom (old new : Items) (L : Nat) (c : Chip) : Chip :=
  let clear := fun (x : Nat) (q : Listen) =>
    if ctxChanged old new x then { q with win := q.win.filter fun e => e.2.block < L } else q
  c.onFlow fun u => { u with ctx := mmap u.ctx clear }

/-- Contexts that are not LISTEN keep their counters only (14 R392). -/
def retireCtxs (items : Items) (m : Map Listen) : Map Listen :=
  m.map fun q => if flowIt items q.1 1 = 2 then q
    else (q.1, { paths := q.2.paths, fallback := q.2.fallback, missing := q.2.missing, offsetDiff := q.2.offsetDiff })

/-- The oldest airing copy becomes the pressed copy (06 R173). -/
def Chip.airingEnd (c : Chip) : Chip :=
  match c.flow.airing with
  | [] => c
  | a :: as => c.onFlow fun u => { u with
      table := a.table, airing := as, exchanges := u.exchanges + 1, ctx := retireCtxs (as.foldl (fun _ b => b.new) a.new) u.ctx }

/-- The configurations of the intervals under way, as presses that land within one change them (06 R173). -/
def Chip.airingTrack (c : Chip) : Chip :=
  c.onFlow fun u => { u with airing := u.airing.map fun a =>
    if c.sys.blk < a.land then { a with old := c.itemsAt (a.land - 1), new := c.itemsAt a.land } else { a with new := c.sys.now.items } }

/-- The interval of both copies begins at tick T for a scheduled press (06 R173); one whose landing index a step of the
counter has passed lands at T (19 R494). -/
def Chip.airingStart (T : Nat) (c : Chip) : Chip :=
  match (c.cmd.presses.find? fun q => q.airs && !q.aired), c.flow.built with
  | some q, some (t, _) =>
    let old := c.itemsAt (q.land - 1)
    let new := c.itemsAt q.land
    let L := max q.land T
    let c := c.onCmd fun d => { d with presses := d.presses.map fun r => if r = q then { r with aired := true } else r }
    let c := c.onFlow fun u => { u with
      airing := u.airing ++ [{ land := L, since := T, table := t, new := new, old := old }], built := none, peerDone := false }
    let c := c.clearFrom old new L
    (ctxsOf c.prof new 2).foldl (fun c x =>
      if flowIt old x 1 = 2 then c
      else c.onCtx x fun z => { z with cursor := c.flow.nextClose, win := [], quietUntil := T + flowIt new x 6 + 1 }) c
  | _, _ => c

/-- A withdrawn airing press ends its interval at the first tick after (06 R546). -/
def Chip.airingWithdraw (c : Chip) : Chip :=
  match c.flow.airing.find? fun a => a.withdrawn with
  | some a =>
    (c.clearFrom a.old a.new a.land).onFlow fun u => { u with
      airing := u.airing.filter fun b => b ≠ a, ctx := retireCtxs a.old u.ctx }
  | none => c

/-- The intervals that are over once block P has closed. -/
def Chip.airingEnds (P : Nat) : List Airing → Chip → Chip
  | [], c => c
  | a :: as, c => if a.land + 31 ≤ P ∧ !a.withdrawn then c.airingEnd.airingEnds P as else c

/-- Every listener presents block P. -/
def Chip.presentAll (items : Items) (P : Nat) (c : Chip) : Chip :=
  (ctxsOf c.prof items 2).foldl (fun c x => c.present items P x) c

/-- Presentation block P closes (06 R162, R166 to R168, R177). -/
def Chip.closeBlock (P : Nat) (c : Chip) : Chip :=
  let W := c.W
  let c := if c.flow.nextClose = P then c else c.onFlow fun u => { u with delivered := 0, winFrom := P }
  let c := c.takeUntil (min (c.closeAt P) c.clk) (((c.mac 0).rx.getD 0 {}).inbox.length + ((c.mac 1).rx.getD 0 {}).inbox.length)
  let items := c.itemsAt P
  let c := c.onFlow fun u => { u with
    store := [], winFrom := if P % W = 0 then P else u.winFrom }
  let heard := c.sys.audioEn || c.boot.audioDue
  let c := if heard then c.presentAll items P else c
  let level := (itemIn items (item 0x01 0 0x10)).toNat
  let last := P % W + 1 = W
  let whole := last && c.flow.winFrom + W = P + 1
  let c := c.onFlow fun u => { u with
    nextClose := P + 1, unheard := !heard, rxLevel := level,
    ctx := mmap u.ctx fun _ q => { q with cursor := P + 1 }
    ended := if last then (if whole then some u.delivered else none) else u.ended
    delivered := if last then 0 else u.delivered
    slack := if last then u.slack.map fun z => (z.2.2, z.2.1, 0xFFFF) else u.slack }
  c.airingEnds P c.flow.airing

/-- Every LISTEN context clears its window and moves its cursor (01 R22, 05 R140). -/
def Chip.listenReset (J : Nat) (c : Chip) : Chip :=
  c.onFlow fun u => { u with
    ctx := mmap u.ctx fun _ q => { q with cursor := J, win := [], allMissing := false, faultDue := false }
    nextClose := J, store := [], winFrom := J, ended := none, delivered := 0 }

/-- The index has been reloaded to an earlier block (19 R494): block J is the next to close. -/
def Chip.listenBack (J : Nat) (c : Chip) : Chip :=
  if J + 1 < c.flow.nextClose then (c.listenReset J).onFlow fun u => { u with missFrom := min u.missFrom J } else c

/-- The sources that the presentation store delivers for the graph block (03 R76, 06 R149). -/
def Chip.netSources (items : Items) (c : Chip) : Map (List Smp) :=
  c.flow.store.foldl (fun m q =>
    if flowIt items q.1 1 = 2 ∧ ctxFits c.prof items q.1 then
      (q.2.take (flowIt items q.1 3)).zipIdx.foldl (fun m ys => mset m (flowIt items q.1 4 + ys.2) ys.1) m
    else m) []

/-- The CMD core rewrites the pressed flow table (06 R174). -/
def Chip.rewriteFlow (c : Chip) : Chip :=
  if 64 ∈ c.graph.rewrites then
    ((c.onGraph fun g => { g with rewrites := g.rewrites.filter (· ≠ 64) }).onFlow fun u => { u with tableErr := true }).raise 0x0910 .fault
  else c

/-! The commands -/

def execFlowTableRewrite (s : State) : Host.Outcome State Fault Refusal := act Chip.rewriteFlow s

/-- The close of block L + 31 has come. -/
def execAiringIntervalEnd (s : State) : Host.Outcome State Fault Refusal :=
  act (fun c => match c.flow.airing with
    | a :: _ => if a.land + 31 < c.flow.nextClose ∧ !a.withdrawn then c.airingEnd else c
    | [] => c) s

def execAiringWithdraw (s : State) : Host.Outcome State Fault Refusal := act Chip.airingWithdraw s

/-- A copy that completed on a LINK port, or a management request, is taken (06 R165, R180). Blocks whose close has come
close first. -/
def execCopyArrival (port : Fin 2) (t : Nat) (s : State) : Host.Outcome State Fault Refusal :=
  act (fun c =>
    let c := c.advance t
    let P := c.flow.nextClose
    let c := if c.sys.tickRun && P = c.sys.blk + 1 && c.closeAt P ≤ c.clk then c.closeBlock P else c
    c.takeCopy port.val) s

/-- A session that was idle for 300 s closes (06 R179). -/
def execSessionIdleClose (id : BitVec 16) (t : Nat) (s : State) : Host.Outcome State Fault Refusal :=
  act (fun c =>
    let c := c.advance t
    c.onFlow fun u => { u with sessions := u.sessions.filter fun z => z.id ≠ id || c.clk < z.usedAt + 300 * secClk }) s

/-- The budget of the block before P has elapsed: P closes. -/
def execPresentationClose (s : State) : Host.Outcome State Fault Refusal :=
  act (fun c => if c.sys.tickRun && c.flow.nextClose = c.sys.blk + 1 then c.closeBlock c.flow.nextClose else c) s

/-- A context presented MISSING for a whole window (06 R167). -/
def execMissingWindow (ctx : BitVec 10) (s : State) : Host.Outcome State Fault Refusal :=
  act (fun c =>
    if (mget c.flow.ctx ctx.toNat {}).faultDue then
      (c.onCtx ctx.toNat fun q => { q with faultDue := false, outage := true }).raise 0x0902 .fault ctx.toNat
    else c) s

/-- A path delivered nothing for a whole window while another did (06 R168). -/
def execPathLost (k : Fin 4) (s : State) : Host.Outcome State Fault Refusal :=
  act (fun c => match c.flow.ended with
    | some m =>
      if m ≠ 0 ∧ !m.getLsbD k.val ∧ !c.flow.pathDown.getLsbD k.val then
        (c.onFlow fun u => { u with pathDown := u.pathDown ||| BitVec.ofNat 4 (2 ^ k.val) }).raise 0x0904 .note k.val
      else c
    | none => c) s

/-- A frame on the DROP bus; a management request joins the stream at once (07 R192, 06 R180). -/
def execDropFrameRx (bytes : List Byte) (fcsOk : Bool) (t : Nat) (s : State) : Host.Outcome State Fault Refusal :=
  actHam (fun p =>
    let c := p.2.advance t
    if c.isSpeech bytes then (p.1, c.speechRx bytes fcsOk) else
    let c := if fcsOk then c.pegConflict bytes else c
    let r := receive 2 bytes fcsOk (p.1, c)
    match r.2.popInbox 2 0 with
    | (some x, c) => (r.1, if x.trunc then c else c.mgmt (c.flowFrame x.bytes) 2)
    | (none, c) => (r.1, c)) s

end Sys2Proof.Machine
end

