-- ==== Sys2Proof/Machine/Codec.lean ====
section
/-! DEFINITION. The words of mirrored dynamic state (12 R332, R333): how each element is written as words for a digest or a
capture, and read back. The words and their order are the model's own (log 12). -/

namespace Sys2Proof.Machine

/-- Reads words from the front of a list. -/
abbrev Dec (α : Type) := List Nat → Option (α × List Nat)

def Dec.pure {α : Type} (a : α) : Dec α := fun l => some (a, l)
def Dec.bind {α β : Type} (d : Dec α) (f : α → Dec β) : Dec β := fun l => match d l with
  | some (a, r) => f a r
  | none => none
def Dec.map {α β : Type} (f : α → β) (d : Dec α) : Dec β := d.bind fun a => Dec.pure (f a)

def decNat : Dec Nat := fun l => match l with
  | x :: r => some (x, r)
  | [] => none

/-- A signed value as a word. -/
def encInt (v : Int) : Nat := if 0 ≤ v then 2 * v.toNat else 2 * (-v).toNat - 1
def intOf (n : Nat) : Int := if n % 2 = 0 then ((n / 2 : Nat) : Int) else -(((n + 1) / 2 : Nat) : Int)
def decInt : Dec Int := decNat.map intOf
def decBool : Dec Bool := decNat.map (· = 1)

def decTimes {α : Type} (d : Dec α) : Nat → Dec (List α)
  | 0 => Dec.pure []
  | n + 1 => d.bind fun a => (decTimes d n).bind fun r => Dec.pure (a :: r)
def encList {α : Type} (e : α → List Nat) (l : List α) : List Nat := l.length :: l.flatMap e
def decList {α : Type} (d : Dec α) : Dec (List α) := decNat.bind fun n => decTimes d n
def encOpt {α : Type} (e : α → List Nat) (o : Option α) : List Nat := encList e o.toList
def decOpt {α : Type} (d : Dec α) : Dec (Option α) := (decList d).map List.head?

def encPair {α β : Type} (e : α → List Nat) (f : β → List Nat) (p : α × β) : List Nat := e p.1 ++ f p.2
def decPair {α β : Type} (d : Dec α) (e : Dec β) : Dec (α × β) := d.bind fun a => e.bind fun b => Dec.pure (a, b)
def encNat (n : Nat) : List Nat := [n]

/-- A tagged sample as a 40-bit word. -/
def word40 (x : Smp) : Nat := x.t * 2 ^ 32 + pattern 32 x.v
def smp40 (w : Nat) : Smp := { v := signed 32 w, t := w / 2 ^ 32 % 256 }
def encSmp (x : Smp) : List Nat := [word40 x]
def decSmp : Dec Smp := decNat.map smp40

def encRamp (r : Ramp) : List Nat := [encInt r.v0, encInt r.v1, r.r, r.j]
def decRamp : Dec Ramp :=
  decInt.bind fun a => decInt.bind fun b => decNat.bind fun r => decNat.bind fun j => Dec.pure ⟨a, b, r, j⟩

def encWeight (w : Nat × Int) : List Nat := [w.1, encInt w.2]
def decWeight : Dec (Nat × Int) := decPair decNat decInt
def encFade (f : Fade) : List Nat := encList encWeight f.olds ++ [f.dest, f.s, f.shape, f.j, b2n f.restarted]
def decFade : Dec Fade :=
  (decList decWeight).bind fun o => decNat.bind fun d => decNat.bind fun s => decNat.bind fun h => decNat.bind fun j =>
    decBool.bind fun r => Dec.pure ⟨o, d, s, h, j, r⟩

def encTriple (q : Nat × Nat × Nat) : List Nat := [q.1, q.2.1, q.2.2]
def decTriple : Dec (Nat × Nat × Nat) := decPair decNat (decPair decNat decNat)
def encSel (x : Sel) : List Nat := x.cur :: (encOpt encFade x.fade ++ encOpt encTriple x.deferred)
def decSel : Dec Sel :=
  decNat.bind fun c => (decOpt decFade).bind fun f => (decOpt decTriple).bind fun d => Dec.pure ⟨c, f, d⟩

def encBq (s : BqSt) : List Nat := [word40 s.x1, word40 s.x2, word40 s.y1, word40 s.y2]
def decBq : Dec BqSt :=
  decSmp.bind fun a => decSmp.bind fun b => decSmp.bind fun c => decSmp.bind fun d => Dec.pure ⟨a, b, c, d⟩

def encSrc (s : SrcSt) : List Nat := encBq s.hp1 ++ encBq s.hp2 ++ [b2n s.gate, s.hold]
def decSrc : Dec SrcSt :=
  decBq.bind fun a => decBq.bind fun b => decBool.bind fun g => decNat.bind fun h => Dec.pure ⟨a, b, g, h⟩

def encTap (t : TapSt) : List Nat := encRamp t.gain ++ encRamp t.duck ++ encSel t.sel
def decTap : Dec TapSt := decRamp.bind fun a => decRamp.bind fun b => decSel.bind fun c => Dec.pure ⟨a, b, c⟩

def encBus (b : BusSt) : List Nat :=
  b.n :: (encOpt encNat b.prio ++ encRamp b.scale ++ encRamp b.rest ++ encList (encPair encNat encTap) b.taps)
def decBus : Dec BusSt :=
  decNat.bind fun n => (decOpt decNat).bind fun p => decRamp.bind fun s => decRamp.bind fun r =>
    (decList (decPair decNat decTap)).bind fun t => Dec.pure { n := n, prio := p, scale := s, taps := t, rest := r }

/-- What pass 2 keeps of a chain, and what pass 3 keeps. -/
def encChain2 (c : ChainSt) : List Nat :=
  encSel c.sel ++ encList (encPair encNat encBq) c.bq ++ encRamp c.gain ++ encSel c.dly ++
    [b2n c.compOn, encInt c.e] ++ encRamp c.comp
def encChain3 (c : ChainSt) : List Nat := [b2n c.limOn, encInt c.g] ++ encRamp c.mute
/-- Both read back over a chain. -/
def decChain (c : ChainSt) : Dec ChainSt :=
  decSel.bind fun sel => (decList (decPair decNat decBq)).bind fun bq => decRamp.bind fun gain => decSel.bind fun dly =>
  decBool.bind fun con => decInt.bind fun e => decRamp.bind fun comp => decBool.bind fun lon => decInt.bind fun g =>
  decRamp.bind fun mute => Dec.pure { c with
    sel := sel, bq := bq, gain := gain, dly := dly, compOn := con, e := e, comp := comp, limOn := lon, g := g, mute := mute }

def encSink (s : SinkSt) : List Nat :=
  encSel s.sel ++ [s.fails, b2n s.muted] ++ encOpt (fun v => [encInt v]) s.held ++ encOpt encTriple s.unmute
def decSink (s : SinkSt) : Dec SinkSt :=
  decSel.bind fun sel => decNat.bind fun f => decBool.bind fun m => (decOpt decInt).bind fun h => (decOpt decTriple).bind fun u =>
    Dec.pure { s with sel := sel, fails := f, muted := m, held := h, unmute := u }

/-- The exchange of a filter (its history goes by sample). -/
def encXchg (f : FirSt) : List Nat := encOpt encTriple f.xchg

/-- The words of one element with their keys: the element in bits 23 and up, the position below. -/
def keyed (el : Nat) (ws : List Nat) : List (Nat × Nat) := ws.zipIdx.map fun w => (el * 2 ^ 24 + w.2, w.1)

/-- The elements of a list of keyed words: each with its words in order. -/
def grouped (l : List (Nat × Nat)) : Map (List Nat) :=
  l.foldl (fun m w => mmod m (w.1 / 2 ^ 24) [] (· ++ [w.2])) []

/-- Elements that decode. -/
def decoded {α : Type} (d : Nat → Dec α) (m : Map (List Nat)) : Map α :=
  m.filterMap fun q => ((d q.1) q.2).map fun r => (q.1, r.1)

end Sys2Proof.Machine
end

