-- ==== Sys2Proof/Machine/Pages.lean ====
section
/-! DEFINITION. Delay pages (04 R108 to R114): rings, allocation and filling, landing and release. -/

namespace Sys2Proof.Machine

/-- Pages of a delay line of at most D samples (04 R108). -/
def pagesFor (B D : Nat) : Nat := if D = 0 then 0 else ceilDiv (D + B) 4096

def Chip.freePages (c : Chip) : List Nat := indices 2048 fun p => (mget? c.graph.pages p).isNone

/-- Writes zeros into a whole page (04 R110). -/
def Chip.zeroPage (p : Nat) (c : Chip) : Chip :=
  let a := 0x30000000 + p * 0x8000
  c.onMem fun m => { m with bytes := m.bytes.zero a (a + 0x8000) }

/-- Allocates one FREE page for a chain; which one is a free value. -/
def Chip.allocPage (chain order : Nat) (st : PageSt) (c : Chip) : Option Nat × Chip :=
  match c.freePages with
  | [] => (none, c)
  | l =>
    let p := l.getD (Config.pagePick c.fresh % l.length) 0
    (some p, ((c.tick.onGraph fun g => { g with pages := mset g.pages p { chain := chain, order := order, st := st } }).zeroPage p))

/-- Allocates `n` pages for a chain, in order. -/
def Chip.allocPages (chain n : Nat) (st : PageSt) (c : Chip) : List Nat × Chip :=
  (List.range n).foldl (fun (a : List Nat × Chip) o =>
    match a.2.allocPage chain o st with
    | (some p, c) => (a.1 ++ [p], c)
    | (none, c) => (a.1, c)) ([], c)

/-- Pages that are FILLING return to FREE. -/
def Chip.freeFilling (ps : List Nat) (c : Chip) : Chip :=
  c.onGraph fun g => { g with pages := g.pages.filter fun q => !ps.contains q.1 }

/-- At tick L the pages of a press are OWNED and those they replace are RELEASING (04 R111). -/
def Chip.landPages (L chain : Nat) (ps : List Nat) (c : Chip) : Chip :=
  let change := fun (p : Nat) (q : Page) =>
    if q.chain ≠ chain then q
    else if ps.contains p then { q with st := .owned }
    else if q.st = .owned then { q with st := .releasing L } else q
  c.onGraph fun g => { g with pages := mmap g.pages change }

/-- PAGE_RELEASE: pages released by a press that landed before tick N become FREE. -/
def Chip.releasePages (N : Nat) (c : Chip) : Chip :=
  c.onGraph fun g => { g with pages := g.pages.filter fun q => match q.2.st with
    | .releasing l => N ≤ l
    | _ => true }

/-- Every ring is allocated anew for some items and filled with zeros (04 R126, 12 R337). -/
def Chip.reallocRings (items : Items) (c : Chip) : Chip :=
  let p := c.prof
  let c := c.onGraph fun g => { g with pages := [] }
  let named := (elements items 0x05 c.graph.chain).filter (· < chainCount p)
  named.foldl (fun c k =>
    let r := c.allocPages k (pagesFor (blkLen p) (itemIn items (item 0x05 k 0x10)).toNat) .owned
    r.2.onGraph fun g => { g with chain := mmod g.chain k {} fun s => { s with pages := r.1 } }) c

/-- The page ledger: FREE, OWNED, FILLING, RELEASING. -/
def Graph.pageCounts (g : Graph) : Nat × Nat × Nat × Nat :=
  let n := fun (f : PageSt → Bool) => (g.pages.filter fun q => f q.2.st).length
  (2048 - g.pages.length, n (· = .owned), n (· = .filling), n fun s => match s with | .releasing _ => true | _ => false)

end Sys2Proof.Machine
end

