-- ==== Sys2Proof/Machine/Twin.lean ====
section
/-! DEFINITION. Twin operation (12): roles, paths and their decisions, block frames, the inputs of a pair, digests and
mends, the health report. -/

namespace Sys2Proof.Machine

/-- Role codes (12 R322). -/
def roleCode : Role → Nat
  | .solo => 0 | .negotiating => 1 | .lead => 2 | .standby => 3 | .mending => 4 | .orphan => 5

def Chip.twinIt (f : Nat) (c : Chip) : Nat := c.itN (item 0x0D 0 f)

/-- The unit has a decided role in a pair. -/
def Chip.paired (c : Chip) : Bool :=
  match c.twin.role with
  | .solo | .negotiating => false
  | _ => true

/-- The pair timing of R327 holds. -/
def Chip.pairTiming (c : Chip) : Bool := c.paired && !c.twin.unmatched

def Chip.isStandby (c : Chip) : Bool := c.twin.role = .standby || c.twin.role = .mending

/-- ROLE changes; `note` under R343, R345 or R346. -/
def Chip.setRole (r : Role) (note : Bool) (c : Chip) : Chip :=
  if c.twin.role = r then c
  else
    let c := c.onTwin fun t => { t with role := r, roleChange := true }
    if note then c.raise 0x0F09 .note else c

/-- A standby is MENDING while a region mends. -/
def Chip.roleSettle (c : Chip) : Chip :=
  if c.isStandby then c.setRole (if c.twin.mending.isEmpty then .standby else .mending) false else c

/-- The paths this unit sees up. -/
def Twin.pathBits (t : Twin) : BitVec 3 := BitVec.ofNat 3 (b2n t.pathT + 2 * b2n t.pathL + 4 * b2n t.pathD)

/-- TWIN_HEALTH [15:0]. -/
def Twin.healthWord (t : Twin) : BitVec 16 := BitVec.ofNat 16 (t.health + t.healthSeen * 256)

/-- The twin-state level of the firmware (19 R506). -/
def twinLevel : Byte := 2

/-- The fields of a heartbeat (12 R341). -/
def Chip.heartbeat (c : Chip) : Heartbeat :=
  let t := c.twin
  { level := BitVec.ofNat 8 (c.sysIt 0x10), peg := BitVec.ofNat 8 c.boot.peg.toNat, role := BitVec.ofNat 3 (roleCode t.role),
    unmatched := t.unmatched, safe := c.err.safe, epoch := t.epoch, paths := t.pathBits, twinLevel := twinLevel,
    peer := BitVec.ofNat 8 (c.twinIt 2), block := BitVec.ofNat 64 c.sys.blk, health := t.healthWord, profile := c.prof }

/-- A heartbeat frame. -/
def Chip.heartbeatFrame (c : Chip) : List Byte :=
  let h := c.heartbeat
  let role := h.role.toNat + 8 * b2n h.unmatched + 16 * b2n h.safe
  ethHead 0x03DA00000001 c.station 0 (c.sysIt 0x16) ++ [0x10, h.level, h.peg, BitVec.ofNat 8 role] ++
    beBytes 4 h.epoch.toNat ++ [BitVec.ofNat 8 h.paths.toNat, h.twinLevel, h.peer, 0] ++ beBytes 8 h.block.toNat ++
    beBytes 2 h.health.toNat ++ [0, 0]

/-! Decisions (12 R342 to R345) -/

/-- No region mends any more in block N, none of them mended. -/
def Chip.mendsEnd (N : Nat) (c : Chip) : Chip :=
  c.onTwin fun t => { t with
    mending := [], covered := [], deferred := [], leftBlk := if t.mending.isEmpty then t.leftBlk else N }

/-- Every mend is abandoned (12 R339). -/
def Chip.abandonMends (c : Chip) : Chip :=
  if c.twin.mending.isEmpty then c.onTwin fun t => { t with deferred := [] }
  else (((c.mendsEnd c.sys.blk).onTwin fun t => { t with mendIncomplete := true }).raise 0x0F13 .fault).roleSettle

/-- All paths have failed (12 R342). -/
def Chip.allLost (c : Chip) : Chip :=
  let t := c.twin
  if t.pathT || t.pathL || t.pathD then c
  else match t.role with
    | .lead => if t.peerLost then c else (c.onTwin fun t => { t with peerLost := true }).raise 0x0F08 .fault
    | .standby | .mending => (c.setRole .orphan false).raise 0x0F08 .fault
    | _ => c

/-- Path T fails. -/
def Chip.failT (c : Chip) : Chip :=
  if !c.twin.pathT then c
  else
    let c := (c.onTwin fun t => { t with pathT := false, goodRun := 0, suspended := c.paired }).raise 0x0F01 .note
    (if c.isStandby then c.abandonMends else c).allLost

/-- Start-up has not yet entered stage TWIN, which defers the decision (12 R323). -/
def Chip.beforeTwin (c : Chip) : Bool :=
  match c.boot.stage with
  | .rom | .load | .sram | .line | .ref | .fill => true
  | _ => false

/-- The unit decides roles when its peer is heard (12 R343). -/
def Chip.decides (c : Chip) : Bool :=
  !c.beforeTwin && (c.twin.role = .negotiating || c.twin.role = .orphan || (c.twin.role = .lead && c.twin.peerLost))

/-- The decision of R343 against a peer's role code, epoch and peg: the unit's new role and epoch. A loser keeps its epoch
until it hears its lead's (log 89). -/
def Chip.decision (role : BitVec 3) (epoch : Word) (peg : Nat) (c : Chip) : Role × Word :=
  let own := c.twin.role = .lead
  let peer := role = 2
  let e := if c.twin.role = .negotiating then 0 else c.twin.epoch
  let pe := if role = 1 then 0 else epoch
  let higher := if e = pe then c.boot.peg.toNat < peg else pe.toNat < e.toNat
  if own ≠ peer then if own then (.lead, c.twin.epoch) else (.standby, epoch)
  else if own then if higher then (.lead, c.twin.epoch) else (.standby, epoch)
  else if higher then (.lead, e + 1) else (.standby, e)

/-- What a peer's heartbeat or frame header says (12 R341 to R343, R347). -/
def Chip.peerSeen (role : BitVec 3) (safe : Bool) (epoch : Word) (paths : BitVec 3) (level : Byte) (peg : Nat) (c : Chip) : Chip :=
  let c := c.onTwin fun t => { t with
    peerPeg := peg, peerRole := role, peerPaths := paths, peerLevel := level, peerEpoch := epoch, peerSafe := safe
    epoch := if c.isStandby && role = 2 then epoch else t.epoch, taken := if role = 1 then 0 else t.taken }
  let c :=
    if c.decides then
      let d := c.decision role epoch peg
      let full := d.1 = .standby && (c.twin.role = .negotiating || c.twin.role = .lead)
      c.onTwin fun t => { t with next := some (d.1, d.2, full) }
    else c
  if !c.paired && c.twin.next.isNone then c
  else if level ≠ twinLevel && !c.twin.unmatched then
    (c.onTwin fun t => { t with unmatched := true }).raise 0x0F0A .note
  else if level = twinLevel && c.twin.unmatched then
    c.onTwin fun t => { t with unmatched := false, fullMend := t.fullMend || c.isStandby }
  else c

/-- Under UNMATCHED a unit that gains or gives up the duty at a swap sends by the duty before it up to output block `last`
(12 R347). -/
def Chip.dutyUntil (last : Nat) (r : Role) (c : Chip) : Chip :=
  let lead := decide (c.twin.role = .lead)
  if c.twin.unmatched && (c.isStandby || lead) && lead ≠ decide (r = .lead) then c.onTwin fun t => { t with dutyTo := some (last, lead) }
  else c

/-- A decided role takes effect at tick N (12 R343, R345); with no path left, R342 applies to it. -/
def Chip.takeRole (N : Nat) (c : Chip) : Chip :=
  match c.twin.next with
  | none => c
  | some (r, e, full) =>
    let r := if r = .standby && !c.twin.mending.isEmpty then .mending else r
    let c := (c.dutyUntil (N + 1) r).setRole r true
    let c := c.onTwin fun t => { t with
      next := none, epoch := e, peerLost := false, suspended := !t.pathT, fullMend := t.fullMend || full }
    (if r = .lead then c.mendsEnd N else c).allLost

/-- A swap that lands at tick N (12 R345). -/
def Chip.takeSwap (N : Nat) (c : Chip) : Chip :=
  match c.twin.swapAt with
  | some L =>
    if L ≤ N then
      let lead := c.twin.role = .lead
      let r : Role := if lead then .standby else .lead
      let c := ((c.dutyUntil (L + 2) r).setRole r true).onTwin fun t => { t with
        swapAt := none, epoch := t.epoch + 1, peerLost := false }
      (if lead then c else c.mendsEnd N).allLost
    else c
  | none => c

/-- A press of twin.mode (12 R323): the unit negotiates, or is SOLO. -/
def Chip.twinLand (ids : List Nat) (new : Items) (c : Chip) : Chip :=
  let m := item 0x0D 0 1
  if !ids.contains m then c
  else
    let c := c.setRole (if itemIn new m = 1 then .negotiating else .solo) false
    c.onTwin fun t => { t with
      unmatched := false, pathT := false, pathL := false, pathD := false, suspended := false, peerLost := false, epoch := 0,
      missRun := 0, goodRun := 0, lastL := none, lastD := none, next := none, swapAt := none, fullMend := false,
      mending := [], divergent := [], asked := [], bulk := [], mirror := [], unacked := [], part := 0, taken := 0, past := [],
      frame := none, deferred := [], peerProfile := none, dutyTo := none }

/-! Regions (12 R332, R333) -/

/-- Every pressed mirrored item, the banks of the filters, the waiting PRESS_ATs and the profile. -/
def Chip.configWords (e : Past) (c : Chip) : List (Nat × Nat) :=
  let items := (e.cfg.items.filter fun q => itemMirrored q.1).flatMap fun q => [q.1, encInt q.2]
  let bank := fun (b : FirBank) => [b.length, b.mode, b.blocks, b.shape] ++ encList encWeight b.coef
  keyed 0 items ++ keyed 1 e.waits ++ keyed 2 [Profile.code c.prof] ++
    c.graph.fir.flatMap fun q => if q.2.bank = {} then [] else keyed (3 + q.1) (bank q.2.bank)

/-- Whether filter m is mirrored. -/
def Chip.firMirror (m : Nat) (c : Chip) : Bool := (c.twinIt 0x11).testBit m

/-- The history of a filter by position: absolute index modulo its length, newest first, at the end of graph block G. -/
def histWords (p : Profile) (G m : Nat) (f : FirSt) : List (Nat × Nat) :=
  let last := (G + 1) * blkLen p
  (f.hist.zipIdx.filter fun h => h.2 < last).map fun h =>
    (m * 2 ^ 24 + (last - 1 - h.2) % firTaps p, word40 h.1)

/-- The fade gains of the network sinks stand after the sinks. -/
def fadeKey : Nat := 2048

/-- The words of region r at the end of a graph block, but for the rings. -/
def Chip.regionWords (r : Nat) (e : Past) (c : Chip) : List (Nat × Nat) :=
  if r < 16 then (e.src.filter fun q => q.1 % 16 = r && q.2 ≠ {}).flatMap fun q => keyed q.1 (encSrc q.2)
  else if r < 32 then (e.bus.filter fun q => q.1 % 16 = r - 16 && q.2 ≠ {}).flatMap fun q => keyed q.1 (encBus q.2)
  else if r < 48 then (e.chain2.filter fun q => q.1 % 16 = r - 32).flatMap fun q =>
    keyed q.1 (encChain2 q.2 ++ encChain3 (mget e.chain3 q.1 {}))
  else if r < 56 then []
  else if r < 60 then (e.fir.filter fun q => q.1 % 4 = r - 56 && c.firMirror q.1).flatMap fun q =>
    histWords c.prof e.blk q.1 q.2 ++ (encXchg q.2).zipIdx.map fun w => (q.1 * 2 ^ 24 + 2 ^ 20 + w.2, w.1)
  else if r = 60 then
    ((e.sink.filter fun q => q.1 < 2048 && q.2 ≠ {}).flatMap fun q => keyed q.1 (encSink q.2)) ++
      if e.fade.isNone then [] else keyed fadeKey (encOpt (encPair encRamp encNat) e.fade)
  else if r = 61 then e.last.flatMap fun q => keyed q.1 (q.2.map word40)
  else if r = 63 then c.configWords e
  else []

/-- The sum of R333. -/
def digestSum (ws : List (Nat × Nat)) : Nat :=
  ws.foldl (fun a w => (a + (Config.digestMix twinLevel.toNat w.1 w.2).toNat) % 2 ^ 64) 0

/-- The chains of a ring region with their pages. -/
def Chip.ringChains (r : Nat) (c : Chip) : List (Nat × List Nat) :=
  (c.graph.chain.filter fun q => q.1 % 8 = r - 48 && !q.2.pages.isEmpty).map fun q => (q.1, q.2.pages)

/-- A sample of a ring as it stands. -/
def Chip.ringAt (pages : List Nat) (pos : Nat) (c : Chip) : Smp :=
  let a := 0x30000000 + 8 * ringSample pages pos
  { v := signed 32 (ofLe (c.mem.bytes.bytes a 4)), t := (c.mem.bytes.byte (a + 4)).toNat }

/-- H of a ring region as it stands: every position of every ring. -/
def Chip.ringDigest (r : Nat) (c : Chip) : Nat :=
  digestSum ((c.ringChains r).flatMap fun q =>
    (List.range (q.2.length * 4096)).map fun p => (q.1 * 2 ^ 24 + p, word40 (c.ringAt q.2 p)))

/-- H_0 to H_63 of a past block. -/
def Chip.digests (e : Past) (c : Chip) : List Dword :=
  (List.range 64).map fun r =>
    BitVec.ofNat 64 (if 48 ≤ r ∧ r < 56 then e.rings.getD (r - 48) 0 else digestSum (c.regionWords r e))

/-- The landing index of every waiting PRESS_AT. -/
def Chip.waitsNow (c : Chip) : List Nat := (c.cmd.presses.filter fun q => q.named).map fun q => q.land

def Chip.pastAt (G : Nat) (c : Chip) : Option Past := c.twin.past.find? fun e => e.blk = G
def Chip.onPast (G : Nat) (f : Past → Past) (c : Chip) : Chip :=
  c.onTwin fun t => { t with past := t.past.map fun e => if e.blk = G then f e else e }

/-! Captures on the lead (12 R335, R336) -/

/-- Words of a frame's bulk section: at least this many 5-byte samples (12 R325). -/
def bulkWords : Profile → Nat
  | .F => 36000 | .D => 75600 | .E => 75600 | .T => 16000

/-- A position of a ring or history of `len` samples has been written since graph block M; `next` is the first sample index
not written yet. -/
def written (B len next M p : Nat) : Bool := decide ((M + 1) * B ≤ next - 1 - (next - 1 + len - p) % len)

/-- The positions of a ring in the order in which they will be read; pass 2 has run up to block `done`. -/
def ringOrder (B len d done : Nat) : List Nat :=
  (List.range len).map fun i => ((done + 1) * B + len * (d / len + 1) - d + i) % len

/-- The words of a ring or filter region that was captured at the end of graph block M, in the order in which they are sent;
those of a filter's exchange go first. -/
def Chip.slowWords (r M done : Nat) (c : Chip) : List (Nat × Nat) :=
  if r < 56 then (c.ringChains r).flatMap fun q =>
    let d := (c.it (item 0x05 q.1 0x11)).toNat
    (ringOrder c.B (q.2.length * 4096) d done).map fun p => (q.1 * 2 ^ 24 + p, word40 (c.ringAt q.2 p))
  else match c.pastAt M with
    | some e =>
      let ws := c.regionWords r e
      let xchg := fun (w : Nat × Nat) => decide (2 ^ 20 ≤ w.1 % 2 ^ 24)
      ws.filter xchg ++ ws.filter fun w => !xchg w
    | none => []

/-- A captured word has been overwritten on the lead since graph block M, so it is not sent any more (12 R336): pass 2 has run
up to block `done`, pass 3 up to the block before. -/
def Chip.overwritten (r M done : Nat) (c : Chip) (key : Nat) : Bool :=
  let p := key % 2 ^ 24
  if r < 56 then
    let len := (mget c.graph.chain (key / 2 ^ 24) {}).pages.length * 4096
    len ≤ p || written c.B len ((done + 1) * c.B) M p
  else p < 2 ^ 20 && written c.B (firTaps c.prof) (done * c.B) M p

/-- The address in the delay store of a ring word of a capture. -/
def Chip.ringAddr (key : Nat) (c : Chip) : Nat :=
  0x30000000 + 8 * ringSample (mget c.graph.chain (key / 2 ^ 24) {}).pages (key % 2 ^ 24)

/-- The captures of block N, after pass 3 of graph block N - 2. The TWIN DMA reads the ring words: an uncorrectable one halts
it (17 R453), and what it was about to send is read again once it runs (17 R454). -/
def Chip.capture (N : Nat) (c : Chip) : Chip :=
  match c.pastAt (N - 2) with
  | none => c
  | some e =>
    let room := bulkWords c.prof
    let r := c.twin.asked.foldl (fun (a : List BulkWord × List (Nat × Option (Nat × List (Nat × Nat)))) q =>
      let slow := 48 ≤ q.1 && q.1 < 60
      let was := q.2.getD (N - 2, c.slowWords q.1 (N - 2) (N - 1))
      let M := was.1
      let todo := if slow then was.2.filter fun w => !c.overwritten q.1 M (N - 1) w.1 else c.regionWords q.1 e
      let now := if slow then todo.take (room - a.1.length) else todo
      let now := if slow && q.1 < 56 then now.map fun w =>
        (w.1, word40 (c.ringAt (mget c.graph.chain (w.1 / 2 ^ 24) {}).pages (w.1 % 2 ^ 24))) else now
      let ws := now.map fun w => { region := Fin.ofNat 64 q.1, key := w.1, value := w.2 : BulkWord }
      -- an empty capture still tells that the region holds nothing
      let ws := if ws.isEmpty && !slow then [{ region := Fin.ofNat 64 q.1, key := 2 ^ 64, value := 0 }] else ws
      (a.1 ++ ws, if slow && now.length < todo.length then a.2 ++ [(q.1, some (M, todo.drop now.length))] else a.2)) ([], [])
    let read := (r.1.filter fun w => 48 ≤ w.region.val && w.region.val < 56).map fun w => eccBase (c.ringAddr w.key)
    let send := fun (c : Chip) => c.onTwin fun t => { t with bulk := r.1, asked := r.2 }
    if read.isEmpty then send c
    else
      let c := c.onTwin fun t => { t with bulk := [] }
      if c.dmaHalted 3 then c
      else
        let c := c.correct 0x33 read
        match c.badWord read with
        | some w => c.haltDma 3 w
        | none => send c

/-! Loading on the standby (12 R335 to R337) -/

/-- Elements whose words are loaded replace those of a region. -/
def replaceEls {α : Type} (inRegion : Nat → Bool) (old new : Map α) : Map α :=
  new.foldl (fun m q => mset m q.1 q.2) (old.filter fun q => !inRegion q.1)

/-- The open gates of a past block. -/
def opensOf (e : Past) : List Nat :=
  ((mkeys e.ins) ++ (List.range 10).map (2737 + ·)).filter fun s => gateOpen e.cfg.items s (mget e.src s {})

/-- Blocks from M + 1 on, up to `hi`. -/
def after (M hi : Nat) : List Nat := (List.range (hi - M)).map fun i => M + 1 + i

/-- Sources of region r: pass 1 of the blocks since is computed again for them. -/
def Chip.loadSources (r M N : Nat) (ws : Map (List Nat)) (c : Chip) : Chip :=
  let mine := fun s => s % 16 = r
  let start := decoded (fun _ => decSrc) ws
  let out := (after M (N - 1)).foldl (fun (a : Map SrcSt × Chip) b =>
    match a.2.pastAt b with
    | none => a
    | some e =>
      let s := sources a.2.prof e.cfg.items b (e.ins.filter fun q => mine q.1) a.1
      let st := s.2.1.filter fun q => mine q.1
      (st, a.2.onPast b fun e => { e with
        src := replaceEls mine e.src st
        pass1 := replaceEls (fun k => k < 3072 && mine k) e.pass1 (s.1.filter fun q => mine q.1) })) (start, c)
  out.2.onGraph fun g => { g with src := replaceEls mine g.src out.1 }

/-- Buses of a region. -/
def Chip.loadBuses (r M N : Nat) (ws : Map (List Nat)) (c : Chip) : Chip :=
  let mine := fun b => b % 16 = r
  let start := decoded (fun _ => decBus) ws
  let out := (after M (N - 1)).foldl (fun (a : Map BusSt × Chip) b =>
    match a.2.pastAt b with
    | none => a
    | some e =>
      let ks := (mkeys e.bus).filter mine
      let rs := ks.map fun k => (k, busBlock a.2.prof e.cfg (opensOf e) e.pass1 k (mget a.1 k {}))
      let st : Map BusSt := rs.map fun q => (q.1, q.2.2.1)
      (st, a.2.onPast b fun e => { e with
        bus := replaceEls mine e.bus st
        pass1 := rs.foldl (fun m q => mset m (3072 + q.1) q.2.1) e.pass1 })) (start, c)
  out.2.onGraph fun g => { g with bus := replaceEls mine g.bus out.1 }

/-- Pass-1 results of the latest two blocks follow the replay store. -/
def Chip.refreshPass1 (N : Nat) (c : Chip) : Chip :=
  match c.pastAt (N - 1), c.pastAt (N - 2) with
  | some a, some b => c.onGraph fun g => { g with pass1 := a.pass1, pass1b := b.pass1 }
  | _, _ => c

/-- One chain: pass 2 of the blocks up to N - 2 and pass 3 up to N - 3 are computed again. -/
def Chip.loadChain (M N k : Nat) (st : ChainSt) (c : Chip) : Chip :=
  let keep := c.graph.pass1b
  let c := c.onGraph fun g => { g with chain := mset g.chain k st }
  let two := (after M (N - 2)).foldl (fun (a : Map (List Smp) × Chip) b =>
    match a.2.pastAt b with
    | none => a
    | some e =>
      let r := (a.2.onGraph fun g => { g with pass1b := e.pass1 }).chainBlock e.cfg b k
      (mset a.1 b r.1, r.2.onPast b fun e => { e with chain2 := mset e.chain2 k (mget r.2.graph.chain k {}) })) ([], c)
  let c := (after M (N - 3)).foldl (fun c b =>
    match c.pastAt b with
    | none => c
    | some e =>
      let r := c.chainOut e.cfg k (mget two.1 b []) (mget two.1 (b + 1) [])
      r.2.onPast b fun e => { e with
        chain3 := mset e.chain3 k (mget r.2.graph.chain k {}), outs := mset e.outs (3584 + k) r.1 }) two.2
  c.onGraph fun g => { g with pass1b := keep, pass2 := mset g.pass2 k (mget two.1 (N - 2) (mget g.pass2 k [])) }

/-- Chains of a region. -/
def Chip.loadChains (M N : Nat) (ws : Map (List Nat)) (c : Chip) : Chip :=
  ws.foldl (fun c q =>
    match (decChain (mget c.graph.chain q.1 {})) q.2 with
    | some (st, _) => c.loadChain M N q.1 st
    | none => c) c

/-- The selected samples of a sink in a block: selector, deferral, samples. -/
def sinkBlock (p : Profile) (cfg : Gen) (e : Nat) (st : SinkSt) (read : Nat → Nat → Smp) : Sel × Bool × List Smp :=
  let it := fun f => (itemIn cfg.items (item 0x07 e f)).toNat
  let d := st.sel.drive (cfg.landed.contains (item 0x07 e 1)) (it 1) (it 2 * blkLen p) (it 3)
  (d.1, d.2, (List.range (blkLen p)).map (d.1.sample read))

/-- Network sinks: the exit checks of the blocks since are made again, for their state alone. -/
def Chip.loadSinks (M N : Nat) (ws : Map (List Nat)) (c : Chip) : Chip :=
  let mine := fun e => e < 2048
  let start := (ws.filter fun q => q.1 ≠ fadeKey).filterMap fun q => ((decSink (mget c.graph.sink q.1 {})) q.2).map fun r => (q.1, r.1)
  let fade := match (decOpt (decPair decRamp decNat)) (mget ws fadeKey []) with
    | some (f, _) => f
    | none => none
  let fade := (after M (N - 3)).foldl (fun f b => fadePass c.B (b + 3) f) fade
  let sinks := (after M (N - 3)).foldl (fun (m : Map SinkSt) b =>
    match c.pastAt b with
    | none => m
    | some e =>
      mmap m fun k st =>
        let x := sinkBlock c.prof e.cfg k st fun s i => (mget e.outs s (mget e.pass1 s [])).getD i {}
        let st := { st with sel := x.1.pass c.B }
        let d := ((c.onGraph fun g => { g with sink := mset g.sink k st }).exitCheck e.cfg.items k (b + 3) x.2.2).2.2
        mget d.graph.sink k {}) start
  c.onGraph fun g => { g with sink := replaceEls mine g.sink sinks, netFade := fade }

/-- HOLD contexts: the loaded samples stand where every block since was MISSING. -/
def Chip.loadLast (M N : Nat) (ws : Map (List Nat)) (c : Chip) : Chip :=
  let load := fun (u : FlowUnit) (q : Nat × List Nat) =>
    match mget? u.ctx q.1 with
    | none => u
    | some x =>
      let gone := (after M (N - 1)).all fun b => match mget? x.win (b % 64) with
        | some e => e.block ≠ b || e.st = .missing || e.st = .empty
        | none => true
      if gone then { u with ctx := mset u.ctx q.1 { x with last := q.2.map smp40 } } else u
  c.onFlow fun u => ws.foldl load u

/-- The mirrored items of a block: those of the block before, with what landed at it (12 R339). -/
def relanded (base : Items) (g : Gen) : Items :=
  setItems base ((g.landed.filter itemMirrored).map fun id => (id, itemIn g.items id))

/-- A configuration keeps its local items and takes these mirrored ones. -/
def Gen.withMirrored (g : Gen) (base : Items) : Gen :=
  { g with items := setItems (g.items.filter fun q => !itemMirrored q.1) base }

/-- The configurations of successive blocks over the mirrored items of the block before the first. -/
def regen : Items → List Gen → List Gen
  | _, [] => []
  | base, g :: gs => let m := relanded base g; g.withMirrored m :: regen m gs

/-- The pressed configuration of the lead at the end of graph block M (12 R337): mirrored items, filter banks; presses that
have landed since stay on top of it, for the blocks that are computed again too (12 R339). The rings are allocated anew. -/
def Chip.loadConfig (M N : Nat) (ws : Map (List Nat)) (c : Chip) : Chip :=
  let pairs := fun (l : List Nat) => (List.range (l.length / 2)).map fun i => (l.getD (2 * i) 0, intOf (l.getD (2 * i + 1) 0))
  let base := setItems [] (pairs (mget ws 0 []))
  let blks := after M (N - 1)
  let cfgs := blks.map fun b => match c.pastAt b with
    | some e => e.cfg
    | none => if b + 1 = N then c.sys.prev else c.sys.prev2
  let gens := regen base (cfgs ++ [c.sys.now])
  let gen := fun (b : Nat) (g : Gen) => if b ≤ M then g else gens.getD (b - M - 1) g
  let c := c.onSys fun s => { s with now := gen N s.now, prev := gen (N - 1) s.prev, prev2 := gen (N - 2) s.prev2 }
  let c := c.onTwin fun t => { t with past := t.past.map fun e => { e with cfg := gen e.blk e.cfg } }
  let bank : Dec FirBank := decNat.bind fun n => decNat.bind fun m => decNat.bind fun b => decNat.bind fun s =>
    (decList decWeight).bind fun k => Dec.pure { coef := k, length := n, mode := m, blocks := b, shape := s }
  let fir := (List.range 64).foldl (fun (m : Map FirSt) k =>
    let b := match bank (mget ws (3 + k) []) with
      | some (b, _) => b
      | none => {}
    if (mget m k {}).bank = b then m else mmod m k {} fun f => { f with bank := b }) c.graph.fir
  (c.onGraph fun g => { g with fir := fir }).reallocRings c.sys.now.items

/-- The samples of a ring region, written where the standby has not written since block M, each as a part of an ECC word (17
R455); pass 2 has run up to N - 2. -/
def Chip.loadRing (r M N : Nat) (ws : List (Nat × Nat)) (c : Chip) : Chip :=
  let c := ws.foldl (fun c w =>
    let pages := (mget c.graph.chain (w.1 / 2 ^ 24) {}).pages
    let p := w.1 % 2 ^ 24
    let len := pages.length * 4096
    let next := (N - 1) * c.B
    if len ≤ p ∨ written c.B len next M p then c
    else (c.innerStore 0x33 (c.ringAddr w.1) (sampleBytes (smp40 w.2))).2) c
  c.onTwin fun t => { t with covered := mmod t.covered r [] (ws.map Prod.fst ++ ·) }

/-- The samples of a filter region; pass 3 has run up to N - 3. -/
def Chip.loadFilter (r M N : Nat) (ws : List (Nat × Nat)) (c : Chip) : Chip :=
  let taps := firTaps c.prof
  let last := (N - 2) * c.B
  let c := ws.foldl (fun c w =>
    let m := w.1 / 2 ^ 24
    let p := w.1 % 2 ^ 24
    if 2 ^ 20 ≤ p then c
    else
      let i := (last - 1 + taps - p) % taps
      if (M + 1) * c.B ≤ last - 1 - i then c
      else c.onGraph fun g => { g with fir := mmod g.fir m {} fun f => { f with
        hist := (f.hist ++ List.replicate (i + 1 - f.hist.length) ({} : Smp)).set i (smp40 w.2) } }) c
  let xs := grouped ((ws.filter fun w => 2 ^ 20 ≤ w.1 % 2 ^ 24).map fun w => (w.1 / 2 ^ 24 * 2 ^ 24, w.2))
  let adv := (N - 3 - M) * c.B
  let c := xs.foldl (fun c q =>
    match (decOpt decTriple) q.2 with
    | some (o, _) => c.onGraph fun g => { g with fir := mmod g.fir q.1 {} fun f => { f with
        xchg := o.bind fun x => if x.1 ≤ x.2.2 + adv then none else some (x.1, x.2.1, x.2.2 + adv) } }
    | none => c) c
  c.onTwin fun t => { t with covered := mmod t.covered r [] (ws.map Prod.fst ++ ·) }

/-- MEND_LOAD at tick N, before the passes: what frame N - 1 carried, captured at the end of graph block N - 4. -/
def Chip.mendLoad (N : Nat) (c : Chip) : Chip :=
  match c.twin.frame with
  | none => c
  | some f =>
    if f.n.toNat + 1 ≠ N ∨ !c.isStandby then c
    else
      let M := N - 4
      let words := fun r => (f.bulk.filter fun w => w.region.val = r).map fun w => (w.key, w.value)
      let order := 63 :: (List.range 63)
      let mend := order.filter fun r => (mget? c.twin.mending r).isSome && !(words r).isEmpty
      let c := mend.foldl (fun c r =>
        let ws := (words r).filter fun w => w.1 < 2 ^ 64
        let els := grouped ws
        let M' := mget c.twin.mending r 0 + 3
        if r < 16 then c.loadSources r M N els
        else if r < 32 then c.loadBuses (r - 16) M N els
        else if r < 48 then c.loadChains M N els
        else if r < 56 then c.loadRing r M' N ws
        else if r < 60 then c.loadFilter r M' N ws
        else if r = 60 then c.loadSinks M N els
        else if r = 61 then c.loadLast M N els
        else if r = 63 then c.loadConfig M N els
        else c) c
      if mend.any (· < 32) then c.refreshPass1 N else c

/-! Comparison (12 R334, R335, R338) -/

/-- A region has started more than twin.mend_limit mends in this window, with one more. -/
def Chip.mendSpent (r : Nat) (c : Chip) : Bool := c.twinIt 0x12 < mget c.twin.started r 0 + 1

/-- The counts of mends belong to the window of graph block G (12 R338). -/
def Chip.startedIn (G : Nat) (c : Chip) : Chip :=
  if G / c.W = c.twin.startedWin then c else c.onTwin fun t => { t with started := [], startedWin := G / c.W }

/-- A region starts a mend at the comparison of graph block G, or becomes DIVERGENT. -/
def Chip.mendBegin (G r : Nat) (c : Chip) : Chip :=
  if c.mendSpent r then
    (c.onTwin fun t => { t with
      mending := mdel t.mending r, divergent := r :: t.divergent
      leftBlk := if (mget? t.mending r).isSome then c.sys.blk else t.leftBlk }).raise 0x0F12 .fault r
  else c.onTwin fun t => { t with
    started := mset t.started r (mget t.started r 0 + 1), mending := mset t.mending r G, covered := mdel t.covered r
    mirror := t.mirror ++ [.mend (Fin.ofNat 64 r)] }

/-- A region that mismatches starts its mend. -/
def Chip.mendStart (G r : Nat) (c : Chip) : Chip :=
  let c' := c.mendBegin G r
  if c.mendSpent r then c' else c'.raise 0x0F10 .note r

/-- A region leaves MENDING. -/
def Chip.mendDone (r : Nat) (c : Chip) : Chip :=
  let c := c.onTwin fun t => { t with
    mending := mdel t.mending r, covered := mdel t.covered r, mends := t.mends + 1, mended := r :: t.mended, leftBlk := c.sys.blk }
  if c.twin.mending.isEmpty then c.raise 0x0F11 .note else c

/-- Every position of a slow region has been received or overwritten since graph block M; passes 2 and 3 have run up to
N - 2 and N - 3. -/
def Chip.slowDone (r M N : Nat) (c : Chip) : Bool :=
  let got := mget c.twin.covered r []
  if r < 56 then (c.ringChains r).all fun q =>
    (List.range (q.2.length * 4096)).all fun p => got.contains (q.1 * 2 ^ 24 + p) || written c.B (q.2.length * 4096) ((N - 1) * c.B) M p
  else (c.graph.fir.filter fun q => q.1 % 4 = r - 56 && c.firMirror q.1).all fun q =>
    (List.range (firTaps c.prof)).all fun p => got.contains (q.1 * 2 ^ 24 + p) || written c.B (firTaps c.prof) ((N - 2) * c.B) M p

/-- The mend of a chain region waits while a ring region that holds one of its chains mends (12 R335); one that mismatches
again meanwhile stays MENDING. -/
def Chip.mendDefers (r : Nat) (c : Chip) : Bool := 32 ≤ r && r < 48 && (mget? c.twin.mending (48 + r % 8)).isSome

/-- A full mend starts (12 R337); a DIVERGENT region starts none (12 R338). -/
def Chip.fullMend (G : Nat) (c : Chip) : Chip :=
  let rs := (List.range 64).filter fun r => r ≠ 62 && !c.twin.divergent.contains r
  let c := c.onTwin fun t => { t with fullMend := false, mending := [], covered := [], deferred := [] }
  (rs.foldl (fun c r => c.mendBegin G r) c).raise 0x0F10 .note 63

/-- A full mend that is due may start: audio runs (19 R496), and the lead's profile is this unit's (12 R323), as its latest
heartbeat says. -/
def Chip.mayMend (c : Chip) : Bool :=
  let t := c.twin
  t.fullMend && c.isStandby && c.pairTiming && t.pathT && c.cmd.cold.isNone && c.sys.audioEn &&
    (t.peerProfile = some c.prof || (t.peerProfile.isNone && !t.pathL && !t.pathD))

/-- Region r starts a mend unless it mends, is DIVERGENT or waits for a ring region. -/
def Chip.mendNew (G r : Nat) (c : Chip) : Chip :=
  if (mget? c.twin.mending r).isSome ∨ c.twin.divergent.contains r ∨ c.mendDefers r then c else c.mendStart G r

/-- What a comparison of graph block G at tick N says of a region that mends: after its load it leaves MENDING when it
matches, a slow one once it has everything. -/
def Chip.mendCheck (G N : Nat) (bad : List Nat) (c : Chip) (q : Nat × Nat) : Chip :=
  let r := q.1
  if G < q.2 + 5 then c
  else if 48 ≤ r && r < 60 then if c.slowDone r (q.2 + 3) N && !bad.contains r then c.mendDone r else c
  else if bad.contains r then if c.mendDefers r then c else c.mendStart G r
  else c.mendDone r

/-- The regions of a TWIN_MEND whose mend was put off. -/
def Chip.mendDeferred (G : Nat) (c : Chip) : Chip :=
  let c := c.twin.deferred.foldl (fun c r => c.mendNew G r) c
  c.onTwin fun t => { t with deferred := t.deferred.filter c.mendDefers }

/-- The comparison at tick N of graph block N - 4 with frame N - 1. Ring regions come first, for what waits for them. -/
def Chip.compare (N : Nat) (c : Chip) : Chip :=
  let G := N - 4
  let c := c.startedIn G
  let c := if c.mayMend then c.fullMend G else c
  match c.twin.frame, (c.pastAt G).bind fun e => e.digest with
  | some f, some own =>
    if f.n.toNat + 1 ≠ N ∨ f.digest.length ≠ 64 ∨ c.err.safe ∨ f.safe ∨ !c.pairTiming ∨ !c.twin.pathT then c
    else
      let sum := fun (l : List Dword) => total (l.map BitVec.toNat) % 2 ^ 64
      let bad := (List.range 64).filter fun r => r ≠ 62 && own.getD r 0 ≠ f.digest.getD r 0
      let c := c.onTwin fun t => { t with
        own := sum own, peer := sum f.digest, matched := bad.isEmpty, digestBlk := G,
        mismatches := if bad.isEmpty then t.mismatches else t.mismatches + 1 }
      if !c.isStandby then c
      else
        let old := c.twin.mending
        let slow := fun (q : Nat × Nat) => decide (48 ≤ q.1) && decide (q.1 < 60)
        let full := bad.contains 63 && (mget? old 63).isNone && !c.twin.divergent.contains 63
        let fresh := bad.filter fun r => (mget? old r).isNone
        let start := fun (c : Chip) (rs : List Nat) => if full then c else rs.foldl (fun c r => c.mendNew G r) c
        let c := start c (fresh.filter (48 ≤ ·))
        let c := (old.filter slow ++ old.filter fun q => !slow q).foldl (Chip.mendCheck G N bad) c
        let c := if full then c.fullMend G else (start c fresh).mendDeferred G
        c.roleSettle
  | _, _ => c

/-! Inputs of a pair (12 R325 to R327) -/

/-- The port of a serial source is the standby's: bit p of twin.sap_from. -/
def Chip.fromStandby (src : Nat) (c : Chip) : Bool := (c.twinIt 0x10).testBit ((src - 2048) / 32)

/-- The serial and analogue inputs of graph block N from this unit's captures by block, and what frame N - 1 brings. -/
def Chip.localInputs (N : Nat) (c : Chip) : Map (List Smp) :=
  if !c.pairTiming then mget c.twin.caps (N - 1) []
  else
    let own := mget c.twin.caps (N - 2) []
    let lead := c.twin.role = .lead
    let f := c.twin.frame.filter fun f => f.n.toNat + 1 = N && c.twin.pathT
    let theirs : Map (List Smp) := match f with
      | none => []
      | some f => (f.serial.map fun q => (q.1, q.2.map ofTS)) ++ f.analogue.zipIdx.map fun q => (2560 + q.2, q.1.map ofTS)
    let ser := fun (m : Map (List Smp)) (want : Bool) => m.filter fun q => q.1 < 2560 && c.fromStandby q.1 = want
    let ana := fun (m : Map (List Smp)) (up : Nat) => (m.filter fun q => 2560 ≤ q.1 && q.1 < 2576).map fun q => (q.1 + up, q.2)
    let l := if lead then own else theirs
    let s := if lead then theirs else own
    (ser l false ++ ser s true ++ ana l 0 ++ ana s 16).foldl (fun m q => mset m q.1 q.2) []

/-- Bytes of a mirror record in a block frame: an item with its value 12, other words 4, and a word of its own (log 85). -/
def recBytes : MirrorRec → Nat
  | .command _ _ ps => 20 + 4 * ps.length
  | .reply _ ws => 20 + 4 * ws.length
  | .tackSet items => 4 + 12 * items.length
  | .rebuild items => 4 + 12 * items.length
  | .press _ items _ => 12 + 12 * items.length
  | .profile _ _ _ items => 20 + 12 * items.length
  | .verdict _ _ => 8
  | .airingDone => 4
  | .mend _ => 4
  | .withdraw _ => 12
  | .swap _ => 12

/-- The records that fit in `room` bytes. -/
def recFit : Nat → List MirrorRec → List MirrorRec
  | _, [] => []
  | room, r :: rs => if recBytes r ≤ room then r :: recFit (room - recBytes r) rs else []

/-- The command mirror of the next frame: at most 16,384 bytes, of which earlier frames have carried `part` (12 R325). -/
def Twin.sendable (t : Twin) : List MirrorRec := recFit (16384 + t.part) (t.unacked ++ t.mirror)

/-- Block frame N (12 R325). -/
def Chip.blockFrame (N : Nat) (c : Chip) : TwinFrame :=
  let t := c.twin
  let head : TwinFrame := {
    n := BitVec.ofNat 64 N, peg := c.boot.peg, role := BitVec.ofNat 3 (roleCode t.role), unmatched := t.unmatched,
    safe := c.err.safe, epoch := t.epoch, level := twinLevel, paths := t.pathBits, health := t.healthWord,
    version := ((c.boot.slots.getD c.boot.slot {}).head.map fun h => h.version).getD 0 }
  if t.unmatched then head
  else
    let cap := mget t.caps (N - 1) []
    let mine := fun s => c.fromStandby s = (t.role ≠ .lead)
    { head with
      serial := (cap.filter fun q => q.1 < 2560 && mine q.1).map fun q => (q.1, q.2.map toTS)
      analogue := (List.range 16).map fun n => (mget cap (2560 + n) (silence c.B)).map toTS
      digest := match (c.pastAt (N - 3)).bind fun e => e.digest with | some d => d | none => []
      first := t.sent, heard := t.taken, mirror := t.sendable
      bulk := t.bulk }

/-- Sends frame N, unless the TWIN DMA is halted (17 R454); its mirror records stay until the peer acknowledges them. -/
def Chip.sendBlockFrame (N : Nat) (c : Chip) : Chip :=
  if c.twin.role = .solo ∨ !c.twin.aligned ∨ c.sys.xqSilent.getLsbD 14 ∨ c.dmaHalted 3 then c
  else
    let f := c.blockFrame N
    (c.onTwin fun t =>
      let all := t.unacked ++ t.mirror
      { t with
        unacked := if t.pathT then all else [], sent := if t.pathT then t.sent else t.sent + all.length
        part := if t.pathT && t.sendable.isEmpty && !all.isEmpty then t.part + 16384 else 0, mirror := [], bulk := [] }).emit (.twin f)

/-! The health report (12 R348) -/

/-- The (engine, pass) pair under test and the outcome of the block's shadow test and probe. A comparison that has not
finished within 4 blocks is skipped. -/
def Chip.health (N : Nat) (inp : TickIn) (c : Chip) : Chip :=
  let engines := indices 24 (engPowered c.prof).getLsbD
  let pairs := engines.length * 3
  let t := c.twin
  let e := engines.getD (t.shPos / 3) 0
  let skip := !inp.shadowDone && 4 ≤ t.shWait + 1
  let next := inp.shadowDone || skip
  let recent := if next then (t.shRecent.map fun q => (q.1, q.2 + 1)).filter fun q => q.2 < pairs else t.shRecent
  let c := c.onTwin fun t => { t with
    shEngine := if inp.shadowDone then e else t.shEngine, shPass := if inp.shadowDone then t.shPos % 3 + 1 else t.shPass
    shSkipped := if skip then satInc 0xFFFF t.shSkipped else t.shSkipped
    shPos := if next then (t.shPos + 1) % max 1 pairs else t.shPos, shWait := if next then 0 else t.shWait + 1
    shRecent := recent }
  let c : Chip := match inp.shadowFail with
    | none => c
    | some n =>
      let again := (mget? recent n.val).isSome
      let c := (c.onTwin fun t => { t with shFail := n.val, shRecent := mset t.shRecent n.val 0 }).raise 0x0F30 .fault n.val
      if again then c.raise 0x0F31 .fatal n.val else c
  let c : Chip := match inp.probeFail with
    | none => c
    | some k => c.raise 0x0F32 .fault k.val
  let t := c.twin
  let bits : List Bool := [inp.shadowFail.isNone, decide (c.mem.bgUe = 0), inp.tableBad.isNone, inp.probeFail.isNone,
    decide (c.graph.cap.bad = 0), t.matched, t.pathT && t.pathL && t.pathD, decide (c.graph.failTotal = t.failMark)]
  let now := packBits 8 fun i => bits.getD i false
  let fails := c.graph.failTotal
  c.onTwin fun t => { t with
    health := now, healthSeen := t.healthSeen ||| (255 - now), healthBlk := N, ageT := satInc 255 t.ageT, failMark := fails }

/-! The commands -/

/-- The lanes lock or unlock (12 R324). -/
def execTwinLinkChange (lane0 lane1 aligned : Bool) (s : State) : Host.Outcome State Fault Refusal :=
  act (fun c => c.onTwin fun t => { t with lane0 := lane0, lane1 := lane1, aligned := lane0 && lane1 && aligned }) s

/-- Heartbeats on both LINK ports. -/
def execHeartbeatSendL (t : Nat) (s : State) : Host.Outcome State Fault Refusal :=
  act (fun c =>
    let c := c.advance t
    if c.twin.role = .solo then c
    else (c.sendFrame 0 2 c.heartbeatFrame false).sendFrame 1 2 c.heartbeatFrame false) s

def execHeartbeatSendD (t : Nat) (s : State) : Host.Outcome State Fault Refusal :=
  act (fun c =>
    let c := c.advance t
    if c.twin.role = .solo then c else c.sendFrame 2 2 c.heartbeatFrame false) s

/-- A heartbeat frame's buffers are returned when the SUP core has read it. -/
def Chip.takeHeartbeat (drop : Bool) (c : Chip) : Chip :=
  if drop then (c.popInbox 2 2).2
  else match c.popInbox 0 2 with
    | (some _, c) => c
    | (none, c) => (c.popInbox 1 2).2

/-- A decided role takes effect (12 R343). -/
def execRoleTakeEffect (s : State) : Host.Outcome State Fault Refusal := act (fun c => (c.takeRole (c.sys.blk + 1)).roleSettle) s

/-- Three consecutive good frames restore path T (12 R340, R342). -/
def execPathTRestore (s : State) : Host.Outcome State Fault Refusal :=
  act (fun c =>
    if !c.twin.pathT && 3 ≤ c.twin.goodRun then
      (c.onTwin fun t => { t with pathT := true, suspended := false, peerLost := t.peerLost && t.next.isSome }).raise 0x0F02 .note
    else c) s

end Sys2Proof.Machine
end

