-- ==== Sys2Proof/Machine/Land.lean ====
section
/-! DEFINITION. Bringing items into force: a press that lands (01 R31, 13 R371), the graph cleared at audio enable, at a
cold press and at a safe exit (19 R496, 05 R138, 18 R479), and pressed selections that a profile does not have (03 R95). -/

namespace Sys2Proof.Machine

/-! The graph cleared (05 R138) -/

/-- A tap, a chain and a sink with nothing of their past: selections and gains as the items have them (log 25). -/
def initTap (items : Items) (id : Nat) : TapSt :=
  { sel := { cur := (itemIn items id).toNat },
    gain := Ramp.steady (if itemIn items (id + 2) = 1 then mutableGain (2 ^ 30) (itemIn items (id + 1)) else 0) }

def initBus (p : Profile) (items : Items) (b : Nat) : BusSt :=
  let base := item 0x04 b 0
  let named := (mkeys (mrange items base (base + 0x1000))).map fun id => itemField id / 16
  { taps := (indices (tapCount p) named.contains).map fun t => (t, initTap items (base + t * 16)) }

def initChain (items : Items) (k : Nat) (st : ChainSt) : ChainSt :=
  let g := fun f => itemIn items (item 0x05 k f)
  { sel := { cur := (g 1).toNat }, bqOff := st.bqOff,
    gain := Ramp.steady (mutableGain (2 ^ 27) (g 4) * (if g 5 = 1 then -1 else 1)),
    dly := { cur := (g 0x11).toNat }, mute := Ramp.steady (if g 7 = 1 then 0 else one30) }

def initSink (items : Items) (win e : Nat) (st : SinkSt) : SinkSt :=
  { failTotal := st.failTotal, mutes := st.mutes, muted := st.muted, waits := st.waits, win := win
    sel := { cur := (itemIn items (item 0x07 e 1)).toNat } }

/-- A press or a PROFILE_SET that has not landed exchanges filter m. -/
def Chip.firWaits (c : Chip) (m : Nat) : Bool :=
  let names := fun (l : List (Nat × Int)) => l.any fun i => itemFam i.1 = 6 && itemEl i.1 = m
  (c.cmd.presses.any fun q => names q.items) || c.cmd.cold.toList.any fun k => names k.items

/-- A filter whose press has landed holds its new bank at once. -/
def Chip.firComplete (c : Chip) (m : Nat) (f : FirSt) : FirSt :=
  if f.busy && !c.firWaits m then { f with bank := f.shadow, xchg := none, busy := false } else { f with xchg := none }

/-- All mirrored dynamic state, the exit-check windows and the ramps are cleared; `o` is the first output block, and the first
window that counts is the first that begins at `from_` or after. Exchanges of filters whose press has landed complete.
The rings keep their pages. -/
def Chip.clearGraph (items : Items) (o from_ : Nat) (c : Chip) : Chip :=
  let p := c.prof
  let W := bps p
  c.onGraph fun g => { g with
    src := [],
    bus := (elements items 0x04 ([] : Map Unit)).map fun b => (b, initBus p items b),
    chain := (elements items 0x05 g.chain).map fun k =>
      (k, { initChain items k (mget g.chain k {}) with pages := ownedPages g.pages k }),
    fir := mmap g.fir fun m f => { c.firComplete m f with hist := [] },
    sink := (elements items 0x07 g.sink).map fun e => (e, initSink items (o / W) e (mget g.sink e {})),
    winFrom := (from_ + W - 1) / W * W, opens := []
    pass1 := [], pass1b := [], pass2 := [], out := [], left := [], at1 := none, at2 := none, fade := none, netFade := none }

/-- Every ring of a chain is filled with value 0 and tag 0. -/
def Chip.clearRings (c : Chip) : Chip :=
  ((c.graph.pages.filter fun q => q.2.st = .owned).map Prod.fst).foldl (fun c p => c.zeroPage p) c

/-! What a cold press finds (03 R95, 04 R126) -/

/-- A pressed selector names a source that the profile does not have. An item whose own element the profile lacks has no
effect, and is no such selector. -/
def danglingSel (p : Profile) (items : Items) : Bool :=
  items.any fun q =>
    let n := q.2.toNat
    (itemSpec p q.1).isSome && match itemFam q.1 with
    | 4 => itemField q.1 % 16 = 0 && !tapSourceOk p n
    | 5 => itemField q.1 = 1 && !outSourceOk p n
    | 7 => itemField q.1 = 1 && !sinkSourceOk p n
    | _ => false

/-- Biquads of chain k that act as OFF in a profile. -/
def biquadsOff (p : Profile) (items : Items) (k : Nat) : List Nat :=
  indices 24 fun q =>
    let t := (itemIn items (item 0x05 k (0x100 + q * 16))).toNat
    let f := itemIn items (item 0x05 k (0x101 + q * 16))
    1 ≤ t && (decide ((450 * fsOf p : Nat) < f) || (t ≤ 8 && match bqCoefs p items k q with
      | some z => !bqStable z
      | none => false))

/-- Items with out.delay_max and out.delay cut to the profile. -/
def clampDelays (p : Profile) (items : Items) : Items :=
  (elements items 0x05 ([] : Map Unit)).foldl (fun m k =>
    let mx := min (itemIn m (item 0x05 k 0x10)) (2 * fsOf p : Nat)
    let d := min (itemIn m (item 0x05 k 0x11)) mx
    setItems m [(item 0x05 k 0x10, mx), (item 0x05 k 0x11, d)]) items

/-- Pages that the chains of a profile need. -/
def pagesNeeded (p : Profile) (items : Items) : Nat :=
  total (((elements items 0x05 ([] : Map Unit)).filter (· < chainCount p)).map fun k =>
    pagesFor (blkLen p) (itemIn items (item 0x05 k 0x10)).toNat)

/-- Applies items to the chains of a new profile (04 R126): clamps, rings, biquads; the NOTE 0x1041 once. -/
def Chip.coldChains (c : Chip) : Chip :=
  let p := c.prof
  let old := c.sys.now.items
  let items := clampDelays p old
  let c := c.onSys fun s => { s with now := { s.now with items := items } }
  let offs := (elements items 0x05 ([] : Map Unit)).map fun k => (k, biquadsOff p items k)
  let c := c.onGraph fun g => { g with chain := offs.foldl (fun m q => mmod m q.1 {} fun st => { st with bqOff := q.2 }) g.chain }
  let c := c.reallocRings items
  let long := c.graph.fir.any fun q =>
    let b := if q.2.busy then q.2.shadow else q.2.bank
    firTaps p < b.length
  if items ≠ old || offs.any (fun q => !q.2.isEmpty) || long then c.raise 0x1041 .note else c

/-! A press lands (01 R31, 13 R371) -/

/-- Entries of array filters in a press, by filter. -/
def firEntries (l : List (Nat × Int)) : List Nat := (l.filter fun q => itemFam q.1 = 6).map fun q => itemEl q.1

/-- Pass 3 of a graph block begins the exchanges of the filters that a press landing at it names. -/
def Chip.firBegin (cfg : Gen) (c : Chip) : Chip :=
  let start := fun f : FirSt => if f.busy then firStart (f.shadow.blocks * blkLen c.prof) f.shadow.shape f else f
  (cfg.landed.filter fun id => itemFam id = 6).foldl (fun c id =>
    c.onGraph fun g => { g with fir := mmod g.fir (itemEl id) {} start }) c

/-- Exchanges whose block was skipped are complete: no press waits for them. -/
def Chip.firSettle (c : Chip) : Chip :=
  let settle := fun (m : Nat) (f : FirSt) => if f.busy && f.xchg.isNone && !c.firWaits m then firStart 0 0 f else f
  c.onGraph fun g => { g with fir := mmap g.fir settle }

/-- The delay pages of a press: new rings are OWNED, those they replace RELEASING (04 R111). Where another press has changed
the line between, the ring is allocated at the landing (log 34). -/
def Chip.ringsLand (L : Nat) (old new : Items) (q : Press) (c : Chip) : Chip :=
  let id := fun k => item 0x05 k 0x10
  let held := fun (k : Nat) => (q.pages.find? fun r => r.1 = k).map Prod.snd
  let moved := (elements new 0x05 c.graph.chain).filter fun k => itemIn old (id k) ≠ itemIn new (id k) || (held k).isSome
  moved.foldl (fun c k =>
    let need := pagesFor c.B (itemIn new (id k)).toNat
    let ps := (held k).getD []
    let r := if ps.length = need then (ps, c) else (c.freeFilling ps).allocPages k need .filling
    r.2.landPages L k r.1) c

/-- The PTP ports start again when a press changes their role (11 R312, R314). In the GRANDMASTER role inputs 0 to 2 have no
more events: they are STOPPED at once (11 R291, R293, log 77). -/
def Chip.ptpLand (old new : Items) (c : Chip) : Chip :=
  let ch := fun f => itemIn old (item 0x0C 0x20 f) ≠ itemIn new (item 0x0C 0x20 f)
  let c := if ch 1 || ch 7 then ((c.ptpIdle 0).ptpIdle 1).ptpIdle 2 else c
  if ch 1 && itemIn new (item 0x0C 0x20 1) = 1 then
    (List.range 3).foldl (fun c x =>
      let was := (c.refIn x).present
      let c := c.onRefIn x fun i => { i with present := false }
      if was then c.refStops x else c) c
  else c

/-- The effect of a press of the items `ids` on the blocks outside the graph, from block L. Modulators and serial ports stay at rest until
audio is first enabled (19 R493). -/
def Chip.unitsLand (ids : List Nat) (old new : Items) (L : Nat) (c : Chip) : Chip :=
  let c := ((((c.setHash new).portLand old new).speechLand old new L).ainLand old new).ptpLand old new
  let c := c.twinLand ids new
  let c := if ids.contains (item 0x0C 0x10 0x20) ∧ itemIn new (item 0x0C 0x10 0x20) ≠ 0 ∧ !c.audioOnce
    then c.onRef fun r => { r with tod := some (itemIn new (item 0x0C 0x10 0x20)).toNat } else c
  if !c.sys.audioEn then c
  else (List.range 64).foldl (fun c m => c.modLand ids new m) (c.sapLand old new L)

/-- Pass 2 of the latest two blocks does not run: what their presses change of set-aside biquads acts at once (04 R126). -/
def Chip.bqSettle (c : Chip) : Chip :=
  c.onGraph fun g => { g with
    chain := mmap g.chain fun k st => { st with bqOff := bqHeld c.sys.now k (bqHeld c.sys.prev k st.bqOff) } }

/-- A selection that a press made of a block whose pass does not run stands at once. -/
def Sel.settle (x : Sel) (landed : Bool) (v : Int) : Sel := if landed then (x.drive true v.toNat 0 0).1 else x

/-- Pass 2 of the latest block and pass 3 of the latest two do not run: what their presses change of selections, read
positions, rings and set-aside biquads acts at once (01 R31, log 55). -/
def Chip.skipSettle (c : Chip) : Chip :=
  let now := c.sys.now
  let hit := fun (l : List Nat) fam k f => l.contains (item fam k f)
  let c := c.bqSettle
  c.onGraph fun g => { g with
    chain := mmap g.chain fun k st =>
      let ring := hit now.landed 5 k 0x10
      { st with
        sel := st.sel.settle (hit now.landed 5 k 1) (itemIn now.items (item 5 k 1))
        dly := if ring then { cur := (itemIn now.items (item 5 k 0x11)).toNat }
          else st.dly.settle (hit now.landed 5 k 0x11) (itemIn now.items (item 5 k 0x11))
        pages := if ring then (if itemIn now.items (item 5 k 0x10) = 0 then [] else ownedPages g.pages k) else st.pages }
    sink := mmap g.sink fun e st =>
      { st with sel := st.sel.settle (hit (c.sys.prev.landed ++ now.landed) 7 e 1) (itemIn now.items (item 7 e 1)) } }

/-- The items whose press a block answers: a tacked out.delay_max at its old value changes nothing, so a new out.delay
beside it crossfades (04 R113). -/
def pressedIds (old : Items) (items : List (Nat × Int)) : List Nat :=
  (items.filter fun q => !(itemFam q.1 = 5 && itemField q.1 = 0x10 && itemIn old q.1 = q.2)).map Prod.fst

/-- A press that changes a mirrored item lands: no region stays DIVERGENT (12 R338). A press of a filter bank changes it. -/
def Chip.divergenceEnds (ids : List Nat) (old new : Items) (c : Chip) : Chip :=
  if ids.any fun i => itemMirrored i && (itemFam i = 6 || itemIn old i ≠ itemIn new i) then
    c.onTwin fun t => { t with divergent := [] }
  else c

/-- One press lands at block L. -/
def Chip.landPress (L : Nat) (q : Press) (c : Chip) : Chip :=
  let old := c.sys.now.items
  let new := setItems old q.items
  let c := c.onSys fun s => { s with now := { items := new, landed := s.now.landed ++ pressedIds old q.items } }
  let c := c.ringsLand L old new q
  let c := if c.graph.run then c else c.bqSettle
  let c := c.unitsLand (q.items.map Prod.fst) old new L
  let c := c.divergenceEnds (q.items.map Prod.fst) old new
  let c := c.onGraph fun g => { g with dangling := g.dangling && danglingSel c.prof new }
  match q.slot with
  | some k => c.endJob k .done 0 [lo32 q.land, hi32 q.land]
  | none => c

/-- What a standby has of the waiting PRESS_ATs at the end of block N - 1: the record of one that the lead accepted in the
block before has come within it, so that both units count the same (12 R332, R333). -/
def Chip.noteWaits (N : Nat) (c : Chip) : Chip :=
  if c.isStandby then c.onPast (N - 1) fun e => { e with waits := c.waitsNow } else c

/-- Graph block N takes the configuration in force, with every press that lands at it (01 R31); nothing when that was done
ahead of the tick. -/
def Chip.landAt (N : Nat) (c : Chip) : Chip :=
  if c.sys.ahead = some N then c
  else
    let c := c.noteWaits N
    let c := c.onSys fun s => { s with prev2 := s.prev, prev := s.now, now := { s.now with landed := [] }, ahead := some N }
    let due := c.pressesTo N
    let late := due.any fun q => q.land ≠ N
    let c := c.onCmd fun d => { d with
      presses := d.presses.filter fun q => N < q.land, landed := if late then N else d.landed }
    due.foldl (fun c q => c.landPress N q) c

/-- Ticks come: start-up has reached stage REF, and no cold press or silent MEDIA has stopped them. -/
def Chip.ticking (c : Chip) : Bool :=
  let on := match c.boot.stage with
    | .ref | .fill | .twin | .audio => true
    | _ => false
  on && !(match c.cmd.cold with | some k => k.stopped | none => false)

/-- The presses that land at the next block do so (PRESS_LANDS), ahead of the rest of its tick. -/
def execPressLands (s : State) : Host.Outcome State Fault Refusal :=
  act (fun c =>
    let N := c.sys.blk + 1
    if c.ticking && c.sys.tickRun && !c.sys.reload && c.cmd.presses.any (fun q => q.land ≤ N) then c.landAt N else c) s

/-- Delay pages that a press took become FREE at tick L + 1 (04 R111). -/
def execPageRelease (s : State) : Host.Outcome State Fault Refusal := act (fun c => c.releasePages (c.sys.blk + 1)) s

end Sys2Proof.Machine
end

