-- ==== Sys2Proof/Machine/Images.lean ====
section
/-! DEFINITION. Firmware images and boot records (19 R498 to R504), and the reset of the part (20 R515, R516; 21 R532). -/

namespace Sys2Proof.Machine

/-! Images (19 R500, R501) -/

/-- A little-endian field of an image; flash that was erased and not staged reads 0xFF (log 26). -/
def imgField (bs : List Byte) (o n : Nat) : Nat := ofLe ((List.range n).map fun i => bs.getD (o + i) 0xFF)

/-- Outcome codes: 0 VALID, 1 BAD_SIGNATURE, 2 REVOKED_KEY, 3 MALFORMED. -/
def imageOutcome (revoked : BitVec 4) (bs : List Byte) : Nat :=
  let f := imgField bs
  let body := f 24 4
  let slot := f 16 1
  let highest := f 13 1
  let lowest := f 14 1
  let formed := f 0 4 = 0x9A1D0009 ∧ f 4 4 = 1 ∧ f 20 4 = 0xA1 ∧ f 18 2 = 0 ∧ f 28 36 = 0 ∧ f 17 1 < 16 ∧
    192 + body ≤ 8388608 ∧ lowest ≤ highest ∧ !(f 17 1).testBit slot
  if ¬ formed then 3
  else
    let bytes := fun o n => (List.range n).map fun i => bs.getD (o + i) 0xFF
    if 4 ≤ slot ∨ sha256 (bytes 64 64) ≠ Config.keyHash slot then 1
    else if revoked.getLsbD slot then 2
    else
      let be := fun o => ofBe (bytes o 32)
      let ok := ecdsaVerify (be 64, be 96) (ofBe (sha256 (bytes 0 (128 + body)))) (be (128 + body)) (be (160 + body))
      if ok then 0 else 1

/-- The header of an image. -/
def imageHead (bs : List Byte) : ImageHead :=
  { version := BitVec.ofNat 32 (imgField bs 8 4), levels := BitVec.ofNat 32 (imgField bs 12 4),
    keySlot := ⟨imgField bs 16 1 % 4, by omega⟩, revoke := BitVec.ofNat 4 (imgField bs 17 1) }

def Chip.slot (c : Chip) (i : Nat) : ImgSlot := c.boot.slots.getD i {}
def Chip.onSlot (i : Nat) (f : ImgSlot → ImgSlot) (c : Chip) : Chip := c.onBoot fun b => { b with slots := lmod b.slots i f }

/-- The outcome for an image of which the header is known, in the order of R501. -/
def headOutcome (revoked : BitVec 4) (h : ImageHead) : Nat :=
  let lv := h.levels.toNat
  if lv / 256 % 256 < lv / 65536 % 256 ∨ h.revoke.getLsbD h.keySlot.val then 3
  else if !h.keyGood then 1
  else if revoked.getLsbD h.keySlot.val then 2
  else if h.signed then 0 else 1

/-- The check of a slot: what came with the flash is judged by its header, what was staged by its bytes. -/
def Chip.checkSlot (i : Nat) (c : Chip) : Nat × Option ImageHead :=
  let z := c.slot i
  if z.factory then
    match z.head with
    | none => (3, none)
    | some h => (headOutcome c.boot.revoked h, some h)
  else (imageOutcome c.boot.revoked z.bytes, some (imageHead z.bytes))

/-- A VALID outcome sets the verified state of the slot. -/
def Chip.verifySlot (i : Nat) (c : Chip) : Nat × Option ImageHead × Chip :=
  let r := c.checkSlot i
  (r.1, r.2, if r.1 = 0 then c.onSlot i fun z => { z with verified := true, expect := z.bytes.length, head := r.2 } else c)

/-- The image that runs. -/
def Chip.running (c : Chip) : Option ImageHead := (c.slot c.boot.slot).head

/-- The words of a boot record, with their CRC-32C (19 R499). -/
def recordWords (r : BootRec) : List Word :=
  let ws := [0x0B007ECD, r.seq, w32 r.select, w32 (b2n r.trial), w32 (b2n r.tried), w32 r.prev]
  ws ++ [crc32c (wordBytes ws)]

/-- What the words of a copy say; none where they are no valid record. -/
def recordOf (ws : List Word) : Option BootRec :=
  match ws with
  | [m, q, s, t, d, p, k] =>
    if m = 0x0B007ECD ∧ k = crc32c (wordBytes [m, q, s, t, d, p]) ∧ s.toNat < 2 ∧ t.toNat < 2 ∧ d.toNat < 2 ∧ p.toNat < 2 then
      some { seq := q, select := s.toNat, trial := decide (t = 1), tried := decide (d = 1), prev := p.toNat }
    else none
  | _ => none

/-- The copy of the boot record in force, and its content: the valid one with the higher SEQ, modulo 2^32 (19 R499). -/
def Boot.current (b : Boot) : Option (Nat × BootRec) :=
  match recordOf (b.records.getD 0 []), recordOf (b.records.getD 1 []) with
  | some r, some q =>
    let ahead := (q.seq - r.seq).toNat
    if 0 < ahead ∧ ahead < 2 ^ 31 then some (1, q) else some (0, r)
  | some r, none => some (0, r)
  | none, some q => some (1, q)
  | none, none => none
def Boot.record (b : Boot) : Option BootRec := b.current.map Prod.snd

/-- The copies that the flash of a unit brings to its first boot; what the ZK9 has read or written itself stands. -/
def Boot.flashed (copies : List (List Word)) (b : Boot) : Boot :=
  { b with records := b.records.mapIdx fun i r => if r.isEmpty then copies.getD i [] else r }

/-- A new boot record goes into the other copy with SEQ + 1 (19 R499); copy 0 where neither is valid. -/
def Chip.writeRecord (f : BootRec → BootRec) (c : Chip) : Chip :=
  let p := c.boot.current.getD (1, {})
  c.onBoot fun b => { b with records := b.records.set (1 - p.1) (recordWords { f p.2 with seq := p.2.seq + 1 }) }

/-! Start-up stages (19 R490, R491) -/

def Stage.code : Stage → Nat
  | .rom => 1 | .load => 2 | .sram => 3 | .line => 4 | .ref => 5 | .fill => 6 | .twin => 7 | .audio => 8 | .halt => 15

def Chip.enterStage (st : Stage) (c : Chip) : Chip := c.onBoot fun b => { b with stage := st, stageAt := c.clk }

/-- The words of the start-up record (19 R490). -/
def Boot.words (b : Boot) : List Word :=
  [pack [(0, 4, b.stage.code), (4, 1, b.slot), (5, 1, b2n b.trial), (6, 1, b2n b.fallback), (7, 1, b2n b.refWaitExpired),
      (8, 4, b.haltCause), (16, 16, 0xD9C9)],
    lo32 (b.stageAt / msClk), lo32 b.audioBlk]

/-- Areas of shared SRAM that the host owns (17 R450, 07 R541): base and end, ascending. -/
def hostAreas : List (Nat × Nat) :=
  let mac := fun m =>
    ((List.range 5).map fun r => (rxRet m (r + 3), rxRet m (r + 3) + (if m < 2 then 0x800 else 0x400))) ++
    ((List.range 4).map fun r => (txBase m (r + 4), txBase m (r + 4) + 0x2400))
  mac 0 ++ mac 1 ++ mac 2 ++ [(0x40500000, 0x40780000), (0x407E0000, 0x407E4000)]

/-- The host may write this address of shared SRAM. -/
def hostOwned (a : Nat) : Bool := hostAreas.any fun r => r.1 ≤ a && a < r.2

/-- Shared SRAM but for some areas, which are ascending. -/
def sramGaps (l : List (Nat × Nat)) : List (Nat × Nat) :=
  let gaps := l.foldl (fun (a : List (Nat × Nat) × Nat) r =>
    (if a.2 < r.1 then a.1 ++ [(a.2, r.1)] else a.1, r.2)) ([], 0x40000000)
  gaps.1 ++ [(gaps.2, 0x40800000)]

/-- The areas that the CMD core writes with zeros (17 R448, 15 R406): all but the host's, and both command rings. -/
def initAreas : List (Nat × Nat) := sramGaps (hostAreas.filter fun r => r.1 ≠ 0x407E0000)

/-- What the background rinse reads in a pass, in its order: base, end, bytes per ECC word (17 R456). -/
def Chip.rinseAreas (c : Chip) : List (Nat × Nat × Nat) :=
  [(0x10000000, 0x10200000, 8), (0x11000000, 0x11080000, 8)] ++
    ((indices 24 c.powered.getLsbD).map fun n => (0x20000000 + n * 0x40000, 0x20000000 + (n + 1) * 0x40000, 4)) ++
    [(0x30000000, 0x34000000, 16)] ++ (sramGaps hostAreas).map fun r => (r.1, r.2, 8)

/-- The address of ECC word n of the pass, counted modulo its words. -/
def Chip.rinseAddr (n : Nat) (c : Chip) : Nat :=
  let rs := c.rinseAreas
  let words := fun (r : Nat × Nat × Nat) => (r.2.1 - r.1) / r.2.2
  (rs.foldl (fun (a : Nat × Option Nat) r =>
    if a.2.isSome then a
    else if a.1 < words r then (a.1, some (r.1 + a.1 * r.2.2)) else (a.1 - words r, none)) (n % total (rs.map words), none)).2.getD 0

def Chip.zeroAreas (l : List (Nat × Nat)) (c : Chip) : Chip :=
  l.foldl (fun c r => c.onMem fun m => { m with bytes := m.bytes.zero r.1 r.2 }) c

/-- The CMD core writes shared SRAM, binds mailbox channels 0 to 5 and takes packets (17 R448, 15 R417, 13 R375). -/
def Chip.initSram (channels : Nat) (c : Chip) : Chip :=
  let ends : List (Byte × Byte) := [(0x40, 0x01), (0x01, 0x40), (0x41, 0x01), (0x01, 0x41), (0x01, 0x02), (0x02, 0x01)]
  let bind := fun (i : Nat) (x : MbxCh) => match (ends.take channels)[i]? with
    | some e => { x with sender := e.1, receiver := e.2, valid := true }
    | none => x
  ((c.zeroAreas initAreas).onMbx fun m => { m with ch := m.ch.mapIdx bind }).onCmd fun d => { d with ready := true }

/-- Core and engine memories are written from the image that runs; what it holds, and where, is the firmware's (log 44). -/
def Chip.loadAreas (l : List (Nat × Nat)) (c : Chip) : Chip :=
  let n := c.fresh
  (l.foldl (fun c r => c.onMem fun m => { m with bytes := m.bytes.load n r.1 r.2 }) c).tick

/-- An engine memory is written whole: code and coefficients, zeros elsewhere (17 R448). -/
def Chip.initEngine (n : Nat) (c : Chip) : Chip := c.loadAreas [(0x20000000 + n * 0x40000, 0x20000000 + (n + 1) * 0x40000)]

/-! Resets (20 R515, R516; 21 R532) -/

/-- Everything returns to its reset value but what OTP and the flash keep with its verified marks (log 26), the pins, the
supplies' state and the boundary register. -/
def Chip.afterReset (held : Bool) (c : Chip) : Chip :=
  let b := c.boot
  { held := held, fresh := c.fresh,
    boot := {
      unitBase := b.unitBase, serviceDisable := b.serviceDisable, mgmtKey := b.mgmtKey, revoked := b.revoked,
      records := b.records, slots := b.slots,
      subsystem := b.subsystem, powerHeld := b.powerHeld, resetN := b.resetN, testEn := b.testEn, extest := b.extest, boundary := b.boundary } }

/-- The whole part is reset; `held` tells whether it stays in reset. -/
def State.resetPart (held : Bool) (s : State) : State := { s with ham := {}, chip := s.chip.afterReset held }

/-- The part resets itself and starts up again at once. -/
def restart (s : Hamper × Chip) : Hamper × Chip := ({}, { s.2.afterReset false with out := s.2.out })

end Sys2Proof.Machine
end

