-- ==== Sys2Proof/Machine/Startup.lean ====
section
/-! DEFINITION. From reset to audio: resets, enumeration, the start-up stages, temperature and boundary scan (19, 20, 21). -/

namespace Sys2Proof.Machine

/-! Resets (20 R515, R516, R524; 21 R532) -/

/-- RESET_N falls: the modulators are off, and the part is reset and stays so. -/
def execResetAssert (s : State) : Host.Outcome State Fault Refusal :=
  actRaw (fun s => (({ s with chip := s.chip.onBoot fun b => { b with resetN := false } } : State)).resetPart true) s

/-- The part leaves reset: RESET_N is high, and the supplies and the temperature permit it. A high TEST_EN holds it. -/
def execResetRelease (s : State) : Host.Outcome State Fault Refusal :=
  actRaw (fun s =>
    let c := (s.chip.onBoot fun b => { b with resetN := true }).begin
    if s.chip.held then (({ s with chip := c.onBoot fun b => { b with powerHeld := false } } : State)).resetPart c.boot.testEn
    else { s with chip := c }) s

/-- TEST_EN changes: high resets the part and permits EXTEST; its fall releases the part only while RESET_N is high and neither
the supplies nor the temperature hold it. -/
def execTestEnReset (high : Bool) (s : State) : Host.Outcome State Fault Refusal :=
  actRaw (fun s =>
    let c := s.chip.onBoot fun b => { b with testEn := high, extest := b.extest && high }
    if high then (({ s with chip := c } : State)).resetPart true
    else if s.chip.boot.testEn && c.boot.resetN && !c.boot.powerHeld then (({ s with chip := c } : State)).resetPart false
    else { s with chip := c.begin }) s

/-- The part is reset, and stays so until RESET_RELEASE tells that the supplies and the temperature permit it. -/
def State.powerReset (s : State) : State :=
  (({ s with chip := s.chip.onBoot fun b => { b with powerHeld := true } } : State)).resetPart true

/-- A monitored rail falls below its level: the outputs go low, and the part is reset until the rails have recovered. -/
def execBrownOut (_rail : Rail) (s : State) : Host.Outcome State Fault Refusal := actRaw State.powerReset s

/-- 125 degrees: the outputs go low, and the part is reset until it reads below 100 degrees. -/
def execThermalTrip (s : State) : Host.Outcome State Fault Refusal := actRaw State.powerReset s

/-- REF_TEMP, in 0.01 degrees, crosses a threshold (20 R524); each record once until it falls below 100 degrees (log 79). -/
def execTempThreshold (temp : Int) (s : State) : Host.Outcome State Fault Refusal :=
  act (fun c =>
    let hot := c.boot.hot
    let c := c.onRef fun r => { r with temp := temp }
    let set := fun n (c : Chip) => c.onBoot fun b => { b with hot := n }
    if temp < 10000 then if hot = 0 then c else (set 0 c).raise 0x0022 .note
    else
      let c := if 10500 ≤ temp ∧ hot = 0 then (set 1 c).raise 0x0020 .note else c
      if 11000 ≤ temp ∧ hot < 2 then (set 2 c).raise 0x0021 .fault else c) s

/-- The bits a boundary scan shifts out, and the boundary register after it (21 R532). EXTEST is BYPASS while TEST_EN is
low. The levels that SAMPLE captures, and the order of the cells, are free values (log 27). -/
def execBoundaryScan (ir : JtagIr) (shift : List Bool) (s : State) : Host.Outcome State Fault Refusal :=
  actRaw (fun s =>
    let c := s.chip.begin
    let n := shift.length
    let bypass := (false :: shift).take n
    let cells := (List.range n).map fun i => (Config.freeWord (c.fresh + i)).getLsbD 0
    let load := fun (ex : Bool) (c : Chip) =>
      ({ c with fresh := c.fresh + n }.onBoot fun b => { b with boundary := shift, extest := ex }).emit (.tdo cells)
    let plain := fun (bits : List Bool) (c : Chip) => (c.onBoot fun b => { b with extest := false }).emit (.tdo bits)
    { s with chip :=
      match ir with
      | .bypass => plain bypass c
      | .idcode => plain (((List.range 32).map fun i => Nat.testBit 0x10009B51 i) ++ shift |>.take n) c
      | .sample => load false c
      | .extest => if c.boot.testEn then load true c else plain bypass c }) s

/-! Enumeration (19 R486 to R488) -/

/-- PEG_IN has been low for 5 ms: the unit is the head. -/
def execHeadPeg (t : Nat) (s : State) : Host.Outcome State Fault Refusal :=
  act (fun c =>
    let c := c.advance t
    if c.boot.peg = 0 ∧ 5 * msClk ≤ c.clk then c.onBoot fun b => { b with peg := 1, tokenIn := true } else c) s

/-- A code of enumeration: while the CMD core does not run yet it waits for it (19 R508). -/
def Chip.early (code : Nat) (cls : Cls) (c : Chip) : Chip :=
  match c.boot.stage with
  | .rom | .load | .halt => c.onBoot fun b => { b with notes := b.notes ++ [(code, cls)] }
  | _ => c.raise code cls

/-- A token on PEG_IN. -/
def execPegTokenRx (first second : Byte) (t : Nat) (s : State) : Host.Outcome State Fault Refusal :=
  act (fun c =>
    let c := c.advance t
    let P := first.toNat
    if second ≠ first ^^^ 0xFF then c
    else
      let c := c.onBoot fun b => { b with tokenIn := true }
      let bad := decide (P = 0) || decide (63 ≤ P)
      let c := if bad then c.early 0x0011 .fault else c
      if c.boot.peg = 0 then if bad then c else c.onBoot fun b => { b with peg := BitVec.ofNat 6 P }
      else if c.boot.peg.toNat ≠ P ∧ !c.boot.differs then (c.onBoot fun b => { b with differs := true }).early 0x0013 .note
      else c) s

/-- The token with P + 1: first within 1 ms of taking the peg, then every 10 ms. -/
def execPegTokenSend (t : Nat) (s : State) : Host.Outcome State Fault Refusal :=
  act (fun c =>
    let c := c.advance t
    let due := match c.boot.tokenOut with
      | none => true
      | some q => decide (q + 10 * msClk ≤ c.clk)
    if c.boot.peg = 0 ∨ c.boot.peg = 62 ∨ !due then c
    else
      let P := BitVec.ofNat 8 (c.boot.peg.toNat + 1)
      (c.onBoot fun b => { b with tokenOut := some c.clk }).emit (.token P (P ^^^ 0xFF))) s

/-! Stages (19 R491 to R497) -/

/-- HALT (19 R505): the ROM writes shared SRAM itself and serves the image commands. -/
def Chip.romHalt (cause : Nat) (c : Chip) : Chip :=
  (((c.enterStage .halt).onBoot fun b => { b with haltCause := cause }).initSram 4)

/-- Boots slot `i`, the one selected, or else the other one, where it passes (19 R502). -/
def Chip.bootSlot (i selected : Nat) (trial : Bool) (c : Chip) : Chip :=
  let a := c.verifySlot i
  let go := fun (j : Nat) (trial : Bool) (c : Chip) =>
    let back := j ≠ selected
    (c.enterStage .load).onBoot fun b => { b with
      slot := j, trial := trial, fallback := back, notes := if back then b.notes ++ [(0x0010, .note)] else b.notes }
  if a.1 = 0 then go i trial a.2.2
  else
    let z := a.2.2.verifySlot (1 - i)
    if z.1 = 0 then go (1 - i) false z.2.2 else z.2.2.romHalt 1

/-- With no record no slot was selected, so none is a fallback. -/
def Chip.unselected (c : Chip) : Chip :=
  c.onBoot fun b => { b with fallback := false, notes := b.notes.filter fun q => q.1 ≠ 0x0010 }

/-- The boot ROM (19 R499, R502). What the flash holds at the first boot comes with the command: `records` are the copies of
the boot record. -/
def execRomBoot (flashOk : Bool) (records : List (List Word)) (images : List (Option ImageHead)) (s : State) :
    Host.Outcome State Fault Refusal :=
  act (fun c =>
    if c.boot.stage ≠ .rom then c
    else
      let c := { c with clock := { c.clock with coreLock := true, modLock := true, mediaOk := true } }
      if !flashOk then c.romHalt 2
      else
        let c := c.onBoot fun b => { b.flashed records with
          slots := b.slots.mapIdx fun i z => if z.factory then { z with head := images.getD i none } else z }
        match c.boot.record with
        | none => (c.onBoot fun b => { b with notes := b.notes ++ [(0x0018, .fault)] }).bootSlot 0 0 false |>.unselected
        | some r =>
          if r.trial && !r.tried then (c.writeRecord fun q => { q with tried := true }).bootSlot r.select r.select true
          else if r.trial then (c.writeRecord fun q => { q with select := r.prev, trial := false }).bootSlot r.prev r.select false
          else c.bootSlot r.select r.select false) s

/-- The image loader writes the core and engine memories and starts the cores (17 R448); the CMD core then raises what
stage ROM met (19 R508). -/
def execImageLoad (s : State) : Host.Outcome State Fault Refusal :=
  act (fun c =>
    if c.boot.stage ≠ .load then c
    else
      let c := c.loadAreas [(0x10000000, 0x10200000), (0x11000000, 0x11080000)]
      let c := (List.range 24).foldl (fun c n => c.initEngine n) c
      let c := (c.enterStage .sram).onSys fun s => { s with engPwr := engPowered c.prof, engWas := 0, engAt := c.clk }
      let c := c.boot.notes.foldl (fun c q => c.raise q.1 q.2) c
      (c.onBoot fun b => { b with notes := [] }).onMem fun m => { m with bgRun := true }) s

/-- The CMD core writes shared SRAM; the command transports accept packets from then on. -/
def execSramInit (s : State) : Host.Outcome State Fault Refusal :=
  act (fun c => if c.boot.stage ≠ .sram then c else (c.initSram 6).enterStage .line) s

/-- Stage REF: REF block, LINK ports and DROP; block ticks start at the next block boundary (19 R491, R493). -/
def execStageRefEntry (t : Nat) (s : State) : Host.Outcome State Fault Refusal :=
  act (fun c =>
    let c := c.advance t
    if c.boot.stage ≠ .line ∨ c.boot.peg = 0 then c
    else
      let c := (c.enterStage .ref).onRef fun r => { r with enabled := true }
      let c := if c.sysIt 0x38 = 1 then c.linkEnable 0 true else c
      let c := if c.sysIt 0x39 = 1 then c.linkEnable 1 true else c
      let c := c.dropEnable (c.dropIt 1 = 1)
      let c := (c.setHash c.sys.now.items).onSys fun s => { s with reload := true }
      ((c.ptpIdle 0).ptpIdle 1).ptpIdle 2) s

/-- Stage REF ends: the DPLL is LOCKED, or 60 s have passed. -/
def execRefWaitEnd (t : Nat) (s : State) : Host.Outcome State Fault Refusal :=
  act (fun c =>
    let c := c.advance t
    if c.boot.stage ≠ .ref then c
    else if c.ref.st = .locked then c.enterStage .fill
    else if c.boot.stageAt + 60 * secClk ≤ c.clk then
      ((c.enterStage .fill).onBoot fun b => { b with refWaitExpired := true }).raise 0x0014 .note
    else c) s

/-- Every sample of the delay store is written with value 0 and tag 0. -/
def execDelayStoreInit (s : State) : Host.Outcome State Fault Refusal :=
  act (fun c => if c.boot.stage ≠ .fill then c else (c.zeroAreas [(0x30000000, 0x34000000)]).enterStage .twin) s

/-- Stage TWIN ends: a role is decided, or 10 s have passed; audio is enabled at the next tick. -/
def execTwinStageEnd (t : Nat) (s : State) : Host.Outcome State Fault Refusal :=
  act (fun c =>
    let c := c.advance t
    if c.boot.stage ≠ .twin ∨ c.boot.audioDue then c
    else if c.twin.role ≠ .negotiating then c.onBoot fun b => { b with audioDue := true }
    else if c.boot.stageAt + 10 * secClk ≤ c.clk then (c.onBoot fun b => { b with audioDue := true }).raise 0x0015 .note
    else c) s

/-- A trial image is committed, and the key slots it names are revoked (19 R503, R504). -/
def Chip.commit (c : Chip) : Chip :=
  if !c.boot.trial then c
  else
    let c := ((c.writeRecord fun r => { r with trial := false }).onBoot fun b => { b with trial := false }).raise 0x0016 .note
    let named := match c.running with | some h => h.revoke | none => 0
    let fresh := indices 4 fun k => named.getLsbD k && !c.boot.revoked.getLsbD k
    let c := c.onBoot fun b => { b with
      revoked := b.revoked ||| named,
      slots := b.slots.map fun z => match z.head with
        | some h => { z with verified := z.verified && !named.getLsbD h.keySlot.val }
        | none => z }
    fresh.foldl (fun c _ => c.raise 0x0017 .note) c

/-- Tick E: audio is enabled for the first time (19 R496, 15 R418). -/
def Chip.audioStart (E : Nat) (c : Chip) : Chip :=
  let items := c.sys.now.items
  let c := (c.enterStage .audio).onBoot fun b => { b with audioDue := false, audioBlk := E }
  let c := { c with audioOnce := true }
  let c := c.onSys fun s => { s with audioEn := true, silentUntil := E + 2 }
  let c := (c.clearGraph items (E + 3) 0).onGraph fun g => { g with run := !c.err.safe }
  let c := if c.flow.unheard && c.flow.nextClose = E + 1 then (c.presentAll items E).onFlow fun u => { u with unheard := false } else c
  let held := c.pow.clockHeld
  let c := c.onMods fun m x =>
    if itemIn items (item 0x0B m 1) ≠ 1 ∨ x.st ≠ .off then x else if held then { x with stored := some true } else x.turnOn m c
  let c := c.sapLand [] items E
  (c.onMbx fun m => { m with locked := true }).commit

/-- Tick E on its own, ahead of the rest of the tick: E follows from media time (01 R19). -/
def execAudioEnable (t : Nat) (s : State) : Host.Outcome State Fault Refusal :=
  act (fun c =>
    let c := c.advance t
    if c.boot.audioDue && c.boot.stage = .twin then c.audioStart (blockAt c.prof c.epoch c.nowNs) else c) s

/-- STAGE has not reached LINE within 2 s of the release of RESET_N (19 R497). HALT is no start-up that hangs. -/
def execStartupWatchdog (t : Nat) (s : State) : Host.Outcome State Fault Refusal :=
  actHam (fun p =>
    let c := p.2.advance t
    if (c.boot.stage = .rom ∨ c.boot.stage = .load ∨ c.boot.stage = .sram) ∧ 2 * secClk ≤ c.clk then restart (p.1, c)
    else (p.1, c)) s

/-- The background erase of a slot goes on (14 R399): 64 KiB sectors, 128 in a slot. -/
def execBackgroundErase (slot : Fin 2) (sectors : Nat) (s : State) : Host.Outcome State Fault Refusal :=
  act (fun c => c.onSlot slot.val fun z => if z.factory then z else { z with erased := min 128 (z.erased + sectors) }) s

end Sys2Proof.Machine
end

