-- ==== Sys2Proof/Machine/Bus.lean ====
section
/-! DEFINITION. The bus matrix (16): refusals and their log, locked sequences, semaphores, service mode; and the
acknowledgement of error records with the effects that other blocks attach to it (18 R469, R470). -/

namespace Sys2Proof.Machine

/-! The SPI status byte (15 R410, R412) -/

def Chip.streamFull (c : Chip) : Bool := 32 ≤ c.cmd.stream.length

/-- Replies of the SPI target that wait or are owed (15 R412). -/
def Chip.spiLoad (c : Chip) : Nat := c.host.spiReplies.length + c.host.spiOwed

/-- The transports take packets: from stage LINE, or in HALT (19 R492, R505). -/
def Chip.takesPackets (c : Chip) : Bool := 4 ≤ c.boot.stage.code

/-- READY: a CMD_PUT would be accepted. -/
def Chip.spiReady (c : Chip) : Bool := c.takesPackets && !c.streamFull && c.spiLoad < 4

/-- The status byte of a transaction. -/
def Chip.spiStatusByte (c : Chip) : Byte :=
  BitVec.ofNat 8 (0xA0 + 8 * b2n c.host.spiErr + 4 * b2n c.spiIrq + 2 * b2n (!c.host.spiReplies.isEmpty) + b2n c.spiReady)

/-- A transaction ends, with or without ERR. -/
def Chip.spiClose (op : Byte) (err : Bool) (c : Chip) : Chip :=
  let c := c.onHost fun h => { h with spiErr := err }
  if err then (c.onHost fun h => { h with spiErrors := satInc 0xFFFF h.spiErrors, spiOpcode := op }).raiseFirst 0x0511 .note else c

/-- A word that failed. -/
def Chip.spiFailAt (a : Nat) (c : Chip) : Chip := c.onHost fun h => { h with spiErrAddr := lo32 a }

/-! Refusals (16 R437, R438) -/

/-- SIZE of an access of n bytes. -/
def sizeCode (n : Nat) : Nat := if n ≤ 1 then 0 else if n = 2 then 1 else if n ≤ 4 then 2 else 3

/-- A refused access: logged, and answered with an error response. -/
def Chip.refuse (master : Byte) (write : Bool) (size addr cause : Nat) (c : Chip) : Chip :=
  let info := pack [(0, 8, master.toNat), (8, 1, b2n write), (9, 2, sizeCode size), (11, 5, targetIndex addr), (16, 3, cause)]
  let c := c.onBus fun b => { b with
    errCount := b.errCount + 1, errSeen := true, lastAddr := lo32 addr, lastInfo := info,
    firstAddr := if b.firstInfo = 0 then lo32 addr else b.firstAddr,
    firstInfo := if b.firstInfo = 0 then info else b.firstInfo }
  (c.raiseFirst 0x0101 .note).errorResponse master addr

/-- Clears the first-error fields (18 R470). -/
def Chip.rearmBus (c : Chip) : Chip := c.onBus fun b => { b with firstAddr := 0, firstInfo := 0 }
def Chip.rearmMem (c : Chip) : Chip := c.onMem fun m => { m with firstAddr := 0, firstInfo := 0, firstRec := none }

/-! Who may access what (16 R430, R432, R435, R436) -/

/-- In service mode for the hosts. -/
def Chip.service (c : Chip) : Bool := c.bus.service ≠ 0

/-- The cause that refuses an access of `n` bytes to a memory; none permits it. -/
def Chip.memCause (master : Byte) (write : Bool) (addr n : Nat) (c : Chip) : Option Nat :=
  let t := targetIndex addr
  let last := targetIndex (addr + (n - 1))
  if t = 30 ∨ last = 30 then some 1
  else if t ≠ last then some 2
  else if isCore master then
    if t = 0 ∧ write then some 2
    else if 3 ≤ t ∧ t < 27 ∧ !c.powered.getLsbD (t - 3) then some 5 else none
  else if isEngine master ∨ master = 0x33 then
    if t < 3 then some 2
    else if t < 27 ∧ !c.powered.getLsbD (t - 3) then some 5 else none
  else if isDma master then if t = 28 then none else some 2
  else if isHost master then
    if t = 27 then if write ∧ !c.service then some 4 else none
    else if t = 28 then
      if write ∧ !(List.range n).all (fun i => hostOwned (addr + i)) then some 4 else none
    else some 2
  else some 2

/-- CSRs that a host may write outside service mode (16 R435), by address. -/
def hostCsr (a : Nat) : Bool :=
  (0x50040000 ≤ a && a < 0x50050000) ||
  a = 0x50050000 || a = 0x50050014 || a = 0x50050028 || a = 0x50050040 || a = 0x50050048 || a = 0x5005004C ||
  (0x50051000 ≤ a && a < 0x50051200) ||
  a = 0x50030000 || a = 0x50030030 || a = 0x50030034 ||
  (0x50010100 ≤ a && a < 0x50010180) || a = 0x50010004

/-- CSRs that an engine may write (16 R432). -/
def engineCsr (a : Nat) : Bool :=
  (0x50040000 ≤ a && a < 0x50050000) || (0x50100000 ≤ a && a < 0x50110000) || (0x50010100 ≤ a && a < 0x50010180)

/-- The cause that refuses a CSR access of one word or less by this master. -/
def Chip.csrCause (master : Byte) (write : Bool) (addr n : Nat) (c : Chip) : Option Nat :=
  if isDma master then some 2
  else if n ≠ 4 ∨ addr % 4 ≠ 0 then some 3
  else if isCore master then none
  else if isEngine master then if write ∧ !engineCsr addr then some 2 else none
  else if isHost master then
    if !write then none
    else if addr = 0x50010204 then some 4
    else if c.service ∨ hostCsr addr then none else some 4
  else some 2

/-- The cause that refuses an access. -/
def Chip.busCause (master : Byte) (write : Bool) (addr n : Nat) (c : Chip) : Option Nat :=
  if targetIndex addr = 29 then c.csrCause master write addr n else c.memCause master write addr n

/-! Semaphores (16 R441, R442) -/

def Chip.owner (c : Chip) (n : Nat) : Byte := c.bus.owners.getD n 0

/-- A read of BUS_LOCK_n by a master that may read CSRs. -/
def Chip.lockRead (master : Byte) (n : Nat) (c : Chip) : Word × Chip :=
  let o := c.owner n
  (BitVec.ofNat 32 o.toNat, if o = 0 then c.onBus fun b => { b with owners := b.owners.set n master } else c)

/-- A write of BUS_LOCK_n; the flag tells whether it was taken. -/
def Chip.lockWrite (master : Byte) (n : Nat) (value : Word) (c : Chip) : Bool × Chip :=
  let o := c.owner n
  let v := value.toNat % 256
  if o = master ∧ v = 0 then (true, c.onBus fun b => { b with owners := b.owners.set n 0 })
  else
    let c := c.refuse master true 4 (0x50010100 + 4 * n) 7
    let c := c.onBus fun b => { b with
      semSeen := true, semMaster := master, semLock := BitVec.ofNat 5 n, semCause := if o = master then 2 else 1,
      semCount := satInc 0xFFFF b.semCount }
    (false, c.raise 0x0104 .note)

/-- Locks of some owners are released. -/
def Chip.freeLocks (p : Byte → Bool) (c : Chip) : Chip :=
  c.onBus fun b => { b with owners := b.owners.map fun o => if p o then 0 else o }

/-- A write of BUS_LOCK_FORCE by a core. -/
def Chip.lockForce (value : Word) (c : Chip) : Chip :=
  c.onBus fun b => { b with owners := b.owners.mapIdx fun n o => if value.getLsbD n then 0 else o }

/-! Service mode (16 R436) -/

def Chip.leaveService (c : Chip) : Chip :=
  if c.service then (c.onBus fun b => { b with service := 0, armed := none }).raise 0x0111 .note
  else c.onBus fun b => { b with armed := none }

/-- A write of BUS_SERVICE by a master that may write CSRs; the flag tells whether it was taken. Only both keys in turn from
one master, with no write of any other between them, enter service mode. -/
def Chip.serviceWrite (master : Byte) (key : Nat) (c : Chip) : Bool × Chip :=
  if key = 0 then (true, c.leaveService)
  else if c.boot.serviceDisable ∧ (key = 0x5E7A ∨ key = 0xA7E5) then (false, c.refuse master true 4 0x50010004 4)
  else if key = 0x5E7A then (true, c.onBus fun b => { b with armed := some master })
  else if key = 0xA7E5 ∧ c.bus.armed = some master then
    (true, (c.onBus fun b => { b with service := master, armed := none }).raise 0x0110 .note)
  else (true, c.onBus fun b => { b with armed := none })

/-! Acknowledgement (18 R469) -/

/-- Acknowledges the queued and latched records that `p` names: sinks under LATCH, and the first-error fields of the BUS
and MEM blocks (02 R60, 16 R438, 17 R459). -/
def Chip.ackWhere (p : Rec → Bool) (c : Chip) : Chip :=
  let hit := (c.err.queue ++ c.err.first.toList).filter p
  let c := c.onErr fun e => { e with
    queue := e.queue.filter fun r => !p r, first := match e.first with | some r => if p r then none else some r | none => none }
  hit.foldl (fun c r =>
    let c := if r.code = 0x1021 ∨ r.code = 0x0E21 then c.releaseSinks r.code (some r.blk) else c
    let c := if r.code = 0x0101 then c.rearmBus else c
    if c.mem.firstRec = some (r.code, r.blk) ∧ c.mem.firstAddr = lo32 r.detail then c.rearmMem else c) c

/-- The record that the last read of ERR_HEAD_CODE latched is acknowledged, if it is still queued. -/
def Chip.headAck (c : Chip) : Chip :=
  match c.err.headSeq with
  | none => c
  | some n => if c.err.queue.any fun r => r.seq = n then c.ackWhere fun r => r.seq = n else c

/-- OVERFLOW_SEEN is cleared, and LOST_HOLD with it (18 R467). -/
def Chip.clearOverflow (c : Chip) : Chip := c.onErr fun e => { e with overflowSeen := false, lostHold := false }

/-! The commands -/

/-- What a posted write or a bus write of a word reports; one by the SPI host is a WRITE transaction of that word. -/
def Chip.reportWrite (master : Byte) (addr : Nat) (status : Byte) (ok : Bool) (c : Chip) : Chip :=
  if master = 0x40 then c.emit (.posted ok)
  else if master = 0x41 then
    let c := if ok then c else c.spiFailAt addr
    ((c.onHost fun h => { h with spiLast := status }).spiClose 0x02 (!ok)).emit (.spi [status])
  else c

/-- Runs a CSR write of one word that has a row of its own, where the master may make it. -/
def csrStep (master : Byte) (addr : Nat) (f : Chip → Bool × Chip) (s : State) : Host.Outcome State Fault Refusal :=
  act (fun c =>
    match c.csrCause master true addr 4 with
    | some k => (c.refuse master true 4 addr k).reportWrite master addr c.spiStatusByte false
    | none => let r := f c; r.2.reportWrite master addr c.spiStatusByte r.1) s

def execBusLockRead (master : Byte) (n : Fin 32) (s : State) : Host.Outcome State Fault Refusal :=
  act (fun c =>
    match c.csrCause master false (0x50010100 + 4 * n.val) 4 with
    | some k => (c.refuse master false 4 (0x50010100 + 4 * n.val) k).emit (.busRead (refusedRead master))
    | none => let r := c.lockRead master n.val; r.2.emit (.busRead (some r.1))) s

def execBusLockWrite (master : Byte) (n : Fin 32) (value : Word) (s : State) : Host.Outcome State Fault Refusal :=
  csrStep master (0x50010100 + 4 * n.val) (Chip.lockWrite master n.val value) s

/-- Only the cores may force a release. -/
def execBusLockForce (master : Byte) (value : Word) (s : State) : Host.Outcome State Fault Refusal :=
  csrStep master 0x50010204 (fun c => (true, c.lockForce value)) s

def execBusService (master : Byte) (key : BitVec 16) (s : State) : Host.Outcome State Fault Refusal :=
  csrStep master 0x50010004 (Chip.serviceWrite master key.toNat) s

/-- The accesses of a locked sequence lie in its one target. -/
def lockedIn (target : Nat) (rest : List LockAcc) : Bool :=
  rest.all fun a => targetIndex a.addr.toNat = target && targetIndex (a.addr.toNat + (a.size - 1)) = target

/-- A locked sequence is ended 16 CORE clocks after its first grant (16 R439, R440). `rest` lists its remaining accesses;
one to the CSR target is refused with NO_REACH from the start. What is no sequence of 1 to 4 accesses to one target does
nothing. -/
def execLockTimeout (master : Byte) (target : BitVec 5) (rest : List LockAcc) (s : State) :
    Host.Outcome State Fault Refusal :=
  act (fun c =>
    let refuse := fun cause (c : Chip) => rest.foldl (fun c a => c.refuse master a.write a.size a.addr.toNat cause) c
    if !isCore master ∧ !isEngine master then c
    else if 4 < rest.length ∨ !lockedIn target.toNat rest then c
    else if target.toNat = 29 then refuse 2 c
    else if target.toNat = 0 ∨ 28 < target.toNat then c
    else
      let c := c.onBus fun b => { b with timeouts := b.timeouts + 1, timeoutSeen := true, lockSeq := (0, 0) }
      refuse 6 (c.raise 0x0103 .fault)) s

def execErrHeadAck (master : Byte) (value : Word) (s : State) : Host.Outcome State Fault Refusal :=
  csrStep master 0x50030030 (fun c => (true, if value.getLsbD 0 then c.headAck else c)) s

def execErrRearmBus (master : Byte) (s : State) : Host.Outcome State Fault Refusal :=
  csrStep master 0x50030034 (fun c => (true, c.rearmBus)) s

def execErrRearmMem (master : Byte) (s : State) : Host.Outcome State Fault Refusal :=
  csrStep master 0x50030034 (fun c => (true, c.rearmMem)) s

def execOverflowSeenClear (master : Byte) (s : State) : Host.Outcome State Fault Refusal :=
  csrStep master 0x50030000 (fun c => (true, c.clearOverflow)) s

end Sys2Proof.Machine
end

