-- ==== Sys2Proof/Machine/Host.lean ====
section
/-! DEFINITION. The host's ways in and out (15): the command rings, interrupts, the PCIe link, mailboxes, doorbells and
cross-wait; packets that enter the command stream, and replies on the transport of their request (13 R354, R360). -/

namespace Sys2Proof.Machine

/-! The command stream (13 R355, 15 R408, R412) -/

/-- A packet that found the stream full was held back, or is answered BUSY. -/
def Chip.countFull (c : Chip) : Chip := c.onCmd fun d => { d with full := d.full + 1 }

/-- PCIe packets in the stream, replies owed to them, and replies the host has not consumed (15 R408). -/
def Chip.pcieLoad (c : Chip) : Nat :=
  (c.cmd.stream.filter fun p => p.via = .pcie ∧ !p.forwarded ∧ p.generation = c.host.generation).length + c.host.owed +
    ringDiff c.host.rplProd c.host.rplCons

/-! Doorbells (15 R417, R421) -/

/-- The doorbell receivers by master. -/
def bellOf (m : Byte) : Option Nat :=
  if m = 0x01 then some 0 else if m = 0x02 then some 1
  else if 0x10 ≤ m.toNat ∧ m.toNat < 0x28 then some (2 + (m.toNat - 0x10))
  else if m = 0x40 then some 26 else if m = 0x41 then some 27 else none

def Chip.ring (i : Nat) (bits : Word) (c : Chip) : Chip := c.onMbx fun b => { b with bells := lmod b.bells i (· ||| bits) }

def Chip.ringMaster (m : Byte) (bit : Nat) (c : Chip) : Chip :=
  match bellOf m with
  | some i => c.ring i (BitVec.ofNat 32 (2 ^ bit))
  | none => c

/-! Mailboxes (15 R419, R420, R422) -/

def Chip.mbxCh (c : Chip) (k : Nat) : MbxCh := c.mbx.ch.getD k {}
def Chip.onMbxCh (k : Nat) (f : MbxCh → MbxCh) (c : Chip) : Chip := c.onMbx fun b => { b with ch := lmod b.ch k f }

/-- A refusal of the MBX block (15 R419): an error response, the log, and the NOTE at the first in a window. -/
def Chip.mbxRefuse (master : Byte) (k cause addr : Nat) (c : Chip) : Bool × Chip :=
  let c := c.refuse master true 4 addr 4
  (false, (c.onMbx fun b => { b with
    accessErr := true, logMaster := master, logChannel := BitVec.ofNat 4 k, logCause := BitVec.ofNat 3 cause }).raiseFirst 0x0401 .note)

/-- Channels k and d form a pair (15 R422). -/
def Chip.mbxPair (k d : Nat) (c : Chip) : Bool :=
  let x := c.mbxCh k
  let y := c.mbxCh d
  k ≠ d && x.valid && y.valid && x.sender = y.receiver && x.receiver = y.sender

/-- A reported pair stands while the GO of both its channels is 1, and the CROSS bits with it. -/
def Chip.crossSettle (c : Chip) : Chip :=
  let told := c.mbx.told.filter fun q => c.mbxPair q.1 q.2 && (c.mbxCh q.1).go && (c.mbxCh q.2).go
  c.onMbx fun b => { b with
    told := told, cross := BitVec.ofNat 16 (packBits 16 fun k => told.any fun q => q.1 = k || q.2 = k) }

/-- The words a packet needs, as its first message tells; one that names more than 60 parameter words is taken as it came. -/
def packetNeeds (part : List Word) : Nat :=
  let n := field (part.getD 0 0).toNat 24 8
  if 60 < n then part.length else n + 4

/-- The command packet that channel k has collected enters the stream, if it is whole and finds room. -/
def Chip.mbxDeliver (k : Nat) (c : Chip) : Chip :=
  let x := c.mbxCh k
  if x.part.isEmpty || x.part.length < packetNeeds x.part || c.streamFull then c
  else
    let words := x.part.take (packetNeeds x.part)
    let p : Pkt := { via := .mbx (Fin.ofNat 16 k), words := words, bytes := 4 * (field (words.getD 0 0).toNat 24 8 + 4) }
    (c.onMbxCh k fun x => { x with part := [] }).enterStream p

/-- The channel whose whole packet has waited longest for the stream. -/
def Chip.mbxWaits (c : Chip) : Option Nat :=
  let held := indices 16 fun k => let x := c.mbxCh k; !x.part.isEmpty && decide (packetNeeds x.part ≤ x.part.length)
  held.foldl (fun b k => match b with
    | none => some k
    | some q => if (c.mbxCh k).goAt < (c.mbxCh q).goAt then some k else some q) none

/-- Packets that the full stream held back enter it in the order in which they arrived (13 R354). -/
def Chip.mbxPump (c : Chip) : Chip :=
  (List.range 16).foldl (fun c _ => match c.mbxWaits with | some k => c.mbxDeliver k | none => c) c

/-- GO sets on channel k with n registers; the CMD core collects a packet from a host's message. In HALT the ROM serves the
channels that a reset binds alone (19 R505). -/
def Chip.mbxSend (k n : Nat) (c : Chip) : Chip :=
  let x := c.mbxCh k
  let c := (c.onMbxCh k fun x => { x with len := BitVec.ofNat 5 n, go := true, goAt := c.clk }).ringMaster x.receiver k
  if x.receiver = 0x01 ∧ isHost x.sender ∧ c.takesPackets ∧ (c.boot.stage ≠ .halt ∨ k < 4) then
    let c := c.onMbxCh k fun x => { x with part := x.part ++ x.msg.take n }
    let y := c.mbxCh k
    if packetNeeds y.part ≤ y.part.length ∧ c.streamFull then c.countFull else c.mbxDeliver k
  else c

/-- The next message of a reply, or the first of the next reply, goes out when the channel is free (15 R420); a trapped CMD
core sends none (18 R477). -/
def Chip.mbxNext (k : Nat) (c : Chip) : Chip :=
  let x := c.mbxCh k
  if x.go || c.err.traps 0x01 then c
  else
    let send := fun (ws : List Word) (more : List (List Word)) (c : Chip) =>
      let now := ws.take 16
      (c.onMbxCh k fun x => { x with
        msg := now ++ x.msg.drop now.length, rest := ws.drop 16, waiting := more, reply := true }).mbxSend k (max 8 now.length)
    match x.rest, x.waiting with
    | [], [] => c.onMbxCh k fun x => { x with reply := false }
    | [], ws :: more => send ws more c
    | ws, more => send ws more c

/-- GO clears on channel k. -/
def Chip.mbxEnd (k : Nat) (c : Chip) : Chip := ((c.onMbxCh k fun x => { x with go := false }).crossSettle).mbxNext k

/-- The lowest channel that carries replies to a master. -/
def Chip.replyChannel (m : Byte) (c : Chip) : Option Nat :=
  (indices 16 fun k => (c.mbxCh k).valid && (c.mbxCh k).sender = 0x01 && (c.mbxCh k).receiver = m).head?

/-! Replies (13 R360, 15 R405, R408, R412, R420; 06 R180) -/

/-- The session of a management request. -/
def Chip.sessionOf (id : BitVec 16) (c : Chip) : Option Session := c.flow.sessions.find? fun z => z.id = id

/-- Sends a reply on the transport of its request. One to a PCIe packet from before a PCIe reset is discarded. -/
def Chip.sendReply (via : Transport) (generation : Nat) (session : BitVec 16) (words : List Word) (c : Chip) : Chip :=
  match via with
  | .pcie =>
    if generation ≠ c.host.generation then c
    else
      let a := 0x407E4000 + c.host.rplProd.toNat % 64 * 0x100
      ((c.putWords a words).onHost fun h => { h with rplProd := h.rplProd + 1, owed := h.owed - 1 }).emit (.reply via words)
  | .spi =>
    (c.onHost fun h => { h with spiReplies := h.spiReplies ++ [words], spiOwed := h.spiOwed - 1 }).emit (.reply via words)
  | .mbx k =>
    match c.replyChannel (c.mbxCh k.val).sender with
    | some d => ((c.onMbxCh d fun x => { x with waiting := x.waiting ++ [words] }).mbxNext d).emit (.reply via words)
    | none => c
  | _ =>
    match viaPort via, c.sessionOf session with
    | some m, some z =>
      let bs := c.mgmtFrame c.flow.replyTo session.toNat z.own words (some z.key)
      ((c.onFlow fun u => { u with sessions := u.sessions.map fun y => if y.id = session then { y with own := y.own + 1 } else y }).sendMgmt
        m bs).emit (.reply via words)
    | some m, none =>
      if session = 0 then
        (c.sendMgmt m (c.mgmtFrame c.flow.replyTo 0 0 words (some c.boot.mgmtKey))).emit (.reply via words)
      else c
    | none, _ => c

/-! The PCIe rings (15 R406 to R409) -/

/-- Who may write what R424 and R425 give one master alone: the CMD core may write any CSR at any time (16 R434), and in service
mode the hosts may (16 R436, log 88). -/
def Chip.ownsAll (master : Byte) (c : Chip) : Bool := master = 0x01 || (isHost master && c.service)

/-- A write of a ring index by the host; the flag of an ignored index is set and the NOTE raised. -/
def Chip.reqProdWrite (master : Byte) (v : BitVec 16) (c : Chip) : Bool × Chip :=
  if master ≠ 0x40 ∧ !c.ownsAll master then (false, c.refuse master true 4 0x50050014 4)
  else if 64 < ringDiff v c.host.reqCons ∨ 64 < ringDiff v c.host.reqProd then
    (true, (c.onHost fun h => { h with reqIdxErr := true }).raise 0x0510 .note)
  else (true, c.onHost fun h => { h with reqProd := v })

def Chip.rplConsWrite (master : Byte) (v : BitVec 16) (c : Chip) : Bool × Chip :=
  if master ≠ 0x40 ∧ !c.ownsAll master then (false, c.refuse master true 4 0x50050028 4)
  else if ringDiff c.host.rplProd c.host.rplCons < ringDiff v c.host.rplCons then
    (true, (c.onHost fun h => { h with rplIdxErr := true }).raise 0x0510 .note)
  else (true, c.onHost fun h => { h with rplCons := v })

/-- A core traps on a word of its own memory; which word is a free value. -/
def Chip.coreFails (core : Fin 2) (c : Chip) : Chip :=
  let id : Byte := if core.val = 0 then 0x01 else 0x02
  if c.err.traps id then c
  else
    let n := (Config.freeWord c.fresh).toNat
    let a := if core.val = 0 then 0x10000000 + n % 0x40000 * 8 else 0x11000000 + n % 0x10000 * 8
    (c.tick.strike [{ addr := a, uncorrectable := true }]).coreTrap id a

/-- The packet at the head of the request ring enters the stream, unless the CMD core, which reads it, is trapped. -/
def Chip.ringEntry (c : Chip) : Chip :=
  let h := c.host
  if h.reqProd = h.reqCons ∨ c.sys.xqSilent.getLsbD 17 ∨ !c.takesPackets ∨ c.err.traps 0x01 ∨ 64 ≤ c.pcieLoad then c
  else if c.streamFull then
    if h.reqHeld then c else (c.onHost fun h => { h with reqHeld := true }).countFull
  else
    let a := 0x407E0000 + h.reqCons.toNat % 64 * 0x100
    let ws := eccWords a 256
    let c := c.correct 0x01 (ws.take 1)
    let len := 4 * ((c.mem.bytes.byte (a + 3)).toNat + 4)
    let used := ws.take ((min len 256 + 7) / 8)
    let c := c.correct 0x01 used
    match c.badWord used with
    | some w => c.coreTrap 0x01 w
    | none =>
      let words := bytesWords (c.mem.bytes.bytes a (min len 256))
      let p : Pkt := { via := .pcie, words := words, bytes := len, generation := h.generation }
      ((c.onHost fun h => { h with reqCons := h.reqCons + 1, reqHeld := false }).enterStream p).pulse 1

def execHostReqProdWrite (master : Byte) (value : BitVec 16) (s : State) : Host.Outcome State Fault Refusal :=
  csrStep master 0x50050014 (Chip.reqProdWrite master value) s

def execRequestRingEntry (t : Nat) (s : State) : Host.Outcome State Fault Refusal := act (fun c => (c.advance t).ringEntry) s

def execHostRplConsWrite (master : Byte) (value : BitVec 16) (s : State) : Host.Outcome State Fault Refusal :=
  csrStep master 0x50050028 (Chip.rplConsWrite master value) s

/-! Interrupts (15 R413, R415) -/

/-- W1C of HOST_IRQ_PEND; a vector whose PEND was cleared may send a message again. -/
def Chip.irqClear (v : Word) (c : Chip) : Chip :=
  c.onHost fun h => { h with pend := h.pend &&& ~~~v, msixSent := (h.msixSent.1 &&& ~~~v, h.msixSent.2 &&& ~~~v) }

def execHostIrqPendClear (master : Byte) (value : Word) (s : State) : Host.Outcome State Fault Refusal :=
  csrStep master 0x50050040 (fun c => (true, c.irqClear value)) s

/-- A vector, or the function, is unmasked; a message that PEND calls for goes out as the command settles. -/
def execMsixUnmask (vec : Option (Fin 32)) (s : State) : Host.Outcome State Fault Refusal :=
  act (fun c => c.onHost fun h => match vec with
    | some v => { h with msix := lmod h.msix v.val fun e => e.set 3 (e.getD 3 0 &&& 0xFFFFFFFE) }
    | none => { h with funcMask := false }) s

/-! The PCIe link (15 R402, R405; 16 R436, R442) -/

/-- PCIE_PERST_N, and the Function Level Reset that acts as it does, reset the HOST block (15 R402). -/
def HostUnit.blockReset (h : HostUnit) : HostUnit :=
  { h with
    spiIrqEn := 0, tickDiv := 0, reqIdxErr := false, rplIdxErr := false, aerAbort := false
    spiLast := 0xA0, spiOpcode := 0, spiErrors := 0, spiErrAddr := 0 }

/-- The PCIe transport is reset. -/
def Chip.pcieReset (cause : PcieCause) (c : Chip) : Chip :=
  let c := c.onHost fun h => { h with
    generation := h.generation + 1, reqProd := 0, reqCons := 0, reqHeld := false, rplProd := 0, rplCons := 0, owed := 0,
    msix := List.replicate 32 [0, 0, 0, 1], pend := 0, msixSent := (0, 0), funcMask := false, resetSeen := true,
    bme := false, msixEn := false, d3hot := false, linkUp := h.linkUp && cause = .flr,
    speed := if cause = .flr then h.speed else 0, width := if cause = .flr then h.width else 0 }
  let c := if cause = .linkDown then c else c.onHost HostUnit.blockReset
  let drop := fun (x : MbxCh) => if x.valid && x.sender = 0x40 then { x with go := false, part := [] } else x
  let c := ((c.onMbx fun b => { b with ch := b.ch.map drop }).crossSettle).raise 0x0501 .note
  if cause = .linkDown then c
  else (if c.bus.service = 0x40 then c.leaveService else c).freeLocks (· = 0x40)

def execPcieReset (cause : PcieCause) (s : State) : Host.Outcome State Fault Refusal := act (Chip.pcieReset cause) s

/-- The data link comes up, and the host configures the function (log 28). -/
def execPcieLinkUp (speed : BitVec 2) (link : PcieUp) (s : State) : Host.Outcome State Fault Refusal :=
  act (fun c =>
    let c := if c.host.linkUp then c else c.raise 0x0502 .note
    c.onHost fun h => { h with
      linkUp := true, speed := speed, width := link.width, bme := link.cfg.bme, msixEn := link.cfg.msixEn
      funcMask := link.cfg.funcMask, d3hot := link.cfg.d3hot }) s

/-! Writes of the MBX block -/

def mbxCtrl (k : Nat) : Nat := 0x50041040 + 0x100 * k

/-- GO with LEN (15 R419). -/
def Chip.mbxGo (master : Byte) (k n : Nat) (c : Chip) : Bool × Chip :=
  let x := c.mbxCh k
  let no := fun cause => c.mbxRefuse master k cause (mbxCtrl k)
  if !x.valid then no 1 else if master ≠ x.sender then no 2 else if x.go then no 3
  else if n < 8 ∨ 16 < n then no 5
  else (true, c.mbxSend k n)

/-- ACK by the receiver. While the stream is full the CMD core acknowledges no message of a host (13 R355). -/
def Chip.mbxAck (master : Byte) (k : Nat) (c : Chip) : Bool × Chip :=
  let x := c.mbxCh k
  let no := fun cause => c.mbxRefuse master k cause (mbxCtrl k)
  if !x.valid then no 1 else if master ≠ x.receiver then no 2 else if !x.go then no 4
  else if master = 0x01 ∧ isHost x.sender ∧ c.streamFull then (true, c)
  else (true, (c.onMbxCh k fun x => { x with acked := x.acked + 1 }).mbxEnd k)

/-- CANCEL by the sender; what the CMD core has collected of the packet is dropped (log 30). -/
def Chip.mbxCancel (master : Byte) (k : Nat) (c : Chip) : Bool × Chip :=
  let x := c.mbxCh k
  let no := fun cause => c.mbxRefuse master k cause (mbxCtrl k)
  if !x.valid then no 1 else if master ≠ x.sender then no 2
  else if !x.go then (true, c)
  else (true, (c.onMbxCh k fun x => { x with cancelled := x.cancelled + 1, part := [], rest := [] }).mbxEnd k)

/-- A write of a message register. -/
def Chip.mbxMsg (master : Byte) (k i : Nat) (v : Word) (c : Chip) : Bool × Chip :=
  let x := c.mbxCh k
  let no := fun cause => c.mbxRefuse master k cause (0x50041000 + 0x100 * k + 4 * i)
  if !x.valid then no 1 else if master ≠ x.sender then no 2 else if x.go then no 3
  else (true, c.onMbxCh k fun x => { x with msg := x.msg.set i v })

/-- A binding (15 R417, R418): between two masters of the table; outside service mode a host binds channels 6 to 15, each
with one end a host and the other the CMD core. -/
def Chip.mbxBind (master : Byte) (k : Nat) (v : Word) (c : Chip) : Bool × Chip :=
  let snd : Byte := BitVec.ofNat 8 v.toNat
  let rcv : Byte := BitVec.ofNat 8 (v.toNat / 256)
  let no := fun cause => c.mbxRefuse master k cause (0x50040000 + 4 * k)
  let known := (bellOf snd).isSome && (bellOf rcv).isSome && snd ≠ rcv
  let hostEnds := (isHost snd && rcv = 0x01) || (snd = 0x01 && isHost rcv)
  if c.mbx.locked then no 6
  else if v.getLsbD 16 && !known then no 2
  else if isEngine master then no 2
  else if isHost master ∧ !c.service ∧ (k < 6 ∨ (v.getLsbD 16 && !hostEnds)) then no 2
  else (true, c.onMbxCh k fun x => { x with sender := snd, receiver := rcv, valid := v.getLsbD 16 })

def execMbxGo (master : Byte) (k : Fin 16) (len : BitVec 5) (t : Nat) (s : State) : Host.Outcome State Fault Refusal :=
  csrStep master (mbxCtrl k.val) (fun c => (c.advance t).mbxGo master k.val len.toNat) s

def execMbxAck (master : Byte) (k : Fin 16) (s : State) : Host.Outcome State Fault Refusal :=
  csrStep master (mbxCtrl k.val) (Chip.mbxAck master k.val) s

def execMbxCancel (master : Byte) (k : Fin 16) (s : State) : Host.Outcome State Fault Refusal :=
  csrStep master (mbxCtrl k.val) (Chip.mbxCancel master k.val) s

def execMbxBindWrite (master : Byte) (k : Fin 16) (value : Word) (s : State) : Host.Outcome State Fault Refusal :=
  csrStep master (0x50040000 + 4 * k.val) (Chip.mbxBind master k.val value) s

def execMbxLockSet (master : Byte) (s : State) : Host.Outcome State Fault Refusal :=
  csrStep master 0x50040040 (fun c => (true, c.onMbx fun b => { b with locked := true })) s

/-- Doorbells 16 to 30 of receiver i. -/
def Chip.ringWrite16 (i : Nat) (v : Word) (c : Chip) : Chip := c.ring i (v &&& 0x7FFF0000)

def execMbxDbRingWrite (master : Byte) (i : Fin 28) (value : Word) (s : State) : Host.Outcome State Fault Refusal :=
  csrStep master (0x50042008 + 0x10 * i.val) (fun c => (true, c.ringWrite16 i.val value)) s

/-- Both channels of a pair have held GO for MBX_CROSS_WAIT (15 R422). -/
def execCrossWaitDetect (k d : Fin 16) (t : Nat) (s : State) : Host.Outcome State Fault Refusal :=
  act (fun c =>
    let c := c.advance t
    let x := c.mbxCh k.val
    let y := c.mbxCh d.val
    let pair := (min k.val d.val, max k.val d.val)
    let told := c.mbx.told.contains pair
    if c.mbxPair k.val d.val && x.go && y.go && !told && max x.goAt y.goAt + c.mbx.crossWait.toNat * usClk ≤ c.clk then
      let bits : BitVec 16 := BitVec.ofNat 16 (2 ^ k.val) ||| BitVec.ofNat 16 (2 ^ d.val)
      let c := c.onMbx fun b => { b with told := pair :: b.told, cross := b.cross ||| bits, crossEvents := b.crossEvents + 1 }
      ((c.ringMaster x.sender 31).ringMaster x.receiver 31).raise 0x0420 .note (min k.val d.val)
    else c) s

/-- A reply message has stayed unacknowledged for 100 ms: the CMD core cancels it and drops the rest of that reply. -/
def execReplyCancel (k : Fin 16) (t : Nat) (s : State) : Host.Outcome State Fault Refusal :=
  act (fun c =>
    let c := c.advance t
    let x := c.mbxCh k.val
    if x.go && x.reply && !c.err.traps 0x01 && x.goAt + 100 * msClk ≤ c.clk then
      ((c.onMbxCh k.val fun x => { x with cancelled := x.cancelled + 1, rest := [] }).mbxEnd k.val).raise 0x0421 .note k.val
    else c) s

end Sys2Proof.Machine
end

