-- ==== Sys2Proof/Machine/Ptp.lean ====
section
/-! DEFINITION. The PTP ports (11 R312 to R314): following, the grandmaster, and the messages. The layout of the messages
is that of IEEE 1588-2019 (PRESUMED, log 23). -/

namespace Sys2Proof.Machine

/-- The clockIdentity: the EUI-64 of the station address (11 R312). -/
def Chip.clockId (c : Chip) : Nat := c.station / 2 ^ 24 * 2 ^ 40 + 0xFFFE * 2 ^ 24 + c.station % 2 ^ 24

/-- A PTP message: type, flags, sequence number, control field, log interval, body. -/
def Chip.ptpMessage (type flags seq control : Nat) (interval : Int) (port : Nat) (body : List Byte) (c : Chip) : List Byte :=
  [BitVec.ofNat 8 type, 0x12] ++ beBytes 2 (34 + body.length) ++ [BitVec.ofNat 8 (c.ptpIt 2).toNat, 0] ++ beBytes 2 flags ++
    List.replicate 12 0 ++ beBytes 8 c.clockId ++ beBytes 2 (port + 1) ++ beBytes 2 seq ++
    [BitVec.ofNat 8 control, BitVec.ofInt 8 interval] ++ body

/-- A timestamp of 10 bytes. -/
def ptpStamp (ns : Nat) : List Byte := beBytes 6 (ns / 10 ^ 9) ++ beBytes 4 (ns % 10 ^ 9)

/-- The frame of a message on the transport in force; event messages use port 319, others 320. -/
def Chip.ptpFrame (event : Bool) (msg : List Byte) (c : Chip) : List Byte :=
  if c.ptpIt 4 = 0 then ethHead 0x011B19000000 c.station 0 0x88F7 ++ msg
  else
    let ip := 0xE0000181
    ethHead (ipGroup ip) c.station 0 0x800 ++
      ipUdpHead 0 (c.sysIt 0x14) (c.sysIt 0x13) ip (if event then 319 else 320) msg.length ++ msg

/-- The transmit ring of PTP on a MAC (07 R194). -/
def ptpRing (m : Nat) : Nat := if m < 2 then 1 else 3

/-- Sends a PTP frame. -/
def Chip.sendPtp (m : Nat) (f : TxFrame) (c : Chip) : Chip :=
  let c := c.queueTx m (ptpRing m) { f with postedAt := c.clk }
  if m < 2 then c.linkKick m else c.txFlushAll 2

/-- A message waits in the receive ring of PTP: its buffers are returned when it is taken. -/
def Chip.takePtp (m : Nat) (c : Chip) : Chip := (c.popInbox m 1).2

def Chip.port (c : Chip) (m : Nat) : PtpPort := c.ptp.ports.getD m {}

/-! Best master (11 R312) -/

/-- What the default algorithm compares, in order: lower is better. -/
def announceRank (a : AnnounceMsg) : List Nat :=
  [a.priority1.toNat, a.clockClass.toNat, a.accuracy.toNat, a.variance.toNat, a.priority2.toNat, a.gm.toNat, a.steps.toNat, a.sender.toNat]

/-- Lexicographic order. -/
def lexLess : List Nat → List Nat → Bool
  | a :: as, b :: bs => a < b || (a = b && lexLess as bs)
  | _, _ => false

/-- The clockClass and the timeSource that a grandmaster sends (11 R314). The input before HOLDOVER is the one a switch
left; PPS is input 4. -/
def Chip.gmClass (c : Chip) : Nat × Nat :=
  match c.ref.st with
  | .locked | .acquire => if c.ref.selected = 4 then (6, 0x90) else (248, 0xA0)
  | .holdover => if c.ref.heldInput = 4 then (7, 0x90) else (248, 0xA0)
  | .holdoverLimit => (52, 0xA0)
  | .freeRun => (248, 0xA0)

/-- The unit's own data set as a grandmaster. -/
def Chip.ownAnnounce (c : Chip) : AnnounceMsg :=
  let id : Dword := BitVec.ofNat 64 c.clockId
  { gm := id, priority1 := BitVec.ofInt 8 (c.ptpIt 5), clockClass := BitVec.ofNat 8 c.gmClass.1, accuracy := 0xFE,
    variance := 0xFFFF, priority2 := BitVec.ofInt 8 (c.ptpIt 6), steps := 0, sender := id }

/-- Announce interval in CORE clocks. -/
def announceClk : Nat := 2 * secClk

/-- A message that a port takes: its domain and its transport are those pressed (11 R312). -/
def Chip.ptpTakes (via : PtpVia) (c : Chip) : Bool :=
  via.domain.toNat = (c.ptpIt 2).toNat && via.udp = decide (c.ptpIt 4 = 1)

/-- The masters heard after one more Announce: of each the latest, and its receipts within four intervals. -/
def heardAfter (a : AnnounceMsg) (now : Nat) (l : List (AnnounceMsg × List Nat)) : List (AnnounceMsg × List Nat) :=
  let fresh := l.map fun q => (q.1, q.2.filter fun t => now < t + 4 * announceClk)
  let own := (fresh.find? fun q => q.1.sender = a.sender).map Prod.snd
  (a, now :: own.getD []) :: fresh.filter fun q => q.1.sender ≠ a.sender && !q.2.isEmpty

/-- The best master of a port: among those heard twice within four Announce intervals, and the one followed. -/
def bestHeard (followed : Option Dword) (l : List (AnnounceMsg × List Nat)) : Option (AnnounceMsg × List Nat) :=
  (l.filter fun q => 2 ≤ q.2.length || followed = some q.1.sender).foldl (fun best q => match best with
    | none => some q
    | some b => if lexLess (announceRank q.1) (announceRank b.1) then some q else best) none

/-- An Announce on a follower port (11 R312, R313): the best master heard is followed. -/
def Chip.announceFollow (m : Nat) (a : AnnounceMsg) (c : Chip) : Chip :=
  if a.sender.toNat = c.clockId || 255 ≤ a.steps.toNat then c
  else
    let x := c.port m
    let heard := heardAfter a c.clk x.foreign
    let c := c.onPort m fun x => { x with foreign := heard }
    let followed := if x.st = .following then x.best.map fun b => b.1.sender else none
    match bestHeard followed heard with
    | none => c
    | some b =>
      let known := x.master.isSome
      let changed := known && x.gm ≠ b.1.gm
      let master := known && x.master ≠ some b.1.sender
      let c := c.onPort m fun x => { x with
        st := .following, best := some (b.1, b.2.headD c.clk), master := some b.1.sender, cls := b.1.clockClass, gm := b.1.gm
        lastSync := if master then none else x.lastSync, gate := if master then none else x.gate
        back := if master then none else x.back, asked := if master then none else x.asked }
      let c := if changed then c.raise 0x0A01 .note m else c
      if changed || master then (c.disqualify m 6).onRefIn m fun i => { i with freq := none } else c

/-- An Announce on a grandmaster port (11 R314). -/
def Chip.announceMaster (m : Nat) (a : AnnounceMsg) (c : Chip) : Chip :=
  let x := c.port m
  if !lexLess (announceRank a) (announceRank c.ownAnnounce) then c
  else
    let c' := c.onPort m fun x => { x with st := .passive, best := some (a, c.clk) }
    if x.st = .master then c'.raise 0x0A02 .note m else if x.st = .passive then c' else c

/-- A port that sends is MASTER in the role GRANDMASTER. -/
def Chip.sends (m : Nat) (c : Chip) : Bool := c.grandmaster && (c.port m).st = .master

/-! Following (11 R313) -/

/-- The frequency offset in 0.01 ppb of a master that counts from m0 to m1 between two CORE clocks of 1.25 ns. -/
def gateFreq (c0 : Nat) (m0 : Int) (c1 : Nat) (m1 : Int) : Int :=
  let own : Int := ((c1 - c0 : Nat) : Int) * 5
  roundDiv (((m1 - m0) * 4 - own) * 10 ^ 11) own.toNat

/-- The 1 s gate of a port (11 R294): its frequency offset in 0.01 ppb, when the gate is full. -/
def ptpGate (start : Option (Nat × Int)) (clk : Nat) (master : Int) : Option Int × Option (Nat × Int) :=
  match start with
  | none => (none, some (clk, master))
  | some (c0, m0) =>
    if clk < c0 + secClk then (none, some (c0, m0)) else (some (gateFreq c0 m0 clk master), some (clk, master))

/-- The frequency trend of a PTP input before a Sync: that of its latest gate, or of the part of its first gate up to the
Sync before, at clock t and master's time m0; two Syncs show none (11 R293, log 84). -/
def Chip.syncTrend (gate : Option (Nat × Int)) (m t : Nat) (m0 : Int) (c : Chip) : Option Int :=
  (c.refIn m).freq.or (match gate with
    | some (c0, g0) => if c0 < t then some (gateFreq c0 g0 t m0) else none
    | none => none)

/-- A Sync with its Follow_Up from the master followed (11 R293, R313). -/
def Chip.ptpSync (m origin ingress : Nat) (correction : Int) (c : Chip) : Chip :=
  let x := c.port m
  let diff := (ingress : Int) - origin - correction
  let delay := match x.back with
    | some b => roundDiv (diff + b) 2
    | none => x.delay
  let offset := diff - delay
  let period := c.refPeriod m
  let g := ptpGate x.gate c.clk (origin + correction)
  let prev := x.lastSync
  let master := (origin : Int) + correction
  let late := match prev with
    | some (_, t, _) => let d := c.clk - t; decide (d * 10 < period * 7 ∨ period * 13 < d * 10)
    | none => false
  -- the change of the offset beyond its frequency trend
  let glitch := match prev with
    | some (o0, t, m0) => match c.syncTrend x.gate m t m0 with
      | some f => (offset - o0 - c.gained f t).natAbs
      | none => 0
    | none => 0
  let sat32 := max (-2147483648) (min 2147483647 offset)
  let c := c.onPort m fun x => { x with
    syncOk := !late, delay := delay, offset := sat32, lastSync := some (offset, c.clk, master), syncs := x.syncs + 1, gate := g.2 }
  let c := c.refEvent m { t := c.clk, gate := g.1, phase := offset, glitch := glitch, offGrid := late }
  if (x.syncs + 1) % 4 = 0 then
    let q := x.seqs.1
    let msg := c.ptpMessage 1 0 q.toNat 1 127 m (ptpStamp 0)
    let c := c.onPort m fun x => { x with seqs := (q + 1, x.seqs.2) }
    c.sendPtp m { bytes := c.ptpFrame true msg, tsReq := true, asks := some q }
  else c

/-! The commands -/

def execPtpSyncRx (rx : PtpRx) (origin ingress : Nat) (correction : Int) (master : Dword) (t : Nat) (s : State) :
    Host.Outcome State Fault Refusal :=
  act (fun c =>
    let c := (c.advance t).takePtp rx.port.val
    let x := c.port rx.port.val
    let heard := match x.best with
      | some b => b.1.sender = master
      | none => false
    if x.st = .following && heard && c.ptpTakes rx.via then c.ptpSync rx.port.val origin ingress correction else c) s

/-- Three Announce intervals without one (11 R313). -/
def execAnnounceTimeout (m : Fin 3) (t : Nat) (s : State) : Host.Outcome State Fault Refusal :=
  act (fun c =>
    let c := c.advance t
    let x := c.port m.val
    match x.best with
    | some b =>
      if x.st = .following && b.2 + 3 * announceClk ≤ c.clk then
        c.onPort m.val fun x => { x with
          st := .listening, best := none, syncOk := false, lastSync := none, back := none, asked := none, gate := none
          foreign := x.foreign.filter fun q => q.1.sender ≠ b.1.sender }
      else c
    | none => c) s

def execAnnounceRx (rx : PtpRx) (a : AnnounceMsg) (t : Nat) (s : State) : Host.Outcome State Fault Refusal :=
  act (fun c =>
    let c := (c.advance t).takePtp rx.port.val
    if !c.ptpTakes rx.via then c
    else match (c.port rx.port.val).st with
    | .listening | .following => c.announceFollow rx.port.val a
    | .master | .passive => c.announceMaster rx.port.val a
    | .disabled | .faulty => c) s

/-- A PASSIVE port returns to MASTER (11 R314). -/
def execMasterReturn (m : Fin 3) (t : Nat) (s : State) : Host.Outcome State Fault Refusal :=
  act (fun c =>
    let c := c.advance t
    match (c.port m.val).best with
    | some b =>
      if (c.port m.val).st = .passive && b.2 + 3 * announceClk ≤ c.clk then
        c.onPort m.val fun x => { x with st := .master, best := none }
      else c
    | none => c) s

def execAnnounceSend (m : Fin 3) (t : Nat) (s : State) : Host.Outcome State Fault Refusal :=
  act (fun c =>
    let c := c.advance t
    if c.sends m.val then
      let a := c.ownAnnounce
      let q := (c.port m.val).seqs.2.2
      let body := ptpStamp 0 ++ [0, 0, 0, a.priority1, a.clockClass, a.accuracy] ++ beBytes 2 a.variance.toNat ++
        [a.priority2] ++ beBytes 8 a.gm.toNat ++ [0, 0, BitVec.ofNat 8 c.gmClass.2]
      let msg := c.ptpMessage 0xB 0x0008 q.toNat 5 1 m.val body
      (c.onPort m.val fun x => { x with cls := a.clockClass, seqs := (x.seqs.1, x.seqs.2.1, q + 1) }).sendPtp m.val
        { bytes := c.ptpFrame false msg }
    else c) s

def execSyncSend (m : Fin 3) (t : Nat) (s : State) : Host.Outcome State Fault Refusal :=
  act (fun c =>
    let c := c.advance t
    if c.sends m.val then
      let q := (c.port m.val).seqs.2.1
      let log := c.ptpIt 3
      let sync := c.ptpMessage 0 0x0200 q.toNat 0 log m.val (ptpStamp 0)
      let follow := c.ptpMessage 8 0 q.toNat 2 log m.val (ptpStamp 0)
      (c.onPort m.val fun x => { x with seqs := (x.seqs.1, q + 1, x.seqs.2.2) }).sendPtp m.val
        { bytes := c.ptpFrame true sync, tsReq := true, follow := c.ptpFrame false follow }
    else c) s

/-- A Delay_Req is answered with the time it came in, to the port that asked (11 R314): on layer 2 a frame of 60 bytes, over
UDP one of 86. -/
def execDelayReqRx (rx : PtpRx) (requester : PtpPortId) (seq : BitVec 16) (t : Nat) (s : State) :
    Host.Outcome State Fault Refusal :=
  act (fun c =>
    let c := (c.advance t).takePtp rx.port.val
    if c.sends rx.port.val && c.ptpTakes rx.via then
      let body := ptpStamp (c.sfdTime rx.port.val (if rx.via.udp then 86 else 60)) ++
        beBytes 8 requester.clock.toNat ++ beBytes 2 requester.port.toNat
      c.sendPtp rx.port.val { bytes := c.ptpFrame false (c.ptpMessage 9 0 seq.toNat 3 (c.ptpIt 3 + 2) rx.port.val body) }
    else c) s

/-- A Delay_Resp tells when the master received the Delay_Req, less its correction; the mean path delay follows at every
Sync (11 R313). -/
def execDelayRespRx (rx : PtpRx) (seq : BitVec 16) (resp : DelayResp) (t : Nat) (s : State) :
    Host.Outcome State Fault Refusal :=
  act (fun c =>
    let c := (c.advance t).takePtp rx.port.val
    match (c.port rx.port.val).asked with
    | some (q, egress) =>
      if q = seq && (c.port rx.port.val).st = .following && c.ptpTakes rx.via then
        c.onPort rx.port.val fun x => { x with asked := none, back := some ((resp.receipt : Int) - resp.correction - egress) }
      else c
    | none => c) s

end Sys2Proof.Machine
end

