-- ==== Sys2Proof/Machine/Regs.lean ====
section
/-! DEFINITION. What every CSR reads (01 R36, 02 R63, 03 R99, 04 R128, 06 R184, 07 R216 to R219, 08 R244, R245, 09 R262,
10 R288, 11 R318 to R320, 12 R351, 15 R424, R425, 16 R443, 17 R459, 18 R483), the words that a read latches, and the
words of shared SRAM that show state (13 R375, 19 R490). A register that is not listed reads 0 (16 R433). -/

namespace Sys2Proof.Machine

/-- The index of an offset in an array of registers: base, stride, count. -/
def nth (o base stride count : Nat) : Option Nat :=
  if base ≤ o ∧ (o - base) % stride = 0 ∧ (o - base) / stride < count then some ((o - base) / stride) else none

/-- Word 0 of a record, and all four (18 R463). -/
def Rec.word0 (r : Rec) : Word :=
  let cls := match r.cls with | .note => 0 | .fault => 1 | .fatal => 2
  pack [(0, 16, r.code), (16, 2, cls), (18, 1, b2n r.safe), (19, 1, b2n r.during), (24, 8, r.repeats)]
def Rec.words (r : Rec) : List Word := [r.word0, lo32 r.blk, hi32 r.blk, w32 r.detail]

/-! SYS, BUS, MEM, ERR -/

def peekSys (c : Chip) (o : Nat) : Word :=
  let s := c.sys
  match o with
  | 0x10 => lo32 s.blk
  | 0x14 => s.blkHi
  | 0x18 => pack [(0, 1, b2n s.tickRun), (1, 1, b2n s.mediaSilent), (2, 2, Profile.code s.profile), (4, 1, b2n s.audioEn)]
  | 0x1C => pack [(0, 20, s.cycles)]
  | 0x20 => w32 c.powered.toNat
  | 0x24 => w32 s.engOverrun.toNat
  | 0x30 => w32 s.xqSilent.toNat
  | 0x34 => w32 s.xqLatch.toNat
  | _ => 0

def peekBus (c : Chip) (o : Nat) : Word :=
  let b := c.bus
  match nth o 0x100 4 32, nth o 0x180 4 32 with
  | some n, _ => w32 (c.owner n).toNat
  | _, some n => w32 (c.owner n).toNat
  | _, _ =>
    match o with
    | 0x00 => pack [(0, 1, b2n c.service), (1, 1, b2n b.errSeen), (2, 1, b2n b.timeoutSeen), (3, 1, b2n b.semSeen)]
    | 0x04 => pack [(24, 8, b.service.toNat)]
    | 0x10 => b.errCount
    | 0x14 => b.firstAddr
    | 0x18 => b.firstInfo
    | 0x1C => b.lastAddr
    | 0x20 => b.lastInfo
    | 0x30 => if c.clk < b.lockAt + 16 then pack [(0, 8, b.lockSeq.1.toNat), (8, 5, b.lockSeq.2.toNat)] else 0
    | 0x34 => b.timeouts
    | 0x200 => w32 (packBits 32 fun n => c.owner n ≠ 0)
    | 0x208 => pack [(0, 8, b.semMaster.toNat), (8, 5, b.semLock.toNat), (13, 3, b.semCause.toNat), (16, 16, b.semCount)]
    | _ => 0

def peekMem (c : Chip) (o : Nat) : Word :=
  let m := c.mem
  match nth o 0x30 4 4 with
  | some ch => m.dmaAddr.getD ch 0
  | none =>
    match o with
    | 0x00 => pack [(0, 1, b2n m.ceSeen), (1, 1, b2n m.ueSeen), (2, 1, b2n m.repeatSeen), (3, 1, b2n m.bgRun), (4, 4, m.dmaHalt.toNat)]
    | 0x04 => m.ce
    | 0x08 => m.ue
    | 0x0C => m.poison
    | 0x10 => m.firstAddr
    | 0x14 => m.firstInfo
    | 0x18 => m.lastAddr
    | 0x1C => m.lastInfo
    | 0x40 => m.dmaHalts
    | 0x50 => if m.bgRun then w32 (c.rinseAddr (Config.rinsePos c.clk)) else 0
    | 0x54 => m.bgPasses
    | 0x58 => m.bgUe
    | _ => 0

def Chip.errStatus (c : Chip) : Word :=
  let e := c.err
  pack [(0, 1, b2n e.safe), (1, 1, b2n e.handling.isSome), (2, 1, b2n c.faultN), (3, 1, b2n e.exiting.isSome),
    (4, 1, b2n e.first.isSome), (5, 5, e.queue.length), (10, 1, b2n e.overflowSeen), (11, 1, b2n e.fatalSeen),
    (12, 1, b2n e.reloading), (13, 1, b2n e.lostHold), (14, 1, b2n e.entry.isSome)]

def peekErr (c : Chip) (o : Nat) : Word :=
  let e := c.err
  let word0 := fun (r : Option Rec) => match r with | some r => r.word0 | none => 0
  match o with
  | 0x00 => c.errStatus
  | 0x04 => word0 e.first
  | 0x08 => lo32 e.firstView.1
  | 0x0C => hi32 e.firstView.1
  | 0x10 => w32 e.firstView.2
  | 0x20 => word0 e.queue.head?
  | 0x24 => lo32 e.headView.1
  | 0x28 => hi32 e.headView.1
  | 0x2C => w32 e.headView.2
  | 0x40 => pack [(0, 16, e.lostCount), (16, 16, e.lostLast)]
  | 0x44 => e.notes
  | 0x48 => e.faults
  | 0x4C => e.fatals
  | 0x50 => pack [(0, 16, e.safeCause), (16, 2, e.safeReason)]
  | 0x54 => lo32 e.safeBlk
  | 0x58 => pack [(0, 16, e.safeEntries.toNat), (16, 16, e.safeExits.toNat)]
  | 0x5C => w32 (match e.handling with | some h => h.1 | none => 0)
  | _ => 0

/-! MBX, HOST -/

def peekChannel (c : Chip) (k o : Nat) : Word :=
  let x := c.mbxCh k
  match nth o 0 4 16 with
  | some i => x.msg.getD i 0
  | none =>
    match o with
    | 0x40 => pack [(0, 5, x.len.toNat), (8, 1, b2n x.go)]
    | 0x44 => if x.go then w32 (min 0xFFFFFFFF ((c.clk - x.goAt) / usClk)) else 0
    | 0x48 => pack [(0, 16, x.acked.toNat), (16, 16, x.cancelled.toNat)]
    | _ => 0

def peekMbx (c : Chip) (o : Nat) : Word :=
  let b := c.mbx
  if 0x1000 ≤ o ∧ o < 0x2000 then peekChannel c ((o - 0x1000) / 0x100) (o % 0x100)
  else if 0x2000 ≤ o ∧ o < 0x21C0 then
    let i := (o - 0x2000) / 0x10
    match o % 0x10 with
    | 0 => b.bells.getD i 0
    | 4 => b.masks.getD i 0
    | 8 => b.bells.getD i 0 &&& 0x7FFF0000
    | _ => 0
  else match nth o 0 4 16 with
    | some k => let x := c.mbxCh k; pack [(0, 8, x.sender.toNat), (8, 8, x.receiver.toNat), (16, 1, b2n x.valid)]
    | none =>
      match o with
      | 0x40 => w32 (b2n b.locked)
      | 0x44 => w32 b.crossWait.toNat
      | 0x48 => pack [(0, 16, b.cross.toNat), (16, 1, b2n b.accessErr)]
      | 0x4C => pack [(0, 8, b.logMaster.toNat), (8, 4, b.logChannel.toNat), (12, 3, b.logCause.toNat)]
      | 0x50 => b.crossEvents
      | _ => 0

def peekHost (c : Chip) (o : Nat) : Word :=
  let h := c.host
  if 0x1000 ≤ o ∧ o < 0x1200 then (h.msix.getD ((o - 0x1000) / 16) []).getD (o % 16 / 4) 0
  else match o with
    | 0x2000 => w32 (packBits 32 fun v => h.pend.getLsbD v && h.masked v)
    | 0x00 => pack [(0, 1, b2n h.linkUp), (1, 2, h.speed.toNat), (3, 3, h.width.toNat), (6, 1, b2n h.bme), (7, 1, b2n h.msixEn),
        (8, 1, b2n h.reqIdxErr), (9, 1, b2n h.rplIdxErr), (10, 1, b2n h.resetSeen)]
    | 0x04 => 0x0009DA35
    | 0x10 => 0x407E0000
    | 0x14 => w32 h.reqProd.toNat
    | 0x18 => w32 h.reqCons.toNat
    | 0x20 => 0x407E4000
    | 0x24 => w32 h.rplProd.toNat
    | 0x28 => w32 h.rplCons.toNat
    | 0x40 => h.pend
    | 0x44 => c.rawWord
    | 0x48 => h.spiIrqEn
    | 0x4C => w32 h.tickDiv.toNat
    | 0x50 => pack [(0, 8, h.spiLast.toNat), (8, 8, h.spiOpcode.toNat), (16, 16, h.spiErrors)]
    | 0x54 => h.spiErrAddr
    | _ => 0

/-! LINKA, LINKB, DROP, and the hampers -/

/-- Registers that all three MACs have (07 R216, R218). -/
def peekMac (h : Hamper) (c : Chip) (m o : Nat) : Word :=
  let x := c.mac m
  if 0x200 ≤ o ∧ o < 0x280 then
    let r := (o - 0x200) / 0x10
    let g := h.ring (ringIx m r)
    match o % 0x10 with
    | 0 => w32 (rxBase m r)
    | 4 => w32 (rxRet m r)
    | 8 => pack [(0, 13, g.posted.length), (16, 13, g.asm.length + g.held.length)]
    | 12 => w32 (rxTarget m r)
    | _ => 0
  else if 0x300 ≤ o ∧ o < 0x380 then
    let r := (o - 0x300) / 0x10
    match o % 0x10 with
    | 0 => w32 (txBase m r)
    | 4 => w32 (x.tx.getD r {}).consumed.toNat
    | _ => 0
  else match nth o 0x40 4 16, nth o 0x100 4 8 with
    | some n, _ => x.hash.getD n 0
    | _, some i => x.counts.getD i 0
    | _, _ =>
      match o with
      | 0x04 => lo32 c.station
      | 0x08 => hi32 c.station
      | _ => 0

def peekHamper (c : Chip) (o : Nat) : Word :=
  let q := c.graph.cap.hampers
  match o with
  | 0x800 => pack [(0, 15, q.1), (16, 15, q.2.1)]
  | 0x804 => pack [(0, 15, q.2.2.1), (16, 15, q.2.2.2)]
  | 0x808 => pack [(0, 1, b2n c.drop.hamperErr), (1, 1, b2n c.drop.badReturnSeen), (2, 1, b2n c.drop.truncSeen)]
  | 0x80C => lo32 c.drop.hamperErrBlk
  | 0x810 => c.drop.badReturns
  | 0x814 => c.drop.truncs
  | _ => 0

def peekLink (h : Hamper) (c : Chip) (m o : Nat) : Word :=
  let x := c.mac m
  match o with
  | 0x00 => pack [(0, 1, b2n x.up), (1, 1, b2n x.blockLock), (2, 1, b2n x.localFault), (3, 1, b2n x.remoteFault),
      (4, 1, b2n x.modAbs), (5, 1, b2n x.rxLos), (6, 1, b2n x.txFault), (7, 1, b2n x.change)]
  | 0x10 => pack [(0, 1, b2n x.portEn), (1, 1, b2n x.txDisable)]
  | _ => if m = 0 ∧ 0x800 ≤ o then peekHamper c o else peekMac h c m o

/-- Frames that wait in queue q of DROP, and the attempts of its head. -/
def Chip.dropPending (q : Nat) (c : Chip) : Nat × Nat :=
  let frames := fun r => ((c.mac 2).tx.getD r {}).queue
  let rs := (List.range 8).filter fun r => dropQueue r = q
  (total (rs.map fun r => (frames r).length), match c.dropHead q with
    | some r => (match (frames r).head? with | some f => f.attempts | none => 0)
    | none => 0)

def peekDrop (h : Hamper) (c : Chip) (o : Nat) : Word :=
  let x := c.mac 2
  let d := c.drop
  match nth o 0xA0 4 4, nth o 0x124 4 6, nth o 0x180 4 4 with
  | some q, _, _ => let p := c.dropPending q; pack [(0, 10, p.1), (10, 5, p.2)]
  | _, some i, _ => d.counts.getD i 0
  | _, _, some n => (d.speech.getD n {}).miss
  | _, _, _ =>
    match o with
    | 0x00 =>
      let backoff := (List.range 8).any fun r => match (x.tx.getD r {}).queue.head? with
        | some f => 0 < f.attempts && c.clk < f.waitUntil
        | none => false
      let spoke := fun n => match (d.speech.getD n {}).lastAt with
        | some t => decide (c.clk < t + 64 * secClk / 16000)
        | none => false
      pack [(0, 1, b2n x.portEn), (1, 1, b2n d.carrier), (2, 1, b2n x.sending.isSome), (3, 1, b2n backoff),
        (4, 4, packBits 4 spoke), (8, 1, b2n d.collSeen)]
    | 0x10 => w32 (b2n x.portEn)
    | _ => peekMac h c 2 o

/-! FLOW, PTP, REF, CLK -/

/-- The airing copy: the one that copies are looked up in, else the one that is ready. -/
def Chip.airingCopy (c : Chip) : Option FlowTable :=
  match c.flow.airing with
  | a :: _ => some a.table
  | [] => c.flow.built.map Prod.fst

def peekFlow (c : Chip) (o : Nat) : Word :=
  let u := c.flow
  let items := c.sys.now.items
  if 0x100 ≤ o ∧ o < 0x180 then
    let k := (o - 0x100) / 0x20
    let i := o % 0x20 / 4
    if i < 6 then (u.paths.getD k []).getD i 0
    else if i = 6 then let z := u.slack.getD k (0xFFFF, 0xFFFF, 0xFFFF); pack [(0, 16, z.1), (16, 16, z.2.1)]
    else 0
  else match o with
    | 0x00 =>
      let run := (List.range 64).any fun k => (c.job k).st = .running && (c.job k).opcode = 0x0600
      pack [(0, 1, b2n run), (1, 1, b2n (u.built.isSome || !u.airing.isEmpty)), (2, 1, b2n c.cmd.waiting.isSome), (3, 1, b2n u.tableErr),
        (4, 4, u.pathDown.toNat), (8, 1, b2n u.offsetDiff)]
    | 0x04 => pack [(0, 8, c.sysIt 0x10), (8, 8, u.rxLevel - 1), (16, 8, 3)]
    | 0x08 => pack [(0, 11, (ctxsOf c.prof items 1).length), (16, 11, (ctxsOf c.prof items 2).length)]
    | 0x0C => u.table.crc
    | 0x10 => match c.airingCopy with | some t => t.crc | none => 0
    | 0x14 => u.table.seedWord
    | 0x20 => u.drops.getD 0 0
    | 0x24 => u.drops.getD 1 0
    | 0x28 => u.drops.getD 2 0
    | 0x2C => u.drops.getD 3 0
    | 0x30 => pack [(0, 16, u.auth), (16, 16, u.noSession)]
    | _ => 0

def peekPtp (c : Chip) (o : Nat) : Word :=
  let p := c.ptp
  if 0x100 ≤ o ∧ o < 0x160 then
    let m := (o - 0x100) / 0x20
    let n := (p.queues.getD m []).length
    -- the ledger registers show what the latest tick captured (07 R219)
    let k := c.graph.cap.stamps.getD m (0, 0, 0, 0)
    match o % 0x20 with
    | 0x00 => pack [(0, 7, n), (8, 7, tsDepth m), (16, 1, b2n (p.lostSeen.getD m false))]
    | 0x04 => w32 k.1
    | 0x08 => w32 k.2.1
    | 0x0C => w32 k.2.2.1
    | 0x10 => w32 k.2.2.2
    | _ => 0
  else
    let state := fun (s : PortSt) => match s with
      | .disabled => 0 | .listening => 1 | .following => 2 | .master => 3 | .passive => 4 | .faulty => 5
    match nth o 0x20 4 3, nth o 0x30 4 3, nth o 0x40 4 3, nth o 0x50 4 6 with
    | some m, _, _, _ => let x := c.port m; pack [(0, 3, state x.st), (3, 1, b2n x.syncOk), (8, 8, x.cls.toNat)]
    | _, some m, _, _ => sat32 (c.port m).delay
    | _, _, some m, _ => sat32 (c.port m).offset
    | _, _, _, some i => let g := (c.port (i / 2)).gm.toNat; if i % 2 = 0 then lo32 g else hi32 g
    | _, _, _, _ =>
      match o with
      | 0x00 => w32 (c.nowNs % 10 ^ 9)
      | 0x04 => lo32 p.secView
      | 0x08 => hi32 p.secView
      | 0x10 => w32 p.incr
      | 0x14 => w32 (p.incr / 2 ^ 32)
      | 0x160 => w32 (packBits 3 fun m => (p.ledgerErr.getD m (false, 0)).1)
      | 0x164 => lo32 ((p.ledgerErr.map Prod.snd).foldl max 0)
      | _ => 0

def peekRef (c : Chip) (o : Nat) : Word :=
  let r := c.ref
  let shown := fun i => r.shown.getD i 0
  match nth o 0x40 4 6, nth o 0x60 4 6, nth o 0x80 4 6, nth o 0xA0 4 4 with
  | some x, _, _, _ => shown (4 + x)
  | _, some x, _, _ => shown (10 + x)
  | _, _, some x, _ => shown (16 + x)
  | _, _, _, some i => shown (22 + i)
  | _, _, _, _ =>
    match o with
    | 0x00 => r.quick.getD 0 0 ||| pack [(12, 1, b2n r.stateChange)]
    | 0x04 => shown 0
    | 0x08 => r.quick.getD 1 0
    | 0x0C => shown 1
    | 0x10 => shown 2
    | 0x14 => shown 3
    | _ => 0

def peekClk (c : Chip) (o : Nat) : Word :=
  let k := c.clock
  match o with
  | 0 => pack [(0, 1, b2n k.coreLock), (1, 1, b2n k.modLock), (2, 1, b2n k.mediaOk), (3, 1, b2n k.modUnlockSeen),
      (4, 1, b2n k.mediaErrSeen)]
  | 4 => w32 k.mediaRun.toNat
  | _ => 0

/-! SAP, AIN, MOD, TWIN -/

def SapSt.code : SapSt → Nat
  | .stopped => 0 | .lead => 1 | .zcWait => 2 | .run => 3 | .stopping => 4 | .clockHold => 5

def peekPort (x : SapPort) (o : Nat) : Word :=
  let f := x.fmt
  match o with
  | 0x00 => pack [(0, 3, x.st.code), (3, 1, b2n x.formatErr), (4, 1, b2n !x.pairs.isEmpty), (5, 1, b2n x.nonaudioSeen), (6, 1, b2n x.zcSeen)]
  | 0x04 => pack [(0, 16, x.div.2), (16, 10, x.div.1)]
  | 0x08 => pack [(0, 11, f.bits), (16, 6, f.slots), (24, 6, f.width)]
  | 0x0C => pack [(0, 8, f.offset), (8, 1, b2n f.half), (9, 1, b2n f.low), (10, 1, b2n f.rise), (11, 1, b2n f.hiz), (12, 1, b2n f.zk7),
      (16, 4, f.seam)]
  | 0x10 => w32 x.rxMask
  | 0x14 => w32 x.txMask
  | 0x18 => w32 (packBits 16 fun k => (mget? x.pairs k).isSome)
  | 0x1C => lo32 x.startFrame
  | 0x20 => lo32 x.dataFrame
  | 0x24 => x.restarts
  | 0x28 => x.zcTimeouts
  | 0x2C => x.nonaudioEvents
  | _ => 0

def peekSap (c : Chip) (o : Nat) : Word :=
  let port := fun p => c.sap.ports.getD p {}
  if o < 0x4000 then peekPort (port (o / 0x400)) (o % 0x400)
  else match o with
    | 0x4000 => w32 (packBits 16 fun p => (port p).running)
    | 0x4004 => w32 (packBits 16 fun p => (port p).st = .run)
    | _ => 0

def peekAin (c : Chip) (o : Nat) : Word :=
  let a := c.ain
  let contact := fun k => a.contacts.getD k {}
  match nth o 0x00 4 16, nth o 0x40 4 16, nth o 0x100 4 32, nth o 0x210 4 8 with
  | some n, _, _, _ =>
    let x := c.ainIn n
    pack [(0, 1, b2n x.inserted), (1, 3, x.cls), (4, 4, packBits 4 x.button), (8, 4, x.stuck.toNat),
      (12, 4, packBits 4 fun k => (x.buttons.getD k {}).chatter.isSome), (16, 1, b2n x.det.chatter.isSome), (17, 1, b2n (c.biasOn n)),
      (18, 1, b2n x.biasOvl), (24, 6, x.gain)]
  | _, some n, _, _ => let x := c.ainIn n; pack [(0, 16, x.rc), (16, 16, x.rd)]
  | _, _, some k, _ =>
    let x := contact k
    pack [(0, 2, x.st), (2, 1, b2n x.chatter.isSome), (3, 1, (c.itN (item 0x0A (0x10 + k) 1))), (4, 16, x.loop_)]
  | _, _, _, some r =>
    let x := a.rails.getD r {}
    pack [(0, 16, x.volts), (16, 1, b2n x.low), (17, 1, b2n x.high)]
  | _, _, _, _ =>
    match o with
    | 0x80 => a.event
    | 0x84 => lo32 a.eventBlk
    | 0x180 => w32 (packBits 32 fun k => (contact k).st = 1)
    | 0x184 => w32 (packBits 32 fun k => (contact k).st = 2 || (contact k).st = 3)
    | 0x200 => pack [(0, 12, a.vrms), (12, 1, b2n a.mainsFail), (16, 13, a.freq)]
    | 0x204 => pack [(0, 16, a.batt), (16, 1, b2n a.low.on), (17, 1, b2n a.critical.on)]
    | 0x230 => pack [(0, 1, b2n a.psuAlert), (1, 4, a.psuCause)]
    | _ => 0

def ModSt.code : ModSt → Nat
  | .off => 0 | .rampUp => 1 | .play => 2 | .muted => 3 | .tripped => 4 | .retry => 5 | .lockedOut => 6 | .test => 7

def peekMod (c : Chip) (o : Nat) : Word :=
  let p := c.pow
  if 0x100 ≤ o ∧ o < 0x800 then
    let m := o % 0x100 / 4
    let x := c.modCh m
    match o / 0x100 with
    | 1 => pack [(0, 3, if c.sys.xqSilent.getLsbD 8 then (Config.unknownState m c.fresh).toNat else x.st.code), (3, 1, b2n x.clkHold), (4, 1, b2n x.lrActive), (5, 2, x.cause), (7, 1, b2n x.flt), (8, 5, x.attempts),
        (13, 1, b2n x.zAlarm), (14, 1, b2n x.clipSeen), (16, 8, x.peak)]
    | 2 => x.z.magWord
    | 3 => pack [(0, 16, pattern 16 x.zView.1)]
    | 4 => lo32 x.zView.2
    | 5 => x.sweep.word
    | 6 => x.trips
    | _ => x.clips
  else match nth o 0x40 4 8 with
    | some k =>
      let r := p.rails.getD k {}
      let shown := r.set / 10 + (if r.set % 10 = 0 then 0 else b2n (Config.stepUp r.set 10))
      pack [(0, 12, shown), (12, 3, r.lead), (15, 1, b2n r.hold.isSome), (16, 11, r.duty)]
    | none =>
      let locked := packBits 64 fun m => (c.modCh m).st = .lockedOut
      match o with
      | 0x00 => pack [(0, 1, b2n p.clkErr), (1, 1, b2n p.clkQual), (2, 1, b2n p.inputLost), (3, 1, b2n p.safeLr), (4, 1, b2n p.sweep.isSome),
          (5, 1, b2n p.clkErrSeen)]
      | 0x08 => lo32 p.trip.toNat
      | 0x0C => hi32 p.trip.toNat
      | 0x10 => lo32 locked
      | 0x14 => hi32 locked
      | _ => 0

def peekTwin (c : Chip) (o : Nat) : Word :=
  let t := c.twin
  let mending := packBits 64 fun r => (mget? t.mending r).isSome
  let divergent := packBits 64 fun r => t.divergent.contains r
  let age := fun (at_ : Option Nat) unit => match at_ with | some q => min 0xFF ((c.clk - q) / unit) | none => 0xFF
  match o with
  | 0x00 => pack [(0, 3, roleCode t.role), (3, 1, b2n t.unmatched), (4, 3, t.pathBits.toNat), (7, 1, b2n t.suspended), (8, 1, b2n t.peerLost),
      (9, 1, b2n t.versionDiff), (10, 1, b2n t.mendIncomplete), (11, 1, b2n t.roleChange), (12, 1, b2n t.peerSafe)]
  | 0x04 => t.epoch
  | 0x08 => pack [(0, 6, t.peerPeg), (8, 3, t.peerRole.toNat), (12, 3, t.peerPaths.toNat), (16, 8, t.peerLevel.toNat)]
  | 0x0C => pack [(0, 1, b2n t.lane0), (1, 1, b2n t.lane1), (2, 1, b2n t.aligned), (3, 1, b2n t.frameOk)]
  | 0x10 => lo32 t.own
  | 0x14 => hi32 t.own
  | 0x18 => lo32 t.peer
  | 0x1C => hi32 t.peer
  | 0x20 => lo32 t.digestBlk
  | 0x30 => lo32 mending
  | 0x34 => hi32 mending
  | 0x38 => lo32 divergent
  | 0x3C => hi32 divergent
  | 0x40 => t.mismatches
  | 0x44 => t.mends
  | 0x48 => t.missed
  | 0x4C => t.bad
  | 0x50 => t.forwarded
  | 0x60 => pack [(0, 8, t.ageT), (8, 8, age t.lastL msClk), (16, 8, age t.lastD (10 * msClk))]
  | 0x80 => pack [(0, 8, t.health), (8, 8, t.healthSeen)]
  | 0x84 => lo32 t.healthBlk
  | 0x88 => w32 t.peerHealth.toNat
  | 0x8C => pack [(0, 5, t.shEngine), (5, 2, t.shPass), (8, 5, t.shFail), (16, 16, t.shSkipped)]
  | _ => 0

/-! GRAPH -/

/-- Every selector of the graph, the read positions of the delays among them (03 R99, 04 R113, log 83). -/
def Graph.selectors (g : Graph) : List Sel :=
  (g.bus.flatMap fun b => b.2.taps.map fun t => t.2.sel) ++ (g.chain.flatMap fun k => [k.2.sel, k.2.dly]) ++ g.sink.map fun e => e.2.sel

/-- Every gain ramp of the graph that has begun by output block O: of taps, buses and chains, the fades of all sinks (05
R137), and the ramp of a sink that un-mutes (02 R60). -/
def Graph.ramps (O : Nat) (g : Graph) : List Ramp :=
  (g.bus.flatMap fun b => b.2.scale :: b.2.rest :: b.2.taps.flatMap fun t => [t.2.gain, t.2.duck]) ++
    (g.chain.flatMap fun k => [k.2.gain, k.2.comp, k.2.mute]) ++
    ((g.fade.toList ++ g.netFade.toList).filter fun q => q.2 ≤ O).map Prod.fst ++
    g.sink.filterMap fun e => e.2.unmute.map fun u => { r := u.1, j := u.2.2 }

/-- The head registers of the GRAPH block. A read position of a delay counts as a selector (04 R113), and what is shown as
running is what goes on after the latest passes: one that begins and ends within a block never shows (log 83). -/
def peekGraphHead (c : Chip) (o : Nat) : Word :=
  let g := c.graph
  let fading := g.selectors.filter fun x => x.fade.isSome
  let held := g.selectors.filter fun x => x.deferred.isSome
  match o with
  | 0x00 =>
    let xfade := !fading.isEmpty || (g.ramps (c.sys.blk + 1)).any Ramp.running || g.fir.any fun f => f.2.xchg.isSome
    pack [(0, 1, b2n g.run), (1, 1, b2n xfade), (2, 1, b2n !held.isEmpty), (3, 1, b2n g.dangling), (4, 1, b2n g.ledgerErr)]
  | 0x04 => lo32 c.cmd.landed
  | 0x08 => c.cmd.landHi
  | 0x0C => pack [(0, 16, fading.length), (16, 16, held.length)]
  | 0x10 => pack [(0, 12, g.opens.length)]
  | 0x14 => lo32 g.stateBlk
  | 0x120 => w32 g.credErr.toNat
  | 0x124 => lo32 g.credErrBlk
  | 0x800 => pack [(0, 12, (g.sink.filter fun e => e.2.muted).length), (16, 1, b2n g.failSeen), (17, 1, b2n g.poisonSeen),
      (18, 1, b2n g.stateCleared)]
  | 0x804 => g.failTotal
  | 0x808 => g.poisonTotal
  | 0x80C => g.tagLast
  | 0x810 => lo32 g.tagLastBlk
  | 0x814 => g.clears
  | 0xA00 => let p := g.cap.pages; pack [(0, 12, p.1), (16, 12, p.2.1)]
  | 0xA04 => let p := g.cap.pages; pack [(0, 12, p.2.2.1), (16, 12, p.2.2.2)]
  | 0xA08 => lo32 g.dlyErrBlk
  | _ => 0

/-- Depths of the crossing queues (03 R97). -/
def credDepth : List Nat := [64, 32, 64, 64, 128, 16, 128, 128]

def credWord (q : Nat) (x : Nat × Nat × Nat) : Word :=
  pack [(0, 8, x.1), (8, 8, x.2.1), (16, 8, x.2.2), (24, 8, credDepth.getD q 0)]

def peekGraph (c : Chip) (o : Nat) : Word :=
  let g := c.graph
  let p := c.prof
  match nth o 0x100 4 8, nth o 0x1000 4 512, nth o 0x1800 4 512, nth o 0x2000 4 512, nth o 0x3000 4 64, nth o 0x3100 4 64, nth o 0x4000 4 2048 with
  | some q, _, _, _, _, _, _ => credWord q (g.cap.cred.getD q (credDepth.getD q 0, 0, 0))
  | _, some b, _, _, _, _, _ =>
    let x := if b < busCount p then mget g.bus b {} else {}
    pack [(0, 7, x.n), (8, 3, x.prio.getD 0), (11, 1, b2n x.prio.isSome), (12, 1, b2n (x.prio = some 7)), (13, 1, b2n x.scaleRun),
      (14, 1, b2n x.duckRun)]
  | _, _, some b, _, _, _, _ => let x := if b < busCount p then mget g.bus b {} else {}; w32 (pattern 32 x.scale.last)
  | _, _, _, some k, _, _, _ =>
    if chainCount p ≤ k then 0
    else
      let x := mget g.chain k {}
      pack [(0, 8, x.shown.compGr), (8, 8, x.limGr), (16, 1, b2n x.limAct), (17, 1, b2n (c.audioOnce && decide (x.mute.last = 0))),
        (18, 1, b2n x.shown.selFade), (19, 1, b2n x.shown.dlyFade), (24, 6, x.shown.pages)]
  | _, _, _, _, some m, _, _ =>
    let f := mget g.fir m {}
    pack [(0, 13, f.bank.len p), (13, 1, f.bank.mode), (14, 1, b2n f.ran),
      (15, 1, b2n (c.cmd.tack.any fun q => itemFam q.1 = 6 && itemEl q.1 = m))]
  | _, _, _, _, _, some m, _ => (mget g.fir m {}).bank.crc
  | _, _, _, _, _, _, some q =>
    match mget? g.pages q with
    | none => 0
    | some x =>
      let st := match x.st with | .filling => 1 | .owned => 2 | .releasing _ => 3
      pack [(0, 9, x.chain), (16, 6, x.order), (24, 2, st)]
  | _, _, _, _, _, _, _ => peekGraphHead c o

/-! Any register -/

/-- What the CSR at address `a` holds, without any side effect of a read. -/
def csrPeek (h : Hamper) (c : Chip) (a : Nat) : Word :=
  let o := a % 0x10000
  match (a - 0x50000000) / 0x10000 with
  | 0x00 => peekSys c o
  | 0x01 => peekBus c o
  | 0x02 => peekMem c o
  | 0x03 => peekErr c o
  | 0x04 => peekMbx c o
  | 0x05 => peekHost c o
  | 0x06 => peekLink h c 0 o
  | 0x07 => peekLink h c 1 o
  | 0x08 => peekDrop h c o
  | 0x09 => peekFlow c o
  | 0x0A => peekPtp c o
  | 0x0B => peekRef c o
  | 0x0C => peekSap c o
  | 0x0D => peekAin c o
  | 0x0E => peekMod c o
  | 0x0F => peekTwin c o
  | 0x10 => peekGraph c o
  | 0x11 => peekClk c o
  | _ => 0

/-! Reads that latch companions (95, LATCHING_READ) -/

def Chip.latchBlk (c : Chip) : Chip := c.onSys fun s => { s with blkHi := hi32 s.blk }
def Chip.latchLand (c : Chip) : Chip := c.onCmd fun d => { d with landHi := hi32 d.landed }
def Chip.latchZ (m : Nat) (c : Chip) : Chip := c.onMod m fun x => { x with zView := (x.z.phase, x.z.blk) }
def Chip.latchPtp (c : Chip) : Chip := c.onPtp fun p => { p with secView := p.time / 2 ^ 32 / 10 ^ 9 }
def Chip.latchFirst (c : Chip) : Chip := c.onErr fun e => { e with
  firstView := match e.first with | some r => (r.blk, r.detail) | none => (0, 0) }
def Chip.latchHead (c : Chip) : Chip := c.onErr fun e => { e with
  headView := match e.queue.head? with | some r => (r.blk, r.detail) | none => (0, 0), headSeq := e.queue.head?.map Rec.seq }

/-- The side effect of reading the CSR at `a`. -/
def Chip.csrTouch (master : Byte) (a : Nat) (c : Chip) : Chip :=
  match nth a 0x500E0200 4 64, nth a 0x50010100 4 32 with
  | some m, _ => c.latchZ m
  | _, some n => (c.lockRead master n).2
  | _, _ =>
    match a with
    | 0x50000010 => c.latchBlk
    | 0x50100004 => c.latchLand
    | 0x500A0000 => c.latchPtp
    | 0x50030004 => c.latchFirst
    | 0x50030020 => c.latchHead
    | _ => c

/-- A read of a CSR by a master that may make it. -/
def csrRead (master : Byte) (a : Nat) (h : Hamper) (c : Chip) : Word × Chip := (csrPeek h c a, c.csrTouch master a)

/-! Shared SRAM as it is read -/

/-- The job table's header and slots (13 R375), and the start-up record (19 R490), by address. -/
def Chip.tableWord (a : Nat) (c : Chip) : Option Word :=
  if a < 0x40780000 then none
  else if a < 0x40780020 then
    let d := c.cmd
    some (match (a - 0x40780000) / 4 with
      | 0 => 1 | 1 => 64 | 2 => d.taken | 3 => d.refusals | 4 => d.discards | 5 => d.full | 6 => w32 d.tack.length
      | _ => pack [(0, 1, b2n d.waiting.isSome), (1, 1, b2n (d.presses.any fun q => q.slot.isSome))])
  else if a < 0x40781000 then some 0
  else if a < 0x407C1000 then
    let j := c.job ((a - 0x40781000) / 0x1000)
    let i := a % 0x1000 / 4
    some (if i < 8 then j.words.getD i 0 else j.result.getD (i - 8) 0)
  else if a < 0x407C100C then some (c.boot.words.getD ((a - 0x407C1000) / 4) 0)
  else none

/-- A byte of a flow table copy (06 R169); the pieces of the area in which the copies lie are not given (log 31). -/
def Chip.flowByte (a : Nat) (c : Chip) : Option Byte :=
  if a < 0x40400000 ∨ 0x40440000 ≤ a then none
  else
    let piece := (a - 0x40400000) / 0x10000
    let at_ := (Config.flowPlace c.flow.exchanges).val
    let next := (Config.flowPlace (c.flow.exchanges + 1)).val
    if piece = at_ then some (c.flow.table.byte (a % 0x10000))
    else if piece = (if next = at_ then (at_ + 1) % 4 else next) then c.airingCopy.map fun t => t.byte (a % 0x10000)
    else none

/-- The rest of the flow-table area and the firmware's working areas, whose content the spec does not give (log 31). -/
def firmwareArea (a : Nat) : Bool :=
  (0x40400000 ≤ a && a < 0x40440000) || (0x407C100C ≤ a && a < 0x407E0000) || (0x407E8000 ≤ a && a < 0x40800000)

/-- The byte that a reader of a memory sees. -/
def Chip.viewByte (a : Nat) (c : Chip) : Byte :=
  let shown := c.cmd.ready || (0x407C1000 ≤ a && a < 0x407C100C)
  match c.tableWord (a - a % 4) with
  | some w => if shown then (leBytes 4 w.toNat).getD (a % 4) 0 else c.mem.bytes.byte a
  | none =>
    match (if c.cmd.ready then c.flowByte a else none) with
    | some b => b
    | none => if c.cmd.ready && firmwareArea a then BitVec.ofNat 8 (Config.freeWord (c.fresh * 2 ^ 32 + a)).toNat else c.mem.bytes.byte a

def Chip.viewBytes (a n : Nat) (c : Chip) : List Byte := (List.range n).map fun i => c.viewByte (a + i)

/-- A read of memory by a host or a SNAPSHOT (17 R451, R453): the bytes, or none where a word is uncorrectable. -/
def Chip.hostRead (master a n : Nat) (c : Chip) : Option (List Byte) × Chip :=
  let ws := eccWords a n
  let c := c.correct master ws
  match c.badWord ws with
  | some w => (none, c.ueRead master w 0x0213 .note 0)
  | none => (some (c.viewBytes a n), c)

end Sys2Proof.Machine
end

