-- ==== Sys2Proof/Machine/Csr.lean ====
section
/-! DEFINITION. Accesses: what a write does to each CSR, writes and reads of memory with their ECC rules (17 R455), the
BARs (15 R403, R404) and the SPI target (15 R410 to R412). -/

namespace Sys2Proof.Machine

/-! Writes of CSRs -/

/-- The bits of a write that clear, cut to a field. -/
def clr (v : Word) (lo w : Nat) : Nat := field v.toNat lo w

/-- A flag after a W1C write of bit i. -/
def w1c (v : Word) (i : Nat) (b : Bool) : Bool := b && !v.getLsbD i

def pokeSys (o : Nat) (v : Word) (c : Chip) : Chip :=
  match o with
  | 0x24 => c.onSys fun s => { s with engOverrun := s.engOverrun &&& ~~~(BitVec.ofNat 24 v.toNat) }
  | 0x34 => c.onSys fun s => { s with xqLatch := s.xqLatch &&& ~~~(BitVec.ofNat 19 v.toNat) }
  | _ => c

def pokeBus (master : Byte) (o : Nat) (v : Word) (c : Chip) : Bool × Chip :=
  match nth o 0x100 4 32 with
  | some n => c.lockWrite master n v
  | none =>
    match o with
    | 0x00 => (true, c.onBus fun b => { b with
        errSeen := w1c v 1 b.errSeen, timeoutSeen := w1c v 2 b.timeoutSeen, semSeen := w1c v 3 b.semSeen })
    | 0x04 => c.serviceWrite master (v.toNat % 65536)
    | 0x204 => (true, c.lockForce v)
    | _ => (true, c)

def pokeMem (o : Nat) (v : Word) (c : Chip) : Chip :=
  if o ≠ 0 then c
  else c.onMem fun m => { m with ceSeen := w1c v 0 m.ceSeen, ueSeen := w1c v 1 m.ueSeen, repeatSeen := w1c v 2 m.repeatSeen }

def pokeErr (o : Nat) (v : Word) (c : Chip) : Chip :=
  match o with
  | 0x00 =>
    let c := c.onErr fun e => { e with fatalSeen := w1c v 11 e.fatalSeen }
    if v.getLsbD 10 then c.clearOverflow else c
  | 0x30 => if v.getLsbD 0 then c.headAck else c
  | 0x34 =>
    let c := if v.getLsbD 0 then c.rearmBus else c
    if v.getLsbD 1 then c.rearmMem else c
  | _ => c

/-- MBX_CTRL: GO with LEN, ACK, CANCEL, each when its bit is written 1. Without GO the sender of an idle channel stores LEN;
while a message waits LEN stays its length, on which the spec is silent (log 75). -/
def Chip.mbxCtrlWrite (master : Byte) (k : Nat) (v : Word) (c : Chip) : Bool × Chip :=
  let both := fun (a : Bool × Chip) (f : Chip → Bool × Chip) => let r := f a.2; (a.1 && r.1, r.2)
  let x := c.mbxCh k
  if !x.valid then c.mbxRefuse master k 1 (mbxCtrl k)
  else if master ≠ x.sender ∧ master ≠ x.receiver then c.mbxRefuse master k 2 (mbxCtrl k)
  else
    let r : Bool × Chip := (true, c)
    let r := if v.getLsbD 9 then both r (Chip.mbxAck master k) else r
    let r := if v.getLsbD 10 then both r (Chip.mbxCancel master k) else r
    if v.getLsbD 8 then both r (Chip.mbxGo master k (v.toNat % 32))
    else if master = x.sender ∧ !x.go then (r.1, r.2.onMbxCh k fun x => { x with len := BitVec.ofNat 5 v.toNat })
    else r

/-- Doorbells and their masks belong to their receiver (15 R425). -/
def Chip.bellWrite (master : Byte) (i : Nat) (mask : Bool) (a : Nat) (v : Word) (c : Chip) : Bool × Chip :=
  if bellOf master ≠ some i ∧ !c.ownsAll master then (false, c.refuse master true 4 a 4)
  else if mask then (true, c.onMbx fun b => { b with masks := b.masks.set i v })
  else (true, c.onMbx fun b => { b with bells := lmod b.bells i (· &&& ~~~v) })

def pokeMbx (master : Byte) (o : Nat) (v : Word) (c : Chip) : Bool × Chip :=
  if 0x1000 ≤ o ∧ o < 0x2000 then
    let k := (o - 0x1000) / 0x100
    match nth (o % 0x100) 0 4 16 with
    | some i => c.mbxMsg master k i v
    | none => if o % 0x100 = 0x40 then c.mbxCtrlWrite master k v else (true, c)
  else if 0x2000 ≤ o ∧ o < 0x21C0 then
    let i := (o - 0x2000) / 0x10
    match o % 0x10 with
    | 0 => c.bellWrite master i false (0x50040000 + o) v
    | 4 => c.bellWrite master i true (0x50040000 + o) v
    | 8 => (true, c.ringWrite16 i v)
    | _ => (true, c)
  else match nth o 0 4 16 with
    | some k => c.mbxBind master k v
    | none =>
      match o with
      | 0x40 => (true, if v.getLsbD 0 then c.onMbx fun b => { b with locked := true } else c)
      | 0x44 => if v.toNat % 65536 = 0 then (false, c.refuse master true 4 0x50040044 4)
          else (true, c.onMbx fun b => { b with crossWait := BitVec.ofNat 16 v.toNat })
      | 0x48 => (true, c.onMbx fun b => { b with accessErr := w1c v 16 b.accessErr })
      | _ => (true, c)

def pokeHost (master : Byte) (o : Nat) (v : Word) (c : Chip) : Bool × Chip :=
  if 0x1000 ≤ o ∧ o < 0x1200 then
    -- bits [31:1] of Vector Control are reserved
    let w := o % 16 / 4
    let v := if w = 3 then v &&& 1 else v
    (true, c.onHost fun h => { h with msix := lmod h.msix ((o - 0x1000) / 16) fun e => e.set w v })
  else match o with
    | 0x00 => (true, c.onHost fun h => { h with
        reqIdxErr := w1c v 8 h.reqIdxErr, rplIdxErr := w1c v 9 h.rplIdxErr, resetSeen := w1c v 10 h.resetSeen })
    | 0x14 => c.reqProdWrite master (BitVec.ofNat 16 v.toNat)
    | 0x28 => c.rplConsWrite master (BitVec.ofNat 16 v.toNat)
    | 0x40 => (true, c.irqClear v)
    | 0x48 => (true, c.onHost fun h => { h with spiIrqEn := v })
    | 0x4C => (true, c.onHost fun h => { h with tickDiv := BitVec.ofNat 16 v.toNat })
    | _ => (true, c)

/-- LINK_STATUS, LINK_CTRL and LINK_HASH of MAC m; the hamper flags of LINKA. -/
def pokeLink (m o : Nat) (v : Word) (c : Chip) : Chip :=
  match nth o 0x40 4 16 with
  | some n => c.onMac m fun x => { x with hash := x.hash.set n v }
  | none =>
    match o with
    | 0x00 => c.onMac m fun x => { x with change := w1c v 7 x.change }
    | 0x10 =>
      let c := if v.getLsbD 0 ≠ (c.mac m).portEn then c.linkEnable m (v.getLsbD 0) else c
      c.onMac m fun x => { x with txDisable := v.getLsbD 1 }
    | 0x808 => if m = 0 then c.onDrop fun d => { d with
        hamperErr := w1c v 0 d.hamperErr, badReturnSeen := w1c v 1 d.badReturnSeen, truncSeen := w1c v 2 d.truncSeen } else c
    | _ => c

def pokeDrop (o : Nat) (v : Word) (c : Chip) : Chip :=
  match nth o 0x40 4 16 with
  | some n => c.onMac 2 fun x => { x with hash := x.hash.set n v }
  | none =>
    match o with
    | 0x00 => c.onDrop fun d => { d with collSeen := w1c v 8 d.collSeen }
    | 0x10 => if v.getLsbD 0 ≠ (c.mac 2).portEn then c.dropEnable (v.getLsbD 0) else c
    | _ => c

def pokePtp (o : Nat) (v : Word) (c : Chip) : Chip :=
  match nth o 0x100 0x20 3 with
  | some m => c.onPtp fun p => { p with lostSeen := lmod p.lostSeen m (w1c v 16) }
  | none => if o = 0x160 then c.onPtp fun p => { p with ledgerErr := p.ledgerErr.mapIdx fun m e => (w1c v m e.1, e.2) } else c

def pokeSap (o : Nat) (v : Word) (c : Chip) : Chip :=
  match nth o 0 0x400 16 with
  | some p => c.onSap fun s => { s with ports := lmod s.ports p fun x => { x with
      nonaudioSeen := w1c v 5 x.nonaudioSeen, zcSeen := w1c v 6 x.zcSeen } }
  | none => c

def pokeAin (o : Nat) (v : Word) (c : Chip) : Chip :=
  match nth o 0 4 16 with
  | some n => c.onAinIn n fun x => { x with biasOvl := w1c v 18 x.biasOvl }
  | none => if o = 0x80 then c.onAin fun a => { a with event := a.event &&& ~~~v } else c

def pokeMod (o : Nat) (v : Word) (c : Chip) : Chip :=
  match nth o 0x100 4 64 with
  | some m => c.onMod m fun x => { x with clipSeen := w1c v 14 x.clipSeen }
  | none =>
    match o with
    | 0x00 => c.onPow fun p => { p with clkErrSeen := w1c v 5 p.clkErrSeen }
    | 0x08 => c.onPow fun p => { p with trip := p.trip &&& ~~~(BitVec.ofNat 64 v.toNat) }
    | 0x0C => c.onPow fun p => { p with trip := p.trip &&& ~~~(BitVec.ofNat 64 (v.toNat * 2 ^ 32)) }
    | _ => c

def pokeTwin (o : Nat) (v : Word) (c : Chip) : Chip :=
  match o with
  | 0x00 => c.onTwin fun t => { t with mendIncomplete := w1c v 10 t.mendIncomplete, roleChange := w1c v 11 t.roleChange }
  | 0x80 => c.onTwin fun t => { t with healthSeen := packBits 8 fun i => t.healthSeen.testBit i && !v.getLsbD (8 + i) }
  | _ => c

def pokeGraph (o : Nat) (v : Word) (c : Chip) : Chip :=
  match o with
  | 0x00 => c.onGraph fun g => { g with ledgerErr := w1c v 4 g.ledgerErr }
  | 0x120 => c.onGraph fun g => { g with credErr := g.credErr &&& ~~~(BitVec.ofNat 8 v.toNat) }
  | 0x800 => c.onGraph fun g => { g with
      failSeen := w1c v 16 g.failSeen, poisonSeen := w1c v 17 g.poisonSeen, stateCleared := w1c v 18 g.stateCleared }
  | _ => c

/-- A write of a CSR by a master that may make it; the flag tells whether the block itself took it. Read-only fields and
reserved registers ignore it (16 R433). -/
def csrPoke (master : Byte) (a : Nat) (v : Word) (c : Chip) : Bool × Chip :=
  let o := a % 0x10000
  match (a - 0x50000000) / 0x10000 with
  | 0x00 => (true, pokeSys o v c)
  | 0x01 => pokeBus master o v c
  | 0x02 => (true, pokeMem o v c)
  | 0x03 => (true, pokeErr o v c)
  | 0x04 => pokeMbx master o v c
  | 0x05 => pokeHost master o v c
  | 0x06 => (true, pokeLink 0 o v c)
  | 0x07 => (true, pokeLink 1 o v c)
  | 0x08 => (true, pokeDrop o v c)
  | 0x09 => (true, if o = 0 then c.onFlow fun u => { u with
      tableErr := w1c v 3 u.tableErr, offsetDiff := w1c v 8 u.offsetDiff } else c)
  | 0x0A => (true, pokePtp o v c)
  | 0x0B => (true, if o = 0 then c.onRef fun r => { r with stateChange := w1c v 12 r.stateChange } else c)
  | 0x0C => (true, pokeSap o v c)
  | 0x0D => (true, pokeAin o v c)
  | 0x0E => (true, pokeMod o v c)
  | 0x0F => (true, pokeTwin o v c)
  | 0x10 => (true, pokeGraph o v c)
  | 0x11 => (true, if o = 0 then { c with clock := { c.clock with
      modUnlockSeen := w1c v 3 c.clock.modUnlockSeen, mediaErrSeen := w1c v 4 c.clock.mediaErrSeen } } else c)
  | _ => (true, c)

/-! Writes of memory -/

/-- The bytes of a write to the delay store window: bits 63:40 of an entry are ignored and stay 0 (02 R40). -/
def entryBytes (a : Nat) (bs : List Byte) : List Byte :=
  if targetIndex a = 27 then bs.mapIdx fun i b => if 5 ≤ (a + i) % 8 then 0 else b else bs

/-- A write of memory by a master that may make it. -/
def Chip.memStore (master : Byte) (a : Nat) (bs : List Byte) (c : Chip) : Bool × Chip :=
  let bs := entryBytes a bs
  if isHost master then c.hostStore master.toNat a bs else c.innerStore master a bs

/-- A write anywhere: refused and logged, or made; the flag tells whether it was made. -/
def Chip.busWrite (master : Byte) (a : Nat) (bs : List Byte) (c : Chip) : Bool × Chip :=
  match c.busCause master true a bs.length with
  | some k => (false, c.refuse master true bs.length a k)
  | none =>
    if targetIndex a = 29 then csrPoke master a (BitVec.ofNat 32 (ofLe bs)) c
    else
      let r := c.memStore master a bs
      (r.1, if !r.1 && master = 0x40 then r.2.onHost fun h => { h with aerAbort := true } else r.2)

/-- A read anywhere by a host: the bytes, or an error response. -/
def busRead (master : Byte) (a n : Nat) (p : Hamper × Chip) : Option (List Byte) × Chip :=
  let c := p.2
  match c.busCause master false a n with
  | some k => (none, c.refuse master false n a k)
  | none =>
    if targetIndex a = 29 then let r := csrRead master a p.1 c; (some (leBytes 4 r.1.toNat), r.2)
    else
      let r := c.hostRead master.toNat a n
      (r.1, if r.1.isNone && master = 0x40 then r.2.onHost fun h => { h with aerAbort := true } else r.2)

/-! Rows -/

/-- A write of a register that has no row of its own, by any master. -/
def execCsrWrite (master : Byte) (addr value : Word) (s : State) : Host.Outcome State Fault Refusal :=
  act (fun c =>
    let r := c.busWrite master addr.toNat (leBytes 4 value.toNat)
    r.2.reportWrite master addr.toNat c.spiStatusByte r.1) s

def latchAddr : LatchReg → Nat
  | .blkLo => 0x50000010 | .landLo => 0x50100004 | .zMag m => 0x500E0200 + 4 * m.val | .ptpNs => 0x500A0000
  | .errFirst => 0x50030004 | .errHead => 0x50030020

/-- A read of a register that latches its companions. -/
def execLatchingRead (master : Byte) (r : LatchReg) (s : State) : Host.Outcome State Fault Refusal :=
  actHam (fun p =>
    let a := latchAddr r
    match p.2.csrCause master false a 4 with
    | some k => (p.1, (p.2.refuse master false 4 a k).emit (.busRead (refusedRead master)))
    | none => let q := csrRead master a p.1 p.2; (p.1, q.2.emit (.busRead (some q.1)))) s

/-- The address that a BAR offset reaches (15 R403); none where the BAR ends. -/
def barAddr (bar2 : Bool) (o : Nat) : Option Nat :=
  if 0x4000000 ≤ o then none
  else if bar2 then some (0x30000000 + o)
  else if o < 0x1000000 then some (0x40000000 + o)
  else some (0x50000000 + (o - 0x1000000))

/-- A write of shared SRAM or of the delay store window with some bytes not enabled; a CSR takes whole words alone (15 R404). -/
def Chip.busWritePart (a : Nat) (bs : List (Option Byte)) (c : Chip) : Bool × Chip :=
  let t := targetIndex a
  let cause :=
    if t = 29 then some 3
    else if targetIndex (a + (bs.length - 1)) ≠ t then some 2
    else (bs.zipIdx.filter fun q => q.1.isSome).findSome? fun q => c.memCause 0x40 true (a + q.2) 1
  match cause with
  | some k => (false, c.refuse 0x40 true bs.length a k)
  | none =>
    let r := c.hostStorePart 0x40 a (bs.mapIdx fun i b => if noBits (a + i) then b.map fun _ => 0 else b)
    (r.1, if r.1 then r.2 else r.2.onHost fun h => { h with aerAbort := true })

/-- A host access through a BAR; a locked request, and any to a function in D3hot, is unsupported (16 R439, log 28). While
XQ_18 is source silent no completion crosses: the link partner sees a time-out (01 R14). -/
def execBarAccess (req : BarReq) (s : State) : Host.Outcome State Fault Refusal :=
  actHam (fun p =>
    match barAddr req.bar2 req.offset with
    | none => p
    | some a =>
      let c := p.2.strike req.upsets
      if req.locked || c.host.d3hot then (p.1, if c.sys.xqSilent.getLsbD 18 then c else c.emit .unsupported)
      else if req.write then
        let bs := req.data.take req.size
        let r := if req.off.isEmpty then c.busWrite 0x40 a bs
          else c.busWritePart a (bs.mapIdx fun i b => if req.off.contains i then none else some b)
        (p.1, r.2.emit (.posted r.1))
      else
        let r := busRead 0x40 a req.size (p.1, c)
        (p.1, if c.sys.xqSilent.getLsbD 18 then r.2 else r.2.emit (.completion r.1))) s

/-! The SPI target (15 R410 to R412) -/

/-- A transaction with its opcode: `f` gives what is shifted out after the status byte and whether ERR is set. -/
def spiTransaction (op : Byte) (f : Hamper × Chip → List Byte × Bool × Chip) (s : State) : Host.Outcome State Fault Refusal :=
  actHam (fun p =>
    let st := p.2.spiStatusByte
    let r := f (p.1, p.2.onHost fun h => { h with spiLast := st })
    let c := r.2.2.spiClose op r.2.1
    (p.1, c.emit (.spi (st :: r.1)))) s

/-- Whole words of a WRITE from address a on. -/
def spiWriteWords (a : Nat) : List Word → Bool × Chip → Bool × Chip
  | [], r => r
  | w :: ws, r =>
    let q := r.2.busWrite 0x41 a (leBytes 4 w.toNat)
    spiWriteWords (a + 4) ws (r.1 || !q.1, if q.1 then q.2 else q.2.spiFailAt a)

/-- WRITE; an address that is not aligned fails. -/
def execSpiWrite (addr : Word) (bytes : List Byte) (upsets : List Upset) (s : State) : Host.Outcome State Fault Refusal :=
  spiTransaction 0x02 (fun p =>
    let c := p.2.strike upsets
    if addr.toNat % 4 ≠ 0 then ([], true, c.spiFailAt addr.toNat)
    else
      let r := spiWriteWords addr.toNat (bytesWords bytes) (false, c)
      ([], r.1 || bytes.length % 4 ≠ 0, r.2)) s

/-- Reads words from address a on, one for each flag, which tells that its read had not completed when it was due: their
values and the part. -/
def spiReadWords (h : Hamper) : List Bool → Nat → Chip → List (Option Word) × Chip
  | [], _, c => ([], c)
  | late :: ls, a, c =>
    let r := busRead 0x41 a 4 (h, c)
    let v := if late then none else r.1
    let q := spiReadWords h ls (a + 4) (if v.isSome then r.2 else r.2.spiFailAt a)
    (v.map (fun bs => BitVec.ofNat 32 (ofLe bs)) :: q.1, q.2)

/-- READ: the marker, then the words; filler bytes are timing and are not shown (log 32). `late`: words that had not been read
when they were due, the first one after 64 filler bytes. -/
def execSpiRead (addr : Word) (words : Nat) (late : List Bool) (upsets : List Upset) (s : State) : Host.Outcome State Fault Refusal :=
  spiTransaction 0x03 (fun p =>
    let c := p.2.strike upsets
    if addr.toNat % 4 ≠ 0 then ([0x3C], true, c.spiFailAt addr.toNat)
    else
      let r := spiReadWords p.1 ((List.range words).map fun i => late.getD i false) addr.toNat c
      match r.1 with
      | [] => ([], false, r.2)
      | v :: _ =>
        let marker : Byte := if v.isSome then 0x5A else 0x3C
        (marker :: wordBytes (r.1.map fun x => x.getD 0xFFFFFFFF), r.1.any Option.isNone, r.2)) s

/-- STATUS: the status byte, repeated. -/
def execSpiStatus (count : Nat) (s : State) : Host.Outcome State Fault Refusal :=
  spiTransaction 0x05 (fun p => (List.replicate count p.2.host.spiLast, false, p.2)) s

/-- CMD_PUT; one whose byte count is wrong enters as well and is answered BAD_LENGTH. -/
def execCmdPut (bytes : List Byte) (s : State) : Host.Outcome State Fault Refusal :=
  spiTransaction 0x10 (fun p =>
    let c := p.2
    if !c.spiReady then ([], true, c)
    else
      let pkt : Pkt := { via := .spi, words := bytesWords (bytes.take 256), bytes := bytes.length }
      ([], false, (c.onHost fun h => { h with spiOwed := h.spiOwed + 1 }).enterStream pkt)) s

/-- RPL_GET: `count` bytes are shifted out; a reply cut short stays. -/
def execRplGet (count : Nat) (s : State) : Host.Outcome State Fault Refusal :=
  spiTransaction 0x11 (fun p =>
    match p.2.host.spiReplies with
    | [] => (List.replicate count 0xFF, false, p.2)
    | ws :: rest =>
      let bs := wordBytes ws
      (bs.take count, false, if bs.length ≤ count then p.2.onHost fun h => { h with spiReplies := rest } else p.2)) s

/-- An opcode that is not in the table. -/
def execSpiUnknownOpcode (op : Byte) (s : State) : Host.Outcome State Fault Refusal :=
  spiTransaction op (fun p =>
    if [0x02, 0x03, 0x05, 0x10, 0x11].contains op then ([], false, p.2) else ([], true, p.2)) s

end Sys2Proof.Machine
end

