-- ==== Sys2Proof/Machine/Reply.lean ====
section
/-! DEFINITION. What every command shares: its reply (13 R360, R361), the checks of its role (13 R359 checks 6 and 7,
R362; 12 R330, R331) and its way over the twin link. -/

namespace Sys2Proof.Machine

/-- Status codes (13 R361). -/
def stDone : Nat := 0x00
def stStarted : Nat := 0x01
def stPending : Nat := 0x02
def stBadOpcode : Nat := 0x10
def stBadLength : Nat := 0x11
def stBadItem : Nat := 0x12
def stRange : Nat := 0x13
def stNotPermitted : Nat := 0x14
def stNotLead : Nat := 0x15
def stBusy : Nat := 0x16
def stLate : Nat := 0x17
def stLevel : Nat := 0x18
def stNoResource : Nat := 0x19
def stAuth : Nat := 0x1A
def stCheck : Nat := 0x20
def stInternal : Nat := 0x30

/-- A reply before its header: status, result words, and the job slot it names. -/
structure Rep where
  status : Nat := 0
  ws : List Word := []
  job : Option Nat := none
  deriving DecidableEq, Repr

/-- A refusal without result words. -/
def refusal (status : Nat) : Option Rep := some { status := status }
def done (ws : List Word) : Option Rep := some { ws := ws }

/-- The words of a reply; a job that lives on the lead is the peer's to the unit that forwarded its command (13 R362). -/
def Chip.repWords (opcode : Nat) (h : Hdr) (r : Rep) (c : Chip) : List Word :=
  let w2 := match r.job with
    | some k => 64 * b2n h.forwarded + 128 + k % 64 * 256 + (c.job k).seq.toNat * 65536
    | none => 0
  replyWords opcode r.status h.tag.toNat c.boot.peg.toNat w2 r.ws

/-- A reply of 0x10 or above is counted where it leaves (13 R375). -/
def Chip.countRefusal (words : List Word) (c : Chip) : Chip :=
  if 0x10 ≤ field (words.getD 0 0).toNat 16 8 then c.onCmd fun d => { d with refusals := d.refusals + 1 } else c

/-- Sends the words of a reply: over the twin link when the command was forwarded, else on its transport. -/
def Chip.replyOut (h : Hdr) (gen : Nat) (words : List Word) (c : Chip) : Chip :=
  if h.forwarded then c.onTwin fun t => { t with mirror := t.mirror ++ [.reply h words] }
  else (c.countRefusal words).sendReply h.via gen h.session words

/-- Replies to a command; INTERNAL raises the FAULT 0x0030 (13 R361). -/
def Chip.answer (h : Hdr) (gen opcode : Nat) (r : Rep) (c : Chip) : Chip :=
  let c := if r.status = stInternal then c.raise 0x0030 .fault (opcode + h.tag.toNat % 65536 * 65536) else c
  c.replyOut h gen (c.repWords opcode h r)

/-! The role (12 R330, R331; 13 R362) -/

/-- Opcodes that PEER may carry. -/
def peerOp (op : Nat) : Bool := op = 0x0200 || op = 0x0201 || op = 0x0202 || op = 0x0300 || op = 0x0301 || op = 0x0302

/-- Opcodes that a standby forwards whole, and those that it both executes and forwards. -/
def forwardOp (op : Nat) : Bool := op = 0x0103 || op = 0x0104 || op = 0x0B00 || op = 0x0600 || op = 0x0801
def bothOp (op : Nat) : Bool := op = 0x0102 || op = 0x0106

/-- The commands of a standby's host go to the lead (12 R330, R347). -/
def Chip.forwards (c : Chip) : Bool := (c.isStandby || c.twin.role = .orphan) && !c.twin.unmatched

/-- A command that would be forwarded is refused: path T has failed, or the unit is an ORPHAN without FORCE (12 R331). -/
def Chip.cannotForward (h : Hdr) (c : Chip) : Bool :=
  (c.isStandby && !c.twin.pathT) || (c.twin.role = .orphan && !h.force)

/-- An ORPHAN executes a forced command itself. -/
def Chip.ownCommand (h : Hdr) (c : Chip) : Bool := h.forwarded || !c.forwards || (c.twin.role = .orphan && h.force)

/-- Sends a command over the twin link and waits for the peer's reply. -/
def Chip.forward (opcode : Nat) (h : Hdr) (gen : Nat) (sent kept : List Word) (count : Bool) (c : Chip) : Chip :=
  (c.onTwin fun t => { t with
    forwarded := if count then t.forwarded + 1 else t.forwarded
    mirror := t.mirror ++ [.command (BitVec.ofNat 16 opcode) { h with forwarded := true } sent] }).onCmd fun d => { d with
      awaits := d.awaits ++ [{ opcode := opcode, hdr := h, params := kept, reply := true, generation := gen }] }

/-- Check 6 (13 R362). -/
def Chip.peerCheck (opcode : Nat) (c : Chip) : Option Nat :=
  if !peerOp opcode then some stNotPermitted
  else if !c.paired || c.twin.unmatched then some stNotPermitted
  else if !c.twin.pathT then some stNotLead
  else none

/-- The reply to a command that fails before its handler: a press names no item, a TACK_SET the first triple that needed the
lead (14 R387). -/
def lostRep (opcode : Nat) (params : List Word) (status : Nat) : Rep :=
  let ids := (List.range (params.length / 3)).map fun i => params.getD (3 * i) 0
  let ws :=
    if opcode = 0x0103 ∨ opcode = 0x0104 then [0]
    else if opcode = 0x0100 then match ids.zipIdx.find? fun q => itemMirrored q.1.toNat with
      | some q => [w32 q.2, q.1]
      | none => []
    else []
  { status := status, ws := ws }

/-- The part of a command from check 6 on (13 R359): `run` is the opcode's own handler, which answers none when its
reply comes later. A PROFILE_SET that came through a standby leaves what is tacked there tacked (log 90). -/
def Chip.order (opcode : Nat) (h : Hdr) (gen : Nat) (params : List Word) (run : Chip → Option Rep × Chip) (c : Chip) : Chip :=
  let go := fun (c : Chip) =>
    if c.cmd.fails then (c.onCmd fun d => { d with fails := false }).answer h gen opcode (lostRep opcode [] stInternal)
    else match run c with
      | (some r, c) => c.answer h gen opcode r
      | (none, c) => c
  if h.forwarded then go c
  else if h.peer then
    match c.peerCheck opcode with
    | some st => c.answer h gen opcode { status := st }
    | none => c.forward opcode { h with peer := false } gen params params false
  else if c.ownCommand h then go c
  else if forwardOp opcode || bothOp opcode then
    if c.cannotForward h then c.answer h gen opcode (lostRep opcode params stNotLead)
    else if bothOp opcode then go c
    else
      let c := if opcode = 0x0103 ∨ opcode = 0x0104 ∨ opcode = 0x0B00 then c.onCmd fun d => { d with joins := opcode ≠ 0x0B00 } else c
      c.forward opcode h gen params params true
  else go c

/-! A command that comes on its own (one row for each opcode) -/

/-- The command can have come on the transport, which can carry its reply now (15 R408, R412, R420); management frames are
taken while system.mgmt_enable is 1, in an open session or, for SESSION_OPEN, in session 0 (06 R178, 14 R384). -/
def Chip.canReply (opcode : Nat) (via : Transport) (session : BitVec 16) (c : Chip) : Bool :=
  match via with
  | .pcie => c.pcieLoad < 64
  | .spi => c.spiLoad < 4
  | .mbx k => (c.replyChannel (c.mbxCh k.val).sender).isSome
  | _ => c.sysIt 0x15 = 1 && ((c.sessionOf session).isSome || (session = 0 && opcode = 0x0C01))

/-- The CMD core is free to take a command (13 R356): none waits for the twin, and no SNAPSHOT for its reply. -/
def Chip.cmdFree (c : Chip) : Bool := c.takesPackets && !c.err.traps 0x01 && c.cmd.awaits.isEmpty && !(c.cmd.snaps.any fun q => q.slot.isNone)

/-- The frames that a MAC still has to send leave before the part resets itself (14 R399). -/
def Chip.flushFrames (m : Nat) (c : Chip) : Chip :=
  let x := c.mac m
  let rest := x.sending.toList.map (fun q => q.2.bytes) ++ x.tx.flatMap fun t => t.queue.map fun f => f.bytes
  rest.foldl (fun c bs => c.emit (.frame m bs)) c

/-- IMAGE_ACTIVATE with NOW resets the part once the reply has left. -/
def reboot (p : Hamper × Chip) : Hamper × Chip :=
  if p.2.boot.resetDue then restart (p.1, ((p.2.flushFrames 0).flushFrames 1).flushFrames 2 |>.settle) else p

/-- In HALT the ROM serves these opcodes only (19 R505). -/
def haltOp (op : Nat) : Bool := op = 0x0001 || op = 0x0002 || op = 0x0C00 || op = 0x0900 || op = 0x0901 || op = 0x0902

/-- Whether an opcode is listed and its parameter words fit its layout; none is an opcode the catalogue does not list
(13 R359 checks 4 and 5, 14 R383). -/
def layoutFits (opcode : Nat) (params : List Word) : Option Bool :=
  let n := params.length
  let fix := fun k => some (decide (n = k))
  match opcode with
  | 0x0001 => fix 1
  | 0x0002 | 0x0102 | 0x0103 | 0x0301 | 0x0600 | 0x0701 | 0x0801 | 0x0802 | 0x0A02 | 0x0C00 => fix 0
  | 0x0100 => some (1 ≤ n && n ≤ 60 && n % 3 = 0)
  | 0x0101 => some (1 ≤ n && n ≤ 20)
  | 0x0105 => some (1 ≤ n && n ≤ 29)
  | 0x0104 => fix 2
  | 0x0106 | 0x0200 | 0x0500 | 0x0503 | 0x0700 | 0x0901 | 0x0902 => fix 1
  | 0x0201 | 0x0302 | 0x0501 | 0x0A01 | 0x0B00 => fix 3
  | 0x0202 | 0x0400 | 0x0502 | 0x0800 | 0x0A00 => fix 2
  | 0x0300 =>
    let r := (params.getD 0 0).toNat
    some (1 ≤ r && r ≤ 29 && n = 1 + 2 * r)
  | 0x0401 | 0x0C01 => fix 4
  | 0x0900 => some (3 ≤ n && n ≤ 60)
  | _ => none

/-- In HALT, and before the part serves commands. -/
def Chip.serves (opcode : Nat) (c : Chip) : Bool := if c.boot.stage = .halt then haltOp opcode else true

/-- The header of a command from a host: only the twin link carries forwarded ones. -/
def hostHdr (h : Hdr) : Hdr := { h with forwarded := false }

/-- A packet is taken from the stream (13 R375). -/
def Chip.takes (c : Chip) : Chip := c.onCmd fun d => { d with taken := d.taken + 1 }

/-- A command of the named opcode is taken: nothing while the CMD core is not free, or where its transport could not carry
the reply. -/
def command (opcode : Nat) (h : Hdr) (params : List Word) (run : Chip → Option Rep × Chip) (s : State) :
    Host.Outcome State Fault Refusal :=
  actHam (fun p =>
    let c := p.2
    if !c.cmdFree || !c.canReply opcode h.via h.session then p
    else
      let c := c.takes
      let c := match c.sessionOf h.session with
        | some z => c.onFlow fun u => { u with replyTo := z.peer }
        | none => c
      let c := c.onHost fun u => { u with
        owed := if h.via = .pcie then u.owed + 1 else u.owed, spiOwed := if h.via = .spi then u.spiOwed + 1 else u.spiOwed }
      let c :=
        if !c.serves opcode then c.answer (hostHdr h) c.host.generation opcode { status := stBadOpcode }
        else if layoutFits opcode params ≠ some true then c.answer (hostHdr h) c.host.generation opcode { status := stBadLength }
        else c.order opcode (hostHdr h) c.host.generation params run
      reboot (p.1, c)) s

end Sys2Proof.Machine
end

