-- ==== Sys2Proof/Machine/Tack.lean ====
section
/-! DEFINITION. The tack set (13 R364 to R366; 14 R387, R388): TACK_SET, TACK_GET, TACK_CLEAR, TACK_LIST and PRESSED_GET. -/

namespace Sys2Proof.Machine

/-! Items of the array filters (04 R121, R125) -/

/-- The filter that a fir item belongs to, and the entry that stands for its exchange. -/
def firOf (id : Nat) : Option Nat :=
  if itemFam id ≠ 6 then none else some (if itemEl id < 64 then itemEl id else (itemEl id - 0x100) / 4)
def firEntry (m : Nat) : Nat := item 6 m 0

/-- The position of a coefficient item. -/
def firIndex (id : Nat) : Nat := itemEl id % 4 * 1024 + itemField id

/-- The value of a fir item in a bank, and the bank with it. -/
def FirBank.get (b : FirBank) (id : Nat) : Int :=
  if 64 ≤ itemEl id then b.coefAt (firIndex id)
  else match itemField id with
    | 1 => b.mode | 2 => b.length | 3 => b.blocks | 4 => b.shape | _ => 0
def FirBank.put (b : FirBank) (id : Nat) (v : Int) : FirBank :=
  if 64 ≤ itemEl id then
    let i := firIndex id
    { b with coef := if v = (if i = 0 then 0x40000000 else 0) then mdel b.coef i else mset b.coef i v }
  else match itemField id with
    | 1 => { b with mode := v.toNat } | 2 => { b with length := v.toNat }
    | 3 => { b with blocks := v.toNat } | 4 => { b with shape := v.toNat } | _ => b

/-- The items of a whole bank, but for coefficients at their default. -/
def FirBank.items (m : Nat) (b : FirBank) : List (Nat × Int) :=
  [(item 6 m 1, (b.mode : Int)), (item 6 m 2, (b.length : Int)), (item 6 m 3, (b.blocks : Int)), (item 6 m 4, (b.shape : Int))] ++
    b.coef.map fun q => (item 6 (0x100 + m * 4 + q.1 / 1024) (q.1 % 1024), q.2)

def Chip.fir (m : Nat) (c : Chip) : FirSt := mget c.graph.fir m {}
def Chip.onFir (m : Nat) (f : FirSt → FirSt) (c : Chip) : Chip := c.onGraph fun g => { g with fir := mmod g.fir m {} f }

/-! The set -/

/-- The tacked value of an item, and the set with it. -/
def tacked? (l : List (Nat × Int)) (id : Nat) : Option Int := (l.find? fun q => q.1 = id).map Prod.snd
def tackPut (l : List (Nat × Int)) (id : Nat) (v : Int) : List (Nat × Int) :=
  if l.any fun q => q.1 = id then l.map fun q => if q.1 = id then (id, v) else q else l ++ [(id, v)]

/-- The key under which an item stands in the set. -/
def tackKey (id : Nat) : Nat := match firOf id with | some m => firEntry m | none => id

/-- The tack set is held by a press that waits: one that is PENDING here or on the lead (13 R369). -/
def Chip.pressPending (c : Chip) : Bool := c.cmd.waiting.isSome || c.cmd.joins

/-- The profile that a tack is checked against (05 R134). -/
def Chip.tackProfile (c : Chip) : Profile := match c.cmd.cold with | some k => k.profile | none => c.prof

/-- Item values that will be in force at the next landing, every accepted press included (13 R365). -/
def Chip.nextItems (c : Chip) : Items :=
  let m := c.itemsAt (2 ^ 64)
  match c.cmd.cold with
  | some k => clampDelays k.profile (setItems m k.items)
  | none => m

/-- The checks of one pair by itself: BAD_ITEM, the type and the range (13 R364, R365; 00 R9). -/
def readItem (p : Profile) (id : Nat) (raw : Dword) : Except Nat Int :=
  match itemSpec p id with
  | none => .error stBadItem
  | some s => match itemRead s raw with
    | none => .error stRange
    | some v => if s.lo ≤ v ∧ v ≤ s.hi ∧ itemExtra p id v then .ok v else .error stRange

/-- The relations that a tack checks: out.delay (04 R113), flow.base and flow.channels (06 R147). -/
def tackRelation (p : Profile) (view : Items) (id : Nat) : Bool :=
  let el := itemEl id
  match itemFam id with
  | 5 => itemField id ≠ 0x11 || decide (itemIn view id ≤ itemIn view (item 5 el 0x10))
  | 8 => (itemField id ≠ 3 && itemField id ≠ 4) || ctxFits p view el
  | _ => true

/-- The first failing pair of a packet, with its position, and the values otherwise. -/
def Chip.tackCheck (pairs : List (Word × Dword)) (mine : Nat → Bool) (c : Chip) : Except (Nat × Nat × Nat) (List (Nat × Int)) :=
  let p := c.tackProfile
  let read := pairs.map fun q => (q.1.toNat, readItem p q.1.toNat q.2)
  let good := read.filterMap fun q => match q.2 with | .ok v => some (q.1, v) | .error _ => none
  let view := setItems (setItems c.nextItems (c.cmd.tack.filter fun q => itemFam q.1 ≠ 6))
    (good.filter fun q => mine q.1 && itemFam q.1 ≠ 6)
  let room := fun (before : List Nat) (id : Nat) =>
    (tacked? c.cmd.tack (tackKey id)).isSome || before.contains (tackKey id) || c.cmd.tack.length + before.length < 4096
  let step := fun (a : Except (Nat × Nat × Nat) (List Nat)) (x : (Nat × Except Nat Int) × Nat) =>
    match a with
    | .error e => .error e
    | .ok before =>
      let id := x.1.1
      match x.1.2 with
      | .error st => .error (st, x.2, id)
      | .ok _ =>
        if !mine id then .ok before
        else if !tackRelation p view id then .error (stRange, x.2, id)
        else if (match firOf id with | some m => (c.fir m).busy | none => false) then .error (stBusy, x.2, id)
        else if !room before id then .error (stNoResource, x.2, id)
        else .ok (if (tacked? c.cmd.tack (tackKey id)).isSome || before.contains (tackKey id) then before else tackKey id :: before)
  match read.zipIdx.foldl step (.ok []) with
  | .error e => .error e
  | .ok _ => .ok good

/-- Tacks one item. The first fir item of a filter copies the pressed bank into the shadow bank (04 R121). -/
def Chip.tackOne (c : Chip) (q : Nat × Int) : Chip :=
  match firOf q.1 with
  | none => c.onCmd fun d => { d with tack := tackPut d.tack q.1 q.2 }
  | some m =>
    let first := (tacked? c.cmd.tack (firEntry m)).isNone
    (c.onFir m fun f => { f with shadow := (if first then f.bank else f.shadow).put q.1 q.2 }).onCmd fun d => { d with
      tack := tackPut d.tack (firEntry m) 0 }

/-- A refused TACK_SET names the position and the item ID of the first failing triple (14 R387). -/
def tackRefused (e : Nat × Nat × Nat) : Option Rep := some { status := e.1, ws := [w32 e.2.1, w32 e.2.2] }

/-- TACK_SET on this unit (13 R365). -/
def Chip.tackSet (pairs : List (Word × Dword)) (c : Chip) : Option Rep × Chip :=
  if c.pressPending then (tackRefused (stBusy, 0, ((pairs.map Prod.fst).getD 0 0).toNat), c)
  else match c.tackCheck pairs (fun _ => true) with
    | .error e => (tackRefused e, c)
    | .ok good =>
      let c := good.foldl Chip.tackOne c
      (done [w32 c.cmd.tack.length], c)

/-- The parameter words of triples. -/
def tripleWords (pairs : List (Word × Dword)) : List Word := pairs.flatMap fun q => [q.1, lo32 q.2.toNat, hi32 q.2.toNat]
def triples : List Word → List (Word × Dword)
  | a :: b :: d :: r => (a, BitVec.ofNat 64 (join64 b d)) :: triples r
  | _ => []

/-- TACK_SET on a standby: what it holds itself is tacked once the lead has tacked the mirrored items (12 R330). -/
def Chip.cmdTackSet (h : Hdr) (gen : Nat) (pairs : List (Word × Dword)) (c : Chip) : Option Rep × Chip :=
  let sent := pairs.filter fun q => itemMirrored q.1.toNat
  if c.ownCommand h || sent.isEmpty then c.tackSet pairs
  else
    let first := (pairs.zipIdx.find? fun q => itemMirrored q.1.1.toNat).map fun q => (q.2, q.1.1.toNat)
    if c.cannotForward h then (tackRefused (stNotLead, (first.getD (0, 0)).1, (first.getD (0, 0)).2), c)
    else if c.pressPending then (tackRefused (stBusy, 0, ((pairs.map Prod.fst).getD 0 0).toNat), c)
    else match c.tackCheck pairs (fun id => !itemMirrored id) with
      | .error e => (tackRefused e, c)
      | .ok _ => (none, c.forward 0x0100 h gen (tripleWords sent) (tripleWords pairs) true)

/-- The value of an item as TACK_GET shows it, and whether it is tacked (13 R366, 14 R388). -/
def Chip.tackValue (id : Nat) (c : Chip) : Int × Bool :=
  let t := tacked? c.cmd.tack (tackKey id)
  match firOf id with
  | some m => if t.isSome || (c.fir m).busy then ((c.fir m).shadow.get id, t.isSome) else ((c.fir m).bank.get id, false)
  | none => match t with
    | some v => (v, true)
    | none => (c.it id, false)

def valueWords (v : Int) : List Word := let w := (itemWrite v).toNat; [lo32 w, hi32 w]

def Chip.tackWords (id : Nat) (c : Chip) : List Word :=
  let v := c.tackValue id
  valueWords v.1 ++ [w32 (b2n v.2)]

def Chip.badItem (ids : List Word) (c : Chip) : Bool := ids.any fun i => (itemSpec c.prof i.toNat).isNone

/-- TACK_GET (13 R366); on a standby the mirrored items come from the lead. -/
def Chip.cmdTackGet (h : Hdr) (gen : Nat) (ids : List Word) (c : Chip) : Option Rep × Chip :=
  let sent := ids.filter fun i => itemMirrored i.toNat
  if !c.ownCommand h && !sent.isEmpty && c.cannotForward h then (refusal stNotLead, c)
  else if c.badItem ids then (refusal stBadItem, c)
  else if c.ownCommand h || sent.isEmpty then (done (ids.flatMap fun i => c.tackWords i.toNat), c)
  else (none, c.forward 0x0101 h gen sent ids true)

/-- Empties the tack set; shadow banks stay and are unused (04 R121). -/
def Chip.clearTack (c : Chip) : Chip := c.onCmd fun d => { d with tack := [] }

/-- TACK_CLEAR (13 R366); a standby clears its own set and forwards the command (12 R330). -/
def Chip.cmdTackClear (h : Hdr) (gen : Nat) (c : Chip) : Option Rep × Chip :=
  if c.pressPending then (refusal stBusy, c)
  else if c.ownCommand h then (done [w32 c.cmd.tack.length], c.clearTack)
  else (none, c.forward 0x0102 h gen [] [] true)

/-- TACK_LIST (14 R387). A standby lists its own entries, then the lead's. -/
def Chip.cmdTackList (h : Hdr) (gen : Nat) (first : Word) (c : Chip) : Option Rep × Chip :=
  let n := c.cmd.tack.length
  let f := first.toNat
  if !c.ownCommand h then (none, c.forward 0x0106 h gen [w32 (f - n)] [first] true)
  else if n ≤ f ∧ ¬ (f = 0 ∧ n = 0) then (refusal stRange, c)
  else (done ([w32 n, first] ++ ((c.cmd.tack.drop f).take 58).map fun q => w32 q.1), c)

/-- The pressed value of an item in the generation of graph block N (13 R372, 14 R388); what a press has brought into force
ahead of the next tick does not count yet. -/
def Chip.pressedAt (N id : Nat) (c : Chip) : Int :=
  let soon := decide (c.sys.ahead = some (c.sys.blk + 1))
  match firOf id with
  | some m =>
    let f := c.fir m
    let lands := soon && c.sys.now.landed.any fun i => itemFam i = 6 && itemEl i = m
    (if f.busy && !lands && (f.xchg.isSome || !c.firWaits m) then f.shadow else f.bank).get id
  | none =>
    let at_ := c.sys.blk + b2n soon
    let g := if N + 2 ≤ at_ then c.sys.prev2 else if N + 1 = at_ then c.sys.prev else c.sys.now
    itemIn (if c.sys.blk < N then c.itemsAt N else g.items) id

/-- PRESSED_GET (13 R372). -/
def Chip.cmdPressedGet (h : Hdr) (gen : Nat) (ids : List Word) (c : Chip) : Option Rep × Chip :=
  let sent := ids.filter fun i => itemMirrored i.toNat
  if !c.ownCommand h && !sent.isEmpty && c.cannotForward h then (refusal stNotLead, c)
  else if c.badItem ids then (refusal stBadItem, c)
  else if c.ownCommand h || sent.isEmpty then
    let N := c.sys.blk
    (done ([lo32 N, hi32 N] ++ ids.flatMap fun i => valueWords (c.pressedAt N i.toNat)), c)
  else (none, c.forward 0x0105 h gen sent ids true)

/-! What a standby makes of the lead's reply (12 R330) -/

/-- The words of items in their order, from those the lead sent for the mirrored ones and this unit's own. -/
def mergeWords (n : Nat) (own : Nat → List Word) : List Word → List Word → List Word
  | [], _ => []
  | i :: is, ws => if itemMirrored i.toNat then ws.take n ++ mergeWords n own is (ws.drop n)
    else own i.toNat ++ mergeWords n own is ws

/-- A TACK_LIST position at or beyond the entries of both units is refused, whatever the lead made of its part. -/
def Chip.joinStatus (opcode : Nat) (params ws : List Word) (status : Nat) (c : Chip) : Nat :=
  let f := (params.getD 0 0).toNat
  let n := (ws.getD 0 0).toNat + c.cmd.tack.length
  if opcode = 0x0106 ∧ status = stDone ∧ n ≤ f ∧ ¬ (f = 0 ∧ n = 0) then stRange else status

/-- The result words that a standby sends for a command that it and the lead share: from the command's parameters and the
result words of the lead. -/
def Chip.joinReply (opcode : Nat) (params ws : List Word) (status : Nat) (c : Chip) : List Word × Chip :=
  match opcode with
  | 0x0100 =>
    let pairs := triples params
    if status = stDone then
      match c.tackCheck pairs (fun id => !itemMirrored id) with
      | .error _ => (ws, c)
      | .ok good =>
        let c := (good.filter fun q => !itemMirrored q.1).foldl Chip.tackOne c
        ([w32 ((ws.getD 0 0).toNat + c.cmd.tack.length)], c)
    else
      let at_ := ((pairs.zipIdx.filter fun q => itemMirrored q.1.1.toNat).map Prod.snd).getD (ws.getD 0 0).toNat 0
      ([w32 at_, ws.getD 1 0], c)
  | 0x0101 => if status = stDone then (mergeWords 3 (fun i => c.tackWords i) params ws, c) else (ws, c)
  | 0x0102 =>
    if status = stDone then ([w32 ((ws.getD 0 0).toNat + c.cmd.tack.length)], c.clearTack) else (ws, c)
  | 0x0106 =>
    if status = stDone then
      let f := (params.getD 0 0).toNat
      let own := ((c.cmd.tack.drop f).map fun q => w32 q.1)
      ([w32 ((ws.getD 0 0).toNat + c.cmd.tack.length), params.getD 0 0] ++ (own ++ ws.drop 2).take 58, c)
    else ([], c)
  | 0x0105 =>
    if status = stDone then
      let N := join64 (ws.getD 0 0) (ws.getD 1 0)
      (ws.take 2 ++ mergeWords 2 (fun i => valueWords (c.pressedAt N i)) params (ws.drop 2), c)
    else (ws, c)
  | _ => (ws, c)

/-! The commands -/

def execTackSet (h : Hdr) (items : List (Word × Dword)) (s : State) : Host.Outcome State Fault Refusal :=
  command 0x0100 h (tripleWords items) (fun c => c.cmdTackSet (hostHdr h) c.host.generation items) s

def execTackGet (h : Hdr) (ids : List Word) (s : State) : Host.Outcome State Fault Refusal :=
  command 0x0101 h ids (fun c => c.cmdTackGet (hostHdr h) c.host.generation ids) s

def execTackClear (h : Hdr) (s : State) : Host.Outcome State Fault Refusal :=
  command 0x0102 h [] (fun c => c.cmdTackClear (hostHdr h) c.host.generation) s

def execPressedGet (h : Hdr) (ids : List Word) (s : State) : Host.Outcome State Fault Refusal :=
  command 0x0105 h ids (fun c => c.cmdPressedGet (hostHdr h) c.host.generation ids) s

def execTackList (h : Hdr) (first : Word) (s : State) : Host.Outcome State Fault Refusal :=
  command 0x0106 h [first] (fun c => c.cmdTackList (hostHdr h) c.host.generation first) s

end Sys2Proof.Machine
end

