-- ==== Sys2Proof/Machine/Press.lean ====
section
/-! DEFINITION. Presses (13 R367 to R371): the relations between items, resources, PRESS, PRESS_AT, PENDING presses and the
airing table they wait for (06 R170 to R172), PROFILE_SET (05 R134 to R136). -/

namespace Sys2Proof.Machine

/-! Relations between items (13 R367 step 1) -/

/-- Contexts of a configuration with their receive sources, for LISTEN contexts that fit. -/
def overlaps (p : Profile) (view : Items) (x : Nat) : Bool :=
  let lo := flowIt view x 4
  let n := flowIt view x 3
  (ctxsOf p view 2).any fun y => y ≠ x && flowIt view y 4 < lo + n && lo < flowIt view y 4 + flowIt view y 3

/-- Another LISTEN context has one of its lookup keys. -/
def sharesKey (p : Profile) (view : Items) (x : Nat) : Bool :=
  let ks := tableKeys p view
  (ks.filter fun q => q.2 = x).any fun q => ks.any fun r => r.1 = q.1 && r.2 ≠ x

/-- The refusals of 06 R148 for context x. -/
def flowRefused (p : Profile) (view : Items) (x : Nat) : Bool :=
  let dir := flowIt view x 1
  (dir = 2 && ctxFits p view x && (overlaps p view x || sharesKey p view x)) ||
    (dir ≠ 0 && flowIt view x 5 = 1 && itemIn view (item 1 0 0x13) = 0)

/-- What the relations of its rule say of one item of a press that would leave the values `view`, from `prior`: a status
and the item to name. -/
def Chip.relation (p : Profile) (prior view : Items) (cold : Bool) (id : Nat) (c : Chip) : Option (Nat × Nat) :=
  let el := itemEl id
  let f := itemField id
  let v := fun g => itemIn view (item (itemFam id) el g)
  let refuse := fun (b : Bool) (st : Nat) => if b then some (st, id) else none
  match itemFam id with
  | 0x01 =>
    if f = 0x001 then refuse (!cold && itemIn view id ≠ itemIn prior id) stNotPermitted
    else if f = 0x11 ∨ f = 0x16 then refuse (decide (v 0x11 = v 0x16)) stNotPermitted
    else if f = 0x13 then refuse (decide (v 0x13 = 0) && (flowCtxs view).any (flowRefused p view)) stNotPermitted
    else none
  | 0x05 =>
    if f = 0x10 ∨ f = 0x11 then
      if !cold ∧ v 0x10 < v 0x11 then some (stRange, item 5 el 0x10) else none
    else if 0x100 ≤ f then
      let q := (f - 0x100) / 16
      let t := v (0x100 + q * 16)
      let above := decide ((450 * fsOf p : Nat) < v (0x101 + q * 16)) && t ≠ 9
      match bqCoefs p view el q with
      | some k => refuse (!(cold && above) && !bqStable k) stRange
      | none => none
    else none
  | 0x08 =>
    if (f = 3 ∨ f = 4) ∧ !ctxFits p view el then some (stRange, id)
    else refuse (flowRefused p view el) stNotPermitted
  | 0x09 =>
    let fmt := sapFmt view el
    if !cold && sapBroken p view el then some (stRange, id)
    else refuse ((f = 1 || f = 12 || f = 13 || f = 14) && fmt.enable && sapSeamBad view) stNotPermitted
  | 0x0A =>
    if el ≠ 0x30 then none
    else if f = 5 ∨ f = 6 then refuse (decide (v 5 < v 6)) stNotPermitted
    else if 0x18 ≤ f ∧ f < 0x28 then refuse (decide (v (0x20 + f % 8) < v (0x18 + f % 8))) stNotPermitted
    else none
  | 0x0B =>
    if el < 64 then refuse ((f = 8 || f = 9) && decide (v 9 < v 8)) stNotPermitted
    else refuse ((f = 2 || f = 3 || f = 6) && (decide (v 3 < v 2) || decide (v 6 < v 3))) stNotPermitted
  | 0x0C =>
    if el ≠ 0x10 then none
    else if f = 1 ∨ f = 2 then refuse (decide (v 2 ≤ v 1)) stNotPermitted
    else refuse (f = 0x20 && c.audioOnce) stNotPermitted
  | 0x0D =>
    refuse ((f = 1 || f = 2) && decide (v 1 = 1) && (decide (v 2 = 0) || decide (v 2 = c.boot.peg.toNat))) stNotPermitted
  | _ => none

/-- The first failing item of a press (13 R367). A serial port that the new profile's rate breaks belongs to no item. -/
def Chip.relations (p : Profile) (prior view : Items) (cold : Bool) (tack : List (Nat × Int)) (c : Chip) : Option (Nat × Nat) :=
  let range := fun (q : Nat × Int) =>
    if !cold || itemFam q.1 = 6 then none
    else match readItem p q.1 (itemWrite q.2) with
      | .error st => some (st, q.1)
      | .ok _ => none
  match tack.findSome? fun q => (range q).orElse fun _ => c.relation p prior view cold q.1 with
  | some e => some e
  | none =>
    -- a cold press leaves a port that its profile breaks stopped, and may bring flow contexts back (06 R148, 08 R241); an
    -- empty press is accepted (13 R368)
    if !cold && !tack.isEmpty && (List.range 16).any (sapBroken p view) then some (stRange, 0)
    else if cold && (flowCtxs view).any (flowRefused p view) then some (stNotPermitted, 0)
    else none

/-! Resources (13 R367 step 2) -/

/-- Chains whose out.delay_max the press changes to a value that is not 0, with the pages they need (04 R110). -/
def ringsOf (p : Profile) (prior view : Items) (tack : List (Nat × Int)) : List (Nat × Nat) :=
  (tack.filter fun q => itemFam q.1 = 5 && itemField q.1 = 0x10 && itemIn view q.1 ≠ itemIn prior q.1).map fun q =>
    (itemEl q.1, pagesFor (blkLen p) q.2.toNat)

/-- Allocates and fills the pages of a press, or names the item for which the FREE pages run out. -/
def Chip.reservePages (rings : List (Nat × Nat)) (c : Chip) : Except Nat (List (Nat × List Nat)) × Chip :=
  let free := c.freePages.length
  let short := (rings.foldl (fun (a : Nat × Option Nat) r =>
    (a.1 + r.2, if a.2.isNone && free < a.1 + r.2 then some r.1 else a.2)) (0, none)).2
  match short with
  | some k => (.error (item 5 k 0x10), c)
  | none =>
    let r := rings.foldl (fun (a : List (Nat × List Nat) × Chip) q =>
      let x := a.2.allocPages q.1 q.2 .filling
      (a.1 ++ [(q.1, x.1)], x.2)) ([], c)
    (.ok r.1, r.2)

def pagesOf (ps : List (Nat × List Nat)) : List Nat := ps.flatMap Prod.snd

/-- Blocks that pass while the `n` pages of a press are filled, at no less than 400 words in a microsecond (04 R110): a free
value within that bound. -/
def Chip.fillBlocks (n : Nat) (c : Chip) : Nat × Chip :=
  if n = 0 then (0, c)
  else
    let most := ceilDiv (n * 2048 * 2) c.period
    ((Config.freeWord c.fresh).toNat % (most + 1), c.tick)

/-! The airing table (06 R170 to R172) -/

/-- The lead holds the mirrored items of the pair with its peer (12 R329). -/
def Chip.leadsPair (c : Chip) : Bool := c.twin.role = .lead && c.twin.pathT && !c.twin.unmatched

def Chip.sendMirror (r : MirrorRec) (c : Chip) : Chip := c.onTwin fun t => { t with mirror := t.mirror ++ [r] }

/-- Lookup items that are not at their default. -/
def lookupKey (items : Items) : Items := (lookups items).filter fun q => q.2 ≠ itemDefault q.1

/-- A configuration with other lookup items. -/
def withLookups (base l : Items) : Items := setItems (base.filter fun q => !isLookup q.1) l

/-- A press from `prior` to `view` needs an airing copy. -/
def needsAiring (prior view : Items) : Bool := lookupKey prior ≠ lookupKey view

/-- A completed airing copy matches, on both units of a pair, and no other press uses it (06 R171, R172). -/
def Chip.airingReady (view : Items) (c : Chip) : Bool :=
  !(c.cmd.presses.any fun q => q.airs && !q.aired) && (!c.leadsPair || c.flow.peerDone) &&
    match c.flow.built with
    | some q => q.2 = lookupKey view
    | none => false

/-- The mirrored items of a press, whole banks included, as they travel. -/
def Chip.mirrored (items : List (Nat × Int)) (c : Chip) : List (Word × Dword) :=
  (items.filter fun q => itemMirrored q.1).flatMap fun q =>
    match firOf q.1 with
    | some m => ((c.fir m).shadow.items m).map fun z => (w32 z.1, itemWrite z.2)
    | none => [(w32 q.1, itemWrite q.2)]

/-- The rebuild begins: it takes the lookup items of the tack set as it stands (06 R170). The standby of a pair builds too; for
a press that waits, it began with the tack set that it validated (R172). -/
def Chip.rebuildStart (c : Chip) : Chip :=
  let tack := match c.cmd.waiting with | some w => w.items | none => c.cmd.tack
  let view := setItems (c.itemsAt (2 ^ 64)) (lookups tack)
  let c := if c.leadsPair && c.cmd.waiting.isNone
    then (c.sendMirror (.rebuild (c.mirrored (lookups tack)))).onFlow fun u => { u with peerDone := false } else c
  c.onFlow fun u => { u with building := some (lookupKey view, false) }

/-- The rebuild ends without a copy: a press that waits for it is refused and its pages return to FREE (13 R369); a standby that
joined it hears of it. -/
def Chip.rebuildDrop (c : Chip) : Chip :=
  let ps := match c.cmd.waiting with | some w => pagesOf w.pages | none => []
  let c := if c.cmd.waiting.isSome && c.leadsPair then c.sendMirror (.withdraw 0) else c
  (c.freeFilling ps).onCmd (fun d => { d with waiting := none }) |>.onFlow fun u => { u with building := none }

/-- A running rebuild is abandoned by a press, also one of the very same tack set (06 R171, log 91). -/
def Chip.rebuildAbandon (c : Chip) : Chip :=
  ((c.liveJobs 0x0600).foldl (fun c k => c.endJob k .abandoned 0 []) c).onFlow fun u => { u with building := none }

/-! Acceptance -/

/-- Filters that a press exchanges are busy from its acceptance (04 R123). -/
def Chip.firAccept (items : List (Nat × Int)) (c : Chip) : Chip :=
  (items.filter fun q => itemFam q.1 = 6).foldl (fun c q => c.onFir (itemEl q.1) fun f => { f with busy := true }) c

/-- An accepted press takes its items, which leave the tack set, and will land at L (13 R367). -/
def Chip.schedule (q : Press) (c : Chip) : Chip :=
  let c := c.firAccept q.items
  c.onCmd fun d => { d with
    landed := q.land, tack := []
    presses := if q.items.isEmpty && q.slot.isNone then d.presses else d.presses ++ [q] }

/-- The configurations that a press of `tack` landing at L changes, before and after it: that of L, and those of the presses
accepted before it that land later (13 R367, R371). -/
def Chip.viewsFrom (L : Nat) (tack : List (Nat × Int)) (c : Chip) : List (Items × Items) :=
  let d := c.onCmd fun d => { d with presses := d.presses ++ [{ land := L, items := tack }] }
  (L :: (c.cmd.presses.map Press.land).filter (L < ·)).map fun P => (c.itemsAt P, d.itemsAt P)

/-- Validation by the unit itself of a press that names its landing block or none: refused, or its pages and the blocks that
filling them takes. -/
def Chip.validate (named : Option Nat) (tack : List (Nat × Int)) (c : Chip) :
    Except (Nat × Nat) (List (Nat × List Nat) × Nat) × Chip :=
  let p := c.prof
  let prior := c.itemsAt (named.getD (c.sys.blk + 2))
  let rings := ringsOf p prior (setItems prior tack) tack
  let r := c.fillBlocks (total (rings.map Prod.snd))
  match (c.viewsFrom (named.getD (c.sys.blk + r.1 + 2)) tack).findSome? fun v => c.relations p v.1 v.2 false tack with
  | some e => (.error e, c)
  | none => match r.2.reservePages rings with
    | (.error id, c) => (.error (stNoResource, id), c)
    | (.ok ps, c) => (.ok (ps, r.1), c)

/-- A refused press names the failing item, 0 for none (14 R387). -/
def pressRefused (st id : Nat) : Option Rep := some { status := st, ws := [w32 id] }

/-- The rest of an accepted PRESS or PRESS_AT, once both units of a pair have validated it: it is scheduled, or waits
PENDING for its airing copy. `v` holds its pages and the blocks that filling them takes. -/
def Chip.accept (h : Hdr) (named : Option Nat) (v : List (Nat × List Nat) × Nat) (c : Chip) : Option Rep × Chip :=
  let ps := v.1
  let items := c.cmd.tack
  let L := named.getD (c.sys.blk + v.2 + 2)
  let prior := c.itemsAt L
  let view := setItems prior items
  let airs := needsAiring prior view
  let back := fun (st : Nat) (c : Chip) => (pressRefused st 0, c.freeFilling (pagesOf ps))
  if airs && !c.airingReady view then
    match named, c.slotFor with
    | some _, _ => back stLate c
    | none, none => back stNoResource c
    | none, some k =>
      let c := (c.rebuildAbandon.takeJob k 0x0600 h.tag [] 0).onCmd fun d => { d with
        waiting := some { items := items, pages := ps, slot := k } }
      (some { status := stPending, job := some k }, c)
  else
    if L < c.sys.blk + v.2 + 2 then back stLate c
    else
      let slot := if named.isSome then c.slotFor else none
      if named.isSome && slot.isNone then back stNoResource c
      else
        let c := match slot with
          | some k => (c.takeJob k 0x0104 h.tag [] 0).runJob k
          | none => c
        let c := if c.leadsPair then c.sendMirror (.press (BitVec.ofNat 64 L) (c.mirrored items) named.isSome) else c
        let c := c.schedule { land := L, items := items, pages := ps, slot := slot, airs := airs, named := named.isSome }
        (some { ws := [lo32 L, hi32 L], job := slot }, c)

/-- Why a press is refused before it is validated (13 R368 to R370; 18 R476; 19 R492). -/
def Chip.pressBarred (named : Option Nat) (c : Chip) : Option Nat :=
  if c.err.safe then some stNotPermitted
  else if !c.audioOnce && named.isSome then some stNotPermitted
  else if !c.audioOnce && !c.sys.tickRun && c.cmd.cold.isNone then some stBusy
  else if c.cmd.waiting.isSome || c.cmd.cold.isSome then some stBusy
  else match named with
    | none => none
    | some L =>
      if c.cmd.presses.any fun q => q.slot.isSome then some stBusy
      else if L < c.sys.blk + 2 then some stLate
      else if c.sys.blk + 2 ^ 31 < L then some stRange
      else none

/-- PRESS and PRESS_AT (13 R367, R370): the reply waits for the standby's verdict where there is one (12 R329). -/
def Chip.cmdPress (h : Hdr) (gen : Nat) (named : Option Nat) (c : Chip) : Option Rep × Chip :=
  match c.pressBarred named with
  | some st => (pressRefused st 0, c)
  | none => match c.validate named c.cmd.tack with
    | (.error e, c) => (pressRefused e.1 e.2, c)
    | (.ok v, c) =>
      if c.leadsPair then
        let c := (c.sendMirror (.tackSet (c.mirrored c.cmd.tack))).onFlow fun u => { u with peerDone := false }
        (none, c.onCmd fun d => { d with
          reserved := v.1, fill := v.2
          awaits := d.awaits ++ [{
            opcode := if named.isSome then 0x0104 else 0x0103, hdr := h, reply := false, generation := gen
            params := match named with | some L => [lo32 L, hi32 L] | none => [] }] })
      else c.accept h named v

/-! REBUILD_COMPLETE (06 R170, R171) -/

/-- The peer's copy counts too, for the lead of a pair. -/
def Chip.peerBuilt (c : Chip) : Bool := !c.leadsPair || c.flow.peerDone

/-- The rebuild is completed at tick N: the copy is ready, and a press that waited is scheduled. On a standby, whose own
copy has no job, the lead hears of it. -/
def Chip.rebuildComplete (N : Nat) (c : Chip) : Chip :=
  match c.flow.building with
  | none => c
  | some (l, verified) =>
    let jobs := c.liveJobs 0x0600
    let own := jobs.isEmpty
    if !own ∧ (!verified ∨ !c.peerBuilt) then c
    else
      let c := c.airingStart N
      match buildTable c.prof (withLookups (c.itemsAt (2 ^ 64)) l) with
      | none => c.rebuildDrop
      | some t =>
        let c := c.onFlow fun u => { u with built := some (t, l), building := none }
        if own then if c.isStandby then c.sendMirror .airingDone else c
        else
          let L := N + (if c.leadsPair then 2 else 1)
          let shown := if c.cmd.waiting.isSome then L else 0
          let c : Chip := match c.cmd.waiting with
            | none => c
            | some w =>
              let c := c.onCmd fun d => { d with waiting := none }
              let c := if c.leadsPair then c.sendMirror (.press (BitVec.ofNat 64 L) (c.mirrored w.items) false) else c
              c.schedule { land := L, items := w.items, pages := w.pages, airs := true }
          jobs.foldl (fun c k => (c.runJob k).endJob k .done 0
            [t.seedWord, t.crc, w32 t.slots.length, lo32 shown, hi32 shown]) c

def execRebuildComplete (s : State) : Host.Outcome State Fault Refusal := act (fun c => c.rebuildComplete (c.sys.blk + 1)) s

/-- FLOW_TABLE_REBUILD (06 R171). -/
def Chip.cmdRebuild (h : Hdr) (c : Chip) : Option Rep × Chip :=
  if c.hasJob 0x0600 then (refusal stBusy, c)
  else match c.slotFor with
    | none => (refusal stNoResource, c)
    | some k =>
      (some { status := stStarted, job := some k }, c.takeJob k 0x0600 h.tag [] 0)

/-! PROFILE_SET (05 R134 to R136) -/

/-- The resume index A (05 R136): t_L is the media time of tick L in the old profile, A counts from the epoch that the
command leaves. -/
def resumeIndex (old new : Profile) (L : Nat) (epoch epoch' : Int) : Nat :=
  let den : Int := 20 * fsOf old * blkLen new
  let num : Int := ((epoch - epoch') * 20 * fsOf old + 20 * L * blkLen old + fsOf old) * fsOf new
  (-((-num) / den)).toNat

/-- Why PROFILE_SET is refused before its items are looked at (05 R135; 18 R476; 19 R492). -/
def Chip.profileBarred (L : Nat) (c : Chip) : Option Nat :=
  if c.err.safe then some stNotPermitted
  else if !c.audioOnce && !c.sys.tickRun && c.cmd.cold.isNone then some stBusy
  else if c.cmd.waiting.isSome || c.cmd.cold.isSome || (c.cmd.presses.any fun q => q.slot.isSome) ||
      c.hasJob 0x0500 || c.hasJob 0x0501 || c.hasJob 0x0600 then some stBusy
  else if L ≠ 0 ∧ L < c.sys.blk + 2 then some stLate
  else none

/-- A cold press is accepted: it holds the tack set until tick A. -/
def Chip.coldAccept (p : Profile) (L A slot : Nat) (items : List (Nat × Int)) (c : Chip) : Chip :=
  (c.firAccept items).onCmd fun d => { d with
    tack := [], cold := some { profile := p, land := L, resume := A, items := items, slot := slot } }

/-- PROFILE_SET. -/
def Chip.cmdProfileSet (h : Hdr) (code : Word) (named : Nat) (c : Chip) : Option Rep × Chip :=
  match c.profileBarred named, profileOf (code.toNat % 4) with
  | some st, _ => (refusal st, c)
  | none, none => (refusal stRange, c)
  | none, some p =>
    let L := if named = 0 then c.sys.blk + 2 else named
    let prior := c.itemsAt L
    let view := setItems prior c.cmd.tack
    match c.relations p prior view true c.cmd.tack with
    | some e => (refusal e.1, c)
    | none =>
      if 2048 < pagesNeeded p (clampDelays p view) then (refusal stNoResource, c)
      else match c.slotFor with
        | none => (refusal stNoResource, c)
        | some k =>
          let epoch := item 1 0 1
          let A := resumeIndex c.prof p L (itemIn prior epoch) (itemIn view epoch)
          let items := c.cmd.tack
          let c := if c.leadsPair then
            c.sendMirror (.profile p (BitVec.ofNat 64 L) (BitVec.ofNat 64 A) (c.mirrored items)) else c
          let c := ((c.takeJob k 0x0B00 h.tag [] 0).runJob k).coldAccept p L A k items
          (some { status := stStarted, ws := [lo32 L, hi32 L, lo32 A, hi32 A], job := some k }, c)

/-! Withdrawal (13 R370, 06 R546) -/

/-- A waiting press is withdrawn: its pages return to FREE, its filters are released, and an airing interval that has begun
for it ends at the next tick. -/
def Chip.withdraw (q : Press) (c : Chip) : Chip :=
  let c := c.freeFilling (pagesOf q.pages)
  let c := (q.items.filter fun i => itemFam i.1 = 6).foldl (fun c i => c.onFir (itemEl i.1) fun f => { f with busy := false }) c
  let c := c.onCmd fun d => { d with presses := d.presses.filter fun r => r ≠ q }
  if q.airs then c.onFlow fun u => { u with airing := u.airing.map fun a =>
    if a.land = q.land then { a with withdrawn := true } else a } else c

/-! The commands -/

def execPress (h : Hdr) (s : State) : Host.Outcome State Fault Refusal :=
  command 0x0103 h [] (fun c => c.cmdPress (hostHdr h) c.host.generation none) s

def execPressAt (h : Hdr) (L : Dword) (s : State) : Host.Outcome State Fault Refusal :=
  command 0x0104 h [lo32 L.toNat, hi32 L.toNat] (fun c => c.cmdPress (hostHdr h) c.host.generation (some L.toNat)) s

def execFlowTableRebuild (h : Hdr) (s : State) : Host.Outcome State Fault Refusal :=
  command 0x0600 h [] (fun c => c.cmdRebuild (hostHdr h)) s

def execProfileSet (h : Hdr) (code : Word) (L : Dword) (s : State) : Host.Outcome State Fault Refusal :=
  command 0x0B00 h [code, lo32 L.toNat, hi32 L.toNat] (fun c => c.cmdProfileSet (hostHdr h) code L.toNat) s

end Sys2Proof.Machine
end

