-- ==== Sys2Proof/Machine/Orders.lean ====
section
/-! DEFINITION. The commands that report: system (14 R386), jobs and status reads (14 R390 to R392), errors (14 R400); and
JOB_ABANDON (13 R377). -/

namespace Sys2Proof.Machine

/-! System and version (14 R386) -/

/-- HELLO: the command-set level of this firmware is 2 (19 R506). -/
def Chip.cmdHello (level : Word) (c : Chip) : Option Rep × Chip :=
  if 2 < level.toNat then (refusal stLevel, c)
  else (done [9, pack [(0, 8, 0xA1), (8, 6, c.boot.peg.toNat), (16, 3, roleCode c.twin.role), (19, 2, Profile.code c.prof),
    (21, 1, b2n c.sys.audioEn), (22, 1, b2n c.err.safe)]], c)

/-- Levels of GET_VERSION w1: command set 2, network formats 3 and 2, twin state 2 (19 R506). -/
def levelsWord : Word := 0x02020302

/-- GET_VERSION. In HALT no image runs: version 0, and levels that the spec does not state (19 R505, log 35). -/
def Chip.cmdGetVersion (c : Chip) : Option Rep × Chip :=
  let halt := c.boot.stage = .halt
  let head := c.running
  let version := if halt then 0 else (head.map ImageHead.version).getD 0
  let levels := if halt then Config.freeWord c.fresh else levelsWord
  let key := match head with | some h => h.keySlot.val | none => 0
  let w2 := pack [(0, 1, c.boot.slot), (1, 1, b2n (c.slot 0).verified), (2, 1, b2n (c.slot 1).verified), (4, 2, key)]
  (done [version, levels, w2, w32 (Config.measured 200 0 0)], c.tick)

/-- PEG_REPORT. -/
def Chip.cmdPegReport (c : Chip) : Option Rep × Chip :=
  let b := c.boot
  let a := c.station
  (done [pack [(0, 6, b.peg.toNat), (6, 1, b2n b.tokenIn), (7, 1, b2n b.tokenOut.isSome)], lo32 a, w32 (a / 2 ^ 32 % 2 ^ 16)], c)

/-- A session ID that no open session has, from the free choice of the firmware (06 R179, log 13). -/
def freshId (ids : List Nat) : Nat → Nat → Nat
  | 0, n => n
  | k + 1, n => if ids.contains n then freshId ids k (n % 65535 + 1) else n

/-- SESSION_OPEN (06 R179). A ninth session closes the one that has been idle longest. -/
def Chip.cmdSessionOpen (h : Hdr) (nonce : List Word) (c : Chip) : Option Rep × Chip :=
  if (viaPort h.via).isNone then (refusal stNotPermitted, c)
  else
    let own := (List.range 4).map fun i => (Config.nonce c.fresh).getD i 0
    let all := c.flow.sessions
    let id := freshId (all.map fun z => z.id.toNat) 8 ((Config.sessionId c.fresh).toNat % 65535 + 1)
    let oldest := all.foldl (fun (b : Option Session) z => match b with
      | some y => if z.usedAt < y.usedAt then some z else b
      | none => some z) none
    let kept := if all.length < 8 then all else all.filter fun z => some z ≠ oldest
    let key := sessionKey c.boot.mgmtKey nonce own id
    let z : Session := { id := BitVec.ofNat 16 id, key := key, peer := c.flow.replyTo, usedAt := c.clk }
    (done (own ++ [w32 id]), (c.onFlow fun u => { u with sessions := kept ++ [z] }).tick)

/-! Jobs (14 R390) -/

def Chip.cmdJobStatus (slot : Word) (c : Chip) : Option Rep × Chip := (done (c.job (slot.toNat % 64)).words, c)

/-- JOB_RESULT_READ. -/
def Chip.cmdJobResult (slot first count : Word) (c : Chip) : Option Rep × Chip :=
  let f := first.toNat
  let n := count.toNat
  if 1016 ≤ f ∨ n = 0 ∨ 56 < n then (refusal stRange, c)
  else
    let j := c.job (slot.toNat % 64)
    let ws := (j.result.drop f).take n
    (done ([j.statusWord, w32 j.result.length, first, w32 ws.length] ++ ws), c)

/-- What else ends with a live job that is abandoned: its sweep, its windows, its test, its mend, its capture. -/
def Chip.jobStop (k : Nat) (c : Chip) : Chip :=
  let idle := (c.job k).st = .queued
  match (c.job k).opcode.toNat with
  | 0x0300 => c.onCmd fun d => { d with snaps := d.snaps.filter fun q => q.slot ≠ some k }
  | 0x0500 => match c.pow.sweep with
    | some w =>
      if w.slot = k then
        (c.onMods fun m x => if !w.part.contains m then x else
          { (if x.st = .test && !x.disabling then x.off .off c else x) with point := none }).onPow fun p => { p with sweep := none }
      else c
    | none => c
  | 0x0501 => if idle then c else c.onMods fun _ x => { x with job := none }
  | 0x0503 => if !idle && c.ref.testing then c.refTestEnd else c
  | 0x0600 => c.rebuildDrop
  | 0x0800 => c.onTwin fun t => { t with mendJob := none }
  | _ => c

/-- The reply of JOB_ABANDON names its slot. -/
def Chip.abandonReply (k status : Nat) (c : Chip) : Option Rep × Chip :=
  (some { status := status, ws := if status = stDone then [(c.job k).statusWord] else [], job := some k }, c)

/-- JOB_ABANDON (13 R370, R377). -/
def Chip.cmdJobAbandon (slot w1 : Word) (c : Chip) : Option Rep × Chip :=
  let k := slot.toNat % 64
  let j := c.job k
  if j.st = .free then c.abandonReply k stNotPermitted
  else if !w1.getLsbD 31 && j.seq ≠ BitVec.ofNat 16 w1.toNat then c.abandonReply k stNotPermitted
  else if j.st.ended then (c.onJob k fun j => { seq := j.seq, progress := j.progress }).abandonReply k stDone
  else if j.opcode = 0x0B00 then c.abandonReply k stNotPermitted
  else if j.opcode = 0x0104 then
    match c.cmd.presses.find? fun q => q.slot = some k with
    | none => (c.endJob k .abandoned 0 []).abandonReply k stDone
    | some q =>
      if q.land ≤ c.sys.blk + 2 then c.abandonReply k stLate
      else
        let c := if c.leadsPair then c.sendMirror (.withdraw (BitVec.ofNat 64 q.land)) else c
        ((c.withdraw q).endJob k .abandoned 0 []).abandonReply k stDone
  else ((c.jobStop k).endJob k .abandoned 0 []).abandonReply k stDone

/-! SNAPSHOT (13 R373, 14 R391) -/

/-- A range lies in the CSR space or in shared SRAM. -/
def snapRange (r : Nat × Nat) : Bool :=
  r.1 % 4 = 0 &&
    ((0x50000000 ≤ r.1 && r.1 + 4 * r.2 ≤ 0x50120000) || (0x40000000 ≤ r.1 && r.1 + 4 * r.2 ≤ 0x40800000))

def Chip.cmdSnapshot (h : Hdr) (gen : Nat) (ranges : List (Word × Word)) (c : Chip) : Option Rep × Chip :=
  let rs := ranges.map fun r => (r.1.toNat, r.2.toNat)
  let n := total (rs.map Prod.snd)
  if !rs.all snapRange || decide (1016 < n) then (refusal stRange, c)
  else if n ≤ 56 then
    (none, c.onCmd fun d => { d with snaps := d.snaps ++ [{ hdr := h, ranges := rs, generation := gen }] })
  else match c.slotFor with
    | none => (refusal stNoResource, c)
    | some k =>
      let c := (c.takeJob k 0x0300 h.tag [] n).onCmd fun d => { d with
        snaps := d.snaps ++ [{ hdr := h, ranges := rs, slot := some k, generation := gen }] }
      (some { status := stStarted, job := some k }, c)

/-- A SNAPSHOT reads MOD_Z_PHASE_m and MOD_Z_BLK_m of the tick, whatever a read latched (10 R288). -/
def Chip.zNow (a : Nat) (c : Chip) : Chip :=
  if 0x500E0300 ≤ a ∧ a < 0x500E0500 then c.latchZ (a % 0x100 / 4) else c

/-- One word as a SNAPSHOT reads it: no side effect on a register; an uncorrectable word of memory reads all ones
(17 R453). -/
def snapWord (h : Hamper) (a : Nat) (c : Chip) : Word × Chip :=
  if 0x50000000 ≤ a then (csrPeek h (c.zNow a) a, c)
  else match c.hostRead 0x01 a 4 with
    | (some bs, c) => (BitVec.ofNat 32 (ofLe bs), c)
    | (none, c) => (0xFFFFFFFF, c)

def snapWords (h : Hamper) (ranges : List (Nat × Nat)) (c : Chip) : List Word × Chip :=
  (ranges.flatMap fun r => (List.range r.2).map fun i => r.1 + 4 * i).foldl (fun (a : List Word × Chip) x =>
    let r := snapWord h x a.2
    (a.1 ++ [r.1], r.2)) ([], c)

/-- The captures of tick N (13 R373): every waiting SNAPSHOT of up to 56 words, and the first job in order. -/
def snapCapture (h : Hamper) (N : Nat) (c : Chip) : Chip :=
  let first := (c.liveJobs 0x0300).head?
  let now := c.cmd.snaps.filter fun q => q.slot.isNone || q.slot = first
  let c := c.onCmd fun d => { d with snaps := d.snaps.filter fun q => !(q.slot.isNone || q.slot = first) }
  now.foldl (fun c q =>
    let r := snapWords h q.ranges c
    let c := r.2
    match q.slot with
    | none => c.answer q.hdr q.generation 0x0300 { ws := [lo32 N, hi32 N] ++ r.1 }
    | some k => c.onJob k fun j => { j with st := .running, startBlk := N, param := r.1.map BitVec.toNat }) c

/-! LEDGER_READ and COUNTERS_READ (14 R390, R392) -/

def Chip.cmdLedgerRead (c : Chip) : Option Rep × Chip :=
  let k := c.graph.cap
  let cred := (List.range 8).map fun q => credWord q (k.cred.getD q (credDepth.getD q 0, 0, 0))
  let stamps := (List.range 3).flatMap fun m =>
    let x := k.stamps.getD m (0, 0, 0, 0)
    [w32 x.1, w32 x.2.1, w32 x.2.2.1, w32 x.2.2.2]
  (done ([lo32 k.n, hi32 k.n] ++ cred ++
    [pack [(0, 12, k.pages.1), (16, 12, k.pages.2.1)], pack [(0, 12, k.pages.2.2.1), (16, 12, k.pages.2.2.2)],
      pack [(0, 15, k.hampers.1), (16, 15, k.hampers.2.1)], pack [(0, 15, k.hampers.2.2.1), (16, 15, k.hampers.2.2.2)]] ++
    stamps ++ [k.bad]), c)

/-- The words of a counter set's element (14 R392). -/
def Listen.words (x : Listen) : List Word :=
  (x.paths.flatMap fun p => p.counts.map w32 ++ [w32 p.minSlack]) ++ [w32 x.fallback, w32 x.missing, w32 x.offsetDiff]
def SinkSt.words (x : SinkSt) : List Word := [w32 x.failTotal, w32 x.mutes]

/-- The counters as tick N captures them. -/
def Chip.counterSets (c : Chip) : List (Nat × Nat × List Word) :=
  (c.flow.ctx.map fun q => (0, q.1, q.2.words)) ++ c.graph.sink.map fun q => (1, q.1, q.2.words)

def Chip.cmdCountersRead (set first count : Word) (c : Chip) : Option Rep × Chip :=
  let f := first.toNat
  let n := count.toNat
  let k := c.graph.cap
  let words := fun (e : Nat) => match k.counters.find? fun q => q.1 = set.toNat && q.2.1 = e with
    | some q => q.2.2
    | none => if set = 0 then ({} : Listen).words else ({} : SinkSt).words
  let ok := match set.toNat with
    | 0 => decide (f < 1024) && n = 1
    | 1 => 1 ≤ n && n ≤ 29 && (List.range n).all fun i => sinkOk c.prof (f + i)
    | _ => false
  if !ok then (refusal stRange, c)
  else (done ([lo32 k.n, hi32 k.n] ++ (List.range n).flatMap fun i => words (f + i)), c)

/-! Errors (14 R400) -/

def Chip.cmdErrRead (w0 w1 : Word) (c : Chip) : Option Rep × Chip :=
  let e := c.err
  if 15 < w1.toNat then (refusal stRange, c)
  else
    let rs := if w0.getLsbD 0 then e.first.toList else (e.queue.drop w1.toNat).take 14
    (done ([w32 e.queue.length, w32 e.lostCount] ++ rs.flatMap Rec.words), c)

/-- ERR_ACK (18 R469, 02 R60); an index of all ones names every block. -/
def Chip.cmdErrAck (code : Word) (blk : Dword) (c : Chip) : Option Rep × Chip :=
  let k := code.toNat % 65536
  let at_ := if blk = BitVec.allOnes 64 then none else some blk.toNat
  let p := fun (r : Rec) => r.code = k && (at_ = none || at_ = some r.blk)
  let held := (c.err.queue ++ c.err.first.toList).any p
  let waits := (k = 0x1021 || k = 0x0E21) && c.sinkWaits k at_
  if !held && !waits then (refusal stNotPermitted, c)
  else
    let c := c.ackWhere p
    (done [], if waits then c.releaseSinks k at_ else c)

/-- Why SAFE_EXIT is refused (18 R478): among it a core that is trapped and not yet reloaded (18 R477). -/
def Chip.exitBarred (c : Chip) : Bool :=
  let e := c.err
  !e.safe || ((e.queue ++ e.first.toList).any fun r => r.cls = .fatal) || c.graph.cap.bad ≠ 0 ||
    e.reloading || e.reloadFailed || e.trapped ≠ 0 || e.exiting.isSome

/-- SAFE_EXIT (18 R479). -/
def Chip.cmdSafeExit (c : Chip) : Option Rep × Chip :=
  if c.exitBarred then (refusal stNotPermitted, c)
  else
    let L := c.sys.blk + 2 + 20 * fadeBlocks c.prof
    (done [lo32 L, hi32 L], c.onErr fun e => { e with exiting := some L })

/-! The commands -/

def execHello (h : Hdr) (level : Word) (s : State) : Host.Outcome State Fault Refusal :=
  command 0x0001 h [level] (fun c => c.cmdHello level) s

def execGetVersion (h : Hdr) (s : State) : Host.Outcome State Fault Refusal := command 0x0002 h [] (fun c => c.cmdGetVersion) s

def execPegReport (h : Hdr) (s : State) : Host.Outcome State Fault Refusal := command 0x0C00 h [] (fun c => c.cmdPegReport) s

def execSessionOpen (h : Hdr) (nonce : List Word) (s : State) : Host.Outcome State Fault Refusal :=
  command 0x0C01 h nonce (fun c => c.cmdSessionOpen h nonce) s

def execJobStatus (h : Hdr) (slot : Word) (s : State) : Host.Outcome State Fault Refusal :=
  command 0x0200 h [slot] (fun c => c.cmdJobStatus slot) s

def execJobResultRead (h : Hdr) (slot first count : Word) (s : State) : Host.Outcome State Fault Refusal :=
  command 0x0201 h [slot, first, count] (fun c => c.cmdJobResult slot first count) s

def execJobAbandon (h : Hdr) (slot w1 : Word) (s : State) : Host.Outcome State Fault Refusal :=
  command 0x0202 h [slot, w1] (fun c => c.cmdJobAbandon slot w1) s

def rangeWords (ranges : List (Word × Word)) : List Word := w32 ranges.length :: ranges.flatMap fun r => [r.1, r.2]

def execSnapshot (h : Hdr) (ranges : List (Word × Word)) (s : State) : Host.Outcome State Fault Refusal :=
  command 0x0300 h (rangeWords ranges) (fun c => c.cmdSnapshot (hostHdr h) c.host.generation ranges) s

def execLedgerRead (h : Hdr) (s : State) : Host.Outcome State Fault Refusal := command 0x0301 h [] (fun c => c.cmdLedgerRead) s

def execCountersRead (h : Hdr) (set first count : Word) (s : State) : Host.Outcome State Fault Refusal :=
  command 0x0302 h [set, first, count] (fun c => c.cmdCountersRead set first count) s

def execErrRead (h : Hdr) (w0 w1 : Word) (s : State) : Host.Outcome State Fault Refusal :=
  command 0x0A00 h [w0, w1] (fun c => c.cmdErrRead w0 w1) s

def execErrAck (h : Hdr) (code : Word) (blk : Dword) (s : State) : Host.Outcome State Fault Refusal :=
  command 0x0A01 h [code, lo32 blk.toNat, hi32 blk.toNat] (fun c => c.cmdErrAck code blk) s

def execSafeExit (h : Hdr) (s : State) : Host.Outcome State Fault Refusal := command 0x0A02 h [] (fun c => c.cmdSafeExit) s

end Sys2Proof.Machine
end

