-- ==== Sys2Proof/Machine/Tasks.lean ====
section
/-! DEFINITION. The commands that work: memory (14 R393), diagnostics (14 R394 to R397), references and twin (14 R398),
firmware images (14 R399); and the start and the end of jobs (13 R377, R380). -/

namespace Sys2Proof.Machine

/-! Memory (14 R393, 17 R457, R458) -/

/-- The target whose memory holds the whole range, on its ECC words; the boot ROM carries no ECC. -/
def memRange (start len : Nat) : Option Nat :=
  match targetOf start with
  | none => none
  | some (t, base, size, ecc) =>
    if 1 ≤ t ∧ start % ecc = 0 ∧ len % ecc = 0 ∧ start + len ≤ base + size then some t else none

/-- Bytes of a range of shared SRAM in the areas that the host owns. -/
def hostBytes (start len : Nat) : Nat :=
  total (hostAreas.map fun r => min (start + len) r.2 - max start r.1)

def Chip.memJob (opcode : Nat) (h : Hdr) (t : Nat) (param : List Nat) (len : Nat) (c : Chip) : Option Rep × Chip :=
  match c.slotFor with
  | none => (refusal stNoResource, c)
  | some k => (some { status := stStarted, job := some k }, c.takeJob k opcode h.tag param (len / eccSize t))

def Chip.cmdRinse (h : Hdr) (start len : Word) (c : Chip) : Option Rep × Chip :=
  match memRange start.toNat len.toNat with
  | none => (refusal stRange, c)
  | some t =>
    if 3 ≤ t ∧ t < 27 ∧ !c.powered.getLsbD (t - 3) then (refusal stRange, c)
    else c.memJob 0x0400 h t [start.toNat, len.toNat] len.toNat

def Chip.cmdFill (h : Hdr) (start len value tag : Word) (c : Chip) : Option Rep × Chip :=
  match memRange start.toNat len.toNat with
  | none => (refusal stRange, c)
  | some t =>
    if t < 27 ∨ (t = 27 ∧ !c.service) ∨ (t = 28 ∧ hostBytes start.toNat len.toNat ≠ len.toNat) then (refusal stNotPermitted, c)
    else c.memJob 0x0401 h t [start.toNat, len.toNat, value.toNat, tag.toNat % 256] len.toNat

/-- The end of a RINSE: the errors that it met are struck, every ECC word of the range is read, correctable ones are darned,
and the summary is its result. A word that nothing ever wrote reads as 17 R447 says. -/
def Chip.rinseEnd (k : Nat) (find : JobFind) (c : Chip) : Chip :=
  let start := (c.job k).param.getD 0 0
  let len := (c.job k).param.getD 1 0
  let s := eccSize (targetIndex start)
  let inside := fun (a : Nat) => start ≤ a && a < start + len
  let c := c.strike (((find.corrected.filter inside).map fun a => { addr := a, uncorrectable := false }) ++
    (find.uncorrected.filter inside).map fun a => { addr := a, uncorrectable := true })
  let words := (List.range (len / s)).map fun i => start + i * s
  let ces := words.filter fun w => c.mem.bytes.ecc w = .ce
  let ues := words.filter fun w => c.mem.bytes.ecc w = .ue
  let c := words.foldl (fun c w => match c.mem.bytes.ecc w with
    | .good => c
    | .ce => c.darn 0x02 w
    | .ue => (c.onMem fun m => { m with ue := m.ue + 1, ueSeen := true }).memEvent 5 0x02 w none) c
  let ends := match ues.head?, ues.getLast? with
    | some a, some b => [lo32 a, lo32 b]
    | _, _ => [0xFFFFFFFF, 0xFFFFFFFF]
  c.endJob k .done 0 ([lo32 words.length, hi32 words.length, w32 ces.length, w32 ues.length] ++ ends)

/-- The pattern that FILL writes: in the delay store the value and the tag of a sample, elsewhere the value. -/
def fillBytes (target value tag : Nat) : List Byte :=
  if target = 27 then leBytes 4 value ++ [BitVec.ofNat 8 tag, 0, 0, 0] else leBytes 4 value

/-- The end of a FILL: every ECC word of the range is written. -/
def Chip.fillEnd (k : Nat) (c : Chip) : Chip :=
  let q := (c.job k).param
  let start := q.getD 0 0
  let len := q.getD 1 0
  let t := targetIndex start
  let bs := fillBytes t (q.getD 2 0) (q.getD 3 0)
  let bytes := (List.replicate (len / bs.length) bs).flatten
  (c.store start bytes).endJob k .done 0 [lo32 (len / eccSize t), lo32 start, lo32 (start + len)]

/-! Diagnostics (14 R394 to R397) -/

/-- Bits of a mask, ascending. -/
def maskBits (n mask : Nat) : List Nat := indices n mask.testBit

/-- What the safe state, start-up and a cold press say to LINE_SWEEP, PILOT_MEASURE and SELF_TEST. -/
def Chip.testBarred (needsAudio : Bool) (c : Chip) : Option Nat :=
  if c.err.safe || (needsAudio && !c.audioOnce) then some stNotPermitted
  else if c.cmd.cold.isSome then some stBusy
  else none

def Chip.started (k opcode : Nat) (h : Hdr) (param : List Nat) (n : Nat) (c : Chip) : Option Rep × Chip :=
  (some { status := stStarted, job := some k }, c.takeJob k opcode h.tag param n)

def Chip.cmdLineSweep (h : Hdr) (groups : Word) (c : Chip) : Option Rep × Chip :=
  match c.testBarred true with
  | some st => (refusal st, c)
  | none =>
    if c.hasJob 0x0500 || c.hasJob 0x0501 then (refusal stBusy, c)
    else match c.slotFor with
      | none => (refusal stNoResource, c)
      | some k =>
        let g := groups.toNat % 256
        c.started k 0x0500 h (if g = 0 then List.range 8 else maskBits 8 g) 64

def Chip.cmdPilotMeasure (h : Hdr) (mask : Dword) (window : Word) (c : Chip) : Option Rep × Chip :=
  if mask = 0 ∨ window.toNat < 10 ∨ 10000 < window.toNat then (refusal stRange, c)
  else match c.testBarred true with
    | some st => (refusal st, c)
    | none =>
      if c.hasJob 0x0500 then (refusal stBusy, c)
      else match c.slotFor with
        | none => (refusal stNoResource, c)
        | some k => c.started k 0x0501 h [mask.toNat, window.toNat] (maskBits 64 mask.toNat).length

def Chip.cmdChannelRetry (mask : Dword) (c : Chip) : Option Rep × Chip :=
  let ms := maskBits 64 mask.toNat
  let ready := fun (m : Nat) => (c.modCh m).st = .tripped || (c.modCh m).st = .lockedOut
  if mask = 0 then (refusal stRange, c)
  else if c.err.safe || !c.audioOnce || !ms.all ready then (refusal stNotPermitted, c)
  else (done [], ms.foldl (fun c m => c.onMod m fun x => { x with forced := true, attempts := 0 }) c)

def Chip.cmdSelfTest (h : Hdr) (tests : Word) (c : Chip) : Option Rep × Chip :=
  let n := tests.toNat % 16
  if n = 0 then (refusal stRange, c)
  else match c.testBarred false with
    | some st => (refusal st, c)
    | none =>
      if n.testBit 3 && c.sys.audioEn && !h.force then (refusal stNotPermitted, c)
      else if c.hasJob 0x0503 then (refusal stBusy, c)
      else match c.slotFor with
        | none => (refusal stNoResource, c)
        | some k => c.started k 0x0503 h [n] (maskBits 4 n).length

/-- The results of a PILOT_MEASURE whose window has passed, channel by channel. -/
def Chip.pilotEnd (k : Nat) (c : Chip) : Chip :=
  let ms := maskBits 64 ((c.job k).param.getD 0 0)
  let passed := ms.all fun m => match (c.modCh m).job with
    | some q => q.last ≤ c.sys.blk
    | none => false
  if !passed then c
  else
    let c := (ms.zipIdx).foldl (fun c q =>
      let m := q.1
      let e := (c.modCh m).job.getD { ok := false }
      let z := e.result (c.modIt m 2) (c.modIt m 3) e.ok false
      (c.onMod m fun x => { x with job := none }).partJob k [z.magWord, z.phaseWord, lo32 z.blk] (q.2 + 1)) c
    c.endJob k .done 0 []

/-- A failing table check asks for a rewrite at the next block boundary (04 R124, 06 R174): a filter m, 64 the flow table,
65 the pressed configuration. -/
def Chip.tableFail (i : Nat) (c : Chip) : Chip :=
  c.onGraph fun g => { g with rewrites := if g.rewrites.contains i then g.rewrites else g.rewrites ++ [i] }

/-- What the end of test i of a SELF_TEST brings: the error that its continuous form raises, where it failed (14 R396), and
the end of the REF block's part. -/
def Chip.testEnds (i : Nat) (w : Word) (c : Chip) : Chip :=
  let failed := decide (w.toNat % 4 = 2)
  let detail := w.toNat / 65536
  match i with
  | 0 => if failed then (c.onTwin fun t => { t with shFail := detail % 32 }).raise 0x0F30 .fault detail else c
  | 1 => if failed then c.tableFail (if detail = 0 then 64 else if detail = 0xFFFF then 65 else (detail - 1) % 64) else c
  | 2 => if failed then c.raise 0x0F32 .fault detail else c
  | _ =>
    let c := if c.ref.testing then c.refTestEnd else c
    if !failed then c else if detail % 8 = 6 then c.raise 0x0B06 .fault else c.raise 0x0B01 .note (detail % 8)

/-- Test 3 begins at its turn (14 R396). -/
def Chip.refTestTurn (named : List Nat) (c : Chip) : Chip :=
  if named.head? = some 3 && !c.ref.testing then c.refTestStart else c

/-- Tests of a SELF_TEST end in ascending order. Each makes the words up to its own readable (13 R380), and the last ends the
job. A word NOT_RUN says that its test has not ended. -/
def Chip.selfTestEnd (k : Nat) (find : JobFind) (c : Chip) : Chip :=
  let named := maskBits 4 ((c.job k).param.getD 0 0)
  let word := fun (i : Nat) => if named.contains i then (find.tests.getD i 0) &&& 0xFFFFFF03 else 0
  let ended := named.takeWhile fun i => (word i).toNat % 4 ≠ 0 && (i ≠ 3 || c.ref.testing)
  let c := (ended.zipIdx.drop (c.job k).progress).foldl (fun c q =>
    let c := c.testEnds q.1 (word q.1)
    c.partJob k (((List.range (q.1 + 1)).drop (c.job k).result.length).map word) (q.2 + 1)) c
  if ended.length < named.length then c.refTestTurn (named.drop ended.length)
  else c.endJob k .done 0 (((List.range 4).drop (c.job k).result.length).map word)

/-! References and twin (14 R398; 11 R301, R302; 12 R345) -/

def Chip.cmdRefForce (input : Word) (c : Chip) : Option Rep × Chip :=
  let x := input.toNat % 8
  if x = 7 then (refusal stRange, c)
  else if x ≤ 2 ∧ c.grandmaster then (refusal stNotPermitted, c)
  else (done [], c.onRef fun r => { r with forced := if x = 6 then none else some x })

def Chip.cmdRefClear (c : Chip) : Option Rep × Chip := (done [], c.refClear)

/-- TWIN_MEND: on a standby the named regions start to mend, or all of them; on a lead, which mends nothing, only their
DIVERGENT bits clear. -/
def Chip.cmdTwinMend (h : Hdr) (mask : Dword) (c : Chip) : Option Rep × Chip :=
  if mask = 0 then (refusal stRange, c)
  else if !(c.twin.role = .lead || c.isStandby) || !c.twin.pathT || c.twin.unmatched then (refusal stNotPermitted, c)
  else if c.hasJob 0x0800 then (refusal stBusy, c)
  else match c.slotFor with
    | none => (refusal stNoResource, c)
    | some k =>
      let rs := (maskBits 64 mask.toNat).filter (· ≠ 62)
      let c := c.onTwin fun t => { t with
        mendJob := some (k, rs), mended := [], leftBlk := 0, divergent := t.divergent.filter fun r => !rs.contains r }
      let G := c.sys.blk - 3
      let c :=
        if !c.isStandby then c
        else if mask = BitVec.allOnes 64 then (c.startedIn G).fullMend G
        else
          let c := rs.reverse.foldl (fun c r => c.mendNew G r) (c.startedIn G)
          c.onTwin fun t => { t with deferred := rs.filter fun r => (mget? t.mending r).isNone && c.mendDefers r }
      c.roleSettle.started k 0x0800 h [] 0

/-- The job of a TWIN_MEND ends when none of its regions is mending or waits to. Regions whose mends were abandoned are not
mended; where no region left MENDING, the block index reads 0. -/
def Chip.mendJobEnd (c : Chip) : Chip :=
  match c.twin.mendJob with
  | none => c
  | some (k, rs) =>
    let t := c.twin
    if (c.job k).st = .queued ∨ (rs.any fun r => (mget? t.mending r).isSome || t.deferred.contains r) then c
    else
      let mended := packBits 64 fun r => rs.contains r && t.mended.contains r
      (c.onTwin fun t => { t with mendJob := none }).endJob k .done 0 [lo32 mended, hi32 mended, lo32 t.leftBlk, hi32 t.leftBlk]

/-- Why TWIN_SWAP is refused. -/
def Chip.swapBarred (c : Chip) : Bool :=
  let t := c.twin
  !t.pathT ||
    (if t.role = .lead then t.peerSafe || t.peerRole = 4 else !c.isStandby || c.err.safe || !t.mending.isEmpty)

/-- A swap is accepted: it lands two blocks on, at the peer too. -/
def Chip.swapAccept (c : Chip) : Option Rep × Chip :=
  let L := c.sys.blk + 2
  let c := if c.leadsPair then c.sendMirror (.swap (BitVec.ofNat 64 L)) else c
  (done [lo32 L, hi32 L], c.onTwin fun t => { t with swapAt := some L })

/-- TWIN_SWAP: the lead asks the standby first, and its reply waits for that (12 R345). Under UNMATCHED nothing crosses. -/
def Chip.cmdTwinSwap (h : Hdr) (gen : Nat) (c : Chip) : Option Rep × Chip :=
  if c.swapBarred then (refusal stNotPermitted, c)
  else if c.leadsPair then
    (none, (c.sendMirror (.swap 0)).onCmd fun d => { d with
      awaits := d.awaits ++ [{ opcode := 0x0801, hdr := h, reply := false, generation := gen, params := [] }] })
  else c.swapAccept

def Chip.cmdTwinForceLead (h : Hdr) (c : Chip) : Option Rep × Chip :=
  let t := c.twin
  if !h.force then (refusal stNotPermitted, c)
  else if t.role = .lead then (done [t.epoch], c)
  else if t.role = .orphan || (c.isStandby && !t.pathT) then
    let e := (if t.peerEpoch ≤ t.epoch then t.epoch else t.peerEpoch) + 1
    (done [e], c.onTwin fun t => { t with next := some (.lead, e, false) })
  else (refusal stNotPermitted, c)

/-! Firmware images (14 R399, 19 R503) -/

def imageBytes : Nat := 8388608

/-- The slot that runs; in HALT none does. -/
def Chip.runs (i : Nat) (c : Chip) : Bool := c.boot.stage ≠ .halt && i = c.boot.slot

def Chip.cmdImageStage (slot offset : Word) (data : List Word) (c : Chip) : Option Rep × Chip :=
  let i := slot.toNat % 2
  let o := offset.toNat
  let bs := wordBytes data
  let z := c.slot i
  if c.runs i then (refusal stNotPermitted, c)
  else if o % 4 ≠ 0 then (refusal stRange, c)
  else if o = 0 then
    (done [w32 bs.length], c.onSlot i fun _ => { factory := false, bytes := bs })
  else if o ≠ z.bytes.length ∨ imageBytes < o + bs.length then (refusal stRange, c)
  else if z.erased * 65536 < o + bs.length then (refusal stBusy, c)
  else (done [w32 (o + bs.length)], c.onSlot i fun z => { z with bytes := z.bytes ++ bs })

def Chip.cmdImageVerify (h : Hdr) (slot : Word) (c : Chip) : Option Rep × Chip :=
  if c.hasJob 0x0901 then (refusal stBusy, c)
  else match c.slotFor with
    | none => (refusal stNoResource, c)
    | some k => c.started k 0x0901 h [slot.toNat % 2] 0

/-- The end of an IMAGE_VERIFY. -/
def Chip.verifyEnd (k : Nat) (c : Chip) : Chip :=
  let r := c.verifySlot ((c.job k).param.getD 0 0)
  let head := r.2.1
  let key := match head with | some h => h.keySlot.val | none => 0
  let ws := [pack [(0, 2, r.1), (4, 2, key)], (head.map ImageHead.version).getD 0, (head.map ImageHead.levels).getD 0]
  if r.1 = 0 then r.2.2.endJob k .done 0 ws else r.2.2.endJob k .failed stNotPermitted ws

def Chip.cmdImageActivate (h : Hdr) (w0 : Word) (c : Chip) : Option Rep × Chip :=
  let i := w0.toNat % 2
  let now := w0.getLsbD 8
  let z := c.slot i
  if !(z.verified && (z.factory || z.expect = z.bytes.length)) then (refusal stNotPermitted, c)
  else if now && c.twin.role = .lead && c.twin.pathT && !h.force then (refusal stNotPermitted, c)
  else
    let own := c.runs i
    let at_ := c.boot.slot
    let c := c.writeRecord fun r =>
      if own then { r with select := i, prev := at_, trial := false, tried := false } else { r with select := i, prev := at_, trial := true, tried := false }
    (done [], c.onBoot fun b => { b with resetDue := now })

/-! Jobs (13 R377, R380; 14 R385) -/

/-- The jobs that share the executor of slot k's job: RINSE and FILL share one. -/
def Chip.executorJobs (op : Nat) (c : Chip) : List Nat :=
  if op = 0x0400 ∨ op = 0x0401 then
    (c.liveJobs 0x0400 ++ c.liveJobs 0x0401).mergeSort fun a b => (c.job a).order ≤ (c.job b).order
  else c.liveJobs op

/-- The executor takes a QUEUED job: it leaves QUEUED only when no earlier job of its executor is live. A SNAPSHOT leaves it
at the tick of its capture. -/
def Chip.jobStart (k : Nat) (c : Chip) : Chip :=
  let j := c.job k
  let op := j.opcode.toNat
  if j.st ≠ .queued ∨ op = 0x0300 ∨ (c.executorJobs op).head? ≠ some k then c
  else
    let c := c.runJob k
    match op with
    | 0x0500 => c.sweepGroup 8 { slot := k, groups := j.param }
    | 0x0501 =>
      let first := c.sys.blk + 1
      let n := ceilDiv (j.param.getD 1 0 * c.W) 1000
      (maskBits 64 (j.param.getD 0 0)).foldl (fun c m => c.onMod m fun x => { x with
        job := some { freq := c.modIt m 0x11, first := first, last := first + n } }) c
    | 0x0503 => c.refTestTurn (maskBits 4 (j.param.getD 0 0))
    | 0x0600 => if c.flow.building.isNone then c.rebuildStart else c
    | _ => c

/-- The work of a running job has ended. PROFILE_SET, PRESS_AT and LINE_SWEEP end by their own events. -/
def Chip.jobEnd (k : Nat) (find : JobFind) (c : Chip) : Chip :=
  let j := c.job k
  if j.st ≠ .running ∧ j.st ≠ .partialResult then c
  else match j.opcode.toNat with
    | 0x0300 => c.endJob k .done 0 (j.param.map w32)
    | 0x0400 => c.rinseEnd k find
    | 0x0401 => c.fillEnd k
    | 0x0501 => c.pilotEnd k
    | 0x0503 => c.selfTestEnd k find
    | 0x0600 =>
      match c.flow.building with
      | none => c
      | some (l, _) =>
        if find.failed || (buildTable c.prof (withLookups (c.itemsAt (2 ^ 64)) l)).isNone then
          (c.endJob k .failed stNoResource []).rebuildDrop
        else c.onFlow fun u => { u with building := some (l, true) }
    | 0x0800 => c.mendJobEnd
    | 0x0901 => c.verifyEnd k
    | _ => c

/-! The commands -/

def execRinse (h : Hdr) (start len : Word) (s : State) : Host.Outcome State Fault Refusal :=
  command 0x0400 h [start, len] (fun c => c.cmdRinse h start len) s

def execFill (h : Hdr) (start len value tag : Word) (s : State) : Host.Outcome State Fault Refusal :=
  command 0x0401 h [start, len, value, tag] (fun c => c.cmdFill h start len value tag) s

def execLineSweep (h : Hdr) (groups : Word) (s : State) : Host.Outcome State Fault Refusal :=
  command 0x0500 h [groups] (fun c => c.cmdLineSweep h groups) s

def execPilotMeasure (h : Hdr) (mask : Dword) (window : Word) (s : State) : Host.Outcome State Fault Refusal :=
  command 0x0501 h [lo32 mask.toNat, hi32 mask.toNat, window] (fun c => c.cmdPilotMeasure h mask window) s

def execChannelRetry (h : Hdr) (mask : Dword) (s : State) : Host.Outcome State Fault Refusal :=
  command 0x0502 h [lo32 mask.toNat, hi32 mask.toNat] (fun c => c.cmdChannelRetry mask) s

def execSelfTest (h : Hdr) (tests : Word) (s : State) : Host.Outcome State Fault Refusal :=
  command 0x0503 h [tests] (fun c => c.cmdSelfTest h tests) s

def execRefForce (h : Hdr) (input : Word) (s : State) : Host.Outcome State Fault Refusal :=
  command 0x0700 h [input] (fun c => c.cmdRefForce input) s

def execRefClearHistory (h : Hdr) (s : State) : Host.Outcome State Fault Refusal := command 0x0701 h [] (fun c => c.cmdRefClear) s

def execTwinMend (h : Hdr) (mask : Dword) (s : State) : Host.Outcome State Fault Refusal :=
  command 0x0800 h [lo32 mask.toNat, hi32 mask.toNat] (fun c => c.cmdTwinMend h mask) s

def execTwinSwap (h : Hdr) (s : State) : Host.Outcome State Fault Refusal :=
  command 0x0801 h [] (fun c => c.cmdTwinSwap (hostHdr h) c.host.generation) s

def execTwinForceLead (h : Hdr) (s : State) : Host.Outcome State Fault Refusal :=
  command 0x0802 h [] (fun c => c.cmdTwinForceLead h) s

def execImageStage (h : Hdr) (slot offset : Word) (data : List Word) (s : State) : Host.Outcome State Fault Refusal :=
  command 0x0900 h ([slot, offset] ++ data) (fun c => c.cmdImageStage slot offset data) s

def execImageVerify (h : Hdr) (slot : Word) (s : State) : Host.Outcome State Fault Refusal :=
  command 0x0901 h [slot] (fun c => c.cmdImageVerify h slot) s

def execImageActivate (h : Hdr) (w0 : Word) (s : State) : Host.Outcome State Fault Refusal :=
  command 0x0902 h [w0] (fun c => c.cmdImageActivate h w0) s

def execJobStart (slot : Fin 64) (s : State) : Host.Outcome State Fault Refusal := act (fun c => c.jobStart slot.val) s

def execJobEnd (slot : Fin 64) (find : JobFind) (t : Nat) (s : State) : Host.Outcome State Fault Refusal :=
  act (fun c => (c.advance t).jobEnd slot.val find) s

end Sys2Proof.Machine
end

