-- ==== Sys2Proof/Machine/Pair.lean ====
section
/-! DEFINITION. What a unit of a pair takes from its peer: block frames with their command mirror (12 R325, R329, R330),
heartbeats (12 R341), and the failure of a path (12 R342). -/

namespace Sys2Proof.Machine

/-! Commands and replies over the link (12 R330, 13 R362) -/

/-- The packet of a forwarded command. -/
def fwdPkt (opcode : Nat) (h : Hdr) (params : List Word) : Pkt :=
  let w0 := pack [(0, 16, opcode), (16, 1, b2n h.force), (24, 8, params.length)]
  let k := crc32c (wordBytes ([w0, h.tag, 0, 0] ++ params))
  { via := h.via, words := [w0, h.tag, 0, k] ++ params, bytes := 16 + 4 * params.length, session := h.session, forwarded := true }

/-- The words of a reply that came over the link, with what this unit adds to them. -/
def Chip.joined (a : Await) (words : List Word) (c : Chip) : List Word × Chip :=
  let w2 := (words.getD 2 0).toNat
  let status := c.joinStatus a.opcode a.params (words.drop 4) (field (words.getD 0 0).toNat 16 8)
  let r := c.joinReply a.opcode a.params (words.drop 4) status
  (replyWords a.opcode status a.hdr.tag.toNat (w2 % 64) w2 r.1, r.2)

/-- The peer's reply answers the command that waits for it. -/
def Chip.takeReply (h : Hdr) (words : List Word) (c : Chip) : Chip :=
  let op := (words.getD 0 0).toNat % 65536
  match c.cmd.awaits.find? fun a => a.reply && a.opcode = op && a.hdr.tag = h.tag with
  | none => c
  | some a =>
    let r := c.joined a words
    let refused := 0x10 ≤ field (r.1.getD 0 0).toNat 16 8
    let c := r.2.onCmd fun d => { d with
      awaits := d.awaits.filter fun b => b ≠ a
      joins := d.joins && !(refused && (op = 0x0103 || op = 0x0104)) }
    (c.countRefusal r.1).sendReply a.hdr.via a.generation a.hdr.session r.1

/-! Presses (12 R329) -/

/-- Mirrored items as they travelled; the items of a filter fill its shadow bank and make one entry. -/
def Chip.unpack (items : List (Word × Dword)) (c : Chip) : List (Nat × Int) × Chip :=
  items.foldl (fun (a : List (Nat × Int) × Chip) q =>
    let id := q.1.toNat
    match itemSpec a.2.prof id with
    | none => a
    | some s =>
      let v := (itemRead s q.2).getD 0
      match firOf id with
      | some m => (tackPut a.1 (firEntry m) 0, a.2.onFir m fun f => { f with shadow := f.shadow.put id v })
      | none => (tackPut a.1 id v, a.2)) ([], c)

/-- The standby releases the pages that it held for a tack set. -/
def Chip.freeReserved (c : Chip) : Chip := (c.freeFilling (pagesOf c.cmd.reserved)).onCmd fun d => { d with reserved := [] }

/-- The standby validates the lead's tack set, with its own when it joins, and builds its airing copy. -/
def Chip.takeTackSet (items : List (Word × Dword)) (c : Chip) : Chip :=
  let c := c.freeReserved
  let r := c.unpack items
  let tack := r.1 ++ if c.cmd.joins then c.cmd.tack else []
  match r.2.validate none tack with
  | (.error e, c) => c.sendMirror (.verdict (BitVec.ofNat 8 e.1) (w32 e.2))
  | (.ok v, c) =>
    let c := c.onCmd fun d => { d with reserved := v.1 }
    let prior := c.itemsAt (c.sys.blk + v.2 + 2)
    let view := setItems prior tack
    let c := if !needsAiring prior view then c
      else if c.airingReady view then c.sendMirror .airingDone
      else c.onFlow fun u => { u with building := some (lookupKey view, false) }
    c.sendMirror (.verdict 0 0)

/-- The lead's rebuild has begun: the standby builds its own copy (06 R172). -/
def Chip.takeRebuild (items : List (Word × Dword)) (c : Chip) : Chip :=
  let r := c.unpack items
  let view := setItems (r.2.itemsAt (2 ^ 64)) (lookups r.1)
  r.2.onFlow fun u => { u with building := some (lookupKey view, false) }

/-- The lead hears the standby's verdict on a swap, which lands at L from then on (12 R345, 01 R30). -/
def Chip.swapVerdict (ok : Bool) (a : Await) (c : Chip) : Chip :=
  let c := c.onCmd fun d => { d with awaits := d.awaits.filter fun b => b ≠ a }
  let r := if ok && !c.swapBarred then c.swapAccept else (refusal stNotPermitted, c)
  r.2.answer a.hdr a.generation a.opcode (r.1.getD {})

/-- The lead hears the standby's verdict: the press is accepted, or refused with it. -/
def Chip.takeVerdict (status : Byte) (id : Word) (c : Chip) : Chip :=
  match c.cmd.awaits.find? fun a => !a.reply with
  | none => c.sendMirror (.withdraw 0)
  | some a =>
   if a.opcode = 0x0801 then c.swapVerdict (status = 0) a
   else
    let v := (c.cmd.reserved, c.cmd.fill)
    let named := match a.params with | [x, y] => some (join64 x y) | _ => none
    let c := c.onCmd fun d => { d with awaits := d.awaits.filter fun b => b ≠ a, reserved := [] }
    let barred := if status ≠ 0 then some (status.toNat, id.toNat) else (c.pressBarred named).map fun st => (st, 0)
    let r := match barred with
      | some e => (pressRefused e.1 e.2, c.freeFilling (pagesOf v.1))
      | none => c.accept a.hdr named v
    let rep := r.1.getD {}
    let c := if 0x10 ≤ rep.status then r.2.sendMirror (.withdraw 0) else r.2
    c.answer a.hdr a.generation a.opcode rep

/-- A press of the lead lands on the standby at the same block, with the standby's tack set when that joined it. -/
def Chip.takePress (L : Nat) (items : List (Word × Dword)) (named : Bool) (c : Chip) : Chip :=
  let r := c.unpack items
  let c := r.2
  let own := if c.cmd.joins then c.cmd.tack else []
  let kept := if c.cmd.joins then [] else c.cmd.tack
  let all := r.1 ++ own
  let prior := c.itemsAt L
  let airs := needsAiring prior (setItems prior all)
  let c := c.schedule { land := L, items := all, pages := c.cmd.reserved, airs := airs, mirrored := true, named := named }
  c.onCmd fun d => { d with tack := kept, joins := false, reserved := [] }

/-- A cold press that comes from the lead, or that brings a standby into its lead's profile; it has no job here. -/
def Chip.takeProfile (p : Profile) (L A : Nat) (items : List (Word × Dword)) (c : Chip) : Chip :=
  let r := c.unpack items
  let kept := r.2.cmd.tack
  (r.2.coldAccept p L A 64 r.1).onCmd fun d => { d with tack := kept }

/-- The lead's press is withdrawn; with no block, the press that it was still deciding on. -/
def Chip.takeWithdraw (L : Nat) (c : Chip) : Chip :=
  if L = 0 then
    let waits := c.cmd.awaits.any fun a => a.opcode = 0x0103 || a.opcode = 0x0104
    c.freeReserved.onCmd fun d => { d with joins := d.joins && waits }
  else match c.cmd.presses.find? fun q => q.mirrored && q.named && q.land = L with
    | some q => c.withdraw q
    | none => c

/-- One record of the command mirror. -/
def Chip.takeRecord (r : MirrorRec) (c : Chip) : Chip :=
  match r with
  | .command op h ps => c.enterStream (fwdPkt op.toNat h ps)
  | .reply h ws => c.takeReply h ws
  | .tackSet items => c.takeTackSet items
  | .rebuild items => c.takeRebuild items
  | .verdict st id => c.takeVerdict st id
  | .press L items named => c.takePress L.toNat items named
  | .profile p L A items => c.takeProfile p L.toNat A.toNat items
  | .airingDone => c.onFlow fun u => { u with peerDone := true }
  | .mend q => c.onTwin fun t => { t with asked := (t.asked.filter fun a => a.1 ≠ q.val) ++ [(q.val, none)] }
  | .withdraw L => c.takeWithdraw L.toNat
  | .swap L =>
    if L = 0 then c.sendMirror (.verdict (if c.isStandby && !c.swapBarred then 0 else BitVec.ofNat 8 stNotPermitted) 0)
    else c.onTwin fun t => { t with swapAt := some L.toNat }

/-- Records are taken in their order, up to a command that finds the stream full: the sender repeats it (13 R355). How many
were taken is told with the state. -/
def Chip.takeRecords : List MirrorRec → Nat → Chip → Nat × Chip
  | [], n, c => (n, c)
  | r :: rs, n, c =>
    let waits := match r with | .command _ _ _ => c.streamFull | _ => false
    if waits then (n, c) else Chip.takeRecords rs (n + 1) (c.takeRecord r)

/-- The records of a frame that this unit has not taken yet: a sender repeats those that were not acknowledged (12 R325). -/
def Chip.newRecords (f : TwinFrame) (c : Chip) : List MirrorRec :=
  let known := c.twin.taken - f.first
  if f.first ≤ c.twin.taken ∧ known ≤ f.mirror.length then f.mirror.drop known else f.mirror

/-- What a frame acknowledges is not repeated, and what is left of it counts as taken. -/
def Chip.frameCounts (f : TwinFrame) (c : Chip) : Chip :=
  c.onTwin fun t =>
    let n := if t.sent ≤ f.heard ∧ f.heard ≤ t.sent + t.unacked.length then f.heard - t.sent else 0
    { t with
      unacked := t.unacked.drop n, sent := t.sent + n, part := if n = 0 then t.part else 0
      taken := f.first + f.mirror.length - (c.newRecords f).length }

/-- Commands that wait for a peer that can no longer be reached (12 R329, R331): a forwarded one is refused, a press of the
lead is decided alone. -/
def Chip.settleAwaits (c : Chip) : Chip :=
  if c.twin.pathT && !c.twin.unmatched then c
  else c.cmd.awaits.foldl (fun c a =>
    if a.reply then
      let c := c.onCmd fun d => { d with awaits := d.awaits.filter fun b => b ≠ a, joins := false }
      c.answer a.hdr a.generation a.opcode (lostRep a.opcode a.params stNotLead)
    else c.takeVerdict (if a.opcode = 0x0801 then BitVec.ofNat 8 stNotPermitted else 0) 0) c

/-! Block frames (12 R325, R340, R347) -/

/-- A frame that is late, bad, or lost with its crossing. -/
def Chip.missFrame (bad : Bool) (c : Chip) : Chip :=
  c.onTwin fun t => { t with
    missed := if bad then t.missed else t.missed + 1, bad := if bad then t.bad + 1 else t.bad
    missRun := t.missRun + 1, goodRun := 0, frameOk := false }

/-- With UNMATCHED set, a swap shows in the header alone: the duty has moved when the peer has the same side and a higher
epoch (log 36). -/
def Chip.unmatchedSwap (f : TwinFrame) (c : Chip) : Chip :=
  let higher := decide (c.twin.epoch < f.epoch)
  if !c.twin.unmatched || !higher then c
  else if c.twin.role = .lead && f.role = 2 then c.onTwin fun t => { t with next := some (.standby, f.epoch, false) }
  else if c.isStandby && f.role = 3 then c.onTwin fun t => { t with next := some (.lead, f.epoch, false) }
  else c

/-- A good frame of the present block. -/
def Chip.takeFrame (f : TwinFrame) (c : Chip) : Chip :=
  let c := c.peerSeen f.role f.safe f.epoch f.paths f.level f.peg.toNat
  let c := (c.unmatchedSwap f).onTwin fun t => { t with
    frame := some f, goodRun := t.goodRun + 1, missRun := 0, ageT := 0, frameOk := true, peerHealth := f.health
    versionDiff := decide (f.level = twinLevel) && f.version ≠ ((c.running.map ImageHead.version).getD 0) }
  if !c.twin.pathT then c
  else
    let c := if c.twin.next.isNone then c.onTwin fun t => { t with peerLost := false } else c
    if c.twin.unmatched then c
    else
      let r := Chip.takeRecords (c.newRecords f) 0 (c.frameCounts f)
      r.2.onTwin fun t => { t with taken := t.taken + r.1 }

/-- A block frame of the peer is received whole; it counts only in the block that it names. -/
def execTwinFrameRx (f : TwinFrame) (s : State) : Host.Outcome State Fault Refusal :=
  act (fun c =>
    if c.twin.role = .solo ∨ f.peg.toNat ≠ c.twinIt 2 ∨ f.peg = 0 then c
    else if !c.twin.aligned || c.sys.xqSilent.getLsbD 13 || f.n.toNat ≠ c.sys.blk then c.missFrame false
    else c.takeFrame f) s

def execTwinFrameMissed (bad : Bool) (s : State) : Host.Outcome State Fault Refusal :=
  act (fun c => if c.twin.role = .solo then c else c.missFrame bad) s

/-! Heartbeats and paths -/

/-- A standby whose lead runs another profile cold-presses into it (12 R323), once its audio has been enabled (19 R496). -/
def Chip.joinProfile (p : Profile) (c : Chip) : Chip :=
  if c.isStandby && !c.twin.unmatched && p ≠ c.prof && c.sys.audioEn && c.cmd.cold.isNone && !c.err.safe then
    let L := c.sys.blk + 2
    let e := (c.epoch : Int)
    (c.takeProfile p L (resumeIndex c.prof p L e e) []).onTwin fun t => { t with fullMend := true }
  else c

def execHeartbeatRx (drop : Bool) (hb : Heartbeat) (t : Nat) (s : State) : Host.Outcome State Fault Refusal :=
  act (fun c =>
    let c := (c.advance t).takeHeartbeat drop
    if c.twin.role = .solo ∨ hb.peg.toNat ≠ c.twinIt 2 ∨ hb.peer.toNat ≠ c.boot.peg.toNat ∨ hb.peg = 0 then c
    else
      let up := if drop then c.twin.pathD else c.twin.pathL
      let c := c.onTwin fun t => if drop then { t with lastD := some c.clk, pathD := true } else { t with lastL := some c.clk, pathL := true }
      let c := if up then c else c.raise 0x0F04 .note
      let c := c.peerSeen hb.role hb.safe hb.epoch hb.paths hb.twinLevel hb.peg.toNat
      let c := c.onTwin fun t => { t with peerProfile := some hb.profile, peerLost := t.peerLost && t.next.isSome }
      c.joinProfile hb.profile) s

/-- A path has failed after three missed intervals (12 R340, R342). -/
def execPathFail (p : HbPath) (t : Nat) (s : State) : Host.Outcome State Fault Refusal :=
  act (fun c =>
    let c := c.advance t
    let due := fun (last : Option Nat) (ms : Nat) => match last with
      | some l => l + ms * msClk ≤ c.clk
      | none => false
    match p with
    | .T => if 3 ≤ c.twin.missRun then c.failT.settleAwaits else c
    | .L =>
      if c.twin.pathL && due c.twin.lastL 30 then ((c.onTwin fun t => { t with pathL := false }).raise 0x0F03 .note).allLost else c
    | .D =>
      if c.twin.pathD && due c.twin.lastD 300 then ((c.onTwin fun t => { t with pathD := false }).raise 0x0F03 .note).allLost else c) s


end Sys2Proof.Machine
end

