-- ==== Sys2Proof/Machine/Safe.lean ====
section
/-! DEFINITION. The safe state (18 R471 to R479, R542): overruns that repeat, entry, the reload of a core, the exit and an
exit abandoned; the ledger checks and their recovery (R471). -/

namespace Sys2Proof.Machine

/-! Overruns (01 R26, 18 R473) -/

/-- The engines of a list as a mask. -/
def engineMask (l : List (Fin 24)) : Nat := packBits 24 fun n => l.any fun e => e.val = n

/-- Overruns that a tick finds: bits, FAULTs, and the FATAL after err.overrun_limit ticks in a row. -/
def Chip.overruns (c : Chip) : Chip :=
  let mask := engineMask c.sys.late
  let limit := c.errItem 1
  let c := c.onSys fun s => { s with late := [], engOverrun := s.engOverrun ||| BitVec.ofNat 24 mask }
  let c := (indices 24 mask.testBit).foldl (fun c n => c.raise 0x1001 .fault n) c
  let run := if mask = 0 then [] else (mask :: c.err.overruns).take (max 1 limit)
  let c := c.onErr fun e => { e with overruns := run }
  if mask ≠ 0 ∧ limit ≤ run.length then c.raise 0x0310 .fatal (run.foldl (· ||| ·) 0) else c

/-! Ledgers (03 R98, 04 R114, 07 R198, R215; 18 R471) -/

/-- Credits, pages, hampers and timestamps as they stand, with the mismatches: credit q as bits 7:0, pages 8, hampers 9,
timestamps 12:10. -/
def ledgers (h : Hamper) (N : Nat) (c : Chip) : Capture :=
  let pages := c.graph.pageCounts
  let hampers := h.counts
  let stamps := (List.range 3).map fun m =>
    let x := c.ptp.counts.getD m (0, 0, 0)
    (x.1.toNat, x.2.1.toNat, x.2.2.toNat, (c.ptp.queues.getD m []).length)
  let sum4 := fun (x : Nat × Nat × Nat × Nat) => x.1 + x.2.1 + x.2.2.1 + x.2.2.2
  let badCred := fun q => let x := c.graph.cred.getD q (0, 0, 0); x.1 + x.2.1 + x.2.2 ≠ credDepth.getD q 0
  let badStamp := fun m => let x := stamps.getD m (0, 0, 0, 0); x.1 % 2 ^ 32 ≠ (x.2.1 + x.2.2.1 + x.2.2.2) % 2 ^ 32
  let bad := packBits 13 fun i =>
    if i < 8 then decide (badCred i) else if i = 8 then sum4 pages ≠ 2048 else if i = 9 then sum4 hampers ≠ 16384 else decide (badStamp (i - 10))
  { n := N, cred := c.graph.cred, pages := pages, hampers := hampers, stamps := stamps, bad := w32 bad }

/-- The ledger that a FATAL code and DETAIL name, as a bit of the mismatches. -/
def ledgerBit (code detail : Nat) : Nat :=
  if code = 0x1030 then detail % 8 else if code = 0x1040 then 8 else if code = 0x0630 then 9 else 10 + detail % 3

/-- A check of every ledger, labelled N: each mismatch sets its flags and raises its FATAL; a ledger under recovery that
matched again at N + 1 and N + 2 ends RECOVERED. -/
def ledgerCheck (h : Hamper) (N : Nat) (c : Chip) : Chip :=
  let k := { ledgers h N c with counters := c.counterSets }
  let bit := fun i => k.bad.getLsbD i
  let c := c.onGraph fun g => { g with cap := k }
  let c := (indices 8 bit).foldl (fun c q =>
    (c.onGraph fun g => { g with credErr := g.credErr ||| BitVec.ofNat 8 (2 ^ q), credErrBlk := N, ledgerErr := true }).raise
      0x1030 .fatal q (some N)) c
  let c := if bit 8 then (c.onGraph fun g => { g with dlyErrBlk := N, ledgerErr := true }).raise 0x1040 .fatal 0 (some N) else c
  let c := if bit 9 then (c.onDrop fun d => { d with hamperErr := true, hamperErrBlk := N }).raise 0x0630 .fatal 0 (some N) else c
  let c := (indices 3 fun m => bit (10 + m)).foldl (fun c m =>
    (c.onPtp fun p => { p with ledgerErr := p.ledgerErr.set m (true, N) }).raise 0x0A30 .fatal m (some N)) c
  match c.err.handling with
  | some (code, detail, b) =>
    if b + 2 ≤ N ∧ !bit (ledgerBit code detail) then (c.onErr fun e => { e with handling := none }).raise 0x0302 .note else c
  | none => c

/-! Entry (18 R474, R475) -/

/-- The engines halt: no pass runs, and what they had not handed over is gone. -/
def Chip.haltGraph (c : Chip) : Chip :=
  (c.bqSettle.onGraph fun g => { g with
    run := false, out := [], left := [], fade := none, netFade := none, at1 := none, at2 := none }).freeLocks
    fun o => 0x10 ≤ o.toNat && o.toNat < 0x28

/-- Jobs that the safe state ends (13 R381). -/
def Chip.safeJobs (c : Chip) : Chip :=
  [0x0500, 0x0501, 0x0503].foldl (fun c op =>
    (c.liveJobs op).foldl (fun c k => (c.jobStop k).endJob k .failed stNotPermitted []) c) c

/-- Waiting PRESS_ATs and a PENDING press end FAILED. -/
def Chip.safePresses (c : Chip) : Chip :=
  let c := (c.cmd.presses.filter fun q => q.slot.isSome).foldl (fun c q =>
    let c := if c.leadsPair then c.sendMirror (.withdraw (BitVec.ofNat 64 q.land)) else c
    (c.withdraw q).endJob (q.slot.getD 64) .failed stNotPermitted []) c
  match c.cmd.waiting with
  | some w => c.rebuildDrop.endJob w.slot .failed stNotPermitted []
  | none => c

/-- Entry into the safe state takes effect at T. -/
def Chip.safeEntry (T : Nat) (c : Chip) : Chip :=
  match c.err.entry with
  | none => c
  | some (code, reason) =>
    let c := c.onErr fun e => { e with
      entry := none, safe := true, safeCause := code, safeReason := reason, safeBlk := T, safeEntries := e.safeEntries + 1,
      overruns := [] }
    let c := ((((c.raise 0x0311 .fault 0 (some T)).haltGraph).modSafe).safeJobs).safePresses
    let c := if c.isStandby then c.abandonMends else c
    let reloads := c.err.reloadable && c.errItem 4 = 1
    c.onErr fun e => { e with reloading := e.reloading || reloads }

/-- When ticks have stopped, entry waits for 1.5 block periods after the last one. A cold press holds it back to tick A. -/
def Chip.entryDue (c : Chip) : Bool :=
  c.err.entry.isSome && c.cmd.cold.isNone && (c.sys.tickRun || c.overdue c.sys.tickAt)

/-! The reload of a core (18 R477) -/

/-- The CMD core starts anew: an empty tack set and stream, and the replies to what it had taken are lost. -/
def Chip.cmdRestart (c : Chip) : Chip :=
  let c := c.freeFilling (pagesOf c.cmd.reserved)
  let c := (c.onCmd fun d => { d with
    tack := [], stream := [], awaits := [], joins := false, reserved := [], fails := false
    snaps := d.snaps.filter fun q => q.slot.isSome }).onHost
    fun h => { h with owed := 0, spiOwed := 0 }
  c.onMbx fun b => { b with ch := b.ch.map fun x => { x with reply := false, rest := [], waiting := [] } }

/-- The surviving core has reloaded the trapped one, or its image failed the check. With both trapped none survives. -/
def Chip.coreReload (verified : Bool) (c : Chip) : Chip :=
  let core := c.err.trapped
  if !c.err.safe || !c.err.reloadable || c.errItem 4 ≠ 1 || c.err.reloadFailed then c
  else if !verified then (c.onErr fun e => { e with reloading := false, reloadFailed := true }).raise 0x0312 .fault
  else
    let area := if core = 0x01 then (0x10000000, 0x10200000) else (0x11000000, 0x11080000)
    let c := (c.loadAreas [area]).onErr fun e => { e with reloading := false, trapped := 0 }
    if core = 0x01 then c.cmdRestart else c

/-! The exit (18 R479, R542; 12 R346) -/

/-- The exit is abandoned at tick X: the engines halt again. -/
def Chip.exitAbandon (c : Chip) : Chip :=
  if !c.err.abandon then c
  else (c.onErr fun e => { e with abandon := false, exiting := none }).haltGraph

/-- The lead of a pair moves its duty at the exit: both units swap at L, which its frames announce. -/
def Chip.exitSwap (N : Nat) (c : Chip) : Chip :=
  match c.err.exiting with
  | some L =>
    if N + 2 = L ∧ c.twin.role = .lead ∧ c.twin.pathT ∧ c.twin.peerRole = 3 then
      let c := if c.twin.unmatched then c else c.sendMirror (.swap (BitVec.ofNat 64 L))
      c.onTwin fun t => { t with swapAt := some L }
    else c
  | none => c

/-- A full mend follows the exit of a standby, and of a lead that the exit made one. -/
def Chip.exitMend (c : Chip) : Chip :=
  if c.isStandby then c.onTwin fun t => { t with fullMend := true } else c

/-- A fade of every sink over a millisecond, from output block `first` on. Where fades overlap the spec is silent: the new
one replaces the old and starts from its own first gain (log 73). -/
def Chip.setFade (v0 v1 : Int) (first : Nat) (c : Chip) : Chip :=
  let fade := some ({ v0 := v0, v1 := v1, r := fadeBlocks c.prof * c.B }, first)
  c.onGraph fun g => { g with fade := fade, netFade := fade }

/-- Tick L of an exit: cleared state and rings, rewritten engines, and the first graph block. -/
def Chip.exitStart (N : Nat) (c : Chip) : Chip :=
  match c.err.exiting with
  | some L =>
    if L ≤ N ∧ !c.graph.run then
      let c := (indices 24 c.sys.engPwr.getLsbD).foldl (fun c n => c.initEngine n) c
      let c := (c.clearRings.clearGraph c.sys.now.items (L + 3) (L + 3)).setFade 0 one30 (L + 3)
      let c := c.onGraph fun g => { g with run := true }
      let c := c.onTwin fun t => { t with past := [] }
      c.exitMend
    else c
  | none => c

/-- Tick L + 3 of an exit: the safe state ends. -/
def Chip.safeEnd (N : Nat) (c : Chip) : Chip :=
  match c.err.exiting with
  | some L =>
    if L + 3 ≤ N ∧ c.graph.run ∧ !c.err.abandon then
      ((c.onErr fun e => { e with safe := false, exiting := none, safeExits := e.safeExits + 1 }).raise 0x0303 .note).modSafeEnd
    else c
  | none => c

/-! The commands: each acts ahead of the rest of the tick that it belongs to -/

def execSafeEntry (t : Nat) (s : State) : Host.Outcome State Fault Refusal :=
  act (fun c =>
    let c := c.advance t
    if c.entryDue then c.safeEntry (c.sys.blk + 1) else c) s

def execCoreReload (verified : Bool) (s : State) : Host.Outcome State Fault Refusal := act (Chip.coreReload verified) s

def execSafeExitStart (s : State) : Host.Outcome State Fault Refusal := act (fun c => c.exitStart (c.sys.blk + 1)) s

def execSafeStateEnd (s : State) : Host.Outcome State Fault Refusal := act (fun c => c.safeEnd (c.sys.blk + 1)) s

def execExitAbandon (s : State) : Host.Outcome State Fault Refusal := act Chip.exitAbandon s

end Sys2Proof.Machine
end

