-- ==== Sys2Proof/Machine/Cycle.lean ====
section
/-! DEFINITION. What interrupts the block cycle and what runs beside it: the cold press (05 R137 to R140) and the serial
ports under it, MEDIA silences (01 R22), silent crossings (01 R14, R16), reloads of the index (19 R494), repairs at block
boundaries (17 R453, R454; 04 R124), the background rinse (17 R456), and the ends of ramps, crossfades and holds. -/

namespace Sys2Proof.Machine

/-! The cold press (05 R137) -/

/-- Runs `f` with the profile and the items that the cold press brings. -/
def Chip.coldView (k : ColdPress) (f : Chip → Chip) (c : Chip) : Chip :=
  let p := c.prof
  let g := c.sys.now
  (f (c.onSys fun s => { s with profile := k.profile, now := { g with items := setItems (c.itemsAt (2 ^ 64)) k.items } })).onSys fun s =>
    { s with profile := p, now := g }

/-- The serial ports run in the new profile between the stop of the ticks and tick A (05 R137 step 3). -/
def Chip.portView (f : Chip → Chip) (c : Chip) : Chip :=
  match c.cmd.cold with
  | some k => if k.built then c.coldView k f else f c
  | none => f c

/-- The ports start at the new rate; before audio they stay STOPPED (19 R493). -/
def Chip.coldPorts (c : Chip) : Chip :=
  match c.cmd.cold with
  | some k =>
    if k.built && !k.ports && c.audioOnce then
      (c.coldView k (Chip.sapColdStart k.resume)).onCmd fun d => { d with cold := some { k with ports := true } }
    else c
  | none => c

/-- Tick L + Fo + 3: audio is disabled and ticks stop; the CMD core powers the engines of the new profile (05 R137 steps 2
and 3, 17 R449). -/
def Chip.tickStop (k : ColdPress) (N : Nat) (c : Chip) : Chip :=
  let on := engPowered k.profile
  let c := (indices 24 fun n => on.getLsbD n && !c.sys.engPwr.getLsbD n).foldl (fun c n => c.initEngine n) c
  let c := c.onSys fun s => { s with
    blk := N, audioEn := false, tickRun := false, late := [], engPwr := on, engWas := c.powered, engAt := c.clk }
  let c := c.onGraph fun g => { g with
    run := false, out := [], left := [], fade := none, netFade := none, at1 := none, at2 := none }
  let c := c.sapColdStop.onSap fun s => { s with play := (0, []) }
  let c := c.onMods fun _ x => { x with drive := [], sinkPeak := 0 }
  c.onCmd fun d => { d with cold := some { k with stopped := true, built := true } }

/-- The block at which ticks stop. -/
def Chip.stopAt (k : ColdPress) (c : Chip) : Nat := k.land + fadeBlocks c.prof + 3

/-- A block index of the old profile, in blocks of the new one. -/
def reindex (old new : Profile) (epoch epoch' : Int) (b : Nat) : Nat :=
  (((b : Int) * blkLen old + (epoch - epoch') * fsOf old) * fsOf new / (fsOf old * blkLen new)).toNat

/-- What the other units keep across a cold press, in the new blocks (05 R139; 10 R270; 09 R250). A pilot window that spans the
stop of the ticks ends there, invalid; `b` is the block length before. -/
def Chip.coldUnits (conv : Nat → Nat) (b A : Nat) (c : Chip) : Chip :=
  let c := c.onPow fun p => { p with badBelow := A + fadeBlocks c.prof + 3 }
  let c := c.onMods fun m x =>
    let cut := x.win.map fun q => { q with ok := false, last := q.first + q.n / b }
    let x : ModCh := { x with
      since := conv x.since, unreported := x.unreported.map (fun q => (q.1, conv q.2)), win := none, done := if cut.isSome then cut else x.done
      extra := none, point := none, job := none }
    if x.st = .retry then x.retry m c else x
  c.onAin fun a => { a with ins := a.ins.map fun x => { x with mutedFrom := x.mutedFrom.map fun _ => 0 } }

/-- The twin at tick A (05 R140, R142): nothing of the old profile's blocks remains; mends and captures begin again. -/
def Chip.coldTwin (A : Nat) (c : Chip) : Chip :=
  c.onTwin fun t => { t with
    past := [], frame := none, caps := [], covered := [], bulk := [], started := [], swapAt := t.swapAt.map fun _ => A
    mending := mmap t.mending fun _ _ => A - 3, asked := t.asked.map fun q => (q.1, none)
    peerProfile := t.peerProfile.map fun _ => c.prof }

/-- The flow table of the new configuration, and cleared windows (05 R140, 06 R150). -/
def Chip.coldFlows (A : Nat) (c : Chip) : Chip :=
  let p := c.prof
  let items := c.sys.now.items
  let out := (flowCtxs items).any fun x => flowIt items x 1 ≠ 0 && !ctxFits p items x
  let c := if out then c.raise 0x0912 .note else c
  (c.onFlow fun u => { u with
    table := (buildTable p items).getD u.table, airing := [], built := none, peerDone := false, ctx := retireCtxs items u.ctx }).listenReset A

/-- Presses that the stop of the ticks has overtaken: what they press is in force from tick A on, whatever their landing
index (05 R140). The pages they hold return to FREE: every ring is allocated anew (04 R126). -/
def Chip.coldGather (c : Chip) : Chip :=
  let ps := c.cmd.presses
  let items := c.itemsAt (2 ^ 64)
  let c := (c.freeFilling (ps.flatMap fun q => pagesOf q.pages)).onSys fun s => { s with now := { s.now with items := items } }
  let c := c.onCmd fun d => { d with presses := [] }
  ps.foldl (fun c q => match q.slot with
    | some k => c.endJob k .done 0 [lo32 q.land, hi32 q.land]
    | none => c) c

/-- Tick A: the new profile, its items and its cleared graph are in force (05 R137 steps 4 and 5, R138 to R140). -/
def Chip.coldResume (k : ColdPress) (c : Chip) : Chip :=
  let A := k.resume
  let c := c.coldPorts
  let oldP := c.prof
  let old := c.sys.now.items
  let ids := (c.cmd.presses.flatMap fun q => q.items.map Prod.fst) ++ k.items.map Prod.fst
  let c := c.coldGather
  let c := c.onSys fun s => { s with
    profile := k.profile, now := { items := setItems s.now.items k.items }, engPwr := engPowered k.profile, blk := A, reload := true
    tickRun := true, mediaSilent := false, watch := c.clk, silentUntil := A + 2, late := [], ahead := none
    assign := s.assign + 1 }
  let c := c.coldChains
  let g : Gen := { items := c.sys.now.items }
  let c := c.onSys fun s => { s with now := g, prev := g, prev2 := g }
  let c := (c.onCmd fun d => { d with cold := none }).clearGraph g.items (A + 3) (A + 3)
  let dang := danglingSel c.prof g.items
  let c := c.onGraph fun q => { q with dangling := dang, run := c.audioOnce && !c.err.safe }
  let c := if dang then c.raise 0x1011 .note else c
  let c := (c.unitsLand ids old g.items A).onSys fun s => { s with audioEn := c.audioOnce }
  let c := if c.audioOnce then (List.range 64).foldl (fun c m => c.modLand ids g.items m) c else c
  let c := c.divergenceEnds ids old g.items
  let epoch := item 1 0 1
  let conv := reindex oldP k.profile (itemIn old epoch) (itemIn g.items epoch)
  let c := ((c.coldUnits conv (blkLen oldP) A).coldTwin A).coldFlows A
  let c := if c.audioOnce then c.setFade 0 one30 (A + 3) else c
  let moved := itemIn old epoch ≠ itemIn g.items epoch
  let faster := fsOf oldP ≠ fsOf k.profile && c.refSel 0xA = 0
  let c := c.onRefIn 3 fun i => { i with rateMoved := i.rateMoved || faster }
  let c := c.onFlow fun u => { u with
    missFrom := (A + 3 + c.W - 1) / c.W * c.W
    ctx := mmap u.ctx fun _ q => { q with quietUntil := 0, noted := if moved then none else q.noted } }
  let c := c.onErr fun e => { e with seen := [], overruns := [], handling := e.handling.map fun h => (h.1, h.2.1, A - 1) }
  c.endJob k.slot .done 0 [lo32 k.land, hi32 k.land, lo32 A, hi32 A]

/-- The cold press that waits for tick A, once that tick has come. -/
def Chip.coldDue (c : Chip) : Option ColdPress :=
  match c.cmd.cold with
  | some k =>
    let epoch := (itemIn (setItems c.sys.now.items k.items) (item 1 0 1)).toNat
    if k.stopped && k.resume ≤ blockAt k.profile epoch c.nowNs then some k else none
  | none => none

/-- Tick A, and an entry into the safe state that waited for it (18 R474). -/
def Chip.coldTick (c : Chip) : Chip :=
  match c.coldDue with
  | some k => (c.coldResume k).safeEntry k.resume
  | none => c

/-! MEDIA silences (01 R22) -/

/-- No tick has come within 1.5 block periods. -/
def Chip.silentDue (c : Chip) : Bool :=
  c.ticking && c.sys.tickRun && !c.sys.mediaSilent && c.overdue c.sys.watch

/-- MEDIA is declared silent: the graph stops with the last completed pass. A pending entry into the safe state takes
effect (18 R474). -/
def Chip.mediaStop (c : Chip) : Chip :=
  if !c.silentDue then c
  else
    let c := c.onSys fun s => { s with mediaSilent := true, tickRun := false, late := [] }
    let c := (c.skipSettle.onGraph fun g => { g with
      run := false, out := [], left := [], at1 := none, at2 := none }).raise 0x1101 .fault
    if c.entryDue then c.safeEntry (c.sys.blk + 1) else c

/-- The window of block N begins where that of the block before it differs: nothing has been raised in it (02 R58). -/
def Chip.window (N : Nat) (c : Chip) : Chip :=
  if N / c.W = c.sys.blk / c.W then c else c.onErr fun e => { e with seen := [] }

/-- Vector 27 pulses at tick N (15 R414). -/
def Chip.tickPulse (N : Nat) (c : Chip) : Chip :=
  let div := c.host.tickDiv.toNat
  if div ≠ 0 ∧ N % div = 0 then c.pulse 27 else c

/-- Ticks resume at J: the index is loaded from media time, and blocks J and J + 1 have no captures. -/
def Chip.mediaBack (c : Chip) : Chip :=
  if !c.sys.mediaSilent || !c.ticking then c
  else
    let J := blockAt c.prof c.epoch c.nowNs
    let c := (c.window J).onErr fun e => { e with exiting := e.exiting.map (max J ·), overruns := [] }
    let c := c.onSys fun s => { s with
      blk := J, reload := true, mediaSilent := false, tickRun := true, watch := c.clk, silentUntil := J + 2 }
    let c := (c.listenReset J).firSettle
    let c := c.onGraph fun g => { g with run := c.sys.audioEn && !c.err.safe }
    c.onTwin fun t => { t with past := [], frame := none, caps := [] }

/-! Silent crossings (01 R14, R16) -/

/-- The ledger index of a crossing, where it has one (03 R97). -/
def ledgerOf (k : Nat) : Option Nat :=
  match k with
  | 1 => some 0 | 2 => some 1 | 3 => some 2 | 4 => some 3 | 6 => some 4 | 7 => some 5 | 10 => some 6 | 12 => some 7 | _ => none

/-- A producer stopped within a write keeps its credit IN_FLIGHT until beats resume. How many credits are IN_FLIGHT or HELD
at a tick while entries flow is left open: the model shows every other credit FREE (log 72). -/
def Chip.credit (k : Nat) (hold : Bool) (c : Chip) : Chip :=
  match ledgerOf k with
  | none => c
  | some q =>
    let move := fun (x : Nat × Nat × Nat) =>
      if hold then if x.1 = 0 then x else (x.1 - 1, x.2.1 + 1, x.2.2)
      else if x.2.1 = 0 then x else (x.1 + 1, x.2.1 - 1, x.2.2)
    c.onGraph fun g => { g with cred := lmod g.cred q move }

/-- Whether a held credit is out. -/
def Chip.creditOut (k : Nat) (c : Chip) : Bool :=
  match ledgerOf k with
  | some q => 0 < (c.graph.cred.getD q (0, 0, 0)).2.1
  | none => false

/-- What the destination does when a source is silent (01 R14). -/
def Chip.sourceSilent (k : Nat) (c : Chip) : Chip :=
  match k with
  | 5 => c.modClockError
  | 6 => c.inputLose
  | 9 => c.linkFalls 0 true
  | 11 => c.linkFalls 1 true
  | 13 => c.failT
  | 15 => (c.onMac 2 fun x => { x with up := false, cut := x.cut || x.portEn }).ptpIdle 2
  | _ => c

/-- A crossing becomes source silent. -/
def Chip.xqStop (k : Fin 19) (midWrite : Bool) (c : Chip) : Chip :=
  if c.sys.xqSilent.getLsbD k.val then c
  else
    let bit := BitVec.ofNat 19 (2 ^ k.val)
    let c := c.onSys fun s => { s with xqSilent := s.xqSilent ||| bit, xqLatch := s.xqLatch ||| bit }
    (if midWrite then c.credit k.val true else c).sourceSilent k.val

/-- It leaves that condition. -/
def Chip.xqStart (k : Fin 19) (c : Chip) : Chip :=
  if !c.sys.xqSilent.getLsbD k.val then c
  else
    let bit := BitVec.ofNat 19 (2 ^ k.val)
    let c := c.onSys fun s => { s with xqSilent := s.xqSilent &&& ~~~bit, xqWhole := s.xqWhole &&& ~~~bit }
    let c := if c.creditOut k.val then c.credit k.val false else c
    match k.val with
    | 5 => c.clockEnds
    | 6 => c.inputResume
    | 10 => c.linkKick 0
    | 12 => c.linkKick 1
    | 15 => (c.onMac 2 fun x => { x with up := x.portEn, cut := x.cut && !x.portEn }).ptpIdle 2
    | _ => c

/-! Repairs at block boundaries -/

/-- The CMD core rewrites a filter bank whose CRC failed (04 R124). -/
def Chip.rewriteBank (m : Nat) (c : Chip) : Chip :=
  if m ∈ c.graph.rewrites then
    (c.onGraph fun g => { g with rewrites := g.rewrites.filter (· ≠ m) }).raise 0x1042 .fault m
  else c

/-- All rewrites that are due; the pressed configuration is rewritten without a record. -/
def Chip.rewrites (c : Chip) : Chip :=
  let c := (c.graph.rewrites.filter (· < 64)).foldl (fun c m => c.rewriteBank m) c
  c.rewriteFlow.onGraph fun g => { g with rewrites := g.rewrites.filter (· ≠ 65) }

/-- The CMD core rewrites code and coefficients of an engine that trapped (17 R453): they are those of the image, the words on
which it trapped are good again, and its recursive state stays. -/
def Chip.engineReload (n : Nat) (c : Chip) : Chip :=
  if c.sys.engTrap.getLsbD n then
    let mine := fun (a : Nat) => decide (targetIndex a = 3 + n)
    let ws := c.sys.trapWords.filter mine
    let code := fun (a : Nat) => ws.contains a || (mine a && (Config.engineWord a).isNone)
    let c := c.onMem fun m => { m with bytes := { m.bytes with
      cells := m.bytes.cells.filter fun q => !code (eccBase q.1)
      tags := m.bytes.tags.filter fun q => !code (eccBase q.1)
      upset := m.bytes.upset.filter fun u => !code u.1 } }
    c.onSys fun s => { s with
      engTrap := s.engTrap &&& ~~~(BitVec.ofNat 24 (2 ^ n)), trapWords := s.trapWords.filter fun a => !mine a }
  else c

/-- An engine traps on an uncorrectable instruction or untagged word (17 R453) at `a`. -/
def Chip.engineTrapAt (n a : Nat) (c : Chip) : Chip :=
  let c := c.onMem fun m => { m with ue := m.ue + 1, ueSeen := true }
  let c := (c.memEvent 2 (0x10 + n) a (some 0x0211)).raise 0x0211 .fault a
  c.onSys fun s => { s with engTrap := s.engTrap ||| BitVec.ofNat 24 (2 ^ n), trapWords := eccBase a :: s.trapWords }

/-- An engine traps; where in its memory is a free value. -/
def Chip.engineTrap (n : Nat) (c : Chip) : Chip :=
  let a := 0x20000000 + n * 0x40000 + (Config.freeWord c.fresh).toNat % 0x10000 * 4
  (c.tick.strike [{ addr := a, uncorrectable := true }]).engineTrapAt n a

/-- A core or an engine reads a word of its own memory (17 R451, R453). -/
def Chip.ownRead (c : Chip) (a : Word) : Chip :=
  let t := targetIndex a.toNat
  let w := eccBase a.toNat
  if t = 1 ∨ t = 2 then
    let core : Byte := BitVec.ofNat 8 t
    if c.err.traps core then c else (c.coreRead core a.toNat 1).2
  else if 3 ≤ t ∧ t < 27 ∧ c.powered.getLsbD (t - 3) ∧ !c.sys.engTrap.getLsbD (t - 3) then
    match c.mem.bytes.ecc w with
    | .good => c
    | .ce => c.darn (0x10 + (t - 3)) w
    | .ue => c.engineTrapAt (t - 3) w
  else c

/-- A halted DMA channel is restarted at the access that failed (17 R454): a word of the CMD core's or the FLOW block's areas of
shared SRAM is rewritten first; any other must be good by then. An access that was refused is refused again. -/
def dmaRestart (ch : Nat) (s : Hamper × Chip) : Hamper × Chip :=
  let c := s.2
  if !c.dmaHalted ch then s
  else
    let a := (c.mem.dmaAddr.getD ch 0).toNat
    let master : Byte := BitVec.ofNat 8 (0x30 + ch)
    let mine := decide (targetIndex a = 28) && !hostOwned a
    let c := if mine then c.store a (c.mem.bytes.bytes a (eccSize (targetIndex a))) else c
    match c.busCause master true a 4, c.mem.bytes.ecc a with
    | some k, _ => (s.1, c.refuse master true 4 a k)
    | none, .ue => (s.1, c.haltDma ch a)
    | none, _ =>
      let c := c.correct (0x30 + ch) [a]
      let c := c.onMem fun m => { m with dmaHalt := m.dmaHalt &&& ~~~(BitVec.ofNat 4 (2 ^ ch)) }
      if ch < 3 then releaseHeld ch (s.1, c) else (s.1, c)

/-! The background rinse (17 R456) -/

/-- An ECC word that the background rinse reads. -/
def Chip.rinsed (a : Nat) (c : Chip) : Bool :=
  match targetIndex a with
  | 1 | 2 | 27 => true
  | 28 => !hostOwned a
  | t => 3 ≤ t && t < 27 && c.powered.getLsbD (t - 3)

/-- A pass has read every word: what struck is darned, or logged and left. -/
def Chip.rinsePass (corrected uncorrected : List Nat) (c : Chip) : Chip :=
  if !c.mem.bgRun then c
  else
    let mine := fun (l : List Nat) (u : Bool) => (l.filter c.rinsed).map fun a => { addr := a, uncorrectable := u : Upset }
    let c := c.strike (mine corrected false ++ mine uncorrected true)
    let hits := c.mem.bytes.upset.filter fun q => c.rinsed q.1
    let bad := (hits.filter fun q => q.2).map Prod.fst
    let c := (hits.filter fun q => !q.2).foldl (fun c q => c.darn 0x02 q.1) c
    let c := bad.foldl (fun c w =>
      let first := some w = bad.head?
      let c := (c.onMem fun m => { m with ue := m.ue + 1, ueSeen := true }).memEvent 5 0x02 w (if first then some 0x0215 else none)
      if first then c.raise 0x0215 .fault w else c) c
    c.onMem fun m => { m with bgPasses := m.bgPasses + 1, bgUe := w32 bad.length }

/-! Ends of ramps and crossfades (03 R79, R86; 04 R122; 03 R74) -/

/-- A selector, and a ramp, that has reached its last sample. -/
def TapSt.fadesEnd (t : TapSt) : TapSt := { t with sel := t.sel.pass 0 }
def TapSt.rampsEnd (t : TapSt) : TapSt := { t with gain := t.gain.pass 0, duck := t.duck.pass 0 }

def Chip.fadesEnd (c : Chip) : Chip :=
  c.onGraph fun g => { g with
    bus := mmap g.bus fun _ b => { b with taps := mmap b.taps fun _ t => t.fadesEnd }
    chain := mmap g.chain fun _ k => { k with sel := k.sel.pass 0, dly := k.dly.pass 0 }
    sink := mmap g.sink fun _ k => { k with sel := k.sel.pass 0 } }

def Chip.rampsEnd (c : Chip) : Chip :=
  let c := c.onGraph fun g => { g with
    bus := mmap g.bus fun _ b => { b with scale := b.scale.pass 0, taps := mmap b.taps fun _ t => t.rampsEnd }
    chain := mmap g.chain fun _ k => { k with gain := k.gain.pass 0, comp := k.comp.pass 0, mute := k.mute.pass 0 } }
  c.onMods fun _ x => { x with gain := x.gain.pass 0, lrGain := x.lrGain.pass 0 }

/-- An exchange that has reached its last sample ends: the new bank is the pressed bank. -/
def Chip.exchangeEnd (m : Nat) (c : Chip) : Chip :=
  let finish := fun f : FirSt => match f.xchg with
    | some (s, _, j) => if s ≤ j then { f with bank := f.shadow, xchg := none, busy := false } else f
    | none => f
  match mget? c.graph.fir m with
  | some f => c.onGraph fun g => { g with fir := mset g.fir m (finish f) }
  | none => c

/-- An open gate whose hold has run out closes. -/
def Chip.gateExpiry (s : Nat) (c : Chip) : Chip :=
  match mget? c.graph.src s with
  | some q =>
    if q.gate && q.hold = 0 && 0 < c.itN (item 0x02 s 0x007) then
      c.onGraph fun g => { g with src := mset g.src s { q with gate := false } }
    else c
  | none => c

/-! The commands -/

/-- A frame of a serial port with what its DIN carries (08 R226). -/
def execSapFrame (p : Fin 16) (din : List Bool) (s : State) : Host.Outcome State Fault Refusal :=
  act (Chip.portView (Chip.sapFrame p.val din)) s

/-- The mute of a pair ends when its hold has run out (08 R242). -/
def execNonaudioRelease (p k : Fin 16) (s : State) : Host.Outcome State Fault Refusal :=
  act (Chip.portView fun c =>
    let hold := c.itN (item 0x09 p.val 0x11)
    let release := fun (x : SapPort) => if hold ≤ mget x.pairs k.val 0 then { x with pairs := mdel x.pairs k.val } else x
    c.onSap fun u => { u with ports := lmod u.ports p.val release }) s

/-- A waiting channel crosses zero in the next frame (08 R236, R237). A transmit channel's sample is the part's own; a receive
channel's is what its slot brings, `word` with the slot's bits left-justified. -/
def execZeroCrossing (p : Fin 16) (q : SapSlot) (word : Word) (s : State) : Host.Outcome State Fault Refusal :=
  act (Chip.portView fun c =>
    let x := c.sap.ports.getD p.val {}
    let slot := slotOf (if q.tx then x.txMask else x.rxMask) q.ch.val
    let v := if q.tx then c.sapTx p.val x.frame x slot else (enter word).v
    if crossed (mget (if q.tx then x.txWait else x.rxWait) slot 0) x.frame (mget? (if q.tx then x.txLast else x.rxLast) slot) v then
      c.onSap fun u => { u with ports := lmod u.ports p.val (SapPort.endWait q.tx q.ch.val) }
    else c) s

/-- A wait runs out (08 R236). -/
def execZcTimeout (p : Fin 16) (tx : Bool) (ch : Fin 32) (s : State) : Host.Outcome State Fault Refusal :=
  act (Chip.portView fun c =>
    let x := c.sap.ports.getD p.val {}
    let slot := slotOf (if tx then x.txMask else x.rxMask) ch.val
    match mget? (if tx then x.txWait else x.rxWait) slot with
    | some f =>
      if f + zcFrames c.prof (c.itN (item 0x09 p.val 0x0F)) ≤ x.frame then
        (c.onSap fun u => { u with ports := lmod u.ports p.val (SapPort.endWait tx ch.val) }).sapTimeouts p.val 1
      else c
    | none => c) s

/-- The clocks qualify after an error (10 R272, 08 R239). -/
def execClockQualified (t : Nat) (s : State) : Host.Outcome State Fault Refusal :=
  act (fun c =>
    let c := c.advance t
    if c.pow.clkQual && c.pow.errAt + 10 * msClk ≤ c.clk then c.modQualified.portView Chip.sapQualified else c) s

/-- The ports restart 6 ms before tick A (08 R241). -/
def execSapColdRestart (s : State) : Host.Outcome State Fault Refusal := act Chip.coldPorts s

def execColdPressResume (t : Nat) (s : State) : Host.Outcome State Fault Refusal := act (fun c => (c.advance t).coldTick) s

/-- A check of every ledger while ticks are stopped, every 66,000 CORE clocks (05 R138). -/
def execColdPressLedgerCheck (t : Nat) (s : State) : Host.Outcome State Fault Refusal :=
  actHam (fun p =>
    let c := p.2.advance t
    match c.cmd.cold with
    | some k => (p.1, if k.stopped && c.sys.tickAt + 66000 ≤ c.clk then ledgerCheck p.1 (c.stopAt k) c else c)
    | none => (p.1, c)) s

def execMediaSilent (t : Nat) (s : State) : Host.Outcome State Fault Refusal := act (fun c => (c.advance t).mediaStop) s

def execMediaResume (t : Nat) (s : State) : Host.Outcome State Fault Refusal := act (fun c => (c.advance t).mediaBack) s

def execXqSourceSilent (k : Fin 19) (midWrite : Bool) (s : State) : Host.Outcome State Fault Refusal :=
  act (fun c => c.xqStop k midWrite) s

def execXqSourceResume (k : Fin 19) (s : State) : Host.Outcome State Fault Refusal := act (fun c => c.xqStart k) s

/-- A counter step before audio reloads the index, ahead of the next tick (19 R494). -/
def execTickIndexReload (s : State) : Host.Outcome State Fault Refusal :=
  act (fun c =>
    if c.sys.reload && c.sys.tickRun && c.ticking && !c.audioOnce then
      let b := blockAt c.prof c.epoch c.nowNs
      ((c.window b).onSys fun q => { q with blk := b, reload := false }).listenBack (b + 1)
    else c) s

def execFirBankRewrite (m : Fin 64) (s : State) : Host.Outcome State Fault Refusal := act (fun c => c.rewriteBank m.val) s

def execEngineReload (n : Fin 24) (s : State) : Host.Outcome State Fault Refusal := act (fun c => c.engineReload n.val) s

def execDmaRestart (ch : Fin 4) (upsets : List Upset) (s : State) : Host.Outcome State Fault Refusal :=
  actHam (fun p => dmaRestart ch.val (p.1, p.2.strike upsets)) s

def execBackgroundRinsePass (corrected uncorrected : List Nat) (s : State) : Host.Outcome State Fault Refusal :=
  act (fun c => c.rinsePass corrected uncorrected) s

def execCrossfadeEnd (s : State) : Host.Outcome State Fault Refusal := act Chip.fadesEnd s

def execRampEnd (s : State) : Host.Outcome State Fault Refusal := act Chip.rampsEnd s

def execFirExchangeEnd (m : Fin 64) (s : State) : Host.Outcome State Fault Refusal := act (fun c => c.exchangeEnd m.val) s

def execGateHoldExpiry (src : BitVec 12) (s : State) : Host.Outcome State Fault Refusal := act (fun c => c.gateExpiry src.toNat) s

/-- The window boundary of a sink, ahead of the output block that its next exit check is of (02 R60): that of a modulator runs
in the MOD block (02 R50), one tick after the pass that computed its samples. -/
def execSinkWindowBoundary (e : BitVec 12) (s : State) : Host.Outcome State Fault Refusal :=
  act (fun c =>
    let k := e.toNat
    if c.graph.run && (mget? c.graph.sink k).isSome then
      if isMod k then c.sinkBoundary c.graph.outItems k (c.sys.blk + 1) else c.sinkBoundary c.sys.prev.items k (c.sys.blk + 2)
    else c) s

end Sys2Proof.Machine
end

