-- ==== Sys2Proof/Machine/Block.lean ====
section
/-! DEFINITION. The block tick (01 R24): the three passes, the transfer out of their results, and the duties of the SUP core
and the edges at every tick. -/

namespace Sys2Proof.Machine

/-! Unfinished passes (01 R26, R543) -/

/-- Samples of output `k` of a pass that the engine which makes it has handed on, of a block of `B`. -/
def handedOn (late : List LateOut) (eng : Nat → Nat → Nat) (B pass k : Nat) : Nat :=
  (late.filter fun l => l.pass.val = pass).foldl (fun n l => match l.outs with
    | none => if eng pass k = l.engine.val then 0 else n
    | some os => (os.filter fun o => o.1 = k).foldl (fun n o => min n o.2) n) B

/-- Outputs of a pass, among those `ok` allows of the `n` from code `base` on, of which a sample was not handed on. -/
def lateOuts (late : List LateOut) (eng : Nat → Nat → Nat) (B pass base n : Nat) (ok : Nat → Bool) : List Nat :=
  if late.any fun l => l.pass.val = pass then
    (List.range n).filter fun k => ok (base + k) && handedOn late eng B pass (base + k) < B
  else []

/-- What was not handed on of a pass is poison: `m` holds its outputs by number from code `base` on. -/
def replaceLate (late : List LateOut) (eng : Nat → Nat → Nat) (B pass base n : Nat) (ok : Nat → Bool)
    (m : Map (List Smp)) : Map (List Smp) :=
  (lateOuts late eng B pass base n ok).foldl (fun m k =>
    mset m k (cutAt (handedOn late eng B pass (base + k)) (mget m k (silence B)))) m

/-! Inputs (01 R17, R23) -/

/-- The captures of block N - 1, kept for the pair timing of 12 R327. A crossing that stopped within the block still gives
the entries that were in its queue (01 R16); one that was silent throughout gives none. -/
def Chip.captureInputs (N : Nat) (inp : TickIn) (c : Chip) : Chip :=
  let silent := fun k => c.sys.xqWhole.getLsbD k
  let words := fun (ws : List (Option Word)) => (List.range c.B).map fun i => (ws[i]?.join.map enter).getD undelivered
  let serial := c.sapSources (N - 1)
  let ain := if silent 2 then [] else c.ainSources (N - 1) inp.ain
  let sense := if silent 3 then [] else (inp.sense.filter fun q => q.1 < 128).map fun q => (2592 + q.1, words q.2)
  let cap := (serial ++ ain ++ sense).foldl (fun (m : Map (List Smp)) q => mset m q.1 q.2) []
  c.onTwin fun t => { t with caps := mset (t.caps.filter fun q => N ≤ q.1 + 3) (N - 1) cap }

/-- The block in which the sense samples of graph block N were captured (05 R139). -/
def Chip.senseBlock (N : Nat) (c : Chip) : Nat := if c.pairTiming then N - 2 else N - 1

/-- The sense samples of graph block N. -/
def Chip.senseInputs (N : Nat) (c : Chip) : Map (List Smp) :=
  if N < c.sys.silentUntil then [] else (mget c.twin.caps (c.senseBlock N) []).filter fun q => 2592 ≤ q.1

/-- Every delivered input of graph block N; after a cold press, a MEDIA silence and audio enable two blocks read none but
network samples. -/
def Chip.blockInputs (N : Nat) (c : Chip) : Map (List Smp) × Chip :=
  let s := c.speechSources (N - 1)
  let c := s.2
  let net := c.netSources c.sys.now.items
  let edge := if N < c.sys.silentUntil then [] else
    ((c.localInputs N).filter fun q => q.1 < 2592) ++ c.senseInputs N ++ s.1
  ((net ++ edge).foldl (fun m q => mset m q.1 q.2) [], c)

/-- Pilot windows take the sense samples of the block (10 R279). -/
def Chip.measure (N : Nat) (c : Chip) : Chip :=
  let sense := c.senseInputs N
  (List.range 64).foldl (fun c m =>
    let v := mget? sense (2592 + 2 * m)
    let i := mget? sense (2593 + 2 * m)
    let whole := fun (x : Option (List Smp)) => x.isSome && !(x.getD []).contains undelivered
    c.modSense N (c.senseBlock N) m ((v.getD []).map gathered) ((i.getD []).map gathered) (whole v && whole i)) c

/-! The passes (01 R24) -/

/-- The replay store takes the block (12 R335). -/
def Chip.pushPast (N : Nat) (ins : Map (List Smp)) (c : Chip) : Chip :=
  if c.twin.role = .solo then c
  else
    let items := c.sys.now.items
    let e : Past := {
      blk := N, ins := ins, cfg := c.sys.now, pass1 := c.graph.pass1, src := c.graph.src, bus := c.graph.bus
      last := (c.flow.ctx.filter fun q => flowIt items q.1 1 = 2 && flowIt items q.1 7 = 1).map fun q => (q.1, q.2.last)
      waits := c.waitsNow }
    c.onTwin fun t => { t with past := (e :: t.past).take 16 }

/-- Pass 1 of graph block N. -/
def Chip.firstPass (N : Nat) (ins : Map (List Smp)) (late : List LateOut) (c : Chip) : Chip :=
  let r := pass1 c.prof c.sys.now N ins c.graph
  let ok := fun k => (k < 2752 && sourceOk c.prof k) || busCodeOk c.prof k
  let g := { r.1 with pass1 := replaceLate late c.engineFor c.B 0 0 3584 ok r.1.pass1, at1 := some N }
  ((({ c with graph := g }).countClears r.2.1).countDefers r.2.2).pushPast N ins

/-- Pass 2 of graph block n. -/
def Chip.secondPass (n : Nat) (late : List LateOut) (c : Chip) : Chip :=
  let r := c.pass2 c.sys.prev n
  let left := replaceLate late c.engineFor c.B 1 3584 512 (chainCodeOk c.prof) r.1
  let c := r.2.onGraph fun g => { g with pass2 := left, at2 := some n }
  let rings := if c.paired then (List.range 8).map fun r => c.ringDigest (48 + r) else []
  c.onPast n fun e => { e with chain2 := c.graph.chain, rings := rings }

/-- The sinks that pass 3 fills. -/
def Chip.sinksOf (cfg : Gen) (c : Chip) : List Nat :=
  let mods := ((List.range 64).filter fun m => (c.pilotFreq m).isSome || (mget? c.graph.fir m).isSome).map (2560 + ·)
  let named := elements cfg.items 0x07 c.graph.sink
  (named.filter fun e => sinkOk c.prof e) ++ mods.filter fun e => !named.contains e

/-- The fade of a cold press or an exit on a block of sink e (05 R137). -/
def Chip.faded (O e : Nat) (xs : List Smp) (c : Chip) : List Smp :=
  match (if e < 2048 then c.graph.netFade else c.graph.fade) with
  | some (r, first) => if first ≤ O then xs.mapIdx fun i x => writeBack 30 (smul x (r.now i)) else xs
  | none => xs

/-- The fades move on by a block. -/
def Chip.fadeOn (O : Nat) (c : Chip) : Chip :=
  c.onGraph fun g => { g with fade := fadePass c.B O g.fade, netFade := fadePass c.B O g.netFade }

/-- Filter m, its programme peak, and the pilot of graph block n (10 R278, R288). In TEST the sweep tone alone goes on (10
R268). -/
def Chip.modPath (n m : Nat) (xs : List Smp) (c : Chip) : List Smp × Chip :=
  let f := firBlock c.prof (mget c.graph.fir m {}) xs
  let c := (c.onGraph fun g => { g with fir := mset g.fir m f.2.1 }).countClears f.2.2
  let c := c.onMod m fun x => { x with peak := peakCode (blockPeak f.1) }
  let pilot := c.pilot n m
  if (c.modCh m).st = .test then (if pilot.isEmpty then silence c.B else pilot, c)
  else (if pilot.isEmpty then f.1 else (f.1.zip pilot).map fun q => sat (sadd q.1 q.2), c)

/-- One sink in pass 3 of graph block n: selection, filter and pilot of a modulator, fade, and the exit check of a network or
serial sink on the samples handed on (02 R50). -/
def Chip.sinkPass (n : Nat) (cfg : Gen) (read : Nat → Nat → Smp) (late : List LateOut) (e : Nat) (c : Chip) :
    List Smp × Bool × Chip :=
  let st := mget c.graph.sink e {}
  let x := sinkBlock c.prof cfg e st read
  let c := (c.onGraph fun g => { g with sink := mset g.sink e { st with sel := x.1.pass c.B } }).countDefers (b2n x.2.1)
  let r := if isMod e then c.modPath n (e - 2560) x.2.2 else (x.2.2, c)
  let xs := r.2.faded (n + 3) e r.1
  let h := handedOn late c.engineFor c.B 2 e
  if isMod e then
    let xs := cutAt h xs
    (xs, false, r.2.onMod (e - 2560) fun y => { y with sinkPeak := xs.foldl (fun a z => max a z.v.natAbs) 0 })
  else r.2.exitCheck cfg.items e (n + 3) (xs.take h)

/-- Pass 3 of graph block n: chains, sinks and exit checks; what the network sinks send, with whether any sample of it was
substituted. `src` holds the sources and buses of the block, `lim` its limiter inputs. The sinks are taken in ascending
order: so "the last failure in a block" is settled (02 R64, log 70). -/
def Chip.thirdPass (n : Nat) (src lim : Map (List Smp)) (late : List LateOut) (c : Chip) : Map (List Smp × Bool) × Chip :=
  let cfg := c.sys.prev2
  let B := c.B
  let c := c.firBegin cfg
  let ahead := c.graph.pass2
  let ids := c.chains cfg
  let missed := lateOuts late c.engineFor B 2 3584 512 (chainCodeOk c.prof)
  let named := (missed ++ mkeys ahead).filter fun k => !ids.contains k
  let ch := (ids ++ named).foldl (fun (a : Map (List Smp) × Chip) k =>
    let q := a.2.chainOut cfg k (mget lim k (silence B)) (mget ahead k (silence B))
    (mset a.1 (3584 + k) (cutAt (handedOn late c.engineFor B 2 (3584 + k)) q.1), q.2)) ([], c)
  let read := fun s i => (mget ch.1 s (mget src s [])).getD i {}
  let start : Map (List Smp) × Map (List Smp × Bool) × Chip := ([], [], ch.2)
  let sinks := ch.2.sinksOf cfg
  let missed := (lateOuts late c.engineFor B 2 0 2624 (sinkOk c.prof)).filter fun e => !sinks.contains e
  let r := (sinks ++ missed).foldl (fun (a : Map (List Smp) × Map (List Smp × Bool) × Chip) e =>
    let q := a.2.2.sinkPass n cfg read late e
    (mset a.1 e q.1, if e < 2048 then mset a.2.1 e (q.1, q.2.1) else a.2.1, q.2.2)) start
  let left := (r.1.filter fun q => !isMod q.1 && q.2.length < B).map fun q => (q.1, B - q.2.length)
  let c := (r.2.2.fadeOn (n + 3)).onGraph fun g => { g with out := r.1, outItems := cfg.items, left := left }
  let fill := fun (e : Past) => { e with chain3 := c.graph.chain, fir := c.graph.fir, sink := c.graph.sink, fade := c.graph.netFade, outs := ch.1 : Past }
  let close := fun (e : Past) => let e := fill e; { e with digest := if c.paired then some (c.digests e) else none }
  (r.2.1, c.onPast n close)

/-- The exit check of the samples `xs` of sink e in the output block N, whose earlier samples stay as they are. -/
def Chip.exitTail (N e keep : Nat) (xs : List Smp) (c : Chip) : Chip :=
  let r := c.exitCheck c.graph.outItems e N xs
  r.2.2.onGraph fun g => { g with out := mset g.out e ((mget g.out e []).take keep ++ r.1) }

/-- At tick N, what an unfinished pass 3 did not hand on of the network and serial samples of output block N is replaced, and
meets its exit check (01 R26, R543). -/
def Chip.lateExits (N : Nat) (c : Chip) : Chip :=
  if c.graph.left.isEmpty then c
  else
    let c := c.graph.left.foldl (fun c q => c.exitTail N q.1 (c.B - q.2) (List.replicate q.2 poison)) c
    let c := c.onGraph fun g => { g with left := [] }
    c.onPast (N - 3) fun e =>
      let e := { e with sink := c.graph.sink }
      { e with digest := if e.digest.isSome then some (c.digests e) else none }

/-- The exit check of the modulators, in the MOD block as the samples of output block N come out of XQ_6 (02 R50); none come
while it is silent. -/
def Chip.modExits (N : Nat) (c : Chip) : Chip :=
  let mods := c.graph.out.filter fun q => isMod q.1
  if c.pow.inputLost ∨ c.sys.xqSilent.getLsbD 6 then
    c.onGraph fun g => { g with out := g.out.filter fun q => !isMod q.1 }
  else mods.foldl (fun c q => c.exitTail N q.1 0 q.2) c

/-- Frames of output block O (06 R156, R158, R159): those of the first block after an exit are no silence frames. -/
def Chip.talkOut (O : Nat) (outs : Map (List Smp × Bool)) (late : List LateOut) (c : Chip) : Chip :=
  let items := c.sys.prev2.items
  let stale := (mkeys outs).filter fun e => handedOn late c.engineFor c.B 2 e < c.B
  let leaving := match c.err.exiting with | some L => decide (L + 3 ≤ O) && c.graph.run | none => false
  if c.err.safe && leaving then
    ((c.onErr fun e => { e with safe := false }).talk items O outs stale).onErr fun e => { e with safe := true }
  else c.talk items O outs stale

/-- The passes of block N, and the frames of output block N + 1. -/
def Chip.passes (N : Nat) (ins : Map (List Smp)) (late : List LateOut) (c : Chip) : Chip :=
  let src := c.graph.pass1b
  let lim := c.graph.pass2
  let two := c.graph.at1 = some (N - 1)
  let three := two && c.graph.at2 = some (N - 2)
  let c := c.firstPass N ins late
  let c := if two then c.secondPass (N - 1) late else c.onGraph fun g => { g with at2 := none }
  if three then let r := c.thirdPass (N - 2) src lim late; r.2.talkOut (N + 1) r.1 late
  else if c.err.safe then c.talkOut (N + 1) [] [] else c

/-! The tick -/

/-- The index of the block that begins (01 R19, R21). -/
def Chip.nextBlock (c : Chip) : Nat :=
  if c.sys.reload || !c.sys.tickRun then blockAt c.prof c.epoch c.nowNs else c.sys.blk + 1

/-- Block N begins: its presentation block has closed, and the index and the tick counter move on. The spec does not say
what the 20 bits of CYCLES hold of a longer interval, nor what CYCLES shows when one tick has come: the model keeps the
interval modulo 2^20, and takes the release of RESET_N for the tick before the first (log 71). -/
def Chip.beginBlock (N : Nat) (c : Chip) : Chip :=
  let c := c.listenBack N
  let c := if c.flow.nextClose ≤ N then c.closeBlock N else c
  let c := (c.window N).tickPulse N
  (c.onSys fun s => { s with
    blk := N, cycles := (c.clk - s.tickAt) % 2 ^ 20, tickAt := c.clk, watch := c.clk, tickRun := true, reload := false }).overruns.lateExits N

/-- The safe state at tick N. -/
def Chip.safeTick (N : Nat) (c : Chip) : Chip :=
  let c := c.exitAbandon
  let c := if c.entryDue then c.safeEntry N else c
  c.exitSwap N

/-- A full mend has replaced the mirrored items: they act on the other units as a press does, and the flow table is that of
the new ones (12 R337, log 80). -/
def Chip.configLoaded (old : Items) (N : Nat) (c : Chip) : Chip :=
  let new := c.sys.now.items
  if old = new then c
  else
    (c.unitsLand [] old new N).onFlow fun u => { u with
      table := if lookupKey old = lookupKey new then u.table else (buildTable c.prof new).getD u.table
      ctx := retireCtxs new u.ctx }

/-- Roles, mends and configuration at tick N (12 R334 to R345, 01 R31, 18 R479). A press whose landing index has been passed
still begins the interval of its airing copy (19 R494). -/
def Chip.landTick (N : Nat) (c : Chip) : Chip :=
  let c := (((((c.compare N).takeRole N).takeSwap N).roleSettle).airingStart N).landAt N
  let c := if c.graph.run then c else c.firSettle
  let before := c.sys.now.items
  let c := (c.mendLoad N).configLoaded before N
  let c := if c.boot.audioDue && c.boot.stage = .twin then c.audioStart N else c
  let c := (c.exitStart N).safeEnd N
  match c.cmd.cold with
  | some k => if k.land = N then c.setFade one30 0 (N + 3) else c
  | none => c

/-- Who may issue a locked sequence, and to which targets: any memory but the boot ROM (16 R439). -/
def mayLock (master : Byte) (target : BitVec 5) : Bool :=
  (isCore master || isEngine master) && 0 < target.toNat && target.toNat < 29

/-- Presses that wait, pages, tables, and repairs (06 R170 to R174, 04 R111, 17 R453), and what the cores and the bus do by
themselves (log 93). -/
def Chip.dutyTick (N : Nat) (inp : TickIn) (c : Chip) : Chip :=
  let c := ((((c.airingWithdraw).airingTrack).rebuildComplete N).airingStart N).releasePages N
  let c := c.rewrites
  let c := match inp.tableBad with | some i => c.tableFail i.val | none => c
  let c := match inp.locked with
    | some q => if mayLock q.1 q.2 then c.onBus fun b => { b with lockSeq := q, lockAt := c.clk } else c
    | none => c
  let c := if inp.internal then c.onCmd fun d => { d with fails := true } else c
  let c := match inp.coreTrap with | some k => c.coreFails k | none => c
  let c := (List.range 24).foldl (fun c n => c.engineReload n) c
  (c.settleAwaits).mendJobEnd

/-- What the edges do at tick N: states, captures of the block before, setpoints (01 R25, 08 R226, 10 R272, R276). -/
def Chip.edgeTick (N : Nat) (inp : TickIn) (c : Chip) : Chip :=
  let c := ((c.modExits N).modStates.onMods fun m x => { x with flt := inp.flt.getLsbD m }).captureInputs N inp
  ((c.measure N).sapAlign N).railsTick N

/-- The outputs of block N, which play in it (08 R226, 10 R265). -/
def Chip.playTick (N : Nat) (c : Chip) : Chip :=
  let out := c.graph.out
  let c := c.onSap fun s => { s with play := (N, out) }
  (List.range 64).foldl (fun c m => c.modPlay N m) c

/-- The unfinished passes of a block: those that are given, and of an engine that trapped, where none is given, every one
(17 R453, log 44). -/
def Chip.lateWork (given : List LateOut) (c : Chip) : List LateOut :=
  given ++ ((List.finRange 24).filter fun n => c.sys.engTrap.getLsbD n.val && !given.any fun l => l.engine = n).flatMap fun n =>
    (List.finRange 3).map fun p => { engine := n, pass := p, outs := none }

/-- The engines run their passes; some may trap. -/
def Chip.passTick (N : Nat) (inp : TickIn) (ins : Map (List Smp)) (c : Chip) : Chip :=
  if !c.sys.audioEn then c
  else if !c.graph.run then if c.err.safe then c.talkOut (N + 1) [] [] else c
  else
    let c := match inp.engineTrap.filter fun n => c.powered.getLsbD n.val with
      | some n => c.engineTrap n.val
      | none => c
    let late := c.lateWork inp.late
    (c.readState.passes N ins late).onSys fun s => { s with late := (late.map LateOut.engine).dedup }

/-- A tick that begins block N. A SNAPSHOT sees every update of the tick, and nothing of what block N plays and computes (13
R372). -/
def tickBlock (N : Nat) (inp : TickIn) (p : Hamper × Chip) : Hamper × Chip :=
  let c := (((p.2.beginBlock N).safeTick N).landTick N).dutyTick N inp
  let q := (List.range 4).foldl (fun q ch => dmaRestart ch q) (p.1, c)
  let c := ((ledgerCheck q.1 N q.2).edgeTick N inp).health N inp
  let c := ((snapCapture q.1 N c.settle).sendBlockFrame N).playTick N
  let c := inp.ownReads.foldl Chip.ownRead c
  let i := c.blockInputs N
  let c := (i.2.passTick N inp i.1).capture N
  (q.1, c.onSys fun s => { s with ahead := none, xqWhole := s.xqSilent })

/-- The last tick of a profile, up to the stop of the ticks (05 R137 step 2): what an unfinished pass left is found (01 R26). -/
def Chip.stopTick (k : ColdPress) (N : Nat) (c : Chip) : Chip :=
  let c := ((c.window N).tickPulse N).onSys fun s => { s with blk := N, cycles := (c.clk - s.tickAt) % 2 ^ 20, tickAt := c.clk, watch := c.clk }
  (c.overruns.lateExits N).tickStop k N

/-- The rest of the last tick: its ledgers and SNAPSHOTs. -/
def stopRest (N : Nat) (p : Hamper × Chip) : Hamper × Chip :=
  let c := p.2.onCmd fun d => { d with cold := d.cold.map fun k => { k with ticked := true } }
  (p.1, snapCapture p.1 N (ledgerCheck p.1 N c).settle)

/-- The tick at which TICK_STOP has come already: its CORE clock is that of BLOCK_TICK. -/
def stopLate (before : Nat) (p : Hamper × Chip) : Hamper × Chip :=
  match p.2.cmd.cold with
  | some k =>
    if k.stopped && !k.ticked then
      stopRest p.2.sys.blk (p.1, p.2.onSys fun s => { s with
        cycles := (s.cycles + (p.2.clk - before)) % 2 ^ 20, tickAt := p.2.clk, watch := p.2.clk })
    else p
  | none => p

/-- A block tick: nothing while no ticks come; a cold press or a MEDIA silence that is over ends first. -/
def blockTick (inp : TickIn) (p : Hamper × Chip) : Hamper × Chip :=
  let c := (p.2.advance inp.t).strike inp.upsets
  if c.sys.xqSilent.getLsbD 0 then (p.1, c)
  else
    let c := ((c.coldTick).mediaStop).mediaBack
    if !c.ticking then stopLate c.sys.tickAt (p.1, c)
    else
      let N := c.nextBlock
      match c.cmd.cold with
      | some k => if c.sys.tickRun ∧ c.stopAt k ≤ N then stopRest N (p.1, c.stopTick k N) else tickBlock N inp (p.1, c)
      | none => tickBlock N inp (p.1, c)

/-- Ticks stop, ahead of the rest of the last tick (05 R137). -/
def execTickStop (s : State) : Host.Outcome State Fault Refusal :=
  act (fun c => match c.cmd.cold with
    | some k => if !k.stopped && c.sys.tickRun && c.stopAt k ≤ c.sys.blk + 1 then c.stopTick k (c.sys.blk + 1) else c
    | none => c) s

def execBlockTick (inp : TickIn) (s : State) : Host.Outcome State Fault Refusal := actHam (blockTick inp) s

end Sys2Proof.Machine
end

