-- ==== Sys2Proof/Machine/Packets.lean ====
section
/-! DEFINITION. Taking a packet from the command stream (13 R356 to R363). -/

namespace Sys2Proof.Machine

/-- The header of a packet and its parameter words. -/
def Pkt.hdr (p : Pkt) : Hdr :=
  let w0 := p.words.getD 0 0
  { via := p.via, tag := p.words.getD 1 0, force := w0.getLsbD 16, peer := w0.getLsbD 17, session := p.session, forwarded := p.forwarded }

def pairWords : List Word → List (Word × Word)
  | a :: b :: r => (a, b) :: pairWords r
  | _ => []

def dword (lo hi : Word) : Dword := BitVec.ofNat 64 (join64 lo hi)

/-- The handler of an opcode on parameter words that fit its layout (14 R386 to R400). -/
def handler (opcode : Nat) (h : Hdr) (gen : Nat) (ps : List Word) (c : Chip) : Option Rep × Chip :=
  let w := fun i => ps.getD i 0
  match opcode with
  | 0x0001 => c.cmdHello (w 0)
  | 0x0002 => c.cmdGetVersion
  | 0x0100 => c.cmdTackSet h gen (triples ps)
  | 0x0101 => c.cmdTackGet h gen ps
  | 0x0102 => c.cmdTackClear h gen
  | 0x0103 => c.cmdPress h gen none
  | 0x0104 => c.cmdPress h gen (some (join64 (w 0) (w 1)))
  | 0x0105 => c.cmdPressedGet h gen ps
  | 0x0106 => c.cmdTackList h gen (w 0)
  | 0x0200 => c.cmdJobStatus (w 0)
  | 0x0201 => c.cmdJobResult (w 0) (w 1) (w 2)
  | 0x0202 => c.cmdJobAbandon (w 0) (w 1)
  | 0x0300 => c.cmdSnapshot h gen (pairWords (ps.drop 1))
  | 0x0301 => c.cmdLedgerRead
  | 0x0302 => c.cmdCountersRead (w 0) (w 1) (w 2)
  | 0x0400 => c.cmdRinse h (w 0) (w 1)
  | 0x0401 => c.cmdFill h (w 0) (w 1) (w 2) (w 3)
  | 0x0500 => c.cmdLineSweep h (w 0)
  | 0x0501 => c.cmdPilotMeasure h (dword (w 0) (w 1)) (w 2)
  | 0x0502 => c.cmdChannelRetry (dword (w 0) (w 1))
  | 0x0503 => c.cmdSelfTest h (w 0)
  | 0x0600 => c.cmdRebuild h
  | 0x0700 => c.cmdRefForce (w 0)
  | 0x0701 => c.cmdRefClear
  | 0x0800 => c.cmdTwinMend h (dword (w 0) (w 1))
  | 0x0801 => c.cmdTwinSwap h gen
  | 0x0802 => c.cmdTwinForceLead h
  | 0x0900 => c.cmdImageStage (w 0) (w 1) (ps.drop 2)
  | 0x0901 => c.cmdImageVerify h (w 0)
  | 0x0902 => c.cmdImageActivate h (w 0)
  | 0x0A00 => c.cmdErrRead (w 0) (w 1)
  | 0x0A01 => c.cmdErrAck (w 0) (dword (w 1) (w 2))
  | 0x0A02 => c.cmdSafeExit
  | 0x0B00 => c.cmdProfileSet h (w 0) (join64 (w 1) (w 2))
  | 0x0C00 => c.cmdPegReport
  | 0x0C01 => c.cmdSessionOpen h ps
  | _ => (refusal stBadOpcode, c)

/-- CHECK of a packet (13 R358): the CRC-32C with the CHECK word taken as zero. -/
def checkOk (words : List Word) : Bool := words.getD 3 0 = crc32c (wordBytes (words.take 3 ++ [0] ++ words.drop 4))

/-- A refusal that copies words 0 to 2 of the packet as received (13 R359). -/
def Chip.bounce (words : List Word) : List Word :=
  let w0 := words.getD 0 0
  let h := [pack [(0, 16, w0.toNat % 65536), (16, 8, stCheck)], words.getD 1 0, words.getD 2 0]
  h ++ [crc32c (wordBytes (h ++ [0]))]

/-- The checks of a packet in their order, then its command (13 R359). -/
def Chip.packet (p : Pkt) (c : Chip) : Chip :=
  let h := p.hdr
  let op := (p.words.getD 0 0).toNat % 65536
  let ps := p.words.drop 4
  let target := (p.words.getD 2 0).toNat % 64
  let no := fun (st : Nat) => c.answer h p.generation op { status := st }
  if p.bytes % 4 ≠ 0 ∨ p.bytes < 16 ∨ 256 < p.bytes ∨ (p.words.getD 0 0).toNat / 2 ^ 24 ≠ p.bytes / 4 - 4 then no stBadLength
  else if !checkOk p.words then c.replyOut h p.generation (Chip.bounce p.words)
  else if target ≠ 0 ∧ target ≠ c.boot.peg.toNat then
    (c.onCmd fun d => { d with discards := d.discards + 1 }).onHost fun u => { u with
      owed := if p.via = .pcie ∧ p.generation = u.generation then u.owed - 1 else u.owed, spiOwed := if p.via = .spi then u.spiOwed - 1 else u.spiOwed }
  else if !c.serves op then no stBadOpcode
  else match layoutFits op ps with
    | none => no stBadOpcode
    | some false => no stBadLength
    | some true => c.order op h p.generation ps (handler op h p.generation ps)

/-- A mailbox sender without a reply channel sends packets that cannot be answered; they are discarded (15 R420). -/
def Chip.unanswerable (p : Pkt) (c : Chip) : Bool :=
  match p.via with
  | .mbx k => !p.forwarded && (c.replyChannel (c.mbxCh k.val).sender).isNone
  | _ => false

/-- The CMD core takes the oldest packet of the stream. -/
def Chip.takePacket (c : Chip) : Chip :=
  match c.cmd.stream with
  | [] => c
  | p :: rest =>
    if !c.cmdFree then c
    else
      let c := c.onCmd fun d => { d with stream := rest }
      let c := if p.forwarded then c else c.takes
      let c := c.onFlow fun u => { u with replyTo := p.head }
      let c := if p.forwarded then c else c.onHost fun u => { u with
        owed := if p.via = .pcie ∧ p.generation = u.generation then u.owed + 1 else u.owed }
      let c := if c.unanswerable p then c.onCmd fun d => { d with discards := d.discards + 1 }
        else if p.forwarded then
          c.order ((p.words.getD 0 0).toNat % 65536) p.hdr p.generation (p.words.drop 4)
            (handler ((p.words.getD 0 0).toNat % 65536) p.hdr p.generation (p.words.drop 4))
        else c.packet p
      c.mbxPump

def execCommandPacket (s : State) : Host.Outcome State Fault Refusal := actHam (fun p => reboot (p.1, p.2.takePacket)) s

end Sys2Proof.Machine
end

