-- ==== Sys2Proof/Machine/Dispatch.lean ====
section
/-! DEFINITION. What each command does to the part: one arm per row of the opcode table, in its order. -/

namespace Sys2Proof.Machine

/-- The effect of a command on everything but the queue. -/
def exec (i : Instr) (s : State) : Host.Outcome State Fault Refusal :=
  match i with
  | .hello h level => Sys2Proof.Machine.execHello h level s
  | .getVersion h => Sys2Proof.Machine.execGetVersion h s
  | .tackSet h items => Sys2Proof.Machine.execTackSet h items s
  | .tackGet h ids => Sys2Proof.Machine.execTackGet h ids s
  | .tackClear h => Sys2Proof.Machine.execTackClear h s
  | .press h => Sys2Proof.Machine.execPress h s
  | .pressAt h L => Sys2Proof.Machine.execPressAt h L s
  | .pressedGet h ids => Sys2Proof.Machine.execPressedGet h ids s
  | .tackList h first => Sys2Proof.Machine.execTackList h first s
  | .jobStatus h slot => Sys2Proof.Machine.execJobStatus h slot s
  | .jobResultRead h slot first count => Sys2Proof.Machine.execJobResultRead h slot first count s
  | .jobAbandon h slot w1 => Sys2Proof.Machine.execJobAbandon h slot w1 s
  | .snapshot h ranges => Sys2Proof.Machine.execSnapshot h ranges s
  | .ledgerRead h => Sys2Proof.Machine.execLedgerRead h s
  | .countersRead h set first count => Sys2Proof.Machine.execCountersRead h set first count s
  | .rinse h start len => Sys2Proof.Machine.execRinse h start len s
  | .fill h start len value tag => Sys2Proof.Machine.execFill h start len value tag s
  | .lineSweep h groups => Sys2Proof.Machine.execLineSweep h groups s
  | .pilotMeasure h mask window => Sys2Proof.Machine.execPilotMeasure h mask window s
  | .channelRetry h mask => Sys2Proof.Machine.execChannelRetry h mask s
  | .selfTest h tests => Sys2Proof.Machine.execSelfTest h tests s
  | .flowTableRebuild h => Sys2Proof.Machine.execFlowTableRebuild h s
  | .refForce h input => Sys2Proof.Machine.execRefForce h input s
  | .refClearHistory h => Sys2Proof.Machine.execRefClearHistory h s
  | .twinMend h mask => Sys2Proof.Machine.execTwinMend h mask s
  | .twinSwap h => Sys2Proof.Machine.execTwinSwap h s
  | .twinForceLead h => Sys2Proof.Machine.execTwinForceLead h s
  | .imageStage h slot offset data => Sys2Proof.Machine.execImageStage h slot offset data s
  | .imageVerify h slot => Sys2Proof.Machine.execImageVerify h slot s
  | .imageActivate h w0 => Sys2Proof.Machine.execImageActivate h w0 s
  | .errRead h w0 w1 => Sys2Proof.Machine.execErrRead h w0 w1 s
  | .errAck h code blk => Sys2Proof.Machine.execErrAck h code blk s
  | .safeExit h => Sys2Proof.Machine.execSafeExit h s
  | .profileSet h code L => Sys2Proof.Machine.execProfileSet h code L s
  | .pegReport h => Sys2Proof.Machine.execPegReport h s
  | .sessionOpen h nonce => Sys2Proof.Machine.execSessionOpen h nonce s
  | .csrWrite master addr value => Sys2Proof.Machine.execCsrWrite master addr value s
  | .hostReqProdWrite master value => Sys2Proof.Machine.execHostReqProdWrite master value s
  | .requestRingEntry t => Sys2Proof.Machine.execRequestRingEntry t s
  | .hostRplConsWrite master value => Sys2Proof.Machine.execHostRplConsWrite master value s
  | .hostIrqPendClear master value => Sys2Proof.Machine.execHostIrqPendClear master value s
  | .msixUnmask vec => Sys2Proof.Machine.execMsixUnmask vec s
  | .pcieReset cause => Sys2Proof.Machine.execPcieReset cause s
  | .pcieLinkUp speed link => Sys2Proof.Machine.execPcieLinkUp speed link s
  | .spiWrite addr bytes upsets => Sys2Proof.Machine.execSpiWrite addr bytes upsets s
  | .spiRead addr words late upsets => Sys2Proof.Machine.execSpiRead addr words late upsets s
  | .spiStatus count => Sys2Proof.Machine.execSpiStatus count s
  | .cmdPut bytes => Sys2Proof.Machine.execCmdPut bytes s
  | .rplGet count => Sys2Proof.Machine.execRplGet count s
  | .spiUnknownOpcode op => Sys2Proof.Machine.execSpiUnknownOpcode op s
  | .mbxGo master c len t => Sys2Proof.Machine.execMbxGo master c len t s
  | .mbxAck master c => Sys2Proof.Machine.execMbxAck master c s
  | .mbxCancel master c => Sys2Proof.Machine.execMbxCancel master c s
  | .mbxBindWrite master c value => Sys2Proof.Machine.execMbxBindWrite master c value s
  | .mbxLockSet master => Sys2Proof.Machine.execMbxLockSet master s
  | .mbxDbRingWrite master j value => Sys2Proof.Machine.execMbxDbRingWrite master j value s
  | .crossWaitDetect c d t => Sys2Proof.Machine.execCrossWaitDetect c d t s
  | .replyCancel c t => Sys2Proof.Machine.execReplyCancel c t s
  | .busLockRead master n => Sys2Proof.Machine.execBusLockRead master n s
  | .busLockWrite master n value => Sys2Proof.Machine.execBusLockWrite master n value s
  | .busLockForce master value => Sys2Proof.Machine.execBusLockForce master value s
  | .busService master key => Sys2Proof.Machine.execBusService master key s
  | .lockTimeout master target rest => Sys2Proof.Machine.execLockTimeout master target rest s
  | .errHeadAck master value => Sys2Proof.Machine.execErrHeadAck master value s
  | .errRearmBus master => Sys2Proof.Machine.execErrRearmBus master s
  | .errRearmMem master => Sys2Proof.Machine.execErrRearmMem master s
  | .overflowSeenClear master => Sys2Proof.Machine.execOverflowSeenClear master s
  | .commandPacket => Sys2Proof.Machine.execCommandPacket s
  | .blockTick inp => Sys2Proof.Machine.execBlockTick inp s
  | .firBankRewrite m => Sys2Proof.Machine.execFirBankRewrite m s
  | .flowTableRewrite => Sys2Proof.Machine.execFlowTableRewrite s
  | .pressLands => Sys2Proof.Machine.execPressLands s
  | .todSet t => Sys2Proof.Machine.execTodSet t s
  | .pageRelease => Sys2Proof.Machine.execPageRelease s
  | .crossfadeEnd => Sys2Proof.Machine.execCrossfadeEnd s
  | .rampEnd => Sys2Proof.Machine.execRampEnd s
  | .firExchangeEnd m => Sys2Proof.Machine.execFirExchangeEnd m s
  | .gateHoldExpiry src => Sys2Proof.Machine.execGateHoldExpiry src s
  | .sinkWindowBoundary e => Sys2Proof.Machine.execSinkWindowBoundary e s
  | .tickStop => Sys2Proof.Machine.execTickStop s
  | .sapColdRestart => Sys2Proof.Machine.execSapColdRestart s
  | .coldPressResume t => Sys2Proof.Machine.execColdPressResume t s
  | .mediaSilent t => Sys2Proof.Machine.execMediaSilent t s
  | .mediaResume t => Sys2Proof.Machine.execMediaResume t s
  | .xqSourceSilent k midWrite => Sys2Proof.Machine.execXqSourceSilent k midWrite s
  | .xqSourceResume k => Sys2Proof.Machine.execXqSourceResume k s
  | .clockError cause t => Sys2Proof.Machine.execClockError cause t s
  | .clockQualified t => Sys2Proof.Machine.execClockQualified t s
  | .channelTrip m driver t => Sys2Proof.Machine.execChannelTrip m driver t s
  | .tripReport m => Sys2Proof.Machine.execTripReport m s
  | .retryStart m => Sys2Proof.Machine.execRetryStart m s
  | .retryEnd m => Sys2Proof.Machine.execRetryEnd m s
  | .rampUpComplete m => Sys2Proof.Machine.execRampUpComplete m s
  | .disableRampEnd m => Sys2Proof.Machine.execDisableRampEnd m s
  | .playAttemptReset m => Sys2Proof.Machine.execPlayAttemptReset m s
  | .railTripHoldEnd k t => Sys2Proof.Machine.execRailTripHoldEnd k t s
  | .xq6InputLost t => Sys2Proof.Machine.execXq6InputLost t s
  | .xq6InputResume t => Sys2Proof.Machine.execXq6InputResume t s
  | .pilotWindowEnd m => Sys2Proof.Machine.execPilotWindowEnd m s
  | .sweepPointEnd k => Sys2Proof.Machine.execSweepPointEnd k s
  | .jobStart slot => Sys2Proof.Machine.execJobStart slot s
  | .rebuildComplete => Sys2Proof.Machine.execRebuildComplete s
  | .airingIntervalEnd => Sys2Proof.Machine.execAiringIntervalEnd s
  | .airingWithdraw => Sys2Proof.Machine.execAiringWithdraw s
  | .copyArrival port t => Sys2Proof.Machine.execCopyArrival port t s
  | .sessionIdleClose id t => Sys2Proof.Machine.execSessionIdleClose id t s
  | .presentationClose => Sys2Proof.Machine.execPresentationClose s
  | .missingWindow ctx => Sys2Proof.Machine.execMissingWindow ctx s
  | .pathLost k => Sys2Proof.Machine.execPathLost k s
  | .linkFrameRx port bytes fcsOk t => Sys2Proof.Machine.execLinkFrameRx port bytes fcsOk t s
  | .rxTruncation mac bytes t => Sys2Proof.Machine.execRxTruncation mac bytes t s
  | .hamperRefill mac ring => Sys2Proof.Machine.execHamperRefill mac ring s
  | .bufferReturn mac ring => Sys2Proof.Machine.execBufferReturn mac ring s
  | .txRingPoll mac ring t => Sys2Proof.Machine.execTxRingPoll mac ring t s
  | .linkTxFrameEnd port t => Sys2Proof.Machine.execLinkTxFrameEnd port t s
  | .audioFrameStale port => Sys2Proof.Machine.execAudioFrameStale port s
  | .linkUp port t => Sys2Proof.Machine.execLinkUp port t s
  | .linkDown port blockLock localFault remoteFault => Sys2Proof.Machine.execLinkDown port blockLock localFault remoteFault s
  | .sfpFault port modAbs optics => Sys2Proof.Machine.execSfpFault port modAbs optics s
  | .dropTxOpportunity t => Sys2Proof.Machine.execDropTxOpportunity t s
  | .dropCollision lateColl t => Sys2Proof.Machine.execDropCollision lateColl t s
  | .dropTxEnd t => Sys2Proof.Machine.execDropTxEnd t s
  | .dropQ3Stale t => Sys2Proof.Machine.execDropQ3Stale t s
  | .dropFrameRx bytes fcsOk t => Sys2Proof.Machine.execDropFrameRx bytes fcsOk t s
  | .speechFrameRx bytes fcsOk t => Sys2Proof.Machine.execSpeechFrameRx bytes fcsOk t s
  | .speechWindow n => Sys2Proof.Machine.execSpeechWindow n s
  | .twinFrameRx frame => Sys2Proof.Machine.execTwinFrameRx frame s
  | .twinFrameMissed bad => Sys2Proof.Machine.execTwinFrameMissed bad s
  | .twinLinkChange lane0 lane1 aligned => Sys2Proof.Machine.execTwinLinkChange lane0 lane1 aligned s
  | .heartbeatSendL t => Sys2Proof.Machine.execHeartbeatSendL t s
  | .heartbeatSendD t => Sys2Proof.Machine.execHeartbeatSendD t s
  | .heartbeatRx drop hb t => Sys2Proof.Machine.execHeartbeatRx drop hb t s
  | .roleTakeEffect => Sys2Proof.Machine.execRoleTakeEffect s
  | .pathFail p t => Sys2Proof.Machine.execPathFail p t s
  | .pathTRestore => Sys2Proof.Machine.execPathTRestore s
  | .sapFrame p din => Sys2Proof.Machine.execSapFrame p din s
  | .nonaudioRelease p k => Sys2Proof.Machine.execNonaudioRelease p k s
  | .leadFramesEnd p => Sys2Proof.Machine.execLeadFramesEnd p s
  | .zeroCrossing p slot word => Sys2Proof.Machine.execZeroCrossing p slot word s
  | .zcTimeout p tx ch => Sys2Proof.Machine.execZcTimeout p tx ch s
  | .sapStoppingEnd p => Sys2Proof.Machine.execSapStoppingEnd p s
  | .ainScan sc => Sys2Proof.Machine.execAinScan sc s
  | .insertionChange n => Sys2Proof.Machine.execInsertionChange n s
  | .classChange n => Sys2Proof.Machine.execClassChange n s
  | .buttonChange n k => Sys2Proof.Machine.execButtonChange n k s
  | .chatterEnd c => Sys2Proof.Machine.execChatterEnd c s
  | .stuck n k => Sys2Proof.Machine.execStuck n k s
  | .biasOverload n => Sys2Proof.Machine.execBiasOverload n s
  | .ainGainStep n => Sys2Proof.Machine.execAinGainStep n s
  | .contactStateChange k => Sys2Proof.Machine.execContactStateChange k s
  | .mainsHalfCycle rms freq t => Sys2Proof.Machine.execMainsHalfCycle rms freq t s
  | .mainsZcTimeout t => Sys2Proof.Machine.execMainsZcTimeout t s
  | .mainsRestore t => Sys2Proof.Machine.execMainsRestore t s
  | .batteryCondition critical => Sys2Proof.Machine.execBatteryCondition critical s
  | .railWindow r => Sys2Proof.Machine.execRailWindow r s
  | .refEvent x ev => Sys2Proof.Machine.execRefEvent x ev s
  | .inputStopped x t => Sys2Proof.Machine.execInputStopped x t s
  | .inputQualified x t => Sys2Proof.Machine.execInputQualified x t s
  | .wtrExpiry x t => Sys2Proof.Machine.execWtrExpiry x t s
  | .driftVote t => Sys2Proof.Machine.execDriftVote t s
  | .selectorEvaluation t => Sys2Proof.Machine.execSelectorEvaluation t s
  | .switchComplete t => Sys2Proof.Machine.execSwitchComplete t s
  | .dpllLocked t => Sys2Proof.Machine.execDpllLocked t s
  | .holdoverLimit t => Sys2Proof.Machine.execHoldoverLimit t s
  | .modelUpdate temp t => Sys2Proof.Machine.execModelUpdate temp t s
  | .modelValid => Sys2Proof.Machine.execModelValid s
  | .tickIndexReload => Sys2Proof.Machine.execTickIndexReload s
  | .ptpSyncRx rx origin ingress correction master t => Sys2Proof.Machine.execPtpSyncRx rx origin ingress correction master t s
  | .announceTimeout m t => Sys2Proof.Machine.execAnnounceTimeout m t s
  | .announceRx rx a t => Sys2Proof.Machine.execAnnounceRx rx a t s
  | .masterReturn m t => Sys2Proof.Machine.execMasterReturn m t s
  | .announceSend m t => Sys2Proof.Machine.execAnnounceSend m t s
  | .syncSend m t => Sys2Proof.Machine.execSyncSend m t s
  | .delayReqRx rx requester seq t => Sys2Proof.Machine.execDelayReqRx rx requester seq t s
  | .safeEntry t => Sys2Proof.Machine.execSafeEntry t s
  | .coreReload verified => Sys2Proof.Machine.execCoreReload verified s
  | .safeExitStart => Sys2Proof.Machine.execSafeExitStart s
  | .safeStateEnd => Sys2Proof.Machine.execSafeStateEnd s
  | .exitAbandon => Sys2Proof.Machine.execExitAbandon s
  | .engineReload n => Sys2Proof.Machine.execEngineReload n s
  | .dmaRestart c upsets => Sys2Proof.Machine.execDmaRestart c upsets s
  | .backgroundRinsePass corrected uncorrected => Sys2Proof.Machine.execBackgroundRinsePass corrected uncorrected s
  | .tempThreshold temp => Sys2Proof.Machine.execTempThreshold temp s
  | .thermalTrip => Sys2Proof.Machine.execThermalTrip s
  | .brownOut rail => Sys2Proof.Machine.execBrownOut rail s
  | .resetAssert => Sys2Proof.Machine.execResetAssert s
  | .testEnReset high => Sys2Proof.Machine.execTestEnReset high s
  | .resetRelease => Sys2Proof.Machine.execResetRelease s
  | .headPeg t => Sys2Proof.Machine.execHeadPeg t s
  | .pegTokenRx first second t => Sys2Proof.Machine.execPegTokenRx first second t s
  | .pegTokenSend t => Sys2Proof.Machine.execPegTokenSend t s
  | .romBoot flashOk records images => Sys2Proof.Machine.execRomBoot flashOk records images s
  | .imageLoad => Sys2Proof.Machine.execImageLoad s
  | .sramInit => Sys2Proof.Machine.execSramInit s
  | .stageRefEntry t => Sys2Proof.Machine.execStageRefEntry t s
  | .refWaitEnd t => Sys2Proof.Machine.execRefWaitEnd t s
  | .delayStoreInit => Sys2Proof.Machine.execDelayStoreInit s
  | .twinStageEnd t => Sys2Proof.Machine.execTwinStageEnd t s
  | .audioEnable t => Sys2Proof.Machine.execAudioEnable t s
  | .startupWatchdog t => Sys2Proof.Machine.execStartupWatchdog t s
  | .jobEnd slot find t => Sys2Proof.Machine.execJobEnd slot find t s
  | .backgroundErase slot sectors => Sys2Proof.Machine.execBackgroundErase slot sectors s
  | .coldPressLedgerCheck t => Sys2Proof.Machine.execColdPressLedgerCheck t s
  | .latchingRead master r => Sys2Proof.Machine.execLatchingRead master r s
  | .barAccess req => Sys2Proof.Machine.execBarAccess req s
  | .delayRespRx rx seq resp t => Sys2Proof.Machine.execDelayRespRx rx seq resp t s
  | .boundaryScan ir shift => Sys2Proof.Machine.execBoundaryScan ir shift s

end Sys2Proof.Machine
end

