-- ==== Sys2Proof/Machine/Pins.lean ====
section
/-! DEFINITION. The digital output pins (20 R516, R519; 21 R528 to R534): their levels in reset and after it. -/

namespace Sys2Proof.Machine

/-- The digital outputs of the tables of 21 R528 to R534; `txDisable false` is that of LINKA. -/
inductive Pin where
  | modA (m : Fin 64) | modB (m : Fin 64)
  | sapBclk (p : Fin 16) | sapFs (p : Fin 16) | sapDout (p : Fin 16)
  | railSet (k : Fin 8) | wclkOut | ppsOut
  | refState (k : Fin 3) | refAlarmN | pegOut | faultN | psuAlertN | spiIrqN
  | txDisable (linkB : Bool)
  | spiMiso | qspiCsN | qspiSclk | tdo
  deriving DecidableEq, Repr

/-- What an output shows: a level, an open-drain output released, high impedance, or the waveform of its data: pulses of a
modulator, bits of a port, counts of 1024 of a setpoint. -/
inductive Level where
  | low | high | released | highZ | wave | duty (n : Nat)
  deriving DecidableEq, Repr

/-- An open-drain output. -/
def drain (low : Bool) : Level := if low then .low else .released

/-- A push-pull output. -/
def pushPull (high : Bool) : Level := if high then .high else .low

def Pin.openDrain : Pin → Bool
  | .refState _ | .refAlarmN | .pegOut | .faultN | .psuAlertN | .spiIrqN | .txDisable _ => true
  | _ => false

/-- The outputs of the boundary register: every digital pin of 20 R519 but those of the JTAG port itself, numbered in the
order of the tables. -/
def Pin.cell : Pin → Option Nat
  | .modA m => some m.val
  | .modB m => some (64 + m.val)
  | .sapBclk p => some (128 + p.val)
  | .sapFs p => some (144 + p.val)
  | .sapDout p => some (160 + p.val)
  | .railSet k => some (176 + k.val)
  | .wclkOut => some 184
  | .ppsOut => some 185
  | .refState k => some (186 + k.val)
  | .refAlarmN => some 189
  | .pegOut => some 190
  | .faultN => some 191
  | .psuAlertN => some 192
  | .spiIrqN => some 193
  | .txDisable b => some (194 + b.toNat)
  | .spiMiso => some 196
  | .qspiCsN => some 197
  | .qspiSclk => some 198
  | .tdo => none

/-- The reset states of the pin tables. -/
def Pin.atReset : Pin → Level
  | .modA _ | .modB _ | .sapBclk _ | .sapFs _ | .sapDout _ | .railSet _ | .wclkOut | .ppsOut | .faultN | .qspiSclk => .low
  | .refState _ | .refAlarmN | .pegOut | .psuAlertN | .spiIrqN | .txDisable _ => .released
  | .qspiCsN => .high
  | .spiMiso | .tdo => .highZ

/-- MOD_A and MOD_B of channel m are driven by its modulator: it is not in the off state (10 R264, R271, R273). -/
def Chip.modDrives (m : Nat) (c : Chip) : Bool := (c.modCh m).st.switching && !c.pow.clockHeld && !c.pow.inputLost

/-- A port pin: bits while the clocks run, its level at rest after the port has been started or stopped, and its reset state
until then. -/
def Chip.sapPin (p : Nat) (rest : SapFmt → Level) (c : Chip) : Level :=
  match c.sap.ports[p]? with
  | some x => if x.running then .wave else if c.audioOnce then rest x.fmt else .low
  | none => .low

/-- An output between two commands: the flash port, MISO, TDO and PEG_OUT rest then. While the part is in reset every pin is
in its reset state, and under EXTEST the boundary register drives it (log 27). -/
def Chip.pin (q : Pin) (c : Chip) : Level :=
  match (if c.boot.extest then q.cell else none) with
  | some k =>
    let bit := c.boot.boundary.getD (Config.boundaryCell k) false
    if q.openDrain then drain !bit else pushPull bit
  | none =>
    if c.held then q.atReset
    else match q with
      | .modA m | .modB m => if c.modDrives m.val then .wave else .low
      | .sapBclk p => c.sapPin p.val fun f => pushPull (Config.bclkIdle f.rise)
      | .sapFs p => c.sapPin p.val fun f => pushPull f.low
      | .sapDout p => c.sapPin p.val fun f => if f.hiz then .highZ else .low
      | .railSet k =>
        let n := (c.pow.rails.getD k.val {}).duty
        if n = 0 then .low else .duty n
      | .wclkOut => pushPull c.wclkOut
      | .ppsOut => pushPull c.ppsOut
      | .refState k => drain !(Nat.testBit c.ref.code k.val)
      | .refAlarmN => drain c.ref.alarm
      | .faultN => drain c.faultN
      | .psuAlertN => drain c.ain.psuAlert
      | .spiIrqN => drain c.spiIrq
      | .txDisable b => drain !(c.mac b.toNat).txDisable
      | .pegOut | .spiMiso | .qspiCsN | .qspiSclk | .tdo => q.atReset

end Sys2Proof.Machine
end

