-- ==== Sys2Proof/Safety.lean ====
section
/-! DEFINITION. The terms in which claims about the part are stated: its units, what a command leaves unchanged, when the
CMD core takes a command, where the hampers' buffers are, and which steps are safe. -/

namespace Sys2Proof.Machine

/-! What a command leaves unchanged -/

/-- The pieces of the part that a frame names. `irq` is the pending interrupts of the HOST block with what was sent for
them (15 R413 to R415); `host` is the rest of that block. -/
inductive Piece where
  | out | held | clk | fresh | audioOnce | sys | err | mem | bus | host | irq | mbx | cmd | graph | macs | drop | flow | ref | ptp
  | clock | sap | ain | pow | twin | boot
  deriving DecidableEq, Repr

/-- The HOST block without its pending interrupts. -/
def HostUnit.bare (h : HostUnit) : HostUnit := { h with pend := 0, msixSent := (0, 0), pulses := [] }

/-- A piece has the same contents in both. -/
def Piece.same (p : Piece) (a b : Chip) : Prop :=
  match p with
  | .out => a.out = b.out
  | .held => a.held = b.held
  | .clk => a.clk = b.clk
  | .fresh => a.fresh = b.fresh
  | .audioOnce => a.audioOnce = b.audioOnce
  | .sys => a.sys = b.sys
  | .err => a.err = b.err
  | .mem => a.mem = b.mem
  | .bus => a.bus = b.bus
  | .host => a.host.bare = b.host.bare
  | .irq => a.host.pend = b.host.pend ∧ a.host.msixSent = b.host.msixSent ∧ a.host.pulses = b.host.pulses
  | .mbx => a.mbx = b.mbx
  | .cmd => a.cmd = b.cmd
  | .graph => a.graph = b.graph
  | .macs => a.macs = b.macs
  | .drop => a.drop = b.drop
  | .flow => a.flow = b.flow
  | .ref => a.ref = b.ref
  | .ptp => a.ptp = b.ptp
  | .clock => a.clock = b.clock
  | .sap => a.sap = b.sap
  | .ain => a.ain = b.ain
  | .pow => a.pow = b.pow
  | .twin => a.twin = b.twin
  | .boot => a.boot = b.boot

/-- Every piece that is not named is the same in both. -/
def Chip.keeps (named : List Piece) (a b : Chip) : Prop := ∀ p : Piece, p ∉ named → p.same a b

/-- Nothing has been raised that is not yet recorded: what holds between commands. -/
def Chip.settled (c : Chip) : Prop := c.err.raising = [] ∧ c.host.pulses = []

/-- The command answers a next state of which `P` holds. It leaves the queue and the hampers, and every piece that is not
named; the outputs are its own, and interrupts may become pending (15 R413). -/
def Completes (i : Instr) (s : State) (named : List Piece) (P : Chip → Prop) : Prop :=
  ∃ t, Sys2Proof.Machine.exec i s = .next t ∧ t.pending = s.pending ∧ t.ham = s.ham ∧
    s.chip.keeps ([.out, .irq] ++ named) t.chip ∧ P t.chip

/-- The PTP block when its counter has run on to CORE clock `clk` (11 R310). -/
def Chip.ptpAt (c : Chip) (clk : Nat) : Ptp :=
  if clk ≤ c.clk then c.ptp else { c.ptp with time := (c.ptp.time + (clk - c.clk) * c.ptp.incr) % timeTurn }

/-- The same of a command that comes about at CORE clock `t`: time passes to it, and the PTP counter with it (11 R310). -/
def CompletesAt (i : Instr) (s : State) (t : Nat) (named : List Piece) (P : Chip → Prop) : Prop :=
  Completes i s ([.clk, .ptp] ++ named) fun c =>
    c.clk = max s.chip.clk t ∧ c.ptp = s.chip.ptpAt c.clk ∧ P c

/-- The same of a command that also moves hamper buffers; `P` holds of them too. -/
def CompletesHam (i : Instr) (s : State) (named : List Piece) (P : Hamper → Chip → Prop) : Prop :=
  ∃ t, Sys2Proof.Machine.exec i s = .next t ∧ t.pending = s.pending ∧ s.chip.keeps ([.out, .irq] ++ named) t.chip ∧
    P t.ham t.chip

/-- The error records after an error is raised in `c` (18 R461 to R468). -/
def Chip.recorded (c : Chip) (code : Nat) (cls : Cls) (detail : Nat := 0) : Err := (c.begin.raise code cls detail).enterAll.err

/-- The part runs, and nothing waits to be recorded. -/
def State.live (s : State) : Prop := s.chip.held = false ∧ s.chip.settled

/-- MAC m sends nothing, has nothing to send, and may send (07 R194, R199). -/
def Chip.canStart (m : Nat) (c : Chip) : Prop :=
  ∃ x, c.macs[m]? = some x ∧ x.sending = none ∧ x.tx.length = 8 ∧ (∀ y ∈ x.tx, y.queue = [] ∧ y.owner = [] ∧ y.used < 256) ∧ c.txBar m = none ∧
    c.sys.xqSilent.getLsbD (if m = 0 then 10 else 12) = false ∧ c.dmaHalted m = false

/-- Nothing waits on the transmit rings of MAC m's block (07 R194). -/
def Mac.quiet (x : Mac) : Prop := x.tx.length = 8 ∧ ∀ y ∈ x.tx, y.queue = [] ∧ y.owner = []

/-- The state after a reset of the part that keeps `b` of its BOOT block (20 R515), held in reset or not; the counter of
free values goes on (log 4). -/
def State.afresh (held : Bool) (b : Boot) (s : State) : State :=
  { State.reset with pending := s.pending, chip := { State.reset.chip with held := held, fresh := s.chip.fresh, boot := b } }

/-- What OTP and the flash keep across a reset, and what starts anew (19 R490, R498, R499). -/
def Boot.restarts (a b : Boot) : Prop :=
  b.stage = .rom ∧ b.peg = 0 ∧ b.audioDue = false ∧ b.unitBase = a.unitBase ∧ b.serviceDisable = a.serviceDisable ∧
    b.mgmtKey = a.mgmtKey ∧ b.revoked = a.revoked ∧ b.records = a.records ∧
    b.slots = a.slots

/-! Commands -/

/-- The CMD core takes a command of this opcode from this transport and executes it itself: it serves packets, is not
trapped, waits for nothing and is not failing (13 R356, 14 R382, 18 R477), the transport can carry the reply (15 R408, R412, R420; 06 R178), the
opcode is served (19 R505), and the unit is the one that executes it (12 R330, 13 R362). -/
def Ready (opcode : Nat) (h : Hdr) (s : State) : Prop :=
  s.live ∧ s.chip.cmdFree = true ∧ s.chip.canReply opcode h.via h.session = true ∧ s.chip.serves opcode = true ∧
    s.chip.ownCommand (hostHdr h) = true ∧ h.peer = false ∧ s.chip.boot.resetDue = false ∧ s.chip.cmd.fails = false

/-- What a reply may change on its way: the transports and the memory, ring, session or frame that carry it. -/
def replyPieces : List Piece := [.host, .mem, .mbx, .flow, .macs]

/-- The command answers a next state in which it has replied so, and of which `P` holds. It is counted in TAKEN and leaves the
queue, the hampers and every piece that is neither named nor the reply's. -/
def Answers (i : Instr) (opcode : Nat) (h : Hdr) (s : State) (named : List Piece) (r : Rep) (P : Chip → Prop) : Prop :=
  ∃ t, Sys2Proof.Machine.exec i s = .next t ∧ t.pending = s.pending ∧ t.ham = s.ham ∧
    s.chip.takes.keeps ([.out, .irq] ++ replyPieces ++ named) t.chip ∧
    Out.reply h.via (t.chip.repWords opcode (hostHdr h) r) ∈ t.chip.out ∧ P t.chip

/-- What a master sees of a write of one word that was made in `s`: PCIe its posted write, SPI the status byte of its WRITE
transaction, the others nothing (15 R404, R410). -/
def Chip.written (s : Chip) (master : Byte) (c : Chip) : Prop :=
  (master = 0x40 → Out.posted true ∈ c.out) ∧ (master = 0x41 → Out.spi [s.spiStatusByte] ∈ c.out)

/-- The HOST block after such a write: the status byte is kept, and ERR clears (15 R410). -/
def Chip.hostAfter (s : Chip) (master : Byte) : HostUnit :=
  if master = 0x41 then { s.host with spiLast := s.spiStatusByte, spiErr := false } else s.host

/-- Both, where the write changes nothing else of the HOST block. -/
def Chip.posted (s : Chip) (master : Byte) (c : Chip) : Prop := s.written master c ∧ c.host.bare = (s.hostAfter master).bare

/-! Memory (17 R445) -/

/-- Every ECC word that `n` bytes from `a` touch was written and reads without an error. -/
def Memory.clean (m : Memory) (a n : Nat) : Bool := (eccWords a n).all fun w => decide (m.ecc w = .good)

/-! Hampers (07 R208) -/

/-- FREE + RING + ASSEMBLING + HOST. -/
def Hamper.sum (h : Hamper) : Nat := h.counts.1 + h.counts.2.1 + h.counts.2.2.1 + h.counts.2.2.2

/-- Every buffer is in exactly one of the four states. -/
def Hamper.whole (h : Hamper) : Prop :=
  (h.free ++ h.rings.flatMap fun r => r.posted ++ r.asm ++ r.held).Perm (List.range 16384)

/-! Safe steps -/

/-- A step that answers a next state. -/
def Steps (s t : State) : Prop := Sys2Proof.Machine.step s = .next t

/-- Invariant: what a step makes of a state in which it holds has it again. -/
def Kept (I : State → Prop) : Prop := ∀ s t, I s → Steps s t → I t

end Sys2Proof.Machine
end

