-- ==== Sys2Proof/Certificates/Slice0/Obligations.lean ====
section
/-! DEFINITION. The statements for the provers. `Completes` (Safety.lean) says that exec answers a next state, which pieces
of the part it leaves as they were, and what holds of the rest. -/

open Sys2Proof Sys2Proof.Machine

/-! The machine as a whole -/

/-- A step runs the command at the front of the queue on the rest of the queue, and an empty queue idles (log 1). -/
def Obligations.FrontCommandRuns : Prop :=
  (∀ (c : Instr) (q : List Instr) (s : State),
    Sys2Proof.Machine.step { s with pending := c :: q } = Sys2Proof.Machine.exec c { s with pending := q }) ∧
  ∀ s : State, s.pending = [] → Sys2Proof.Machine.step s = .next s

/-- No command touches the queue. -/
def Obligations.QueueUntouched : Prop :=
  ∀ (c : Instr) (s t : State), Sys2Proof.Machine.exec c s = .next t → t.pending = s.pending

/-- Right after reset every hamper buffer is FREE, memory lists nothing, nothing waits to be recorded, and FAULT_N is low
(07 R208, 17 R447, 18 R480, R481). -/
def Obligations.ResetState : Prop :=
  State.reset.ham.whole ∧ State.reset.ham.counts = (16384, 0, 0, 0) ∧ State.reset.chip.mem.bytes.wf = true ∧
    State.reset.chip.mem.bytes.cells = [] ∧ State.reset.chip.settled ∧ State.reset.chip.err.queue = [] ∧
    State.reset.chip.err.first = none ∧ State.reset.chip.faultN = true ∧ State.reset.pending = []

/-- Invariant: every hamper buffer is in exactly one of the states FREE, RING, ASSEMBLING and HOST (07 R208). -/
def Obligations.HampersConserved : Prop := Kept fun s => s.ham.whole

/-- Invariant: the memory keeps its canonical form, so equal memories are equal data. -/
def Obligations.MemoryCanonical : Prop := Kept fun s => s.chip.mem.bytes.wf = true

/-- Invariant: between commands nothing waits to be recorded and no pulse of an interrupt waits (18 R463, 15 R413). -/
def Obligations.NothingUnrecorded : Prop := Kept fun s => s.chip.settled

/-- A written byte reads back, and every other byte reads as before. -/
def Obligations.MemoryReadBack : Prop :=
  ∀ (m : Memory) (a : Nat) (b : Byte), m.wf = true →
    (m.put a b).byte a = b ∧ ∀ x, x ≠ a → (m.put a b).byte x = m.byte x

/-- A value beyond 32 bits is written as the nearer limit L, with the tag t(r) + t(L - r); a poisoned one stays poison
(02 R46, R47). -/
def Obligations.SaturatedSample : Prop :=
  ∀ (r : Int) (t : Nat),
    (r < -2 ^ 31 → sat { v := r, t := t } = { v := -2 ^ 31, t := tagAdd t (residue (-2 ^ 31 - r)) }) ∧
    (2 ^ 31 - 1 < r → sat { v := r, t := t } = { v := 2 ^ 31 - 1, t := tagAdd t (residue (2 ^ 31 - 1 - r)) }) ∧
    (-2 ^ 31 ≤ r → r ≤ 2 ^ 31 - 1 → sat { v := r, t := t } = { v := r, t := t }) ∧
    (∀ q : Smp, t = residue q.v → residue (q.v + r) = tagAdd t (residue r)) ∧
    residue (2 ^ 31 - 1) = 186 ∧ residue (-2 ^ 31) = 64

/-- The exit check: a tag of 0 to 250 that equals the value modulo 251, and nothing else (02 R51). -/
def Obligations.ExitCheckVerdict : Prop :=
  (∀ x : Smp, passes x = true ↔ x.t ≤ 250 ∧ (x.t : Int) = x.v % 251) ∧ ∀ x : Smp, 250 < x.t → passes x = false

/-- A NOTE or FAULT raised again while its record is queued raises that record's REPEAT, and nothing else of the queue
changes; a FATAL is queued as its own record where there is room (18 R465). -/
def Obligations.RepeatedError : Prop :=
  ∀ (c : Chip) (r x : Rec) (n : Nat), c.err.queue[n]? = some x → x.code = r.code → x.detail = r.detail →
    (r.cls ≠ .fatal →
      (∀ k y, c.err.queue[k]? = some y → y.code = r.code → y.detail = r.detail → k = n) →
      (c.enter1 r).err.queue = c.err.queue.set n { x with repeats := satInc 255 x.repeats } ∧
        (c.enter1 r).host.pulses = c.host.pulses ∧ (c.enter1 r).err.first = c.err.first) ∧
    (r.cls = .fatal → c.err.queue.length < 16 → ∃ y, (c.enter1 r).err.queue = c.err.queue ++ [y] ∧
      y.code = r.code ∧ y.detail = r.detail ∧ y.blk = r.blk ∧ y.cls = .fatal ∧
        (c.enter1 r).host.pulses = 3 :: c.host.pulses)

/-- SPI_IRQ_N is low exactly while HOST_IRQ_PEND AND HOST_SPI_IRQ_EN is not 0 (15 R416). -/
def Obligations.SpiInterruptPin : Prop :=
  (∀ c : Chip, c.spiIrq = true ↔ ∃ v, v < 32 ∧ c.host.pend.getLsbD v = true ∧ c.host.spiIrqEn.getLsbD v = true) ∧
    State.reset.chip.spiIrq = false

/-- FAULT_N is low from reset until audio is first enabled, and then exactly while one of its conditions holds (18 R481). -/
def Obligations.FaultPin : Prop :=
  ∀ c : Chip, (c.audioOnce = false → c.faultN = true) ∧
    (c.audioOnce = true → (c.faultN = true ↔ c.err.safe = true ∨ c.err.lostHold = true ∨
      (1 ≤ c.errItem 3 ∧ ∃ r, (r ∈ c.err.queue ∨ c.err.first = some r) ∧ r.cls = .fatal) ∨
      (c.errItem 3 = 2 ∧ ∃ r, (r ∈ c.err.queue ∨ c.err.first = some r) ∧ r.cls = .fault)))

/-! Analogue inputs, contacts and supplies (chapter 09) -/

/-- Gain steps, bias overloads, insertions and classes of an accessory (09 R248 to R251, R254) complete: AIN_STATUS_n
changes as the rule says, and no other input. -/
def Obligations.AccessoryInputs : Prop :=
  ∀ (s : State) (n : Fin 16) (x : AinIn), s.live → s.chip.ain.ins[n.val]? = some x →
    (Completes (.ainGainStep n) s [.ain] fun c =>
      ∃ g, c.ain = { s.chip.ain with ins := s.chip.ain.ins.set n.val { x with gain := g } } ∧
        (x.gain < s.chip.itN (item 0x0A n.val 1) → g = x.gain + 1) ∧
        (s.chip.itN (item 0x0A n.val 1) < x.gain → g + 1 = x.gain) ∧
        (x.gain = s.chip.itN (item 0x0A n.val 1) → g = x.gain)) ∧
    (s.chip.biasOn n.val = true → Completes (.biasOverload n) s [.ain, .err] fun c =>
      c.ain = { s.chip.ain with ins := s.chip.ain.ins.set n.val { x with overload := true, biasOvl := true } } ∧
        c.biasOn n.val = false ∧ c.err = s.chip.recorded 0x0D05 .note n.val) ∧
    (20 ≤ x.det.count → Completes (.insertionChange n) s [.ain, .err] fun c =>
      ∃ y ev at_, c.ain = { s.chip.ain with ins := s.chip.ain.ins.set n.val y, event := ev, eventBlk := at_ } ∧
        y.det.state = !x.det.state ∧ y.gain = x.gain ∧
        (x.det.state = true → y.removed = true ∧ c.biasOn n.val = false ∧ y.mutedFrom = some (s.chip.sampleNow + 1)) ∧
        (x.det.state = false → y.removed = false ∧ y.overload = false) ∧ (y.inserted = false → y.cls = 0) ∧
        (y.inserted ≠ x.inserted → ev = s.chip.ain.event ||| BitVec.ofNat 32 (2 ^ n.val) ∧ at_ = s.chip.ain.scanBlk)) ∧
    (100 ≤ x.cand.2 → x.cand.1 ≠ x.cls → x.inserted = true → Completes (.classChange n) s [.ain, .err] fun c =>
      ∃ y, c.ain = { s.chip.ain with
          ins := s.chip.ain.ins.set n.val y, event := s.chip.ain.event ||| BitVec.ofNat 32 (2 ^ n.val), eventBlk := s.chip.ain.scanBlk } ∧
        y.cls = x.cand.1 ∧ y.det = x.det ∧
        c.err = if x.cand.1 = 5 then s.chip.recorded 0x0D04 .note n.val else s.chip.err)

/-- Buttons of a call station (09 R252 to R254) complete: debounced changes, STUCK, and the end of a CHATTER guard. -/
def Obligations.CallStationButtons : Prop :=
  ∀ (s : State) (n : Fin 16) (k : Fin 4) (x : AinIn) (b : Deb), s.live → s.chip.ain.ins[n.val]? = some x →
    x.buttons[k.val]? = some b →
    (20 ≤ b.count → x.cls = 3 → Completes (.buttonChange n k) s [.ain, .err] fun c =>
      ∃ y ev at_, c.ain = { s.chip.ain with ins := s.chip.ain.ins.set n.val y, event := ev, eventBlk := at_ } ∧
        (∃ d, y.buttons = x.buttons.set k.val d ∧ d.state = !b.state) ∧
        (b.state = true → y.stuck.getLsbD k.val = false) ∧ y.det = x.det ∧ y.cls = 3 ∧
        (y.button k.val ≠ x.button k.val →
          ev = s.chip.ain.event ||| BitVec.ofNat 32 (2 ^ n.val) ∧ at_ = s.chip.ain.scanBlk)) ∧
    (b.state = true → x.stuck.getLsbD k.val = false →
      b.since + 1000 * s.chip.itN (item 0x0A n.val 5) ≤ s.chip.ain.scans → Completes (.stuck n k) s [.ain, .err] fun c =>
      ∃ y ev at_, c.ain = { s.chip.ain with ins := s.chip.ain.ins.set n.val y, event := ev, eventBlk := at_ } ∧
        y = { x with
          stuck := x.stuck ||| BitVec.ofNat 4 (2 ^ k.val)
          buttons := x.buttons.set k.val { b with chatter := b.chatter.map fun q => (false, q.2) } } ∧ y.button k.val = false ∧
        c.err = s.chip.recorded 0x0D01 .note n.val) ∧
    (∀ q, b.chatter = some q → q.2 ≤ s.chip.ain.scans →
      changesIn s.chip.ain.scans b.changes ≤ s.chip.itN (item 0x0A n.val 6) →
      Completes (.chatterEnd (.button n k)) s [.ain] fun c =>
        ∃ y ev at_, c.ain = { s.chip.ain with ins := s.chip.ain.ins.set n.val y, event := ev, eventBlk := at_ } ∧
          y = { x with buttons := x.buttons.set k.val { b with chatter := none } }) ∧
    (∀ q, x.det.chatter = some q → q.2 ≤ s.chip.ain.scans →
      s.chip.itN (item 0x0A n.val 6) < changesIn s.chip.ain.scans x.det.changes →
      Completes (.chatterEnd (.det n)) s [.ain] fun c =>
        ∃ y ev at_, c.ain = { s.chip.ain with ins := s.chip.ain.ins.set n.val y, event := ev, eventBlk := at_ } ∧
          y.det = { x.det with chatter := some (q.1, q.2 + 10000) } ∧ y.gain = x.gain ∧ (q.1 = true → y.cls = x.cls) ∧
          (q.1 = false → y.cls = 0 ∧ ∀ k, y.button k = false))

/-- Contacts (09 R255, R256) complete: a debounced change is reported, with its FAULT or NOTE, and a CHATTER guard ends or
goes on. -/
def Obligations.SupervisedContacts : Prop :=
  ∀ (s : State) (k : Fin 32) (x : Contact), s.live → s.chip.ain.contacts[k.val]? = some x →
    (s.chip.itB (item 0x0A (0x10 + k.val) 1) = true → 20 ≤ x.cand.2 → x.cand.1 ≠ x.deb → x.chatter = none →
      (x.changes.filter fun h => s.chip.ain.scans < h.1 + 1000).length < s.chip.itN (item 0x0A (0x10 + k.val) 2) →
      x.st = x.deb → Completes (.contactStateChange k) s [.ain, .err] fun c =>
        ∃ y, c.ain = { s.chip.ain with
          contacts := s.chip.ain.contacts.set k.val y, event := s.chip.ain.event ||| BitVec.ofNat 32 (2 ^ 16), eventBlk := s.chip.ain.scanBlk } ∧
          y.deb = x.cand.1 ∧ y.st = x.cand.1 ∧ y.loop_ = x.loop_ ∧
          (x.cand.1 = 2 ∨ x.cand.1 = 3 → c.err = s.chip.recorded 0x0D10 .fault k.val) ∧
          (¬(x.cand.1 = 2 ∨ x.cand.1 = 3) → x.st = 2 ∨ x.st = 3 → c.err = s.chip.recorded 0x0D11 .note k.val) ∧
          (¬(x.cand.1 = 2 ∨ x.cand.1 = 3) → ¬(x.st = 2 ∨ x.st = 3) → c.err = s.chip.err)) ∧
    (∀ q, x.chatter = some q → q.1 = x.st → q.2 ≤ s.chip.ain.scans →
      (s.chip.itN (item 0x0A (0x10 + k.val) 2) < (x.changes.filter fun h => s.chip.ain.scans < h.1 + 1000).length →
        Completes (.chatterEnd (.contact k)) s [.ain, .err] fun c =>
          c.ain = { s.chip.ain with contacts := s.chip.ain.contacts.set k.val { x with chatter := some (q.1, q.2 + 10000) } } ∧
            c.err = s.chip.err) ∧
      ((x.changes.filter fun h => s.chip.ain.scans < h.1 + 1000).length ≤ s.chip.itN (item 0x0A (0x10 + k.val) 2) →
        Completes (.chatterEnd (.contact k)) s [.ain, .err] fun c =>
          ∃ y ev at_, c.ain = { s.chip.ain with contacts := s.chip.ain.contacts.set k.val y, event := ev, eventBlk := at_ } ∧
            y.chatter = none ∧ y.st = x.deb ∧ y.deb = x.deb))

/-- Scans, mains, battery and rails (09 R250 to R260) complete. -/
def Obligations.SupplySense : Prop :=
  ∀ s : State, s.live →
    (∀ x : ScanIn, CompletesAt (.ainScan x) s x.t [.ain] fun c =>
      c.ain.scans = s.chip.ain.scans + 1 ∧ c.ain.scanBlk = s.chip.sys.blk ∧ c.ain.event = s.chip.ain.event ∧
        c.ain.batt = min 0xFFFF (x.batt.toNat * s.chip.itN (item 0x0A 0x30 4) / 4096) ∧
        (∀ (n : Nat) (y : AinIn) (q : Bool × Nat × Nat), s.chip.ain.ins[n]? = some y → x.inputs[n]? = some q →
          ∃ z, c.ain.ins[n]? = some z ∧ z.rc = min 0xFFFF (q.2.1 / 10) ∧ z.rd = min 0xFFFF (q.2.2 / 10) ∧
            z.det = y.det.scan q.1 ∧ z.cls = y.cls ∧ z.cand.1 = classOf y.inserted q.2.1 q.2.2)) ∧
    (∀ rms freq t, rms * s.chip.itN (item 0x0A 0x30 1) / 500 < s.chip.itN (item 0x0A 0x30 2) →
      s.chip.ain.mainsFail = false → CompletesAt (.mainsHalfCycle rms freq t) s t [.ain, .err] fun c =>
        c.ain.mainsFail = true ∧ c.ain.goodSince = none ∧ c.ain.lastZc = some t ∧ c.ain.event.getLsbD 17 = true ∧
          c.ain.vrms = min 0xFFF (rms * s.chip.itN (item 0x0A 0x30 1) / 500) ∧ c.ain.ins = s.chip.ain.ins ∧
          c.err = s.chip.recorded 0x0D20 .fault) ∧
    (∀ rms t, s.chip.itN (item 0x0A 0x30 2) ≤ rms * s.chip.itN (item 0x0A 0x30 1) / 500 →
      (∀ z, s.chip.ain.lastZc = some z → t < z + 15 * msClk) →
      CompletesAt (.mainsHalfCycle rms none t) s t [.ain] fun c =>
        c.ain = { s.chip.ain with
          vrms := min 0xFFF (rms * s.chip.itN (item 0x0A 0x30 1) / 500), goodSince := s.chip.ain.goodSince <|> some (s.chip.ain.lastZc.getD t), lastZc := some t }) ∧
    (∀ z t, s.chip.ain.lastZc = some z → z + 15 * msClk ≤ t → s.chip.ain.mainsFail = false →
      (CompletesAt (.mainsZcTimeout t) s t [.ain, .err] fun c =>
        c.ain.mainsFail = true ∧ c.ain.goodSince = none ∧ c.ain.lastZc = none ∧
          c.err = s.chip.recorded 0x0D20 .fault) ∧
      ∀ rms freq, CompletesAt (.mainsHalfCycle rms freq t) s t [.ain, .err] fun c =>
        c.ain.mainsFail = true ∧ c.ain.lastZc = some t ∧ c.err = s.chip.recorded 0x0D20 .fault) ∧
    (∀ f z t, s.chip.ain.mainsFail = true → s.chip.ain.goodSince = some f → s.chip.ain.lastZc = some z →
      f + s.chip.itN (item 0x0A 0x30 3) * msClk ≤ z → CompletesAt (.mainsRestore t) s t [.ain, .err] fun c =>
        c.ain.mainsFail = false ∧ c.ain.goodSince = some f ∧ c.err = s.chip.recorded 0x0D21 .note) ∧
    (s.chip.ain.low.on = false → 100 ≤ s.chip.ain.low.set → Completes (.batteryCondition false) s [.ain, .err] fun c =>
      c.ain.low.on = true ∧ c.ain.critical = s.chip.ain.critical ∧ c.err = s.chip.recorded 0x0D22 .fault ∧
        (s.chip.itN (item 0x0A 0x30 0x30) = 15 → c.ain.psuAlert = true)) ∧
    (s.chip.ain.critical.on = true → 100 ≤ s.chip.ain.critical.clear →
      Completes (.batteryCondition true) s [.ain, .err] fun c =>
        c.ain.critical.on = false ∧ c.ain.low = s.chip.ain.low ∧ c.err = s.chip.recorded 0x0D24 .note) ∧
    (∀ (r : Fin 8) (q : RailSense), s.chip.ain.rails[r.val]? = some q → 3 ≤ q.count →
      Completes (.railWindow r) s [.ain, .err] fun c =>
        c.ain.rails = s.chip.ain.rails.set r.val { q with out := !q.out, count := 0 } ∧ c.ain.ins = s.chip.ain.ins ∧
          c.err = if q.out then s.chip.recorded 0x0D24 .note r.val else s.chip.recorded 0x0D23 .fault r.val)

/-! References and PTP (chapter 11) -/

/-- Events, stops and qualification of the reference inputs complete once the REF block is enabled (11 R290 to R297, R300,
R302; 19 R491). -/
def Obligations.ReferenceInputs : Prop :=
  ∀ (s : State) (x : Fin 6) (i : RefIn), s.live → s.chip.ref.enabled = true → s.chip.ref.ins[x.val]? = some i → x.val < 5 →
    (∀ ev : RefEv, s.chip.refCause x.val ev = none → s.chip.ref.selected ≠ x.val → s.chip.grandmaster = false ∨ 2 < x.val →
      CompletesAt (.refEvent x ev) s ev.t [.ref] fun c =>
        ∃ y, c.ref = { s.chip.ref with ins := s.chip.ref.ins.set x.val y, lockSince := c.ref.lockSince } ∧
          (s.chip.ref.st ≠ .acquire → c.ref.lockSince = none) ∧
          y.qualified = i.qualified ∧ y.eligible = i.eligible ∧ y.cause = i.cause ∧ y.nu = i.nu ∧ y.dev = i.dev ∧
          (x.val = 4 ∧ ev.pps = true → y.pps = true ∧ y.ppsAt = max s.chip.clk ev.t ∧ y.phase = ev.phase ∧
            y.lastAt = i.lastAt ∧ y.present = i.present ∧ y.gates = i.gates) ∧
          (¬(x.val = 4 ∧ ev.pps = true) → y.present = true ∧ y.lastAt = max s.chip.clk ev.t ∧
            y.phase = (if x.val = 4 then i.phase else ev.phase) ∧ y.pps = i.pps ∧
            (∀ g, ev.gate = some g → y.gates.head? = some (max s.chip.clk ev.t, g)) ∧
            (i.cause ≠ 5 → x.val ≠ 4 ∨ i.pps = true → y.goodSince = (i.goodSince <|> some (max s.chip.clk ev.t))))) ∧
    (∀ (ev : RefEv) (k : Nat), s.chip.refCause x.val ev = some k → i.qualified = true → s.chip.ref.selected = x.val →
      s.chip.ref.st = .locked → s.chip.grandmaster = false ∨ 2 < x.val → CompletesAt (.refEvent x ev) s ev.t [.ref, .err] fun c =>
        c.ref.st = .holdover ∧ c.ref.stateChange = true ∧ c.ref.selected = 6 ∧ c.ref.switching = false ∧
          c.ref.holdSince = some (max s.chip.clk ev.t) ∧ c.ref.heldInput = x.val ∧ c.ref.freq = s.chip.ref.freq ∧
          (∃ y, c.ref.ins = s.chip.ref.ins.set x.val y ∧ y.qualified = false ∧ y.eligible = false ∧ y.cause = k) ∧
          c.err = s.chip.recorded 0x0B02 .fault x.val) ∧
    (∀ t, i.present = true → i.lastAt + 2 * s.chip.refPeriod x.val ≤ t → i.qualified = true →
      s.chip.ref.selected ≠ x.val → Completes (.inputStopped x t) s [.clk, .ptp, .ref, .err] fun c =>
        c.clk = max s.chip.clk t ∧ c.ref.st = s.chip.ref.st ∧ c.ref.selected = s.chip.ref.selected ∧
          (∃ y, c.ref.ins = s.chip.ref.ins.set x.val y ∧ y.present = false ∧ y.qualified = false ∧ y.eligible = false ∧
            y.cause = 1 ∧ y.goodSince = none) ∧
          c.err = s.chip.recorded 0x0B01 .note x.val) ∧
    (∀ t, i.present = true → i.lastAt + 2 * s.chip.refPeriod x.val ≤ t → i.qualified = false → i.cause = 5 →
      Completes (.inputStopped x t) s [.clk, .ptp, .ref, .err] fun c =>
        (∃ y, c.ref.ins = s.chip.ref.ins.set x.val y ∧ y.present = false ∧ y.qualified = false ∧ y.cause = 1) ∧
          c.ref.st = s.chip.ref.st ∧ c.err = s.chip.recorded 0x0B01 .note x.val) ∧
    (∀ t g, i.goodSince = some g → i.present = true → x.val ≠ 4 ∨ i.pps = true → i.qualified = false →
      i.cause ≠ 5 ∨ i.dev.natAbs < 100 * s.chip.refSel 1 → s.chip.grandmaster = false ∨ 2 < x.val →
      g + s.chip.itN (item 0x0C x.val 2) * secClk ≤ t → CompletesAt (.inputQualified x t) s t [.ref] fun c =>
        c.ref = { s.chip.ref with ins := s.chip.ref.ins.set x.val { i with
          qualified := true, qualAt := t, before := true, eligible := !i.before } }) ∧
    (∀ t, i.qualified = true → i.eligible = false → s.chip.grandmaster = false ∨ 2 < x.val →
      i.qualAt + s.chip.refSel 4 * secClk ≤ t → CompletesAt (.wtrExpiry x t) s t [.ref] fun c =>
        c.ref = { s.chip.ref with ins := s.chip.ref.ins.set x.val { i with eligible := true } })

/-- The DPLL completes its steps (11 R298, R302 to R305), and so do the seconds of ref.tod_seconds (11 R311) and the load
of the block index (19 R494). -/
def Obligations.DpllSteps : Prop :=
  ∀ (s : State) (t : Nat), s.live → s.chip.ref.enabled = true →
    (s.chip.ref.switching = true → s.chip.inWindow = true → s.chip.ref.freq = s.chip.refFreq s.chip.ref.selected →
      CompletesAt (.switchComplete t) s t [.ref] fun c =>
        c.ref = { s.chip.ref with switching := false, realign := false, lockSince := some t }) ∧
    (∀ f, s.chip.ref.lockSince = some f → s.chip.ref.st = .acquire → s.chip.ref.switching = false →
      s.chip.inWindow = true → f + secClk ≤ t → CompletesAt (.dpllLocked t) s t [.ref, .err] fun c =>
        c.ref = { s.chip.ref with st := .locked, stateChange := true } ∧ c.err = s.chip.recorded 0x0B08 .note) ∧
    (∀ f, s.chip.ref.holdSince = some f → s.chip.ref.st = .holdover →
      f + (if s.chip.ref.holdModel then s.chip.refSel 8 else s.chip.refSel 9) * secClk ≤ t →
      CompletesAt (.holdoverLimit t) s t [.ref, .err] fun c =>
        c.ref = { s.chip.ref with st := .holdoverLimit, stateChange := true } ∧ c.err = s.chip.recorded 0x0B05 .fault) ∧
    (∀ temp, s.chip.ref.st = .locked → s.chip.ref.selected < 5 → s.chip.ref.loscDrift = false →
      CompletesAt (.modelUpdate temp t) s t [.ref] fun c =>
        c.ref.temp = temp ∧ c.ref.lockedFor = s.chip.ref.lockedFor + 1 ∧
          c.ref.history = s.chip.ref.history ∧
          c.ref.records.head? = some (s.chip.refFreq s.chip.ref.selected, temp, max s.chip.clk t / secClk) ∧
          c.ref.freq = s.chip.ref.freq ∧ c.ref.st = .locked ∧ c.ref.ins = s.chip.ref.ins ∧ c.ref.shown = c.refWords) ∧
    (1800 ≤ s.chip.ref.lockedFor → s.chip.ref.loscDrift = false → Completes .modelValid s [.ref] fun c =>
      c.ref = { s.chip.ref with modelValid := true }) ∧
    (∀ sec, s.chip.ref.tod = some sec → s.chip.audioOnce = false → sec < 2 ^ 48 → s.chip.ptp.time < timeTurn →
      (2 < s.chip.ref.selected → Completes (.todSet t) s [.clk, .ptp, .ref, .sys] fun c =>
        c.clk = max s.chip.clk t ∧ c.ptp.time / (10 ^ 9 * 2 ^ 32) = sec ∧
          c.ptp.time % (10 ^ 9 * 2 ^ 32) = (s.chip.ptpAt c.clk).time % (10 ^ 9 * 2 ^ 32) ∧ c.ptp.incr = s.chip.ptp.incr ∧
          c.ref = { s.chip.ref with tod := none, ins := c.ref.ins } ∧ c.sys = { s.chip.sys with reload := c.sys.reload } ∧
          (c.ptp.time ≠ (s.chip.ptpAt c.clk).time → c.sys.reload = true)) ∧
      (s.chip.ref.selected ≤ 2 → CompletesAt (.todSet t) s t [.ref] fun c => c.ref = { s.chip.ref with tod := none })) ∧
    (s.chip.sys.reload = true → s.chip.sys.tickRun = true → s.chip.ticking = true → s.chip.audioOnce = false →
      Completes .tickIndexReload s [.sys, .flow] fun c =>
        c.sys = { s.chip.sys with blk := blockAt s.chip.prof s.chip.epoch s.chip.nowNs, reload := false } ∧
          (s.chip.flow.nextClose ≤ c.sys.blk + 2 → c.flow = s.chip.flow) ∧
          (c.sys.blk + 2 < s.chip.flow.nextClose → c.flow.nextClose = c.sys.blk + 1 ∧ c.flow.table = s.chip.flow.table))

/-- The selector's evaluation and the drift vote complete (11 R294 to R301), and the REF registers show what they leave
(11 R318). -/
def Obligations.SelectorSteps : Prop :=
  ∀ (s : State) (t : Nat), s.live → s.chip.ref.enabled = true →
    (s.chip.audioOnce = true → s.chip.ref.freq.natAbs ≤ 6000000 →
      Completes (.selectorEvaluation t) s [.clk, .ptp, .ref, .err] fun c =>
        c.clk = max s.chip.clk t ∧ (c.ref.freq - s.chip.ref.freq).natAbs ≤ 100 ∧ c.ref.freq.natAbs ≤ 6000000 ∧
          c.ptp.incr = ptpIncr c.ref.freq ∧ c.ref.quick = c.refQuick ∧
          (c.ref.selected = s.chip.ref.selected ∧ c.ref.st = s.chip.ref.st ∧ c.err = s.chip.err ∨
            c.ref.switching = true ∧ c.ref.st = .acquire ∧ c.ref.switches = s.chip.ref.switches + 1 ∧
              s.chip.ref.switching = false ∧ c.ref.selected ≠ s.chip.ref.selected)) ∧
    (3 ≤ ((List.range 6).filter fun x => (s.chip.refIn x).qualified).length →
      CompletesAt (.driftVote t) s t [.ref, .err] fun c =>
        c.ref.noVote = false ∧ c.ref.freq = s.chip.ref.freq ∧ c.ref.shown = c.refWords) ∧
    (((List.range 6).filter fun x => (s.chip.refIn x).qualified).length < 3 → s.chip.ref.noVote = false →
      CompletesAt (.driftVote t) s t [.ref, .err] fun c =>
        c.ref.noVote = true ∧ c.ref.freq = s.chip.ref.freq ∧ c.ref.shown = c.refWords)

/-- The messages of the PTP ports complete (11 R312 to R314). -/
def Obligations.PtpPorts : Prop :=
  ∀ (s : State) (m : Fin 3) (x : PtpPort) (t : Nat), s.live → s.chip.ptp.ports[m.val]? = some x →
    (∀ (via : PtpVia) (a : AnnounceMsg) (at_ origin ingress : Nat) (correction : Int), s.chip.ptpTakes via = true →
      x.st = .following → x.best = some (a, at_) →
      Completes (.ptpSyncRx ⟨m, via⟩ origin ingress correction a.sender t) s [.clk, .ptp, .macs, .mem, .ref, .err] fun c =>
        c.clk = max s.chip.clk t ∧ c.ptp.time = (s.chip.ptpAt c.clk).time ∧ c.ptp.incr = s.chip.ptp.incr ∧
          ∃ y, c.ptp.ports[m.val]? = some y ∧ y.st = .following ∧ y.syncs = x.syncs + 1 ∧ y.gm = x.gm ∧
            (x.back = none → y.delay = x.delay) ∧
            (∀ b, x.back = some b → y.delay = roundDiv ((ingress : Int) - origin - correction + b) 2) ∧
            y.offset = max (-2147483648) (min 2147483647 ((ingress : Int) - origin - correction - y.delay))) ∧
    (∀ (a : AnnounceMsg) (at_ : Nat), x.st = .following → x.best = some (a, at_) → at_ + 3 * announceClk ≤ t →
      Completes (.announceTimeout m t) s [.clk, .ptp] fun c =>
        c.clk = max s.chip.clk t ∧ c.ptp = { s.chip.ptpAt c.clk with
          ports := s.chip.ptp.ports.set m.val { x with
            st := .listening, best := none, syncOk := false, lastSync := none, back := none, asked := none, gate := none
            foreign := x.foreign.filter fun q => q.1.sender ≠ a.sender } }) ∧
    (∀ (via : PtpVia) (a : AnnounceMsg), s.chip.ptpTakes via = true → x.st = .listening → a.steps.toNat < 255 →
      a.sender.toNat ≠ s.chip.clockId →
      (x.foreign = [] → Completes (.announceRx ⟨m, via⟩ a t) s [.clk, .ptp, .macs, .mem, .ref, .err] fun c =>
        c.clk = max s.chip.clk t ∧ c.ref = s.chip.ref ∧ c.err = s.chip.err ∧ c.ptp = { s.chip.ptpAt c.clk with
          ports := s.chip.ptp.ports.set m.val { x with foreign := [(a, [max s.chip.clk t])] } }) ∧
      ∀ (b : AnnounceMsg) (at_ : Nat), x.foreign = [(b, [at_])] → b.sender = a.sender → x.master = none →
        max s.chip.clk t < at_ + 4 * announceClk →
        Completes (.announceRx ⟨m, via⟩ a t) s [.clk, .ptp, .macs, .mem, .ref, .err] fun c =>
        c.clk = max s.chip.clk t ∧ c.ref = s.chip.ref ∧ c.err = s.chip.err ∧ c.ptp = { s.chip.ptpAt c.clk with
          ports := s.chip.ptp.ports.set m.val { x with
            st := .following, best := some (a, max s.chip.clk t), master := some a.sender, cls := a.clockClass, gm := a.gm
            foreign := [(a, [max s.chip.clk t, at_])] } }) ∧
    (∀ (via : PtpVia) (a : AnnounceMsg), s.chip.ptpTakes via = true → x.st = .master →
      lexLess (announceRank a) (announceRank s.chip.ownAnnounce) = true →
      Completes (.announceRx ⟨m, via⟩ a t) s [.clk, .ptp, .macs, .mem, .ref, .err] fun c =>
        c.clk = max s.chip.clk t ∧ c.ref = s.chip.ref ∧ c.err = s.chip.recorded 0x0A02 .note m.val ∧ c.ptp = { s.chip.ptpAt c.clk with
          ports := s.chip.ptp.ports.set m.val { x with st := .passive, best := some (a, max s.chip.clk t) } }) ∧
    (∀ (a : AnnounceMsg) (at_ : Nat), x.st = .passive → x.best = some (a, at_) → at_ + 3 * announceClk ≤ t →
      Completes (.masterReturn m t) s [.clk, .ptp] fun c =>
        c.clk = max s.chip.clk t ∧ c.ptp = { s.chip.ptpAt c.clk with
          ports := s.chip.ptp.ports.set m.val { x with st := .master, best := none } }) ∧
    (s.chip.sends m.val = true → Completes (.announceSend m t) s [.clk, .ptp, .macs, .mem] fun c =>
        c.clk = max s.chip.clk t ∧ c.ptp = { s.chip.ptpAt c.clk with
          ports := s.chip.ptp.ports.set m.val { x with
            cls := s.chip.ownAnnounce.clockClass, seqs := (x.seqs.1, x.seqs.2.1, x.seqs.2.2 + 1) } }) ∧
    (s.chip.sends m.val = true → Completes (.syncSend m t) s [.clk, .ptp, .macs, .mem] fun c =>
        c.clk = max s.chip.clk t ∧ c.ptp = { s.chip.ptpAt c.clk with
          ports := s.chip.ptp.ports.set m.val { x with seqs := (x.seqs.1, x.seqs.2.1 + 1, x.seqs.2.2) } }) ∧
    (∀ (via : PtpVia) (sender : Dword) (port seq : BitVec 16), s.chip.ptpTakes via = true → s.chip.sends m.val = true → m.val < 2 →
      s.chip.canStart m.val → CompletesAt (.delayReqRx ⟨m, via⟩ ⟨sender, port⟩ seq t) s t [.macs, .mem] fun c =>
        ∃ f, (c.mac m).sending = some (1, f) ∧ f.attempts = 1 ∧ f.postedAt = max s.chip.clk t ∧
          ∃ ns, f.bytes = s.chip.ptpFrame false (s.chip.ptpMessage 9 0 seq.toNat 3 (s.chip.ptpIt 3 + 2) m.val
            (ptpStamp ns ++ beBytes 8 sender.toNat ++ beBytes 2 port.toNat))) ∧
    (∀ (via : PtpVia) (seq : BitVec 16) (receipt egress : Nat) (correction : Int), s.chip.ptpTakes via = true →
      x.st = .following → x.asked = some (seq, egress) →
      Completes (.delayRespRx ⟨m, via⟩ seq ⟨receipt, correction⟩ t) s [.clk, .ptp, .macs, .mem] fun c =>
        c.clk = max s.chip.clk t ∧ c.ptp = { s.chip.ptpAt c.clk with
          ports := s.chip.ptp.ports.set m.val { x with
            asked := none, back := some ((receipt : Int) - correction - egress) } })

/-- Frames received on a LINK port complete (07 R188 to R192, R208 to R213): a good one, one with a bad FCS, one that the
filter turns away; and the refill and the return of buffers. -/
def Obligations.FrameReception : Prop :=
  ∀ (s : State) (p : Fin 2) (x : Mac) (bytes : List Byte) (t : Nat), s.live → s.chip.macs[p.val]? = some x → x.up = true →
    x.portEn = true → 60 ≤ bytes.length → bytes.length ≤ 1518 →
    (s.chip.accepts p.val bytes = false → CompletesAt (.linkFrameRx p bytes true t) s t [.macs] fun c =>
      c.macs = s.chip.macs.set p.val { x with counts := lmod x.counts 3 (· + 1) }) ∧
    (∀ r q g, s.chip.accepts p.val bytes = true → (etherType bytes).1 ≠ 0x8808 → s.chip.classify p.val bytes = some r →
      x.rx[r]? = some q → s.ham.rings[ringIx p.val r]? = some g → g.asm = [] →
      (∀ n, n = min (buffersFor bytes) g.posted.length →
        CompletesHam (.linkFrameRx p bytes false t) s [.clk, .ptp, .macs, .mem] fun h c =>
          c.clk = max s.chip.clk t ∧ c.macs = s.chip.macs.set p.val { x with counts := lmod x.counts 1 (· + 1) } ∧
            h = { s.ham with rings := s.ham.rings.set (ringIx p.val r) { g with
              posted := g.posted.drop n ++ g.posted.take n } }) ∧
      (buffersFor bytes ≤ g.posted.length → s.chip.dmaHalted p.val = false →
        CompletesHam (.linkFrameRx p bytes true t) s [.clk, .ptp, .macs, .mem, .err] fun h c =>
          c.clk = max s.chip.clk t ∧
            h = { s.ham with rings := s.ham.rings.set (ringIx p.val r) { g with
              posted := g.posted.drop (buffersFor bytes), held := g.held ++ g.posted.take (buffersFor bytes) } } ∧
            ∃ y z, c.macs = s.chip.macs.set p.val y ∧ y.counts = lmod x.counts 0 (· + 1) ∧ y.tx = x.tx ∧ y.up = true ∧
              y.rx = x.rx.set r z ∧ z.made = q.made + 1) ∧
      (g.posted.length < buffersFor bytes → g.posted ≠ [] → s.chip.dmaHalted p.val = false →
        CompletesHam (.rxTruncation ⟨p.val, by omega⟩ bytes t) s [.clk, .ptp, .macs, .mem, .err, .drop] fun h c =>
          c.clk = max s.chip.clk t ∧ c.drop = { s.chip.drop with truncs := s.chip.drop.truncs + 1, truncSeen := true } ∧
            h = { s.ham with rings := s.ham.rings.set (ringIx p.val r) { g with posted := [], held := g.held ++ g.posted } } ∧
            ∃ y z, c.macs = s.chip.macs.set p.val y ∧ y.counts = lmod x.counts 5 (· + 1) ∧ y.tx = x.tx ∧
              y.rx = x.rx.set r z ∧ z.made = q.made + 1))

/-- The refill engine completes (07 R209, R213): buffers that are FREE are posted up to the ring's target, and those that a
ring's owner returns become FREE. -/
def Obligations.BufferCycle : Prop :=
  ∀ (s : State) (m : Fin 3) (r : Fin 8) (g : RxRing), s.live → s.ham.rings[ringIx m.val r.val]? = some g →
    (∀ n, n = min (rxTarget m.val r.val - (g.posted.length + g.asm.length + g.held.length)) s.ham.free.length →
      CompletesHam (.hamperRefill m r) s [] fun h _ =>
        h = { free := s.ham.free.drop n,
              rings := s.ham.rings.set (ringIx m.val r.val) { g with posted := g.posted ++ s.ham.free.take n } }) ∧
    (∀ (x : Mac) (q : RxSide) (b : Nat), s.chip.macs[m.val]? = some x → x.rx[r.val]? = some q →
      s.chip.dmaHalted m.val = false → s.chip.mem.bytes.clean (rxRet m.val r.val + 4 * rxTarget m.val r.val) 4 = true →
      s.chip.mem.bytes.clean (rxRet m.val r.val + 4 * (q.taken % rxTarget m.val r.val)) 4 = true →
      BitVec.ofNat 16 (ofLe (s.chip.mem.bytes.bytes (rxRet m.val r.val + 4 * rxTarget m.val r.val) 4)) = BitVec.ofNat 16 (q.taken + 1) →
      b = ofLe ((s.chip.mem.bytes.bytes (rxRet m.val r.val + 4 * (q.taken % rxTarget m.val r.val)) 4).take 2) →
      (b ∈ g.held → CompletesHam (.bufferReturn m r) s [.macs] fun h c =>
        h = { free := s.ham.free ++ [b], rings := s.ham.rings.set (ringIx m.val r.val) { g with held := g.held.erase b } } ∧
          c.macs = s.chip.macs.set m.val { x with rx := x.rx.set r.val { q with taken := q.taken + 1 } }) ∧
      (b ∉ g.held → CompletesHam (.bufferReturn m r) s [.macs, .drop, .err] fun h c =>
        h = s.ham ∧ c.drop = { s.chip.drop with badReturns := s.chip.drop.badReturns + 1, badReturnSeen := true } ∧
          c.err = s.chip.recorded 0x0632 .note))

/-- Frames sent by a MAC complete (07 R194, R214): a poll takes a descriptor from a host ring, the end of a frame on a LINK
port is an output, and stale audio frames complete without being sent. -/
def Obligations.FrameTransmission : Prop :=
  ∀ (s : State) (m : Fin 3) (x : Mac) (t : Nat), s.live → s.chip.macs[m.val]? = some x →
    (∀ (r : Fin 8) (y : TxSide) (a w1 : Nat), 4 ≤ r.val → x.tx[r.val]? = some y → x.quiet → x.sending ≠ none →
      s.chip.txBar m.val = none → s.chip.dmaHalted m.val = false → s.chip.mem.bytes.clean (txBase m.val r.val + 0x2000) 4 = true →
      s.chip.mem.bytes.clean (txBase m.val r.val + 32 * (y.fetched.toNat % 256)) 8 = true →
      ringDiff y.fetched y.consumed < 256 →
      BitVec.ofNat 16 (ofLe (s.chip.mem.bytes.bytes (txBase m.val r.val + 0x2000) 4)) = y.fetched + 1 →
      a = ofLe (s.chip.mem.bytes.bytes (txBase m.val r.val + 32 * (y.fetched.toNat % 256)) 4) →
      w1 = ofLe (s.chip.mem.bytes.bytes (txBase m.val r.val + 32 * (y.fetched.toNat % 256) + 4) 4) →
      a % 4 = 0 → 14 ≤ w1 % 2048 → w1 % 2048 ≤ 1518 → 0x40000000 ≤ a → a + w1 % 2048 ≤ 0x40800000 → s.chip.mem.bytes.clean a (w1 % 2048) = true →
      CompletesAt (.txRingPoll m r t) s t [.macs] fun c =>
        c.macs = s.chip.macs.set m.val { x with tx := x.tx.set r.val { y with
          fetched := y.fetched + 1
          queue := [{ slot := some (y.fetched.toNat % 256), bytes := s.chip.mem.bytes.bytes a (w1 % 2048)
                      tsReq := w1.testBit 16, postedAt := max s.chip.clk t }] } }) ∧
    (∀ (p : Fin 2) (f : TxFrame) (r k : Nat) (y : TxSide), m.val = p.val → x.sending = some (r, f) → x.quiet →
      x.tx[r]? = some y → f.slot = some k → f.tsReq = false → f.follow = [] → f.asks = none → s.chip.dmaHalted p.val = false →
      s.chip.mem.bytes.clean (txBase p.val r + 32 * k) 16 = true → s.chip.mem.bytes.wf = true →
      CompletesAt (.linkTxFrameEnd p t) s t [.macs, .mem] fun c =>
        c.out = [.frame p.val (padFrame f.bytes)] ++ c.out.drop 1 ∧
          c.macs = s.chip.macs.set p.val { x with
            sending := none, counts := lmod x.counts 6 (· + 1), tx := x.tx.set r { y with consumed := y.consumed + 1 } } ∧
          ∀ a, a < txBase p.val r + 32 * k + 4 ∨ txBase p.val r + 32 * k + 32 ≤ a →
            c.mem.bytes.byte a = s.chip.mem.bytes.byte a) ∧
    (∀ (p : Fin 2) (y : TxSide) (f : TxFrame) (q : List TxFrame) (o k : Nat), m.val = p.val → x.tx[0]? = some y →
      y.queue = f :: q → y.owner = [] → f.seq = some o → o ≤ s.chip.sys.blk → f.slot = some k → f.attempts = 0 →
      s.chip.txBar m.val = none → x.busy 0 = false → (∀ z ∈ x.tx, ∀ g ∈ z.queue, g.fixed = none) →
      s.chip.dmaHalted p.val = false → s.chip.mem.bytes.clean (txBase p.val 0 + 32 * k) 16 = true →
      (∀ g ∈ q, ∀ k, g.seq = some k → s.chip.sys.blk < k) → Completes (.audioFrameStale p) s [.macs, .mem] fun c =>
        c.macs = s.chip.macs.set p.val { x with
          tx := x.tx.set 0 { y with queue := q, consumed := y.consumed + 1 }, counts := lmod x.counts 7 (· + 1) })

/-- The LINK ports come up and go down (07 R189, R190, R222), and a fault of the SFP+ module is a FAULT. -/
def Obligations.LinkPorts : Prop :=
  ∀ (s : State) (p : Fin 2) (x : Mac) (t : Nat), s.live → s.chip.macs[p.val]? = some x → x.quiet → x.sending = none →
    x.portEn = true →
    (x.up = false → x.modAbs = false → x.txFault = false →
      Completes (.linkUp p t) s [.clk, .ptp, .macs, .err] fun c =>
        c.clk = max s.chip.clk t ∧ c.err = s.chip.recorded (if p.val = 0 then 0x0602 else 0x0702) .note ∧
          c.macs = s.chip.macs.set p.val { x with
            up := true, change := true, blockLock := true, localFault := false, remoteFault := false, cut := false }) ∧
    (∀ lock loc rem, x.up = true → (lock = false ∨ loc = true ∨ rem = true) →
      Completes (.linkDown p lock loc rem) s [.ptp, .macs, .err] fun c =>
        c.err = s.chip.recorded (if p.val = 0 then 0x0601 else 0x0701) .note ∧
          c.macs = s.chip.macs.set p.val { x with
            up := false, change := true, blockLock := lock, localFault := loc, remoteFault := rem, cut := true }) ∧
    (∀ absent fault los, x.up = false → (absent = true ∧ x.modAbs = false ∨ fault = true ∧ x.txFault = false) →
      Completes (.sfpFault p absent ⟨fault, los⟩) s [.macs, .err] fun c =>
        c.err = s.chip.recorded (if p.val = 0 then 0x0603 else 0x0703) .fault ∧
          c.macs = s.chip.macs.set p.val { x with modAbs := absent, txFault := fault, rxLos := los })

/-- The DROP bus completes its steps (07 R199 to R202, R210): opportunities, collisions with their back-off, the end of a
frame, stale frames, and frames received. -/
def Obligations.DropBus : Prop :=
  ∀ (s : State) (x : Mac) (t : Nat), s.live → s.chip.macs[2]? = some x → x.portEn = true →
    (∀ (y : TxSide) (f : TxFrame) (q : List TxFrame), x.sending = none → x.tx[7]? = some y → y.queue = f :: q →
      (∀ z ∈ x.tx, ∀ g ∈ z.queue, g.fixed = none) → s.chip.boot.peg ≠ 0 → s.chip.sys.xqSilent.getLsbD 16 = false → s.chip.dmaHalted 2 = false →
      f.waitUntil ≤ max s.chip.clk t → CompletesAt (.dropTxOpportunity t) s t [.macs, .drop] fun c =>
        c.drop = { s.chip.drop with carrier := true } ∧ c.macs = s.chip.macs.set 2 { x with
          sending := some (7, { f with attempts := f.attempts + 1 }), tx := x.tx.set 7 { y with queue := q } }) ∧
    (∀ (r : Nat) (f : TxFrame) (y : TxSide), x.sending = some (r, f) → x.tx[r]? = some y →
      (f.attempts < 16 → CompletesAt (.dropCollision false t) s t [.macs, .drop, .fresh] fun c =>
        c.drop = { s.chip.drop with collSeen := true, carrier := false, counts := lmod s.chip.drop.counts 0 (· + 1) } ∧
          c.fresh = s.chip.fresh + 1 ∧
          ∃ n, n < 2 ^ min f.attempts 10 ∧ c.macs = s.chip.macs.set 2 { x with
            sending := none, tx := x.tx.set r { y with queue := { f with waitUntil := t + n * 40960 } :: y.queue } }) ∧
      (∀ k, 16 ≤ f.attempts → s.chip.boot.peg ≠ 0 → (∀ z ∈ x.tx, ∀ g ∈ z.queue, g.fixed = none) → f.slot = some k → y.owner = [] → (0x0801, 0) ∉ s.chip.err.seen →
        s.chip.dmaHalted 2 = false → s.chip.mem.bytes.clean (txBase 2 r + 32 * k) 16 = true →
        CompletesAt (.dropCollision true t) s t [.macs, .mem, .drop, .err] fun c =>
          c.drop = { s.chip.drop with
            collSeen := true, carrier := false
            counts := lmod (lmod (lmod s.chip.drop.counts 0 (· + 1)) 1 (· + 1)) 2 (· + 1) } ∧
          c.macs = s.chip.macs.set 2 { x with
            sending := none, counts := lmod x.counts 7 (· + 1), tx := x.tx.set r { y with consumed := y.consumed + 1 } } ∧
          (0x0801, 0) ∈ c.err.seen) ∧
      (∀ k, s.chip.boot.peg ≠ 0 → (∀ z ∈ x.tx, ∀ g ∈ z.queue, g.fixed = none) → f.slot = some k → y.owner = [] → f.tsReq = false → f.follow = [] → f.asks = none → s.chip.dmaHalted 2 = false →
        s.chip.mem.bytes.clean (txBase 2 r + 32 * k) 16 = true →
        CompletesAt (.dropTxEnd t) s t [.macs, .mem, .drop] fun c =>
          c.out = [.frame 2 (padFrame f.bytes)] ++ c.out.drop 1 ∧ c.drop = { s.chip.drop with carrier := false } ∧
            c.macs = s.chip.macs.set 2 { x with
              sending := none, counts := lmod x.counts 6 (· + 1), tx := x.tx.set r { y with consumed := y.consumed + 1 } })) ∧
    (∀ (y : TxSide) (f : TxFrame) (k : Nat), x.tx[7]? = some y → y.queue = [f] → y.owner = [] → f.slot = some k → f.attempts = 0 →
      s.chip.boot.peg ≠ 0 → x.busy 7 = false → (∀ z ∈ x.tx, ∀ g ∈ z.queue, g.fixed = none) →
      f.postedAt + s.chip.dropIt 2 * usClk ≤ max s.chip.clk t →
      s.chip.dmaHalted 2 = false → s.chip.mem.bytes.clean (txBase 2 7 + 32 * k) 16 = true →
      CompletesAt (.dropQ3Stale t) s t [.macs, .mem, .drop, .err] fun c =>
        c.drop = { s.chip.drop with counts := lmod s.chip.drop.counts 3 (· + 1) } ∧ (0x0801, 0) ∈ c.err.seen ∧
          c.macs = s.chip.macs.set 2 { x with
            tx := x.tx.set 7 { y with queue := [], consumed := y.consumed + 1 }, counts := lmod x.counts 7 (· + 1) }) ∧
    (∀ (bytes : List Byte) (r : Nat) (q : RxSide) (g : RxRing), 60 ≤ bytes.length → bytes.length ≤ 1518 →
      s.chip.sys.xqSilent.getLsbD 15 = false → s.chip.isSpeech bytes = false → s.chip.accepts 2 bytes = true → s.chip.classify 2 bytes = some r → 3 ≤ r →
      be bytes 6 6 ≠ s.chip.station → x.rx[r]? = some q → s.ham.rings[ringIx 2 r]? = some g → g.asm = [] →
      buffersFor bytes ≤ g.posted.length → s.chip.dmaHalted 2 = false → (∀ z ∈ x.rx.take 1, z.inbox = []) →
      CompletesHam (.dropFrameRx bytes true t) s [.clk, .ptp, .macs, .mem, .err] fun h c =>
        c.clk = max s.chip.clk t ∧
          h = { s.ham with rings := s.ham.rings.set (ringIx 2 r) { g with
            posted := g.posted.drop (buffersFor bytes), held := g.held ++ g.posted.take (buffersFor bytes) } } ∧
          ∃ y z, c.macs = s.chip.macs.set 2 y ∧ y.counts = lmod x.counts 0 (· + 1) ∧ y.tx = x.tx ∧
            y.rx = x.rx.set r z ∧ z.made = q.made + 1)

/-- Fallback speech completes (07 R203 to R207): a frame fills the buffer of its channel, and a window without one is a
FAULT. -/
def Obligations.FallbackSpeech : Prop :=
  ∀ (s : State) (n : Fin 4) (x : Speech), s.live → s.chip.drop.speech[n.val]? = some x → s.chip.speechPeg n.val ≠ 0 →
    (∀ (bytes : List Byte) (t mf : Nat), s.chip.rxOn 2 = true → s.chip.isSpeech bytes = true → 60 ≤ bytes.length →
      bytes.length ≤ 1518 → be bytes 6 6 ≠ s.chip.station → s.chip.accepts 2 bytes = true → be bytes 0 6 = ctlGroup → s.chip.levelOk (be bytes ((etherType bytes).2 + 1) 1) = true →
      be bytes ((etherType bytes).2 + 2) 1 = s.chip.speechPeg n.val →
      be bytes ((etherType bytes).2 + 3) 1 % 16 = 2 ^ n.val → t ≤ s.chip.clk → x.silent = false →
      mf = extend32 (be bytes ((etherType bytes).2 + 4) 4) s.chip.speechIndex →
      (s.chip.nowNs - s.chip.epoch * 10 ^ 9) * 16000 ≤ (mf + s.chip.dropIt 3) * 10 ^ 9 → x.buf.length ≤ 4096 → mf ≤ s.chip.speechIndex + 4096 →
      CompletesAt (.speechFrameRx bytes true t) s t [.drop] fun c =>
        ∃ y, c.drop = { s.chip.drop with speech := s.chip.drop.speech.set n.val y } ∧ y.heard = true ∧ y.silent = false ∧
          y.lastAt = some s.chip.clk ∧ y.miss = x.miss ∧
          ((∀ q ∈ x.buf, q.1 < mf ∨ mf + 64 ≤ q.1) → ∀ i, i < 64 →
            mget? y.buf (mf + i) = some (signed 16 (be bytes ((etherType bytes).2 + 12 + 2 * i) 2)))) ∧
    (∀ t (bytes : List Byte), s.chip.rxOn 2 = true →
      CompletesAt (.speechFrameRx bytes false t) s t [.macs] fun c =>
        c.macs = lmod s.chip.macs 2 fun m => { m with counts := lmod m.counts 1 (· + 1) }) ∧
    (x.heard = true → Completes (.speechWindow n) s [.drop] fun c =>
      c.drop = { s.chip.drop with speech := s.chip.drop.speech.set n.val { x with heard := false } }) ∧
    (x.heard = false → x.silent = false → Completes (.speechWindow n) s [.drop, .err] fun c =>
      c.drop = { s.chip.drop with speech := s.chip.drop.speech.set n.val { x with silent := true } } ∧
        c.err = s.chip.recorded 0x0803 .fault n.val)

/-- The channels of the power stage complete their changes of state (10 R267 to R270), and hold their states while XQ_6 is
stopped (10 R273). -/
def Obligations.ChannelStates : Prop :=
  ∀ (s : State) (m : Fin 64) (x : ModCh), s.live → s.chip.pow.ch[m.val]? = some x →
    (∀ (driver : Bool) (t : Nat), x.st.switching = true →
      CompletesAt (.channelTrip m driver t) s t [.pow, .err] fun c => ∃ y,
        c.pow.ch = s.chip.pow.ch.set m.val y ∧ c.pow.trip = s.chip.pow.trip ∧
          y.attempts = x.attempts + b2n (x.st = .retry) ∧ y.cause = (if driver then 2 else 1) ∧ y.flt = (x.flt || driver) ∧
          y.drive = [] ∧ y.since = s.chip.sys.blk ∧ y.unreported = some (y.cause, s.chip.sys.blk) ∧
          (s.chip.modIt m.val 6 ≤ y.attempts → y.st = .lockedOut ∧ c.err = s.chip.recorded 0x0E02 .fault m.val) ∧
          (y.attempts < s.chip.modIt m.val 6 → y.st = .tripped ∧ c.err = s.chip.err) ∧
          ∀ r, s.chip.pow.rails[m.val / 8]? = some r → ∃ d, c.pow.rails[m.val / 8]? = some { r with
            hold := some (max s.chip.clk t), set := 10 * s.chip.railIt (m.val / 8) 2, duty := d }) ∧
    (∀ cause b, x.unreported = some (cause, b) → b < s.chip.sys.blk → s.chip.sys.xqSilent.getLsbD 8 = false → Completes (.tripReport m) s [.pow, .err] fun c =>
      c.pow = { s.chip.pow with
        ch := s.chip.pow.ch.set m.val { x with unreported := none, trips := x.trips + 1 }
        trip := s.chip.pow.trip ||| BitVec.ofNat 64 (2 ^ m.val) } ∧
      c.err = s.chip.recorded (if cause = 2 then 0x0E06 else 0x0E01) .note m.val) ∧
    (x.st = .tripped → s.chip.err.safe = false → s.chip.pow.clockHeld = false → s.chip.pow.inputLost = false →
      x.sinceClk + s.chip.modIt m.val 5 * msClk ≤ s.chip.sys.tickAt → Completes (.retryStart m) s [.pow, .err] fun c => ∃ y,
        c.pow = { s.chip.pow with ch := s.chip.pow.ch.set m.val y } ∧ y.st = .retry ∧ y.attempts = x.attempts ∧
          y.since = s.chip.sys.blk ∧ y.forced = false ∧ y.extra = some {
            freq := s.chip.modIt m.val 0x11
            first := s.chip.sys.blk + s.chip.W / 100
            last := s.chip.sys.blk + s.chip.W / 10 }) ∧
    (∀ q z, x.st = .retry → x.disabling = false → s.chip.pow.inputLost = false → s.chip.coldOverlap = false →
      x.since + s.chip.W / 10 ≤ s.chip.sys.blk → x.extra = some q →
      z = q.result (s.chip.modIt m.val 2) (s.chip.modIt m.val 3) q.ok true →
      (z.valid = true → s.chip.modIt m.val 8 ≤ z.mag → z.mag ≤ s.chip.modIt m.val 9 →
        Completes (.retryEnd m) s [.pow, .err] fun c => ∃ y, c.pow = { s.chip.pow with ch := s.chip.pow.ch.set m.val y } ∧
          y.st = .rampUp ∧ y.fromRetry = true ∧ y.z = z ∧ y.zAlarm = false ∧ y.extra = none ∧ y.attempts = x.attempts) ∧
      (z.valid = false ∨ z.mag < s.chip.modIt m.val 8 ∨ s.chip.modIt m.val 9 < z.mag →
        Completes (.retryEnd m) s [.pow, .err] fun c => ∃ y, c.pow = { s.chip.pow with ch := s.chip.pow.ch.set m.val y } ∧
          y.attempts = x.attempts + 1 ∧ y.z = z ∧
          (s.chip.modIt m.val 6 ≤ x.attempts + 1 → y.st = .lockedOut ∧ c.err = s.chip.recorded 0x0E02 .fault m.val) ∧
          (x.attempts + 1 < s.chip.modIt m.val 6 → y.st = .tripped ∧ c.err = s.chip.err))) ∧
    (x.st = .rampUp → x.disabling = false → s.chip.pow.inputLost = false → x.gain.r = 0 → Completes (.rampUpComplete m) s [.pow, .err] fun c =>
      c.pow = { s.chip.pow with ch := s.chip.pow.ch.set m.val { x with
        st := .play, since := s.chip.sys.blk, sinceClk := s.chip.clk, disabling := false, fromRetry := false } } ∧
      c.err = if x.fromRetry then s.chip.recorded 0x0E03 .note m.val else s.chip.err) ∧
    (x.st.switching = true → x.disabling = true → s.chip.pow.inputLost = false → x.gain.r = 0 → Completes (.disableRampEnd m) s [.pow] fun c => ∃ y,
      c.pow = { s.chip.pow with ch := s.chip.pow.ch.set m.val y } ∧ y.st = .off ∧ y.disabling = false ∧ y.drive = [] ∧
        y.attempts = x.attempts ∧ y.gain = {}) ∧
    (s.chip.pow.inputLost = true → ∀ i ∈ [Instr.retryStart m, .retryEnd m, .rampUpComplete m, .disableRampEnd m],
      Completes i s [.pow] fun c => c.pow = s.chip.pow) ∧
    (x.st = .play → x.since + 60 * s.chip.W ≤ s.chip.sys.blk → Completes (.playAttemptReset m) s [.pow] fun c =>
      c.pow = { s.chip.pow with ch := s.chip.pow.ch.set m.val { x with attempts := 0 } })

/-- The power stage completes what concerns all its channels (10 R271 to R273, R277, R279 to R282; 08 R239). -/
def Obligations.PowerStage : Prop :=
  ∀ (s : State) (t : Nat), s.live →
    (Completes (.clockError .modUnlock t) s [.clk, .ptp, .clock, .pow, .sap, .err] fun c =>
      c.clk = max s.chip.clk t ∧ c.clock = { s.chip.clock with modLock := false, modUnlockSeen := true } ∧
        c.pow.clkErr = true ∧ c.pow.errAt = max s.chip.clk t ∧ c.sap.ports = s.chip.sap.ports.map SapPort.hold ∧
        (∀ r ∈ c.pow.rails, r.duty = 0) ∧
        ∀ (m : Nat) (x : ModCh), s.chip.pow.ch[m]? = some x → x.st = .play → x.disabling = false →
          ∃ y, c.pow.ch[m]? = some y ∧ y.st = .off ∧ y.clkHold = true ∧ y.drive = []) ∧
    (∀ n, 4146 ≤ n.toNat → n.toNat ≤ 4187 → CompletesAt (.clockError (.mediaRun n) t) s t [.clock, .pow] fun c =>
      c.clock = { s.chip.clock with mediaRun := n, mediaOk := true } ∧
        (s.chip.pow.clkErr = false → c.pow = s.chip.pow) ∧
        (s.chip.pow.clkErr = true → s.chip.clock.modLock = true → s.chip.sys.xqSilent.getLsbD 5 = false →
          c.pow = { s.chip.pow with clkErr := false, clkQual := true, errAt := max s.chip.clk t })) ∧
    ((∀ k, s.chip.cmd.cold = some k → k.built = false) → s.chip.pow.clkQual = true →
      s.chip.pow.errAt + 10 * msClk ≤ max s.chip.clk t →
      CompletesAt (.clockQualified t) s t [.pow, .sap, .err] fun c =>
        c.pow = { s.chip.pow with clkQual := false, resume := true } ∧
          ∀ (p : Nat) (x : SapPort), s.chip.sap.ports[p]? = some x →
            (x.st ≠ .clockHold → c.sap.ports[p]? = some x) ∧
            (x.st = .clockHold → sapBroken s.chip.prof s.chip.sys.now.items p = true → ∃ y, c.sap.ports[p]? = some y ∧
              y.st = .stopped ∧ y.formatErr = true ∧ y.restarts = x.restarts) ∧
            (x.st = .clockHold → (sapFmt s.chip.sys.now.items p).enable = true →
              sapBroken s.chip.prof s.chip.sys.now.items p = false → ∃ y, c.sap.ports[p]? = some y ∧
              y.fmt = sapFmt s.chip.sys.now.items p ∧ y.restarts = x.restarts + 1) ∧
            (x.st = .clockHold → (sapFmt s.chip.sys.now.items p).enable = false → ∃ y, c.sap.ports[p]? = some y ∧
              y.st = .stopped ∧ y.restarts = x.restarts)) ∧
    (∀ (k : Fin 8) (r : RailGrp) (h : Nat), s.chip.pow.rails[k.val]? = some r → r.hold = some h →
      h + s.chip.railIt k.val 7 * msClk ≤ t → CompletesAt (.railTripHoldEnd k t) s t [.pow] fun c =>
        c.pow = { s.chip.pow with rails := s.chip.pow.rails.set k.val { r with hold := none } }) ∧
    (s.chip.pow.inputLost = false → CompletesAt (.xq6InputLost t) s t [.pow, .err] fun c =>
      c.pow = { s.chip.pow with
        inputLost := true, inputBack := false, ch := s.chip.pow.ch.map fun x => { x with wasOn := x.st.switching, drive := [] } } ∧
      c.err = s.chip.recorded 0x0E07 .fault) ∧
    (s.chip.pow.inputLost = true → CompletesAt (.xq6InputResume t) s t [.pow] fun c =>
      c.pow = { s.chip.pow with inputLost := false, inputBack := true }) ∧
    (∀ (m : Fin 64) (x : ModCh) (q : Meas) (z : ZRes), s.chip.pow.ch[m.val]? = some x → x.done = some q →
      z = q.result (s.chip.modIt m.val 2) (s.chip.modIt m.val 3) q.ok false →
      (z.valid = true → x.st = .play → z.mag < s.chip.modIt m.val 8 ∨ s.chip.modIt m.val 9 < z.mag →
        Completes (.pilotWindowEnd m) s [.pow, .err] fun c =>
          c.pow = { s.chip.pow with ch := s.chip.pow.ch.set m.val { x with z := z, done := none, zAlarm := true } } ∧
            c.err = s.chip.recorded 0x0E11 .fault m.val) ∧
      (z.valid = true → x.zAlarm = true → s.chip.modIt m.val 8 ≤ z.mag → z.mag ≤ s.chip.modIt m.val 9 →
        Completes (.pilotWindowEnd m) s [.pow, .err] fun c =>
          c.pow = { s.chip.pow with ch := s.chip.pow.ch.set m.val { x with z := z, done := none, zAlarm := false } } ∧
            c.err = s.chip.recorded 0x0E12 .note m.val) ∧
      (z.valid = false → Completes (.pilotWindowEnd m) s [.pow] fun c =>
        c.pow = { s.chip.pow with ch := s.chip.pow.ch.set m.val { x with z := z, done := none } })) ∧
    (∀ (k : Fin 8) (w : Sweep), s.chip.pow.sweep = some w → w.groups.head? = some k.val →
      w.began + s.chip.W / 10 ≤ s.chip.sys.blk → w.point < 8 → Completes (.sweepPointEnd k) s [.pow] fun c =>
        ∃ mags, c.pow.sweep = some { w with
          mags := mags, point := w.point + 1, began := s.chip.sys.blk
          part := w.part.filter fun m => (s.chip.modCh m).st.swept && !(s.chip.modCh m).disabling } ∧
          c.pow.rails = s.chip.pow.rails)

/-- Frames, waits and clocks of the serial ports complete (08 R226, R233, R236, R237, R242). -/
def Obligations.SerialPorts : Prop :=
  ∀ (s : State) (p : Fin 16) (x : SapPort), s.live → s.chip.sap.ports[p.val]? = some x →
    (∀ k, s.chip.cmd.cold = some k → k.built = false) →
    (∀ din : List Bool, s.chip.sys.xqSilent.getLsbD 1 = false → x.st = .run → x.rxWait = [] → x.txWait = [] → s.chip.itB (item 0x09 p.val 0x10) = false →
      Completes (.sapFrame p din) s [.sap] fun c =>
        (∃ y, c.sap = { s.chip.sap with ports := s.chip.sap.ports.set p.val y } ∧ y.frame = x.frame + 1 ∧ y.st = .run ∧
          y.fmt = x.fmt ∧ mget? y.captured x.frame = some ((slotsOf x.rxMask).zipIdx.map fun q =>
            (q.2, enter (entryWord x.fmt din q.1)))) ∧
        c.out.head? = some (.sap p.val x.frame (sapWire s.chip.prof x.fmt
          ((slotsOf x.txMask).map fun k => (k, s.chip.sapTx p.val x.frame x k))))) ∧
    (∀ k : Fin 16, s.chip.itN (item 0x09 p.val 0x11) ≤ mget x.pairs k.val 0 → Completes (.nonaudioRelease p k) s [.sap] fun c =>
      c.sap = { s.chip.sap with ports := s.chip.sap.ports.set p.val { x with pairs := mdel x.pairs k.val } }) ∧
    (x.st = .lead → x.startFrame + x.fmt.leadFrames ≤ x.frame → Completes (.leadFramesEnd p) s [.sap] fun c =>
      c.sap = { s.chip.sap with ports := s.chip.sap.ports.set p.val { x with
        st := .run, dataSeen := true, dataFrame := if x.dataSeen then x.dataFrame else x.frame } }) ∧
    (∀ (ch : Fin 32) (f : Nat) (word : Word), x.st = .zcWait → mget? x.rxWait (slotOf x.rxMask ch.val) = some f →
      f < x.frame → (enter word).v = 0 → Completes (.zeroCrossing p ⟨false, ch⟩ word) s [.sap] fun c =>
        ∃ y, c.sap = { s.chip.sap with ports := s.chip.sap.ports.set p.val y } ∧
          y.rxWait = mdel x.rxWait (slotOf x.rxMask ch.val) ∧ y.txWait = x.txWait ∧ y.dataSeen = true ∧
          (y.st = .run ↔ y.rxWait = [] ∧ y.txWait = [])) ∧
    (∀ (ch : Fin 32) (f : Nat) (word : Word), x.st = .zcWait → mget? x.txWait (slotOf x.txMask ch.val) = some f → f < x.frame →
      s.chip.sapTx p.val x.frame x (slotOf x.txMask ch.val) = 0 → Completes (.zeroCrossing p ⟨true, ch⟩ word) s [.sap] fun c =>
        ∃ y, c.sap = { s.chip.sap with ports := s.chip.sap.ports.set p.val y } ∧
          y.txWait = mdel x.txWait (slotOf x.txMask ch.val) ∧ y.rxWait = x.rxWait ∧ y.dataSeen = true ∧
          (y.st = .run ↔ y.rxWait = [] ∧ y.txWait = [])) ∧
    (∀ (ch : Fin 32) (f : Nat), x.st = .zcWait → mget? x.rxWait (slotOf x.rxMask ch.val) = some f →
      f + zcFrames s.chip.prof (s.chip.itN (item 0x09 p.val 0x0F)) ≤ x.frame →
      Completes (.zcTimeout p false ch) s [.sap, .err] fun c =>
        ∃ y, c.sap = { s.chip.sap with ports := s.chip.sap.ports.set p.val y } ∧
          y.rxWait = mdel x.rxWait (slotOf x.rxMask ch.val) ∧ y.txWait = x.txWait ∧
          y.zcTimeouts = x.zcTimeouts + 1 ∧ y.zcSeen = true ∧ (0x0C04, p.val) ∈ c.err.seen) ∧
    (x.st = .stopping → x.txWait = [] → Completes (.sapStoppingEnd p) s [.sap] fun c =>
      c.sap = { s.chip.sap with ports := s.chip.sap.ports.set p.val { x with st := .stopped, rxWait := [] } })

/-- Ends of ramps, crossfades, exchanges, gate holds and exit-check windows complete (02 R58, R60; 03 R74, R79, R86; 04 R111,
R122). -/
def Obligations.GraphEnds : Prop :=
  ∀ s : State, s.live →
    (Completes .crossfadeEnd s [.graph] fun c =>
      c.graph.pages = s.chip.graph.pages ∧ c.graph.fir = s.chip.graph.fir ∧
        ∀ (e : Nat) (k : SinkSt), mget? s.chip.graph.sink e = some k →
          (k.sel.fade = none → mget? c.graph.sink e = some k) ∧
          ∀ f, k.sel.fade = some f → (f.s ≤ f.j →
              mget? c.graph.sink e = some { k with sel := { k.sel with cur := f.dest, fade := none } }) ∧
            (f.j < f.s → mget? c.graph.sink e = some k)) ∧
    (Completes .rampEnd s [.graph, .pow] fun c =>
      c.graph.sink = s.chip.graph.sink ∧ c.pow.rails = s.chip.pow.rails ∧
        (∀ (b : Nat) (x : BusSt), mget? s.chip.graph.bus b = some x → ∃ y, mget? c.graph.bus b = some y ∧ y.n = x.n ∧
          y.scale = if x.scale.r ≤ x.scale.j then Ramp.steady x.scale.v1 else x.scale) ∧
        ∀ (m : Nat) (x : ModCh), s.chip.pow.ch[m]? = some x → ∃ y, c.pow.ch[m]? = some y ∧ y.st = x.st ∧
          y.gain = if x.gain.r ≤ x.gain.j then Ramp.steady x.gain.v1 else x.gain) ∧
    (∀ (m : Fin 64) (f : FirSt) (n sh j : Nat), mget? s.chip.graph.fir m.val = some f → f.xchg = some (n, sh, j) → n ≤ j →
      Completes (.firExchangeEnd m) s [.graph] fun c =>
        c.graph = { s.chip.graph with
          fir := mset s.chip.graph.fir m.val { f with bank := f.shadow, xchg := none, busy := false } }) ∧
    (∀ (n : BitVec 12) (q : SrcSt), mget? s.chip.graph.src n.toNat = some q → q.gate = true → q.hold = 0 →
      0 < s.chip.itN (item 0x02 n.toNat 0x007) → Completes (.gateHoldExpiry n) s [.graph] fun c =>
        c.graph = { s.chip.graph with src := mset s.chip.graph.src n.toNat { q with gate := false } }) ∧
    (∀ (e : BitVec 12) (k : SinkSt) (o : Nat) (items : Items), mget? s.chip.graph.sink e.toNat = some k →
      s.chip.graph.run = true → o = s.chip.sys.blk + (if isMod e.toNat then 1 else 2) →
      items = (if isMod e.toNat then s.chip.graph.outItems else s.chip.sys.prev.items) → k.win ≠ o / s.chip.W →
      Completes (.sinkWindowBoundary e) s [.graph] fun c => ∃ y,
        c.graph = { s.chip.graph with sink := mset s.chip.graph.sink e.toNat y } ∧
          y.win = o / s.chip.W ∧ y.fails = 0 ∧ y.sel = k.sel ∧
          (y.muted = true ↔ k.muted = true ∧ ¬(k.fails = 0 ∧ latched items e.toNat k = false ∧
            s.chip.graph.winFrom + s.chip.W ≤ o / s.chip.W * s.chip.W))) ∧
    (Completes .pageRelease s [.graph] fun c =>
      c.graph.chain = s.chip.graph.chain ∧ ∀ q, q ∈ c.graph.pages ↔
        q ∈ s.chip.graph.pages ∧ ∀ l, q.2.st = .releasing l → s.chip.sys.blk + 1 ≤ l)

/-- A block tick completes (01 R17, R24): the next block begins, and every ledger is captured at its start; and a press that is due lands
(01 R31, 13 R371). -/
def Obligations.TickAndLanding : Prop :=
  ∀ s : State, s.live → s.chip.ticking = true → s.chip.sys.tickRun = true → s.chip.sys.reload = false →
    (∀ inp : TickIn, s.chip.cmd.cold = none → s.chip.sys.xqSilent.getLsbD 0 = false → s.chip.sys.mediaSilent = false →
      inp.upsets = [] → 2 * max s.chip.clk inp.t ≤ period3 s.chip.sys.profile + 2 * s.chip.sys.watch →
      ∃ t, Sys2Proof.Machine.exec (.blockTick inp) s = .next t ∧ t.pending = s.pending ∧
        t.chip.clk = max s.chip.clk inp.t ∧ t.chip.sys.blk = s.chip.sys.blk + 1 ∧
        t.chip.sys.tickAt = max s.chip.clk inp.t ∧ t.chip.sys.tickRun = true ∧ t.chip.sys.reload = false ∧
        t.chip.graph.cap.n = s.chip.sys.blk + 1 ∧ t.chip.sap.play.1 = s.chip.sys.blk + 1) ∧
    (∀ q : Press, s.chip.cmd.presses = [q] → q.land = s.chip.sys.blk + 1 → s.chip.sys.ahead = none →
      Completes .pressLands s [.sys, .cmd, .graph, .macs, .mem, .ptp, .drop, .ain, .twin, .ref, .err, .pow, .sap, .fresh]
        fun c =>
          c.sys.blk = s.chip.sys.blk ∧ c.sys.prev = s.chip.sys.now ∧ c.sys.prev2 = s.chip.sys.prev ∧
            c.sys.now.items = setItems s.chip.sys.now.items q.items ∧ c.sys.ahead = some (s.chip.sys.blk + 1) ∧
            c.cmd.presses = [] ∧
            ∀ k, q.slot = some k → (s.chip.job k).st.live = true →
              (c.job k).st = .done ∧ (c.job k).result = (s.chip.job k).result ++ [lo32 q.land, hi32 q.land])

/-- The steps of a cold press complete (05 R137 to R139, 08 R241). -/
def Obligations.ColdPressSteps : Prop :=
  ∀ (s : State) (k : ColdPress) (t : Nat), s.live → s.chip.cmd.cold = some k →
    (k.stopped = false → s.chip.sys.tickRun = true → s.chip.stopAt k ≤ s.chip.sys.blk + 1 →
      Completes .tickStop s [.sys, .graph, .sap, .pow, .cmd, .mem, .err, .fresh] fun c =>
        c.sys.blk = s.chip.sys.blk + 1 ∧ c.sys.tickAt = s.chip.clk ∧
          c.sys.cycles = (s.chip.clk - s.chip.sys.tickAt) % 2 ^ 20 ∧ c.sys.tickRun = false ∧ c.sys.audioEn = false ∧
          c.sys.engPwr = engPowered k.profile ∧ c.sys.engWas = s.chip.powered ∧ c.sys.engAt = s.chip.clk ∧
          c.sys.profile = s.chip.sys.profile ∧ c.graph.run = false ∧
          c.graph.out = [] ∧ c.graph.chain = s.chip.graph.chain ∧
          c.cmd = { s.chip.cmd with cold := some { k with stopped := true, built := true } } ∧
          ∀ x ∈ c.sap.ports, x.running = false) ∧
    (∀ items, items = setItems (s.chip.itemsAt (2 ^ 64)) k.items → k.built = true → k.ports = false → s.chip.audioOnce = true →
      Completes .sapColdRestart s [.sap, .err, .cmd] fun c =>
        c.cmd = { s.chip.cmd with cold := some { k with ports := true } } ∧
        ∀ (p : Nat) (x : SapPort) (f : SapFmt), s.chip.sap.ports[p]? = some x → x.st = .stopped → f = sapFmt items p →
          ∃ y, c.sap.ports[p]? = some y ∧
          (f.enable = false → y.st = .stopped ∧ y.restarts = x.restarts ∧ y.fmt = f) ∧
          (sapBroken k.profile items p = true → y.st = .stopped ∧ y.restarts = x.restarts ∧ y.formatErr = true) ∧
          (f.enable = true → sapBroken k.profile items p = false → y.fmt = f ∧ y.restarts = x.restarts + 1 ∧
            y.rxMask = sapLive k.profile items false p ∧ y.txMask = sapLive k.profile items true p ∧
              y.startFrame = k.resume * blkLen k.profile - 6 * fsOf k.profile / 1000)) ∧
    (k.stopped = true → s.chip.err.entry = none →
      k.resume ≤ blockAt k.profile (itemIn (setItems s.chip.sys.now.items k.items) (item 1 0 1)).toNat
        ((s.chip.ptpAt (max s.chip.clk t)).time / 2 ^ 32) →
      ∃ u, Sys2Proof.Machine.exec (.coldPressResume t) s = .next u ∧ u.pending = s.pending ∧ u.ham = s.ham ∧
        u.chip.clk = max s.chip.clk t ∧ u.chip.sys.profile = k.profile ∧ u.chip.sys.blk = k.resume ∧
        u.chip.sys.tickRun = true ∧ u.chip.sys.engPwr = engPowered k.profile ∧ u.chip.sys.silentUntil = k.resume + 2 ∧
        u.chip.cmd.cold = none ∧ ((s.chip.job k.slot).st.live = true → (u.chip.job k.slot).st = .done)) ∧
    (k.stopped = true → s.chip.sys.tickAt + 66000 ≤ max s.chip.clk t →
      Completes (.coldPressLedgerCheck t) s [.clk, .ptp, .graph, .drop, .err] fun c =>
        c.clk = max s.chip.clk t ∧ c.graph.cap.n = s.chip.stopAt k ∧ c.graph.cap.hampers = s.ham.counts ∧
          c.graph.cap.cred = s.chip.graph.cred ∧ c.graph.pages = s.chip.graph.pages ∧
          ((ledgers s.ham 0 s.chip).bad = 0 → s.chip.err.handling = none → c.err = s.chip.err ∧ c.drop = s.chip.drop))

/-- MEDIA silence and its end, and crossings that fall silent or resume, complete (01 R14 to R16, R22). -/
def Obligations.SilenceAndCrossings : Prop :=
  ∀ (s : State) (t : Nat), s.live →
    (s.chip.ticking = true → s.chip.sys.tickRun = true → s.chip.sys.mediaSilent = false → s.chip.err.entry = none →
      period3 s.chip.sys.profile + 2 * s.chip.sys.watch < 2 * max s.chip.clk t →
      CompletesAt (.mediaSilent t) s t [.sys, .graph, .err] fun c =>
        c.sys = { s.chip.sys with mediaSilent := true, tickRun := false, late := [] } ∧
          c.graph = { s.chip.graph with run := false, out := [], left := [], at1 := none, at2 := none, chain := c.graph.chain, sink := c.graph.sink } ∧
          c.err = s.chip.recorded 0x1101 .fault) ∧
    (s.chip.sys.mediaSilent = true → s.chip.ticking = true →
      CompletesAt (.mediaResume t) s t [.sys, .graph, .err, .flow, .twin] fun c =>
        c.sys = { s.chip.sys with
          blk := blockAt s.chip.prof s.chip.epoch c.nowNs, reload := true, mediaSilent := false, tickRun := true
          watch := max s.chip.clk t, silentUntil := blockAt s.chip.prof s.chip.epoch c.nowNs + 2 } ∧
        (c.graph.run = true ↔ s.chip.sys.audioEn = true ∧ s.chip.err.safe = false) ∧ c.err.queue = s.chip.err.queue) ∧
    (∀ (k : Fin 19) (mid : Bool), s.chip.sys.xqSilent.getLsbD k.val = false →
      (Completes (.xqSourceSilent k mid) s [.sys, .graph, .pow, .err, .macs, .mem, .ptp, .twin, .cmd, .flow] fun c =>
        c.sys = { s.chip.sys with
          xqSilent := s.chip.sys.xqSilent ||| BitVec.ofNat 19 (2 ^ k.val)
          xqLatch := s.chip.sys.xqLatch ||| BitVec.ofNat 19 (2 ^ k.val) }) ∧
      (mid = false → k.val ∉ [5, 6, 9, 11, 13, 15] → Completes (.xqSourceSilent k mid) s [.sys] fun _ => True)) ∧
    (∀ k : Fin 19, s.chip.sys.xqSilent.getLsbD k.val = true →
      (Completes (.xqSourceResume k) s [.sys, .graph, .pow, .macs, .mem, .ptp] fun c =>
        c.sys = { s.chip.sys with 
          xqSilent := s.chip.sys.xqSilent &&& ~~~(BitVec.ofNat 19 (2 ^ k.val))
          xqWhole := s.chip.sys.xqWhole &&& ~~~(BitVec.ofNat 19 (2 ^ k.val)) }) ∧
      (s.chip.creditOut k.val = false → k.val ∉ [5, 6, 10, 12, 15] →
        Completes (.xqSourceResume k) s [.sys] fun _ => True))

/-- The safe state is entered, and left, and a core is reloaded (18 R474, R475, R477, R479, R542). -/
def Obligations.SafeState : Prop :=
  ∀ (s : State) (t : Nat), s.live →
    (∀ code reason, s.chip.err.entry = some (code, reason) → s.chip.cmd.cold = none → s.chip.sys.tickRun = true →
      Completes (.safeEntry t) s [.clk, .ptp, .err, .graph, .bus, .pow, .cmd, .twin, .flow] fun c =>
        c.clk = max s.chip.clk t ∧ c.err.safe = true ∧ c.err.safeCause = code ∧ c.err.safeReason = reason ∧
          c.err.safeBlk = s.chip.sys.blk + 1 ∧ c.err.safeEntries = s.chip.err.safeEntries + 1 ∧ c.err.entry = none ∧
          c.graph.run = false ∧ c.graph.out = [] ∧ c.graph.bus = s.chip.graph.bus ∧ c.pow.safeLr = true) ∧
    (s.chip.err.safe = true → s.chip.err.reloadable = true → s.chip.errItem 4 = 1 → s.chip.err.reloadFailed = false →
      (Completes (.coreReload true) s [.err, .mem, .graph, .cmd, .host, .mbx, .fresh] fun c =>
        c.err = { s.chip.err with reloading := false, trapped := 0 } ∧
          (s.chip.err.trapped = 1 → c.cmd.tack = [] ∧ c.cmd.stream = []) ∧
          (s.chip.err.trapped ≠ 1 → c.cmd = s.chip.cmd ∧ c.graph = s.chip.graph)) ∧
      Completes (.coreReload false) s [.err] fun c =>
        c.err.reloading = false ∧ c.err.reloadFailed = true ∧ c.err.trapped = s.chip.err.trapped ∧
          c.err.faults = s.chip.err.faults + 1) ∧
    (∀ L, s.chip.err.exiting = some L →
      (L ≤ s.chip.sys.blk + 1 → s.chip.graph.run = false → Completes .safeExitStart s [.graph, .mem, .twin, .fresh] fun c =>
        c.graph.run = true ∧ c.graph.src = [] ∧ c.graph.out = [] ∧ c.graph.pages = s.chip.graph.pages ∧
          ∃ r, c.graph.fade = some (r, L + 3) ∧ r.v0 = 0 ∧ r.v1 = 2 ^ 30) ∧
      (L + 3 ≤ s.chip.sys.blk + 1 → s.chip.graph.run = true → s.chip.err.abandon = false → Completes .safeStateEnd s [.err, .pow] fun c =>
        c.err.safe = false ∧ c.err.exiting = none ∧ c.err.safeExits = s.chip.err.safeExits + 1 ∧
          (s.chip.err.queue.length < 16 → c.err.notes = s.chip.err.notes + 1) ∧ c.pow.safeLr = false) ∧
      (s.chip.err.abandon = true → Completes .safeStateEnd s [] fun _ => True) ∧
      (s.chip.err.abandon = true → Completes .exitAbandon s [.err, .graph, .bus] fun c =>
        c.err = { s.chip.err with abandon := false, exiting := none } ∧ c.graph.run = false ∧ c.graph.out = []))

/-- What is damaged is rewritten, and restarted, and rinsed (04 R124, 17 R453 to R456). -/
def Obligations.Repairs : Prop :=
  ∀ s : State, s.live →
    (∀ m : Fin 64, m.val ∈ s.chip.graph.rewrites → Completes (.firBankRewrite m) s [.graph, .err] fun c =>
      c.graph = { s.chip.graph with rewrites := s.chip.graph.rewrites.filter (· ≠ m.val) } ∧
        c.err = s.chip.recorded 0x1042 .fault m.val) ∧
    (∀ n : Fin 24, s.chip.sys.engTrap.getLsbD n.val = true → Completes (.engineReload n) s [.sys, .mem] fun c =>
      c.sys = { s.chip.sys with engTrap := s.chip.sys.engTrap &&& ~~~(BitVec.ofNat 24 (2 ^ n.val)) }) ∧
    (∀ ch : Fin 4, s.chip.dmaHalted ch.val = true → s.chip.mem.bytes.upset = [] →
      s.chip.mem.bytes.ecc (s.chip.mem.dmaAddr.getD ch.val 0).toNat = .good → (s.chip.mac ch.val).heldBack = [] →
      s.chip.busCause (BitVec.ofNat 8 (0x30 + ch.val)) true (s.chip.mem.dmaAddr.getD ch.val 0).toNat 4 = none →
      CompletesHam (.dmaRestart ch []) s [.mem, .macs] fun h c =>
        h = s.ham ∧ c.mem.dmaHalt = s.chip.mem.dmaHalt &&& ~~~(BitVec.ofNat 4 (2 ^ ch.val)) ∧
          c.mem.dmaHalts = s.chip.mem.dmaHalts) ∧
    (s.chip.mem.bgRun = true → s.chip.mem.bytes.upset = [] → Completes (.backgroundRinsePass [] []) s [.mem] fun c =>
      c.mem = { s.chip.mem with bgPasses := s.chip.mem.bgPasses + 1, bgUe := 0 })

/-- The flow table, the airing interval, copies, sessions and presentation complete (06 R162 to R174, R179, R546). -/
def Obligations.FlowSteps : Prop :=
  ∀ (s : State) (t : Nat), s.live →
    (64 ∈ s.chip.graph.rewrites → Completes .flowTableRewrite s [.graph, .flow, .err] fun c =>
      c.graph = { s.chip.graph with rewrites := s.chip.graph.rewrites.filter (· ≠ 64) } ∧
        c.flow = { s.chip.flow with tableErr := true } ∧ c.err = s.chip.recorded 0x0910 .fault) ∧
    (∀ a q, s.chip.flow.airing = a :: q → a.withdrawn = false → a.land + 31 < s.chip.flow.nextClose →
      Completes .airingIntervalEnd s [.flow] fun c =>
        c.flow.table = a.table ∧ c.flow.airing = q ∧ c.flow.built = s.chip.flow.built ∧
          c.flow.nextClose = s.chip.flow.nextClose ∧
          ∀ x z, mget? s.chip.flow.ctx x = some z → flowIt ((q.map Airing.new).getLastD a.new) x 1 = 2 →
            mget? c.flow.ctx x = some z) ∧
    (∀ a, s.chip.flow.airing = [a] → a.withdrawn = true → Completes .airingWithdraw s [.flow] fun c =>
      c.flow.table = s.chip.flow.table ∧ c.flow.airing = [] ∧ c.flow.built = s.chip.flow.built ∧
        c.flow.nextClose = s.chip.flow.nextClose) ∧
    (∀ l v f, s.chip.flow.building = some (l, v) → s.chip.cmd.presses = [] →
      buildTable s.chip.prof (withLookups (s.chip.itemsAt (2 ^ 64)) l) = some f →
      (s.chip.liveJobs 0x0600 = [] → Completes .rebuildComplete s [.flow, .twin] fun c =>
        c.flow = { s.chip.flow with built := some (f, l), building := none }) ∧
      (∀ k, s.chip.liveJobs 0x0600 = [k] → v = true → s.chip.peerBuilt = true → s.chip.cmd.waiting = none →
        Completes .rebuildComplete s [.flow, .cmd] fun c =>
          c.flow = { s.chip.flow with built := some (f, l), building := none } ∧
            (c.job k).st = .done ∧
            (c.job k).result = (s.chip.job k).result ++ [f.seedWord, f.crc, w32 f.slots.length, 0, 0])) ∧
    (∀ (p : Fin 2) (m : Mac) (y : RxSide) (q : List RxFrame) (f : RxFrame) (g : FlowFrame) (x P : Nat) (items : Items)
        (z : Listen), s.chip.macs[p.val]? = some m → m.rx[0]? = some y → y.inbox = f :: q → f.trunc = false →
      s.chip.flow.nextClose ≠ s.chip.sys.blk + 1 → g = s.chip.flowFrame f.bytes → g.at_ 0 1 = 1 →
      s.chip.udpOk g = true → s.chip.levelOk (g.at_ 1 1) = true → g.at_ 1 1 ≠ 2 → g.at_ 10 1 = timingByte s.chip.prof →
      s.chip.governs { addr := g.src, flow := g.at_ 2 2, udp := g.udp } (g.at_ 4 4) = some (x, items) →
      g.at_ 9 1 = flowIt items x 3 → g.at_ 8 1 = flowIt items x 6 → mget? s.chip.flow.ctx x = some z →
      P = extend32 (g.at_ 4 4) (z.cursor - flowIt items x 6) + flowIt items x 6 → z.cursor ≤ P → P < z.cursor + 32 →
      (∀ e, mget? z.win (P % 64) = some e → e.block ≠ P) →
      g.residueOk s.chip.prof (flowIt items x 3) false = true → g.at_ 11 1 % 2 = 0 → g.at_ 11 1 / 8 % 2 = 0 →
      CompletesAt (.copyArrival p t) s t [.flow, .macs, .mem, .err] fun c =>
        c.macs = s.chip.macs.set p.val { m with rx := m.rx.set 0 { y with
          inbox := q, given := y.given + f.bufs.length } } ∧
          ∃ u e, mget? c.flow.ctx x = some u ∧ u.cursor = z.cursor ∧ mget? u.win (P % 64) = some e ∧ e.block = P ∧
            e.st = .good ∧ e.kept = g.samples s.chip.prof (flowIt items x 3)) ∧
    (∀ id, CompletesAt (.sessionIdleClose id t) s t [.flow] fun c =>
      c.flow.ctx = s.chip.flow.ctx ∧ ∀ z, z ∈ c.flow.sessions ↔
        z ∈ s.chip.flow.sessions ∧ (z.id = id → max s.chip.clk t < z.usedAt + 300 * secClk)) ∧
    (s.chip.sys.tickRun = true → s.chip.flow.nextClose = s.chip.sys.blk + 1 →
      Completes .presentationClose s [.flow, .macs, .mem, .cmd, .err] fun c =>
        c.flow.nextClose = s.chip.sys.blk + 2 ∧
          c.flow.rxLevel = (itemIn (s.chip.itemsAt (s.chip.sys.blk + 1)) (item 0x01 0 0x10)).toNat ∧
          c.cmd.presses = s.chip.cmd.presses) ∧
    (∀ (x : BitVec 10) (q : Listen), mget? s.chip.flow.ctx x.toNat = some q → q.faultDue = true →
      Completes (.missingWindow x) s [.flow, .err] fun c =>
        c.flow = { s.chip.flow with ctx := mset s.chip.flow.ctx x.toNat { q with faultDue := false, outage := true } } ∧
          c.err = s.chip.recorded 0x0902 .fault x.toNat) ∧
    (∀ (k : Fin 4) (m : BitVec 4), s.chip.flow.ended = some m → m ≠ 0 → m.getLsbD k.val = false →
      s.chip.flow.pathDown.getLsbD k.val = false → Completes (.pathLost k) s [.flow, .err] fun c =>
        c.flow = { s.chip.flow with pathDown := s.chip.flow.pathDown ||| BitVec.ofNat 4 (2 ^ k.val) } ∧
          c.err = s.chip.recorded 0x0904 .note k.val)

/-- The twin link and its paths complete their steps (12 R324, R325, R340 to R345). -/
def Obligations.TwinLink : Prop :=
  ∀ (s : State) (t : Nat), s.live →
    (∀ a b al, Completes (.twinLinkChange a b al) s [.twin] fun c =>
      c.twin = { s.chip.twin with lane0 := a, lane1 := b, aligned := a && b && al }) ∧
    (∀ (f : TwinFrame), s.chip.twin.role ≠ .solo → f.peg.toNat = s.chip.twinIt 2 → f.peg ≠ 0 →
      s.chip.twin.aligned = true → s.chip.sys.xqSilent.getLsbD 13 = false →
      (f.n.toNat = s.chip.sys.blk → s.chip.twin.pathT = false ∨ f.mirror = [] →
        Completes (.twinFrameRx f) s [.twin, .err] fun c =>
          c.twin.frame = some f ∧ c.twin.goodRun = s.chip.twin.goodRun + 1 ∧ c.twin.missRun = 0 ∧ c.twin.ageT = 0 ∧
            c.twin.frameOk = true ∧ c.twin.peerHealth = f.health ∧ c.twin.peerRole = f.role ∧ c.twin.peerEpoch = f.epoch ∧
            c.twin.peerSafe = f.safe ∧ c.twin.role = s.chip.twin.role ∧
            (s.chip.twin.pathT = true → c.twin.unmatched = false → s.chip.twin.sent ≤ f.heard →
              f.heard ≤ s.chip.twin.sent + s.chip.twin.unacked.length →
              c.twin.sent = f.heard ∧ c.twin.unacked = s.chip.twin.unacked.drop (f.heard - s.chip.twin.sent)) ∧
            (s.chip.twin.pathT = false → c.twin.unacked = s.chip.twin.unacked)) ∧
      (f.n.toNat ≠ s.chip.sys.blk → Completes (.twinFrameRx f) s [.twin] fun c =>
        c.twin = { s.chip.twin with
          missed := s.chip.twin.missed + 1, missRun := s.chip.twin.missRun + 1, goodRun := 0, frameOk := false })) ∧
    (s.chip.twin.role ≠ .solo →
      (Completes (.twinFrameMissed true) s [.twin] fun c =>
        c.twin = { s.chip.twin with
          bad := s.chip.twin.bad + 1, missRun := s.chip.twin.missRun + 1, goodRun := 0, frameOk := false }) ∧
      Completes (.twinFrameMissed false) s [.twin] fun c =>
        c.twin = { s.chip.twin with
          missed := s.chip.twin.missed + 1, missRun := s.chip.twin.missRun + 1, goodRun := 0, frameOk := false }) ∧
    (∀ r e full, s.chip.twin.next = some (r, e, full) →
      s.chip.twin.pathT = true ∨ s.chip.twin.pathL = true ∨ s.chip.twin.pathD = true → Completes .roleTakeEffect s [.twin, .err] fun c =>
      c.twin.next = none ∧ c.twin.epoch = e ∧ c.twin.peerLost = false ∧
        (r = .lead → c.twin.role = .lead ∧ c.twin.mending = []) ∧
        (r = .standby → c.twin.mending = s.chip.twin.mending ∧
          (c.twin.role = .standby ↔ s.chip.twin.mending = []) ∧ (c.twin.role = .mending ↔ s.chip.twin.mending ≠ [])) ∧
        (c.twin.role ≠ s.chip.twin.role → c.twin.roleChange = true)) ∧
    (∀ e full, s.chip.twin.next = some (.lead, e, full) → s.chip.twin.pathT = false → s.chip.twin.pathL = false →
      s.chip.twin.pathD = false → Completes .roleTakeEffect s [.twin, .err] fun c =>
        c.twin.next = none ∧ c.twin.role = .lead ∧ c.twin.peerLost = true) ∧
    (3 ≤ s.chip.twin.missRun → s.chip.twin.pathT = true → s.chip.twin.pathL = true → s.chip.isStandby = false →
      s.chip.cmd.awaits = [] → CompletesAt (.pathFail .T t) s t [.twin, .err] fun c =>
        c.twin = { s.chip.twin with pathT := false, goodRun := 0, suspended := s.chip.paired } ∧
          c.err = s.chip.recorded 0x0F01 .note) ∧
    (∀ l, s.chip.twin.lastL = some l → s.chip.twin.pathL = true → l + 30 * msClk ≤ max s.chip.clk t →
      s.chip.twin.pathT = true ∨ s.chip.twin.pathD = true → CompletesAt (.pathFail .L t) s t [.twin, .err] fun c =>
        c.twin = { s.chip.twin with pathL := false } ∧ c.err = s.chip.recorded 0x0F03 .note) ∧
    (∀ l, s.chip.twin.lastD = some l → s.chip.twin.pathD = true → l + 300 * msClk ≤ max s.chip.clk t →
      s.chip.twin.pathT = true ∨ s.chip.twin.pathL = true → CompletesAt (.pathFail .D t) s t [.twin, .err] fun c =>
        c.twin = { s.chip.twin with pathD := false } ∧ c.err = s.chip.recorded 0x0F03 .note) ∧
    (s.chip.twin.pathT = false → 3 ≤ s.chip.twin.goodRun → Completes .pathTRestore s [.twin, .err] fun c =>
      c.twin.pathT = true ∧ c.twin.suspended = false ∧ c.twin.role = s.chip.twin.role ∧
        c.err = s.chip.recorded 0x0F02 .note)

/-- Heartbeats complete (12 R341 to R343): one is sent on each port, and one that is received is what the unit knows of
its peer. -/
def Obligations.Heartbeats : Prop :=
  ∀ (s : State) (t : Nat), s.live → s.chip.twin.role ≠ .solo →
    (s.chip.canStart 0 → s.chip.canStart 1 → CompletesAt (.heartbeatSendL t) s t [.macs, .mem] fun c =>
      ∀ m, m < 2 → ∃ f, (c.mac m).sending = some (2, f) ∧ f.bytes = s.chip.heartbeatFrame ∧ f.attempts = 1 ∧ f.slot.isSome) ∧
    (∀ (x : Mac) (y : TxSide), s.chip.macs[2]? = some x → x.quiet → x.tx[2]? = some y → y.used < 256 → s.chip.txBar 2 = none →
      CompletesAt (.heartbeatSendD t) s t [.macs, .mem] fun c =>
        c.macs = s.chip.macs.set 2 { x with tx := x.tx.set 2 { y with
          fetched := y.fetched + 1
          queue := [{ bytes := s.chip.heartbeatFrame, slot := some (y.fetched.toNat % 256), postedAt := max s.chip.clk t }] } }) ∧
    (∀ hb : Heartbeat, hb.peg.toNat = s.chip.twinIt 2 → hb.peer.toNat = s.chip.boot.peg.toNat → hb.peg ≠ 0 →
      s.chip.isStandby = false ∨ hb.profile = s.chip.prof →
      (CompletesAt (.heartbeatRx false hb t) s t [.macs, .mem, .twin, .err] fun c =>
        c.twin.lastL = some (max s.chip.clk t) ∧ c.twin.pathL = true ∧ c.twin.pathD = s.chip.twin.pathD ∧
          c.twin.peerPeg = hb.peg.toNat ∧ c.twin.peerRole = hb.role ∧ c.twin.peerPaths = hb.paths ∧
          c.twin.peerLevel = hb.twinLevel ∧ c.twin.peerEpoch = hb.epoch ∧ c.twin.peerSafe = hb.safe ∧
          c.twin.role = s.chip.twin.role) ∧
      CompletesAt (.heartbeatRx true hb t) s t [.macs, .mem, .twin, .err] fun c =>
        c.twin.lastD = some (max s.chip.clk t) ∧ c.twin.pathD = true ∧ c.twin.pathL = s.chip.twin.pathL ∧
          c.twin.peerRole = hb.role ∧ c.twin.peerEpoch = hb.epoch ∧ c.twin.role = s.chip.twin.role)

/-- Resets of the part, temperature and boundary scan complete (19 R497; 20 R515, R516, R524; 21 R532). -/
def Obligations.ResetsAndScan : Prop :=
  ∀ s : State,
    (∀ i, i = .thermalTrip ∨ i = .resetAssert ∨ i = .testEnReset true ∨ (∃ r, i = .brownOut r) →
      ∃ t b, Sys2Proof.Machine.exec i s = .next t ∧ t = s.afresh true b ∧ s.chip.boot.restarts b ∧
        b.resetN = (s.chip.boot.resetN && decide (i ≠ .resetAssert)) ∧
        b.testEn = (s.chip.boot.testEn || decide (i = .testEnReset true)) ∧
        b.powerHeld = (s.chip.boot.powerHeld || decide (i ≠ .resetAssert ∧ i ≠ .testEnReset true))) ∧
    (s.chip.held = true → ∃ t b, Sys2Proof.Machine.exec .resetRelease s = .next t ∧
      t = s.afresh s.chip.boot.testEn b ∧ s.chip.boot.restarts b ∧ b.resetN = true ∧ b.testEn = s.chip.boot.testEn ∧ b.powerHeld = false) ∧
    (s.chip.held = false → Completes .resetRelease s [.boot] fun c => c.boot = { s.chip.boot with resetN := true }) ∧
    (s.chip.boot.resetN = false ∨ s.chip.boot.powerHeld = true → Completes (.testEnReset false) s [.boot] fun c =>
      c.boot = { s.chip.boot with testEn := false, extest := false }) ∧
    (s.chip.boot.testEn = true → s.chip.boot.resetN = true → s.chip.boot.powerHeld = false →
      ∃ t b, Sys2Proof.Machine.exec (.testEnReset false) s = .next t ∧ t = s.afresh false b ∧ s.chip.boot.restarts b ∧
        b.resetN = true ∧ b.testEn = false ∧ b.extest = false) ∧
    (∀ t, s.live → s.chip.boot.stage = .rom ∨ s.chip.boot.stage = .load ∨ s.chip.boot.stage = .sram →
      2 * secClk ≤ max s.chip.clk t → ∃ u b, Sys2Proof.Machine.exec (.startupWatchdog t) s = .next u ∧
        u.pending = s.pending ∧ u.ham = State.reset.ham ∧ s.chip.boot.restarts b ∧
        (s.afresh false b).chip.keeps [.out, .irq] u.chip) ∧
    (∀ temp : Int, s.live →
      (10500 ≤ temp → temp < 11000 → s.chip.boot.hot = 0 → Completes (.tempThreshold temp) s [.ref, .boot, .err] fun c =>
        c.ref = { s.chip.ref with temp := temp } ∧ c.boot = { s.chip.boot with hot := 1 } ∧
          c.err = s.chip.recorded 0x0020 .note) ∧
      (11000 ≤ temp → s.chip.boot.hot = 1 → Completes (.tempThreshold temp) s [.ref, .boot, .err] fun c =>
        c.ref = { s.chip.ref with temp := temp } ∧ c.boot = { s.chip.boot with hot := 2 } ∧
          c.err = s.chip.recorded 0x0021 .fault) ∧
      (temp < 10000 → s.chip.boot.hot ≠ 0 → Completes (.tempThreshold temp) s [.ref, .boot, .err] fun c =>
        c.ref = { s.chip.ref with temp := temp } ∧ c.boot = { s.chip.boot with hot := 0 } ∧
          c.err = s.chip.recorded 0x0022 .note)) ∧
    ∀ bits : List Bool,
      (Completes (.boundaryScan .bypass bits) s [.boot] fun c =>
        c.out = [.tdo ((false :: bits).take bits.length)] ∧ c.boot = { s.chip.boot with extest := false }) ∧
      (Completes (.boundaryScan .idcode bits) s [.boot] fun c =>
        c.out = [.tdo (((List.range 32).map (Nat.testBit 0x10009B51) ++ bits).take bits.length)] ∧
          c.boot = { s.chip.boot with extest := false }) ∧
      (Completes (.boundaryScan .sample bits) s [.boot, .fresh] fun c =>
        (∃ cells, cells.length = bits.length ∧ c.out = [.tdo cells]) ∧
          c.boot = { s.chip.boot with boundary := bits, extest := false }) ∧
      (s.chip.boot.testEn = true → Completes (.boundaryScan .extest bits) s [.boot, .fresh] fun c =>
        (∃ cells, cells.length = bits.length ∧ c.out = [.tdo cells]) ∧
          c.boot = { s.chip.boot with boundary := bits, extest := true }) ∧
      (s.chip.boot.testEn = false → Completes (.boundaryScan .extest bits) s [.boot] fun c =>
        c.out = [.tdo ((false :: bits).take bits.length)] ∧ c.boot = { s.chip.boot with extest := false })

/-- Enumeration and the boot of an image complete (19 R486 to R488, R498 to R502). -/
def Obligations.EnumerationAndBoot : Prop :=
  ∀ (s : State) (t : Nat), s.live →
    (s.chip.boot.peg = 0 → 5 * msClk ≤ max s.chip.clk t → CompletesAt (.headPeg t) s t [.boot] fun c =>
      c.boot = { s.chip.boot with peg := 1, tokenIn := true }) ∧
    (∀ a : Byte, 1 ≤ a.toNat → a.toNat ≤ 62 → s.chip.boot.peg = 0 → CompletesAt (.pegTokenRx a (a ^^^ 0xFF) t) s t [.boot] fun c =>
      c.boot = { s.chip.boot with peg := BitVec.ofNat 6 a.toNat, tokenIn := true }) ∧
    (∀ a : Byte, a = 0 ∨ 63 ≤ a.toNat → s.chip.boot.peg = 0 ∨ s.chip.boot.differs = true →
      (s.chip.boot.stage ∈ [Stage.rom, .load, .halt] → CompletesAt (.pegTokenRx a (a ^^^ 0xFF) t) s t [.boot] fun c =>
        c.boot = { s.chip.boot with tokenIn := true, notes := s.chip.boot.notes ++ [(0x0011, .fault)] }) ∧
      (s.chip.boot.stage ∉ [Stage.rom, .load, .halt] → CompletesAt (.pegTokenRx a (a ^^^ 0xFF) t) s t [.boot, .err] fun c =>
        c.boot = { s.chip.boot with tokenIn := true } ∧ c.err = s.chip.recorded 0x0011 .fault)) ∧
    (∀ a : Byte, 1 ≤ a.toNat → a.toNat ≤ 62 → s.chip.boot.peg ≠ 0 → s.chip.boot.peg.toNat ≠ a.toNat →
      s.chip.boot.differs = false → s.chip.boot.stage ∉ [Stage.rom, .load, .halt] →
      CompletesAt (.pegTokenRx a (a ^^^ 0xFF) t) s t [.boot, .err] fun c =>
        c.boot = { s.chip.boot with tokenIn := true, differs := true } ∧ c.err = s.chip.recorded 0x0013 .note) ∧
    (∀ a : Byte, s.chip.boot.peg ≠ 0 → s.chip.boot.peg.toNat ≠ a.toNat → s.chip.boot.differs = false →
      (1 ≤ a.toNat → a.toNat ≤ 62 → s.chip.boot.stage ∈ [Stage.rom, .load, .halt] →
        CompletesAt (.pegTokenRx a (a ^^^ 0xFF) t) s t [.boot] fun c => c.boot = { s.chip.boot with
          tokenIn := true, differs := true, notes := s.chip.boot.notes ++ [(0x0013, .note)] }) ∧
      (a = 0 ∨ 63 ≤ a.toNat → s.chip.boot.stage ∉ [Stage.rom, .load, .halt] →
        CompletesAt (.pegTokenRx a (a ^^^ 0xFF) t) s t [.boot, .err] fun c =>
          c.boot = { s.chip.boot with tokenIn := true, differs := true })) ∧
    (∀ a : Byte, s.chip.boot.peg ≠ 0 → s.chip.boot.peg.toNat = a.toNat → a.toNat ≤ 62 →
      CompletesAt (.pegTokenRx a (a ^^^ 0xFF) t) s t [.boot] fun c => c.boot = { s.chip.boot with tokenIn := true }) ∧
    (∀ a b : Byte, b ≠ a ^^^ 0xFF → CompletesAt (.pegTokenRx a b t) s t [] fun _ => True) ∧
    (s.chip.boot.peg ≠ 0 → s.chip.boot.peg ≠ 62 → (∀ q, s.chip.boot.tokenOut = some q → q + 10 * msClk ≤ max s.chip.clk t) →
      CompletesAt (.pegTokenSend t) s t [.boot] fun c =>
        c.boot = { s.chip.boot with tokenOut := some (max s.chip.clk t) } ∧
          c.out.head? = some (.token (BitVec.ofNat 8 (s.chip.boot.peg.toNat + 1))
            (BitVec.ofNat 8 (s.chip.boot.peg.toNat + 1) ^^^ 0xFF))) ∧
    (∀ rec images, s.chip.boot.stage = .rom →
      (Completes (.romBoot false rec images) s [.clock, .boot, .mem, .mbx, .cmd] fun c =>
        c.boot = { s.chip.boot with stage := .halt, stageAt := s.chip.clk, haltCause := 2 } ∧ c.cmd.ready = true ∧
          c.clock.coreLock = true) ∧
      (∀ k r z h, (s.chip.boot.flashed rec).current = some (k, r) → s.chip.boot.slots[r.select]? = some z → z.factory = true →
        images[r.select]? = some (some h) → headOutcome s.chip.boot.revoked h = 0 →
        (r.trial = false → Completes (.romBoot true rec images) s [.clock, .boot] fun c =>
          c.boot.stage = .load ∧ c.boot.slot = r.select ∧ c.boot.trial = false ∧ c.boot.fallback = false ∧
            c.boot.records = (s.chip.boot.flashed rec).records ∧ c.boot.notes = s.chip.boot.notes ∧ c.running = some h) ∧
        (r.trial = true → r.tried = false → Completes (.romBoot true rec images) s [.clock, .boot] fun c =>
          c.boot.stage = .load ∧ c.boot.slot = r.select ∧ c.boot.trial = true ∧ c.boot.fallback = false ∧
            c.boot.records = (s.chip.boot.flashed rec).records.set (1 - k) (recordWords { r with tried := true, seq := r.seq + 1 }) ∧
            (s.chip.boot.records.length = 2 → c.boot.record = some { r with tried := true, seq := r.seq + 1 }) ∧
            c.running = some h))) ∧
    (∀ (i : Fin 2) (n : Nat) (z : ImgSlot), s.chip.boot.slots[i.val]? = some z → z.factory = false →
      Completes (.backgroundErase i n) s [.boot] fun c =>
        c.boot = { s.chip.boot with slots := s.chip.boot.slots.set i.val { z with erased := min 128 (z.erased + n) } })

/-- The stages of start-up complete (19 R491 to R497, 17 R448). -/
def Obligations.StartupStages : Prop :=
  ∀ (s : State) (t : Nat), s.live →
    (s.chip.boot.stage = .load → Completes .imageLoad s [.boot, .sys, .mem, .err, .fresh] fun c =>
      c.boot = { s.chip.boot with stage := .sram, stageAt := s.chip.clk, notes := [] } ∧
        c.sys = { s.chip.sys with engPwr := engPowered s.chip.prof, engWas := 0, engAt := s.chip.clk } ∧ c.mem.bgRun = true ∧
        (s.chip.boot.notes = [] → c.err = s.chip.err)) ∧
    (s.chip.boot.stage = .sram → Completes .sramInit s [.boot, .mem, .mbx, .cmd] fun c =>
      c.boot = { s.chip.boot with stage := .line, stageAt := s.chip.clk } ∧ c.cmd = { s.chip.cmd with ready := true } ∧
        (∀ x, s.chip.mbx.ch[0]? = some x →
          c.mbx.ch[0]? = some { x with sender := 0x40, receiver := 0x01, valid := true }) ∧
        ∀ i : Nat, 6 ≤ i → c.mbx.ch[i]? = s.chip.mbx.ch[i]?) ∧
    (s.chip.boot.stage = .line → s.chip.boot.peg ≠ 0 →
      Completes (.stageRefEntry t) s [.clk, .ptp, .boot, .ref, .macs, .mem, .sys, .err] fun c =>
        c.clk = max s.chip.clk t ∧ c.boot = { s.chip.boot with stage := .ref, stageAt := max s.chip.clk t } ∧
          c.ref = { s.chip.ref with enabled := true } ∧ c.sys = { s.chip.sys with reload := true } ∧
          ((∀ x ∈ s.chip.macs.take 2, x.modAbs = false ∧ x.txFault = false) → c.err = s.chip.err) ∧
          ∀ x, s.chip.macs[0]? = some x → s.chip.sysIt 0x38 = 1 → x.modAbs = false → x.txFault = false →
            ∃ y, c.macs[0]? = some y ∧ y.portEn = true ∧ y.txDisable = false ∧ y.up = x.up) ∧
    (s.chip.boot.stage = .ref →
      (s.chip.ref.st = .locked → CompletesAt (.refWaitEnd t) s t [.boot] fun c =>
        c.boot = { s.chip.boot with stage := .fill, stageAt := max s.chip.clk t }) ∧
      (s.chip.ref.st ≠ .locked → s.chip.boot.stageAt + 60 * secClk ≤ max s.chip.clk t →
        CompletesAt (.refWaitEnd t) s t [.boot, .err] fun c =>
          c.boot = { s.chip.boot with stage := .fill, stageAt := max s.chip.clk t, refWaitExpired := true } ∧
            c.err = s.chip.recorded 0x0014 .note)) ∧
    (s.chip.boot.stage = .fill → Completes .delayStoreInit s [.boot, .mem] fun c =>
      c.boot = { s.chip.boot with stage := .twin, stageAt := s.chip.clk } ∧
        ∀ a, 0x30000000 ≤ a → a < 0x34000000 → c.mem.bytes.byte a = 0) ∧
    (s.chip.boot.stage = .twin → s.chip.boot.audioDue = false →
      (s.chip.twin.role ≠ .negotiating → CompletesAt (.twinStageEnd t) s t [.boot] fun c =>
        c.boot = { s.chip.boot with audioDue := true }) ∧
      (s.chip.twin.role = .negotiating → s.chip.boot.stageAt + 10 * secClk ≤ max s.chip.clk t →
        CompletesAt (.twinStageEnd t) s t [.boot, .err] fun c =>
          c.boot = { s.chip.boot with audioDue := true } ∧ c.err = s.chip.recorded 0x0015 .note)) ∧
    (s.chip.boot.stage = .twin → s.chip.boot.audioDue = true →
      CompletesAt (.audioEnable t) s t [.audioOnce, .boot, .sys, .graph, .pow, .sap, .mbx, .err, .flow] fun c =>
        c.audioOnce = true ∧ c.boot.stage = .audio ∧ c.boot.audioDue = false ∧
          c.boot.audioBlk = blockAt s.chip.prof s.chip.epoch c.nowNs ∧
          c.sys = { s.chip.sys with audioEn := true, silentUntil := c.boot.audioBlk + 2 } ∧ c.graph.run = !s.chip.err.safe ∧
          c.graph.src = [] ∧ c.mbx = { s.chip.mbx with locked := true })

/-- Semaphores complete (16 R441, R442): a read takes a free one, its owner releases it, any other write is refused with the
error and its log, and only a core forces a release. -/
def Obligations.BusSemaphores : Prop :=
  ∀ (s : State) (master : Byte) (n : Fin 32) (value : Word), s.live →
    (s.chip.csrCause master false (0x50010100 + 4 * n.val) 4 = none → Completes (.busLockRead master n) s [.bus] fun c =>
      Out.busRead (some (BitVec.ofNat 32 (s.chip.owner n.val).toNat)) ∈ c.out ∧ c.bus = { s.chip.bus with
        owners := if s.chip.owner n.val = 0 then s.chip.bus.owners.set n.val master else s.chip.bus.owners }) ∧
    (s.chip.csrCause master true (0x50010100 + 4 * n.val) 4 = none →
      (s.chip.owner n.val = master → value.toNat % 256 = 0 → Completes (.busLockWrite master n value) s [.bus, .host] fun c =>
        s.chip.posted master c ∧ c.bus = { s.chip.bus with owners := s.chip.bus.owners.set n.val 0 }) ∧
      ((s.chip.owner n.val ≠ master ∨ value.toNat % 256 ≠ 0) →
        Completes (.busLockWrite master n value) s [.bus, .err, .host] fun c =>
          c.bus.owners = s.chip.bus.owners ∧ c.bus.semSeen = true ∧ c.bus.semMaster = master ∧
            c.bus.semLock = BitVec.ofNat 5 n.val ∧ c.bus.semCause = (if s.chip.owner n.val = master then 2 else 1) ∧
            c.bus.semCount = satInc 0xFFFF s.chip.bus.semCount ∧ c.bus.errCount = s.chip.bus.errCount + 1)) ∧
    (isCore master = true → Completes (.busLockForce master value) s [.bus] fun c =>
      c.bus = { s.chip.bus with
        owners := s.chip.bus.owners.mapIdx fun k o => if value.getLsbD k then 0 else o }) ∧
    (isHost master = true → Completes (.busLockForce master value) s [.bus, .err, .host] fun c =>
      c.bus.owners = s.chip.bus.owners ∧ c.bus.errCount = s.chip.bus.errCount + 1 ∧ c.bus.lastAddr = 0x50010204 ∧
        (master = 0x40 → Out.posted false ∈ c.out))

/-- Service mode and the end of a locked sequence complete (16 R436, R439, R440): two keys in turn enter it, key 0 leaves
it, and a sequence that runs too long is a FAULT whose remaining accesses are refused. -/
def Obligations.ServiceAndLocks : Prop :=
  ∀ (s : State) (master : Byte), s.live →
    (isHost master = true ∨ isCore master = true → s.chip.boot.serviceDisable = false →
      (Completes (.busService master 0x5E7A) s [.bus, .host] fun c =>
        s.chip.posted master c ∧ c.bus = { s.chip.bus with armed := some master }) ∧
      (s.chip.bus.armed = some master → Completes (.busService master 0xA7E5) s [.bus, .err, .host] fun c =>
        s.chip.posted master c ∧ c.bus = { s.chip.bus with service := master, armed := none } ∧
          c.err = s.chip.recorded 0x0110 .note) ∧
      (s.chip.bus.armed ≠ some master → Completes (.busService master 0xA7E5) s [.bus, .host] fun c =>
        s.chip.posted master c ∧ c.bus = { s.chip.bus with armed := none }) ∧
      (s.chip.bus.service ≠ 0 → Completes (.busService master 0) s [.bus, .err, .host] fun c =>
        s.chip.posted master c ∧ c.bus = { s.chip.bus with service := 0, armed := none } ∧
          c.err = s.chip.recorded 0x0111 .note)) ∧
    (∀ (target : BitVec 5) (rest : List LockAcc), isCore master = true ∨ isEngine master = true →
      rest.length ≤ 4 → lockedIn target.toNat rest = true →
      (1 ≤ target.toNat → target.toNat ≤ 28 → Completes (.lockTimeout master target rest) s [.bus, .err] fun c =>
        c.bus.timeouts = s.chip.bus.timeouts + 1 ∧ c.bus.timeoutSeen = true ∧ c.bus.lockSeq = (0, 0) ∧
          c.bus.errCount = s.chip.bus.errCount + BitVec.ofNat 32 rest.length ∧ c.bus.owners = s.chip.bus.owners ∧
          (rest = [] → c.err = s.chip.recorded 0x0103 .fault)) ∧
      (target = 29 → Completes (.lockTimeout master target rest) s [.bus, .err] fun c =>
        c.bus.timeouts = s.chip.bus.timeouts ∧ c.bus.errCount = s.chip.bus.errCount + BitVec.ofNat 32 rest.length ∧
          c.bus.owners = s.chip.bus.owners ∧ (rest = [] → c.err = s.chip.err)))

/-- Writes of registers and accesses through a BAR complete (15 R403, 16 R433, R435, R437, R438, 17 R445, R446): a refused
one is logged and answered with an error, others take effect. -/
def Obligations.HostAccesses : Prop :=
  ∀ (s : State) (master : Byte) (value : Word), s.live →
    (∀ (addr : Word) (k : Nat), s.chip.busCause master true addr.toNat 4 = some k →
      Completes (.csrWrite master addr value) s [.bus, .err, .host, .mem] fun c =>
        c.bus.errCount = s.chip.bus.errCount + 1 ∧ c.bus.errSeen = true ∧ c.bus.lastAddr = addr ∧
          c.bus.lastInfo = pack [(0, 8, master.toNat), (8, 1, 1), (9, 2, 2), (11, 5, targetIndex addr.toNat), (16, 3, k)] ∧
          (s.chip.bus.firstInfo ≠ 0 → c.bus.firstAddr = s.chip.bus.firstAddr ∧ c.bus.firstInfo = s.chip.bus.firstInfo) ∧
          (s.chip.bus.firstInfo = 0 → c.bus.firstAddr = addr ∧ c.bus.firstInfo = c.bus.lastInfo) ∧
          (master = 0x40 → Out.posted false ∈ c.out) ∧
          (master = 0x41 → c.host.spiErr = true ∧ c.host.spiErrAddr = addr) ∧ (isCore master = true → Out.trap master ∈ c.out)) ∧
    (s.chip.csrCause master true 0x50050048 4 = none → Completes (.csrWrite master 0x50050048 value) s [.host] fun c =>
      s.chip.written master c ∧ c.host.bare = { s.chip.hostAfter master with spiIrqEn := value }.bare) ∧
    (s.chip.csrCause master true 0x50000024 4 = none → Completes (.csrWrite master 0x50000024 value) s [.sys, .host] fun c =>
      s.chip.posted master c ∧ c.sys = { s.chip.sys with
        engOverrun := s.chip.sys.engOverrun &&& ~~~(BitVec.ofNat 24 value.toNat) }) ∧
    (∀ (o : Nat) (data : List Byte), o % 8 = 0 → (∀ i < 8, hostOwned (0x40000000 + o + i) = true) → data.length = 8 →
      s.chip.mem.bytes.wf = true → s.chip.host.d3hot = false →
      Completes (.barAccess { bar2 := false, offset := o, size := 8, write := true, data := data }) s [.mem] fun c =>
        Out.posted true ∈ c.out ∧ ∀ x, c.mem.bytes.byte x =
          if 0x40000000 + o ≤ x ∧ x < 0x40000000 + o + 8 then data.getD (x - (0x40000000 + o)) 0
          else s.chip.mem.bytes.byte x) ∧
    (∀ (o : Nat) (data : List Byte) (off : List Nat), o % 8 = 0 → (∀ i < 8, hostOwned (0x40000000 + o + i) = true) →
      data.length = 8 → off ≠ [] → s.chip.mem.bytes.wf = true → s.chip.host.d3hot = false →
      s.chip.mem.bytes.clean (0x40000000 + o) 8 = true →
      Completes (.barAccess { bar2 := false, offset := o, size := 8, write := true, data := data, off := off }) s [.mem] fun c =>
        Out.posted true ∈ c.out ∧ ∀ x, c.mem.bytes.byte x =
          if 0x40000000 + o ≤ x ∧ x < 0x40000000 + o + 8 ∧ x - (0x40000000 + o) ∉ off then data.getD (x - (0x40000000 + o)) 0
          else s.chip.mem.bytes.byte x) ∧
    (∀ req : BarReq, req.locked = true ∨ s.chip.host.d3hot = true → req.upsets = [] → (barAddr req.bar2 req.offset).isSome = true →
      s.chip.sys.xqSilent.getLsbD 18 = false → Completes (.barAccess req) s [] fun c => Out.unsupported ∈ c.out) ∧
    (∀ o, o % 4 = 0 → o + 4 ≤ 0x800000 → s.chip.host.d3hot = false → s.chip.mem.bytes.clean (0x40000000 + o) 4 = true →
      Completes (.barAccess { bar2 := false, offset := o, size := 4, write := false }) s [] fun c =>
        (s.chip.sys.xqSilent.getLsbD 18 = false → Out.completion (some (s.chip.viewBytes (0x40000000 + o) 4)) ∈ c.out) ∧
        (s.chip.sys.xqSilent.getLsbD 18 = true → ∀ d, Out.completion d ∉ c.out))

/-- Error registers complete (18 R467, R469, R470; 16 R438; 17 R459): the record that the head shows is acknowledged, the
first-error fields are armed again, OVERFLOW_SEEN clears LOST_HOLD, and reads latch their companions. -/
def Obligations.ErrorRegisters : Prop :=
  ∀ (s : State) (master : Byte), s.live →
    (s.chip.csrCause master true 0x50030030 4 = none →
      (∀ n, s.chip.err.headSeq = some n → (∃ r ∈ s.chip.err.queue, r.seq = n) →
        (∀ r ∈ s.chip.err.queue ++ s.chip.err.first.toList, r.seq = n →
          r.code ≠ 0x1021 ∧ r.code ≠ 0x0E21 ∧ r.code ≠ 0x0101 ∧ s.chip.mem.firstRec ≠ some (r.code, r.blk)) →
        Completes (.errHeadAck master 1) s [.err, .host] fun c =>
          s.chip.posted master c ∧ c.err = { s.chip.err with
            queue := s.chip.err.queue.filter (·.seq ≠ n), first := s.chip.err.first.filter (·.seq ≠ n) }) ∧
      (s.chip.err.headSeq = none → Completes (.errHeadAck master 1) s [.host] fun c => s.chip.posted master c) ∧
      Completes (.errHeadAck master 0) s [.host] fun c => s.chip.posted master c) ∧
    (s.chip.csrCause master true 0x50030034 4 = none →
      (Completes (.errRearmBus master) s [.bus, .host] fun c =>
        s.chip.posted master c ∧ c.bus = { s.chip.bus with firstAddr := 0, firstInfo := 0 }) ∧
      Completes (.errRearmMem master) s [.mem, .host] fun c =>
        s.chip.posted master c ∧ c.mem = { s.chip.mem with firstAddr := 0, firstInfo := 0, firstRec := none }) ∧
    (s.chip.csrCause master true 0x50030000 4 = none → Completes (.overflowSeenClear master) s [.err, .host] fun c =>
      s.chip.posted master c ∧ c.err = { s.chip.err with overflowSeen := false, lostHold := false }) ∧
    (s.chip.csrCause master false 0x50030020 4 = none → Completes (.latchingRead master .errHead) s [.err] fun c =>
      (∃ w, Out.busRead (some w) ∈ c.out) ∧
        (s.chip.err.queue = [] → c.err = { s.chip.err with headView := (0, 0), headSeq := none }) ∧
        ∀ r q, s.chip.err.queue = r :: q →
          c.err = { s.chip.err with headView := (r.blk, r.detail), headSeq := some r.seq }) ∧
    (s.chip.csrCause master false 0x50000010 4 = none → Completes (.latchingRead master .blkLo) s [.sys] fun c =>
      Out.busRead (some (lo32 s.chip.sys.blk)) ∈ c.out ∧ c.sys = { s.chip.sys with blkHi := hi32 s.chip.sys.blk })

/-- The SPI target completes its transactions (15 R410 to R412): READ, WRITE, STATUS, CMD_PUT and RPL_GET, each after the
status byte, and an opcode that is not in the table sets ERR. -/
def Obligations.SpiTarget : Prop :=
  ∀ (s : State) (st : Byte), s.live → st = s.chip.spiStatusByte →
    (∀ value : Word, Completes (.spiWrite 0x50050048 (leBytes 4 value.toNat) []) s [.host] fun c =>
      Out.spi [st] ∈ c.out ∧
        c.host.bare = { s.chip.host with spiLast := st, spiIrqEn := value, spiErr := false }.bare) ∧
    (∀ (addr : Word) (bytes : List Byte), addr.toNat % 4 ≠ 0 →
      Completes (.spiWrite addr bytes []) s [.host, .err] fun c =>
        Out.spi [st] ∈ c.out ∧ c.host.bare = { s.chip.host with
          spiLast := st, spiErr := true, spiErrAddr := addr, spiErrors := satInc 0xFFFF s.chip.host.spiErrors
          spiOpcode := 2 }.bare) ∧
    (∀ addr : Word, addr.toNat % 4 = 0 → 0x40000000 ≤ addr.toNat → addr.toNat + 4 ≤ 0x40800000 →
      s.chip.mem.bytes.clean addr.toNat 4 = true → 
      (Completes (.spiRead addr 1 [] []) s [.host] fun c =>
        Out.spi (st :: 0x5A :: s.chip.viewBytes addr.toNat 4) ∈ c.out ∧
          c.host.bare = { s.chip.host with spiLast := st, spiErr := false }.bare) ∧
      Completes (.spiRead addr 1 [true] []) s [.host, .err] fun c =>
        Out.spi [st, 0x3C, 0xFF, 0xFF, 0xFF, 0xFF] ∈ c.out ∧ c.host.bare = { s.chip.host with
          spiLast := st, spiErr := true, spiErrAddr := addr, spiErrors := satInc 0xFFFF s.chip.host.spiErrors
          spiOpcode := 3 }.bare) ∧
    (∀ count, Completes (.spiStatus count) s [.host] fun c =>
      Out.spi (st :: List.replicate count st) ∈ c.out ∧
        c.host.bare = { s.chip.host with spiLast := st, spiErr := false }.bare) ∧
    (∀ bytes : List Byte, s.chip.spiReady = true → Completes (.cmdPut bytes) s [.host, .cmd] fun c =>
      Out.spi [st] ∈ c.out ∧ c.host.bare = { s.chip.host with
        spiLast := st, spiErr := false, spiOwed := s.chip.host.spiOwed + 1 }.bare ∧
      c.cmd = { s.chip.cmd with stream := s.chip.cmd.stream ++
        [{ via := .spi, words := bytesWords (bytes.take 256), bytes := bytes.length, at_ := s.chip.clk }] }) ∧
    (∀ bytes : List Byte, s.chip.spiReady = false → Completes (.cmdPut bytes) s [.host, .err] fun c =>
      Out.spi [st] ∈ c.out ∧ c.host.bare = { s.chip.host with
        spiLast := st, spiErr := true, spiErrors := satInc 0xFFFF s.chip.host.spiErrors, spiOpcode := 0x10 }.bare) ∧
    (∀ count, s.chip.host.spiReplies = [] → Completes (.rplGet count) s [.host] fun c =>
      Out.spi (st :: List.replicate count 0xFF) ∈ c.out ∧
        c.host.bare = { s.chip.host with spiLast := st, spiErr := false }.bare) ∧
    (∀ (count : Nat) (ws : List Word) (rest : List (List Word)), s.chip.host.spiReplies = ws :: rest →
      Completes (.rplGet count) s [.host] fun c =>
        Out.spi (st :: (wordBytes ws).take count) ∈ c.out ∧ c.host.bare = { s.chip.host with
          spiLast := st, spiErr := false
          spiReplies := if (wordBytes ws).length ≤ count then rest else ws :: rest }.bare) ∧
    (∀ op : Byte, op ∉ ([0x02, 0x03, 0x05, 0x10, 0x11] : List Byte) →
      Completes (.spiUnknownOpcode op) s [.host, .err] fun c =>
        Out.spi [st] ∈ c.out ∧ c.host.bare = { s.chip.host with
          spiLast := st, spiErr := true, spiErrors := satInc 0xFFFF s.chip.host.spiErrors, spiOpcode := op }.bare)

/-- The PCIe command rings complete (15 R406 to R408; 13 R355): indices that the host writes, and the packet at the head of
the request ring, which enters the command stream. -/
def Obligations.CommandRings : Prop :=
  ∀ (s : State) (v : BitVec 16), s.live →
    (ringDiff v s.chip.host.reqCons ≤ 64 → ringDiff v s.chip.host.reqProd ≤ 64 →
      Completes (.hostReqProdWrite 0x40 v) s [.host] fun c =>
        Out.posted true ∈ c.out ∧ c.host.bare = { s.chip.host with reqProd := v }.bare) ∧
    ((64 < ringDiff v s.chip.host.reqCons ∨ 64 < ringDiff v s.chip.host.reqProd) →
      Completes (.hostReqProdWrite 0x40 v) s [.host, .err] fun c =>
        c.host.bare = { s.chip.host with reqIdxErr := true }.bare ∧ c.err = s.chip.recorded 0x0510 .note) ∧
    (ringDiff v s.chip.host.rplCons ≤ ringDiff s.chip.host.rplProd s.chip.host.rplCons →
      Completes (.hostRplConsWrite 0x40 v) s [.host] fun c =>
        Out.posted true ∈ c.out ∧ c.host.bare = { s.chip.host with rplCons := v }.bare) ∧
    (ringDiff s.chip.host.rplProd s.chip.host.rplCons < ringDiff v s.chip.host.rplCons →
      Completes (.hostRplConsWrite 0x40 v) s [.host, .err] fun c =>
        c.host.bare = { s.chip.host with rplIdxErr := true }.bare ∧ c.err = s.chip.recorded 0x0510 .note) ∧
    (∀ t a len, s.chip.host.reqProd ≠ s.chip.host.reqCons → s.chip.sys.xqSilent.getLsbD 17 = false →
      s.chip.takesPackets = true → s.chip.err.traps 0x01 = false → s.chip.pcieLoad < 64 → s.chip.streamFull = false →
      a = 0x407E0000 + s.chip.host.reqCons.toNat % 64 * 0x100 → s.chip.mem.bytes.clean a 256 = true →
      len = 4 * ((s.chip.mem.bytes.byte (a + 3)).toNat + 4) →
      CompletesAt (.requestRingEntry t) s t [.host, .cmd] fun c =>
        c.host.bare = { s.chip.host with reqCons := s.chip.host.reqCons + 1, reqHeld := false }.bare ∧
          c.host.pend.getLsbD 1 = true ∧ c.cmd = { s.chip.cmd with stream := s.chip.cmd.stream ++
            [{ via := .pcie, words := bytesWords (s.chip.mem.bytes.bytes a (min len 256)), bytes := len
               generation := s.chip.host.generation, at_ := max s.chip.clk t }] })

/-- Interrupts and the PCIe link complete (15 R402, R405, R413, R415; 16 R436, R442): a W1C of HOST_IRQ_PEND, an unmasked
vector, a reset of the transport, and the link that comes up (its bus mastering is log 28). -/
def Obligations.PcieLink : Prop :=
  ∀ (s : State), s.live →
    (∀ (master : Byte) (value : Word), s.chip.csrCause master true 0x50050040 4 = none →
      Completes (.hostIrqPendClear master value) s [.host] fun c =>
        s.chip.posted master c ∧ ∀ v : Fin 32, c.host.pend.getLsbD v.val =
          ((s.chip.host.pend.getLsbD v.val && !value.getLsbD v.val) || s.chip.rawLevel v.val)) ∧
    (∀ (v : Fin 32) (e : List Word), s.chip.host.msix[v.val]? = some e → Completes (.msixUnmask (some v)) s [.host] fun c =>
      c.host.bare = { s.chip.host with
        msix := s.chip.host.msix.set v.val (e.set 3 (e.getD 3 0 &&& 0xFFFFFFFE)) }.bare) ∧
    (Completes (.msixUnmask none) s [.host] fun c => c.host.bare = { s.chip.host with funcMask := false }.bare) ∧
    (∀ cause, cause ≠ .linkDown → s.chip.bus.service ≠ 0x40 →
      Completes (.pcieReset cause) s [.host, .mbx, .err, .bus] fun c =>
        c.host.reqProd = 0 ∧ c.host.reqCons = 0 ∧ c.host.rplProd = 0 ∧ c.host.rplCons = 0 ∧ c.host.owed = 0 ∧
          c.host.generation = s.chip.host.generation + 1 ∧ c.host.resetSeen = true ∧ c.host.bme = false ∧
          c.host.msixEn = false ∧ c.host.linkUp = (s.chip.host.linkUp && cause = .flr) ∧
          c.host.spiReplies = s.chip.host.spiReplies ∧ c.host.spiIrqEn = 0 ∧ c.host.tickDiv = 0 ∧ c.err = s.chip.recorded 0x0501 .note ∧
          c.bus = { s.chip.bus with owners := s.chip.bus.owners.map fun o => if o = 0x40 then 0 else o } ∧
          ∀ x ∈ c.mbx.ch, x.valid = true → x.sender = 0x40 → x.go = false) ∧
    (Completes (.pcieReset .linkDown) s [.host, .mbx, .err] fun c =>
      c.host.reqProd = 0 ∧ c.host.rplProd = 0 ∧ c.host.linkUp = false ∧ c.host.speed = 0 ∧ c.host.width = 0 ∧
        c.err = s.chip.recorded 0x0501 .note) ∧
    (∀ (speed : BitVec 2) (width : BitVec 3) (cfg : PciCfg), Completes (.pcieLinkUp speed ⟨width, cfg⟩) s [.host, .err] fun c =>
      c.err = (if s.chip.host.linkUp then s.chip.err else s.chip.recorded 0x0502 .note) ∧ c.host.bare = { s.chip.host with
        linkUp := true, speed := speed, width := width, bme := cfg.bme, msixEn := cfg.msixEn, funcMask := cfg.funcMask
        d3hot := cfg.d3hot }.bare)

/-- Mailboxes complete (15 R417 to R422): bindings, GO, ACK and CANCEL, the lock, doorbells, cross-wait, and replies that
nobody takes. -/
def Obligations.Mailboxes : Prop :=
  ∀ (s : State) (master : Byte) (k : Fin 16) (x : MbxCh), s.live → s.chip.err.traps 0x01 = false → s.chip.mbx.ch[k.val]? = some x →
    (s.chip.csrCause master true (mbxCtrl k.val) 4 = none → x.valid = true →
      (∀ (len : BitVec 5) (t i : Nat), x.sender = master → x.go = false → 8 ≤ len.toNat → len.toNat ≤ 16 →
        x.receiver ≠ 0x01 → bellOf x.receiver = some i → CompletesAt (.mbxGo master k len t) s t [.mbx, .host] fun c =>
          s.chip.posted master c ∧ c.mbx = { s.chip.mbx with
            ch := s.chip.mbx.ch.set k.val { x with len := len, go := true, goAt := c.clk }
            bells := lmod s.chip.mbx.bells i (· ||| BitVec.ofNat 32 (2 ^ k.val)) }) ∧
      (x.receiver = master → (master = 0x01 → s.chip.streamFull = false) → x.go = true → x.part = [] → x.rest = [] → x.waiting = [] →
        Completes (.mbxAck master k) s [.mbx, .host] fun c => s.chip.posted master c ∧
          c.mbx.ch = s.chip.mbx.ch.set k.val { x with acked := x.acked + 1, go := false, reply := false } ∧
          c.mbx.bells = s.chip.mbx.bells ∧ c.mbx.cross.getLsbD k.val = false) ∧
      (x.sender = master → x.go = true → x.waiting = [] → Completes (.mbxCancel master k) s [.mbx, .host] fun c => s.chip.posted master c ∧
        c.mbx.ch = s.chip.mbx.ch.set k.val { x with
          cancelled := x.cancelled + 1, part := [], rest := [], go := false, reply := false } ∧
        c.mbx.bells = s.chip.mbx.bells ∧ c.mbx.cross.getLsbD k.val = false)) ∧
    (∀ value : Word, isCore master = true → s.chip.mbx.locked = false →
      (value.getLsbD 16 = true → (bellOf (BitVec.ofNat 8 value.toNat)).isSome = true ∧
        (bellOf (BitVec.ofNat 8 (value.toNat / 256))).isSome = true ∧
        (BitVec.ofNat 8 value.toNat : Byte) ≠ BitVec.ofNat 8 (value.toNat / 256)) →
      Completes (.mbxBindWrite master k value) s [.mbx] fun c =>
        c.mbx = { s.chip.mbx with ch := s.chip.mbx.ch.set k.val { x with
          sender := BitVec.ofNat 8 value.toNat, receiver := BitVec.ofNat 8 (value.toNat / 256), valid := value.getLsbD 16 } }) ∧
    (s.chip.csrCause master true 0x50040040 4 = none → Completes (.mbxLockSet master) s [.mbx, .host] fun c =>
      s.chip.posted master c ∧ c.mbx = { s.chip.mbx with locked := true }) ∧
    (∀ (i : Fin 28) (value : Word), s.chip.csrCause master true (0x50042008 + 0x10 * i.val) 4 = none →
      Completes (.mbxDbRingWrite master i value) s [.mbx, .host] fun c =>
        s.chip.posted master c ∧ c.mbx = { s.chip.mbx with bells := lmod s.chip.mbx.bells i.val (· ||| (value &&& 0x7FFF0000)) }) ∧
    (∀ (d : Fin 16) (y : MbxCh) (t i j : Nat), s.chip.mbx.ch[d.val]? = some y → s.chip.mbxPair k.val d.val = true →
      x.go = true → y.go = true → s.chip.mbx.told.contains (min k.val d.val, max k.val d.val) = false →
      max x.goAt y.goAt + s.chip.mbx.crossWait.toNat * usClk ≤ max s.chip.clk t → bellOf x.sender = some i →
      bellOf x.receiver = some j → CompletesAt (.crossWaitDetect k d t) s t [.mbx, .err] fun c =>
        c.mbx = { s.chip.mbx with
          told := (min k.val d.val, max k.val d.val) :: s.chip.mbx.told
          cross := s.chip.mbx.cross ||| (BitVec.ofNat 16 (2 ^ k.val) ||| BitVec.ofNat 16 (2 ^ d.val))
          crossEvents := s.chip.mbx.crossEvents + 1
          bells := lmod (lmod s.chip.mbx.bells i (· ||| 0x80000000)) j (· ||| 0x80000000) } ∧
        c.err = s.chip.recorded 0x0420 .note (min k.val d.val)) ∧
    (∀ t, x.go = true → x.reply = true → x.goAt + 100 * msClk ≤ max s.chip.clk t → x.waiting = [] →
      CompletesAt (.replyCancel k t) s t [.mbx, .err] fun c =>
        c.mbx.ch = s.chip.mbx.ch.set k.val { x with
          cancelled := x.cancelled + 1, rest := [], go := false, reply := false } ∧
        c.err = s.chip.recorded 0x0421 .note k.val)

/-- System commands are answered (14 R386; 06 R179; 19 R505, R506): HELLO, GET_VERSION, PEG_REPORT and SESSION_OPEN. -/
def Obligations.SystemCommands : Prop :=
  ∀ (s : State) (h : Hdr),
    (∀ level : Word, Ready 0x0001 h s → level.toNat ≤ 2 → Answers (.hello h level) 0x0001 h s []
      { ws := [9, pack [(0, 8, 0xA1), (8, 6, s.chip.boot.peg.toNat), (16, 3, roleCode s.chip.twin.role),
          (19, 2, Profile.code s.chip.prof), (21, 1, b2n s.chip.sys.audioEn), (22, 1, b2n s.chip.err.safe)]] } fun _ => True) ∧
    (∀ level : Word, Ready 0x0001 h s → 2 < level.toNat →
      Answers (.hello h level) 0x0001 h s [.cmd] { status := stLevel } fun c =>
        c.cmd = { s.chip.takes.cmd with refusals := s.chip.cmd.refusals + 1 }) ∧
    (Ready 0x0002 h s → s.chip.boot.stage ≠ .halt → ∃ m, Answers (.getVersion h) 0x0002 h s [.fresh]
      { ws := [(s.chip.running.map ImageHead.version).getD 0, 0x02020302,
          pack [(0, 1, s.chip.boot.slot), (1, 1, b2n (s.chip.slot 0).verified), (2, 1, b2n (s.chip.slot 1).verified),
            (4, 2, (s.chip.running.map fun i => i.keySlot.val).getD 0)], m] } fun _ => True) ∧
    (Ready 0x0C00 h s → Answers (.pegReport h) 0x0C00 h s []
      { ws := [pack [(0, 6, s.chip.boot.peg.toNat), (6, 1, b2n s.chip.boot.tokenIn), (7, 1, b2n s.chip.boot.tokenOut.isSome)],
          lo32 s.chip.station, w32 (s.chip.station / 2 ^ 32 % 2 ^ 16)] } fun _ => True) ∧
    (∀ nonce : List Word, Ready 0x0C01 h s → nonce.length = 4 → (viaPort h.via).isSome = true → h.session = 0 →
      s.chip.sessionOf 0 = none → s.chip.flow.sessions.length < 8 →
      ∃ own id, own.length = 4 ∧ id ≠ 0 ∧ (∀ y ∈ s.chip.flow.sessions, y.id ≠ BitVec.ofNat 16 id) ∧
        Answers (.sessionOpen h nonce) 0x0C01 h s [.fresh] { ws := own ++ [w32 id] } fun c =>
          ∃ z : Session, c.flow.sessions = s.chip.flow.sessions ++ [z] ∧ z.id = BitVec.ofNat 16 id ∧ z.usedAt = s.chip.clk ∧
            z.heard = 0 ∧ z.own = 1 ∧ z.key = sessionKey s.chip.boot.mgmtKey nonce own id)

/-- The commands of the tack set are answered (13 R364 to R366, R372; 14 R387, R388). -/
def Obligations.TackCommands : Prop :=
  ∀ (s : State) (h : Hdr),
    (∀ (id : Word) (raw : Dword) (v : Int), Ready 0x0100 h s → s.chip.pressPending = false → firOf id.toNat = none →
      s.chip.tackCheck [(id, raw)] (fun _ => true) = .ok [(id.toNat, v)] →
      Answers (.tackSet h [(id, raw)]) 0x0100 h s [.cmd] { ws := [w32 (tackPut s.chip.cmd.tack id.toNat v).length] } fun c =>
        c.cmd = { s.chip.takes.cmd with tack := tackPut s.chip.cmd.tack id.toNat v }) ∧
    (∀ (items : List (Word × Dword)) (good : List (Nat × Int)), Ready 0x0100 h s → s.chip.pressPending = false →
      1 ≤ items.length → items.length ≤ 20 → s.chip.tackCheck items (fun _ => true) = .ok good →
      Answers (.tackSet h items) 0x0100 h s [.cmd, .graph] { ws := [w32 (good.foldl Chip.tackOne s.chip).cmd.tack.length] }
        fun c => c.cmd = (good.foldl Chip.tackOne s.chip.takes).cmd ∧ c.graph = (good.foldl Chip.tackOne s.chip).graph) ∧
    (∀ (items : List (Word × Dword)) (st at_ id : Nat), Ready 0x0100 h s → s.chip.pressPending = false →
      1 ≤ items.length → items.length ≤ 20 → s.chip.tackCheck items (fun _ => true) = .error (st, at_, id) →
      Answers (.tackSet h items) 0x0100 h s [.cmd] { status := st, ws := [w32 at_, w32 id] } fun c =>
        c.cmd.tack = s.chip.cmd.tack) ∧
    (∀ ids : List Word, Ready 0x0101 h s → 1 ≤ ids.length → ids.length ≤ 20 → s.chip.badItem ids = false →
      Answers (.tackGet h ids) 0x0101 h s [] { ws := ids.flatMap fun i => s.chip.tackWords i.toNat } fun _ => True) ∧
    (Ready 0x0102 h s → s.chip.pressPending = false → Answers (.tackClear h) 0x0102 h s [.cmd]
      { ws := [w32 s.chip.cmd.tack.length] } fun c => c.cmd = { s.chip.takes.cmd with tack := [] }) ∧
    (Ready 0x0102 h s → s.chip.pressPending = true → Answers (.tackClear h) 0x0102 h s [.cmd] { status := stBusy }
      fun c => c.cmd.tack = s.chip.cmd.tack) ∧
    (∀ first : Word, Ready 0x0106 h s → first.toNat < s.chip.cmd.tack.length ∨ (first.toNat = 0 ∧ s.chip.cmd.tack = []) →
      Answers (.tackList h first) 0x0106 h s [] { ws := [w32 s.chip.cmd.tack.length, first] ++
        ((s.chip.cmd.tack.drop first.toNat).take 58).map fun q => w32 q.1 } fun _ => True) ∧
    (∀ ids : List Word, Ready 0x0105 h s → 1 ≤ ids.length → ids.length ≤ 29 → s.chip.badItem ids = false →
      Answers (.pressedGet h ids) 0x0105 h s []
        { ws := [lo32 s.chip.sys.blk, hi32 s.chip.sys.blk] ++ ids.flatMap fun i => valueWords (s.chip.pressedAt s.chip.sys.blk i.toNat) }
        fun _ => True)

/-- Presses, PROFILE_SET and FLOW_TABLE_REBUILD are answered (13 R367 to R370; 05 R134 to R136; 06 R171): an accepted press
takes the tack set and will land at its block, and a refused one changes nothing of it. -/
def Obligations.Presses : Prop :=
  ∀ (s : State) (h : Hdr), s.chip.leadsPair = false →
    (∀ L, L = s.chip.sys.blk + 2 → Ready 0x0103 h s → s.chip.pressBarred none = none →
      (∀ v ∈ s.chip.viewsFrom L s.chip.cmd.tack, s.chip.relations s.chip.prof v.1 v.2 false s.chip.cmd.tack = none) →
      ringsOf s.chip.prof (s.chip.itemsAt L) (setItems (s.chip.itemsAt L) s.chip.cmd.tack) s.chip.cmd.tack = [] →
      needsAiring (s.chip.itemsAt L) (setItems (s.chip.itemsAt L) s.chip.cmd.tack) = false →
      Answers (.press h) 0x0103 h s [.cmd, .graph] { ws := [lo32 L, hi32 L] } fun c =>
        c.cmd = { s.chip.takes.cmd with
          tack := [], landed := L
          presses := if s.chip.cmd.tack = [] then s.chip.cmd.presses
            else s.chip.cmd.presses ++ [{ land := L, items := s.chip.cmd.tack }] }) ∧
    (∀ (L : Dword) (k : Nat), Ready 0x0104 h s → s.chip.pressBarred (some L.toNat) = none → s.chip.slotFor = some k → k < 64 →
      s.chip.cmd.jobs.length = 64 →
      (∀ v ∈ s.chip.viewsFrom L.toNat s.chip.cmd.tack, s.chip.relations s.chip.prof v.1 v.2 false s.chip.cmd.tack = none) →
      ringsOf s.chip.prof (s.chip.itemsAt L.toNat) (setItems (s.chip.itemsAt L.toNat) s.chip.cmd.tack) s.chip.cmd.tack = [] →
      needsAiring (s.chip.itemsAt L.toNat) (setItems (s.chip.itemsAt L.toNat) s.chip.cmd.tack) = false →
      Answers (.pressAt h L) 0x0104 h s [.cmd, .graph] { ws := [lo32 L.toNat, hi32 L.toNat], job := some k } fun c =>
        c.cmd.tack = [] ∧ c.cmd.landed = L.toNat ∧ (c.job k).st = .running ∧ (c.job k).opcode = 0x0104 ∧ (c.job k).tag = h.tag ∧
          (c.job k).seq = (s.chip.job k).seq + 1 ∧
          c.cmd.presses = s.chip.cmd.presses ++ [{ land := L.toNat, items := s.chip.cmd.tack, slot := some k, named := true }]) ∧
    (∀ st, Ready 0x0103 h s → s.chip.pressBarred none = some st →
      Answers (.press h) 0x0103 h s [.cmd] { status := st, ws := [0] } fun c =>
        c.cmd = { s.chip.takes.cmd with refusals := s.chip.cmd.refusals + 1 }) ∧
    (∀ k, Ready 0x0600 h s → s.chip.hasJob 0x0600 = false → s.chip.slotFor = some k → k < 64 → s.chip.cmd.jobs.length = 64 →
      Answers (.flowTableRebuild h) 0x0600 h s [.cmd] { status := stStarted, job := some k } fun c =>
        (c.job k).st = .queued ∧ (c.job k).opcode = 0x0600 ∧ (c.job k).tag = h.tag ∧ c.cmd.tack = s.chip.cmd.tack ∧
          (c.job k).seq = (s.chip.job k).seq + 1) ∧
    (∀ (code : Word) (D : Dword) (p : Profile) (L k A : Nat), Ready 0x0B00 h s → s.chip.profileBarred D.toNat = none →
      profileOf (code.toNat % 4) = some p → L = (if D = 0 then s.chip.sys.blk + 2 else D.toNat) →
      s.chip.relations p (s.chip.itemsAt L) (setItems (s.chip.itemsAt L) s.chip.cmd.tack) true s.chip.cmd.tack = none →
      pagesNeeded p (clampDelays p (setItems (s.chip.itemsAt L) s.chip.cmd.tack)) ≤ 2048 → s.chip.slotFor = some k → k < 64 →
      s.chip.cmd.jobs.length = 64 →
      A = resumeIndex s.chip.prof p L (itemIn (s.chip.itemsAt L) (item 1 0 1))
        (itemIn (setItems (s.chip.itemsAt L) s.chip.cmd.tack) (item 1 0 1)) →
      Answers (.profileSet h code D) 0x0B00 h s [.cmd, .graph]
        { status := stStarted, ws := [lo32 L, hi32 L, lo32 A, hi32 A], job := some k } fun c =>
        c.cmd.tack = [] ∧ c.cmd.presses = s.chip.cmd.presses ∧ (c.job k).st = .running ∧ (c.job k).opcode = 0x0B00 ∧
          c.cmd.cold = some { profile := p, land := L, resume := A, items := s.chip.cmd.tack, slot := k })

/-- Jobs are read, abandoned, started and ended (13 R375 to R380; 14 R390, R391). -/
def Obligations.JobTable : Prop :=
  ∀ (s : State) (h : Hdr) (k : Fin 64) (j : Job), s.chip.cmd.jobs[k.val]? = some j →
    (Ready 0x0200 h s → Answers (.jobStatus h (w32 k.val)) 0x0200 h s [] { ws := j.words } fun _ => True) ∧
    (∀ first count : Word, Ready 0x0201 h s → first.toNat < 1016 → 1 ≤ count.toNat → count.toNat ≤ 56 →
      Answers (.jobResultRead h (w32 k.val) first count) 0x0201 h s []
        { ws := [j.statusWord, w32 j.result.length, first, w32 ((j.result.drop first.toNat).take count.toNat).length] ++
            (j.result.drop first.toNat).take count.toNat } fun _ => True) ∧
    (∀ w1 : Word, Ready 0x0202 h s → w1.getLsbD 31 = true → j.st.ended = true →
      Answers (.jobAbandon h (w32 k.val) w1) 0x0202 h s [.cmd]
        { ws := [({ seq := j.seq, progress := j.progress } : Job).statusWord], job := some k.val } fun c =>
        c.cmd = { s.chip.takes.cmd with jobs := s.chip.cmd.jobs.set k.val { seq := j.seq, progress := j.progress } }) ∧
    (∀ w1 : Word, Ready 0x0202 h s → j.st = .free →
      Answers (.jobAbandon h (w32 k.val) w1) 0x0202 h s [.cmd] { status := stNotPermitted, job := some k.val } fun c =>
        c.cmd.jobs = s.chip.cmd.jobs) ∧
    (∀ w1 : Word, Ready 0x0202 h s → w1.getLsbD 31 = true → j.st.live = true → j.opcode = 0x0400 →
      Answers (.jobAbandon h (w32 k.val) w1) 0x0202 h s [.cmd]
        { ws := [({ j with st := .abandoned, fail := 0 } : Job).statusWord], job := some k.val } fun c =>
        c.cmd = { s.chip.takes.cmd with
          jobs := s.chip.cmd.jobs.set k.val { j with st := .abandoned, fail := 0, endedAt := s.chip.clk } }) ∧
    (s.live → j.st = .queued → j.opcode = 0x0400 → (s.chip.executorJobs 0x0400).head? = some k.val →
      Completes (.jobStart k) s [.cmd] fun c => c.cmd = { s.chip.cmd with
        jobs := s.chip.cmd.jobs.set k.val { j with st := .running, startBlk := s.chip.sys.blk } }) ∧
    (∀ find t, s.live → (j.st = .running ∨ j.st = .partialResult) → j.opcode = 0x0300 →
      CompletesAt (.jobEnd k find t) s t [.cmd] fun c => c.host.pend.getLsbD 5 = true ∧ c.cmd = { s.chip.cmd with
        jobs := s.chip.cmd.jobs.set k.val { j with
          st := .done, fail := 0, result := j.result ++ j.param.map w32, endedAt := c.clk, progress := max j.progress j.total } })

/-- Commands that start a job answer STARTED with its slot (13 R377, R379; 14 R391, R393 to R396, R399); SNAPSHOT of up to 56
words waits for the next tick. -/
def Obligations.JobCommands : Prop :=
  ∀ (s : State) (h : Hdr) (k n : Nat) (slots : List Job), s.chip.slotFor = some k → k < 64 → s.chip.cmd.jobs.length = 64 →
    n = s.chip.cmd.nextOrder →
    slots = s.chip.cmd.jobs →
    (∀ (ranges : List (Word × Word)) (rs : List (Nat × Nat)), Ready 0x0300 h s → 1 ≤ ranges.length → ranges.length ≤ 29 →
      rs = ranges.map (fun r => (r.1.toNat, r.2.toNat)) → rs.all snapRange = true → total (rs.map Prod.snd) ≤ 56 →
      ∃ t, Sys2Proof.Machine.exec (.snapshot h ranges) s = .next t ∧ t.pending = s.pending ∧ t.ham = s.ham ∧
        s.chip.keeps ([.out, .irq, .cmd] ++ replyPieces) t.chip ∧ t.chip.cmd = { s.chip.takes.cmd with
          snaps := s.chip.cmd.snaps ++ [{ hdr := hostHdr h, ranges := rs, generation := s.chip.host.generation }] }) ∧
    (∀ (start len : Word) (m : Nat), Ready 0x0400 h s → memRange start.toNat len.toNat = some m → (m < 3 ∨ 27 ≤ m) →
      Answers (.rinse h start len) 0x0400 h s [.cmd] { status := stStarted, job := some k } fun c =>
        c.cmd = { s.chip.takes.cmd with
          nextOrder := n + 1
          jobs := slots.set k { st := .queued, seq := (s.chip.job k).seq + 1, opcode := 0x0400, tag := h.tag, order := n
                                param := [start.toNat, len.toNat], total := len.toNat / eccSize m } }) ∧
    (∀ start len value tag : Word, Ready 0x0401 h s → memRange start.toNat len.toNat = some 28 →
      hostBytes start.toNat len.toNat = len.toNat →
      Answers (.fill h start len value tag) 0x0401 h s [.cmd] { status := stStarted, job := some k } fun c =>
        c.cmd = { s.chip.takes.cmd with
          nextOrder := n + 1
          jobs := slots.set k { st := .queued, seq := (s.chip.job k).seq + 1, opcode := 0x0401, tag := h.tag, order := n
                                param := [start.toNat, len.toNat, value.toNat, tag.toNat % 256]
                                total := len.toNat / eccSize 28 } }) ∧
    (∀ groups : Word, Ready 0x0500 h s → s.chip.testBarred true = none → s.chip.hasJob 0x0500 = false →
      s.chip.hasJob 0x0501 = false →
      Answers (.lineSweep h groups) 0x0500 h s [.cmd] { status := stStarted, job := some k } fun c =>
        c.cmd = { s.chip.takes.cmd with
          nextOrder := n + 1
          jobs := slots.set k { st := .queued, seq := (s.chip.job k).seq + 1, opcode := 0x0500, tag := h.tag, order := n
                                param := if groups.toNat % 256 = 0 then List.range 8 else maskBits 8 (groups.toNat % 256)
                                total := 64 } }) ∧
    (∀ (mask : Dword) (window : Word), Ready 0x0501 h s → mask ≠ 0 → 10 ≤ window.toNat → window.toNat ≤ 10000 →
      s.chip.testBarred true = none → s.chip.hasJob 0x0500 = false →
      Answers (.pilotMeasure h mask window) 0x0501 h s [.cmd] { status := stStarted, job := some k } fun c =>
        c.cmd = { s.chip.takes.cmd with
          nextOrder := n + 1
          jobs := slots.set k { st := .queued, seq := (s.chip.job k).seq + 1, opcode := 0x0501, tag := h.tag, order := n
                                param := [mask.toNat, window.toNat], total := (maskBits 64 mask.toNat).length } }) ∧
    (∀ tests : Word, Ready 0x0503 h s → tests.toNat % 16 ≠ 0 → s.chip.testBarred false = none →
      (tests.getLsbD 3 = false ∨ s.chip.sys.audioEn = false ∨ h.force = true) → s.chip.hasJob 0x0503 = false →
      Answers (.selfTest h tests) 0x0503 h s [.cmd] { status := stStarted, job := some k } fun c =>
        c.cmd = { s.chip.takes.cmd with
          nextOrder := n + 1
          jobs := slots.set k { st := .queued, seq := (s.chip.job k).seq + 1, opcode := 0x0503, tag := h.tag, order := n
                                param := [tests.toNat % 16], total := (maskBits 4 (tests.toNat % 16)).length } }) ∧
    (∀ slot : Word, Ready 0x0901 h s → s.chip.hasJob 0x0901 = false →
      Answers (.imageVerify h slot) 0x0901 h s [.cmd] { status := stStarted, job := some k } fun c =>
        c.cmd = { s.chip.takes.cmd with
          nextOrder := n + 1
          jobs := slots.set k { st := .queued, seq := (s.chip.job k).seq + 1, opcode := 0x0901, tag := h.tag, order := n
                                param := [slot.toNat % 2] } }) ∧
    (∀ (mask : Dword) (rs : List Nat), Ready 0x0800 h s → mask ≠ 0 → s.chip.twin.role = .lead → s.chip.twin.pathT = true →
      s.chip.twin.unmatched = false → s.chip.hasJob 0x0800 = false → rs = (maskBits 64 mask.toNat).filter (· ≠ 62) →
      Answers (.twinMend h mask) 0x0800 h s [.cmd, .twin] { status := stStarted, job := some k } fun c =>
        (c.job k).st = .queued ∧ (c.job k).opcode = 0x0800 ∧ c.twin = { s.chip.twin with
          mendJob := some (k, rs), mended := [], leftBlk := 0, divergent := s.chip.twin.divergent.filter fun r => !rs.contains r })

/-- Commands that read or act at once are answered (14 R392, R395, R398 to R400; 18 R469, R478, R479). -/
def Obligations.ImmediateCommands : Prop :=
  ∀ (s : State) (h : Hdr),
    (Ready 0x0301 h s → ∃ ws, Answers (.ledgerRead h) 0x0301 h s []
      { ws := [lo32 s.chip.graph.cap.n, hi32 s.chip.graph.cap.n] ++ ws ++ [s.chip.graph.cap.bad] } fun _ => True) ∧
    (∀ (first : Word) (e : Nat × Nat × List Word), Ready 0x0302 h s → first.toNat < 1024 →
      s.chip.graph.cap.counters.find? (fun q => q.1 = 0 && q.2.1 = first.toNat) = some e →
      Answers (.countersRead h 0 first 1) 0x0302 h s []
        { ws := [lo32 s.chip.graph.cap.n, hi32 s.chip.graph.cap.n] ++ e.2.2 } fun _ => True) ∧
    (∀ mask : Dword, Ready 0x0502 h s → mask ≠ 0 → s.chip.err.safe = false → s.chip.audioOnce = true →
      (∀ m ∈ maskBits 64 mask.toNat, (s.chip.modCh m).st = .tripped ∨ (s.chip.modCh m).st = .lockedOut) →
      s.chip.pow.ch.length = 64 → Answers (.channelRetry h mask) 0x0502 h s [.pow] {} fun c =>
        ∀ m, m < 64 → c.modCh m = if mask.getLsbD m then { s.chip.modCh m with forced := true, attempts := 0 } else s.chip.modCh m) ∧
    (∀ input : Word, Ready 0x0700 h s → input.toNat % 8 ≠ 7 → (3 ≤ input.toNat % 8 ∨ s.chip.grandmaster = false) →
      Answers (.refForce h input) 0x0700 h s [.ref] {} fun c => c.ref = { s.chip.ref with
        forced := if input.toNat % 8 = 6 then none else some (input.toNat % 8) }) ∧
    (Ready 0x0701 h s → s.chip.ref.st ≠ .holdover → s.chip.ref.st ≠ .holdoverLimit →
      Answers (.refClearHistory h) 0x0701 h s [.ref] {} fun c => c.ref = { s.chip.ref with
        modelValid := false, lockedFor := 0, records := [], y0 := 0, tc := 0, age := 0
        ins := s.chip.ref.ins.map fun i => { i with gates := [], nu := 0, dev := 0 } }) ∧
    (∀ L, L = s.chip.sys.blk + 2 → Ready 0x0801 h s → s.chip.twin.role = .lead → s.chip.swapBarred = false →
      (s.chip.leadsPair = false → Answers (.twinSwap h) 0x0801 h s [.twin] { ws := [lo32 L, hi32 L] } fun c =>
        c.twin = { s.chip.twin with swapAt := some L }) ∧
      (s.chip.leadsPair = true → ∃ t, Sys2Proof.Machine.exec (.twinSwap h) s = .next t ∧ t.pending = s.pending ∧ t.ham = s.ham ∧
        s.chip.takes.keeps ([.out, .irq, .cmd, .twin] ++ replyPieces) t.chip ∧
        t.chip.twin = { s.chip.twin with mirror := s.chip.twin.mirror ++ [.swap 0] } ∧
        t.chip.cmd = { s.chip.takes.cmd with awaits := s.chip.cmd.awaits ++
          [{ opcode := 0x0801, hdr := hostHdr h, reply := false, generation := s.chip.host.generation, params := [] }] })) ∧
    (Ready 0x0802 h s → h.force = true → s.chip.twin.role = .lead →
      Answers (.twinForceLead h) 0x0802 h s [] { ws := [s.chip.twin.epoch] } fun _ => True) ∧
    (∀ e, Ready 0x0802 h s → h.force = true → s.chip.twin.role = .orphan →
      e = (if s.chip.twin.peerEpoch ≤ s.chip.twin.epoch then s.chip.twin.epoch else s.chip.twin.peerEpoch) + 1 →
      Answers (.twinForceLead h) 0x0802 h s [.twin] { ws := [e] } fun c =>
        c.twin = { s.chip.twin with next := some (.lead, e, false) }) ∧
    (∀ (slot : Word) (data : List Word) (z : ImgSlot), Ready 0x0900 h s → 1 ≤ data.length → data.length ≤ 58 →
      s.chip.boot.slots[slot.toNat % 2]? = some z → s.chip.runs (slot.toNat % 2) = false →
      Answers (.imageStage h slot 0 data) 0x0900 h s [.boot] { ws := [w32 (4 * data.length)] } fun c =>
        c.boot = { s.chip.boot with
          slots := s.chip.boot.slots.set (slot.toNat % 2) { factory := false, bytes := wordBytes data } }) ∧
    (∀ (slot : Word) (z : ImgSlot) (k : Nat) (r : BootRec), Ready 0x0902 h s → slot.toNat < 2 → s.chip.boot.slots[slot.toNat]? = some z →
      z.verified = true → z.factory = true → s.chip.boot.current = some (k, r) →
      Answers (.imageActivate h slot) 0x0902 h s [.boot] {} fun c => c.boot = { s.chip.boot with
        records := s.chip.boot.records.set (1 - k)
          (recordWords { r with
            select := slot.toNat, prev := s.chip.boot.slot, trial := !s.chip.runs slot.toNat, tried := false, seq := r.seq + 1 }) }) ∧
    (∀ (slot : Word) (z : ImgSlot), Ready 0x0902 h s → s.chip.boot.slots[slot.toNat % 2]? = some z → z.verified = false →
      Answers (.imageActivate h slot) 0x0902 h s [.cmd] { status := stNotPermitted } fun c =>
        c.cmd = { s.chip.takes.cmd with refusals := s.chip.cmd.refusals + 1 }) ∧
    (∀ w1 : Word, Ready 0x0A00 h s → w1.toNat ≤ 15 → Answers (.errRead h 0 w1) 0x0A00 h s []
      { ws := [w32 s.chip.err.queue.length, w32 s.chip.err.lostCount] ++
          ((s.chip.err.queue.drop w1.toNat).take 14).flatMap Rec.words } fun _ => True) ∧
    (∀ (code : Word) (r : Rec), Ready 0x0A01 h s → code.toNat < 65536 → r ∈ s.chip.err.queue → r.code = code.toNat →
      code.toNat ≠ 0x1021 → code.toNat ≠ 0x0E21 → code.toNat ≠ 0x0101 → (∀ q, s.chip.mem.firstRec = some q → q.1 ≠ code.toNat) →
      Answers (.errAck h code (BitVec.allOnes 64)) 0x0A01 h s [.err] {} fun c => c.err = { s.chip.err with
        queue := s.chip.err.queue.filter (·.code ≠ code.toNat), first := s.chip.err.first.filter (·.code ≠ code.toNat) }) ∧
    (∀ L, Ready 0x0A02 h s → s.chip.exitBarred = false → L = s.chip.sys.blk + 2 + 20 * fadeBlocks s.chip.prof →
      Answers (.safeExit h) 0x0A02 h s [.err] { ws := [lo32 L, hi32 L] } fun c =>
        c.err = { s.chip.err with exiting := some L })

/-- The CMD core takes the packet at the head of the command stream (13 R356 to R359): one with another target is discarded
and counted, one that is too short is refused, and a HELLO of PCIe is answered. -/
def Obligations.PacketTaken : Prop :=
  ∀ (s : State) (p : Pkt) (rest : List Pkt), s.live → s.chip.cmd.stream = p :: rest → s.chip.cmdFree = true →
    s.chip.boot.resetDue = false → s.chip.cmd.fails = false → p.via = .pcie → p.forwarded = false → p.generation = s.chip.host.generation →
    (∀ x ∈ s.chip.mbx.ch, x.part = []) →
    (p.bytes = 4 * p.words.length → 4 ≤ p.words.length → p.words.length ≤ 64 →
      (p.words.getD 0 0).toNat / 2 ^ 24 = p.words.length - 4 → checkOk p.words = true →
      (p.words.getD 2 0).toNat % 64 ≠ 0 → (p.words.getD 2 0).toNat % 64 ≠ s.chip.boot.peg.toNat →
      Completes .commandPacket s [.cmd, .flow] fun c => c.cmd = { s.chip.cmd with
        stream := rest, taken := s.chip.cmd.taken + 1, discards := s.chip.cmd.discards + 1 }) ∧
    (p.bytes < 16 → Completes .commandPacket s [.cmd, .flow, .host, .mem] fun c =>
      c.cmd = { s.chip.cmd with
        stream := rest, taken := s.chip.cmd.taken + 1, refusals := s.chip.cmd.refusals + 1 } ∧
      c.host.rplProd = s.chip.host.rplProd + 1 ∧
      Out.reply .pcie (c.repWords ((p.words.getD 0 0).toNat % 65536) p.hdr { status := stBadLength }) ∈ c.out) ∧
    (∀ tag check level : Word, p.words = [0x01000001, tag, 0, check, level] → p.bytes = 20 → checkOk p.words = true →
      level.toNat ≤ 2 → s.chip.ownCommand p.hdr = true → Completes .commandPacket s [.cmd, .flow, .host, .mem] fun c =>
        c.cmd = { s.chip.cmd with stream := rest, taken := s.chip.cmd.taken + 1 } ∧
        c.host.rplProd = s.chip.host.rplProd + 1 ∧
        Out.reply .pcie (c.repWords 1 p.hdr { ws := [9, pack [(0, 8, 0xA1), (8, 6, s.chip.boot.peg.toNat),
          (16, 3, roleCode s.chip.twin.role), (19, 2, Profile.code s.chip.prof), (21, 1, b2n s.chip.sys.audioEn),
          (22, 1, b2n s.chip.err.safe)]] }) ∈ c.out)

/-- The levels of the digital outputs (20 R516; 21 R528 to R530, R532, R534): their reset states right after reset and after
every reset of the part; outside it, a modulator's pins are low exactly while it is off, and the open-drain lines show their
conditions; under EXTEST MOD_A_n and MOD_B_n follow the boundary register, whose order is log 27's. -/
def Obligations.PinLevels : Prop :=
  (∀ q : Pin, State.reset.chip.pin q = q.atReset) ∧
    (∀ (s : State) (i : Instr), s.chip.boot.extest = false →
      i = .thermalTrip ∨ i = .resetAssert ∨ i = .testEnReset true ∨ (∃ r, i = .brownOut r) →
      ∃ t, Sys2Proof.Machine.exec i s = .next t ∧ ∀ q : Pin, t.chip.pin q = q.atReset) ∧
    (∀ c : Chip, c.held = false → c.boot.extest = false →
      (∀ m : Fin 64, c.pin (.modA m) = c.pin (.modB m) ∧ (c.pin (.modA m) = .low ↔
        (c.modCh m.val).st.switching = false ∨ c.pow.clockHeld = true ∨ c.pow.inputLost = true)) ∧
      (∀ q : Pin, q.openDrain = true → c.pin q = .low ∨ c.pin q = .released) ∧
      (c.pin .faultN = .low ↔ c.faultN = true) ∧ (c.pin .spiIrqN = .low ↔ c.spiIrq = true) ∧
      (c.pin .refAlarmN = .low ↔ c.ref.alarm = true) ∧ (c.pin .psuAlertN = .low ↔ c.ain.psuAlert = true) ∧
      (∀ k : Fin 3, c.pin (.refState k) = .released ↔ Nat.testBit c.ref.code k.val = true) ∧
      (∀ (k : Fin 8) (r : RailGrp), c.pow.rails[k.val]? = some r → (c.pin (.railSet k) = .low ↔ r.duty = 0)) ∧
      (∀ p : Fin 16, c.audioOnce = false → (∀ x, c.sap.ports[p.val]? = some x → x.running = false) →
        c.pin (.sapBclk p) = .low ∧ c.pin (.sapFs p) = .low ∧ c.pin (.sapDout p) = .low)) ∧
    ∀ (s : State) (bits : List Bool) (m : Fin 64) (a b : Bool), s.chip.boot.testEn = true → bits[m.val]? = some a →
      bits[64 + m.val]? = some b → ∃ t, Sys2Proof.Machine.exec (.boundaryScan .extest bits) s = .next t ∧
        t.chip.pin (.modA m) = (if a then .high else .low) ∧ t.chip.pin (.modB m) = if b then .high else .low
end

