-- ==== Sys2Proof/Laws/Lists.lean ====
section
/-! SUPPORT. Lists and maps by index: reading what was written, and what was not. -/

namespace Sys2Proof.Machine

variable {α : Type}

/-- Changing an element that is there is setting it. -/
theorem lmod_of_get {l : List α} {n : Nat} {x : α} (h : l[n]? = some x) (f : α → α) : lmod l n f = l.set n (f x) := by
  unfold lmod
  rw [List.modify_eq_set_getElem?, h]; rfl

theorem getD_of_get {l : List α} {n : Nat} {x : α} (h : l[n]? = some x) (d : α) : l.getD n d = x := by
  rw [List.getD_eq_getElem?_getD, h]; rfl

/-- An element that is there can be read back after it is set. -/
theorem set_get {l : List α} {n : Nat} {x : α} (h : l[n]? = some x) (y : α) : (l.set n y)[n]? = some y := by
  rw [List.getElem?_set_self]; exact (List.getElem?_eq_some_iff.mp h).1

/-- Changing an element leaves the others. -/
theorem lmod_ne {l : List α} {n k : Nat} (h : k ≠ n) (f : α → α) : (lmod l n f)[k]? = l[k]? := by
  unfold lmod
  rw [List.getElem?_modify]; simp [Ne.symm h]

@[simp] theorem lmod_length (l : List α) (n : Nat) (f : α → α) : (lmod l n f).length = l.length := by simp [lmod]

/-- A map gives back what was set. -/
@[simp] theorem mget?_mset_self (m : List (Nat × α)) (k : Nat) (v : α) : mget? (mset m k v) k = some v := by
  induction m with
  | nil => simp [mset, mget?]
  | cons p m ih =>
    obtain ⟨i, w⟩ := p
    unfold mset
    split
    · simp [mget?]
    · split
      · simp [mget?]
      · next h1 h2 => simp [mget?, h1, h2, ih]

/-- And it leaves every other index. -/
theorem mget?_mset_ne (m : List (Nat × α)) {j k : Nat} (v : α) (h : j ≠ k) : mget? (mset m k v) j = mget? m j := by
  induction m with
  | nil => simp [mset, mget?, h]
  | cons p m ih =>
    obtain ⟨i, w⟩ := p
    unfold mset
    split
    · next e => subst e; simp [mget?, h]
    · split
      · next h1 h2 =>
        simp only [mget?, h, if_false]
        split
        · next h3 => rw [if_neg (by omega), if_pos (by omega)]
        · rfl
      · simp only [mget?]
        split
        · rfl
        · split
          · rfl
          · exact ih

@[simp] theorem mget_mset_self (m : List (Nat × α)) (k : Nat) (v d : α) : mget (mset m k v) k d = v := by simp [mget]

theorem mget_mset_ne (m : List (Nat × α)) {j k : Nat} (v d : α) (h : j ≠ k) : mget (mset m k v) j d = mget m j d := by
  simp [mget, mget?_mset_ne m v h]

end Sys2Proof.Machine
end

