-- ==== Sys2Proof/Laws/State.lean ====
section
/-! SUPPORT. Every field of the part after every update of one of its units, so that no proof unfolds a record update. -/

namespace Sys2Proof.Machine

/-! onErr -/

@[simp] theorem Chip.onErr_out (f : Err → Err) (c : Chip) : (c.onErr f).out = c.out := rfl
@[simp] theorem Chip.onErr_held (f : Err → Err) (c : Chip) : (c.onErr f).held = c.held := rfl
@[simp] theorem Chip.onErr_clk (f : Err → Err) (c : Chip) : (c.onErr f).clk = c.clk := rfl
@[simp] theorem Chip.onErr_fresh (f : Err → Err) (c : Chip) : (c.onErr f).fresh = c.fresh := rfl
@[simp] theorem Chip.onErr_audioOnce (f : Err → Err) (c : Chip) : (c.onErr f).audioOnce = c.audioOnce := rfl
@[simp] theorem Chip.onErr_sys (f : Err → Err) (c : Chip) : (c.onErr f).sys = c.sys := rfl
@[simp] theorem Chip.onErr_err (f : Err → Err) (c : Chip) : (c.onErr f).err = f c.err := rfl
@[simp] theorem Chip.onErr_mem (f : Err → Err) (c : Chip) : (c.onErr f).mem = c.mem := rfl
@[simp] theorem Chip.onErr_bus (f : Err → Err) (c : Chip) : (c.onErr f).bus = c.bus := rfl
@[simp] theorem Chip.onErr_host (f : Err → Err) (c : Chip) : (c.onErr f).host = c.host := rfl
@[simp] theorem Chip.onErr_mbx (f : Err → Err) (c : Chip) : (c.onErr f).mbx = c.mbx := rfl
@[simp] theorem Chip.onErr_cmd (f : Err → Err) (c : Chip) : (c.onErr f).cmd = c.cmd := rfl
@[simp] theorem Chip.onErr_graph (f : Err → Err) (c : Chip) : (c.onErr f).graph = c.graph := rfl
@[simp] theorem Chip.onErr_macs (f : Err → Err) (c : Chip) : (c.onErr f).macs = c.macs := rfl
@[simp] theorem Chip.onErr_drop (f : Err → Err) (c : Chip) : (c.onErr f).drop = c.drop := rfl
@[simp] theorem Chip.onErr_flow (f : Err → Err) (c : Chip) : (c.onErr f).flow = c.flow := rfl
@[simp] theorem Chip.onErr_ref (f : Err → Err) (c : Chip) : (c.onErr f).ref = c.ref := rfl
@[simp] theorem Chip.onErr_ptp (f : Err → Err) (c : Chip) : (c.onErr f).ptp = c.ptp := rfl
@[simp] theorem Chip.onErr_clock (f : Err → Err) (c : Chip) : (c.onErr f).clock = c.clock := rfl
@[simp] theorem Chip.onErr_sap (f : Err → Err) (c : Chip) : (c.onErr f).sap = c.sap := rfl
@[simp] theorem Chip.onErr_ain (f : Err → Err) (c : Chip) : (c.onErr f).ain = c.ain := rfl
@[simp] theorem Chip.onErr_pow (f : Err → Err) (c : Chip) : (c.onErr f).pow = c.pow := rfl
@[simp] theorem Chip.onErr_twin (f : Err → Err) (c : Chip) : (c.onErr f).twin = c.twin := rfl
@[simp] theorem Chip.onErr_boot (f : Err → Err) (c : Chip) : (c.onErr f).boot = c.boot := rfl

/-! onMem -/

@[simp] theorem Chip.onMem_out (f : MemUnit → MemUnit) (c : Chip) : (c.onMem f).out = c.out := rfl
@[simp] theorem Chip.onMem_held (f : MemUnit → MemUnit) (c : Chip) : (c.onMem f).held = c.held := rfl
@[simp] theorem Chip.onMem_clk (f : MemUnit → MemUnit) (c : Chip) : (c.onMem f).clk = c.clk := rfl
@[simp] theorem Chip.onMem_fresh (f : MemUnit → MemUnit) (c : Chip) : (c.onMem f).fresh = c.fresh := rfl
@[simp] theorem Chip.onMem_audioOnce (f : MemUnit → MemUnit) (c : Chip) : (c.onMem f).audioOnce = c.audioOnce := rfl
@[simp] theorem Chip.onMem_sys (f : MemUnit → MemUnit) (c : Chip) : (c.onMem f).sys = c.sys := rfl
@[simp] theorem Chip.onMem_err (f : MemUnit → MemUnit) (c : Chip) : (c.onMem f).err = c.err := rfl
@[simp] theorem Chip.onMem_mem (f : MemUnit → MemUnit) (c : Chip) : (c.onMem f).mem = f c.mem := rfl
@[simp] theorem Chip.onMem_bus (f : MemUnit → MemUnit) (c : Chip) : (c.onMem f).bus = c.bus := rfl
@[simp] theorem Chip.onMem_host (f : MemUnit → MemUnit) (c : Chip) : (c.onMem f).host = c.host := rfl
@[simp] theorem Chip.onMem_mbx (f : MemUnit → MemUnit) (c : Chip) : (c.onMem f).mbx = c.mbx := rfl
@[simp] theorem Chip.onMem_cmd (f : MemUnit → MemUnit) (c : Chip) : (c.onMem f).cmd = c.cmd := rfl
@[simp] theorem Chip.onMem_graph (f : MemUnit → MemUnit) (c : Chip) : (c.onMem f).graph = c.graph := rfl
@[simp] theorem Chip.onMem_macs (f : MemUnit → MemUnit) (c : Chip) : (c.onMem f).macs = c.macs := rfl
@[simp] theorem Chip.onMem_drop (f : MemUnit → MemUnit) (c : Chip) : (c.onMem f).drop = c.drop := rfl
@[simp] theorem Chip.onMem_flow (f : MemUnit → MemUnit) (c : Chip) : (c.onMem f).flow = c.flow := rfl
@[simp] theorem Chip.onMem_ref (f : MemUnit → MemUnit) (c : Chip) : (c.onMem f).ref = c.ref := rfl
@[simp] theorem Chip.onMem_ptp (f : MemUnit → MemUnit) (c : Chip) : (c.onMem f).ptp = c.ptp := rfl
@[simp] theorem Chip.onMem_clock (f : MemUnit → MemUnit) (c : Chip) : (c.onMem f).clock = c.clock := rfl
@[simp] theorem Chip.onMem_sap (f : MemUnit → MemUnit) (c : Chip) : (c.onMem f).sap = c.sap := rfl
@[simp] theorem Chip.onMem_ain (f : MemUnit → MemUnit) (c : Chip) : (c.onMem f).ain = c.ain := rfl
@[simp] theorem Chip.onMem_pow (f : MemUnit → MemUnit) (c : Chip) : (c.onMem f).pow = c.pow := rfl
@[simp] theorem Chip.onMem_twin (f : MemUnit → MemUnit) (c : Chip) : (c.onMem f).twin = c.twin := rfl
@[simp] theorem Chip.onMem_boot (f : MemUnit → MemUnit) (c : Chip) : (c.onMem f).boot = c.boot := rfl

/-! onBus -/

@[simp] theorem Chip.onBus_out (f : BusUnit → BusUnit) (c : Chip) : (c.onBus f).out = c.out := rfl
@[simp] theorem Chip.onBus_held (f : BusUnit → BusUnit) (c : Chip) : (c.onBus f).held = c.held := rfl
@[simp] theorem Chip.onBus_clk (f : BusUnit → BusUnit) (c : Chip) : (c.onBus f).clk = c.clk := rfl
@[simp] theorem Chip.onBus_fresh (f : BusUnit → BusUnit) (c : Chip) : (c.onBus f).fresh = c.fresh := rfl
@[simp] theorem Chip.onBus_audioOnce (f : BusUnit → BusUnit) (c : Chip) : (c.onBus f).audioOnce = c.audioOnce := rfl
@[simp] theorem Chip.onBus_sys (f : BusUnit → BusUnit) (c : Chip) : (c.onBus f).sys = c.sys := rfl
@[simp] theorem Chip.onBus_err (f : BusUnit → BusUnit) (c : Chip) : (c.onBus f).err = c.err := rfl
@[simp] theorem Chip.onBus_mem (f : BusUnit → BusUnit) (c : Chip) : (c.onBus f).mem = c.mem := rfl
@[simp] theorem Chip.onBus_bus (f : BusUnit → BusUnit) (c : Chip) : (c.onBus f).bus = f c.bus := rfl
@[simp] theorem Chip.onBus_host (f : BusUnit → BusUnit) (c : Chip) : (c.onBus f).host = c.host := rfl
@[simp] theorem Chip.onBus_mbx (f : BusUnit → BusUnit) (c : Chip) : (c.onBus f).mbx = c.mbx := rfl
@[simp] theorem Chip.onBus_cmd (f : BusUnit → BusUnit) (c : Chip) : (c.onBus f).cmd = c.cmd := rfl
@[simp] theorem Chip.onBus_graph (f : BusUnit → BusUnit) (c : Chip) : (c.onBus f).graph = c.graph := rfl
@[simp] theorem Chip.onBus_macs (f : BusUnit → BusUnit) (c : Chip) : (c.onBus f).macs = c.macs := rfl
@[simp] theorem Chip.onBus_drop (f : BusUnit → BusUnit) (c : Chip) : (c.onBus f).drop = c.drop := rfl
@[simp] theorem Chip.onBus_flow (f : BusUnit → BusUnit) (c : Chip) : (c.onBus f).flow = c.flow := rfl
@[simp] theorem Chip.onBus_ref (f : BusUnit → BusUnit) (c : Chip) : (c.onBus f).ref = c.ref := rfl
@[simp] theorem Chip.onBus_ptp (f : BusUnit → BusUnit) (c : Chip) : (c.onBus f).ptp = c.ptp := rfl
@[simp] theorem Chip.onBus_clock (f : BusUnit → BusUnit) (c : Chip) : (c.onBus f).clock = c.clock := rfl
@[simp] theorem Chip.onBus_sap (f : BusUnit → BusUnit) (c : Chip) : (c.onBus f).sap = c.sap := rfl
@[simp] theorem Chip.onBus_ain (f : BusUnit → BusUnit) (c : Chip) : (c.onBus f).ain = c.ain := rfl
@[simp] theorem Chip.onBus_pow (f : BusUnit → BusUnit) (c : Chip) : (c.onBus f).pow = c.pow := rfl
@[simp] theorem Chip.onBus_twin (f : BusUnit → BusUnit) (c : Chip) : (c.onBus f).twin = c.twin := rfl
@[simp] theorem Chip.onBus_boot (f : BusUnit → BusUnit) (c : Chip) : (c.onBus f).boot = c.boot := rfl

/-! onHost -/

@[simp] theorem Chip.onHost_out (f : HostUnit → HostUnit) (c : Chip) : (c.onHost f).out = c.out := rfl
@[simp] theorem Chip.onHost_held (f : HostUnit → HostUnit) (c : Chip) : (c.onHost f).held = c.held := rfl
@[simp] theorem Chip.onHost_clk (f : HostUnit → HostUnit) (c : Chip) : (c.onHost f).clk = c.clk := rfl
@[simp] theorem Chip.onHost_fresh (f : HostUnit → HostUnit) (c : Chip) : (c.onHost f).fresh = c.fresh := rfl
@[simp] theorem Chip.onHost_audioOnce (f : HostUnit → HostUnit) (c : Chip) : (c.onHost f).audioOnce = c.audioOnce := rfl
@[simp] theorem Chip.onHost_sys (f : HostUnit → HostUnit) (c : Chip) : (c.onHost f).sys = c.sys := rfl
@[simp] theorem Chip.onHost_err (f : HostUnit → HostUnit) (c : Chip) : (c.onHost f).err = c.err := rfl
@[simp] theorem Chip.onHost_mem (f : HostUnit → HostUnit) (c : Chip) : (c.onHost f).mem = c.mem := rfl
@[simp] theorem Chip.onHost_bus (f : HostUnit → HostUnit) (c : Chip) : (c.onHost f).bus = c.bus := rfl
@[simp] theorem Chip.onHost_host (f : HostUnit → HostUnit) (c : Chip) : (c.onHost f).host = f c.host := rfl
@[simp] theorem Chip.onHost_mbx (f : HostUnit → HostUnit) (c : Chip) : (c.onHost f).mbx = c.mbx := rfl
@[simp] theorem Chip.onHost_cmd (f : HostUnit → HostUnit) (c : Chip) : (c.onHost f).cmd = c.cmd := rfl
@[simp] theorem Chip.onHost_graph (f : HostUnit → HostUnit) (c : Chip) : (c.onHost f).graph = c.graph := rfl
@[simp] theorem Chip.onHost_macs (f : HostUnit → HostUnit) (c : Chip) : (c.onHost f).macs = c.macs := rfl
@[simp] theorem Chip.onHost_drop (f : HostUnit → HostUnit) (c : Chip) : (c.onHost f).drop = c.drop := rfl
@[simp] theorem Chip.onHost_flow (f : HostUnit → HostUnit) (c : Chip) : (c.onHost f).flow = c.flow := rfl
@[simp] theorem Chip.onHost_ref (f : HostUnit → HostUnit) (c : Chip) : (c.onHost f).ref = c.ref := rfl
@[simp] theorem Chip.onHost_ptp (f : HostUnit → HostUnit) (c : Chip) : (c.onHost f).ptp = c.ptp := rfl
@[simp] theorem Chip.onHost_clock (f : HostUnit → HostUnit) (c : Chip) : (c.onHost f).clock = c.clock := rfl
@[simp] theorem Chip.onHost_sap (f : HostUnit → HostUnit) (c : Chip) : (c.onHost f).sap = c.sap := rfl
@[simp] theorem Chip.onHost_ain (f : HostUnit → HostUnit) (c : Chip) : (c.onHost f).ain = c.ain := rfl
@[simp] theorem Chip.onHost_pow (f : HostUnit → HostUnit) (c : Chip) : (c.onHost f).pow = c.pow := rfl
@[simp] theorem Chip.onHost_twin (f : HostUnit → HostUnit) (c : Chip) : (c.onHost f).twin = c.twin := rfl
@[simp] theorem Chip.onHost_boot (f : HostUnit → HostUnit) (c : Chip) : (c.onHost f).boot = c.boot := rfl

/-! onMbx -/

@[simp] theorem Chip.onMbx_out (f : Mbx → Mbx) (c : Chip) : (c.onMbx f).out = c.out := rfl
@[simp] theorem Chip.onMbx_held (f : Mbx → Mbx) (c : Chip) : (c.onMbx f).held = c.held := rfl
@[simp] theorem Chip.onMbx_clk (f : Mbx → Mbx) (c : Chip) : (c.onMbx f).clk = c.clk := rfl
@[simp] theorem Chip.onMbx_fresh (f : Mbx → Mbx) (c : Chip) : (c.onMbx f).fresh = c.fresh := rfl
@[simp] theorem Chip.onMbx_audioOnce (f : Mbx → Mbx) (c : Chip) : (c.onMbx f).audioOnce = c.audioOnce := rfl
@[simp] theorem Chip.onMbx_sys (f : Mbx → Mbx) (c : Chip) : (c.onMbx f).sys = c.sys := rfl
@[simp] theorem Chip.onMbx_err (f : Mbx → Mbx) (c : Chip) : (c.onMbx f).err = c.err := rfl
@[simp] theorem Chip.onMbx_mem (f : Mbx → Mbx) (c : Chip) : (c.onMbx f).mem = c.mem := rfl
@[simp] theorem Chip.onMbx_bus (f : Mbx → Mbx) (c : Chip) : (c.onMbx f).bus = c.bus := rfl
@[simp] theorem Chip.onMbx_host (f : Mbx → Mbx) (c : Chip) : (c.onMbx f).host = c.host := rfl
@[simp] theorem Chip.onMbx_mbx (f : Mbx → Mbx) (c : Chip) : (c.onMbx f).mbx = f c.mbx := rfl
@[simp] theorem Chip.onMbx_cmd (f : Mbx → Mbx) (c : Chip) : (c.onMbx f).cmd = c.cmd := rfl
@[simp] theorem Chip.onMbx_graph (f : Mbx → Mbx) (c : Chip) : (c.onMbx f).graph = c.graph := rfl
@[simp] theorem Chip.onMbx_macs (f : Mbx → Mbx) (c : Chip) : (c.onMbx f).macs = c.macs := rfl
@[simp] theorem Chip.onMbx_drop (f : Mbx → Mbx) (c : Chip) : (c.onMbx f).drop = c.drop := rfl
@[simp] theorem Chip.onMbx_flow (f : Mbx → Mbx) (c : Chip) : (c.onMbx f).flow = c.flow := rfl
@[simp] theorem Chip.onMbx_ref (f : Mbx → Mbx) (c : Chip) : (c.onMbx f).ref = c.ref := rfl
@[simp] theorem Chip.onMbx_ptp (f : Mbx → Mbx) (c : Chip) : (c.onMbx f).ptp = c.ptp := rfl
@[simp] theorem Chip.onMbx_clock (f : Mbx → Mbx) (c : Chip) : (c.onMbx f).clock = c.clock := rfl
@[simp] theorem Chip.onMbx_sap (f : Mbx → Mbx) (c : Chip) : (c.onMbx f).sap = c.sap := rfl
@[simp] theorem Chip.onMbx_ain (f : Mbx → Mbx) (c : Chip) : (c.onMbx f).ain = c.ain := rfl
@[simp] theorem Chip.onMbx_pow (f : Mbx → Mbx) (c : Chip) : (c.onMbx f).pow = c.pow := rfl
@[simp] theorem Chip.onMbx_twin (f : Mbx → Mbx) (c : Chip) : (c.onMbx f).twin = c.twin := rfl
@[simp] theorem Chip.onMbx_boot (f : Mbx → Mbx) (c : Chip) : (c.onMbx f).boot = c.boot := rfl

/-! onCmd -/

@[simp] theorem Chip.onCmd_out (f : Cmd → Cmd) (c : Chip) : (c.onCmd f).out = c.out := rfl
@[simp] theorem Chip.onCmd_held (f : Cmd → Cmd) (c : Chip) : (c.onCmd f).held = c.held := rfl
@[simp] theorem Chip.onCmd_clk (f : Cmd → Cmd) (c : Chip) : (c.onCmd f).clk = c.clk := rfl
@[simp] theorem Chip.onCmd_fresh (f : Cmd → Cmd) (c : Chip) : (c.onCmd f).fresh = c.fresh := rfl
@[simp] theorem Chip.onCmd_audioOnce (f : Cmd → Cmd) (c : Chip) : (c.onCmd f).audioOnce = c.audioOnce := rfl
@[simp] theorem Chip.onCmd_sys (f : Cmd → Cmd) (c : Chip) : (c.onCmd f).sys = c.sys := rfl
@[simp] theorem Chip.onCmd_err (f : Cmd → Cmd) (c : Chip) : (c.onCmd f).err = c.err := rfl
@[simp] theorem Chip.onCmd_mem (f : Cmd → Cmd) (c : Chip) : (c.onCmd f).mem = c.mem := rfl
@[simp] theorem Chip.onCmd_bus (f : Cmd → Cmd) (c : Chip) : (c.onCmd f).bus = c.bus := rfl
@[simp] theorem Chip.onCmd_host (f : Cmd → Cmd) (c : Chip) : (c.onCmd f).host = c.host := rfl
@[simp] theorem Chip.onCmd_mbx (f : Cmd → Cmd) (c : Chip) : (c.onCmd f).mbx = c.mbx := rfl
@[simp] theorem Chip.onCmd_cmd (f : Cmd → Cmd) (c : Chip) : (c.onCmd f).cmd = f c.cmd := rfl
@[simp] theorem Chip.onCmd_graph (f : Cmd → Cmd) (c : Chip) : (c.onCmd f).graph = c.graph := rfl
@[simp] theorem Chip.onCmd_macs (f : Cmd → Cmd) (c : Chip) : (c.onCmd f).macs = c.macs := rfl
@[simp] theorem Chip.onCmd_drop (f : Cmd → Cmd) (c : Chip) : (c.onCmd f).drop = c.drop := rfl
@[simp] theorem Chip.onCmd_flow (f : Cmd → Cmd) (c : Chip) : (c.onCmd f).flow = c.flow := rfl
@[simp] theorem Chip.onCmd_ref (f : Cmd → Cmd) (c : Chip) : (c.onCmd f).ref = c.ref := rfl
@[simp] theorem Chip.onCmd_ptp (f : Cmd → Cmd) (c : Chip) : (c.onCmd f).ptp = c.ptp := rfl
@[simp] theorem Chip.onCmd_clock (f : Cmd → Cmd) (c : Chip) : (c.onCmd f).clock = c.clock := rfl
@[simp] theorem Chip.onCmd_sap (f : Cmd → Cmd) (c : Chip) : (c.onCmd f).sap = c.sap := rfl
@[simp] theorem Chip.onCmd_ain (f : Cmd → Cmd) (c : Chip) : (c.onCmd f).ain = c.ain := rfl
@[simp] theorem Chip.onCmd_pow (f : Cmd → Cmd) (c : Chip) : (c.onCmd f).pow = c.pow := rfl
@[simp] theorem Chip.onCmd_twin (f : Cmd → Cmd) (c : Chip) : (c.onCmd f).twin = c.twin := rfl
@[simp] theorem Chip.onCmd_boot (f : Cmd → Cmd) (c : Chip) : (c.onCmd f).boot = c.boot := rfl

/-! onSys -/

@[simp] theorem Chip.onSys_out (f : Sys → Sys) (c : Chip) : (c.onSys f).out = c.out := rfl
@[simp] theorem Chip.onSys_held (f : Sys → Sys) (c : Chip) : (c.onSys f).held = c.held := rfl
@[simp] theorem Chip.onSys_clk (f : Sys → Sys) (c : Chip) : (c.onSys f).clk = c.clk := rfl
@[simp] theorem Chip.onSys_fresh (f : Sys → Sys) (c : Chip) : (c.onSys f).fresh = c.fresh := rfl
@[simp] theorem Chip.onSys_audioOnce (f : Sys → Sys) (c : Chip) : (c.onSys f).audioOnce = c.audioOnce := rfl
@[simp] theorem Chip.onSys_sys (f : Sys → Sys) (c : Chip) : (c.onSys f).sys = f c.sys := rfl
@[simp] theorem Chip.onSys_err (f : Sys → Sys) (c : Chip) : (c.onSys f).err = c.err := rfl
@[simp] theorem Chip.onSys_mem (f : Sys → Sys) (c : Chip) : (c.onSys f).mem = c.mem := rfl
@[simp] theorem Chip.onSys_bus (f : Sys → Sys) (c : Chip) : (c.onSys f).bus = c.bus := rfl
@[simp] theorem Chip.onSys_host (f : Sys → Sys) (c : Chip) : (c.onSys f).host = c.host := rfl
@[simp] theorem Chip.onSys_mbx (f : Sys → Sys) (c : Chip) : (c.onSys f).mbx = c.mbx := rfl
@[simp] theorem Chip.onSys_cmd (f : Sys → Sys) (c : Chip) : (c.onSys f).cmd = c.cmd := rfl
@[simp] theorem Chip.onSys_graph (f : Sys → Sys) (c : Chip) : (c.onSys f).graph = c.graph := rfl
@[simp] theorem Chip.onSys_macs (f : Sys → Sys) (c : Chip) : (c.onSys f).macs = c.macs := rfl
@[simp] theorem Chip.onSys_drop (f : Sys → Sys) (c : Chip) : (c.onSys f).drop = c.drop := rfl
@[simp] theorem Chip.onSys_flow (f : Sys → Sys) (c : Chip) : (c.onSys f).flow = c.flow := rfl
@[simp] theorem Chip.onSys_ref (f : Sys → Sys) (c : Chip) : (c.onSys f).ref = c.ref := rfl
@[simp] theorem Chip.onSys_ptp (f : Sys → Sys) (c : Chip) : (c.onSys f).ptp = c.ptp := rfl
@[simp] theorem Chip.onSys_clock (f : Sys → Sys) (c : Chip) : (c.onSys f).clock = c.clock := rfl
@[simp] theorem Chip.onSys_sap (f : Sys → Sys) (c : Chip) : (c.onSys f).sap = c.sap := rfl
@[simp] theorem Chip.onSys_ain (f : Sys → Sys) (c : Chip) : (c.onSys f).ain = c.ain := rfl
@[simp] theorem Chip.onSys_pow (f : Sys → Sys) (c : Chip) : (c.onSys f).pow = c.pow := rfl
@[simp] theorem Chip.onSys_twin (f : Sys → Sys) (c : Chip) : (c.onSys f).twin = c.twin := rfl
@[simp] theorem Chip.onSys_boot (f : Sys → Sys) (c : Chip) : (c.onSys f).boot = c.boot := rfl

/-! onGraph -/

@[simp] theorem Chip.onGraph_out (f : Graph → Graph) (c : Chip) : (c.onGraph f).out = c.out := rfl
@[simp] theorem Chip.onGraph_held (f : Graph → Graph) (c : Chip) : (c.onGraph f).held = c.held := rfl
@[simp] theorem Chip.onGraph_clk (f : Graph → Graph) (c : Chip) : (c.onGraph f).clk = c.clk := rfl
@[simp] theorem Chip.onGraph_fresh (f : Graph → Graph) (c : Chip) : (c.onGraph f).fresh = c.fresh := rfl
@[simp] theorem Chip.onGraph_audioOnce (f : Graph → Graph) (c : Chip) : (c.onGraph f).audioOnce = c.audioOnce := rfl
@[simp] theorem Chip.onGraph_sys (f : Graph → Graph) (c : Chip) : (c.onGraph f).sys = c.sys := rfl
@[simp] theorem Chip.onGraph_err (f : Graph → Graph) (c : Chip) : (c.onGraph f).err = c.err := rfl
@[simp] theorem Chip.onGraph_mem (f : Graph → Graph) (c : Chip) : (c.onGraph f).mem = c.mem := rfl
@[simp] theorem Chip.onGraph_bus (f : Graph → Graph) (c : Chip) : (c.onGraph f).bus = c.bus := rfl
@[simp] theorem Chip.onGraph_host (f : Graph → Graph) (c : Chip) : (c.onGraph f).host = c.host := rfl
@[simp] theorem Chip.onGraph_mbx (f : Graph → Graph) (c : Chip) : (c.onGraph f).mbx = c.mbx := rfl
@[simp] theorem Chip.onGraph_cmd (f : Graph → Graph) (c : Chip) : (c.onGraph f).cmd = c.cmd := rfl
@[simp] theorem Chip.onGraph_graph (f : Graph → Graph) (c : Chip) : (c.onGraph f).graph = f c.graph := rfl
@[simp] theorem Chip.onGraph_macs (f : Graph → Graph) (c : Chip) : (c.onGraph f).macs = c.macs := rfl
@[simp] theorem Chip.onGraph_drop (f : Graph → Graph) (c : Chip) : (c.onGraph f).drop = c.drop := rfl
@[simp] theorem Chip.onGraph_flow (f : Graph → Graph) (c : Chip) : (c.onGraph f).flow = c.flow := rfl
@[simp] theorem Chip.onGraph_ref (f : Graph → Graph) (c : Chip) : (c.onGraph f).ref = c.ref := rfl
@[simp] theorem Chip.onGraph_ptp (f : Graph → Graph) (c : Chip) : (c.onGraph f).ptp = c.ptp := rfl
@[simp] theorem Chip.onGraph_clock (f : Graph → Graph) (c : Chip) : (c.onGraph f).clock = c.clock := rfl
@[simp] theorem Chip.onGraph_sap (f : Graph → Graph) (c : Chip) : (c.onGraph f).sap = c.sap := rfl
@[simp] theorem Chip.onGraph_ain (f : Graph → Graph) (c : Chip) : (c.onGraph f).ain = c.ain := rfl
@[simp] theorem Chip.onGraph_pow (f : Graph → Graph) (c : Chip) : (c.onGraph f).pow = c.pow := rfl
@[simp] theorem Chip.onGraph_twin (f : Graph → Graph) (c : Chip) : (c.onGraph f).twin = c.twin := rfl
@[simp] theorem Chip.onGraph_boot (f : Graph → Graph) (c : Chip) : (c.onGraph f).boot = c.boot := rfl

/-! onDrop -/

@[simp] theorem Chip.onDrop_out (f : DropUnit → DropUnit) (c : Chip) : (c.onDrop f).out = c.out := rfl
@[simp] theorem Chip.onDrop_held (f : DropUnit → DropUnit) (c : Chip) : (c.onDrop f).held = c.held := rfl
@[simp] theorem Chip.onDrop_clk (f : DropUnit → DropUnit) (c : Chip) : (c.onDrop f).clk = c.clk := rfl
@[simp] theorem Chip.onDrop_fresh (f : DropUnit → DropUnit) (c : Chip) : (c.onDrop f).fresh = c.fresh := rfl
@[simp] theorem Chip.onDrop_audioOnce (f : DropUnit → DropUnit) (c : Chip) : (c.onDrop f).audioOnce = c.audioOnce := rfl
@[simp] theorem Chip.onDrop_sys (f : DropUnit → DropUnit) (c : Chip) : (c.onDrop f).sys = c.sys := rfl
@[simp] theorem Chip.onDrop_err (f : DropUnit → DropUnit) (c : Chip) : (c.onDrop f).err = c.err := rfl
@[simp] theorem Chip.onDrop_mem (f : DropUnit → DropUnit) (c : Chip) : (c.onDrop f).mem = c.mem := rfl
@[simp] theorem Chip.onDrop_bus (f : DropUnit → DropUnit) (c : Chip) : (c.onDrop f).bus = c.bus := rfl
@[simp] theorem Chip.onDrop_host (f : DropUnit → DropUnit) (c : Chip) : (c.onDrop f).host = c.host := rfl
@[simp] theorem Chip.onDrop_mbx (f : DropUnit → DropUnit) (c : Chip) : (c.onDrop f).mbx = c.mbx := rfl
@[simp] theorem Chip.onDrop_cmd (f : DropUnit → DropUnit) (c : Chip) : (c.onDrop f).cmd = c.cmd := rfl
@[simp] theorem Chip.onDrop_graph (f : DropUnit → DropUnit) (c : Chip) : (c.onDrop f).graph = c.graph := rfl
@[simp] theorem Chip.onDrop_macs (f : DropUnit → DropUnit) (c : Chip) : (c.onDrop f).macs = c.macs := rfl
@[simp] theorem Chip.onDrop_drop (f : DropUnit → DropUnit) (c : Chip) : (c.onDrop f).drop = f c.drop := rfl
@[simp] theorem Chip.onDrop_flow (f : DropUnit → DropUnit) (c : Chip) : (c.onDrop f).flow = c.flow := rfl
@[simp] theorem Chip.onDrop_ref (f : DropUnit → DropUnit) (c : Chip) : (c.onDrop f).ref = c.ref := rfl
@[simp] theorem Chip.onDrop_ptp (f : DropUnit → DropUnit) (c : Chip) : (c.onDrop f).ptp = c.ptp := rfl
@[simp] theorem Chip.onDrop_clock (f : DropUnit → DropUnit) (c : Chip) : (c.onDrop f).clock = c.clock := rfl
@[simp] theorem Chip.onDrop_sap (f : DropUnit → DropUnit) (c : Chip) : (c.onDrop f).sap = c.sap := rfl
@[simp] theorem Chip.onDrop_ain (f : DropUnit → DropUnit) (c : Chip) : (c.onDrop f).ain = c.ain := rfl
@[simp] theorem Chip.onDrop_pow (f : DropUnit → DropUnit) (c : Chip) : (c.onDrop f).pow = c.pow := rfl
@[simp] theorem Chip.onDrop_twin (f : DropUnit → DropUnit) (c : Chip) : (c.onDrop f).twin = c.twin := rfl
@[simp] theorem Chip.onDrop_boot (f : DropUnit → DropUnit) (c : Chip) : (c.onDrop f).boot = c.boot := rfl

/-! onFlow -/

@[simp] theorem Chip.onFlow_out (f : FlowUnit → FlowUnit) (c : Chip) : (c.onFlow f).out = c.out := rfl
@[simp] theorem Chip.onFlow_held (f : FlowUnit → FlowUnit) (c : Chip) : (c.onFlow f).held = c.held := rfl
@[simp] theorem Chip.onFlow_clk (f : FlowUnit → FlowUnit) (c : Chip) : (c.onFlow f).clk = c.clk := rfl
@[simp] theorem Chip.onFlow_fresh (f : FlowUnit → FlowUnit) (c : Chip) : (c.onFlow f).fresh = c.fresh := rfl
@[simp] theorem Chip.onFlow_audioOnce (f : FlowUnit → FlowUnit) (c : Chip) : (c.onFlow f).audioOnce = c.audioOnce := rfl
@[simp] theorem Chip.onFlow_sys (f : FlowUnit → FlowUnit) (c : Chip) : (c.onFlow f).sys = c.sys := rfl
@[simp] theorem Chip.onFlow_err (f : FlowUnit → FlowUnit) (c : Chip) : (c.onFlow f).err = c.err := rfl
@[simp] theorem Chip.onFlow_mem (f : FlowUnit → FlowUnit) (c : Chip) : (c.onFlow f).mem = c.mem := rfl
@[simp] theorem Chip.onFlow_bus (f : FlowUnit → FlowUnit) (c : Chip) : (c.onFlow f).bus = c.bus := rfl
@[simp] theorem Chip.onFlow_host (f : FlowUnit → FlowUnit) (c : Chip) : (c.onFlow f).host = c.host := rfl
@[simp] theorem Chip.onFlow_mbx (f : FlowUnit → FlowUnit) (c : Chip) : (c.onFlow f).mbx = c.mbx := rfl
@[simp] theorem Chip.onFlow_cmd (f : FlowUnit → FlowUnit) (c : Chip) : (c.onFlow f).cmd = c.cmd := rfl
@[simp] theorem Chip.onFlow_graph (f : FlowUnit → FlowUnit) (c : Chip) : (c.onFlow f).graph = c.graph := rfl
@[simp] theorem Chip.onFlow_macs (f : FlowUnit → FlowUnit) (c : Chip) : (c.onFlow f).macs = c.macs := rfl
@[simp] theorem Chip.onFlow_drop (f : FlowUnit → FlowUnit) (c : Chip) : (c.onFlow f).drop = c.drop := rfl
@[simp] theorem Chip.onFlow_flow (f : FlowUnit → FlowUnit) (c : Chip) : (c.onFlow f).flow = f c.flow := rfl
@[simp] theorem Chip.onFlow_ref (f : FlowUnit → FlowUnit) (c : Chip) : (c.onFlow f).ref = c.ref := rfl
@[simp] theorem Chip.onFlow_ptp (f : FlowUnit → FlowUnit) (c : Chip) : (c.onFlow f).ptp = c.ptp := rfl
@[simp] theorem Chip.onFlow_clock (f : FlowUnit → FlowUnit) (c : Chip) : (c.onFlow f).clock = c.clock := rfl
@[simp] theorem Chip.onFlow_sap (f : FlowUnit → FlowUnit) (c : Chip) : (c.onFlow f).sap = c.sap := rfl
@[simp] theorem Chip.onFlow_ain (f : FlowUnit → FlowUnit) (c : Chip) : (c.onFlow f).ain = c.ain := rfl
@[simp] theorem Chip.onFlow_pow (f : FlowUnit → FlowUnit) (c : Chip) : (c.onFlow f).pow = c.pow := rfl
@[simp] theorem Chip.onFlow_twin (f : FlowUnit → FlowUnit) (c : Chip) : (c.onFlow f).twin = c.twin := rfl
@[simp] theorem Chip.onFlow_boot (f : FlowUnit → FlowUnit) (c : Chip) : (c.onFlow f).boot = c.boot := rfl

/-! onRef -/

@[simp] theorem Chip.onRef_out (f : Ref → Ref) (c : Chip) : (c.onRef f).out = c.out := rfl
@[simp] theorem Chip.onRef_held (f : Ref → Ref) (c : Chip) : (c.onRef f).held = c.held := rfl
@[simp] theorem Chip.onRef_clk (f : Ref → Ref) (c : Chip) : (c.onRef f).clk = c.clk := rfl
@[simp] theorem Chip.onRef_fresh (f : Ref → Ref) (c : Chip) : (c.onRef f).fresh = c.fresh := rfl
@[simp] theorem Chip.onRef_audioOnce (f : Ref → Ref) (c : Chip) : (c.onRef f).audioOnce = c.audioOnce := rfl
@[simp] theorem Chip.onRef_sys (f : Ref → Ref) (c : Chip) : (c.onRef f).sys = c.sys := rfl
@[simp] theorem Chip.onRef_err (f : Ref → Ref) (c : Chip) : (c.onRef f).err = c.err := rfl
@[simp] theorem Chip.onRef_mem (f : Ref → Ref) (c : Chip) : (c.onRef f).mem = c.mem := rfl
@[simp] theorem Chip.onRef_bus (f : Ref → Ref) (c : Chip) : (c.onRef f).bus = c.bus := rfl
@[simp] theorem Chip.onRef_host (f : Ref → Ref) (c : Chip) : (c.onRef f).host = c.host := rfl
@[simp] theorem Chip.onRef_mbx (f : Ref → Ref) (c : Chip) : (c.onRef f).mbx = c.mbx := rfl
@[simp] theorem Chip.onRef_cmd (f : Ref → Ref) (c : Chip) : (c.onRef f).cmd = c.cmd := rfl
@[simp] theorem Chip.onRef_graph (f : Ref → Ref) (c : Chip) : (c.onRef f).graph = c.graph := rfl
@[simp] theorem Chip.onRef_macs (f : Ref → Ref) (c : Chip) : (c.onRef f).macs = c.macs := rfl
@[simp] theorem Chip.onRef_drop (f : Ref → Ref) (c : Chip) : (c.onRef f).drop = c.drop := rfl
@[simp] theorem Chip.onRef_flow (f : Ref → Ref) (c : Chip) : (c.onRef f).flow = c.flow := rfl
@[simp] theorem Chip.onRef_ref (f : Ref → Ref) (c : Chip) : (c.onRef f).ref = f c.ref := rfl
@[simp] theorem Chip.onRef_ptp (f : Ref → Ref) (c : Chip) : (c.onRef f).ptp = c.ptp := rfl
@[simp] theorem Chip.onRef_clock (f : Ref → Ref) (c : Chip) : (c.onRef f).clock = c.clock := rfl
@[simp] theorem Chip.onRef_sap (f : Ref → Ref) (c : Chip) : (c.onRef f).sap = c.sap := rfl
@[simp] theorem Chip.onRef_ain (f : Ref → Ref) (c : Chip) : (c.onRef f).ain = c.ain := rfl
@[simp] theorem Chip.onRef_pow (f : Ref → Ref) (c : Chip) : (c.onRef f).pow = c.pow := rfl
@[simp] theorem Chip.onRef_twin (f : Ref → Ref) (c : Chip) : (c.onRef f).twin = c.twin := rfl
@[simp] theorem Chip.onRef_boot (f : Ref → Ref) (c : Chip) : (c.onRef f).boot = c.boot := rfl

/-! onPtp -/

@[simp] theorem Chip.onPtp_out (f : Ptp → Ptp) (c : Chip) : (c.onPtp f).out = c.out := rfl
@[simp] theorem Chip.onPtp_held (f : Ptp → Ptp) (c : Chip) : (c.onPtp f).held = c.held := rfl
@[simp] theorem Chip.onPtp_clk (f : Ptp → Ptp) (c : Chip) : (c.onPtp f).clk = c.clk := rfl
@[simp] theorem Chip.onPtp_fresh (f : Ptp → Ptp) (c : Chip) : (c.onPtp f).fresh = c.fresh := rfl
@[simp] theorem Chip.onPtp_audioOnce (f : Ptp → Ptp) (c : Chip) : (c.onPtp f).audioOnce = c.audioOnce := rfl
@[simp] theorem Chip.onPtp_sys (f : Ptp → Ptp) (c : Chip) : (c.onPtp f).sys = c.sys := rfl
@[simp] theorem Chip.onPtp_err (f : Ptp → Ptp) (c : Chip) : (c.onPtp f).err = c.err := rfl
@[simp] theorem Chip.onPtp_mem (f : Ptp → Ptp) (c : Chip) : (c.onPtp f).mem = c.mem := rfl
@[simp] theorem Chip.onPtp_bus (f : Ptp → Ptp) (c : Chip) : (c.onPtp f).bus = c.bus := rfl
@[simp] theorem Chip.onPtp_host (f : Ptp → Ptp) (c : Chip) : (c.onPtp f).host = c.host := rfl
@[simp] theorem Chip.onPtp_mbx (f : Ptp → Ptp) (c : Chip) : (c.onPtp f).mbx = c.mbx := rfl
@[simp] theorem Chip.onPtp_cmd (f : Ptp → Ptp) (c : Chip) : (c.onPtp f).cmd = c.cmd := rfl
@[simp] theorem Chip.onPtp_graph (f : Ptp → Ptp) (c : Chip) : (c.onPtp f).graph = c.graph := rfl
@[simp] theorem Chip.onPtp_macs (f : Ptp → Ptp) (c : Chip) : (c.onPtp f).macs = c.macs := rfl
@[simp] theorem Chip.onPtp_drop (f : Ptp → Ptp) (c : Chip) : (c.onPtp f).drop = c.drop := rfl
@[simp] theorem Chip.onPtp_flow (f : Ptp → Ptp) (c : Chip) : (c.onPtp f).flow = c.flow := rfl
@[simp] theorem Chip.onPtp_ref (f : Ptp → Ptp) (c : Chip) : (c.onPtp f).ref = c.ref := rfl
@[simp] theorem Chip.onPtp_ptp (f : Ptp → Ptp) (c : Chip) : (c.onPtp f).ptp = f c.ptp := rfl
@[simp] theorem Chip.onPtp_clock (f : Ptp → Ptp) (c : Chip) : (c.onPtp f).clock = c.clock := rfl
@[simp] theorem Chip.onPtp_sap (f : Ptp → Ptp) (c : Chip) : (c.onPtp f).sap = c.sap := rfl
@[simp] theorem Chip.onPtp_ain (f : Ptp → Ptp) (c : Chip) : (c.onPtp f).ain = c.ain := rfl
@[simp] theorem Chip.onPtp_pow (f : Ptp → Ptp) (c : Chip) : (c.onPtp f).pow = c.pow := rfl
@[simp] theorem Chip.onPtp_twin (f : Ptp → Ptp) (c : Chip) : (c.onPtp f).twin = c.twin := rfl
@[simp] theorem Chip.onPtp_boot (f : Ptp → Ptp) (c : Chip) : (c.onPtp f).boot = c.boot := rfl

/-! onSap -/

@[simp] theorem Chip.onSap_out (f : Sap → Sap) (c : Chip) : (c.onSap f).out = c.out := rfl
@[simp] theorem Chip.onSap_held (f : Sap → Sap) (c : Chip) : (c.onSap f).held = c.held := rfl
@[simp] theorem Chip.onSap_clk (f : Sap → Sap) (c : Chip) : (c.onSap f).clk = c.clk := rfl
@[simp] theorem Chip.onSap_fresh (f : Sap → Sap) (c : Chip) : (c.onSap f).fresh = c.fresh := rfl
@[simp] theorem Chip.onSap_audioOnce (f : Sap → Sap) (c : Chip) : (c.onSap f).audioOnce = c.audioOnce := rfl
@[simp] theorem Chip.onSap_sys (f : Sap → Sap) (c : Chip) : (c.onSap f).sys = c.sys := rfl
@[simp] theorem Chip.onSap_err (f : Sap → Sap) (c : Chip) : (c.onSap f).err = c.err := rfl
@[simp] theorem Chip.onSap_mem (f : Sap → Sap) (c : Chip) : (c.onSap f).mem = c.mem := rfl
@[simp] theorem Chip.onSap_bus (f : Sap → Sap) (c : Chip) : (c.onSap f).bus = c.bus := rfl
@[simp] theorem Chip.onSap_host (f : Sap → Sap) (c : Chip) : (c.onSap f).host = c.host := rfl
@[simp] theorem Chip.onSap_mbx (f : Sap → Sap) (c : Chip) : (c.onSap f).mbx = c.mbx := rfl
@[simp] theorem Chip.onSap_cmd (f : Sap → Sap) (c : Chip) : (c.onSap f).cmd = c.cmd := rfl
@[simp] theorem Chip.onSap_graph (f : Sap → Sap) (c : Chip) : (c.onSap f).graph = c.graph := rfl
@[simp] theorem Chip.onSap_macs (f : Sap → Sap) (c : Chip) : (c.onSap f).macs = c.macs := rfl
@[simp] theorem Chip.onSap_drop (f : Sap → Sap) (c : Chip) : (c.onSap f).drop = c.drop := rfl
@[simp] theorem Chip.onSap_flow (f : Sap → Sap) (c : Chip) : (c.onSap f).flow = c.flow := rfl
@[simp] theorem Chip.onSap_ref (f : Sap → Sap) (c : Chip) : (c.onSap f).ref = c.ref := rfl
@[simp] theorem Chip.onSap_ptp (f : Sap → Sap) (c : Chip) : (c.onSap f).ptp = c.ptp := rfl
@[simp] theorem Chip.onSap_clock (f : Sap → Sap) (c : Chip) : (c.onSap f).clock = c.clock := rfl
@[simp] theorem Chip.onSap_sap (f : Sap → Sap) (c : Chip) : (c.onSap f).sap = f c.sap := rfl
@[simp] theorem Chip.onSap_ain (f : Sap → Sap) (c : Chip) : (c.onSap f).ain = c.ain := rfl
@[simp] theorem Chip.onSap_pow (f : Sap → Sap) (c : Chip) : (c.onSap f).pow = c.pow := rfl
@[simp] theorem Chip.onSap_twin (f : Sap → Sap) (c : Chip) : (c.onSap f).twin = c.twin := rfl
@[simp] theorem Chip.onSap_boot (f : Sap → Sap) (c : Chip) : (c.onSap f).boot = c.boot := rfl

/-! onAin -/

@[simp] theorem Chip.onAin_out (f : Ain → Ain) (c : Chip) : (c.onAin f).out = c.out := rfl
@[simp] theorem Chip.onAin_held (f : Ain → Ain) (c : Chip) : (c.onAin f).held = c.held := rfl
@[simp] theorem Chip.onAin_clk (f : Ain → Ain) (c : Chip) : (c.onAin f).clk = c.clk := rfl
@[simp] theorem Chip.onAin_fresh (f : Ain → Ain) (c : Chip) : (c.onAin f).fresh = c.fresh := rfl
@[simp] theorem Chip.onAin_audioOnce (f : Ain → Ain) (c : Chip) : (c.onAin f).audioOnce = c.audioOnce := rfl
@[simp] theorem Chip.onAin_sys (f : Ain → Ain) (c : Chip) : (c.onAin f).sys = c.sys := rfl
@[simp] theorem Chip.onAin_err (f : Ain → Ain) (c : Chip) : (c.onAin f).err = c.err := rfl
@[simp] theorem Chip.onAin_mem (f : Ain → Ain) (c : Chip) : (c.onAin f).mem = c.mem := rfl
@[simp] theorem Chip.onAin_bus (f : Ain → Ain) (c : Chip) : (c.onAin f).bus = c.bus := rfl
@[simp] theorem Chip.onAin_host (f : Ain → Ain) (c : Chip) : (c.onAin f).host = c.host := rfl
@[simp] theorem Chip.onAin_mbx (f : Ain → Ain) (c : Chip) : (c.onAin f).mbx = c.mbx := rfl
@[simp] theorem Chip.onAin_cmd (f : Ain → Ain) (c : Chip) : (c.onAin f).cmd = c.cmd := rfl
@[simp] theorem Chip.onAin_graph (f : Ain → Ain) (c : Chip) : (c.onAin f).graph = c.graph := rfl
@[simp] theorem Chip.onAin_macs (f : Ain → Ain) (c : Chip) : (c.onAin f).macs = c.macs := rfl
@[simp] theorem Chip.onAin_drop (f : Ain → Ain) (c : Chip) : (c.onAin f).drop = c.drop := rfl
@[simp] theorem Chip.onAin_flow (f : Ain → Ain) (c : Chip) : (c.onAin f).flow = c.flow := rfl
@[simp] theorem Chip.onAin_ref (f : Ain → Ain) (c : Chip) : (c.onAin f).ref = c.ref := rfl
@[simp] theorem Chip.onAin_ptp (f : Ain → Ain) (c : Chip) : (c.onAin f).ptp = c.ptp := rfl
@[simp] theorem Chip.onAin_clock (f : Ain → Ain) (c : Chip) : (c.onAin f).clock = c.clock := rfl
@[simp] theorem Chip.onAin_sap (f : Ain → Ain) (c : Chip) : (c.onAin f).sap = c.sap := rfl
@[simp] theorem Chip.onAin_ain (f : Ain → Ain) (c : Chip) : (c.onAin f).ain = f c.ain := rfl
@[simp] theorem Chip.onAin_pow (f : Ain → Ain) (c : Chip) : (c.onAin f).pow = c.pow := rfl
@[simp] theorem Chip.onAin_twin (f : Ain → Ain) (c : Chip) : (c.onAin f).twin = c.twin := rfl
@[simp] theorem Chip.onAin_boot (f : Ain → Ain) (c : Chip) : (c.onAin f).boot = c.boot := rfl

/-! onPow -/

@[simp] theorem Chip.onPow_out (f : Pow → Pow) (c : Chip) : (c.onPow f).out = c.out := rfl
@[simp] theorem Chip.onPow_held (f : Pow → Pow) (c : Chip) : (c.onPow f).held = c.held := rfl
@[simp] theorem Chip.onPow_clk (f : Pow → Pow) (c : Chip) : (c.onPow f).clk = c.clk := rfl
@[simp] theorem Chip.onPow_fresh (f : Pow → Pow) (c : Chip) : (c.onPow f).fresh = c.fresh := rfl
@[simp] theorem Chip.onPow_audioOnce (f : Pow → Pow) (c : Chip) : (c.onPow f).audioOnce = c.audioOnce := rfl
@[simp] theorem Chip.onPow_sys (f : Pow → Pow) (c : Chip) : (c.onPow f).sys = c.sys := rfl
@[simp] theorem Chip.onPow_err (f : Pow → Pow) (c : Chip) : (c.onPow f).err = c.err := rfl
@[simp] theorem Chip.onPow_mem (f : Pow → Pow) (c : Chip) : (c.onPow f).mem = c.mem := rfl
@[simp] theorem Chip.onPow_bus (f : Pow → Pow) (c : Chip) : (c.onPow f).bus = c.bus := rfl
@[simp] theorem Chip.onPow_host (f : Pow → Pow) (c : Chip) : (c.onPow f).host = c.host := rfl
@[simp] theorem Chip.onPow_mbx (f : Pow → Pow) (c : Chip) : (c.onPow f).mbx = c.mbx := rfl
@[simp] theorem Chip.onPow_cmd (f : Pow → Pow) (c : Chip) : (c.onPow f).cmd = c.cmd := rfl
@[simp] theorem Chip.onPow_graph (f : Pow → Pow) (c : Chip) : (c.onPow f).graph = c.graph := rfl
@[simp] theorem Chip.onPow_macs (f : Pow → Pow) (c : Chip) : (c.onPow f).macs = c.macs := rfl
@[simp] theorem Chip.onPow_drop (f : Pow → Pow) (c : Chip) : (c.onPow f).drop = c.drop := rfl
@[simp] theorem Chip.onPow_flow (f : Pow → Pow) (c : Chip) : (c.onPow f).flow = c.flow := rfl
@[simp] theorem Chip.onPow_ref (f : Pow → Pow) (c : Chip) : (c.onPow f).ref = c.ref := rfl
@[simp] theorem Chip.onPow_ptp (f : Pow → Pow) (c : Chip) : (c.onPow f).ptp = c.ptp := rfl
@[simp] theorem Chip.onPow_clock (f : Pow → Pow) (c : Chip) : (c.onPow f).clock = c.clock := rfl
@[simp] theorem Chip.onPow_sap (f : Pow → Pow) (c : Chip) : (c.onPow f).sap = c.sap := rfl
@[simp] theorem Chip.onPow_ain (f : Pow → Pow) (c : Chip) : (c.onPow f).ain = c.ain := rfl
@[simp] theorem Chip.onPow_pow (f : Pow → Pow) (c : Chip) : (c.onPow f).pow = f c.pow := rfl
@[simp] theorem Chip.onPow_twin (f : Pow → Pow) (c : Chip) : (c.onPow f).twin = c.twin := rfl
@[simp] theorem Chip.onPow_boot (f : Pow → Pow) (c : Chip) : (c.onPow f).boot = c.boot := rfl

/-! onTwin -/

@[simp] theorem Chip.onTwin_out (f : Twin → Twin) (c : Chip) : (c.onTwin f).out = c.out := rfl
@[simp] theorem Chip.onTwin_held (f : Twin → Twin) (c : Chip) : (c.onTwin f).held = c.held := rfl
@[simp] theorem Chip.onTwin_clk (f : Twin → Twin) (c : Chip) : (c.onTwin f).clk = c.clk := rfl
@[simp] theorem Chip.onTwin_fresh (f : Twin → Twin) (c : Chip) : (c.onTwin f).fresh = c.fresh := rfl
@[simp] theorem Chip.onTwin_audioOnce (f : Twin → Twin) (c : Chip) : (c.onTwin f).audioOnce = c.audioOnce := rfl
@[simp] theorem Chip.onTwin_sys (f : Twin → Twin) (c : Chip) : (c.onTwin f).sys = c.sys := rfl
@[simp] theorem Chip.onTwin_err (f : Twin → Twin) (c : Chip) : (c.onTwin f).err = c.err := rfl
@[simp] theorem Chip.onTwin_mem (f : Twin → Twin) (c : Chip) : (c.onTwin f).mem = c.mem := rfl
@[simp] theorem Chip.onTwin_bus (f : Twin → Twin) (c : Chip) : (c.onTwin f).bus = c.bus := rfl
@[simp] theorem Chip.onTwin_host (f : Twin → Twin) (c : Chip) : (c.onTwin f).host = c.host := rfl
@[simp] theorem Chip.onTwin_mbx (f : Twin → Twin) (c : Chip) : (c.onTwin f).mbx = c.mbx := rfl
@[simp] theorem Chip.onTwin_cmd (f : Twin → Twin) (c : Chip) : (c.onTwin f).cmd = c.cmd := rfl
@[simp] theorem Chip.onTwin_graph (f : Twin → Twin) (c : Chip) : (c.onTwin f).graph = c.graph := rfl
@[simp] theorem Chip.onTwin_macs (f : Twin → Twin) (c : Chip) : (c.onTwin f).macs = c.macs := rfl
@[simp] theorem Chip.onTwin_drop (f : Twin → Twin) (c : Chip) : (c.onTwin f).drop = c.drop := rfl
@[simp] theorem Chip.onTwin_flow (f : Twin → Twin) (c : Chip) : (c.onTwin f).flow = c.flow := rfl
@[simp] theorem Chip.onTwin_ref (f : Twin → Twin) (c : Chip) : (c.onTwin f).ref = c.ref := rfl
@[simp] theorem Chip.onTwin_ptp (f : Twin → Twin) (c : Chip) : (c.onTwin f).ptp = c.ptp := rfl
@[simp] theorem Chip.onTwin_clock (f : Twin → Twin) (c : Chip) : (c.onTwin f).clock = c.clock := rfl
@[simp] theorem Chip.onTwin_sap (f : Twin → Twin) (c : Chip) : (c.onTwin f).sap = c.sap := rfl
@[simp] theorem Chip.onTwin_ain (f : Twin → Twin) (c : Chip) : (c.onTwin f).ain = c.ain := rfl
@[simp] theorem Chip.onTwin_pow (f : Twin → Twin) (c : Chip) : (c.onTwin f).pow = c.pow := rfl
@[simp] theorem Chip.onTwin_twin (f : Twin → Twin) (c : Chip) : (c.onTwin f).twin = f c.twin := rfl
@[simp] theorem Chip.onTwin_boot (f : Twin → Twin) (c : Chip) : (c.onTwin f).boot = c.boot := rfl

/-! onBoot -/

@[simp] theorem Chip.onBoot_out (f : Boot → Boot) (c : Chip) : (c.onBoot f).out = c.out := rfl
@[simp] theorem Chip.onBoot_held (f : Boot → Boot) (c : Chip) : (c.onBoot f).held = c.held := rfl
@[simp] theorem Chip.onBoot_clk (f : Boot → Boot) (c : Chip) : (c.onBoot f).clk = c.clk := rfl
@[simp] theorem Chip.onBoot_fresh (f : Boot → Boot) (c : Chip) : (c.onBoot f).fresh = c.fresh := rfl
@[simp] theorem Chip.onBoot_audioOnce (f : Boot → Boot) (c : Chip) : (c.onBoot f).audioOnce = c.audioOnce := rfl
@[simp] theorem Chip.onBoot_sys (f : Boot → Boot) (c : Chip) : (c.onBoot f).sys = c.sys := rfl
@[simp] theorem Chip.onBoot_err (f : Boot → Boot) (c : Chip) : (c.onBoot f).err = c.err := rfl
@[simp] theorem Chip.onBoot_mem (f : Boot → Boot) (c : Chip) : (c.onBoot f).mem = c.mem := rfl
@[simp] theorem Chip.onBoot_bus (f : Boot → Boot) (c : Chip) : (c.onBoot f).bus = c.bus := rfl
@[simp] theorem Chip.onBoot_host (f : Boot → Boot) (c : Chip) : (c.onBoot f).host = c.host := rfl
@[simp] theorem Chip.onBoot_mbx (f : Boot → Boot) (c : Chip) : (c.onBoot f).mbx = c.mbx := rfl
@[simp] theorem Chip.onBoot_cmd (f : Boot → Boot) (c : Chip) : (c.onBoot f).cmd = c.cmd := rfl
@[simp] theorem Chip.onBoot_graph (f : Boot → Boot) (c : Chip) : (c.onBoot f).graph = c.graph := rfl
@[simp] theorem Chip.onBoot_macs (f : Boot → Boot) (c : Chip) : (c.onBoot f).macs = c.macs := rfl
@[simp] theorem Chip.onBoot_drop (f : Boot → Boot) (c : Chip) : (c.onBoot f).drop = c.drop := rfl
@[simp] theorem Chip.onBoot_flow (f : Boot → Boot) (c : Chip) : (c.onBoot f).flow = c.flow := rfl
@[simp] theorem Chip.onBoot_ref (f : Boot → Boot) (c : Chip) : (c.onBoot f).ref = c.ref := rfl
@[simp] theorem Chip.onBoot_ptp (f : Boot → Boot) (c : Chip) : (c.onBoot f).ptp = c.ptp := rfl
@[simp] theorem Chip.onBoot_clock (f : Boot → Boot) (c : Chip) : (c.onBoot f).clock = c.clock := rfl
@[simp] theorem Chip.onBoot_sap (f : Boot → Boot) (c : Chip) : (c.onBoot f).sap = c.sap := rfl
@[simp] theorem Chip.onBoot_ain (f : Boot → Boot) (c : Chip) : (c.onBoot f).ain = c.ain := rfl
@[simp] theorem Chip.onBoot_pow (f : Boot → Boot) (c : Chip) : (c.onBoot f).pow = c.pow := rfl
@[simp] theorem Chip.onBoot_twin (f : Boot → Boot) (c : Chip) : (c.onBoot f).twin = c.twin := rfl
@[simp] theorem Chip.onBoot_boot (f : Boot → Boot) (c : Chip) : (c.onBoot f).boot = f c.boot := rfl

/-! onMac, emit, raise, tick, begin -/

@[simp] theorem Chip.onMac_out (m : Nat) (f : Mac → Mac) (c : Chip) : (c.onMac m f).out = c.out := rfl
@[simp] theorem Chip.onMac_held (m : Nat) (f : Mac → Mac) (c : Chip) : (c.onMac m f).held = c.held := rfl
@[simp] theorem Chip.onMac_clk (m : Nat) (f : Mac → Mac) (c : Chip) : (c.onMac m f).clk = c.clk := rfl
@[simp] theorem Chip.onMac_fresh (m : Nat) (f : Mac → Mac) (c : Chip) : (c.onMac m f).fresh = c.fresh := rfl
@[simp] theorem Chip.onMac_audioOnce (m : Nat) (f : Mac → Mac) (c : Chip) : (c.onMac m f).audioOnce = c.audioOnce := rfl
@[simp] theorem Chip.onMac_sys (m : Nat) (f : Mac → Mac) (c : Chip) : (c.onMac m f).sys = c.sys := rfl
@[simp] theorem Chip.onMac_err (m : Nat) (f : Mac → Mac) (c : Chip) : (c.onMac m f).err = c.err := rfl
@[simp] theorem Chip.onMac_mem (m : Nat) (f : Mac → Mac) (c : Chip) : (c.onMac m f).mem = c.mem := rfl
@[simp] theorem Chip.onMac_bus (m : Nat) (f : Mac → Mac) (c : Chip) : (c.onMac m f).bus = c.bus := rfl
@[simp] theorem Chip.onMac_host (m : Nat) (f : Mac → Mac) (c : Chip) : (c.onMac m f).host = c.host := rfl
@[simp] theorem Chip.onMac_mbx (m : Nat) (f : Mac → Mac) (c : Chip) : (c.onMac m f).mbx = c.mbx := rfl
@[simp] theorem Chip.onMac_cmd (m : Nat) (f : Mac → Mac) (c : Chip) : (c.onMac m f).cmd = c.cmd := rfl
@[simp] theorem Chip.onMac_graph (m : Nat) (f : Mac → Mac) (c : Chip) : (c.onMac m f).graph = c.graph := rfl
@[simp] theorem Chip.onMac_drop (m : Nat) (f : Mac → Mac) (c : Chip) : (c.onMac m f).drop = c.drop := rfl
@[simp] theorem Chip.onMac_flow (m : Nat) (f : Mac → Mac) (c : Chip) : (c.onMac m f).flow = c.flow := rfl
@[simp] theorem Chip.onMac_ref (m : Nat) (f : Mac → Mac) (c : Chip) : (c.onMac m f).ref = c.ref := rfl
@[simp] theorem Chip.onMac_ptp (m : Nat) (f : Mac → Mac) (c : Chip) : (c.onMac m f).ptp = c.ptp := rfl
@[simp] theorem Chip.onMac_clock (m : Nat) (f : Mac → Mac) (c : Chip) : (c.onMac m f).clock = c.clock := rfl
@[simp] theorem Chip.onMac_sap (m : Nat) (f : Mac → Mac) (c : Chip) : (c.onMac m f).sap = c.sap := rfl
@[simp] theorem Chip.onMac_ain (m : Nat) (f : Mac → Mac) (c : Chip) : (c.onMac m f).ain = c.ain := rfl
@[simp] theorem Chip.onMac_pow (m : Nat) (f : Mac → Mac) (c : Chip) : (c.onMac m f).pow = c.pow := rfl
@[simp] theorem Chip.onMac_twin (m : Nat) (f : Mac → Mac) (c : Chip) : (c.onMac m f).twin = c.twin := rfl
@[simp] theorem Chip.onMac_boot (m : Nat) (f : Mac → Mac) (c : Chip) : (c.onMac m f).boot = c.boot := rfl
@[simp] theorem Chip.onMac_macs (m : Nat) (f : Mac → Mac) (c : Chip) : (c.onMac m f).macs = lmod c.macs m f := rfl
@[simp] theorem Chip.emit_out (x : Out) (c : Chip) : (c.emit x).out = c.out ++ [x] := rfl
@[simp] theorem Chip.emit_held (x : Out) (c : Chip) : (c.emit x).held = c.held := rfl
@[simp] theorem Chip.emit_clk (x : Out) (c : Chip) : (c.emit x).clk = c.clk := rfl
@[simp] theorem Chip.emit_fresh (x : Out) (c : Chip) : (c.emit x).fresh = c.fresh := rfl
@[simp] theorem Chip.emit_audioOnce (x : Out) (c : Chip) : (c.emit x).audioOnce = c.audioOnce := rfl
@[simp] theorem Chip.emit_sys (x : Out) (c : Chip) : (c.emit x).sys = c.sys := rfl
@[simp] theorem Chip.emit_err (x : Out) (c : Chip) : (c.emit x).err = c.err := rfl
@[simp] theorem Chip.emit_mem (x : Out) (c : Chip) : (c.emit x).mem = c.mem := rfl
@[simp] theorem Chip.emit_bus (x : Out) (c : Chip) : (c.emit x).bus = c.bus := rfl
@[simp] theorem Chip.emit_host (x : Out) (c : Chip) : (c.emit x).host = c.host := rfl
@[simp] theorem Chip.emit_mbx (x : Out) (c : Chip) : (c.emit x).mbx = c.mbx := rfl
@[simp] theorem Chip.emit_cmd (x : Out) (c : Chip) : (c.emit x).cmd = c.cmd := rfl
@[simp] theorem Chip.emit_graph (x : Out) (c : Chip) : (c.emit x).graph = c.graph := rfl
@[simp] theorem Chip.emit_macs (x : Out) (c : Chip) : (c.emit x).macs = c.macs := rfl
@[simp] theorem Chip.emit_drop (x : Out) (c : Chip) : (c.emit x).drop = c.drop := rfl
@[simp] theorem Chip.emit_flow (x : Out) (c : Chip) : (c.emit x).flow = c.flow := rfl
@[simp] theorem Chip.emit_ref (x : Out) (c : Chip) : (c.emit x).ref = c.ref := rfl
@[simp] theorem Chip.emit_ptp (x : Out) (c : Chip) : (c.emit x).ptp = c.ptp := rfl
@[simp] theorem Chip.emit_clock (x : Out) (c : Chip) : (c.emit x).clock = c.clock := rfl
@[simp] theorem Chip.emit_sap (x : Out) (c : Chip) : (c.emit x).sap = c.sap := rfl
@[simp] theorem Chip.emit_ain (x : Out) (c : Chip) : (c.emit x).ain = c.ain := rfl
@[simp] theorem Chip.emit_pow (x : Out) (c : Chip) : (c.emit x).pow = c.pow := rfl
@[simp] theorem Chip.emit_twin (x : Out) (c : Chip) : (c.emit x).twin = c.twin := rfl
@[simp] theorem Chip.emit_boot (x : Out) (c : Chip) : (c.emit x).boot = c.boot := rfl
@[simp] theorem Chip.raise_out (code : Nat) (cls : Cls) (d : Nat) (b : Option Nat) (c : Chip) : (c.raise code cls d b).out = c.out := rfl
@[simp] theorem Chip.raise_held (code : Nat) (cls : Cls) (d : Nat) (b : Option Nat) (c : Chip) : (c.raise code cls d b).held = c.held := rfl
@[simp] theorem Chip.raise_clk (code : Nat) (cls : Cls) (d : Nat) (b : Option Nat) (c : Chip) : (c.raise code cls d b).clk = c.clk := rfl
@[simp] theorem Chip.raise_fresh (code : Nat) (cls : Cls) (d : Nat) (b : Option Nat) (c : Chip) : (c.raise code cls d b).fresh = c.fresh := rfl
@[simp] theorem Chip.raise_audioOnce (code : Nat) (cls : Cls) (d : Nat) (b : Option Nat) (c : Chip) : (c.raise code cls d b).audioOnce = c.audioOnce := rfl
@[simp] theorem Chip.raise_sys (code : Nat) (cls : Cls) (d : Nat) (b : Option Nat) (c : Chip) : (c.raise code cls d b).sys = c.sys := rfl
@[simp] theorem Chip.raise_mem (code : Nat) (cls : Cls) (d : Nat) (b : Option Nat) (c : Chip) : (c.raise code cls d b).mem = c.mem := rfl
@[simp] theorem Chip.raise_bus (code : Nat) (cls : Cls) (d : Nat) (b : Option Nat) (c : Chip) : (c.raise code cls d b).bus = c.bus := rfl
@[simp] theorem Chip.raise_host (code : Nat) (cls : Cls) (d : Nat) (b : Option Nat) (c : Chip) : (c.raise code cls d b).host = c.host := rfl
@[simp] theorem Chip.raise_mbx (code : Nat) (cls : Cls) (d : Nat) (b : Option Nat) (c : Chip) : (c.raise code cls d b).mbx = c.mbx := rfl
@[simp] theorem Chip.raise_cmd (code : Nat) (cls : Cls) (d : Nat) (b : Option Nat) (c : Chip) : (c.raise code cls d b).cmd = c.cmd := rfl
@[simp] theorem Chip.raise_graph (code : Nat) (cls : Cls) (d : Nat) (b : Option Nat) (c : Chip) : (c.raise code cls d b).graph = c.graph := rfl
@[simp] theorem Chip.raise_macs (code : Nat) (cls : Cls) (d : Nat) (b : Option Nat) (c : Chip) : (c.raise code cls d b).macs = c.macs := rfl
@[simp] theorem Chip.raise_drop (code : Nat) (cls : Cls) (d : Nat) (b : Option Nat) (c : Chip) : (c.raise code cls d b).drop = c.drop := rfl
@[simp] theorem Chip.raise_flow (code : Nat) (cls : Cls) (d : Nat) (b : Option Nat) (c : Chip) : (c.raise code cls d b).flow = c.flow := rfl
@[simp] theorem Chip.raise_ref (code : Nat) (cls : Cls) (d : Nat) (b : Option Nat) (c : Chip) : (c.raise code cls d b).ref = c.ref := rfl
@[simp] theorem Chip.raise_ptp (code : Nat) (cls : Cls) (d : Nat) (b : Option Nat) (c : Chip) : (c.raise code cls d b).ptp = c.ptp := rfl
@[simp] theorem Chip.raise_clock (code : Nat) (cls : Cls) (d : Nat) (b : Option Nat) (c : Chip) : (c.raise code cls d b).clock = c.clock := rfl
@[simp] theorem Chip.raise_sap (code : Nat) (cls : Cls) (d : Nat) (b : Option Nat) (c : Chip) : (c.raise code cls d b).sap = c.sap := rfl
@[simp] theorem Chip.raise_ain (code : Nat) (cls : Cls) (d : Nat) (b : Option Nat) (c : Chip) : (c.raise code cls d b).ain = c.ain := rfl
@[simp] theorem Chip.raise_pow (code : Nat) (cls : Cls) (d : Nat) (b : Option Nat) (c : Chip) : (c.raise code cls d b).pow = c.pow := rfl
@[simp] theorem Chip.raise_twin (code : Nat) (cls : Cls) (d : Nat) (b : Option Nat) (c : Chip) : (c.raise code cls d b).twin = c.twin := rfl
@[simp] theorem Chip.raise_boot (code : Nat) (cls : Cls) (d : Nat) (b : Option Nat) (c : Chip) : (c.raise code cls d b).boot = c.boot := rfl
@[simp] theorem Chip.tick_out (c : Chip) : c.tick.out = c.out := rfl
@[simp] theorem Chip.tick_held (c : Chip) : c.tick.held = c.held := rfl
@[simp] theorem Chip.tick_clk (c : Chip) : c.tick.clk = c.clk := rfl
@[simp] theorem Chip.tick_fresh (c : Chip) : c.tick.fresh = c.fresh + 1 := rfl
@[simp] theorem Chip.tick_audioOnce (c : Chip) : c.tick.audioOnce = c.audioOnce := rfl
@[simp] theorem Chip.tick_sys (c : Chip) : c.tick.sys = c.sys := rfl
@[simp] theorem Chip.tick_err (c : Chip) : c.tick.err = c.err := rfl
@[simp] theorem Chip.tick_mem (c : Chip) : c.tick.mem = c.mem := rfl
@[simp] theorem Chip.tick_bus (c : Chip) : c.tick.bus = c.bus := rfl
@[simp] theorem Chip.tick_host (c : Chip) : c.tick.host = c.host := rfl
@[simp] theorem Chip.tick_mbx (c : Chip) : c.tick.mbx = c.mbx := rfl
@[simp] theorem Chip.tick_cmd (c : Chip) : c.tick.cmd = c.cmd := rfl
@[simp] theorem Chip.tick_graph (c : Chip) : c.tick.graph = c.graph := rfl
@[simp] theorem Chip.tick_macs (c : Chip) : c.tick.macs = c.macs := rfl
@[simp] theorem Chip.tick_drop (c : Chip) : c.tick.drop = c.drop := rfl
@[simp] theorem Chip.tick_flow (c : Chip) : c.tick.flow = c.flow := rfl
@[simp] theorem Chip.tick_ref (c : Chip) : c.tick.ref = c.ref := rfl
@[simp] theorem Chip.tick_ptp (c : Chip) : c.tick.ptp = c.ptp := rfl
@[simp] theorem Chip.tick_clock (c : Chip) : c.tick.clock = c.clock := rfl
@[simp] theorem Chip.tick_sap (c : Chip) : c.tick.sap = c.sap := rfl
@[simp] theorem Chip.tick_ain (c : Chip) : c.tick.ain = c.ain := rfl
@[simp] theorem Chip.tick_pow (c : Chip) : c.tick.pow = c.pow := rfl
@[simp] theorem Chip.tick_twin (c : Chip) : c.tick.twin = c.twin := rfl
@[simp] theorem Chip.tick_boot (c : Chip) : c.tick.boot = c.boot := rfl
@[simp] theorem Chip.begin_out (c : Chip) : c.begin.out = [] := rfl
@[simp] theorem Chip.begin_held (c : Chip) : c.begin.held = c.held := rfl
@[simp] theorem Chip.begin_clk (c : Chip) : c.begin.clk = c.clk := rfl
@[simp] theorem Chip.begin_fresh (c : Chip) : c.begin.fresh = c.fresh := rfl
@[simp] theorem Chip.begin_audioOnce (c : Chip) : c.begin.audioOnce = c.audioOnce := rfl
@[simp] theorem Chip.begin_sys (c : Chip) : c.begin.sys = c.sys := rfl
@[simp] theorem Chip.begin_err (c : Chip) : c.begin.err = c.err := rfl
@[simp] theorem Chip.begin_mem (c : Chip) : c.begin.mem = c.mem := rfl
@[simp] theorem Chip.begin_bus (c : Chip) : c.begin.bus = c.bus := rfl
@[simp] theorem Chip.begin_host (c : Chip) : c.begin.host = c.host := rfl
@[simp] theorem Chip.begin_mbx (c : Chip) : c.begin.mbx = c.mbx := rfl
@[simp] theorem Chip.begin_cmd (c : Chip) : c.begin.cmd = c.cmd := rfl
@[simp] theorem Chip.begin_graph (c : Chip) : c.begin.graph = c.graph := rfl
@[simp] theorem Chip.begin_macs (c : Chip) : c.begin.macs = c.macs := rfl
@[simp] theorem Chip.begin_drop (c : Chip) : c.begin.drop = c.drop := rfl
@[simp] theorem Chip.begin_flow (c : Chip) : c.begin.flow = c.flow := rfl
@[simp] theorem Chip.begin_ref (c : Chip) : c.begin.ref = c.ref := rfl
@[simp] theorem Chip.begin_ptp (c : Chip) : c.begin.ptp = c.ptp := rfl
@[simp] theorem Chip.begin_clock (c : Chip) : c.begin.clock = c.clock := rfl
@[simp] theorem Chip.begin_sap (c : Chip) : c.begin.sap = c.sap := rfl
@[simp] theorem Chip.begin_ain (c : Chip) : c.begin.ain = c.ain := rfl
@[simp] theorem Chip.begin_pow (c : Chip) : c.begin.pow = c.pow := rfl
@[simp] theorem Chip.begin_twin (c : Chip) : c.begin.twin = c.twin := rfl
@[simp] theorem Chip.begin_boot (c : Chip) : c.begin.boot = c.boot := rfl

/-! Time: only the CORE clock and the PTP counter move -/

@[simp] theorem Chip.advance_out (t : Nat) (c : Chip) : (c.advance t).out = c.out := by
  unfold Chip.advance; split <;> rfl
@[simp] theorem Chip.advance_held (t : Nat) (c : Chip) : (c.advance t).held = c.held := by
  unfold Chip.advance; split <;> rfl
@[simp] theorem Chip.advance_fresh (t : Nat) (c : Chip) : (c.advance t).fresh = c.fresh := by
  unfold Chip.advance; split <;> rfl
@[simp] theorem Chip.advance_audioOnce (t : Nat) (c : Chip) : (c.advance t).audioOnce = c.audioOnce := by
  unfold Chip.advance; split <;> rfl
@[simp] theorem Chip.advance_sys (t : Nat) (c : Chip) : (c.advance t).sys = c.sys := by
  unfold Chip.advance; split <;> rfl
@[simp] theorem Chip.advance_err (t : Nat) (c : Chip) : (c.advance t).err = c.err := by
  unfold Chip.advance; split <;> rfl
@[simp] theorem Chip.advance_mem (t : Nat) (c : Chip) : (c.advance t).mem = c.mem := by
  unfold Chip.advance; split <;> rfl
@[simp] theorem Chip.advance_bus (t : Nat) (c : Chip) : (c.advance t).bus = c.bus := by
  unfold Chip.advance; split <;> rfl
@[simp] theorem Chip.advance_host (t : Nat) (c : Chip) : (c.advance t).host = c.host := by
  unfold Chip.advance; split <;> rfl
@[simp] theorem Chip.advance_mbx (t : Nat) (c : Chip) : (c.advance t).mbx = c.mbx := by
  unfold Chip.advance; split <;> rfl
@[simp] theorem Chip.advance_cmd (t : Nat) (c : Chip) : (c.advance t).cmd = c.cmd := by
  unfold Chip.advance; split <;> rfl
@[simp] theorem Chip.advance_graph (t : Nat) (c : Chip) : (c.advance t).graph = c.graph := by
  unfold Chip.advance; split <;> rfl
@[simp] theorem Chip.advance_macs (t : Nat) (c : Chip) : (c.advance t).macs = c.macs := by
  unfold Chip.advance; split <;> rfl
@[simp] theorem Chip.advance_drop (t : Nat) (c : Chip) : (c.advance t).drop = c.drop := by
  unfold Chip.advance; split <;> rfl
@[simp] theorem Chip.advance_flow (t : Nat) (c : Chip) : (c.advance t).flow = c.flow := by
  unfold Chip.advance; split <;> rfl
@[simp] theorem Chip.advance_ref (t : Nat) (c : Chip) : (c.advance t).ref = c.ref := by
  unfold Chip.advance; split <;> rfl
@[simp] theorem Chip.advance_clock (t : Nat) (c : Chip) : (c.advance t).clock = c.clock := by
  unfold Chip.advance; split <;> rfl
@[simp] theorem Chip.advance_sap (t : Nat) (c : Chip) : (c.advance t).sap = c.sap := by
  unfold Chip.advance; split <;> rfl
@[simp] theorem Chip.advance_ain (t : Nat) (c : Chip) : (c.advance t).ain = c.ain := by
  unfold Chip.advance; split <;> rfl
@[simp] theorem Chip.advance_pow (t : Nat) (c : Chip) : (c.advance t).pow = c.pow := by
  unfold Chip.advance; split <;> rfl
@[simp] theorem Chip.advance_twin (t : Nat) (c : Chip) : (c.advance t).twin = c.twin := by
  unfold Chip.advance; split <;> rfl
@[simp] theorem Chip.advance_boot (t : Nat) (c : Chip) : (c.advance t).boot = c.boot := by
  unfold Chip.advance; split <;> rfl

@[simp] theorem Chip.advance_clk (t : Nat) (c : Chip) : (c.advance t).clk = max c.clk t := by
  unfold Chip.advance
  split
  · next h => simp [Nat.max_eq_left h]
  · next h => simp [Nat.max_eq_right (Nat.le_of_lt (Nat.lt_of_not_le h))]

end Sys2Proof.Machine
end

