-- ==== Sys2Proof/Laws/Settle.lean ====
section
/-! SUPPORT. What settling a command can do: it writes the error records, the HOST block's interrupts and the outputs, and
nothing else; and what running a command answers. -/

namespace Sys2Proof.Machine

/-! Entering raises: only the records and the pulses of the HOST block -/

/-- The same part but for its error records and for pulses of the HOST block. -/
def Chip.ErrOnly (a b : Chip) : Prop :=
  ∃ e p, b = { a with err := e, host := { a.host with pulses := p } }

theorem Chip.ErrOnly.refl (a : Chip) : a.ErrOnly a := ⟨a.err, a.host.pulses, rfl⟩

theorem Chip.ErrOnly.trans {a b c : Chip} (h : a.ErrOnly b) (k : b.ErrOnly c) : a.ErrOnly c := by
  obtain ⟨e, p, rfl⟩ := h
  obtain ⟨e', p', rfl⟩ := k
  exact ⟨e', p', rfl⟩

theorem Chip.errOnly_onErr (f : Err → Err) (c : Chip) : c.ErrOnly (c.onErr f) := ⟨f c.err, c.host.pulses, rfl⟩

theorem Chip.errOnly_pulse (v : Fin 32) (c : Chip) : c.ErrOnly (c.onHost fun h => { h with pulses := v :: h.pulses }) :=
  ⟨c.err, v :: c.host.pulses, rfl⟩

theorem Chip.errOnly_lose (r : Rec) (c : Chip) : c.ErrOnly (c.lose r) := by
  unfold Chip.lose; exact errOnly_onErr _ _

theorem Chip.errOnly_fatal (r : Rec) (c : Chip) : c.ErrOnly (c.fatal r) := by
  unfold Chip.fatal; exact errOnly_onErr _ _

theorem Chip.errOnly_raise (code : Nat) (cls : Cls) (d : Nat) (b : Option Nat) (c : Chip) : c.ErrOnly (c.raise code cls d b) :=
  ⟨_, c.host.pulses, rfl⟩

theorem Chip.errOnly_noteLoss (r : Rec) (c : Chip) : c.ErrOnly (c.noteLoss r) := by
  unfold Chip.noteLoss
  split
  · exact .refl _
  · dsimp only
    split
    · exact (errOnly_onErr _ _).trans (errOnly_onErr _ _)
    · split
      · exact errOnly_onErr _ _
      · exact (errOnly_onErr _ _).trans (errOnly_lose _ _)

theorem Chip.errOnly_enter1 (r : Rec) (c : Chip) : c.ErrOnly (c.enter1 r) := by
  have key : ∀ {a b : Chip} {x : Rec} {q : Prop} [Decidable q], a.ErrOnly b → a.ErrOnly (if q then b.fatal x else b) := by
    intro a b x q _ h
    split
    · exact h.trans (errOnly_fatal x b)
    · exact h
  unfold Chip.enter1
  apply key
  split
  · exact (errOnly_onErr _ _).trans (errOnly_onErr _ _)
  · split
    · exact errOnly_onErr _ _
    · split
      · split
        · exact (errOnly_onErr _ _).trans (errOnly_onErr _ _)
        · exact ((errOnly_onErr _ _).trans (errOnly_onErr _ _)).trans (errOnly_pulse _ _)
      · exact ((errOnly_onErr _ _).trans (errOnly_lose _ _)).trans (errOnly_noteLoss _ _)

theorem Chip.errOnly_enterAll (c : Chip) : c.ErrOnly c.enterAll := by
  unfold Chip.enterAll
  refine (errOnly_onErr (fun e => { e with raising := [] }) c).trans ?_
  generalize c.onErr (fun e => { e with raising := [] }) = a
  generalize List.foldl (fun a r => insertRec r a) [] c.err.raising = rs
  induction rs generalizing a with
  | nil => exact .refl _
  | cons r rs ih => exact (errOnly_enter1 r a).trans (ih _)

/-! Interrupts: only the HOST block's pending bits, and messages -/

/-- The same part but for the interrupts of the HOST block, and with more outputs. -/
def Chip.IrqOnly (a b : Chip) : Prop :=
  ∃ (pend : Word) (sent : Word × Word) (p : List (Fin 32)) (o : List Out),
    b = { a with out := a.out ++ o, host := { a.host with pend := pend, msixSent := sent, pulses := p } }

theorem Chip.IrqOnly.trans {a b c : Chip} (h : a.IrqOnly b) (k : b.IrqOnly c) : a.IrqOnly c := by
  obtain ⟨x, y, z, o, rfl⟩ := h
  obtain ⟨x', y', z', o', rfl⟩ := k
  exact ⟨x', y', z', o ++ o', by simp⟩

theorem Chip.irqOnly_deliver (c : Chip) (v : Nat) : c.IrqOnly (c.deliver v) := by
  unfold Chip.deliver
  dsimp only
  split
  · exact ⟨c.host.pend, _, c.host.pulses, [c.host.message v], rfl⟩
  · exact ⟨c.host.pend, c.host.msixSent, c.host.pulses, [], by simp⟩

theorem Chip.irqOnly_settleIrq (c : Chip) : c.IrqOnly c.settleIrq := by
  unfold Chip.settleIrq
  have fold : ∀ (l : List Nat) (a : Chip), a.IrqOnly (l.foldl Chip.deliver a) := by
    intro l
    induction l with
    | nil => exact fun a => ⟨a.host.pend, a.host.msixSent, a.host.pulses, [], by simp⟩
    | cons v l ih => exact fun a => (irqOnly_deliver a v).trans (ih _)
  refine Chip.IrqOnly.trans ?_ (fold _ _)
  exact ⟨_, _, [], [], by simp [Chip.onHost]; exact ⟨rfl, rfl⟩⟩

/-- Settling writes the error records, the interrupts and the outputs. -/
theorem Chip.settle_shape (c : Chip) :
    ∃ (e : Err) (pend : Word) (sent : Word × Word) (p : List (Fin 32)) (o : List Out),
      c.settle = { c with out := c.out ++ o, err := e, host := { c.host with pend := pend, msixSent := sent, pulses := p } } := by
  obtain ⟨e, p, h⟩ := errOnly_enterAll c
  obtain ⟨x, y, z, o, k⟩ := irqOnly_settleIrq c.enterAll
  refine ⟨e, x, y, z, o, ?_⟩
  unfold Chip.settle
  rw [k, h]

@[simp] theorem Chip.settle_held (c : Chip) : c.settle.held = c.held := by
  obtain ⟨_, _, _, _, _, h⟩ := c.settle_shape; rw [h]
@[simp] theorem Chip.settle_clk (c : Chip) : c.settle.clk = c.clk := by
  obtain ⟨_, _, _, _, _, h⟩ := c.settle_shape; rw [h]
@[simp] theorem Chip.settle_fresh (c : Chip) : c.settle.fresh = c.fresh := by
  obtain ⟨_, _, _, _, _, h⟩ := c.settle_shape; rw [h]
@[simp] theorem Chip.settle_audioOnce (c : Chip) : c.settle.audioOnce = c.audioOnce := by
  obtain ⟨_, _, _, _, _, h⟩ := c.settle_shape; rw [h]
@[simp] theorem Chip.settle_sys (c : Chip) : c.settle.sys = c.sys := by
  obtain ⟨_, _, _, _, _, h⟩ := c.settle_shape; rw [h]
@[simp] theorem Chip.settle_mem (c : Chip) : c.settle.mem = c.mem := by
  obtain ⟨_, _, _, _, _, h⟩ := c.settle_shape; rw [h]
@[simp] theorem Chip.settle_bus (c : Chip) : c.settle.bus = c.bus := by
  obtain ⟨_, _, _, _, _, h⟩ := c.settle_shape; rw [h]
@[simp] theorem Chip.settle_mbx (c : Chip) : c.settle.mbx = c.mbx := by
  obtain ⟨_, _, _, _, _, h⟩ := c.settle_shape; rw [h]
@[simp] theorem Chip.settle_cmd (c : Chip) : c.settle.cmd = c.cmd := by
  obtain ⟨_, _, _, _, _, h⟩ := c.settle_shape; rw [h]
@[simp] theorem Chip.settle_graph (c : Chip) : c.settle.graph = c.graph := by
  obtain ⟨_, _, _, _, _, h⟩ := c.settle_shape; rw [h]
@[simp] theorem Chip.settle_macs (c : Chip) : c.settle.macs = c.macs := by
  obtain ⟨_, _, _, _, _, h⟩ := c.settle_shape; rw [h]
@[simp] theorem Chip.settle_drop (c : Chip) : c.settle.drop = c.drop := by
  obtain ⟨_, _, _, _, _, h⟩ := c.settle_shape; rw [h]
@[simp] theorem Chip.settle_flow (c : Chip) : c.settle.flow = c.flow := by
  obtain ⟨_, _, _, _, _, h⟩ := c.settle_shape; rw [h]
@[simp] theorem Chip.settle_ref (c : Chip) : c.settle.ref = c.ref := by
  obtain ⟨_, _, _, _, _, h⟩ := c.settle_shape; rw [h]
@[simp] theorem Chip.settle_ptp (c : Chip) : c.settle.ptp = c.ptp := by
  obtain ⟨_, _, _, _, _, h⟩ := c.settle_shape; rw [h]
@[simp] theorem Chip.settle_clock (c : Chip) : c.settle.clock = c.clock := by
  obtain ⟨_, _, _, _, _, h⟩ := c.settle_shape; rw [h]
@[simp] theorem Chip.settle_sap (c : Chip) : c.settle.sap = c.sap := by
  obtain ⟨_, _, _, _, _, h⟩ := c.settle_shape; rw [h]
@[simp] theorem Chip.settle_ain (c : Chip) : c.settle.ain = c.ain := by
  obtain ⟨_, _, _, _, _, h⟩ := c.settle_shape; rw [h]
@[simp] theorem Chip.settle_pow (c : Chip) : c.settle.pow = c.pow := by
  obtain ⟨_, _, _, _, _, h⟩ := c.settle_shape; rw [h]
@[simp] theorem Chip.settle_twin (c : Chip) : c.settle.twin = c.twin := by
  obtain ⟨_, _, _, _, _, h⟩ := c.settle_shape; rw [h]
@[simp] theorem Chip.settle_boot (c : Chip) : c.settle.boot = c.boot := by
  obtain ⟨_, _, _, _, _, h⟩ := c.settle_shape; rw [h]

/-- The HOST block but for its interrupts. -/
@[simp] theorem Chip.settle_bare (c : Chip) : c.settle.host.bare = c.host.bare := by
  obtain ⟨_, _, _, _, _, h⟩ := c.settle_shape; rw [h]; rfl

/-- The outputs of a command stay, and interrupt messages come after them. -/
theorem Chip.settle_out (c : Chip) : ∃ o, c.settle.out = c.out ++ o := by
  obtain ⟨_, _, _, _, o, h⟩ := c.settle_shape; exact ⟨o, by rw [h]⟩

theorem Chip.mem_settle_out {c : Chip} {x : Out} (h : x ∈ c.out) : x ∈ c.settle.out := by
  obtain ⟨o, k⟩ := c.settle_out; rw [k]; exact List.mem_append_left _ h

/-- The interrupts do not touch the error records. -/
@[simp] theorem Chip.settle_err (c : Chip) : c.settle.err = c.enterAll.err := by
  obtain ⟨_, _, _, _, k⟩ := irqOnly_settleIrq c.enterAll
  unfold Chip.settle; rw [k]

/-- With nothing raised the records stay. -/
theorem Chip.settle_quiet {c : Chip} (h : c.err.raising = []) : c.settle.err = c.err := by
  rw [settle_err]
  unfold Chip.enterAll
  simp [h, Chip.onErr]
  rw [← h]

/-- The raises are all recorded. -/
theorem Chip.settle_frame (c : Chip) : c.keeps [.out, .irq, .err] c.settle := by
  intro p hp
  cases p <;> simp_all [Piece.same]

/-- With nothing raised only interrupts and outputs change. -/
theorem Chip.settle_frame_quiet {c : Chip} (h : c.err.raising = []) : c.keeps [.out, .irq] c.settle := by
  intro p hp
  cases p <;> simp_all [Piece.same]
  exact (settle_err c ▸ settle_quiet h).symm

/-! What entering raises reads -/

/-- The same error records and the same block cycle: all that entering raises reads. -/
def Chip.ErrSys (a b : Chip) : Prop := a.err = b.err ∧ a.sys = b.sys

theorem Chip.ErrSys.item {a b : Chip} (h : a.ErrSys b) (f : Nat) : a.errItem f = b.errItem f := by
  unfold Chip.errItem Chip.itN Chip.it; rw [h.2]

theorem Chip.ErrSys.onErr {a b : Chip} (h : a.ErrSys b) (f : Err → Err) : (a.onErr f).ErrSys (b.onErr f) :=
  ⟨congrArg f h.1, h.2⟩

theorem Chip.ErrSys.onHost {a b : Chip} (h : a.ErrSys b) (f g : HostUnit → HostUnit) : (a.onHost f).ErrSys (b.onHost g) := h

theorem Chip.ErrSys.lose {a b : Chip} (h : a.ErrSys b) (r : Rec) : (a.lose r).ErrSys (b.lose r) := by
  unfold Chip.lose; rw [h.item]; exact h.onErr _

theorem Chip.ErrSys.fatal {a b : Chip} (h : a.ErrSys b) (r : Rec) : (a.fatal r).ErrSys (b.fatal r) := by
  unfold Chip.fatal; rw [h.item]; exact h.onErr _

theorem Chip.ErrSys.ite {a b a' b' : Chip} {p : Prop} [Decidable p] (h : a.ErrSys b) (k : a'.ErrSys b') :
    (if p then a else a').ErrSys (if p then b else b') := by
  split
  · exact h
  · exact k

theorem Chip.ErrSys.noteLoss {a b : Chip} (h : a.ErrSys b) (r : Rec) : (a.noteLoss r).ErrSys (b.noteLoss r) := by
  unfold Chip.noteLoss
  dsimp only
  rw [h.1, h.2]
  have k := h.onErr (fun e => { e with seen := (0x0301, 0) :: e.seen, notes := e.notes + 1, nextSeq := e.nextSeq + 1 })
  refine .ite h ?_
  rw [k.1, k.item]
  exact .ite (k.onErr _) (.ite k (k.lose _))

theorem Chip.ErrSys.enter1 {a b : Chip} (h : a.ErrSys b) (r : Rec) : (a.enter1 r).ErrSys (b.enter1 r) := by
  unfold Chip.enter1
  dsimp only
  rw [h.1]
  have k := h.onErr (fun e => { e.count r.cls with nextSeq := e.nextSeq + 1 })
  have ki := k.item
  have inner : ∀ {x y : Chip}, x.ErrSys y → (if r.cls = .fatal then x.fatal { r with safe := b.err.safe, during := !b.err.safe && (b.err.handling.isSome || b.err.entry.isSome), seq := b.err.nextSeq } else x).ErrSys (if r.cls = .fatal then y.fatal { r with safe := b.err.safe, during := !b.err.safe && (b.err.handling.isSome || b.err.entry.isSome), seq := b.err.nextSeq } else y) :=
    fun h => .ite (h.fatal _) h
  apply inner
  rw [ki]
  exact .ite (k.onErr _) (.ite k (.ite (.ite (k.onErr _) ((k.onErr _).onHost _ _)) ((k.lose _).noteLoss _)))

theorem Chip.ErrSys.enterAll {a b : Chip} (h : a.ErrSys b) : a.enterAll.ErrSys b.enterAll := by
  unfold Chip.enterAll
  rw [h.1]
  have k : (a.onErr fun e => { e with raising := [] }).ErrSys (b.onErr fun e => { e with raising := [] }) := h.onErr _
  revert k
  generalize a.onErr (fun e => { e with raising := [] }) = x
  generalize b.onErr (fun e => { e with raising := [] }) = y
  generalize List.foldl (fun a r => insertRec r a) [] b.err.raising = rs
  intro k
  induction rs generalizing x y with
  | nil => exact k
  | cons r rs ih => exact ih _ _ (k.enter1 r)

/-- What one raise makes of the records depends on the records and the block cycle alone. -/
theorem Chip.recorded_eq {a c : Chip} {code : Nat} {cls : Cls} {d : Nat} (h : a.err = (c.raise code cls d).err) (k : a.sys = c.sys) :
    a.enterAll.err = c.recorded code cls d := (Chip.ErrSys.enterAll (b := c.begin.raise code cls d) ⟨h, k⟩).1

/-! Running a command -/

/-- A command answers a next state, and leaves the queue and the hampers. -/
theorem act_next (f : Chip → Chip) (s : State) :
    act f s = .next { s with chip := if s.chip.held then s.chip.begin else (f s.chip.begin).settle } := rfl

/-- A command on a part that is not held in reset. -/
theorem act_live (f : Chip → Chip) {s : State} (h : s.chip.held = false) :
    act f s = .next { s with chip := (f s.chip.begin).settle } := by simp [act_next, h]

/-- A command that may move hampers, on a part that is not held in reset. -/
theorem actHam_live (f : Hamper × Chip → Hamper × Chip) {s : State} (h : s.chip.held = false) :
    actHam f s = .next { s with ham := (f (s.ham, s.chip.begin)).1, chip := (f (s.ham, s.chip.begin)).2.settle } := by
  simp [actHam, h]

/-- While RESET_N is low a command drops the outputs of the one before, and no more. -/
theorem actHam_held (f : Hamper × Chip → Hamper × Chip) {s : State} (h : s.chip.held = true) :
    actHam f s = .next { s with chip := s.chip.begin } := by simp [actHam, h]

/-- How a statement about a command without hampers is reached: from its effect on the part before settling. -/
theorem completes_act {i : Instr} {s : State} {named : List Piece} {P : Chip → Prop} (f : Chip → Chip)
    (hi : Sys2Proof.Machine.exec i s = act f s) (hl : s.live)
    (hk : s.chip.begin.keeps ([.out, .irq] ++ named) (f s.chip.begin)) (hp : P (f s.chip.begin).settle) :
    Completes i s named P := by
  refine ⟨{ s with chip := (f s.chip.begin).settle }, by rw [hi, act_live f hl.1], rfl, rfl, ?_, hp⟩
  intro p hn
  have h1 := hk p hn
  have h2 : p.same (f s.chip.begin) (f s.chip.begin).settle := by
    by_cases he : Piece.err ∈ named
    · exact Chip.settle_frame _ p (fun h => hn (by simp at h ⊢; rcases h with h | h | h <;> simp_all))
    · have hr : (f s.chip.begin).err.raising = [] := by
        have : s.chip.begin.err = (f s.chip.begin).err := hk .err (by simpa using he)
        rw [← this]; exact hl.2.1
      exact Chip.settle_frame_quiet hr p (fun h => hn (by simp at h ⊢; tauto))
  cases p <;> simp_all [Piece.same]

end Sys2Proof.Machine
end

