-- ==== Sys2Proof/Laws/Keeps.lean ====
section
/-! SUPPORT. Frames, composed: a part that keeps all but some pieces still does after a further update of one of them. A
proof of a frame applies these from the last update back to the first. -/

namespace Sys2Proof.Machine

variable {L : List Piece} {a b c : Chip}

theorem Piece.same_refl (p : Piece) (a : Chip) : p.same a a := by cases p <;> simp [Piece.same]

theorem Piece.same_trans {p : Piece} (h : p.same a b) (k : p.same b c) : p.same a c := by
  cases p <;> simp_all [Piece.same]

theorem Chip.keeps.refl (L : List Piece) (a : Chip) : a.keeps L a := fun p _ => p.same_refl a

theorem Chip.keeps.trans (h : a.keeps L b) (k : b.keeps L c) : a.keeps L c := fun p hp => Piece.same_trans (h p hp) (k p hp)

theorem Chip.keeps.mono {M : List Piece} (h : a.keeps L b) (k : ∀ p ∈ L, p ∈ M) : a.keeps M b := fun p hp => h p (fun m => hp (k p m))

theorem Chip.keeps.ite {p : Prop} [Decidable p] (h : a.keeps L b) (k : a.keeps L c) : a.keeps L (if p then b else c) := by
  split
  · exact h
  · exact k

/-- A fold of updates each of which keeps the pieces. -/
theorem Chip.keeps.foldl {β : Type} (f : Chip → β → Chip) (l : List β) (h : a.keeps L b) (k : ∀ (x : Chip) (y : β), x.keeps L (f x y)) :
    a.keeps L (l.foldl f b) := by
  induction l generalizing b with
  | nil => exact h
  | cons y l ih => exact ih (h.trans (k b y))

theorem Chip.keeps.onErr {f : Err → Err} (m : Piece.err ∈ L) (h : a.keeps L b) : a.keeps L (b.onErr f) :=
  h.trans fun p hp => by cases p <;> first | rfl | exact absurd m hp | exact ⟨rfl, rfl, rfl⟩

theorem Chip.keeps.onMem {f : MemUnit → MemUnit} (m : Piece.mem ∈ L) (h : a.keeps L b) : a.keeps L (b.onMem f) :=
  h.trans fun p hp => by cases p <;> first | rfl | exact absurd m hp | exact ⟨rfl, rfl, rfl⟩

theorem Chip.keeps.onBus {f : BusUnit → BusUnit} (m : Piece.bus ∈ L) (h : a.keeps L b) : a.keeps L (b.onBus f) :=
  h.trans fun p hp => by cases p <;> first | rfl | exact absurd m hp | exact ⟨rfl, rfl, rfl⟩

theorem Chip.keeps.onMbx {f : Mbx → Mbx} (m : Piece.mbx ∈ L) (h : a.keeps L b) : a.keeps L (b.onMbx f) :=
  h.trans fun p hp => by cases p <;> first | rfl | exact absurd m hp | exact ⟨rfl, rfl, rfl⟩

theorem Chip.keeps.onCmd {f : Cmd → Cmd} (m : Piece.cmd ∈ L) (h : a.keeps L b) : a.keeps L (b.onCmd f) :=
  h.trans fun p hp => by cases p <;> first | rfl | exact absurd m hp | exact ⟨rfl, rfl, rfl⟩

theorem Chip.keeps.onSys {f : Sys → Sys} (m : Piece.sys ∈ L) (h : a.keeps L b) : a.keeps L (b.onSys f) :=
  h.trans fun p hp => by cases p <;> first | rfl | exact absurd m hp | exact ⟨rfl, rfl, rfl⟩

theorem Chip.keeps.onGraph {f : Graph → Graph} (m : Piece.graph ∈ L) (h : a.keeps L b) : a.keeps L (b.onGraph f) :=
  h.trans fun p hp => by cases p <;> first | rfl | exact absurd m hp | exact ⟨rfl, rfl, rfl⟩

theorem Chip.keeps.onDrop {f : DropUnit → DropUnit} (m : Piece.drop ∈ L) (h : a.keeps L b) : a.keeps L (b.onDrop f) :=
  h.trans fun p hp => by cases p <;> first | rfl | exact absurd m hp | exact ⟨rfl, rfl, rfl⟩

theorem Chip.keeps.onFlow {f : FlowUnit → FlowUnit} (m : Piece.flow ∈ L) (h : a.keeps L b) : a.keeps L (b.onFlow f) :=
  h.trans fun p hp => by cases p <;> first | rfl | exact absurd m hp | exact ⟨rfl, rfl, rfl⟩

theorem Chip.keeps.onRef {f : Ref → Ref} (m : Piece.ref ∈ L) (h : a.keeps L b) : a.keeps L (b.onRef f) :=
  h.trans fun p hp => by cases p <;> first | rfl | exact absurd m hp | exact ⟨rfl, rfl, rfl⟩

theorem Chip.keeps.onPtp {f : Ptp → Ptp} (m : Piece.ptp ∈ L) (h : a.keeps L b) : a.keeps L (b.onPtp f) :=
  h.trans fun p hp => by cases p <;> first | rfl | exact absurd m hp | exact ⟨rfl, rfl, rfl⟩

theorem Chip.keeps.onSap {f : Sap → Sap} (m : Piece.sap ∈ L) (h : a.keeps L b) : a.keeps L (b.onSap f) :=
  h.trans fun p hp => by cases p <;> first | rfl | exact absurd m hp | exact ⟨rfl, rfl, rfl⟩

theorem Chip.keeps.onAin {f : Ain → Ain} (m : Piece.ain ∈ L) (h : a.keeps L b) : a.keeps L (b.onAin f) :=
  h.trans fun p hp => by cases p <;> first | rfl | exact absurd m hp | exact ⟨rfl, rfl, rfl⟩

theorem Chip.keeps.onPow {f : Pow → Pow} (m : Piece.pow ∈ L) (h : a.keeps L b) : a.keeps L (b.onPow f) :=
  h.trans fun p hp => by cases p <;> first | rfl | exact absurd m hp | exact ⟨rfl, rfl, rfl⟩

theorem Chip.keeps.onTwin {f : Twin → Twin} (m : Piece.twin ∈ L) (h : a.keeps L b) : a.keeps L (b.onTwin f) :=
  h.trans fun p hp => by cases p <;> first | rfl | exact absurd m hp | exact ⟨rfl, rfl, rfl⟩

theorem Chip.keeps.onBoot {f : Boot → Boot} (m : Piece.boot ∈ L) (h : a.keeps L b) : a.keeps L (b.onBoot f) :=
  h.trans fun p hp => by cases p <;> first | rfl | exact absurd m hp | exact ⟨rfl, rfl, rfl⟩

theorem Chip.keeps.onHost {f : HostUnit → HostUnit} (m : Piece.host ∈ L) (n : Piece.irq ∈ L) (h : a.keeps L b) :
    a.keeps L (b.onHost f) :=
  h.trans fun p hp => by cases p <;> first | rfl | exact absurd m hp | exact absurd n hp

/-- A pulse. -/
theorem Chip.keeps.pulse {v : Fin 32} (n : Piece.irq ∈ L) (h : a.keeps L b) : a.keeps L (b.pulse v) :=
  h.trans fun p hp => by cases p <;> first | rfl | exact absurd n hp

theorem Chip.keeps.onMac {m : Nat} {f : Mac → Mac} (k : Piece.macs ∈ L) (h : a.keeps L b) : a.keeps L (b.onMac m f) :=
  h.trans fun p hp => by cases p <;> first | rfl | exact absurd k hp | exact ⟨rfl, rfl, rfl⟩

theorem Chip.keeps.emit {o : Out} (k : Piece.out ∈ L) (h : a.keeps L b) : a.keeps L (b.emit o) :=
  h.trans fun p hp => by cases p <;> first | rfl | exact absurd k hp | exact ⟨rfl, rfl, rfl⟩

theorem Chip.keeps.begin (k : Piece.out ∈ L) (h : a.keeps L b) : a.keeps L b.begin :=
  h.trans fun p hp => by cases p <;> first | rfl | exact absurd k hp | exact ⟨rfl, rfl, rfl⟩

theorem Chip.keeps.tick (k : Piece.fresh ∈ L) (h : a.keeps L b) : a.keeps L b.tick :=
  h.trans fun p hp => by cases p <;> first | rfl | exact absurd k hp | exact ⟨rfl, rfl, rfl⟩

theorem Chip.keeps.raise {code : Nat} {cls : Cls} {d : Nat} {k : Option Nat} (m : Piece.err ∈ L) (h : a.keeps L b) :
    a.keeps L (b.raise code cls d k) :=
  h.trans fun p hp => by cases p <;> first | rfl | exact absurd m hp | exact ⟨rfl, rfl, rfl⟩

theorem Chip.keeps.raiseFirst {code : Nat} {cls : Cls} {k d : Nat} (m : Piece.err ∈ L) (h : a.keeps L b) :
    a.keeps L (b.raiseFirst code cls k d) := by
  unfold Chip.raiseFirst
  exact .ite h (.raise m (h.trans fun p hp => by cases p <;> first | rfl | exact absurd m hp | exact ⟨rfl, rfl, rfl⟩))

theorem Chip.keeps.advance {t : Nat} (m : Piece.clk ∈ L) (n : Piece.ptp ∈ L) (h : a.keeps L b) : a.keeps L (b.advance t) := by
  unfold Chip.advance
  exact .ite h (h.trans fun p hp => by cases p <;> first | rfl | exact absurd m hp | exact absurd n hp | exact ⟨rfl, rfl, rfl⟩)

/-! What a frame says of the pieces that it does not name -/

theorem Chip.keeps.get_out (h : a.keeps L b) (n : Piece.out ∉ L := by decide) : b.out = a.out := (h .out n).symm

theorem Chip.keeps.get_held (h : a.keeps L b) (n : Piece.held ∉ L := by decide) : b.held = a.held := (h .held n).symm

theorem Chip.keeps.get_clk (h : a.keeps L b) (n : Piece.clk ∉ L := by decide) : b.clk = a.clk := (h .clk n).symm

theorem Chip.keeps.get_fresh (h : a.keeps L b) (n : Piece.fresh ∉ L := by decide) : b.fresh = a.fresh := (h .fresh n).symm

theorem Chip.keeps.get_audioOnce (h : a.keeps L b) (n : Piece.audioOnce ∉ L := by decide) : b.audioOnce = a.audioOnce := (h .audioOnce n).symm

theorem Chip.keeps.get_sys (h : a.keeps L b) (n : Piece.sys ∉ L := by decide) : b.sys = a.sys := (h .sys n).symm

theorem Chip.keeps.get_err (h : a.keeps L b) (n : Piece.err ∉ L := by decide) : b.err = a.err := (h .err n).symm

theorem Chip.keeps.get_mem (h : a.keeps L b) (n : Piece.mem ∉ L := by decide) : b.mem = a.mem := (h .mem n).symm

theorem Chip.keeps.get_bus (h : a.keeps L b) (n : Piece.bus ∉ L := by decide) : b.bus = a.bus := (h .bus n).symm

theorem Chip.keeps.get_host (h : a.keeps L b) (n : Piece.host ∉ L := by decide) : b.host.bare = a.host.bare := (h .host n).symm

theorem Chip.keeps.get_mbx (h : a.keeps L b) (n : Piece.mbx ∉ L := by decide) : b.mbx = a.mbx := (h .mbx n).symm

theorem Chip.keeps.get_cmd (h : a.keeps L b) (n : Piece.cmd ∉ L := by decide) : b.cmd = a.cmd := (h .cmd n).symm

theorem Chip.keeps.get_graph (h : a.keeps L b) (n : Piece.graph ∉ L := by decide) : b.graph = a.graph := (h .graph n).symm

theorem Chip.keeps.get_macs (h : a.keeps L b) (n : Piece.macs ∉ L := by decide) : b.macs = a.macs := (h .macs n).symm

theorem Chip.keeps.get_drop (h : a.keeps L b) (n : Piece.drop ∉ L := by decide) : b.drop = a.drop := (h .drop n).symm

theorem Chip.keeps.get_flow (h : a.keeps L b) (n : Piece.flow ∉ L := by decide) : b.flow = a.flow := (h .flow n).symm

theorem Chip.keeps.get_ref (h : a.keeps L b) (n : Piece.ref ∉ L := by decide) : b.ref = a.ref := (h .ref n).symm

theorem Chip.keeps.get_ptp (h : a.keeps L b) (n : Piece.ptp ∉ L := by decide) : b.ptp = a.ptp := (h .ptp n).symm

theorem Chip.keeps.get_clock (h : a.keeps L b) (n : Piece.clock ∉ L := by decide) : b.clock = a.clock := (h .clock n).symm

theorem Chip.keeps.get_sap (h : a.keeps L b) (n : Piece.sap ∉ L := by decide) : b.sap = a.sap := (h .sap n).symm

theorem Chip.keeps.get_ain (h : a.keeps L b) (n : Piece.ain ∉ L := by decide) : b.ain = a.ain := (h .ain n).symm

theorem Chip.keeps.get_pow (h : a.keeps L b) (n : Piece.pow ∉ L := by decide) : b.pow = a.pow := (h .pow n).symm

theorem Chip.keeps.get_twin (h : a.keeps L b) (n : Piece.twin ∉ L := by decide) : b.twin = a.twin := (h .twin n).symm

theorem Chip.keeps.get_boot (h : a.keeps L b) (n : Piece.boot ∉ L := by decide) : b.boot = a.boot := (h .boot n).symm

/-! Commands that come about at a CORE clock -/

theorem Chip.advance_ptp (t : Nat) (c : Chip) :
    (c.advance t).ptp = c.ptpAt (c.advance t).clk := by
  unfold Chip.advance Chip.ptpAt
  split
  · simp
  · simp_all

/-- How a statement about a command at CORE clock `t` is reached. -/
theorem completes_at {i : Instr} {s : State} {t : Nat} {named : List Piece} {P : Chip → Prop} (f : Chip → Chip)
    (hi : Sys2Proof.Machine.exec i s = act f s) (hl : s.live)
    (hn : Piece.clk ∉ named ∧ Piece.ptp ∉ named)
    (hk : (s.chip.begin.advance t).keeps ([.out, .irq] ++ named) (f s.chip.begin))
    (hp : P (f s.chip.begin).settle) : CompletesAt i s t named P := by
  refine completes_act _ hi hl ?_ ?_
  · refine Chip.keeps.trans (Chip.keeps.advance (by simp) (by simp) (.refl _ _)) (hk.mono ?_)
    intro p; simp; tauto
  · refine ⟨?_, ?_, hp⟩
    · rw [Chip.settle_clk, hk.get_clk (by simp [hn.1])]; simp
    · rw [Chip.settle_ptp, hk.get_ptp (by simp [hn.2]), Chip.settle_clk, hk.get_clk (by simp [hn.1]), Chip.advance_ptp]
      simp [Chip.ptpAt]

end Sys2Proof.Machine
end

