-- ==== Sys2Proof/Laws/Ain.lean ====
section
/-! SUPPORT. What the shared operations of the AIN block can do. -/

namespace Sys2Proof.Machine

/-- Nothing changes in what is reported, or the input's event bit is set with the block of the scan (09 R254). -/
theorem Chip.ainReport_cases (n : Nat) (b : AinIn) (c : Chip) :
    ((c.ainReport n b = c ∧ (c.ainIn n).inserted = b.inserted ∧ (c.ainIn n).cls = b.cls ∧
        ∀ k : Nat, k < 4 → (c.ainIn n).button k = b.button k) ∨
      c.ainReport n b = { c with ain := { c.ain with
        event := c.ain.event ||| BitVec.ofNat 32 (2 ^ n), eventBlk := c.ain.scanBlk } }) := by
  unfold Chip.ainReport
  dsimp only
  split
  · next h =>
    left
    simp only [Bool.and_eq_true, decide_eq_true_eq, List.all_eq_true, List.mem_range] at h
    exact ⟨rfl, h.1.1, h.1.2, fun k hk => h.2 k hk⟩
  · right; rfl

theorem Chip.onAinIn_ain {c : Chip} {n : Nat} {x : AinIn} (h : c.ain.ins[n]? = some x) (f : AinIn → AinIn) :
    (c.onAinIn n f).ain = { c.ain with ins := c.ain.ins.set n (f x) } := by
  simp [Chip.onAinIn, lmod_of_get h]

theorem Chip.onAinIn_get {c : Chip} {n : Nat} {x : AinIn} (h : c.ain.ins[n]? = some x) (f : AinIn → AinIn) :
    (c.onAinIn n f).ain.ins[n]? = some (f x) := by rw [onAinIn_ain h]; exact set_get h _

theorem Chip.ainIn_of_get {c : Chip} {n : Nat} {x : AinIn} (h : c.ain.ins[n]? = some x) : c.ainIn n = x := getD_of_get h _

/-! Frames -/

variable {L : List Piece} {a b : Chip}

theorem Chip.keeps.onAinIn {n : Nat} {f : AinIn → AinIn} (m : Piece.ain ∈ L) (h : a.keeps L b) : a.keeps L (b.onAinIn n f) := .onAin m h

theorem Chip.keeps.onContact {n : Nat} {f : Contact → Contact} (m : Piece.ain ∈ L) (h : a.keeps L b) :
    a.keeps L (b.onContact n f) := .onAin m h

theorem Chip.keeps.ainEvent {n : Nat} (m : Piece.ain ∈ L) (h : a.keeps L b) : a.keeps L (b.ainEvent n) := .onAin m h

theorem Chip.keeps.psuAlert {r : Bool} (m : Piece.ain ∈ L) (h : a.keeps L b) : a.keeps L (b.psuAlert r) := .onAin m h

theorem Chip.keeps.powerEvent (m : Piece.ain ∈ L) (h : a.keeps L b) : a.keeps L b.powerEvent := .psuAlert m (.ainEvent m h)

theorem Chip.keeps.ainReport {n : Nat} {x : AinIn} (m : Piece.ain ∈ L) (h : a.keeps L b) : a.keeps L (b.ainReport n x) := by
  unfold Chip.ainReport; exact .ite h (.ainEvent m h)

theorem Chip.keeps.contactReport {n : Nat} (m : Piece.ain ∈ L) (e : Piece.err ∈ L) (h : a.keeps L b) :
    a.keeps L (b.contactReport n) := by
  unfold Chip.contactReport
  have k := Chip.keeps.ainEvent (n := 16) m (Chip.keeps.onContact (n := n)
    (f := fun x => { x with st := match ((b.ain.contacts.getD n {}).chatter) with | some q => q.1 | none => (b.ain.contacts.getD n {}).deb }) m h)
  exact .ite h (.ite (.raise e k) (.ite (.raise e k) k))

theorem Chip.keeps.mainsFails (m : Piece.ain ∈ L) (e : Piece.err ∈ L) (h : a.keeps L b) : a.keeps L b.mainsFails := by
  unfold Chip.mainsFails
  exact .ite (.onAin m h) (.powerEvent m (.raise e (.onAin m h)))

end Sys2Proof.Machine
end

