-- ==== Sys2Proof/Laws/Memory.lean ====
section
/-! SUPPORT. The memory keeps its canonical form: addresses strictly rising, and no entry equal to what its address reads
as unlisted. -/

namespace Sys2Proof.Machine

variable {α : Type}

/-- Indices strictly rising. -/
def Rising (m : List (Nat × α)) : Prop := m.Pairwise fun a b => a.1 < b.1

theorem Rising.mset {m : List (Nat × α)} (h : Rising m) (k : Nat) (v : α) : Rising (mset m k v) ∧ ∀ j, (∀ p ∈ m, j < p.1) → j < k → ∀ p ∈ mset m k v, j < p.1 := by
  induction m with
  | nil => exact ⟨by simp [Machine.mset, Rising], fun j _ hk p hp => by simp [Machine.mset] at hp; rw [hp]; exact hk⟩
  | cons q m ih =>
    obtain ⟨i, w⟩ := q
    obtain ⟨h1, h2⟩ := List.pairwise_cons.mp h
    have ih := ih h2
    unfold Machine.mset
    split
    · next e =>
      refine ⟨List.pairwise_cons.mpr ⟨fun p hp => by have := h1 p hp; dsimp only at *; omega, h2⟩, fun j hj hk p hp => ?_⟩
      rcases List.mem_cons.mp hp with rfl | hp
      · exact hk
      · exact hj p (List.mem_cons_of_mem _ hp)
    · split
      · next e1 e2 =>
        refine ⟨List.pairwise_cons.mpr ⟨fun p hp => ?_, h⟩, fun j hj hk p hp => ?_⟩
        · rcases List.mem_cons.mp hp with rfl | hp
          · exact e2
          · exact Nat.lt_trans e2 (h1 p hp)
        · rcases List.mem_cons.mp hp with rfl | hp
          · exact hk
          · exact hj p hp
      · next e1 e2 =>
        refine ⟨List.pairwise_cons.mpr ⟨fun p hp => ih.2 i h1 (by omega) p hp, ih.1⟩, fun j hj hk p hp => ?_⟩
        rcases List.mem_cons.mp hp with rfl | hp
        · exact hj _ (List.mem_cons_self ..)
        · exact ih.2 j (fun p hp => hj p (List.mem_cons_of_mem _ hp)) hk p hp

theorem mdel_sublist (m : List (Nat × α)) (k : Nat) : (mdel m k).Sublist m := by
  induction m with
  | nil => exact List.Sublist.slnil
  | cons q m ih =>
    obtain ⟨i, w⟩ := q
    unfold mdel
    split
    · exact List.sublist_cons_self _ _
    · split
      · exact List.Sublist.refl _
      · exact ih.cons_cons _

theorem mem_mset {m : List (Nat × α)} {k : Nat} {v : α} {p : Nat × α} (h : p ∈ mset m k v) : p = (k, v) ∨ p ∈ m := by
  induction m with
  | nil => exact .inl (by simpa [mset] using h)
  | cons q m ih =>
    obtain ⟨i, w⟩ := q
    unfold mset at h
    split at h
    · rcases List.mem_cons.mp h with rfl | h
      · exact .inl rfl
      · exact .inr (List.mem_cons_of_mem _ h)
    · split at h
      · rcases List.mem_cons.mp h with rfl | h
        · exact .inl rfl
        · exact .inr h
      · rcases List.mem_cons.mp h with rfl | h
        · exact .inr (List.mem_cons_self ..)
        · rcases ih h with h | h
          · exact .inl h
          · exact .inr (List.mem_cons_of_mem _ h)

/-- The canonical form in words. -/
theorem Memory.wf_iff (m : Memory) : m.wf = true ↔ Rising m.cells ∧ ∀ p ∈ m.cells, ¬(p.2 = 0 ∧ m.zeroedAt p.1 = true) := by
  unfold Memory.wf Rising
  simp only [Bool.and_eq_true, decide_eq_true_eq, List.all_eq_true, Bool.not_eq_true', Bool.and_eq_false_imp, not_and, Bool.not_eq_true]

/-- A write of one byte keeps the form. -/
theorem Memory.wf_put {m : Memory} (h : m.wf = true) (a : Nat) (b : Byte) : (m.put a b).wf = true := by
  rw [wf_iff] at *
  unfold Memory.put
  split
  · exact ⟨h.1.sublist (mdel_sublist _ _), fun p hp => h.2 p ((mdel_sublist _ _).subset hp)⟩
  · next e =>
    refine ⟨(h.1.mset a b).1, fun p hp => ?_⟩
    rcases mem_mset hp with rfl | hp
    · exact fun ⟨e1, e2⟩ => e (by rw [Bool.and_eq_true, decide_eq_true_eq]; exact ⟨e1, e2⟩)
    · exact h.2 p hp

/-- A write of bytes keeps the form. -/
theorem Memory.wf_puts {m : Memory} (h : m.wf = true) (a : Nat) (bs : List Byte) : (m.puts a bs).wf = true := by
  induction bs generalizing m a with
  | nil => exact h
  | cons b bs ih => exact ih (wf_put h a b) (a + 1)

/-- Leaving entries out keeps the form. -/
theorem Memory.wf_sub {m : Memory} (h : m.wf = true) {cs : List (Nat × Byte)} (hs : cs.Sublist m.cells) :
    ({ m with cells := cs } : Memory).wf = true := by
  rw [wf_iff] at *
  exact ⟨h.1.sublist hs, fun p hp => h.2 p (hs.subset hp)⟩

/-- Writing a whole memory from an image keeps the form. -/
theorem Memory.wf_load {m : Memory} (h : m.wf = true) (n lo hi : Nat) : (m.load n lo hi).wf = true :=
  wf_sub h List.filter_sublist

/-- Filling an area with zeros keeps the form. -/
theorem Memory.wf_zero {m : Memory} (h : m.wf = true) (lo hi : Nat) : (m.zero lo hi).wf = true := by
  rw [wf_iff] at *
  refine ⟨h.1.sublist List.filter_sublist, fun p hp => ?_⟩
  obtain ⟨h1, h2⟩ := List.mem_filter.mp hp
  rintro ⟨e1, e2⟩
  refine h.2 p h1 ⟨e1, ?_⟩
  unfold Memory.zero Memory.zeroedAt at *
  dsimp only at e2
  split at e2
  · exact e2
  · rw [Bool.or_eq_true, List.any_cons, Bool.or_eq_true] at e2
    rcases e2 with e2 | e2 | e2
    · rw [e2]; rfl
    · simp at e2 h2; omega
    · rw [e2, Bool.or_true]

/-- Marks of ECC words are no bytes. -/
theorem Memory.wf_upset {m : Memory} (h : m.wf = true) (u : List (Nat × Bool)) : ({ m with upset := u } : Memory).wf = true := h

end Sys2Proof.Machine
end

