-- ==== Sys2Proof/Laws/Refs.lean ====
section
/-! SUPPORT. What the shared operations of the REF and PTP blocks can do. -/

namespace Sys2Proof.Machine

variable {L : List Piece} {a b : Chip}

theorem Chip.refIn_of_get {c : Chip} {x : Nat} {i : RefIn} (h : c.ref.ins[x]? = some i) : c.refIn x = i := getD_of_get h _

theorem Chip.onRefIn_ref {c : Chip} {x : Nat} {i : RefIn} (h : c.ref.ins[x]? = some i) (f : RefIn → RefIn) :
    (c.onRefIn x f).ref = { c.ref with ins := c.ref.ins.set x (f i) } := by
  simp [Chip.onRefIn, lmod_of_get h]

theorem Chip.keeps.onRefIn {x : Nat} {f : RefIn → RefIn} (m : Piece.ref ∈ L) (h : a.keeps L b) : a.keeps L (b.onRefIn x f) := .onRef m h

theorem Chip.keeps.onPort {x : Nat} {f : PtpPort → PtpPort} (m : Piece.ptp ∈ L) (h : a.keeps L b) : a.keeps L (b.onPort x f) := .onPtp m h

theorem Chip.keeps.ptpIdle {x : Nat} (m : Piece.ptp ∈ L) (h : a.keeps L b) : a.keeps L (b.ptpIdle x) := .onPort m h

theorem Chip.keeps.ptpUp {x : Nat} (m : Piece.ptp ∈ L) (h : a.keeps L b) : a.keeps L (b.ptpUp x) := .onPort m h

theorem Chip.keeps.ptpDown {x : Nat} (m : Piece.ptp ∈ L) (h : a.keeps L b) : a.keeps L (b.ptpDown x) := .onPort m h

theorem Chip.keeps.setFreq {f : Int} (m : Piece.ref ∈ L) (n : Piece.ptp ∈ L) (h : a.keeps L b) : a.keeps L (b.setFreq f) :=
  .onPtp n (.onRef m h)

theorem Chip.keeps.dpll {st : Dpll} (m : Piece.ref ∈ L) (h : a.keeps L b) : a.keeps L (b.dpll st) := by
  unfold Chip.dpll; exact .ite h (.onRef m h)

theorem Chip.keeps.holdover (m : Piece.ref ∈ L) (h : a.keeps L b) : a.keeps L b.holdover := .dpll m (.onRef m h)

theorem Chip.keeps.disqualify {x k : Nat} (m : Piece.ref ∈ L) (n : Piece.err ∈ L) (h : a.keeps L b) :
    a.keeps L (b.disqualify x k) := by
  unfold Chip.disqualify
  have j := Chip.keeps.onRefIn (x := x) (f := fun i => { i with qualified := false, eligible := false, warn := false, cause := k, goodSince := none }) m h
  exact .ite (.onRefIn m h) (.ite (.holdover m (.raise n j)) (.raise n j))

theorem Chip.keeps.lockWatch (m : Piece.ref ∈ L) (h : a.keeps L b) : a.keeps L b.lockWatch := .onRef m h

theorem Chip.keeps.refEvent {x : Nat} {ev : RefEv} (m : Piece.ref ∈ L) (n : Piece.err ∈ L) (h : a.keeps L b) :
    a.keeps L (b.refEvent x ev) := by
  unfold Chip.refEvent
  dsimp only
  refine .lockWatch m (.onRefIn m ?_)
  have j : ∀ {p : Prop} [Decidable p] {c : Chip} {f : Ref → Ref}, a.keeps L c → a.keeps L (if p then c.onRef f else c) :=
    fun k => .ite (.onRef m k) k
  split
  · exact .onRefIn m (.disqualify m n (j (.onRefIn m h)))
  · exact j (.onRefIn m h)

theorem Chip.keeps.refWarn {x : Nat} {d : Int} (m : Piece.ref ∈ L) (n : Piece.err ∈ L) (h : a.keeps L b) :
    a.keeps L (b.refWarn x d) := by
  unfold Chip.refWarn; exact .ite (.raise n (.onRefIn m h)) (.onRefIn m h)

theorem Chip.keeps.loscVote {d : Int} (m : Piece.ref ∈ L) (n : Piece.err ∈ L) (h : a.keeps L b) :
    a.keeps L (b.loscVote d) := by
  unfold Chip.loscVote
  dsimp only
  have j : a.keeps L (if (decide (100 * b.refSel 2 < d.natAbs) && !b.ref.loscDrift) = true then
      ((b.onRef fun r => { r with loscDrift := true, modelValid := false }).onRefIn 5 fun i => { i with eligible := false }).raise 0x0B06 .fault
    else b) := .ite (.raise n (.onRefIn m (.onRef m h))) h
  split
  · exact .ite (.onRef m (.onRef m j)) (.onRef m j)
  · exact .onRef m j

theorem Chip.keeps.driftVote (m : Piece.ref ∈ L) (n : Piece.err ∈ L) (h : a.keeps L b) : a.keeps L b.driftVote := by
  unfold Chip.driftVote
  refine .foldl _ _ ?_ fun c x => .ite (.ite (.onRefIn m (.refl _ _)) (.onRefIn m (.onRefIn m (.refl _ _)))) (.refl _ _)
  refine .ite (.foldl _ _ (.onRef m (.onRef m h)) fun c x => ?_) ?_
  · dsimp only
    split
    · exact .loscVote m n (.refWarn m n (.refl _ _))
    · exact .ite (.disqualify m n (.refWarn m n (.refl _ _))) (.refWarn m n (.refl _ _))
  · exact .loscVote m n (.foldl _ _ (.ite (.onRef m h) (.raise n (.onRef m (.onRef m h)))) fun c x => .refWarn m n (.refl _ _))

theorem Chip.keeps.steer (m : Piece.ref ∈ L) (n : Piece.ptp ∈ L) (h : a.keeps L b) : a.keeps L b.steer :=
  .lockWatch m (.onRef m (.setFreq m n h))

theorem Chip.keeps.modelUpdate {x : Int} (m : Piece.ref ∈ L) (h : a.keeps L b) : a.keeps L (b.modelUpdate x) := by
  unfold Chip.modelUpdate; exact .ite (.onRef m (.onRef m h)) (.onRef m h)

/-- A switch while audio runs leaves the time counter and the block cycle (11 R308). -/
theorem Chip.keeps.refSwitch {x : Nat} (m : Piece.ref ∈ L) (n : Piece.err ∈ L) (hb : b.audioOnce = true) (h : a.keeps L b) :
    a.keeps L (b.refSwitch x) := by
  unfold Chip.refSwitch
  have j : a.keeps L (((b.onRef fun r => { r with
      selected := x, switching := true, delta := b.refDeltaNow x, moved := 0, switches := r.switches + 1, holdSince := none, lockSince := none }).dpll .acquire).raise 0x0B03 .note x) :=
    .raise n (.dpll m (.onRef m h))
  dsimp only
  rw [if_pos (by unfold Chip.dpll; split <;> exact hb)]
  exact .ite (.raise n (.onRef m j)) j

end Sys2Proof.Machine
end

