-- ==== Sys2Proof/WellFormed.lean ====
section
/-! DEFINITION. Which commands the interfaces of the part can carry: parameter words that fit a packet's layout (14 R383),
measurements that come for every input (09 R251 to R259), captures of one block (01 R23), and host accesses whose bytes
are as many as their size (15 R404). The meanings do not rest on it: what an ill-formed packet gets is BAD_LENGTH. -/

namespace Sys2Proof

/-- A count within bounds. -/
def within (lo hi n : Nat) : Bool := lo ≤ n && n ≤ hi

/-- A block's words of a converter: at most 8, of 24 bits left-justified (02 R41, 09 R247). -/
def converterWords (ws : List (Option Word)) : Bool := ws.length ≤ 8 && ws.all fun w => w.all fun v => v.toNat % 256 = 0

/-- The captures of one block: 16 inputs, and sense taps 0 to 127. -/
def TickIn.wf (x : TickIn) : Bool :=
  x.ain.length ≤ 16 && x.ain.all converterWords && x.sense.all fun q => q.1 < 128 && converterWords q.2

/-- A scan measures 16 inputs, 32 contacts and 8 rails. -/
def ScanIn.wf (x : ScanIn) : Bool := x.inputs.length = 16 && x.loops.length = 32 && x.rails.length = 8

/-- A host access moves at least one byte, and a write carries as many as its size. -/
def BarReq.wf (r : BarReq) : Bool := 1 ≤ r.size && (!r.write || r.data.length = r.size)

/-- The command can be sent. -/
def Instr.wf (i : Instr) : Bool :=
  match i with
  | .tackSet _ items => within 1 20 items.length
  | .tackGet _ ids => within 1 20 ids.length
  | .pressedGet _ ids => within 1 29 ids.length
  | .snapshot _ ranges => within 1 29 ranges.length
  | .imageStage _ _ _ data => within 1 58 data.length
  | .sessionOpen _ nonce => nonce.length = 4
  | .blockTick inp => inp.wf
  | .ainScan x => x.wf
  | .barAccess r => r.wf
  | .romBoot _ records images => records.length = 2 && images.length = 2
  | _ => true

end Sys2Proof
end

