-- ==== Sys2Proof/Tests/Slice0.lean ====
section
/-! SUPPORT. Small tests: ill-formed commands are refused by the check, and every statement's hypotheses are met by some
state and operands. -/

namespace Sys2Proof.Tests

-- one test at a time: all the evaluations together take too much memory
set_option Elab.async false

open Sys2Proof.Machine

/-! WellFormed -/

/-- A request of the PCIe ring. -/
def hdr : Hdr := { via := .pcie, tag := 1 }

theorem test_wf_tackSet : (Instr.tackSet hdr []).wf = false := by decide
theorem test_wf_tackGet : (Instr.tackGet hdr []).wf = false := by decide
theorem test_wf_pressedGet : (Instr.pressedGet hdr []).wf = false := by decide
theorem test_wf_snapshot : (Instr.snapshot hdr []).wf = false := by decide
theorem test_wf_imageStage : (Instr.imageStage hdr 0 0 []).wf = false := by decide
theorem test_wf_sessionOpen : (Instr.sessionOpen hdr [0, 0, 0]).wf = false := by decide
theorem test_wf_tick_inputs : (Instr.blockTick { t := 0, ain := List.replicate 17 [] }).wf = false := by decide
theorem test_wf_tick_samples : (Instr.blockTick { t := 0, ain := [List.replicate 9 (some 0)] }).wf = false := by decide
theorem test_wf_tick_sense : (Instr.blockTick { t := 0, sense := [(128, [])] }).wf = false := by decide
theorem test_wf_ainScan : (Instr.ainScan { t := 0, inputs := [], loops := [], batt := 0, rails := [] }).wf = false := by decide
theorem test_wf_bar_size : (Instr.barAccess { bar2 := false, offset := 0, size := 0, write := false }).wf = false := by decide
theorem test_wf_bar_data : (Instr.barAccess { bar2 := false, offset := 0, size := 4, write := true }).wf = false := by decide
theorem test_wf_romBoot : (Instr.romBoot true [] []).wf = false := by decide
theorem test_wf_hello : (Instr.hello hdr 0).wf = true := by decide

/-! States for the witnesses -/

/-- A few hamper buffers. -/
def small : Hamper := { free := [7, 8], rings := List.replicate 24 {} }

/-- The part after reset, and a state with this part and no waiting commands. -/
def up : Chip := State.reset.chip
def on (c : Chip) : State := { State.reset with ham := small, chip := c }
theorem live_on (s : State) (h : s.chip.held = false ∧ s.chip.err.raising = [] ∧ s.chip.host.pulses = []) : s.live :=
  h

/-- The part with these items in force. -/
def pressed (l : Items) (c : Chip) : Chip := c.onSys fun z => { z with now := { z.now with items := l } }

/-! Witnesses: every statement's hypotheses are met -/

theorem witness_FrontCommandRuns : State.reset.pending = [] := rfl
theorem witness_QueueUntouched :
    ∃ t, Sys2Proof.Machine.exec (.batteryCondition true) State.reset = .next t := ⟨_, rfl⟩
theorem whole_of_free (h : Hamper) (l : List Nat) (h1 : h.free = l)
    (h2 : (h.rings.flatMap fun r => r.posted ++ r.asm ++ r.held) = []) (h3 : l = List.range 16384) : h.whole := by
  unfold Hamper.whole; rw [h2, List.append_nil, h1, h3]
theorem reset_rings : State.reset.ham.rings = List.replicate 24 {} := rfl
theorem reset_free : State.reset.ham.free = List.range 16384 := by with_reducible_and_instances (unfold State.reset; dsimp only)
theorem witness_HampersConserved : State.reset.ham.whole ∧ Steps State.reset State.reset :=
  ⟨whole_of_free _ _ reset_free (by rw [reset_rings]; rfl) rfl, rfl⟩
theorem witness_MemoryCanonical : State.reset.chip.mem.bytes.wf = true ∧ Steps State.reset State.reset := ⟨rfl, rfl⟩
theorem witness_NothingUnrecorded : State.reset.chip.settled ∧ Steps State.reset State.reset := ⟨⟨rfl, rfl⟩, rfl⟩
theorem witness_MemoryReadBack : ({} : Memory).wf = true ∧ (0x40000001 : Nat) ≠ 0x40000000 := by decide +kernel
theorem witness_SaturatedSample : (-2 ^ 31 - 1 : Int) < -2 ^ 31 ∧ (2 ^ 31 - 1 : Int) < 2 ^ 31 ∧
    (-2 ^ 31 : Int) ≤ -2 ^ 31 ∧ (-2 ^ 31 : Int) ≤ 2 ^ 31 - 1 ∧ (7 : Nat) = residue ({ v := 7, t := 7 } : Smp).v := by decide +kernel
theorem witness_ExitCheckVerdict : 250 < ({ v := 0, t := 251 } : Smp).t := by decide +kernel

/-- A NOTE is queued and err.note_queue is 1. -/
def noted : Chip := (pressed [(item 0x0F 0 5, 1)] up).onErr fun e => { e with
  queue := [{ code := 0x0801, detail := 2, blk := 0, cls := .note }] }
theorem witness_RepeatedError :
    noted.err.queue[0]? = some { code := 0x0801, detail := 2, blk := 0, cls := .note } ∧ noted.errItem 5 ≠ 0 ∧
      noted.err.queue.length < 16 ∧ (Cls.note ≠ .fatal) := by decide +kernel
theorem witness_FaultPin : up.audioOnce = false ∧ ({ up with audioOnce := true } : Chip).audioOnce = true := by decide +kernel

/-- An input whose DET contact and class candidate have held, with its bias on. -/
def ainA : Chip := (pressed [(item 0x0A 0 2, 1)] up).onAin fun a => { a with ins := a.ins.set 0 { det := { count := 20 }, cand := (5, 100) } }
/-- An input that is inserted, with a class candidate. -/
def ainI : AinIn := { det := { state := true }, cand := (5, 100) }
def ainD : Chip := up.onAin fun a => { a with ins := a.ins.set 3 ainI }
theorem witness_AccessoryInputs : (on ainA).live ∧ ainA.ain.ins[0]? = some { det := { count := 20 }, cand := (5, 100) } ∧
    ainA.biasOn 0 = true ∧ 20 ≤ 20 ∧ (on ainD).live ∧ ainD.ain.ins[3]? = some ainI ∧ 100 ≤ ainI.cand.2 ∧ ainI.cand.1 ≠ ainI.cls ∧
    ainI.inserted = true := ⟨live_on _ (by decide +kernel), by decide +kernel, by decide +kernel, by decide +kernel, live_on _ (by decide +kernel), by decide +kernel⟩

/-- Button 1 has been pressed long enough; button 2 and the DET contact are guarded. -/
def ainB : AinIn := {
  det := { chatter := some (true, 400000), changes := List.replicate 11 { scan := 399999, before := false } }, cls := 3
  removed := false
  buttons := [{}, { state := true, count := 20, since := 0 }, { chatter := some (false, 400000) }, {}] }
def ainC : Chip := up.onAin fun a => { a with ins := a.ins.set 15 ainB, scans := 400000 }
theorem witness_CallStationButtons : (on ainC).live ∧ ainC.ain.ins[15]? = some ainB ∧
    ainB.buttons[1]? = some { state := true, count := 20, since := 0 } ∧ ainB.cls = 3 ∧ ainB.stuck.getLsbD 1 = false ∧
    0 + 1000 * ainC.itN (item 0x0A 15 5) ≤ ainC.ain.scans ∧
    ainB.buttons[2]? = some { chatter := some (false, 400000) } ∧
    changesIn ainC.ain.scans [] ≤ ainC.itN (item 0x0A 15 6) ∧ ainB.det.chatter = some (true, 400000) ∧
    ainC.itN (item 0x0A 15 6) < changesIn ainC.ain.scans ainB.det.changes := ⟨live_on _ (by decide +kernel), by decide +kernel⟩

/-- Contact 31 has shown a new state for 20 scans; contacts 1 and 2 are guarded, contact 2 still changing. -/
def contacts : Chip := (pressed [(item 0x0A 0x2F 1, 1)] up).onAin fun a => { a with
  scans := 50, contacts := ((a.contacts.set 31 { cand := (2, 20) }).set 1 { chatter := some (0, 50) }).set 2
    { chatter := some (0, 50), changes := List.replicate 11 (49, 0) } }
theorem witness_SupervisedContacts : (on contacts).live ∧ contacts.ain.contacts[31]? = some { cand := (2, 20) } ∧
    contacts.itB (item 0x0A (0x10 + 31) 1) = true ∧
    (([] : List (Nat × Nat)).filter fun h => contacts.ain.scans < h.1 + 1000).length < contacts.itN (item 0x0A (0x10 + 31) 2) ∧
    contacts.ain.contacts[1]? = some { chatter := some (0, 50) } ∧
    (([] : List (Nat × Nat)).filter fun h => contacts.ain.scans < h.1 + 1000).length ≤ contacts.itN (item 0x0A (0x10 + 1) 2) ∧
    contacts.ain.contacts[2]? = some { chatter := some (0, 50), changes := List.replicate 11 (49, 0) } ∧
    contacts.itN (item 0x0A (0x10 + 2) 2) <
      ((List.replicate 11 (49, 0)).filter fun h => contacts.ain.scans < h.1 + 1000).length ∧ 50 ≤ contacts.ain.scans :=
  ⟨live_on _ (by decide +kernel), by decide +kernel⟩

/-- Mains good, battery low coming, critical going, rail 7 out of its window; and mains failed but good again. -/
def supplies : Chip := up.onAin fun a => { a with
  mainsFail := false, lastZc := some 0, low := { set := 100 }, critical := { on := true, clear := 100 }, rails := a.rails.set 7 { count := 3 } }
def mainsBack : Chip := up.onAin fun a => { a with goodSince := some 0, lastZc := some (1000 * msClk) }
theorem witness_SupplySense : (on supplies).live ∧
    0 * supplies.itN (item 0x0A 0x30 1) / 500 < supplies.itN (item 0x0A 0x30 2) ∧ supplies.ain.mainsFail = false ∧
    supplies.itN (item 0x0A 0x30 2) ≤ 2300 * supplies.itN (item 0x0A 0x30 1) / 500 ∧
    supplies.ain.lastZc = some 0 ∧ 0 + 15 * msClk ≤ 15 * msClk ∧ 5 < 0 + 15 * msClk ∧ supplies.ain.low.on = false ∧ 100 ≤ supplies.ain.low.set ∧
    supplies.ain.critical.on = true ∧ 100 ≤ supplies.ain.critical.clear ∧ supplies.ain.rails[7]? = some { count := 3 } :=
  ⟨live_on _ (by decide +kernel), by decide +kernel⟩
theorem witness_SupplySense_restore : (on mainsBack).live ∧ mainsBack.ain.mainsFail = true ∧ mainsBack.ain.goodSince = some 0 ∧
    mainsBack.ain.lastZc = some (1000 * msClk) ∧ 0 + mainsBack.itN (item 0x0A 0x30 3) * msClk ≤ 1000 * msClk := ⟨live_on _ (by decide +kernel), by decide +kernel⟩

/-- Input 4 is selected and locked; input 3 present and good; input 1 qualified and not yet eligible. -/
def refA : Chip := up.onRef fun r => { r with
  enabled := true, st := .locked, selected := 4, switching := true, lockedFor := 1800
  ins := ((r.ins.set 4 { present := true, qualified := true }).set 3 { present := true, goodSince := some 0 }).set 1
    { qualified := true, present := true } }
/-- Input 3, disqualified for DRIFT, has stopped. -/
def drifted : RefIn := { present := true, cause := 5 }
def refG : Chip := up.onRef fun r => { r with enabled := true, ins := r.ins.set 3 drifted }
theorem witness_ReferenceInputs : (on refA).live ∧ refA.ref.enabled = true ∧ refA.ref.ins[4]? = some { present := true, qualified := true } ∧
    refA.refCause 4 { t := 1, glitch := 51, pps := true } = some 2 ∧ refA.ref.selected = 4 ∧ refA.ref.st = .locked ∧
    refA.ref.ins[3]? = some { present := true, goodSince := some 0 } ∧ refA.refCause 3 { t := 1, gate := some 5000000 } = none ∧
    refA.ref.selected ≠ 3 ∧ 0 + refA.itN (item 0x0C 3 2) * secClk ≤ 10 * secClk ∧
    refA.ref.ins[1]? = some { qualified := true, present := true } ∧ 0 + 2 * refA.refPeriod 1 ≤ 10 * secClk ∧
    refA.grandmaster = false ∧ 0 + refA.refSel 4 * secClk ≤ 60 * secClk ∧ (on refG).live ∧ refG.ref.enabled = true ∧ refG.ref.ins[3]? = some drifted ∧
    0 + 2 * refG.refPeriod 3 ≤ 10 * secClk := by
  repeat' apply And.intro
  all_goals decide +kernel

/-- The DPLL acquires, and it holds over. -/
def refB : Chip := up.onRef fun r => { r with enabled := true, st := .acquire, lockSince := some 0 }
def refC : Chip := up.onRef fun r => { r with enabled := true, st := .holdover, holdSince := some 0, holdModel := true, tod := some 1 }
/-- A PTP input is selected while seconds wait. -/
def refH : Chip := up.onRef fun r => { r with enabled := true, selected := 0, tod := some 1 }
/-- The block index waits to be loaded. -/
def refD : Chip := { up with
  sys := { up.sys with reload := true, tickRun := true }, ref := { up.ref with enabled := true }, boot := { up.boot with stage := .ref } }
theorem witness_DpllSteps : (on refA).live ∧ refA.ref.enabled = true ∧ refA.ref.switching = true ∧ refA.inWindow = true ∧ refA.ref.freq = refA.refFreq refA.ref.selected ∧
    refA.ref.selected < 5 ∧ refA.ref.loscDrift = false ∧ 1800 ≤ refA.ref.lockedFor := ⟨live_on _ (by decide +kernel), by decide +kernel⟩
theorem witness_DpllSteps_locks : (on refB).live ∧ refB.ref.enabled = true ∧ refB.ref.lockSince = some 0 ∧ refB.ref.st = .acquire ∧
    refB.ref.switching = false ∧ refB.inWindow = true ∧ 0 + secClk ≤ secClk := ⟨live_on _ (by decide +kernel), by decide +kernel⟩
theorem witness_DpllSteps_holds : (on refC).live ∧ refC.ref.enabled = true ∧ refC.ref.holdSince = some 0 ∧ refC.ref.st = .holdover ∧
    0 + (if refC.ref.holdModel then refC.refSel 8 else refC.refSel 9) * secClk ≤ 86400 * secClk ∧
    refC.ref.tod = some 1 ∧ 1 < 2 ^ 48 ∧ refC.ptp.time < timeTurn ∧ refC.audioOnce = false ∧ 2 < refC.ref.selected ∧ (on refH).live ∧ refH.ref.enabled = true ∧ refH.ref.tod = some 1 ∧ 1 < 2 ^ 48 ∧ refH.ptp.time < timeTurn ∧
    refH.ref.selected ≤ 2 := by
  repeat' apply And.intro
  all_goals decide +kernel
theorem witness_DpllSteps_index : (on refD).live ∧ refD.ref.enabled = true ∧ refD.sys.reload = true ∧ refD.sys.tickRun = true ∧ refD.ticking = true ∧
    refD.audioOnce = false ∧ refD.flow.nextClose ≤ 2 := ⟨live_on _ (by decide +kernel), by decide +kernel⟩

/-- Audio has been enabled; three inputs vote, or one does. -/
def refE : Chip := { refA with audioOnce := true }
def refF : Chip := up.onRef fun r => { r with enabled := true, noVote := false }
theorem witness_SelectorSteps : (on refE).live ∧ refE.ref.enabled = true ∧ refE.audioOnce = true ∧ refE.ref.freq.natAbs ≤ 6000000 ∧
    3 ≤ ((List.range 6).filter fun x => (refE.refIn x).qualified).length ∧ (on refF).live ∧ refF.ref.enabled = true ∧
    ((List.range 6).filter fun x => (refF.refIn x).qualified).length < 3 ∧ refF.ref.noVote = false := by
  repeat' apply And.intro
  all_goals decide +kernel

/-- An Announce of master 9, over UDP in domain 0; ports that follow, listen, have heard it once, and are passive. -/
def ann : AnnounceMsg := { gm := 1, priority1 := 0, clockClass := 6, accuracy := 0, variance := 0, priority2 := 0, steps := 0, sender := 9 }
def via : PtpVia := { domain := BitVec.ofNat 8 (up.ptpIt 2).toNat, udp := decide (up.ptpIt 4 = 1) }
def pFollow : PtpPort := { st := .following, best := some (ann, 0), asked := some (5, 10), back := some 30 }
def pHeard : PtpPort := { st := .listening, foreign := [(ann, [0])] }
def ptpA : Chip := up.onPtp fun p => { p with ports := [pFollow, pHeard, { st := .passive, best := some (ann, 0) }] }
def ptpB : Chip := (pressed [(item 0x0C 0x20 1, 1)] { up with
  boot := { up.boot with peg := 3 }, macs := up.macs.map fun m => { m with up := true, portEn := true } }).onPtp fun p => { p with
  ports := [{ st := .master }, { st := .master }, { st := .listening }] }
theorem witness_PtpPorts : (on ptpA).live ∧ ptpA.ptpTakes via = true ∧ ptpA.ptp.ports[0]? = some pFollow ∧
    0 + 3 * announceClk ≤ 4800000000 ∧ ptpA.ptp.ports[1]? = some pHeard ∧ ann.steps.toNat < 255 ∧ ann.sender.toNat ≠ ptpA.clockId ∧
    max ptpA.clk 5 < 0 + 4 * announceClk ∧ pHeard.master = none ∧
    ptpA.ptp.ports[2]? = some { st := .passive, best := some (ann, 0) } := ⟨live_on _ (by decide +kernel), by decide +kernel⟩
theorem witness_PtpPorts_master : (on ptpB).live ∧ ptpB.ptp.ports[0]? = some { st := .master } ∧ ptpB.ptpTakes via = true ∧
    ptpB.ptp.ports[2]? = some { st := .listening } ∧ ann.sender.toNat ≠ ptpB.clockId ∧
    lexLess (announceRank ann) (announceRank ptpB.ownAnnounce) = true ∧ ptpB.sends 0 = true ∧ (0 : Nat) < 2 ∧ ptpB.canStart 0 :=
  ⟨live_on _ (by decide +kernel), by decide +kernel, by decide +kernel, by decide +kernel, by decide +kernel, by decide +kernel,
    by decide +kernel, by decide +kernel, _, rfl, by decide +kernel, by decide +kernel, by decide +kernel, by decide +kernel, by decide +kernel⟩

/-- Frames to all stations: of a type that the host of LINKA and DROP takes on ring 4, and of one that nobody takes. -/
def frameOf (dst typ : Nat) (n : Nat) : List Byte := beBytes 6 dst ++ beBytes 6 0x020000000001 ++ beBytes 2 typ ++ List.replicate (n - 14) 0x5A
def good : List Byte := frameOf 0xFFFFFFFFFFFF 0x9000 300

/-- All MACs are up, and ring 4 of LINKA and of DROP takes EtherType 0x9000. -/
def mac : Mac := { up := true, portEn := true }
def macsUp : Chip := { (pressed [(item 0x01 0 0x24, 0x9000), (item 0x0E 0 0x14, 0x9000)] up) with
  macs := [mac, mac, mac], boot := { up.boot with peg := 3, unitBase := 0x020000000000 } }
/-- Ring 4 of LINKA and of DROP holds buffers. -/
def ring : RxRing := { posted := [11, 12], held := [13] }
def posted (r : RxRing) (s : State) : State := { s with ham := { s.ham with rings := (s.ham.rings.set 4 r).set 20 r } }
def ringed (c : Chip) : State := posted ring (on c)

theorem witness_FrameReception : (ringed macsUp).live ∧ macsUp.macs[0]? = some mac ∧ mac.up = true ∧ mac.portEn = true ∧
    60 ≤ good.length ∧ good.length ≤ 1518 ∧ macsUp.accepts 0 (frameOf 0x020000000009 0x9000 60) = false ∧
    macsUp.accepts 0 good = true ∧ (etherType good).1 ≠ 0x8808 ∧ macsUp.classify 0 good = some 4 ∧ mac.rx[4]? = some ({} : RxSide) ∧
    (ringed macsUp).ham.rings[ringIx 0 4]? = some ring ∧ ring.asm = [] ∧ buffersFor good ≤ ring.posted.length ∧
    macsUp.dmaHalted 0 = false := ⟨live_on _ (by decide +kernel), by decide +kernel⟩
theorem witness_FrameReception_truncated : (posted { posted := [11] } (on macsUp)).live ∧
    (posted { posted := [11] } (on macsUp)).ham.rings[ringIx 0 4]? = some { posted := [11] } ∧
    macsUp.classify 0 good = some 4 ∧ 1 < buffersFor good ∧ ([11] : List Nat) ≠ [] ∧ macsUp.dmaHalted 0 = false :=
  ⟨live_on _ (by decide +kernel), by decide +kernel⟩

/-- The owner of ring 2 of DROP has returned a buffer that it holds, or one that it does not hold. -/
def macR : Mac := {}
/-- Shared SRAM was written. -/
def clear (c : Chip) : Chip := c.onMem fun m => { m with bytes := { m.bytes with zeroed := [(0x40000000, 0x40800000)] } }
def returning (b : Nat) : Chip := ((clear { up with macs := [macR, macR, macR] }).putWords (rxRet 2 2) [BitVec.ofNat 32 b]).putWords
  (rxRet 2 2 + 4 * rxTarget 2 2) [1]
def heldRing : Hamper := { small with rings := small.rings.set 18 { held := [13] } }
theorem witness_BufferCycle : ({ on (returning 13) with ham := heldRing } : State).live ∧
    heldRing.rings[ringIx 2 2]? = some { held := [13] } ∧ (returning 13).macs[2]? = some macR ∧ macR.rx[2]? = some ({} : RxSide) ∧
    (returning 13).dmaHalted 2 = false ∧ (returning 13).mem.bytes.clean (rxRet 2 2 + 4 * rxTarget 2 2) 4 = true ∧
    (returning 13).mem.bytes.clean (rxRet 2 2 + 4 * (0 % rxTarget 2 2)) 4 = true ∧
    BitVec.ofNat 16 (ofLe ((returning 13).mem.bytes.bytes (rxRet 2 2 + 4 * rxTarget 2 2) 4)) = (0 : BitVec 16) + 1 ∧
    13 = ofLe (((returning 13).mem.bytes.bytes (rxRet 2 2 + 4 * (0 % rxTarget 2 2)) 4).take 2) ∧
    13 ∈ ({ held := [13] } : RxRing).held ∧
    14 = ofLe (((returning 14).mem.bytes.bytes (rxRet 2 2 + 4 * (0 % rxTarget 2 2)) 4).take 2) ∧
    14 ∉ ({ held := [13] } : RxRing).held := ⟨live_on _ (by decide +kernel), by decide +kernel⟩

/-- A frame is being sent on LINKA while a descriptor of ring 7 waits in memory; another is STALE; DROP holds one. -/
def f1 : TxFrame := { bytes := good, attempts := 1, slot := some 0 }
def macTx : Mac := { mac with sending := some (0, f1) }
def descr : Chip := ((clear { macsUp with macs := [macTx, mac, mac] }).putWords (txBase 0 7 + 0x2000) [1, 0]).putWords (txBase 0 7)
  [0x40000100, 60, 0, 0, 0, 0, 0, 0]
theorem witness_FrameTransmission : (on descr).live ∧ descr.macs[0]? = some macTx ∧ macTx.tx[7]? = some ({} : TxSide) ∧ macTx.quiet ∧
    macTx.sending ≠ none ∧ descr.txBar 0 = none ∧ descr.dmaHalted 0 = false ∧ descr.mem.bytes.clean (txBase 0 7 + 0x2000) 4 = true ∧
    descr.mem.bytes.clean (txBase 0 7) 8 = true ∧ descr.mem.bytes.clean 0x40000100 60 = true ∧
    ringDiff ({} : TxSide).fetched ({} : TxSide).consumed < 256 ∧
    BitVec.ofNat 16 (ofLe (descr.mem.bytes.bytes (txBase 0 7 + 0x2000) 4)) = ({} : TxSide).fetched + 1 ∧
    0x40000100 = ofLe (descr.mem.bytes.bytes (txBase 0 7) 4) ∧ 60 = ofLe (descr.mem.bytes.bytes (txBase 0 7 + 4) 4) ∧
    0x40000100 % 4 = 0 ∧ 0x40000100 + 60 % 2048 ≤ 0x40800000 ∧ f1.slot = some 0 ∧
    descr.mem.bytes.clean (txBase 0 0 + 32 * 0) 16 = true ∧ descr.mem.bytes.wf = true ∧ 14 ≤ 60 % 2048 ∧ f1.tsReq = false ∧ f1.follow = [] ∧ f1.asks = none :=
  ⟨live_on _ (by decide +kernel), by decide +kernel, by decide +kernel, ⟨by decide +kernel, by decide +kernel⟩, by decide +kernel⟩
def macOld : Mac := { mac with tx := { queue := [{ bytes := good, seq := some 5, slot := some 7 }, { bytes := good, seq := some 6, slot := some 8 }] } :: List.replicate 7 {} }
def oldC : Chip := clear { macsUp with macs := [macOld, mac, mac], sys := { macsUp.sys with blk := 5 } }
theorem witness_FrameTransmission_stale : (on oldC).live ∧ oldC.macs[0]? = some macOld ∧
    macOld.tx[0]? = some { queue := [{ bytes := good, seq := some 5, slot := some 7 }, { bytes := good, seq := some 6, slot := some 8 }] } ∧ 5 ≤ oldC.sys.blk ∧ oldC.txBar 0 = none ∧ macOld.busy 0 = false ∧
    (∀ z ∈ macOld.tx, ∀ g ∈ z.queue, g.fixed = none) ∧
    (oldC.dmaHalted 0 = false ∧ oldC.mem.bytes.clean (txBase 0 0 + 32 * 7) 16 = true) ∧
    ∀ g ∈ [({ bytes := good, seq := some 6, slot := some 8 } : TxFrame)], ∀ k, g.seq = some k → oldC.sys.blk < k :=
  ⟨live_on _ (by decide +kernel), by decide +kernel, by decide +kernel, by decide +kernel, by decide +kernel, by decide +kernel, by decide +kernel,
    by decide +kernel, by
    intro g hg k hk; rw [List.mem_singleton.1 hg] at hk; rw [← Option.some.inj hk]; decide⟩

/-- LINKA is enabled and down; LINKB is up. -/
def ports : Chip := { macsUp with macs := [{ portEn := true }, mac, mac] }
theorem witness_LinkPorts : (on ports).live ∧ ports.macs[0]? = some { portEn := true } ∧ ({ portEn := true } : Mac).quiet ∧
    ports.macs[1]? = some mac ∧ mac.quiet ∧ mac.sending = none ∧ mac.portEn = true ∧ mac.up = true ∧
    ({ portEn := true } : Mac).up = false ∧ ({ portEn := true } : Mac).modAbs = false ∧ ({ portEn := true } : Mac).txFault = false :=
  ⟨live_on _ (by decide +kernel), by decide +kernel, ⟨by decide +kernel, by decide +kernel⟩, by decide +kernel, ⟨by decide +kernel, by decide +kernel⟩, by decide +kernel⟩

/-- DROP has a frame on ring 7; it sends one, for the first and for the 16th time. -/
def y7 : TxSide := { queue := [{ bytes := good, slot := some 3 }] }
def macQ : Mac := { mac with tx := List.replicate 7 {} ++ [y7] }
def dropQ : Chip := clear { macsUp with macs := [mac, mac, macQ], clk := 10 * secClk }
def macS (k : Nat) : Mac := { mac with sending := some (4, { bytes := good, attempts := k, slot := some 3 }) }
def dropS (k : Nat) : Chip := clear { macsUp with macs := [mac, mac, macS k] }
theorem witness_DropBus : (on dropQ).live ∧ dropQ.macs[2]? = some macQ ∧ macQ.portEn = true ∧ macQ.sending = none ∧
    macQ.tx[7]? = some y7 ∧ (∀ z ∈ macQ.tx, ∀ g ∈ z.queue, g.fixed = none) ∧ dropQ.boot.peg ≠ 0 ∧ macQ.busy 7 = false ∧
    dropQ.sys.xqSilent.getLsbD 16 = false ∧ dropQ.dmaHalted 2 = false ∧
    dropQ.mem.bytes.clean (txBase 2 7 + 32 * 3) 16 = true ∧ 0 ≤ max dropQ.clk 0 ∧ 0 + dropQ.dropIt 2 * usClk ≤ max dropQ.clk 0 :=
  ⟨live_on _ (by decide +kernel), by decide +kernel⟩
theorem witness_DropBus_sends : (on (dropS 15)).live ∧ (dropS 15).macs[2]? = some (macS 15) ∧
    (macS 15).sending = some (4, { bytes := good, attempts := 15, slot := some 3 }) ∧ (macS 15).tx[4]? = some ({} : TxSide) ∧ (on (dropS 16)).live ∧
    (dropS 16).macs[2]? = some (macS 16) ∧ (0x0801, 0) ∉ (dropS 16).err.seen ∧ (dropS 16).dmaHalted 2 = false ∧ (dropS 16).boot.peg ≠ 0 ∧
    (dropS 16).mem.bytes.clean (txBase 2 4 + 32 * 3) 16 = true :=
  ⟨live_on _ (by decide +kernel), by decide +kernel, by decide +kernel, by decide +kernel, live_on _ (by decide +kernel), by decide +kernel⟩
theorem witness_DropBus_receives : (ringed macsUp).live ∧ macsUp.macs[2]? = some mac ∧ macsUp.sys.xqSilent.getLsbD 15 = false ∧
    macsUp.isSpeech good = false ∧ macsUp.accepts 2 good = true ∧ macsUp.classify 2 good = some 4 ∧ be good 6 6 ≠ macsUp.station ∧
    (ringed macsUp).ham.rings[ringIx 2 4]? = some ring ∧ buffersFor good ≤ ring.posted.length ∧ macsUp.dmaHalted 2 = false ∧
    ∀ z ∈ mac.rx.take 1, z.inbox = [] := ⟨live_on _ (by decide +kernel), by decide +kernel⟩

/-- Speech channel 3 listens to peg 5; a speech frame of that peg for it, with index 0. -/
def talk : Chip := let c := pressed [(item 0x0E 0 0x23, 5)] macsUp; c.setHash c.sys.now.items
def speech : List Byte := beBytes 6 ctlGroup ++ beBytes 6 0x020000000005 ++ beBytes 2 (talk.sysIt 0x16) ++
  [0x20, BitVec.ofNat 8 talk.flow.rxLevel, 5, 8, 0, 0, 0, 0, 0, 0, 0, 0] ++ List.replicate 128 0x11
/-- Its window ends, heard or not. -/
def heard : Chip := talk.onDrop fun d => { d with speech := d.speech.set 3 { heard := true } }
theorem witness_FallbackSpeech : (on talk).live ∧ talk.drop.speech[3]? = some ({} : Speech) ∧ talk.speechPeg 3 ≠ 0 ∧
    talk.rxOn 2 = true ∧ talk.isSpeech speech = true ∧ 60 ≤ speech.length ∧ speech.length ≤ 1518 ∧ talk.accepts 2 speech = true ∧
    be speech 6 6 ≠ talk.station ∧ be speech 0 6 = ctlGroup ∧
    talk.levelOk (be speech ((etherType speech).2 + 1) 1) = true ∧ be speech ((etherType speech).2 + 2) 1 = talk.speechPeg 3 ∧
    be speech ((etherType speech).2 + 3) 1 % 16 = 2 ^ 3 ∧ 0 ≤ talk.clk ∧
    0 = extend32 (be speech ((etherType speech).2 + 4) 4) talk.speechIndex ∧ (talk.nowNs - talk.epoch * 10 ^ 9) * 16000 ≤ (0 + talk.dropIt 3) * 10 ^ 9 ∧
    0 ≤ talk.speechIndex + 4096 ∧ heard.drop.speech[3]? = some { heard := true } := ⟨live_on _ (by decide +kernel), by decide +kernel⟩

/-- A power stage with these channels from channel 5 on, in block 800000. -/
def chans (l : List ModCh) : Chip := { up.onPow fun p => { p with ch := List.replicate 5 {} ++ l ++ List.replicate (59 - l.length) {} } with
  sys := { up.sys with blk := 800000, tickAt := 2 * secClk } }
/-- A channel in each state of the chapter; the measurements read the highest magnitude and 0. -/
def mPlay : ModCh := { st := .play, attempts := 2, drive := [1] }
def mRetry (a : Nat) (q : Meas) : ModCh := { st := .retry, attempts := a, extra := some q }
def mTrip : ModCh := { st := .tripped, attempts := 1, unreported := some (2, 799999) }
def mUp : ModCh := { st := .rampUp, fromRetry := true }
def mOff : ModCh := { st := .play, disabling := true }
def states : Chip := chans [mPlay, mRetry 4 {}, mTrip, mUp, mOff, mRetry 4 { ic := 1 }, mRetry 3 { ok := false }]
def statesHeld : Chip := states.onPow fun p => { p with inputLost := true }
theorem witness_ChannelStates : (on states).live ∧ states.pow.ch[5]? = some mPlay ∧ mPlay.st.switching = true ∧
    states.pow.ch[6]? = some (mRetry 4 {}) ∧ (mRetry 4 {}).st.switching = true ∧ states.pow.ch[7]? = some mTrip ∧
    799999 < states.sys.blk ∧ states.sys.xqSilent.getLsbD 8 = false ∧ states.pow.clockHeld = false ∧ states.pow.inputLost = false ∧ states.coldOverlap = false ∧
    (mRetry 4 {}).disabling = false ∧ mUp.disabling = false ∧ mTrip.sinceClk + states.modIt 7 5 * msClk ≤ states.sys.tickAt ∧ states.err.safe = false ∧
    0 + states.W / 10 ≤ states.sys.blk ∧
    (({} : Meas).result (states.modIt 6 2) (states.modIt 6 3) true true).valid = true ∧
    states.modIt 6 8 ≤ (({} : Meas).result (states.modIt 6 2) (states.modIt 6 3) true true).mag ∧
    (({} : Meas).result (states.modIt 6 2) (states.modIt 6 3) true true).mag ≤ states.modIt 6 9 ∧
    states.pow.ch[10]? = some (mRetry 4 { ic := 1 }) ∧
    (({ ic := 1 } : Meas).result (states.modIt 10 2) (states.modIt 10 3) true true).mag < states.modIt 10 8 ∧
    states.pow.ch[11]? = some (mRetry 3 { ok := false }) ∧ states.pow.ch[8]? = some mUp ∧ mUp.gain.r = 0 ∧
    states.pow.ch[9]? = some mOff ∧ mOff.st.switching = true ∧ mOff.gain.r = 0 ∧ mPlay.since + 60 * states.W ≤ states.sys.blk ∧ (on statesHeld).live ∧
    statesHeld.pow.inputLost = true ∧ statesHeld.pow.ch[5]? = some mPlay := by
  repeat' apply And.intro
  all_goals decide +kernel

/-- Measurements that have ended, on channels that play; a rail group on hold; a sweep of its group. -/
def mDone (q : Meas) (alarm : Bool) : ModCh := { st := .play, zAlarm := alarm, done := some q }
def sweep0 : Sweep := { slot := 0, groups := [7, 1], part := [56] }
def power : Chip := { chans [mDone { ic := 1 } false, mDone {} true, mDone { ok := false } false] with clk := 20 * msClk }.onPow fun p => { p with
  ch := p.ch.set 56 { st := .test }, rails := p.rails.set 7 { hold := some 5 }, sweep := some sweep0 }
def clockLost : Chip := { power.onPow (fun p => { p with clkQual := true, inputLost := true }) with
  sap := { power.sap with ports := power.sap.ports.set 3 { st := .clockHold } } }
/-- A clock error whose condition ends. -/
def clockEnding : Chip := { power.onPow (fun p => { p with clkErr := true }) with clock := { power.clock with modLock := true } }
theorem witness_PowerStage : (on power).live ∧ 4146 ≤ (4146 : Word).toNat ∧ (4187 : Word).toNat ≤ 4187 ∧
    power.pow.rails[7]? = some { hold := some 5 } ∧ 5 + power.railIt 7 7 * msClk ≤ 5 + 20 * msClk ∧ power.pow.inputLost = false ∧
    power.pow.ch[5]? = some (mDone { ic := 1 } false) ∧
    (({ ic := 1 } : Meas).result (power.modIt 5 2) (power.modIt 5 3) true false).mag < power.modIt 5 8 ∧
    power.pow.ch[6]? = some (mDone {} true) ∧ power.modIt 6 8 ≤ (({} : Meas).result (power.modIt 6 2) (power.modIt 6 3) true false).mag ∧
    (({} : Meas).result (power.modIt 6 2) (power.modIt 6 3) true false).mag ≤ power.modIt 6 9 ∧
    power.pow.ch[7]? = some (mDone { ok := false } false) ∧ power.pow.sweep = some sweep0 ∧ sweep0.groups.head? = some 7 ∧
    sweep0.began + power.W / 10 ≤ power.sys.blk ∧ sweep0.point < 8 := ⟨live_on _ (by decide +kernel), by decide +kernel⟩
theorem witness_PowerStage_resumes : (on clockLost).live ∧ clockLost.cmd.cold = none ∧ clockLost.pow.clkQual = true ∧
    clockLost.pow.errAt + 10 * msClk ≤ max clockLost.clk 0 ∧ clockLost.sap.ports[3]? = some { st := .clockHold } ∧
    clockLost.pow.inputLost = true ∧ (on clockEnding).live ∧ clockEnding.pow.clkErr = true ∧ clockEnding.clock.modLock = true ∧
    clockEnding.sys.xqSilent.getLsbD 5 = false :=
  ⟨live_on _ (by decide +kernel), by decide +kernel, by decide +kernel, by decide +kernel, by decide +kernel, by decide +kernel,
    live_on _ (by decide +kernel), by decide +kernel⟩

/-- Serial ports that run, lead, wait for crossings and stop. -/
def pRun : SapPort := { st := .run, fmt := { enable := true }, rxMask := 3, txMask := 1, frame := 9, pairs := [(2, 9000)] }
def pLead : SapPort := { st := .lead, startFrame := 10, frame := 26 }
def pWait : SapPort := { st := .zcWait, rxMask := 7, rxWait := [(2, 4)], frame := 9000, dataSeen := true }
def pOut : SapPort := { st := .zcWait, txMask := 1, txWait := [(0, 4)], frame := 5, dataSeen := true }
def pStop : SapPort := { st := .stopping, rxWait := [(1, 2)] }
def serial : Chip := (pressed [(item 0x09 0 0x10, 0), (item 0x09 2 0x0F, 0)] up).onSap fun z => { z with
  ports := [pRun, pLead, pWait, pOut, pStop] ++ List.replicate 11 {} }
theorem witness_SerialPorts : (on serial).live ∧ serial.cmd.cold = none ∧ serial.sap.ports[0]? = some pRun ∧ pRun.rxWait = [] ∧
    pRun.txWait = [] ∧ serial.sys.xqSilent.getLsbD 1 = false ∧ serial.itB (item 0x09 0 0x10) = false ∧ serial.itN (item 0x09 0 0x11) ≤ mget pRun.pairs 2 0 ∧
    serial.sap.ports[1]? = some pLead ∧ pLead.startFrame + pLead.fmt.leadFrames ≤ pLead.frame ∧
    serial.sap.ports[2]? = some pWait ∧ mget? pWait.rxWait (slotOf pWait.rxMask 2) = some 4 ∧
    (enter (0xFF : Word)).v = 0 ∧ 4 < pWait.frame ∧ 4 + zcFrames serial.prof (serial.itN (item 0x09 2 0x0F)) ≤ pWait.frame ∧ serial.sap.ports[3]? = some pOut ∧
    mget? pOut.txWait (slotOf pOut.txMask 0) = some 4 ∧ 4 < pOut.frame ∧
    serial.sapTx 3 pOut.frame pOut (slotOf pOut.txMask 0) = 0 ∧ serial.sap.ports[4]? = some pStop ∧ pStop.txWait = [] :=
  ⟨live_on _ (by decide +kernel), by decide +kernel⟩

/-- A graph in which ramps, crossfades, exchanges, holds and windows are about to end; block 23998 comes before a window. -/
def kEnd : SinkSt := { sel := { fade := some { olds := [], dest := 7, s := 8, shape := 0, j := 8 } }, muted := true, win := 1 }
def kOn : SinkSt := { sel := { fade := some { olds := [], dest := 7, s := 8, shape := 0, j := 7 } }, muted := true, win := 1 }
def ended : Graph := { up.graph with
  run := true, sink := [(4, kEnd), (5, kOn), (6, {})]
  bus := [(0, { scale := { v0 := 0, v1 := 5, r := 8, j := 8 } }), (1, { scale := { v0 := 0, v1 := 5, r := 8, j := 7 } })]
  fir := [(63, { shadow := { length := 4 }, xchg := some (8, 0, 8), busy := true })], src := [(9, { gate := true })]
  pages := [(0, { chain := 1, order := 0, st := .releasing 23998 }), (1, { chain := 1, order := 1, st := .releasing 23999 }),
    (2, { chain := 1, order := 2, st := .owned })], rewrites := [3, 63] }
def graph : Chip := { up with graph := ended, sys := { up.sys with blk := 23998 } }
def graphMod : Chip := { up with graph := { ended with sink := [(2560, kEnd)] }, sys := { up.sys with blk := 23999 } }
theorem witness_GraphEnds : (on graph).live ∧
    mget? graph.graph.sink 4 = some kEnd ∧ kEnd.sel.fade = some { olds := [], dest := 7, s := 8, shape := 0, j := 8 } ∧
    mget? graph.graph.sink 6 = some ({} : SinkSt) ∧ mget? graph.graph.sink 5 = some kOn ∧
    mget? graph.graph.bus 0 = some { scale := { v0 := 0, v1 := 5, r := 8, j := 8 } } ∧
    mget? graph.graph.fir 63 = some { shadow := { length := 4 }, xchg := some (8, 0, 8), busy := true } ∧
    mget? graph.graph.src 9 = some { gate := true } ∧ 0 < graph.itN (item 0x02 9 0x007) ∧ graph.graph.run = true ∧
    kEnd.win ≠ (graph.sys.blk + 2) / graph.W ∧
    graph.graph.winFrom + graph.W ≤ (graph.sys.blk + 2) / graph.W * graph.W ∧ isMod 6 = false ∧ isMod 2560 = true ∧
    (on graphMod).live ∧ mget? graphMod.graph.sink 2560 = some kEnd ∧ graphMod.graph.run = true ∧
    kEnd.win ≠ (graphMod.sys.blk + 1) / graphMod.W := by
  refine ⟨live_on _ (by decide +kernel), ?_⟩
  repeat' apply And.intro
  all_goals first | exact live_on _ (by decide +kernel) | decide +kernel

/-- Ticks run, and a press is due; or ticks have stopped in MEDIA silence. -/
def due : Press := { land := 101, items := [(item 0x02 0 1, 5)], slot := some 0 }
def ticks : Chip := { up with
  sys := { up.sys with blk := 100, tickRun := true, audioEn := true }, boot := { up.boot with stage := .audio }, clk := 66666
  cmd := { up.cmd with presses := [due], jobs := { st := .running, opcode := 0x0104 } :: up.cmd.jobs.drop 1 } }
theorem witness_TickAndLanding : (on ticks).live ∧ ticks.ticking = true ∧ ticks.sys.tickRun = true ∧ ticks.sys.reload = false ∧
    ticks.cmd.cold = none ∧ ticks.sys.xqSilent.getLsbD 0 = false ∧ ticks.sys.mediaSilent = false ∧
    2 * max ticks.clk 100000 ≤ period3 ticks.sys.profile + 2 * ticks.sys.watch ∧ ticks.cmd.presses = [due] ∧ due.land = ticks.sys.blk + 1 ∧
    ticks.sys.ahead = none ∧ (ticks.job 0).st.live = true := ⟨live_on _ (by decide +kernel), by decide +kernel⟩

/-- A cold press before its ticks stop and after. -/
def cold : ColdPress := { profile := .F, land := 90, resume := 0, items := [(item 0x09 3 1, 1)], slot := 0 }
def stops (k : ColdPress) (b : Nat) (c : Chip) : Chip := { c with cmd := { c.cmd with cold := some k }, sys := { c.sys with blk := b } }
def stopping : Chip := stops cold (ticks.stopAt cold - 1) ticks
def stopped : Chip := { stops { cold with stopped := true, built := true } 200 ticks with
  clk := 200000, audioOnce := true }
theorem witness_ColdPressSteps : (on stopping).live ∧ stopping.cmd.cold = some cold ∧ cold.stopped = false ∧
    stopping.sys.tickRun = true ∧ stopping.stopAt cold ≤ stopping.sys.blk + 1 ∧ (on stopped).live ∧
    stopped.cmd.cold = some { cold with stopped := true, built := true } ∧ cold.ports = false ∧ stopped.audioOnce = true ∧
    stopped.sap.ports[3]? = some ({} : SapPort) ∧ stopped.err.entry = none ∧
    cold.resume ≤ blockAt cold.profile (itemIn (setItems stopped.sys.now.items cold.items) (item 1 0 1)).toNat
      ((stopped.ptpAt (max stopped.clk 5)).time / 2 ^ 32) ∧
    stopped.sys.tickAt + 66000 ≤ max stopped.clk 5 ∧ (ledgers State.reset.ham 0 stopped).bad = 0 ∧ stopped.err.handling = none ∧ (stopped.job 0).st.live = true ∧
    (sapFmt (setItems (stopped.itemsAt (2 ^ 64)) cold.items) 3).enable = true ∧
    sapBroken cold.profile (setItems (stopped.itemsAt (2 ^ 64)) cold.items) 3 = false ∧
    (sapFmt (setItems (stopped.itemsAt (2 ^ 64)) cold.items) 4).enable = false := by
  repeat' apply And.intro
  all_goals decide +kernel

def silent : Chip := { ticks with sys := { ticks.sys with mediaSilent := true, tickRun := false, xqSilent := 0x00002 } }
theorem witness_SilenceAndCrossings : (on ticks).live ∧ ticks.ticking = true ∧ ticks.sys.mediaSilent = false ∧ ticks.err.entry = none ∧
    period3 ticks.sys.profile + 2 * ticks.sys.watch < 2 * max ticks.clk 100001 ∧ ticks.sys.xqSilent.getLsbD 18 = false ∧
    ((18 : Fin 19).val ∉ [5, 6, 9, 11, 13, 15]) ∧ (on silent).live ∧ silent.sys.mediaSilent = true ∧ silent.ticking = true ∧
    silent.sys.xqSilent.getLsbD 1 = true ∧ silent.creditOut 1 = false ∧ ((1 : Fin 19).val ∉ [5, 6, 10, 12, 15]) := by
  refine ⟨live_on _ (by decide +kernel), ?_, ?_, ?_, ?_, ?_, ?_, live_on _ (by decide +kernel), ?_⟩ <;> decide +kernel

/-- The safe state is about to be entered; it holds with a trapped core; an exit is under way. -/
def entering : Chip := ticks.onErr fun e => { e with entry := some (0x0220, 1) }
def trapped (core : Byte) : Chip := ticks.onErr fun e => { e with safe := true, trapped := core, reloading := true }
def exiting (L : Nat) (run ab : Bool) : Chip := (ticks.onErr fun e => { e with safe := true, exiting := some L, abandon := ab }).onGraph fun g => { g with run := run }
theorem witness_SafeState : (on entering).live ∧ entering.err.entry = some (0x0220, 1) ∧ entering.cmd.cold = none ∧
    entering.sys.tickRun = true ∧ (on (trapped 1)).live ∧ (trapped 1).err.safe = true ∧ (trapped 1).err.reloadable = true ∧
    (trapped 1).errItem 4 = 1 ∧ (trapped 1).err.reloadFailed = false ∧ (on (exiting 101 false false)).live ∧
    (exiting 101 false false).err.exiting = some 101 ∧ 101 ≤ (exiting 101 false false).sys.blk + 1 ∧ (exiting 101 false false).graph.run = false ∧
    (on (exiting 98 true false)).live ∧ (exiting 98 true false).err.exiting = some 98 ∧
    98 + 3 ≤ (exiting 98 true false).sys.blk + 1 ∧ (exiting 98 true false).graph.run = true ∧ (exiting 98 true false).err.abandon = false ∧
    (on (exiting 98 true true)).live ∧ (exiting 98 true true).err.exiting = some 98 ∧ (exiting 98 true true).err.abandon = true := by
  repeat' apply And.intro
  all_goals decide +kernel

def damaged : Chip := { graph with
  sys := { graph.sys with engTrap := 0x800001 }
  mem := { (clear graph).mem with dmaAddr := List.replicate 4 0x40000000, dmaHalt := 9, dmaHalts := 2, bgRun := true } }
theorem witness_Repairs : (on damaged).live ∧ 63 ∈ damaged.graph.rewrites ∧ damaged.sys.engTrap.getLsbD 23 = true ∧
    damaged.dmaHalted 3 = true ∧ damaged.mem.bytes.upset = [] ∧
    damaged.busCause 0x33 true (damaged.mem.dmaAddr.getD 3 0).toNat 4 = none ∧
    damaged.busCause 0x30 true (damaged.mem.dmaAddr.getD 0 0).toNat 4 = none ∧ damaged.mem.bytes.ecc (damaged.mem.dmaAddr.getD 3 0).toNat = .good ∧ (damaged.mac 3).heldBack = [] ∧ damaged.dmaHalted 0 = true ∧
    (damaged.mac 0).heldBack = [] ∧ damaged.mem.bgRun = true := ⟨live_on _ (by decide +kernel), by decide +kernel⟩

/-- Context 7 listens to flow 5 of talker 0x020000000009, one channel, offset 2; its table. -/
def heardItems : Items := [(item 0x08 7 1, 2), (item 0x08 7 2, 5), (item 0x08 7 3, 1), (item 0x08 7 6, 2), (item 0x08 7 0x20, 0x020000000009)]
def flowTable : FlowTable := (buildTable up.prof heardItems).getD {}
/-- An audio copy of that talker with sequence number 9, silent. -/
def copyBytes : List Byte := beBytes 6 0x020000000001 ++ beBytes 6 0x020000000009 ++ beBytes 2 (up.sysIt 0x11) ++
  [1, BitVec.ofNat 8 up.flow.rxLevel, 0, 5, 0, 0, 0, 9, 2, 1, BitVec.ofNat 8 (timingByte up.prof), 0, 0, 0, 0, 0] ++
  List.replicate (4 * blkLen up.prof) 0 ++ [0]
def copyFrame : RxFrame := { bytes := copyBytes, trunc := false, bufs := [3], at_ := 0 }
def heardAt : Listen := { cursor := 10 }
def rxCopy : RxSide := { inbox := [copyFrame] }
def macCopy : Mac := { up := true, portEn := true, rx := rxCopy :: List.replicate 7 {} }
def listening : Chip := { (pressed heardItems up) with
  macs := [macCopy, {}, {}], flow := { up.flow with table := flowTable, nextClose := 10, ctx := [(7, heardAt)] } }
theorem witness_FlowSteps_copy : (on listening).live ∧ listening.macs[0]? = some macCopy ∧ macCopy.rx[0]? = some rxCopy ∧
    rxCopy.inbox = [copyFrame] ∧ copyFrame.trunc = false ∧ listening.flow.nextClose ≠ listening.sys.blk + 1 ∧
    (listening.flowFrame copyBytes).at_ 0 1 = 1 ∧ listening.udpOk (listening.flowFrame copyBytes) = true ∧
    listening.levelOk ((listening.flowFrame copyBytes).at_ 1 1) = true ∧ (listening.flowFrame copyBytes).at_ 1 1 ≠ 2 ∧
    (listening.flowFrame copyBytes).at_ 10 1 = timingByte listening.prof ∧
    listening.governs { addr := (listening.flowFrame copyBytes).src, flow := (listening.flowFrame copyBytes).at_ 2 2, udp := (listening.flowFrame copyBytes).udp }
      ((listening.flowFrame copyBytes).at_ 4 4) = some (7, heardItems) ∧
    (listening.flowFrame copyBytes).at_ 9 1 = flowIt heardItems 7 3 ∧ (listening.flowFrame copyBytes).at_ 8 1 = flowIt heardItems 7 6 ∧
    mget? listening.flow.ctx 7 = some heardAt ∧
    11 = extend32 ((listening.flowFrame copyBytes).at_ 4 4) (heardAt.cursor - flowIt heardItems 7 6) + flowIt heardItems 7 6 ∧
    heardAt.cursor ≤ 11 ∧ 11 < heardAt.cursor + 32 ∧ mget? heardAt.win (11 % 64) = none ∧
    (listening.flowFrame copyBytes).residueOk listening.prof (flowIt heardItems 7 3) false = true ∧
    (listening.flowFrame copyBytes).at_ 11 1 % 2 = 0 ∧ (listening.flowFrame copyBytes).at_ 11 1 / 8 % 2 = 0 := by
  refine ⟨live_on _ (by decide +kernel), ?_⟩; decide +kernel

/-- The flow table waits for its rewrite; an airing interval is over, or withdrawn; a build has been verified, with its job or
without; a block is about to close; context 7 has missed a window, and path 2 delivered nothing. -/
def air (w : Bool) : Airing := { land := 20, since := 5, table := flowTable, new := heardItems, old := [], withdrawn := w }
def flowing : Chip := { listening with
  graph := { up.graph with rewrites := [64] }
  flow := { listening.flow with airing := [air false], nextClose := 52, ctx := [(7, { heardAt with faultDue := true })], ended := some 1 } }
def withdrawn : Chip := flowing.onFlow fun u => { u with airing := [air true], nextClose := 2 }
def built : Chip := { listening with flow := { listening.flow with building := some ([], true) } }
def jobs (j : Job) : List Job := j :: List.replicate 63 {}
def builtJob : Chip := { built with cmd := { built.cmd with jobs := jobs { st := .running, opcode := 0x0600 } } }
def closing : Chip := { listening with sys := { listening.sys with tickRun := true, blk := 9 } }
theorem witness_FlowSteps : (on flowing).live ∧ 64 ∈ flowing.graph.rewrites ∧ flowing.flow.airing = [air false] ∧
    (air false).withdrawn = false ∧ (air false).land + 31 < flowing.flow.nextClose ∧
    mget? flowing.flow.ctx (7 : BitVec 10).toNat = some { heardAt with faultDue := true } ∧ flowing.flow.ended = some 1 ∧
    (1 : BitVec 4) ≠ 0 ∧ (1 : BitVec 4).getLsbD 2 = false ∧ flowing.flow.pathDown.getLsbD 2 = false ∧
    (on withdrawn).live ∧ withdrawn.flow.airing = [air true] ∧ (air true).withdrawn = true ∧
    (on built).live ∧ built.flow.building = some ([], true) ∧ built.cmd.presses = [] ∧
    buildTable built.prof (withLookups (built.itemsAt (2 ^ 64)) []) = some {} ∧ built.liveJobs 0x0600 = [] ∧
    (on builtJob).live ∧ builtJob.liveJobs 0x0600 = [0] ∧ builtJob.peerBuilt = true ∧ builtJob.cmd.waiting = none ∧
    (on closing).live ∧ closing.sys.tickRun = true ∧ closing.flow.nextClose = closing.sys.blk + 1 := by
  refine ⟨live_on _ (by decide +kernel), ?_, ?_, ?_, ?_, ?_, ⟨?_, ?_, ?_, ?_, live_on _ (by decide +kernel), ?_, ?_,
    live_on _ (by decide +kernel), ?_, ?_, ?_, ?_, live_on _ (by decide +kernel), ?_, ?_, ?_, live_on _ (by decide +kernel), ?_⟩⟩ <;>
    decide +kernel

/-- A unit of a pair whose peer is peg 4: it hears a frame of its peer; a role is decided; paths have failed or come back. -/
def pair (r : Role) : Chip := { (pressed [(item 0x0D 0 2, 4)] macsUp) with
  twin := { up.twin with role := r, aligned := true, pathT := true, pathL := true, pathD := true, missRun := 3,
                         lastL := some 0, lastD := some 0, next := some (.lead, 9, false) } }
def twinF : TwinFrame := { n := 0, peg := 4, role := 1, unmatched := false, safe := false, epoch := 3, level := 1, paths := 7, health := 5 }
def stand : Chip := (pair .lead).onTwin fun w => { w with next := some (.standby, 9, false), mending := [3], pathT := false, goodRun := 3 }
def lost : Chip := (pair .orphan).onTwin fun w => { w with next := some (.lead, 9, false), pathT := false, pathL := false, pathD := false }
theorem witness_TwinLink_lost : (on lost).live ∧ lost.twin.next = some (.lead, 9, false) ∧ lost.twin.pathT = false ∧
    lost.twin.pathL = false ∧ lost.twin.pathD = false ∧ (on stand).live ∧ stand.twin.pathL = true := by
  refine ⟨live_on _ (by decide +kernel), ?_, ?_, ?_, ?_, live_on _ (by decide +kernel), ?_⟩ <;> decide +kernel
theorem witness_TwinLink : (on (pair .lead)).live ∧ (pair .lead).twin.role ≠ .solo ∧ twinF.peg.toNat = (pair .lead).twinIt 2 ∧
    twinF.peg ≠ 0 ∧ (pair .lead).twin.aligned = true ∧ (pair .lead).sys.xqSilent.getLsbD 13 = false ∧
    twinF.n.toNat = (pair .lead).sys.blk ∧ twinF.mirror = [] ∧ ({ twinF with n := 1 } : TwinFrame).n.toNat ≠ (pair .lead).sys.blk ∧
    (pair .lead).twin.next = some (.lead, 9, false) ∧ 3 ≤ (pair .lead).twin.missRun ∧ (pair .lead).twin.pathT = true ∧
    (pair .lead).twin.pathL = true ∧ (pair .lead).isStandby = false ∧ (pair .lead).cmd.awaits = [] ∧
    (pair .lead).twin.lastL = some 0 ∧ 0 + 30 * msClk ≤ max (pair .lead).clk (300 * msClk) ∧
    (pair .lead).twin.pathD = true ∧ (pair .lead).twin.lastD = some 0 ∧ 0 + 300 * msClk ≤ max (pair .lead).clk (300 * msClk) ∧
    (on stand).live ∧ stand.twin.next = some (.standby, 9, false) ∧ stand.twin.pathT = false ∧ 3 ≤ stand.twin.goodRun := by
  refine ⟨live_on _ (by decide +kernel), ?_, ?_, ?_, ?_, ?_, ⟨?_, ?_, ?_, ?_, ?_, ⟨?_, ?_, ?_, ?_, ?_, ⟨?_, ?_, ?_, ?_,
    live_on _ (by decide +kernel), ?_⟩⟩⟩⟩ <;> decide +kernel

def beat : Heartbeat := { level := 1, peg := 4, role := 1, unmatched := false, safe := false, epoch := 3, paths := 7, twinLevel := 1,
                          peer := 3, block := 0, health := 0 }
/-- A heartbeat waits on ring 2 of LINKA and of DROP. -/
def beating : Chip := let m : Mac := { mac with rx := List.replicate 2 {} ++ [{ inbox := [{ bytes := good, trunc := false, bufs := [5], at_ := 0 }] }] ++ List.replicate 5 {} }
  { pair .lead with macs := [m, mac, m] }
theorem witness_Heartbeats : (on beating).live ∧ beating.twin.role ≠ .solo ∧ (on (pair .lead)).live ∧ (pair .lead).canStart 0 ∧
    (pair .lead).canStart 1 ∧ (pair .lead).macs[2]? = some mac ∧ mac.quiet ∧ mac.tx[2]? = some ({} : TxSide) ∧ ({} : TxSide).used < 256 ∧
    (pair .lead).txBar 2 = none ∧ beat.peg.toNat = beating.twinIt 2 ∧ beat.peer.toNat = beating.boot.peg.toNat ∧ beat.peg ≠ 0 ∧
    beating.isStandby = false := by
  refine ⟨live_on _ (by decide +kernel), ?_, live_on _ (by decide +kernel), ⟨mac, ?_⟩, ⟨mac, ?_⟩, ?_, ⟨?_, ?_⟩, ?_⟩ <;> decide +kernel

/-- The part held in reset; in TEST; too warm for a NOTE, and for a FAULT. -/
def heldIn : Chip := { up with held := true }
def inTest : Chip := up.onBoot fun b => { b with testEn := true }
def powerDown : Chip := up.onBoot fun b => { b with powerHeld := true }
def hotter (n : Nat) : Chip := up.onBoot fun b => { b with hot := n }
theorem witness_ResetsAndScan : heldIn.held = true ∧ up.held = false ∧ inTest.boot.testEn = true ∧ inTest.boot.resetN = true ∧ inTest.boot.powerHeld = false ∧ powerDown.boot.powerHeld = true ∧
    up.boot.testEn = false ∧ (on up).live ∧ up.boot.stage = .rom ∧ 2 * secClk ≤ max up.clk (2 * secClk) ∧ (on (hotter 0)).live ∧
    (10500 : Int) ≤ 10500 ∧ (10999 : Int) < 11000 ∧ (hotter 0).boot.hot = 0 ∧ (on (hotter 1)).live ∧ (11000 : Int) ≤ 11000 ∧
    (hotter 1).boot.hot = 1 ∧ (9999 : Int) < 10000 ∧ (hotter 1).boot.hot ≠ 0 := by
  repeat' apply And.intro
  all_goals decide +kernel

/-- The stages of start-up. -/
def staged (g : Stage) (c : Chip) : Chip := c.onBoot fun b => { b with stage := g }
/-- A unit with peg 3; one whose boot record selects slot 0, on trial or not. -/
def pegged : Chip := up.onBoot fun b => { b with peg := 3, tokenOut := some 0 }
def image : ImageHead := { version := 0x01020304, levels := 0, keySlot := 2, revoke := 0 }
def tokened (g : Stage) : Chip := staged g pegged
def recorded (trial : Bool) : Chip := up.onBoot fun b => { b with records := [recordWords { trial := trial }, recordWords { seq := 0xFFFFFFFF }] }
theorem witness_EnumerationAndBoot : (on up).live ∧ up.boot.peg = 0 ∧ 5 * msClk ≤ max up.clk (5 * msClk) ∧
    1 ≤ (62 : Byte).toNat ∧ (62 : Byte).toNat ≤ 62 ∧ 63 ≤ (63 : Byte).toNat ∧ (4 : Byte) ≠ (4 : Byte) ^^^ 0xFF ∧
    (on pegged).live ∧ pegged.boot.peg ≠ 0 ∧ pegged.boot.peg ≠ 62 ∧ 0 + 10 * msClk ≤ max pegged.clk (10 * msClk) ∧
    up.boot.stage = .rom ∧ (on (recorded false)).live ∧ ((recorded false).boot.flashed []).current = some (0, {}) ∧
    (recorded false).boot.slots[0]? = some ({} : ImgSlot) ∧ ({} : ImgSlot).factory = true ∧ headOutcome (recorded false).boot.revoked image = 0 ∧
    (on (recorded true)).live ∧ ((recorded true).boot.flashed []).current = some (0, { trial := true }) ∧
    (recorded true).boot.records.length = 2 ∧ up.boot.slots[1]? = some ({} : ImgSlot) ∧
    ({ factory := false } : ImgSlot).factory = false ∧ (up.onBoot fun b => { b with slots := [{}, { factory := false }] }).boot.slots[1]? =
      some { factory := false } := by
  repeat' apply And.intro
  all_goals decide +kernel

def refLocked : Chip := (staged .ref up).onRef fun r => { r with st := .locked }
def twinned (due : Bool) (r : Role) : Chip := ((staged .twin up).onBoot fun b => { b with audioDue := due }).onTwin fun w => { w with role := r }
theorem witness_EnumerationAndBoot_tokens : (on (staged .line up)).live ∧ (staged .line up).boot.peg = 0 ∧
    (staged .line up).boot.stage ∉ [Stage.rom, .load, .halt] ∧ (on (tokened .line)).live ∧ (tokened .line).boot.differs = false ∧
    (tokened .line).boot.peg ≠ 0 ∧ (tokened .line).boot.peg.toNat ≠ (62 : Byte).toNat ∧ (tokened .line).boot.peg.toNat = (3 : Byte).toNat ∧
    (tokened .line).boot.stage ∉ [Stage.rom, .load, .halt] ∧ (on (tokened .load)).live ∧
    (tokened .load).boot.stage ∈ [Stage.rom, .load, .halt] := by
  refine ⟨live_on _ (by decide +kernel), ?_, ?_, live_on _ (by decide +kernel), ?_, ?_, ?_, ?_, ?_, live_on _ (by decide +kernel), ?_⟩ <;> decide +kernel
theorem witness_StartupStages : (on (staged .load up)).live ∧ (staged .load up).boot.stage = .load ∧ (staged .load up).boot.notes = [] ∧
    (on (staged .sram up)).live ∧ (staged .sram up).boot.stage = .sram ∧ (staged .sram up).mbx.ch[0]? = some ({} : MbxCh) ∧
    (on (staged .line pegged)).live ∧ (staged .line pegged).boot.stage = .line ∧ (staged .line pegged).boot.peg ≠ 0 ∧
    (staged .line pegged).macs[0]? = some ({} : Mac) ∧ (∀ x ∈ (staged .line pegged).macs.take 2, x.modAbs = false ∧ x.txFault = false) ∧ (staged .line pegged).sysIt 0x38 = 1 ∧ (on refLocked).live ∧
    refLocked.boot.stage = .ref ∧ refLocked.ref.st = .locked ∧ (on (staged .ref up)).live ∧ (staged .ref up).ref.st ≠ .locked ∧
    (staged .ref up).boot.stageAt + 60 * secClk ≤ max up.clk (60 * secClk) ∧ (on (staged .fill up)).live ∧
    (staged .fill up).boot.stage = .fill ∧ (on (twinned false .solo)).live ∧ (twinned false .solo).boot.stage = .twin ∧
    (twinned false .solo).boot.audioDue = false ∧ (twinned false .solo).twin.role ≠ .negotiating ∧ (on (twinned false .negotiating)).live ∧
    (twinned false .negotiating).twin.role = .negotiating ∧
    (twinned false .negotiating).boot.stageAt + 10 * secClk ≤ max up.clk (10 * secClk) ∧ (on (twinned true .solo)).live ∧
    (twinned true .solo).boot.stage = .twin ∧ (twinned true .solo).boot.audioDue = true := by
  refine ⟨live_on _ (by decide +kernel), ?_, ?_, live_on _ (by decide +kernel), ?_, ?_, live_on _ (by decide +kernel), ?_, ?_, ?_, ?_, ?_,
    live_on _ (by decide +kernel), ?_, ?_, live_on _ (by decide +kernel), ?_, ?_, live_on _ (by decide +kernel), ?_,
    live_on _ (by decide +kernel), ?_, ?_, ?_, live_on _ (by decide +kernel), ?_, ?_, live_on _ (by decide +kernel), ?_⟩ <;> decide +kernel

/-- Semaphore 31 is free or the host's; the host arms service mode, or is in it; a free access of each kind. -/
def owned : Chip := up.onBus fun b => { b with owners := b.owners.set 31 0x40 }
def armed : Chip := up.onBus fun b => { b with armed := some 0x40 }
def serving : Chip := up.onBus fun b => { b with service := 0x41 }
theorem witness_BusSemaphores : (on owned).live ∧ owned.csrCause 0x40 false (0x50010100 + 4 * 31) 4 = none ∧
    owned.csrCause 0x40 true (0x50010100 + 4 * 31) 4 = none ∧ owned.owner 31 = 0x40 ∧ (0 : Word).toNat % 256 = 0 ∧
    owned.owner 30 ≠ 0x40 ∧ isCore 1 = true ∧ isHost 0x40 = true := ⟨live_on _ (by decide +kernel), by decide +kernel⟩
theorem witness_ServiceAndLocks : (on armed).live ∧ isHost 0x40 = true ∧ armed.boot.serviceDisable = false ∧
    armed.bus.armed = some 0x40 ∧ (on serving).live ∧ serving.bus.armed ≠ some 0x40 ∧ serving.bus.service ≠ 0 ∧ isCore 2 = true ∧
    isEngine 0x27 = true ∧ 1 ≤ (28 : BitVec 5).toNat ∧ (28 : BitVec 5).toNat ≤ 28 ∧ lockedIn 28 [] = true := by
  refine ⟨live_on _ (by decide +kernel), ?_, ?_, ?_, live_on _ (by decide +kernel), ?_⟩ <;> decide +kernel
/-- The error log has a first entry. -/
def logged : Chip := up.onBus fun b => { b with firstInfo := 1 }
def asks : BarReq := { bar2 := false, offset := 0, size := 4, write := false, locked := true }
theorem witness_HostAccesses : (on up).live ∧ up.busCause 0x40 true (0x50030040 : Word).toNat 4 = some 4 ∧ up.bus.firstInfo = 0 ∧
    (on logged).live ∧ logged.bus.firstInfo ≠ 0 ∧ up.csrCause 0x40 true 0x50050048 4 = none ∧ up.csrCause 1 true 0x50000024 4 = none ∧
    0x7E0000 % 8 = 0 ∧ (∀ i < 8, hostOwned (0x40000000 + 0x7E0000 + i) = true) ∧ (List.replicate 8 (0 : Byte)).length = 8 ∧
    up.mem.bytes.wf = true ∧ 0x7FFFFC % 4 = 0 ∧ 0x7FFFFC + 4 ≤ 0x800000 ∧
    (on (clear up)).live ∧ up.host.d3hot = false ∧ (clear up).host.d3hot = false ∧
    (clear up).mem.bytes.clean (0x40000000 + 0x7E0000) 8 = true ∧ ([3] : List Nat) ≠ [] ∧ asks.locked = true ∧ asks.upsets = [] ∧
    (barAddr asks.bar2 asks.offset).isSome = true ∧ up.sys.xqSilent.getLsbD 18 = false ∧ (clear up).mem.bytes.clean (0x40000000 + 0x7FFFFC) 4 = true := by
  refine ⟨live_on _ (by decide +kernel), by decide +kernel, by decide +kernel, live_on _ (by decide +kernel), ?_, ?_, ?_, ?_, ?_, ⟨?_, ?_, ?_, ?_,
    live_on _ (by decide +kernel), ?_⟩⟩ <;> decide +kernel
/-- The head shows a record of the queue, or none. -/
def record7 : Rec := { code := 0x0801, detail := 2, blk := 0, cls := .note, seq := 7 }
def headed : Chip := up.onErr fun e => { e with queue := [record7], headSeq := some 7 }
theorem witness_ErrorRegisters : (on headed).live ∧ headed.csrCause 0x40 true 0x50030030 4 = none ∧ headed.err.headSeq = some 7 ∧
    headed.err.queue = [record7] ∧ record7.seq = 7 ∧ (record7.code ≠ 0x1021 ∧ record7.code ≠ 0x0E21 ∧ record7.code ≠ 0x0101) ∧
    headed.err.first.toList = [] ∧ headed.mem.firstRec ≠ some (record7.code, record7.blk) ∧
    (on up).live ∧ up.err.headSeq = none ∧ up.err.queue = [] ∧ up.csrCause 1 true 0x50030034 4 = none ∧
    up.csrCause 0x40 true 0x50030000 4 = none ∧ up.csrCause 0x40 false 0x50030020 4 = none ∧
    up.csrCause 0x40 false 0x50000010 4 = none :=
  ⟨live_on _ (by decide +kernel), by decide +kernel, by decide +kernel, by decide +kernel, by decide +kernel, by decide +kernel,
    by decide +kernel, by decide +kernel, live_on _ (by decide +kernel), by decide +kernel⟩
/-- A part that serves commands. -/
def served : Chip := (staged .audio (clear up)).onTwin fun w => { w with role := .solo }
/-- A reply waits for SPI. -/
def spiHas : Chip := up.onHost fun h => { h with spiReplies := [[1, 2], [3]] }
theorem witness_SpiTarget : (on served).live ∧ served.spiStatusByte = served.spiStatusByte ∧ (0x50050049 : Word).toNat % 4 ≠ 0 ∧
    (0x40000000 : Word).toNat % 4 = 0 ∧ 0x40000000 ≤ (0x40000000 : Word).toNat ∧ (0x407FFFFC : Word).toNat + 4 ≤ 0x40800000 ∧
    served.mem.bytes.clean 0x407FFFFC 4 = true ∧ served.spiReady = true ∧ (on up).live ∧ up.spiReady = false ∧ served.host.spiReplies = [] ∧
    (on spiHas).live ∧ spiHas.host.spiReplies = [[1, 2], [3]] ∧ (4 : Byte) ∉ ([0x02, 0x03, 0x05, 0x10, 0x11] : List Byte) := by
  refine ⟨live_on _ (by decide +kernel), ?_, ?_, ?_, ?_, ?_, ?_, ?_, live_on _ (by decide +kernel), ?_, ?_,
    live_on _ (by decide +kernel), ?_⟩ <;> decide +kernel

/-- The request ring holds an entry of 16 bytes; indices are free, or out of range. -/
def ringed1 : Chip := { served.onHost (fun h => { h with reqProd := 1 }) with
  mem := { served.mem with bytes := (served.putWords 0x407E0000 [1, 7, 0, 0]).mem.bytes } }
theorem witness_CommandRings : (on served).live ∧ ringDiff 64 served.host.reqCons ≤ 64 ∧ ringDiff 64 served.host.reqProd ≤ 64 ∧
    64 < ringDiff 65 served.host.reqCons ∧ ringDiff 0 served.host.rplCons ≤ ringDiff served.host.rplProd served.host.rplCons ∧
    ringDiff served.host.rplProd served.host.rplCons < ringDiff 1 served.host.rplCons ∧ (on ringed1).live ∧
    ringed1.host.reqProd ≠ ringed1.host.reqCons ∧ ringed1.sys.xqSilent.getLsbD 17 = false ∧ ringed1.takesPackets = true ∧
    ringed1.pcieLoad < 64 ∧ ringed1.streamFull = false ∧ ringed1.err.traps 0x01 = false ∧
    0x407E0000 = 0x407E0000 + ringed1.host.reqCons.toNat % 64 * 0x100 ∧ ringed1.mem.bytes.clean 0x407E0000 256 = true ∧
    16 = 4 * ((ringed1.mem.bytes.byte (0x407E0000 + 3)).toNat + 4) := by
  refine ⟨live_on _ (by decide +kernel), ?_, ?_, ?_, ?_, ?_, live_on _ (by decide +kernel), ?_⟩ <;> decide +kernel

theorem witness_PcieLink : (on served).live ∧ served.csrCause 0x40 true 0x50050040 4 = none ∧
    (served.host.msix[31]?).isSome = true ∧ (PcieCause.flr ≠ .linkDown) ∧ served.bus.service ≠ 0x40 ∧ served.host.linkUp = false :=
  ⟨live_on _ (by decide +kernel), by decide +kernel⟩

/-- Channel 15 is bound and idle, or carries a message of a core, or of a host to the CMD core, or a reply; the pair 14, 15 waits
across. -/
def chan (s r : Byte) : MbxCh := { sender := s, receiver := r, valid := true }
def boxed (x : MbxCh) : Chip := up.onMbx fun m => { m with ch := (m.ch.set 14 { chan 0x10 2 with go := true }).set 15 x }
theorem witness_Mailboxes : (on (boxed (chan 2 0x10))).live ∧ (boxed (chan 2 0x10)).mbx.ch[(15 : Fin 16).val]? = some (chan 2 0x10) ∧
    (boxed (chan 2 0x10)).csrCause 2 true (mbxCtrl 15) 4 = none ∧ (chan 2 0x10).valid = true ∧ (chan 2 0x10).sender = 2 ∧ (chan 2 0x10).go = false ∧
    8 ≤ (16 : BitVec 5).toNat ∧ (16 : BitVec 5).toNat ≤ 16 ∧ (chan 2 0x10).receiver ≠ 0x01 ∧ bellOf (chan 2 0x10).receiver = some 2 ∧
    bellOf (chan 2 0x10).sender = some 1 ∧
    (on (boxed { chan 2 0x10 with go := true })).live ∧ (boxed { chan 2 0x10 with go := true }).csrCause 0x10 true (mbxCtrl 15) 4 = none ∧
    ({ chan 2 0x10 with go := true } : MbxCh).waiting = [] ∧ isCore 1 = true ∧ up.mbx.locked = false ∧
    (0x11002 : Word).getLsbD 16 = true ∧ (bellOf (BitVec.ofNat 8 (0x11002 : Word).toNat)).isSome = true ∧
    (bellOf (BitVec.ofNat 8 ((0x11002 : Word).toNat / 256))).isSome = true ∧
    (BitVec.ofNat 8 (0x11002 : Word).toNat : Byte) ≠ BitVec.ofNat 8 ((0x11002 : Word).toNat / 256) ∧
    up.csrCause 1 true 0x50040040 4 = none ∧ up.csrCause 1 true (0x50042008 + 0x10 * 27) 4 = none ∧
    (boxed { chan 2 0x10 with go := true }).mbx.ch[(14 : Fin 16).val]? = some { chan 0x10 2 with go := true } ∧
    (boxed { chan 2 0x10 with go := true }).mbxPair 15 14 = true ∧ (boxed { chan 2 0x10 with go := true }).mbx.told.contains (min 15 14, max 15 14) = false ∧
    (boxed { chan 2 0x10 with go := true }).err.traps 0x01 = false ∧ (boxed (chan 2 0x10)).err.traps 0x01 = false ∧
    (boxed { chan 2 0x10 with go := true }).streamFull = false ∧
    max 0 0 + (boxed { chan 2 0x10 with go := true }).mbx.crossWait.toNat * usClk ≤ max up.clk secClk ∧
    (on (boxed { chan 1 0x40 with go := true, reply := true })).live ∧ 0 + 100 * msClk ≤ max up.clk (100 * msClk) := by
  repeat' apply And.intro
  all_goals decide +kernel

/-- A part whose audio runs and which serves commands; the tack set holds an item; a command is taken. -/
def running : Chip := { served with audioOnce := true, sys := { served.sys with tickRun := true, audioEn := true } }
def setting : Word := w32 (item 0x0F 0 5)
def tacked : Chip := running.onCmd fun d => { d with tack := [(item 0x0F 0 5, 1)] }
theorem ready_on (o : Nat) (h : Hdr) (s : State) (a : s.chip.held = false ∧ s.chip.err.raising = [] ∧ s.chip.host.pulses = [])
    (b : s.chip.cmdFree = true ∧ s.chip.canReply o h.via h.session = true ∧ s.chip.serves o = true ∧
      s.chip.ownCommand (hostHdr h) = true ∧ h.peer = false ∧ s.chip.boot.resetDue = false ∧ s.chip.cmd.fails = false) : Ready o h s := ⟨a, b⟩

def linked : Hdr := { via := .linkA, tag := 1 }
def managed : Chip := pressed [(item 0x01 0 0x15, 1)] running
theorem witness_SystemCommands : Ready 1 hdr (on running) ∧ (2 : Word).toNat ≤ 2 ∧ 2 < (3 : Word).toNat ∧ Ready 2 hdr (on running) ∧
    running.boot.stage ≠ .halt ∧ Ready 0x0C00 hdr (on running) ∧ Ready 0x0C01 linked (on managed) ∧
    (List.replicate 4 (0 : Word)).length = 4 ∧ (viaPort linked.via).isSome = true ∧ linked.session = 0 ∧ managed.sessionOf 0 = none ∧
    managed.flow.sessions.length < 8 := by
  repeat' apply And.intro
  all_goals decide +kernel

/-- A press waits for its airing copy. -/
def waiting : Chip := tacked.onCmd fun d => { d with waiting := some { items := [], pages := [], slot := 0 } }
theorem witness_TackCommands : Ready 0x0100 hdr (on running) ∧ running.pressPending = false ∧ firOf setting.toNat = none ∧
    running.tackCheck [(setting, 1)] (fun _ => true) = .ok [(setting.toNat, 1)] ∧
    running.tackCheck [(0, 0)] (fun _ => true) = .error (0x12, 0, 0) ∧ Ready 0x0101 hdr (on tacked) ∧
    tacked.badItem [setting] = false ∧ Ready 0x0102 hdr (on tacked) ∧ tacked.pressPending = false ∧ Ready 0x0102 hdr (on waiting) ∧
    waiting.pressPending = true ∧ Ready 0x0106 hdr (on tacked) ∧ (0 : Word).toNat < tacked.cmd.tack.length ∧
    running.cmd.tack = [] ∧ Ready 0x0105 hdr (on tacked) := by
  refine ⟨ready_on _ _ _ ?_ ?_, ?_, ?_, ?_, ?_, ready_on _ _ _ ?_ ?_, ?_, ready_on _ _ _ ?_ ?_, ?_, ready_on _ _ _ ?_ ?_, ?_,
    ready_on _ _ _ ?_ ?_, ?_, ?_, ready_on _ _ _ ?_ ?_⟩ <;> decide +kernel

theorem witness_Presses : tacked.leadsPair = false ∧ Ready 0x0103 hdr (on tacked) ∧ tacked.pressBarred none = none ∧
    tacked.relations tacked.prof (tacked.itemsAt 2) (setItems (tacked.itemsAt 2) tacked.cmd.tack) false tacked.cmd.tack = none ∧
    ringsOf tacked.prof (tacked.itemsAt 2) (setItems (tacked.itemsAt 2) tacked.cmd.tack) tacked.cmd.tack = [] ∧
    needsAiring (tacked.itemsAt 2) (setItems (tacked.itemsAt 2) tacked.cmd.tack) = false ∧ Ready 0x0104 hdr (on tacked) ∧
    tacked.pressBarred (some 2) = none ∧ tacked.slotFor = some 0 ∧ tacked.cmd.jobs.length = 64 ∧ Ready 0x0103 hdr (on waiting) ∧
    waiting.pressBarred none = some stBusy ∧ waiting.leadsPair = false ∧ Ready 0x0600 hdr (on tacked) ∧ tacked.hasJob 0x0600 = false := by
  refine ⟨?_, ready_on _ _ _ ?_ ?_, ?_, ?_, ?_, ?_, ready_on _ _ _ ?_ ?_, ?_, ?_, ?_, ready_on _ _ _ ?_ ?_, ?_, ?_,
    ready_on _ _ _ ?_ ?_, ?_⟩ <;> decide +kernel
theorem witness_Presses_profile : Ready 0x0B00 hdr (on tacked) ∧ tacked.profileBarred 0 = none ∧
    profileOf ((1 : Word).toNat % 4) = some .D ∧ 2 = tacked.sys.blk + 2 ∧
    tacked.relations .D (tacked.itemsAt 2) (setItems (tacked.itemsAt 2) tacked.cmd.tack) true tacked.cmd.tack = none ∧
    pagesNeeded .D (clampDelays .D (setItems (tacked.itemsAt 2) tacked.cmd.tack)) ≤ 2048 ∧ tacked.slotFor = some 0 ∧ 0 < 64 := by
  refine ⟨ready_on _ _ _ ?_ ?_, ?_⟩ <;> decide +kernel

/-- Slot 63 holds this job. -/
def jobbed (j : Job) : Chip := running.onCmd fun d => { d with jobs := d.jobs.set 63 j }
def rinseQ : Job := { st := .queued, opcode := 0x0400 }
theorem witness_JobTable : (jobbed rinseQ).cmd.jobs[(63 : Fin 64).val]? = some rinseQ ∧ Ready 0x0200 hdr (on (jobbed rinseQ)) ∧
    Ready 0x0201 hdr (on (jobbed rinseQ)) ∧ (1015 : Word).toNat < 1016 ∧ 1 ≤ (56 : Word).toNat ∧ (56 : Word).toNat ≤ 56 ∧
    Ready 0x0202 hdr (on (jobbed { st := .done })) ∧ (0x80000000 : Word).getLsbD 31 = true ∧ ({ st := .done } : Job).st.ended = true ∧
    (jobbed { st := .done }).cmd.jobs[(63 : Fin 64).val]? = some { st := .done } ∧ Ready 0x0202 hdr (on running) ∧
    running.cmd.jobs[(63 : Fin 64).val]? = some ({} : Job) ∧ ({} : Job).st = .free ∧ rinseQ.st.live = true ∧
    Ready 0x0202 hdr (on (jobbed rinseQ)) ∧ (on (jobbed rinseQ)).live ∧ ((jobbed rinseQ).executorJobs 0x0400).head? = some 63 ∧
    (on (jobbed { st := .running, opcode := 0x0300 })).live ∧
    (jobbed { st := .running, opcode := 0x0300 }).cmd.jobs[(63 : Fin 64).val]? = some { st := .running, opcode := 0x0300 } := by
  refine ⟨?_, ready_on _ _ _ ?_ ?_, ready_on _ _ _ ?_ ?_, ?_, ?_, ?_, ready_on _ _ _ ?_ ?_, ?_, ?_, ?_, ready_on _ _ _ ?_ ?_, ?_, ?_, ?_,
    ready_on _ _ _ ?_ ?_, live_on _ ?_, ?_, live_on _ ?_, ?_⟩ <;> decide +kernel

/-- A lead that may mend its standby. -/
def leader : Chip := running.onTwin fun w => { w with role := .lead, pathT := true }
theorem witness_JobCommands : running.slotFor = some 0 ∧ running.cmd.jobs.length = 64 ∧ Ready 0x0300 hdr (on running) ∧
    [((0x50000000 : Word).toNat, (56 : Word).toNat)].all snapRange = true ∧ total ([((0x50000000 : Word).toNat, (56 : Word).toNat)].map Prod.snd) ≤ 56 ∧
    Ready 0x0400 hdr (on running) ∧ memRange (0x40000000 : Word).toNat (0x100 : Word).toNat = some 28 ∧ Ready 0x0401 hdr (on running) ∧
    memRange (0x407E0000 : Word).toNat (0x100 : Word).toNat = some 28 ∧ hostBytes (0x407E0000 : Word).toNat (0x100 : Word).toNat = (0x100 : Word).toNat ∧
    Ready 0x0500 hdr (on running) ∧ running.testBarred true = none ∧ running.hasJob 0x0500 = false ∧ running.hasJob 0x0501 = false ∧
    Ready 0x0501 hdr (on running) ∧ (1 : Dword) ≠ 0 ∧ 10 ≤ (10 : Word).toNat ∧ (10000 : Word).toNat ≤ 10000 ∧
    Ready 0x0503 hdr (on running) ∧ (7 : Word).toNat % 16 ≠ 0 ∧ running.testBarred false = none ∧ (7 : Word).getLsbD 3 = false ∧
    running.hasJob 0x0503 = false ∧ Ready 0x0901 hdr (on running) ∧ running.hasJob 0x0901 = false ∧ Ready 0x0800 hdr (on leader) ∧
    leader.twin.role = .lead ∧ leader.twin.pathT = true ∧ leader.twin.unmatched = false ∧ leader.hasJob 0x0800 = false ∧
    leader.slotFor = some 0 := by
  refine ⟨?_, ?_, ready_on _ _ _ ?_ ?_, ?_, ?_, ready_on _ _ _ ?_ ?_, ?_, ready_on _ _ _ ?_ ?_, ?_, ?_, ready_on _ _ _ ?_ ?_, ?_, ?_, ?_,
    ready_on _ _ _ ?_ ?_, ?_, ?_, ?_, ready_on _ _ _ ?_ ?_, ?_, ?_, ?_, ?_, ready_on _ _ _ ?_ ?_, ?_, ready_on _ _ _ ?_ ?_, ?_⟩ <;>
    decide +kernel

def leaderU : Chip := leader.onTwin fun w => { w with unmatched := true }

/-- Channels 0 and 63 are tripped and locked out; counters are captured; a record is queued; an orphan; a verified slot; the
safe state. -/
def tripped : Chip := { running with
  pow := { running.pow with ch := (running.pow.ch.set 0 { st := .tripped, attempts := 2 }).set 63 { st := .lockedOut } }
  graph := { running.graph with cap := { running.graph.cap with counters := [(0, 1023, [5, 6])] } }
  err := { running.err with queue := [record7] } }
def orphan : Chip := running.onTwin fun w => { w with role := .orphan, peerEpoch := 7 }
def slotOne : Chip := running.onBoot fun b => { b with slots := [{}, { verified := true }], records := [[], recordWords {}] }
def unsafeState : Chip := running.onErr fun e => { e with safe := true }
def forced : Hdr := { hdr with force := true }
theorem witness_ImmediateCommands : Ready 0x0301 hdr (on running) ∧ Ready 0x0302 hdr (on tripped) ∧ (1023 : Word).toNat < 1024 ∧
    tripped.graph.cap.counters.find? (fun q => q.1 = 0 && q.2.1 = (1023 : Word).toNat) = some (0, 1023, [5, 6]) ∧
    Ready 0x0502 hdr (on tripped) ∧ (0x8000000000000001 : Dword) ≠ 0 ∧ tripped.err.safe = false ∧ tripped.audioOnce = true ∧
    (∀ m ∈ maskBits 64 (0x8000000000000001 : Dword).toNat, (tripped.modCh m).st = .tripped ∨ (tripped.modCh m).st = .lockedOut) ∧
    tripped.pow.ch.length = 64 ∧ Ready 0x0700 hdr (on running) ∧ (6 : Word).toNat % 8 ≠ 7 ∧ running.grandmaster = false ∧
    Ready 0x0701 hdr (on running) ∧ running.ref.st ≠ .holdover ∧ running.ref.st ≠ .holdoverLimit ∧ Ready 0x0801 hdr (on leader) ∧
    leader.twin.role = .lead ∧ leader.swapBarred = false ∧ leader.leadsPair = true ∧ Ready 0x0801 hdr (on leaderU) ∧
    leaderU.twin.role = .lead ∧ leaderU.swapBarred = false ∧ leaderU.leadsPair = false ∧ Ready 0x0802 forced (on leader) ∧ forced.force = true ∧ Ready 0x0802 forced (on orphan) ∧
    orphan.twin.role = .orphan ∧ Ready 0x0900 hdr (on slotOne) ∧ (1 : Word).toNat < 2 ∧ slotOne.boot.slots[(1 : Word).toNat % 2]? = some { verified := true } ∧
    slotOne.runs ((1 : Word).toNat % 2) = false ∧ Ready 0x0902 hdr (on slotOne) ∧ slotOne.boot.current = some (1, {}) ∧ slotOne.boot.slots[(0 : Word).toNat % 2]? = some ({} : ImgSlot) ∧
    ({} : ImgSlot).verified = false ∧
    Ready 0x0A00 hdr (on tripped) ∧ (15 : Word).toNat ≤ 15 ∧ Ready 0x0A01 hdr (on tripped) ∧ record7 ∈ tripped.err.queue ∧
    record7.code = (0x0801 : Word).toNat ∧ tripped.mem.firstRec = none ∧ Ready 0x0A02 hdr (on unsafeState) ∧ unsafeState.exitBarred = false := by
  repeat' apply And.intro
  all_goals decide +kernel

/-- The stream holds a packet for peg 9, one of 15 bytes, and a HELLO. -/
def check (ws : List Word) : List Word := ws.set 3 (crc32c (wordBytes (ws.take 3 ++ [0] ++ ws.drop 4)))
def pktFor : Pkt := { via := .pcie, words := check [0x00000001, 7, 9, 0], bytes := 16 }
def pktShort : Pkt := { via := .pcie, words := [1, 7, 0, 0], bytes := 15 }
def pktHello : Pkt := { via := .pcie, words := check [0x01000001, 7, 0, 0, 2], bytes := 20 }
def streamed (p : Pkt) : Chip := running.onCmd fun d => { d with stream := [p] }
theorem witness_PacketTaken : (on (streamed pktFor)).live ∧ (streamed pktFor).cmd.stream = [pktFor] ∧ (streamed pktFor).cmdFree = true ∧
    (streamed pktFor).boot.resetDue = false ∧ (streamed pktFor).cmd.fails = false ∧ pktFor.via = .pcie ∧ pktFor.forwarded = false ∧
    pktFor.generation = (streamed pktFor).host.generation ∧ (∀ x ∈ (streamed pktFor).mbx.ch, x.part = []) ∧
    pktFor.bytes = 4 * pktFor.words.length ∧ (pktFor.words.getD 0 0).toNat / 2 ^ 24 = pktFor.words.length - 4 ∧ checkOk pktFor.words = true ∧
    (pktFor.words.getD 2 0).toNat % 64 ≠ 0 ∧ (pktFor.words.getD 2 0).toNat % 64 ≠ (streamed pktFor).boot.peg.toNat ∧
    (on (streamed pktShort)).live ∧ pktShort.bytes < 16 ∧ (on (streamed pktHello)).live ∧
    pktHello.words = [0x01000001, 7, 0, pktHello.words.getD 3 0, 2] ∧ pktHello.bytes = 20 ∧ checkOk pktHello.words = true ∧
    (streamed pktHello).ownCommand pktHello.hdr = true := by
  refine ⟨live_on _ ?_, ?_, ?_, ?_, ?_, ⟨?_, ?_, ?_, ?_, ?_, ⟨?_, ?_, ?_, ?_, live_on _ ?_, ?_, live_on _ ?_, ?_⟩⟩⟩ <;> decide +kernel

/-- Port 0 runs; outside reset, and under EXTEST. -/
def scanned : Chip := up.onBoot fun b => { b with testEn := true }
theorem witness_PinLevels : up.boot.extest = false ∧ ({ up with held := false } : Chip).held = false ∧ scanned.boot.testEn = true ∧
    (List.replicate 128 true)[(63 : Fin 64).val]? = some true ∧ (List.replicate 128 true)[64 + (63 : Fin 64).val]? = some true ∧
    up.audioOnce = false ∧ (∀ x ∈ up.sap.ports, x.running = false) ∧ (up.pow.rails[(7 : Fin 8).val]?).isSome = true := by decide +kernel

end Sys2Proof.Tests
end

namespace Sys2Proof.Machine

/-! What the commands of the block cycle run -/

theorem exec_blockTick (inp : TickIn) (s : State) :
    Sys2Proof.Machine.exec (.blockTick inp) s = actHam (blockTick inp) s := by rfl

theorem exec_xqSourceSilent (k : Fin 19) (mid : Bool) (s : State) :
    Sys2Proof.Machine.exec (.xqSourceSilent k mid) s = act (fun c => c.xqStop k mid) s := by rfl

/-! The block tick: a tick that steps the time counter leaves a reload of the index to the next one -/

/-- Before audio a SELF_TEST of the REF block runs, and an entry into the safe state is due at the next tick. Input 0 is
qualified and forced, and media time is 1000 ns ahead of it. -/
def State.testedAtEntry : State :=
  let c := State.reset.chip
  { State.reset with chip := { c with
      sys := { c.sys with tickRun := true }
      boot := { c.boot with stage := .fill }
      err := { c.err with entry := some (0x0310, 1) }
      ref := { c.ref with
        enabled := true, testing := true, forced := some 0
        ins := c.ref.ins.set 0 { present := true, qualified := true, eligible := true, phase := 1000 } }
      cmd := { c.cmd with jobs := c.cmd.jobs.set 0 { st := .running, opcode := 0x0503 } } } }

theorem State.testedAtEntry_live : State.testedAtEntry.live := ⟨rfl, rfl, rfl⟩

/-- The tick enters the safe state, which ends the test (13 R381). Selection resumes with a switch to input 0, and before
audio that steps the counter at once (11 R307), so the index is to be loaded again at the tick after (19 R494). -/
theorem State.testedAtEntry_reload :
    (blockTick { t := 66666 } (State.testedAtEntry.ham, State.testedAtEntry.chip.begin)).2.sys.reload = true := by
  decide +kernel

/-- Refutes O31: a BLOCK_TICK at which the entry into the safe state ends a SELF_TEST of the REF block leaves
`reload` set. -/
theorem not_tickAndLanding : ¬ Obligations.TickAndLanding := by
  unfold Obligations.TickAndLanding
  intro h
  obtain ⟨tick, -⟩ := h State.testedAtEntry State.testedAtEntry_live rfl rfl rfl
  obtain ⟨t, ht, -, -, -, -, -, noReload, -⟩ := tick { t := 66666 } rfl rfl rfl rfl (by decide)
  rw [exec_blockTick, actHam_live _ State.testedAtEntry_live.1] at ht
  obtain rfl := Host.Outcome.next.inj ht
  simp only [Chip.settle_sys, State.testedAtEntry_reload, Bool.true_eq_false] at noReload

/-! Silent crossings: a falling LINK port completes a descriptor, and that may log a memory event -/

/-- LINKA is up and sends the frame of descriptor 0 of ring 0; a correctable upset has struck the ECC word at the base of
that descriptor. -/
def State.sendingOverUpset : State :=
  let c := State.reset.chip
  { State.reset with chip := { c with
      macs := c.macs.set 0 { up := true, portEn := true, sending := some (0, { slot := some 0, bytes := [] }) }
      mem := { c.mem with bytes := { zeroed := [(0x40000000, 0x40800000)], upset := [(txBase 0 0, false)] } } } }

theorem State.sendingOverUpset_live : State.sendingOverUpset.live := ⟨rfl, rfl, rfl⟩

/-- LINKA falls with its crossing (01 R14). The completion of the descriptor writes a part of the word, which is darned
first (17 R451), and the log of the darn takes a free value for its syndrome (17 R459, log 8). -/
theorem State.sendingOverUpset_fresh :
    (State.sendingOverUpset.chip.begin.xqStop 9 false).fresh = State.sendingOverUpset.chip.fresh + 1 := by decide +kernel

/-- Refutes O33: XQ_SOURCE_SILENT of crossing 9 moves the counter of free values, a piece that its frame does not name. -/
theorem not_silenceAndCrossings : ¬ Obligations.SilenceAndCrossings := by
  unfold Obligations.SilenceAndCrossings
  intro h
  obtain ⟨-, -, silent, -⟩ := h State.sendingOverUpset 0 State.sendingOverUpset_live
  obtain ⟨⟨t, ht, -, -, frame, -⟩, -⟩ := silent 9 false rfl
  rw [exec_xqSourceSilent, act_live _ State.sendingOverUpset_live.1] at ht
  obtain rfl := Host.Outcome.next.inj ht
  have unmoved := frame.get_fresh
  rw [Chip.settle_fresh, State.sendingOverUpset_fresh] at unmoved
  exact Nat.succ_ne_self _ unmoved

end Sys2Proof.Machine

namespace Sys2Proof.Machine

/-! Tags (02 R39, R43, R46, R51) -/

theorem residue_le (v : Int) : residue v ≤ 250 := by
  unfold residue
  omega

@[simp] theorem residue_cast (v : Int) : (residue v : Int) = v % 251 := by
  unfold residue
  omega

@[simp] theorem badTag_residue (v : Int) : badTag (residue v) = false := by
  simpa [badTag] using residue_le v

/-- Residues are good tags, so their sum is taken modulo 251. -/
theorem residue_add (a b : Int) : residue (a + b) = tagAdd (residue a) (residue b) := by
  have sum : ((residue (a + b) : Nat) : Int) = ((residue a + residue b) % 251 : Nat) := by
    push_cast [residue_cast]
    exact Int.add_emod a b 251
  simpa [tagAdd] using Int.ofNat_inj.mp sum

theorem clampTo_of_lt {lo hi : Int} {a : Smp} (h : a.v < lo) :
    clampTo lo hi a = { v := lo, t := tagAdd a.t (residue (lo - a.v)) } := by
  simp [clampTo, h]

theorem clampTo_of_gt {lo hi : Int} {a : Smp} (hlo : lo ≤ a.v) (h : hi < a.v) :
    clampTo lo hi a = { v := hi, t := tagAdd a.t (residue (hi - a.v)) } := by
  simp [clampTo, h, Int.not_lt.mpr hlo]

theorem clampTo_of_mem {lo hi : Int} {a : Smp} (hlo : lo ≤ a.v) (hhi : a.v ≤ hi) : clampTo lo hi a = a := by
  simp [clampTo, Int.not_lt.mpr hlo, Int.not_lt.mpr hhi]

/-- Settles O8: `sat` is `clampTo` at the 32-bit limits, and residues add. -/
theorem saturatedSample : Obligations.SaturatedSample := by
  unfold Obligations.SaturatedSample
  refine fun r t => ⟨fun low => ?_, fun high => ?_, fun low high => ?_, fun q ht => ?_, by decide, by decide⟩
  · exact clampTo_of_lt low
  · exact clampTo_of_gt (le_trans (by decide) high.le) high
  · exact clampTo_of_mem low high
  · rw [ht, residue_add]

theorem passes_iff (x : Smp) : passes x = true ↔ x.t ≤ 250 ∧ (x.t : Int) = x.v % 251 := by
  rw [← residue_cast, Int.natCast_inj]
  simp [passes]

/-- Settles O9: a tag above 250 fails the first half of `passes_iff`. -/
theorem exitCheckVerdict : Obligations.ExitCheckVerdict := by
  unfold Obligations.ExitCheckVerdict
  refine ⟨passes_iff, fun x bad => Bool.eq_false_iff.mpr fun pass => ?_⟩
  obtain ⟨good, -⟩ := (passes_iff x).mp pass
  exact Nat.not_le_of_lt bad good

/-! What the commands that end at a tick run -/

theorem exec_crossfadeEnd (s : State) : Sys2Proof.Machine.exec .crossfadeEnd s = act Chip.fadesEnd s := by rfl

theorem exec_rampEnd (s : State) : Sys2Proof.Machine.exec .rampEnd s = act Chip.rampsEnd s := by rfl

theorem exec_firExchangeEnd (m : Fin 64) (s : State) :
    Sys2Proof.Machine.exec (.firExchangeEnd m) s = act (fun c => c.exchangeEnd m.val) s := by rfl

theorem exec_gateHoldExpiry (n : BitVec 12) (s : State) :
    Sys2Proof.Machine.exec (.gateHoldExpiry n) s = act (fun c => c.gateExpiry n.toNat) s := by rfl

theorem exec_pageRelease (s : State) :
    Sys2Proof.Machine.exec .pageRelease s = act (fun c => c.releasePages (c.sys.blk + 1)) s := by rfl

/-- While the graph runs, the boundary of a sink is that of its next output block, under the items that govern that block:
one block ahead at a modulator, two elsewhere (02 R50, R60). -/
theorem exec_sinkWindowBoundary {s : State} {e : BitVec 12} {k : SinkSt} (hk : mget? s.chip.graph.sink e.toNat = some k)
    (hr : s.chip.graph.run = true) :
    Sys2Proof.Machine.exec (.sinkWindowBoundary e) s = act (fun c => c.sinkBoundary
      (if isMod e.toNat then s.chip.graph.outItems else s.chip.sys.prev.items) e.toNat
      (s.chip.sys.blk + if isMod e.toNat then 1 else 2)) s := by
  change act _ s = _
  simp only [act_next]
  cases hm : isMod e.toNat <;> simp [hk, hr]

/-! Maps, ramps and selectors at the last sample -/

/-- A map changed by index reads as the change of what was there. -/
theorem mget?_mmap {α : Type} (m : List (Nat × α)) (f : Nat → α → α) (k : Nat) :
    mget? (mmap m f) k = (mget? m k).map (f k) := by
  induction m with
  | nil => rfl
  | cons p m ih =>
    obtain ⟨i, v⟩ := p
    change mget? ((i, f i v) :: mmap m f) k = _
    simp only [mget?, ih]
    split
    · next e => simp [e]
    · split <;> rfl

theorem Ramp.pass_zero (r : Ramp) : r.pass 0 = if r.r ≤ r.j then Ramp.steady r.v1 else r := rfl

theorem Sel.pass_of_none {x : Sel} (h : x.fade = none) (b : Nat) : x.pass b = x := by
  simp [Sel.pass, h]

theorem Sel.pass_zero_of_le {x : Sel} {f : Fade} (h : x.fade = some f) (done : f.s ≤ f.j) :
    x.pass 0 = { x with cur := f.dest, fade := none } := by
  simp [Sel.pass, h, done]

theorem Sel.pass_zero_of_lt {x : Sel} {f : Fade} (h : x.fade = some f) (early : f.j < f.s) : x.pass 0 = x := by
  obtain ⟨cur, fade, deferred⟩ := x
  obtain rfl : fade = some f := h
  simp [Sel.pass, Nat.not_le.mpr early]

/-! What ends, one function of the part at a time -/

theorem Chip.fadesEnd_sink {c : Chip} {e : Nat} {k : SinkSt} (h : mget? c.graph.sink e = some k) :
    mget? c.fadesEnd.graph.sink e = some { k with sel := k.sel.pass 0 } := by
  simp [Chip.fadesEnd, mget?_mmap, h]

theorem Chip.rampsEnd_bus {c : Chip} {b : Nat} {x : BusSt} (h : mget? c.graph.bus b = some x) :
    ∃ y, mget? c.rampsEnd.graph.bus b = some y ∧ y.n = x.n ∧ y.scale = x.scale.pass 0 := by
  simp [Chip.rampsEnd, Chip.onMods, mget?_mmap, h]

theorem Chip.rampsEnd_ch {c : Chip} {m : Nat} {x : ModCh} (h : c.pow.ch[m]? = some x) :
    ∃ y, c.rampsEnd.pow.ch[m]? = some y ∧ y.st = x.st ∧ y.gain = x.gain.pass 0 := by
  simp [Chip.rampsEnd, Chip.onMods, h]

theorem Chip.exchangeEnd_of_done {c : Chip} {m n sh j : Nat} {f : FirSt} (h : mget? c.graph.fir m = some f)
    (hx : f.xchg = some (n, sh, j)) (done : n ≤ j) :
    c.exchangeEnd m = c.onGraph fun g =>
      { g with fir := mset g.fir m { f with bank := f.shadow, xchg := none, busy := false } } := by
  simp [Chip.exchangeEnd, h, hx, done]

theorem Chip.gateExpiry_of_due {c : Chip} {n : Nat} {q : SrcSt} (h : mget? c.graph.src n = some q) (gate : q.gate = true)
    (hold : q.hold = 0) (timed : 0 < c.itN (item 0x02 n 0x007)) :
    c.gateExpiry n = c.onGraph fun g => { g with src := mset g.src n { q with gate := false } } := by
  simp [Chip.gateExpiry, h, gate, hold, timed]

/-- At a new window a sink's count starts anew, and it un-mutes after a whole window without a failure unless it waits for
an acknowledgement (02 R58, R60). -/
theorem Chip.sinkBoundary_of_new {c : Chip} {e : Nat} {k : SinkSt} {o : Nat} (items : Items)
    (h : mget? c.graph.sink e = some k) (new : k.win ≠ o / c.W) :
    ∃ y, c.sinkBoundary items e o = c.onGraph (fun g => { g with sink := mset g.sink e y }) ∧
      y.win = o / c.W ∧ y.fails = 0 ∧ y.sel = k.sel ∧
      (y.muted = true ↔ k.muted = true ∧ ¬(k.fails = 0 ∧ latched items e k = false ∧
        c.graph.winFrom + c.W ≤ o / c.W * c.W)) := by
  have hk : mget c.graph.sink e {} = k := by simp [mget, h]
  unfold Chip.sinkBoundary
  simp only [hk, if_neg new]
  refine ⟨_, rfl, rfl, rfl, rfl, ?_⟩
  cases k.muted <;> cases latched items e k <;> simp [imp_iff_not_or]

theorem Chip.mem_releasePages (N : Nat) (c : Chip) (q : Nat × Page) :
    q ∈ (c.releasePages N).graph.pages ↔ q ∈ c.graph.pages ∧ ∀ l, q.2.st = .releasing l → N ≤ l := by
  cases hq : q.2.st <;> simp [Chip.releasePages, hq]

/-! Frames -/

theorem Chip.keeps.fadesEnd {L : List Piece} {a b : Chip} (m : Piece.graph ∈ L) (h : a.keeps L b) : a.keeps L b.fadesEnd :=
  .onGraph m h

theorem Chip.keeps.rampsEnd {L : List Piece} {a b : Chip} (m : Piece.graph ∈ L) (n : Piece.pow ∈ L) (h : a.keeps L b) :
    a.keeps L b.rampsEnd := .onPow n (.onGraph m h)

theorem Chip.keeps.releasePages {L : List Piece} {a b : Chip} {N : Nat} (m : Piece.graph ∈ L) (h : a.keeps L b) :
    a.keeps L (b.releasePages N) := .onGraph m h

/-- A command that does no more than update the graph. -/
theorem completes_onGraph {i : Instr} {s : State} {P : Chip → Prop} {f : Chip → Chip} {g : Graph → Graph}
    (hi : Sys2Proof.Machine.exec i s = act f s) (hl : s.live) (hf : f s.chip.begin = s.chip.begin.onGraph g)
    (hp : P (s.chip.begin.onGraph g).settle) : Completes i s [.graph] P :=
  completes_act f hi hl (hf ▸ .onGraph (by decide) (.refl _ _)) (hf ▸ hp)

/-- Settles O30: each command's clause is the lemma on its function of the part. -/
theorem graphEnds : Obligations.GraphEnds := by
  unfold Obligations.GraphEnds
  intro s live
  refine ⟨?crossfadeEnd, ?rampEnd, ?firExchangeEnd, ?gateHoldExpiry, ?sinkWindowBoundary, ?pageRelease⟩
  case crossfadeEnd =>
    refine completes_act _ (exec_crossfadeEnd s) live (.fadesEnd (by decide) (.refl _ _)) ?_
    rw [Chip.settle_graph]
    refine ⟨rfl, rfl, fun e k hk => ?_⟩
    rw [Chip.fadesEnd_sink (c := s.chip.begin) hk]
    refine ⟨fun still => ?_, fun f running => ⟨fun done => ?_, fun early => ?_⟩⟩
    · rw [Sel.pass_of_none still]
    · rw [Sel.pass_zero_of_le running done]
    · rw [Sel.pass_zero_of_lt running early]
  case rampEnd =>
    refine completes_act _ (exec_rampEnd s) live (.rampsEnd (by decide) (by decide) (.refl _ _)) ?_
    rw [Chip.settle_graph, Chip.settle_pow]
    exact ⟨rfl, rfl, fun b x hx => Chip.rampsEnd_bus (c := s.chip.begin) hx,
      fun m x hx => Chip.rampsEnd_ch (c := s.chip.begin) hx⟩
  case firExchangeEnd =>
    intro m f n sh j hf hx done
    exact completes_onGraph (exec_firExchangeEnd m s) live (Chip.exchangeEnd_of_done hf hx done) (Chip.settle_graph _)
  case gateHoldExpiry =>
    intro n q hq gate hold timed
    exact completes_onGraph (exec_gateHoldExpiry n s) live (Chip.gateExpiry_of_due hq gate hold timed) (Chip.settle_graph _)
  case sinkWindowBoundary =>
    rintro e k _ _ hk run rfl rfl new
    obtain ⟨y, hy, effect⟩ := Chip.sinkBoundary_of_new (c := s.chip.begin) _ hk new
    exact completes_onGraph (exec_sinkWindowBoundary hk run) live hy ⟨y, Chip.settle_graph _, effect⟩
  case pageRelease =>
    refine completes_act _ (exec_pageRelease s) live (.releasePages (by decide) (.refl _ _)) ?_
    rw [Chip.settle_graph]
    exact ⟨rfl, Chip.mem_releasePages _ s.chip.begin⟩

end Sys2Proof.Machine

namespace Sys2Proof.Machine

/-! Reloads of engines (17 R453): the words on which an engine trapped are no longer noted once they are rewritten -/

theorem exec_engineReload (n : Fin 24) (s : State) :
    Sys2Proof.Machine.exec (.engineReload n) s = act (fun c => c.engineReload n.val) s := by rfl

/-- A reload ends the trap, and with it the notes of the words of that engine on which it trapped. -/
theorem Chip.engineReload_sys_of_trapped {c : Chip} {n : Nat} (h : c.sys.engTrap.getLsbD n = true) :
    (c.engineReload n).sys = { c.sys with
      engTrap := c.sys.engTrap &&& ~~~(BitVec.ofNat 24 (2 ^ n))
      trapWords := c.sys.trapWords.filter fun a => !decide (targetIndex a = 3 + n) } := by
  simp [Chip.engineReload, h]

/-- Whatever holds after ENGINE_RELOAD of a trapped engine holds of a part that notes no word of that engine's memory. -/
theorem Completes.engineReload_not_mem_trapWords {s : State} {n : Fin 24} {a : Nat} {named : List Piece} {P : Chip → Prop}
    (completes : Completes (.engineReload n) s named P) (live : s.live) (trapped : s.chip.sys.engTrap.getLsbD n.val = true)
    (mine : targetIndex a = 3 + n.val) : ∃ c, P c ∧ a ∉ c.sys.trapWords := by
  obtain ⟨t, ht, -, -, -, holds⟩ := completes
  rw [exec_engineReload, act_live _ live.1] at ht
  obtain rfl := Host.Outcome.next.inj ht
  refine ⟨_, holds, ?_⟩
  rw [Chip.settle_sys, Chip.engineReload_sys_of_trapped (c := s.chip.begin) trapped]
  simp [mine]

/-- Engine 0 is powered and has trapped on the first word of its memory; the FAULT 0x0211 is recorded. -/
def State.trappedEngine : State :=
  let c := State.reset.chip.onSys fun u => { u with engPwr := 1, engWas := 1 }
  { State.reset with chip := (c.engineTrapAt 0 0x20000000).settle }

theorem State.trappedEngine_live : State.trappedEngine.live := by
  refine ⟨?_, ?_, ?_⟩ <;> decide +kernel

theorem State.trappedEngine_trapped :
    State.trappedEngine.chip.sys.engTrap.getLsbD (0 : Fin 24).val = true ∧
      0x20000000 ∈ State.trappedEngine.chip.sys.trapWords := by
  decide +kernel

/-- Refutes O35: ENGINE_RELOAD of an engine that trapped on a noted word also removes that word from `trapWords`, where the
statement leaves every field of SYS but `engTrap` as it was. -/
theorem not_repairs : ¬ Obligations.Repairs := by
  unfold Obligations.Repairs
  intro h
  obtain ⟨trapped, noted⟩ := State.trappedEngine_trapped
  obtain ⟨-, reload, -, -⟩ := h State.trappedEngine State.trappedEngine_live
  obtain ⟨c, sys, forgotten⟩ := (reload 0 trapped).engineReload_not_mem_trapWords (a := 0x20000000)
    State.trappedEngine_live trapped (by decide +kernel)
  simp only [sys] at forgotten
  exact forgotten noted

end Sys2Proof.Machine

namespace Sys2Proof.Machine

/-! The stop of the ticks in a cold press (05 R137): the last tick still replaces what an unfinished pass 3 left (01 R26) -/

/-- TICK_STOP at the tick at which block ticks stop runs `stopTick`. -/
theorem exec_tickStop {s : State} {k : ColdPress} (live : s.live) (cold : s.chip.cmd.cold = some k)
    (ticking : k.stopped = false) (run : s.chip.sys.tickRun = true) (due : s.chip.stopAt k ≤ s.chip.sys.blk + 1) :
    Sys2Proof.Machine.exec .tickStop s =
      .next { s with chip := (s.chip.begin.stopTick k (s.chip.sys.blk + 1)).settle } := by
  have due' : s.chip.begin.stopAt k ≤ s.chip.sys.blk + 1 := due
  have arm : Sys2Proof.Machine.exec .tickStop s = execTickStop s := rfl
  rw [arm, execTickStop, act_live _ live.1]
  simp [cold, ticking, run, due']

/-- What the frame of TICK_STOP says of the twin, which it does not name: the last tick leaves it. -/
theorem Completes.stopTick_twin {s : State} {k : ColdPress} {named : List Piece} {P : Chip → Prop}
    (completes : Completes .tickStop s named P) (live : s.live) (cold : s.chip.cmd.cold = some k)
    (ticking : k.stopped = false) (run : s.chip.sys.tickRun = true) (due : s.chip.stopAt k ≤ s.chip.sys.blk + 1)
    (unnamed : Piece.twin ∉ [.out, .irq] ++ named) :
    (s.chip.begin.stopTick k (s.chip.sys.blk + 1)).twin = s.chip.twin := by
  obtain ⟨t, ht, -, -, frame, -⟩ := completes
  rw [exec_tickStop live cold ticking run due] at ht
  obtain rfl := Host.Outcome.next.inj ht
  simpa using frame.get_twin unnamed

/-- A cold press to profile E lands at block 90 of profile F, so that block ticks stop at
90 + 12 + 3 and resume 50 ms after block 90 (05 R136). -/
def stoppingPress : ColdPress := { profile := .E, land := 90, resume := 345, items := [], slot := 0 }

/-- Block 104 is under way, and pass 3 of graph block 102 has not handed on the last of the 8 samples of sink 0: its engine
is late. The unit keeps what the passes of graph block 102 left, for the digests of a pair. -/
def State.overrunAtStop : State :=
  let c := State.reset.chip
  { State.reset with chip := { c with
      sys := { c.sys with blk := 104, tickRun := true, audioEn := true, late := [0] }
      graph := { c.graph with run := true, out := [(0, List.replicate 7 {})], left := [(0, 1)] }
      twin := { c.twin with past := [{ blk := 102, ins := [], cfg := {}, pass1 := [], src := [], bus := [] }] }
      cmd := { c.cmd with cold := some stoppingPress } } }

theorem State.overrunAtStop_live : State.overrunAtStop.live := ⟨rfl, rfl, rfl⟩

/-- The missing sample is replaced and fails its exit check at tick 105 (01 R26, R543), which counts at sink 0; the sinks of
graph block 102 are kept anew with that count. -/
theorem State.overrunAtStop_past :
    (State.overrunAtStop.chip.begin.stopTick stoppingPress 105).twin.past.map (fun e => (mget e.sink 0 {}).failTotal) = [1] ∧
      State.overrunAtStop.chip.twin.past.map (fun e => (mget e.sink 0 {}).failTotal) = [0] := by
  decide +kernel

/-- Refutes O32: TICK_STOP after a pass 3 that was left unfinished changes the sinks that TWIN keeps of that graph block, and
its frame does not name TWIN. -/
theorem not_coldPressSteps : ¬ Obligations.ColdPressSteps := by
  unfold Obligations.ColdPressSteps
  intro h
  obtain ⟨stop, -⟩ := h State.overrunAtStop stoppingPress 0 State.overrunAtStop_live rfl
  have due : State.overrunAtStop.chip.stopAt stoppingPress ≤ State.overrunAtStop.chip.sys.blk + 1 := by decide +kernel
  have kept : (State.overrunAtStop.chip.begin.stopTick stoppingPress 105).twin = State.overrunAtStop.chip.twin :=
    (stop rfl rfl due).stopTick_twin State.overrunAtStop_live rfl rfl rfl due (by decide)
  obtain ⟨after, before⟩ := State.overrunAtStop_past
  rw [kept, before] at after
  exact absurd after (by decide)

end Sys2Proof.Machine

namespace Sys2Proof.Machine

/-! The counter of free values (log 4): what leaves it, and that it never goes back -/

theorem mget?_filter_of_get {α : Type} {m : List (Nat × α)} {k : Nat} {v : α} {p : Nat × α → Bool}
    (h : mget? m k = some v) (kept : p (k, v) = true) : mget? (m.filter p) k = some v := by
  induction m with
  | nil => exact h
  | cons q m ih =>
    obtain ⟨i, w⟩ := q
    by_cases here : k = i
    · obtain rfl : w = v := by simpa [mget?, here] using h
      subst here
      simp [kept, mget?]
    · have before : ¬ k < i := fun lt => by simp [mget?, here, lt] at h
      have later := ih (by simpa [mget?, here, before] using h)
      cases keeps : p (i, w) <;> simp [keeps, mget?, here, before, later]

theorem Chip.fresh_le_foldl {α β : Type} (part : α → Chip) {f : α → β → α}
    (step : ∀ a b, (part a).fresh ≤ (part (f a b)).fresh) (l : List β) (a : α) :
    (part a).fresh ≤ (part (l.foldl f a)).fresh := by
  induction l generalizing a with
  | nil => exact le_rfl
  | cons b l ih => exact (step a b).trans (ih _)

@[simp] theorem Chip.raiseFirst_fresh (code : Nat) (cls : Cls) (k d : Nat) (c : Chip) :
    (c.raiseFirst code cls k d).fresh = c.fresh :=
  (Chip.keeps.raiseFirst (L := [.err]) (by decide) (.refl _ _)).get_fresh

@[simp] theorem Chip.store_fresh (a : Nat) (bs : List Byte) (c : Chip) : (c.store a bs).fresh = c.fresh := rfl

@[simp] theorem Chip.memEvent_fresh (kind master a : Nat) (code : Option Nat) (c : Chip) :
    (c.memEvent kind master a code).fresh = c.fresh + 1 := rfl

/-- A darn is logged with a syndrome, which is a free value (17 R451, R459). -/
@[simp] theorem Chip.darn_fresh (master w : Nat) (c : Chip) : (c.darn master w).fresh = c.fresh + 1 := by
  unfold Chip.darn
  dsimp only
  split <;> simp

theorem Chip.correct_fresh_le (master : Nat) (ws : List Nat) (c : Chip) : c.fresh ≤ (c.correct master ws).fresh := by
  refine Chip.fresh_le_foldl id (fun c w => ?_) ws c
  dsimp only [id]
  split
  · simp
  · exact le_rfl

@[simp] theorem Chip.errorResponse_fresh (master : Byte) (a : Nat) (c : Chip) :
    (c.errorResponse master a).fresh = c.fresh := by
  unfold Chip.errorResponse
  split
  · simp
  · split
    · simp
    · split
      · simp
      · split <;> rfl

theorem Chip.innerStore_fresh_le (master : Byte) (a : Nat) (bs : List Byte) (c : Chip) :
    c.fresh ≤ (c.innerStore master a bs).2.fresh := by
  refine Chip.fresh_le_foldl Prod.snd (fun r w => ?_) _ (true, c)
  dsimp only
  have corrected := Chip.correct_fresh_le master.toNat [w] r.2
  split
  · simp
  · split
    · split <;> simp <;> omega
    · simpa using corrected

@[simp] theorem Chip.macCount_fresh (m i : Nat) (c : Chip) : (c.macCount m i).fresh = c.fresh := rfl

@[simp] theorem Chip.pulse_fresh (v : Fin 32) (c : Chip) : (c.pulse v).fresh = c.fresh := rfl

@[simp] theorem Chip.postTx_fresh (m r : Nat) (f : TxFrame) (c : Chip) : (c.postTx m r f).fresh = c.fresh := rfl

@[simp] theorem Chip.postNext_fresh (m r : Nat) (c : Chip) : (c.postNext m r).fresh = c.fresh := by
  unfold Chip.postNext
  split <;> simp

@[simp] theorem Chip.stampOut_fresh (m : Nat) (c : Chip) : (c.stampOut m).2.fresh = c.fresh := by
  unfold Chip.stampOut
  split <;> simp

/-- After the first write of a completion, which is of words 1 and 2 of the descriptor, no free value is given back. -/
theorem Chip.innerStore_fresh_le_txComplete (m r slot attempts status : Nat) (ts : List Word) (c : Chip) :
    ∃ w : Word, (c.innerStore (BitVec.ofNat 8 (0x30 + m)) (txBase m r + 32 * slot + 4)
      (wordBytes [w, BitVec.ofNat 32 attempts])).2.fresh ≤ (c.txComplete m r slot attempts status ts).fresh := by
  refine ⟨(c.word (txBase m r + 32 * slot + 4) &&& 0x00FFFFFF) ||| BitVec.ofNat 32 (status * 2 ^ 24), ?_⟩
  unfold Chip.txComplete
  dsimp only
  split
  · simp
  · simp only [Chip.postNext_fresh, apply_ite Chip.fresh, Chip.pulse_fresh, Chip.macCount_fresh, Chip.onMac_fresh, ite_self]
    exact Chip.innerStore_fresh_le _ (txBase m r + 32 * slot + 16) _ _

theorem Chip.txComplete_fresh_le (m r slot attempts status : Nat) (ts : List Word) (c : Chip) :
    c.fresh ≤ (c.txComplete m r slot attempts status ts).fresh := by
  obtain ⟨w, later⟩ := Chip.innerStore_fresh_le_txComplete m r slot attempts status ts c
  exact (Chip.innerStore_fresh_le ..).trans later

theorem Chip.txDone_fresh_le (m r : Nat) (f : TxFrame) (status : Nat) (ts : List Word) (timed : Bool) (c : Chip) :
    c.fresh ≤ (c.txDone m r f status ts timed).fresh := by
  unfold Chip.txDone
  have counted : (if status = 0 then c.macCount m 6 else c).fresh = c.fresh := by split <;> rfl
  generalize (if status = 0 then c.macCount m 6 else c) = d at counted
  rw [← counted]
  dsimp only
  split
  · exact le_rfl
  · split
    · exact le_rfl
    · refine le_trans (le_of_eq ?_) (Chip.txComplete_fresh_le ..)
      cases timed <;> simp

theorem Chip.txFlush_fresh_le (m r n : Nat) (c : Chip) : c.fresh ≤ (c.txFlush m r n).fresh := by
  induction n generalizing c with
  | zero => exact le_rfl
  | succ n ih =>
    unfold Chip.txFlush
    split
    · exact le_rfl
    · split
      · split
        · exact le_rfl
        · exact (Chip.txDone_fresh_le m r _ _ _ _ (c.onMac m _)).trans (ih _)
      · exact le_rfl

theorem Chip.txStart_fresh (m r : Nat) (c : Chip) : (c.txStart m r).fresh = c.fresh := by
  unfold Chip.txStart
  split <;> rfl

theorem Chip.txFlush_fresh_le_txFlushAll (m : Nat) (c : Chip) :
    (c.txFlush m 0 (((c.mac m).tx.getD 0 {}).queue.length + ((c.mac m).tx.getD 0 {}).owner.length)).fresh ≤
      (c.txFlushAll m).fresh := by
  obtain ⟨rest, rings⟩ : ∃ rest, List.range 8 = 0 :: rest := ⟨_, rfl⟩
  rw [Chip.txFlushAll, rings, List.foldl_cons]
  generalize c.txFlush m 0 _ = d
  refine Chip.fresh_le_foldl id (fun c r => ?_) _ d
  exact Chip.txFlush_fresh_le m r _ c

theorem Chip.linkKick_fresh (m : Nat) (c : Chip) : (c.linkKick m).fresh = (c.txFlushAll m).fresh := by
  rw [Chip.linkKick]
  generalize c.txFlushAll m = d
  generalize d.sys.xqSilent.getLsbD _ = stopped
  split
  · rfl
  · split
    · rw [Chip.txStart_fresh]
    · rfl

/-! A completion over a correctable word takes a free value -/

theorem Memory.ecc_of_zeroed {m : Memory} {w : Nat} (clean : mget? m.upset w = none) (zeroed : m.zeroedAt w = true) :
    m.ecc w = .good := by
  have written : ∃ b, m.get? w = some b := by
    unfold Memory.get?
    cases mget? m.cells w <;> simp [zeroed]
  obtain ⟨b, hb⟩ := written
  simp [Memory.ecc, clean, hb]

theorem Memory.ecc_of_correctable {m : Memory} {w : Nat} (struck : mget? m.upset w = some false) : m.ecc w = .ce := by
  simp [Memory.ecc, struck]

theorem Chip.correct_of_good {master w : Nat} {c : Chip} (good : c.mem.bytes.ecc w = .good) : c.correct master [w] = c := by
  simp [Chip.correct, good]

theorem Chip.store_upset_of_notMem {a w : Nat} {bs : List Byte} {u : Bool} {c : Chip}
    (struck : mget? c.mem.bytes.upset w = some u) (away : w ∉ eccWords a bs.length) :
    mget? (c.store a bs).mem.bytes.upset w = some u :=
  mget?_filter_of_get struck (by simpa using away)

@[simp] theorem Chip.merge_length (w a : Nat) (bs : List Byte) (c : Chip) :
    (c.merge w a bs).length = eccSize (targetIndex w) := by
  simp [Chip.merge, Memory.bytes]

/-- A write over parts of two words of which the second is correctable: that one is darned. -/
theorem Chip.innerStore_fresh_lt {master : Byte} {a v w : Nat} {bs : List Byte} {c : Chip}
    (words : eccWords a bs.length = [v, w]) (partV : ¬(a ≤ v ∧ v + eccSize (targetIndex v) ≤ a + bs.length))
    (partW : ¬(a ≤ w ∧ w + eccSize (targetIndex w) ≤ a + bs.length)) (good : c.mem.bytes.ecc v = .good)
    (struck : mget? c.mem.bytes.upset w = some false) (away : w ∉ eccWords v (eccSize (targetIndex v))) :
    c.fresh < (c.innerStore master a bs).2.fresh := by
  have struck' : (c.store v (c.merge v a bs)).mem.bytes.ecc w = .ce :=
    Memory.ecc_of_correctable (Chip.store_upset_of_notMem struck (by simpa using away))
  unfold Chip.innerStore
  simp only [words, List.foldl, if_neg partV, if_neg partW, Chip.correct_of_good good, good]
  have darned : c.fresh < ((c.store v (c.merge v a bs)).correct master.toNat [w]).fresh := by
    simp [Chip.correct, struck']
  split
  · split <;> simp <;> omega
  · simpa using darned

/-! A reply of the management port whose LINK port has fallen (06 R180, 07 R190) -/

theorem Chip.txFlush_of_barred {m r n s : Nat} {f : TxFrame} {q : List TxFrame} {c : Chip}
    (head : ((c.mac m).tx.getD r {}).queue = f :: q) (unfixed : f.fixed = none) (bar : c.txBar m = some s)
    (idle : (c.mac m).busy r = false) :
    c.txFlush m r (n + 1) =
      ((c.onMac m fun x => { x with tx := lmod x.tx r fun y => { y with queue := y.queue.drop 1 } }).txDone m r f s
        [0, 0, 0] false).txFlush m r n := by
  rw [Chip.txFlush]
  simp only [head, unfixed, bar, idle]
  rfl

theorem Chip.txBar_of_down {m : Nat} {c : Chip} (link : m < 2) (down : (c.mac m).up = false) : c.txBar m = some 1 := by
  simp [Chip.txBar, link, down]

/-! The memory after a reply is posted in the first descriptor of ring 0 of LINKA (07 R214, R541) -/

theorem mget?_of_forall_ne {α : Type} {m : List (Nat × α)} {k : Nat} (h : ∀ p ∈ m, p.1 ≠ k) : mget? m k = none := by
  induction m with
  | nil => rfl
  | cons p m ih =>
    obtain ⟨i, v⟩ := p
    have other : k ≠ i := fun e => h (i, v) (List.mem_cons_self ..) e.symm
    have later := ih fun q hq => h q (List.mem_cons_of_mem _ hq)
    simp [mget?, other, later]

theorem Memory.puts_zeroed (m : Memory) (a : Nat) (bs : List Byte) : (m.puts a bs).zeroed = m.zeroed := by
  induction bs generalizing m a with
  | nil => rfl
  | cons b bs ih =>
    refine (ih (m.put a b) (a + 1)).trans ?_
    unfold Memory.put
    split <;> rfl

@[simp] theorem Chip.putWords_zeroedAt (a w : Nat) (ws : List Word) (c : Chip) :
    (c.putWords a ws).mem.bytes.zeroedAt w = c.mem.bytes.zeroedAt w := by
  have same : (c.putWords a ws).mem.bytes.zeroed = c.mem.bytes.zeroed := Memory.puts_zeroed _ _ _
  simp [Memory.zeroedAt, same]

theorem Chip.mem_putWords_upset {a : Nat} {ws : List Word} {c : Chip} {u : Nat × Bool} :
    u ∈ (c.putWords a ws).mem.bytes.upset ↔ u ∈ c.mem.bytes.upset ∧ u.1 ∉ eccWords a (wordBytes ws).length := by
  have filtered : (c.putWords a ws).mem.bytes.upset =
      c.mem.bytes.upset.filter fun u => u.1 ∉ eccWords a (wordBytes ws).length := rfl
  simp [filtered]

theorem Chip.unused_ring {c : Chip} {x : Mac} (mac : c.macs[0]? = some x) (unused : x.tx[0]? = some ({} : TxSide)) :
    (c.mac 0).tx.getD 0 {} = {} := by
  rw [Chip.mac, getD_of_get mac, getD_of_get unused]

/-- The first descriptor of an unused ring 0 of LINKA is posted: its words 0 and 1, and the producer index. -/
theorem Chip.postTx_of_unused {c : Chip} (unused : (c.mac 0).tx.getD 0 {} = {}) (f : TxFrame) :
    ∃ ws : List Word, ws.length = 2 ∧ c.postTx 0 0 f =
      ((c.putWords 0x40480000 ws).putWords 0x40482000 [1]).enqueue 0 0 { f with slot := some 0 } := by
  refine ⟨[Config.frameAddr 0 0 0 &&& 0xFFFFFFFC, pack [(0, 11, f.bytes.length), (16, 1, b2n f.tsReq)]], rfl, ?_⟩
  rw [Chip.postTx, unused]
  rfl

theorem wordBytes_length (ws : List Word) : (wordBytes ws).length = 4 * ws.length := by
  induction ws with
  | nil => rfl
  | cons w ws ih =>
    have four : (leBytes 4 w.toNat).length = 4 := rfl
    have split : wordBytes (w :: ws) = leBytes 4 w.toNat ++ wordBytes ws := rfl
    rw [split, List.length_append, four, ih, List.length_cons]
    omega

/-- Posting writes all of the first ECC word of the descriptor and none of the second. -/
theorem Chip.postTx_ecc {c : Chip} (unused : (c.mac 0).tx.getD 0 {} = {}) (f : TxFrame)
    (zeroed : c.mem.bytes.zeroedAt 0x40480000 = true) (struck : mget? c.mem.bytes.upset 0x40480008 = some false) :
    (c.postTx 0 0 f).mem.bytes.ecc 0x40480000 = .good ∧
      mget? (c.postTx 0 0 f).mem.bytes.upset 0x40480008 = some false := by
  obtain ⟨ws, two, posted⟩ := Chip.postTx_of_unused unused f
  have bytes : (wordBytes ws).length = 8 := by rw [wordBytes_length, two]
  have mem : (c.postTx 0 0 f).mem = ((c.putWords 0x40480000 ws).putWords 0x40482000 [1]).mem := by rw [posted]; rfl
  rw [mem]
  refine ⟨Memory.ecc_of_zeroed (mget?_of_forall_ne fun u hu => ?_) (by simpa using zeroed), ?_⟩
  · obtain ⟨hu, -⟩ := Chip.mem_putWords_upset.mp hu
    obtain ⟨-, away⟩ := Chip.mem_putWords_upset.mp hu
    intro e
    rw [e, bytes] at away
    exact away (by decide)
  · exact Chip.store_upset_of_notMem (Chip.store_upset_of_notMem struck (by rw [bytes]; decide)) (by decide)

theorem Chip.queueTx_of_unused {c : Chip} (unused : (c.mac 0).tx.getD 0 {} = {}) (f : TxFrame) :
    c.queueTx 0 0 f = c.postTx 0 0 f := by
  rw [Chip.queueTx, unused]
  exact if_pos ⟨rfl, by decide⟩

/-- Ring 0 of LINKA then holds the frame alone. -/
theorem Chip.postTx_mac {c : Chip} {x : Mac} (mac : c.macs[0]? = some x) (unused : x.tx[0]? = some ({} : TxSide))
    (f : TxFrame) :
    (c.postTx 0 0 f).mac 0 = { x with tx := x.tx.set 0 { queue := [{ f with slot := some 0 }], fetched := 1 } } := by
  obtain ⟨ws, -, posted⟩ := Chip.postTx_of_unused (Chip.unused_ring mac unused) f
  have macs : (c.postTx 0 0 f).macs = lmod c.macs 0 fun x => { x with
      tx := lmod x.tx 0 fun y => { y with queue := y.queue ++ [{ f with slot := some 0 }], fetched := y.fetched + 1 } } := by
    rw [posted]; rfl
  rw [Chip.mac, macs, lmod_of_get mac, getD_of_get (set_get mac _), lmod_of_get unused]
  rfl

/-- A completion of the first descriptor of ring 0 of LINKA writes parts of its first two ECC words. -/
theorem Chip.txDone_fresh_lt {c : Chip} {f : TxFrame} (slot : f.slot = some 0) (runs : c.dmaHalted 0 = false)
    (good : c.mem.bytes.ecc 0x40480000 = .good) (struck : mget? c.mem.bytes.upset 0x40480008 = some false) (ts : List Word) :
    c.fresh < (c.txDone 0 0 f 1 ts false).fresh := by
  have done : c.txDone 0 0 f 1 ts false = c.txComplete 0 0 0 f.attempts 1 ts := by
    simp [Chip.txDone, slot, runs]
  obtain ⟨w, later⟩ := Chip.innerStore_fresh_le_txComplete 0 0 0 f.attempts 1 ts c
  rw [done]
  refine lt_of_lt_of_le (Chip.innerStore_fresh_lt (v := 0x40480000) (w := 0x40480008) ?_ ?_ ?_ good struck (by decide)) later
  all_goals
    simp only [wordBytes_length, List.length_cons, List.length_nil]
    decide

/-- A frame that LINKA cannot send completes LINK_DOWN at once, and the DMA channel darns the correctable second ECC word
of its descriptor (07 R214, 17 R455). -/
theorem Chip.linkKick_postTx_fresh_lt {c : Chip} {x : Mac} {f : TxFrame} (unfixed : f.fixed = none)
    (mac : c.macs[0]? = some x) (unused : x.tx[0]? = some ({} : TxSide)) (down : x.up = false) (idle : x.sending = none)
    (runs : c.dmaHalted 0 = false) (zeroed : c.mem.bytes.zeroedAt 0x40480000 = true)
    (struck : mget? c.mem.bytes.upset 0x40480008 = some false) : c.fresh < ((c.postTx 0 0 f).linkKick 0).fresh := by
  have posted := Chip.postTx_mac mac unused f
  obtain ⟨good, struck'⟩ := Chip.postTx_ecc (Chip.unused_ring mac unused) f zeroed struck
  have runs' : (c.postTx 0 0 f).dmaHalted 0 = false := runs
  rw [Chip.linkKick_fresh, ← Chip.postTx_fresh 0 0 f c]
  generalize c.postTx 0 0 f = d at posted good struck' runs' ⊢
  refine lt_of_lt_of_le ?_ (Chip.txFlush_fresh_le_txFlushAll 0 d)
  have side : (d.mac 0).tx.getD 0 {} = { queue := [{ f with slot := some 0 }], fetched := 1 } := by
    rw [posted]
    exact getD_of_get (set_get unused _) _
  have bar : d.txBar 0 = some 1 := Chip.txBar_of_down (by decide) (by rw [posted]; exact down)
  have free : (d.mac 0).busy 0 = false := by simp [posted, Mac.busy, idle]
  rw [side]
  change d.fresh < (d.txFlush 0 0 (0 + 1)).fresh
  rw [Chip.txFlush_of_barred (congrArg TxSide.queue side) unfixed bar free]
  exact Chip.txDone_fresh_lt (c := d.onMac 0 _) rfl runs' good struck' _

/-- So a management reply on LINKA, once the port is down, takes a free value. -/
theorem Chip.sendMgmt_fresh_lt {c : Chip} {x : Mac} {bs : List Byte} (mac : c.macs[0]? = some x)
    (unused : x.tx[0]? = some ({} : TxSide)) (down : x.up = false) (idle : x.sending = none) (runs : c.dmaHalted 0 = false)
    (zeroed : c.mem.bytes.zeroedAt 0x40480000 = true) (struck : mget? c.mem.bytes.upset 0x40480008 = some false) :
    c.fresh < (c.sendMgmt 0 bs).fresh := by
  have ring : (c.mac 0).tx.getD 0 {} = {} := Chip.unused_ring mac unused
  have sent : c.sendMgmt 0 bs = (c.postTx 0 0 { bytes := bs, postedAt := c.clk }).linkKick 0 := by
    rw [Chip.sendMgmt, Chip.sendFrame, if_pos (by decide), if_pos (by decide), Chip.queueTx_of_unused ring]
  rw [sent]
  exact Chip.linkKick_postTx_fresh_lt rfl mac unused down idle runs zeroed struck

/-! What a close does once the copies are taken -/

theorem Chip.dropped_fresh (i : Nat) (c : Chip) : (c.dropped i).fresh = c.fresh := rfl

theorem Chip.present_fresh (items : Items) (P x : Nat) (c : Chip) : (c.present items P x).fresh = c.fresh := by
  unfold Chip.present
  simp only [apply_ite Chip.fresh, Chip.raise_fresh, Chip.dropped_fresh, Chip.onFlow_fresh, ite_self]

theorem Chip.presentAll_fresh (items : Items) (P : Nat) (c : Chip) : (c.presentAll items P).fresh = c.fresh := by
  unfold Chip.presentAll
  generalize ctxsOf c.prof items 2 = xs
  induction xs generalizing c with
  | nil => rfl
  | cons x xs ih => exact (ih _).trans (Chip.present_fresh items P x c)

theorem Chip.airingEnd_fresh (c : Chip) : c.airingEnd.fresh = c.fresh := by
  unfold Chip.airingEnd
  split <;> rfl

theorem Chip.airingEnds_fresh (P : Nat) (as : List Airing) (c : Chip) : (c.airingEnds P as).fresh = c.fresh := by
  induction as generalizing c with
  | nil => rfl
  | cons a as ih =>
    unfold Chip.airingEnds
    split
    · rw [ih, Chip.airingEnd_fresh]
    · rfl

/-- The close of the next block takes free values only where it takes copies. -/
theorem Chip.closeBlock_fresh (c : Chip) :
    (c.closeBlock c.flow.nextClose).fresh = (c.takeUntil (min (c.closeAt c.flow.nextClose) c.clk)
      (((c.mac 0).rx.getD 0 {}).inbox.length + ((c.mac 1).rx.getD 0 {}).inbox.length)).fresh := by
  unfold Chip.closeBlock
  simp only [if_true, Chip.airingEnds_fresh, Chip.onFlow_fresh, apply_ite Chip.fresh, Chip.presentAll_fresh, ite_self]

/-! A management request that names no session (06 R165, R180) -/

theorem Chip.takeUntil_of_first {c : Chip} {t n : Nat} {x : RxFrame} {q : List RxFrame}
    (first : ((c.mac 0).rx.getD 0 {}).inbox = x :: q) (other : ((c.mac 1).rx.getD 0 {}).inbox = []) (early : x.at_ < t) :
    c.takeUntil t (n + 1) = (c.takeCopy 0).takeUntil t n := by
  rw [Chip.takeUntil]
  simp only [first, other, List.head?_cons, List.head?_nil, Option.map_some, Option.map_none, if_pos early]

/-- The part when the FLOW block has taken the frame at the head of LINKA's ring 0. -/
def Chip.popped (x : RxFrame) (c : Chip) : Chip :=
  (c.onMac 0 fun m => { m with rx := lmod m.rx 0 fun y => { y with inbox := y.inbox.drop 1 } }).giveBuffers 0 0 x.bufs

theorem Chip.takeCopy_of_head {c : Chip} {x : RxFrame} {q : List RxFrame}
    (head : ((c.mac 0).rx.getD 0 {}).inbox = x :: q) : c.takeCopy 0 = (c.popped x).arrive x 0 := by
  have pop : c.popInbox 0 0 = (some x, c.popped x) := by
    unfold Chip.popInbox
    rw [head]
    rfl
  simp [Chip.takeCopy, pop]

theorem Chip.arrive_of_mgmt {c : Chip} {x : RxFrame} {l : Nat} (whole : x.trunc = false)
    (udp : c.udpOk (c.flowFrame x.bytes) = true) (type : (c.flowFrame x.bytes).at_ 0 1 = 2) :
    c.arrive x l = c.mgmt (c.flowFrame x.bytes) l := by
  simp [Chip.arrive, whole, udp, type]

/-- A request to which the part answers with a reply without a session. -/
structure Chip.Unknown (c : Chip) (f : FlowFrame) : Prop where
  enabled : c.sysIt 0x15 = 1
  request : f.at_ 10 1 = 0
  udp : c.udpOk f = true
  level : c.levelOk (f.at_ 1 1) = true
  words : f.at_ 8 2 % 4 = 0
  long : 16 ≤ f.at_ 8 2
  short : f.at_ 8 2 ≤ 256
  whole : f.h + 48 + f.at_ 8 2 ≤ f.bytes.length
  named : f.at_ 2 2 ≠ 0
  sessionless : c.flow.sessions = []

theorem Chip.mgmt_of_unknown {c : Chip} {f : FlowFrame} (h : c.Unknown f) (m : Nat) :
    ∃ bs, c.mgmt f m = ((c.onFlow fun u => { u with noSession := satInc 0xFFFF u.noSession }).onCmd
      fun k => { k with refusals := k.refusals + 1 }).sendMgmt m bs := by
  unfold Chip.mgmt
  simp only [h.enabled, ne_eq, not_true_eq_false, h.request, or_self, ↓reduceIte, h.udp, Bool.not_true,
    Bool.false_eq_true, h.level, h.whole, decide_true, h.words, Bool.and_self, h.long, h.short, h.named, decide_false,
    Bool.false_and, h.sessionless, List.find?_nil]
  exact ⟨_, rfl⟩

/-! The refutation -/

/-- A request of session 5, of which the part knows nothing: addresses, EtherType, flow header, an empty packet, and a check. -/
def unknownRequest : RxFrame :=
  { bytes := beBytes 6 0x020000000001 ++ beBytes 6 0x020000000009 ++ beBytes 2 0x88B5 ++
      [2, 3, 0, 5, 0, 0, 0, 1, 0, 16, 0, 0, 0, 0, 0, 0] ++ List.replicate 48 0
    trunc := false, bufs := [3], at_ := 0 }

/-- Block 1 is to close. The request came on LINKA, which is down by now; a correctable upset has struck the second ECC word
of the first descriptor of its ring 0. -/
def State.closingOverUpset : State :=
  let c := State.reset.chip
  { State.reset with chip := { c with
      clk := 66000
      sys := { c.sys with tickRun := true, now := { c.sys.now with items := [(item 0x01 0 0x15, 1)] } }
      flow := { c.flow with nextClose := 1 }
      macs := c.macs.set 0 { portEn := true, rx := { made := 1, inbox := [unknownRequest] } :: List.replicate 7 {} }
      mem := { c.mem with bytes := { zeroed := [(0x40000000, 0x40800000)], upset := [(0x40480008, false)] } } } }

theorem State.closingOverUpset_live : State.closingOverUpset.live := ⟨rfl, rfl, rfl⟩

theorem State.closingOverUpset_unknown :
    (State.closingOverUpset.chip.begin.popped unknownRequest).Unknown
      ((State.closingOverUpset.chip.begin.popped unknownRequest).flowFrame unknownRequest.bytes) := by
  constructor <;> decide +kernel

theorem exec_presentationClose {s : State} (live : s.live) (run : s.chip.sys.tickRun = true)
    (due : s.chip.flow.nextClose = s.chip.sys.blk + 1) :
    Sys2Proof.Machine.exec .presentationClose s = .next { s with chip := (s.chip.begin.closeBlock s.chip.flow.nextClose).settle } := by
  have arm : Sys2Proof.Machine.exec .presentationClose s = execPresentationClose s := rfl
  rw [arm, execPresentationClose, act_live _ live.1]
  simp [run, due]

/-- The reply finds LINKA down, and its descriptor completes over the upset (07 R190, R214, 17 R451, R455): the log of the
darn takes a free value for its syndrome (17 R459, log 8). -/
theorem State.closingOverUpset_fresh :
    State.closingOverUpset.chip.fresh < (State.closingOverUpset.chip.begin.closeBlock 1).fresh := by
  have close := Chip.closeBlock_fresh State.closingOverUpset.chip.begin
  have head : ((State.closingOverUpset.chip.begin.mac 0).rx.getD 0 {}).inbox = [unknownRequest] := rfl
  have other : ((State.closingOverUpset.chip.begin.mac 1).rx.getD 0 {}).inbox = [] := rfl
  have next : State.closingOverUpset.chip.begin.flow.nextClose = 1 := rfl
  rw [next, head, other] at close
  rw [close, List.length_singleton, List.length_nil, Chip.takeUntil_of_first (n := 0) head other (by decide +kernel)]
  change _ < (State.closingOverUpset.chip.begin.takeCopy 0).fresh
  obtain ⟨bs, reply⟩ := Chip.mgmt_of_unknown State.closingOverUpset_unknown 0
  rw [Chip.takeCopy_of_head head, Chip.arrive_of_mgmt rfl State.closingOverUpset_unknown.udp (by decide +kernel), reply]
  exact Chip.sendMgmt_fresh_lt (c := (Chip.onFlow _ (State.closingOverUpset.chip.begin.popped unknownRequest)).onCmd _)
    rfl rfl rfl rfl (by decide +kernel) (by decide +kernel) (by decide +kernel)

/-- Refutes O36: PRESENTATION_CLOSE takes a management request whose reply completes a descriptor over a correctable word, and
moves the counter of free values, a piece that its frame does not name. -/
theorem not_flowSteps : ¬ Obligations.FlowSteps := by
  unfold Obligations.FlowSteps
  intro h
  obtain ⟨-, -, -, -, -, -, close, -⟩ := h State.closingOverUpset 0 State.closingOverUpset_live
  obtain ⟨t, ht, -, -, frame, -⟩ := close rfl rfl
  rw [exec_presentationClose State.closingOverUpset_live rfl rfl] at ht
  obtain rfl := Host.Outcome.next.inj ht
  have unmoved := frame.get_fresh
  rw [Chip.settle_fresh] at unmoved
  exact absurd unmoved (ne_of_gt State.closingOverUpset_fresh)

end Sys2Proof.Machine

namespace Sys2Proof.Machine

/-! Where the hamper buffers are (07 R208) -/

/-- The buffers of a receive ring, in whichever of its three states. -/
def RxRing.buffers (r : RxRing) : List Nat := r.posted ++ r.asm ++ r.held

/-- All buffers, the FREE ones first. -/
def Hamper.buffers (h : Hamper) : List Nat := h.free ++ h.rings.flatMap RxRing.buffers

theorem Hamper.whole_iff (h : Hamper) : h.whole ↔ h.buffers.Perm (List.range 16384) := Iff.rfl

/-- The buffers of one ring, apart from the others. -/
theorem flatMap_buffers_perm {l : List RxRing} {i : Nat} {r : RxRing} (h : l[i]? = some r) :
    (l.flatMap RxRing.buffers).Perm (r.buffers ++ (l.eraseIdx i).flatMap RxRing.buffers) := by
  obtain ⟨lt, rfl⟩ := List.getElem?_eq_some_iff.mp h
  exact ((List.getElem_cons_eraseIdx_perm lt).flatMap_right _).symm

theorem flatMap_buffers_set_perm {l : List RxRing} {i : Nat} {r : RxRing} (h : l[i]? = some r) (r' : RxRing) :
    ((l.set i r').flatMap RxRing.buffers).Perm (r'.buffers ++ (l.eraseIdx i).flatMap RxRing.buffers) := by
  rw [← List.eraseIdx_set_eq (a := r')]
  exact flatMap_buffers_perm (set_get h r')

/-- Buffers that move between FREE and one ring, or within it, are all still there. -/
theorem Hamper.whole.set {h : Hamper} {i : Nat} {r r' : RxRing} {free : List Nat} (w : h.whole) (get : h.rings[i]? = some r)
    (moved : (free ++ r'.buffers).Perm (h.free ++ r.buffers)) : Hamper.whole { free := free, rings := h.rings.set i r' } := by
  rw [Hamper.whole_iff] at w ⊢
  refine List.Perm.trans ?_ w
  have after := (flatMap_buffers_set_perm get r').append_left free
  have before := (flatMap_buffers_perm get).append_left h.free
  rw [← List.append_assoc] at after before
  exact after.trans ((moved.append_right _).trans before.symm)

/-- Moves within one ring; of a ring that there is not, nothing moves. -/
theorem Hamper.whole.onRing {h : Hamper} {i : Nat} {f : RxRing → RxRing} (w : h.whole)
    (moved : ∀ r, (f r).buffers.Perm r.buffers) : Hamper.whole { h with rings := lmod h.rings i f } := by
  cases get : h.rings[i]? with
  | none =>
    have same : lmod h.rings i f = h.rings := by
      rw [lmod, List.modify_eq_self (by simpa using get)]
    rwa [same]
  | some r =>
    rw [lmod_of_get get]
    exact w.set get ((moved r).append_left _)

/-! Every move of R208 -/

theorem count_eq_take_add_drop (b n : Nat) (l : List Nat) : l.count b = (l.take n).count b + (l.drop n).count b := by
  rw [← List.count_append, List.take_append_drop]

theorem Hamper.whole.take {h : Hamper} {i n : Nat} (w : h.whole) : (h.take i n).whole := by
  refine w.onRing fun r => List.perm_iff_count.mpr fun b => ?_
  have split := count_eq_take_add_drop b n r.posted
  simp only [RxRing.buffers, List.count_append]
  omega

theorem Hamper.whole.complete {h : Hamper} {i n : Nat} (w : h.whole) : (h.complete i n).whole := by
  refine w.onRing fun r => List.perm_iff_count.mpr fun b => ?_
  have split := count_eq_take_add_drop b n r.asm
  simp only [RxRing.buffers, List.count_append]
  omega

theorem Hamper.whole.giveBack {h : Hamper} {i k : Nat} (w : h.whole) : (h.giveBack i k).whole := by
  refine w.onRing fun r => List.perm_iff_count.mpr fun b => ?_
  have split := count_eq_take_add_drop b k r.asm
  simp only [RxRing.buffers, List.count_append]
  omega

theorem Hamper.ring_of_get {h : Hamper} {i : Nat} {r : RxRing} (get : h.rings[i]? = some r) : h.ring i = r := getD_of_get get _

theorem Hamper.refill_of_get {h : Hamper} {i : Nat} {r : RxRing} (get : h.rings[i]? = some r) (n : Nat) :
    h.refill i n = { free := h.free.drop n, rings := h.rings.set i { r with posted := r.posted ++ h.free.take n } } := by
  obtain ⟨lt, -⟩ := List.getElem?_eq_some_iff.mp get
  rw [Hamper.refill, if_pos lt, lmod_of_get get]

theorem Hamper.whole.refill {h : Hamper} {i n : Nat} (w : h.whole) : (h.refill i n).whole := by
  cases get : h.rings[i]? with
  | none =>
    rw [Hamper.refill, if_neg (by simpa using get)]
    exact w
  | some r =>
    rw [Hamper.refill_of_get get]
    refine w.set get (List.perm_iff_count.mpr fun b => ?_)
    have split := count_eq_take_add_drop b n h.free
    simp only [RxRing.buffers, List.count_append]
    omega

theorem Hamper.returned_of_mem {h : Hamper} {i b : Nat} {r : RxRing} (get : h.rings[i]? = some r) (held : b ∈ r.held) :
    h.returned i b = { free := h.free ++ [b], rings := h.rings.set i { r with held := r.held.erase b } } := by
  rw [Hamper.returned, Hamper.ring_of_get get, if_pos held, lmod_of_get get]

theorem Hamper.returned_of_notMem {h : Hamper} {i b : Nat} (other : b ∉ (h.ring i).held) : h.returned i b = h := if_neg other

theorem Hamper.whole.returned {h : Hamper} {i b : Nat} (w : h.whole) : (h.returned i b).whole := by
  by_cases held : b ∈ (h.ring i).held
  · cases get : h.rings[i]? with
    | none => simp [Hamper.ring, get] at held
    | some r =>
      rw [Hamper.ring_of_get get] at held
      rw [Hamper.returned_of_mem get held]
      refine w.set get ?_
      refine List.perm_iff_count.mpr fun x => ?_
      have back := (List.perm_cons_erase held).count_eq x
      simp only [RxRing.buffers, List.count_append, List.count_cons, List.count_nil] at back ⊢
      omega
  · rwa [Hamper.returned_of_notMem held]

theorem Hamper.whole_reset : Hamper.whole {} := by
  have none : (List.replicate 24 ({} : RxRing)).flatMap RxRing.buffers = [] := by decide
  rw [Hamper.whole_iff, Hamper.buffers, none, List.append_nil]

/-! The functions of the part that move buffers (07 R208 to R213, 17 R454) -/

theorem Hamper.whole.rxComplete {s : Hamper × Chip} {m r : Nat} {bufs : List Nat} {ws : List Word} {timed : Bool} {f : RxFrame}
    (w : s.1.whole) : (rxComplete m r bufs ws timed f s).1.whole := w.complete

theorem Hamper.whole.ite {p : Prop} [Decidable p] {a b : Hamper × Chip} (wa : a.1.whole) (wb : b.1.whole) :
    (if p then a else b).1.whole := by
  split
  · exact wa
  · exact wb

theorem Hamper.whole.deliverRx {s : Hamper × Chip} {m r : Nat} {bs : List Byte} {trunc timed : Bool} {bufs : List Nat}
    (w : s.1.whole) : (deliverRx m r bs trunc timed bufs s).1.whole := by
  unfold Machine.deliverRx
  exact .ite w w.complete

theorem Hamper.whole.truncate {s : Hamper × Chip} {m r n : Nat} {bs : List Byte} (w : s.1.whole) :
    (truncate m r n bs s).1.whole := by
  unfold Machine.truncate
  exact .ite w.take (.deliverRx (s := (_, _)) w.take)

theorem Hamper.whole.receiveBad {s : Hamper × Chip} {m r : Nat} {bs : List Byte} (w : s.1.whole) :
    (receiveBad m r bs s).1.whole := w.take.giveBack

theorem Hamper.whole.receive {s : Hamper × Chip} {m : Nat} {bs : List Byte} {fcsOk : Bool} (w : s.1.whole) :
    (receive m bs fcsOk s).1.whole := by
  unfold Machine.receive
  refine .ite w (.ite w (.ite w ?_))
  split
  · exact w
  · exact .ite (.receiveBad (s := (_, _)) w) (.ite (.truncate (s := (_, _)) w) (.deliverRx (s := (_, _)) w.take))

theorem Hamper.whole.refills {s : Hamper × Chip} {m r : Nat} (w : s.1.whole) : (Machine.refill m r s).1.whole := w.refill

theorem Hamper.whole.takeReturn {s : Hamper × Chip} {i b : Nat} (w : s.1.whole) : (takeReturn i b s).1.whole := by
  unfold Machine.takeReturn
  split
  · exact w.returned
  · exact w

/-- A fold whose steps keep the hampers whole. -/
theorem Hamper.whole.foldl {α : Type} {f : Hamper × Chip → α → Hamper × Chip} (step : ∀ s a, s.1.whole → (f s a).1.whole)
    (l : List α) {s : Hamper × Chip} (w : s.1.whole) : (l.foldl f s).1.whole := by
  induction l generalizing s with
  | nil => exact w
  | cons a l ih => exact ih (step s a w)

theorem Hamper.whole.returns {s : Hamper × Chip} {m r : Nat} (w : s.1.whole) : (returns m r s).1.whole := by
  unfold Machine.returns
  refine .ite w ?_
  dsimp only
  split
  · exact w
  · refine .foldl (fun q k hq => .ite hq ?_) _ w
    split
    · exact hq
    · exact .takeReturn (s := (_, _)) hq

theorem Hamper.whole.releaseHeld {s : Hamper × Chip} {m : Nat} (w : s.1.whole) : (releaseHeld m s).1.whole := by
  unfold Machine.releaseHeld
  refine .foldl (fun q h hq => ?_) _ w
  refine .ite hq ?_
  cases h with
  | rx ring bufs words timed frame => exact .rxComplete (s := (_, _)) hq
  | tx ring slot attempts status ts timed => exact hq

theorem Hamper.whole.dmaRestart {s : Hamper × Chip} {ch : Nat} (w : s.1.whole) : (dmaRestart ch s).1.whole := by
  unfold Machine.dmaRestart
  refine .ite w ?_
  dsimp only
  split
  · exact w
  · exact w
  · exact .ite (.releaseHeld (s := (_, _)) w) w

/-! The functions that only hand the hampers on -/

theorem Hamper.whole.tickBlock {s : Hamper × Chip} {N : Nat} {inp : TickIn} (w : s.1.whole) : (tickBlock N inp s).1.whole := by
  unfold Machine.tickBlock
  dsimp only
  exact .foldl (fun _ _ hq => hq.dmaRestart) _ w

theorem Hamper.whole.stopLate {s : Hamper × Chip} {n : Nat} (w : s.1.whole) : (stopLate n s).1.whole := by
  unfold Machine.stopLate
  split
  · split <;> exact w
  · exact w

theorem Hamper.whole.blockTick {s : Hamper × Chip} {inp : TickIn} (w : s.1.whole) : (blockTick inp s).1.whole := by
  unfold Machine.blockTick
  refine .ite w (.ite (.stopLate (s := (_, _)) w) ?_)
  dsimp only
  split
  · exact .ite w (.tickBlock (s := (_, _)) w)
  · exact .tickBlock (s := (_, _)) w

theorem Hamper.whole.reboot {s : Hamper × Chip} (w : s.1.whole) : (reboot s).1.whole := by
  unfold Machine.reboot
  split
  · exact Hamper.whole_reset
  · exact w

/-! Running a command -/

/-- Whatever state an outcome answers, its hampers are whole. -/
def Answer.whole (o : Host.Outcome State Fault Refusal) : Prop := ∀ t, o = .next t → t.ham.whole

theorem whole_act {s : State} (f : Chip → Chip) (w : s.ham.whole) : Answer.whole (act f s) := by
  rintro t ⟨⟩
  exact w

theorem whole_actHam {s : State} (f : Hamper × Chip → Hamper × Chip) (w : s.ham.whole)
    (kept : ∀ c, (f (s.ham, c)).1.whole) : Answer.whole (actHam f s) := by
  unfold actHam
  split
  · rintro t ⟨⟩
    exact w
  · rintro t ⟨⟩
    exact kept _

theorem whole_resetPart (held : Bool) (s : State) : (s.resetPart held).ham.whole := Hamper.whole_reset

theorem whole_command {opcode : Nat} {h : Hdr} {params : List Word} {run : Chip → Option Rep × Chip} {s : State}
    (w : s.ham.whole) : Answer.whole (command opcode h params run s) := by
  refine whole_actHam _ w fun c => ?_
  dsimp only
  split
  · exact w
  · exact Hamper.whole.reboot (s := (_, _)) w

theorem whole_spiTransaction {op : Byte} {f : Hamper × Chip → List Byte × Bool × Chip} {s : State} (w : s.ham.whole) :
    Answer.whole (spiTransaction op f s) := whole_actHam _ w fun _ => w

theorem whole_actRaw {s : State} {f : State → State} (kept : (f s).ham.whole) : Answer.whole (actRaw f s) := by
  rintro t ⟨⟩
  exact kept

theorem whole_csrStep {master : Byte} {addr : Nat} {f : Chip → Bool × Chip} {s : State} (w : s.ham.whole) :
    Answer.whole (csrStep master addr f s) := whole_act _ w

theorem whole_refAct {t : Nat} {f : Chip → Chip} {s : State} (w : s.ham.whole) : Answer.whole (refAct t f s) := whole_act _ w

theorem whole_execRxTruncation {mac : Fin 3} {bytes : List Byte} {t : Nat} {s : State} (w : s.ham.whole) :
    Answer.whole (execRxTruncation mac bytes t s) := by
  refine whole_actHam _ w fun c => ?_
  refine .ite w ?_
  split
  · exact w
  · exact .ite (.truncate (s := (_, _)) w) w

theorem whole_execDropFrameRx {bytes : List Byte} {fcsOk : Bool} {t : Nat} {s : State} (w : s.ham.whole) :
    Answer.whole (execDropFrameRx bytes fcsOk t s) := by
  refine whole_actHam _ w fun c => ?_
  refine .ite w ?_
  dsimp only
  split <;> exact .receive (s := (_, _)) w

theorem whole_execLatchingRead {master : Byte} {r : LatchReg} {s : State} (w : s.ham.whole) :
    Answer.whole (execLatchingRead master r s) := by
  refine whole_actHam _ w fun c => ?_
  dsimp only
  split <;> exact w

theorem whole_execColdPressLedgerCheck {t : Nat} {s : State} (w : s.ham.whole) :
    Answer.whole (execColdPressLedgerCheck t s) := by
  refine whole_actHam _ w fun c => ?_
  dsimp only
  split <;> exact w

theorem whole_execBarAccess {req : BarReq} {s : State} (w : s.ham.whole) : Answer.whole (execBarAccess req s) := by
  refine whole_actHam _ w fun c => ?_
  dsimp only
  split
  · exact w
  · exact .ite w (.ite w w)

theorem whole_execResetRelease {s : State} (w : s.ham.whole) : Answer.whole (execResetRelease s) := by
  refine whole_actRaw ?_
  dsimp only
  split
  · exact whole_resetPart _ _
  · exact w

theorem whole_execTestEnReset {high : Bool} {s : State} (w : s.ham.whole) : Answer.whole (execTestEnReset high s) := by
  refine whole_actRaw ?_
  dsimp only
  split
  · exact whole_resetPart _ _
  · split
    · exact whole_resetPart _ _
    · exact w

theorem whole_execBoundaryScan {ir : JtagIr} {shift : List Bool} {s : State} (w : s.ham.whole) :
    Answer.whole (execBoundaryScan ir shift s) := by
  refine whole_actRaw ?_
  cases ir <;> exact w

/-- Every command keeps the hampers whole; those that are not named here do not touch them. -/
theorem whole_exec {s : State} (i : Instr) (w : s.ham.whole) : Answer.whole (Sys2Proof.Machine.exec i s) := by
  cases i
  all_goals dsimp only [exec]
  case linkFrameRx => exact whole_actHam _ w fun _ => .receive (s := (_, _)) w
  case rxTruncation => exact whole_execRxTruncation w
  case dropFrameRx => exact whole_execDropFrameRx w
  case hamperRefill => exact whole_actHam _ w fun _ => .refills (s := (_, _)) w
  case bufferReturn => exact whole_actHam _ w fun _ => .returns (s := (_, _)) w
  case blockTick => exact whole_actHam _ w fun _ => .blockTick (s := (_, _)) w
  case dmaRestart => exact whole_actHam _ w fun _ => .dmaRestart (s := (_, _)) w
  case commandPacket => exact whole_actHam _ w fun _ => .reboot (s := (_, _)) w
  case startupWatchdog => exact whole_actHam _ w fun _ => .ite Hamper.whole_reset w
  case latchingRead => exact whole_execLatchingRead w
  case coldPressLedgerCheck => exact whole_execColdPressLedgerCheck w
  case barAccess => exact whole_execBarAccess w
  case resetAssert | brownOut | thermalTrip => exact whole_actRaw (whole_resetPart _ _)
  case resetRelease => exact whole_execResetRelease w
  case testEnReset => exact whole_execTestEnReset w
  case boundaryScan => exact whole_execBoundaryScan w
  case spiWrite | spiRead | spiStatus | cmdPut | rplGet | spiUnknownOpcode => exact whole_spiTransaction w
  case hostReqProdWrite | hostRplConsWrite | hostIrqPendClear | mbxGo | mbxAck | mbxCancel | mbxBindWrite |
    mbxLockSet | mbxDbRingWrite | busLockWrite | busLockForce | busService | errHeadAck | errRearmBus |
    errRearmMem | overflowSeenClear =>
    exact whole_csrStep w
  case refEvent | inputStopped | inputQualified | wtrExpiry | driftVote | selectorEvaluation | switchComplete |
    dpllLocked | holdoverLimit | modelUpdate =>
    exact whole_refAct w
  case hello | getVersion | tackSet | tackGet | tackClear | press | pressAt | pressedGet | tackList | jobStatus |
    jobResultRead | jobAbandon | snapshot | ledgerRead | countersRead | rinse | fill | lineSweep | pilotMeasure |
    channelRetry | selfTest | flowTableRebuild | refForce | refClearHistory | twinMend | twinSwap | twinForceLead
    | imageStage | imageVerify | imageActivate | errRead | errAck | safeExit | profileSet | pegReport |
    sessionOpen =>
    exact whole_command w
  all_goals exact whole_act _ w

theorem whole_step {s : State} (w : s.ham.whole) : Answer.whole (Sys2Proof.Machine.step s) := by
  unfold Machine.step
  split
  · rintro t ⟨⟩
    exact w
  · exact whole_exec _ w

/-- Settles O4: every move of a buffer is a permutation of where the buffers are, and a reset brings them all to FREE. -/
theorem hampersConserved : Obligations.HampersConserved := by
  unfold Obligations.HampersConserved
  exact fun s t w => whole_step w t

/-- The counts of R208 when every buffer is FREE. -/
theorem Hamper.counts_reset : Hamper.counts {} = (16384, 0, 0, 0) := by
  rw [Hamper.counts, List.length_range]
  rfl

/-- Settles O3: the buffers by `Hamper.whole_reset`; before audio FAULT_N is low; the rest are the reset values of the fields. -/
theorem resetState : Obligations.ResetState := by
  unfold Obligations.ResetState
  exact ⟨Hamper.whole_reset, Hamper.counts_reset, rfl, rfl, ⟨rfl, rfl⟩, rfl, rfl, rfl, rfl⟩

end Sys2Proof.Machine

namespace Sys2Proof.Machine

/-! Running a command that may move hampers -/

/-- Settling keeps what a frame without records says. -/
theorem Chip.keeps.settle {L : List Piece} {a b : Chip} (quiet : a.err.raising = []) (h : a.keeps ([.out, .irq] ++ L) b) :
    a.keeps ([.out, .irq] ++ L) b.settle := by
  by_cases he : Piece.err ∈ L
  · exact h.trans (b.settle_frame.mono fun p => by simp; rintro (rfl | rfl | rfl) <;> simp [he])
  · have same : b.err = a.err := h.get_err (by simpa using he)
    exact h.trans ((Chip.settle_frame_quiet (same ▸ quiet)).mono fun p => by simp; tauto)

/-- How a statement about a command that may move hampers is reached: from its effect on the part before settling. -/
theorem completesHam_actHam {i : Instr} {s : State} {named : List Piece} {P : Hamper → Chip → Prop}
    (f : Hamper × Chip → Hamper × Chip) {h : Hamper} {c : Chip} (run : Sys2Proof.Machine.exec i s = actHam f s) (live : s.live)
    (effect : f (s.ham, s.chip.begin) = (h, c)) (frame : s.chip.begin.keeps ([.out, .irq] ++ named) c)
    (holds : P h c.settle) : CompletesHam i s named P := by
  refine ⟨{ s with ham := h, chip := c.settle }, by rw [run, actHam_live f live.1, effect], rfl, ?_, holds⟩
  have begun : s.chip.keeps ([.out, .irq] ++ named) s.chip.begin := .begin (by simp) (.refl _ _)
  exact begun.trans (frame.settle live.2.1)

/-- One that leaves them runs as one that has nothing to do with them. -/
theorem actHam_eq_act (f : Hamper × Chip → Hamper × Chip) {s : State} {c : Chip} (live : s.live)
    (effect : f (s.ham, s.chip.begin) = (s.ham, c)) : actHam f s = act (fun _ => c) s := by
  rw [actHam_live f live.1, act_live _ live.1, effect]

/-! One MAC of the part -/

variable {c : Chip} {m : Nat} {x y z : Mac}

/-- The part with MAC m as given. -/
def Chip.setMac (m : Nat) (x : Mac) (c : Chip) : Chip := c.onMac m fun _ => x

theorem Chip.mac_of_get (get : c.macs[m]? = some x) : c.mac m = x := getD_of_get get _

theorem Chip.onMac_of_get (get : c.macs[m]? = some x) (f : Mac → Mac) : c.onMac m f = c.setMac m (f x) := by
  rw [Chip.setMac, Chip.onMac, Chip.onMac, lmod_of_get get, lmod_of_get get]

theorem Chip.setMac_macs (get : c.macs[m]? = some x) : (c.setMac m y).macs = c.macs.set m y := lmod_of_get get _

theorem Chip.setMac_get (get : c.macs[m]? = some x) : (c.setMac m y).macs[m]? = some y := by
  rw [Chip.setMac_macs get]
  exact set_get get y

theorem Chip.onMac_get (get : c.macs[m]? = some x) (f : Mac → Mac) : (c.onMac m f).macs[m]? = some (f x) := by
  rw [Chip.onMac_of_get get]
  exact Chip.setMac_get get

@[simp] theorem Chip.setMac_setMac : (c.setMac m y).setMac m z = c.setMac m z := by
  unfold Chip.setMac Chip.onMac lmod
  rw [List.modify_modify_eq]
  rfl

@[simp] theorem Chip.setMac_err : (c.setMac m y).err = c.err := rfl
@[simp] theorem Chip.setMac_sys : (c.setMac m y).sys = c.sys := rfl
@[simp] theorem Chip.setMac_mem : (c.setMac m y).mem = c.mem := rfl
@[simp] theorem Chip.setMac_clk : (c.setMac m y).clk = c.clk := rfl
@[simp] theorem Chip.setMac_boot : (c.setMac m y).boot = c.boot := rfl
@[simp] theorem Chip.setMac_drop : (c.setMac m y).drop = c.drop := rfl

theorem Chip.keeps.setMac {L : List Piece} {a b : Chip} (k : Piece.macs ∈ L) (h : a.keeps L b) : a.keeps L (b.setMac m x) :=
  .onMac k h

/-- The records after a raise that is the first since the command began. -/
theorem Chip.settle_raise_err {a c : Chip} {code d : Nat} {cls : Cls} (err : a.err = c.err) (sys : a.sys = c.sys) :
    (a.raise code cls d).settle.err = c.recorded code cls d := by
  rw [Chip.settle_err]
  refine Chip.recorded_eq ?_ sys
  rw [Chip.raise, Chip.raise, err, sys]

/-! Reads of words without an error (17 R445, R454) -/

theorem Memory.ecc_of_clean {b : Memory} {a n w : Nat} (clean : b.clean a n = true) (touched : w ∈ eccWords a n) :
    b.ecc w = .good := of_decide_eq_true (List.all_eq_true.mp clean w touched)

theorem Chip.correct_of_clean {master : Nat} {ws : List Nat} (good : ∀ w ∈ ws, c.mem.bytes.ecc w = .good) :
    c.correct master ws = c := by
  induction ws with
  | nil => rfl
  | cons w ws ih =>
    have step : c.correct master (w :: ws) = (c.correct master [w]).correct master ws := rfl
    rw [step, Chip.correct_of_good (good w (List.mem_cons_self ..))]
    exact ih fun v hv => good v (List.mem_cons_of_mem _ hv)

theorem Chip.dmaRead_of_clean {ch a n : Nat} (clean : c.mem.bytes.clean a n = true) :
    c.dmaRead ch a n = (some (c.mem.bytes.bytes a n), c) := by
  have good := fun w => Memory.ecc_of_clean (w := w) clean
  have none : c.badWord (eccWords a n) = none := by
    refine List.find?_eq_none.mpr fun w hw => ?_
    simp [good w hw]
  simp [Chip.dmaRead, Chip.correct_of_clean good, none]

end Sys2Proof.Machine

namespace Sys2Proof.Machine

/-! Refill and returns (07 R209, R213) -/

theorem exec_hamperRefill (m : Fin 3) (r : Fin 8) (s : State) :
    Sys2Proof.Machine.exec (.hamperRefill m r) s = actHam (refill m.val r.val) s := by rfl

theorem exec_bufferReturn (m : Fin 3) (r : Fin 8) (s : State) :
    Sys2Proof.Machine.exec (.bufferReturn m r) s = actHam (returns m.val r.val) s := by rfl

theorem rxTarget_pos : ∀ (m : Fin 3) (r : Fin 8), 0 < rxTarget m.val r.val := by decide

/-- A producer index that is one ahead, also where it wraps. -/
theorem ringDiff_succ (n : Nat) : ringDiff (BitVec.ofNat 16 (n + 1)) (BitVec.ofNat 16 n) = 1 := by
  simp [ringDiff, BitVec.ofNat_add]

/-- One entry waits in a return queue that is read without an error: it is taken. -/
theorem returns_of_one {h : Hamper} {c : Chip} {m r : Nat} {x : Mac} {q : RxSide} (mac : c.macs[m]? = some x)
    (side : x.rx[r]? = some q) (runs : c.dmaHalted m = false) (target : 0 < rxTarget m r)
    (index : c.mem.bytes.clean (rxRet m r + 4 * rxTarget m r) 4 = true)
    (entry : c.mem.bytes.clean (rxRet m r + 4 * (q.taken % rxTarget m r)) 4 = true)
    (one : BitVec.ofNat 16 (ofLe (c.mem.bytes.bytes (rxRet m r + 4 * rxTarget m r) 4)) = BitVec.ofNat 16 (q.taken + 1)) :
    returns m r (h, c) =
      takeReturn (ringIx m r) (ofLe ((c.mem.bytes.bytes (rxRet m r + 4 * (q.taken % rxTarget m r)) 4).take 2))
        (h, c.setMac m { x with rx := x.rx.set r { q with taken := q.taken + 1 } }) := by
  have single : min (rxTarget m r) (ringDiff (BitVec.ofNat 16 (q.taken + 1)) (BitVec.ofNat 16 q.taken)) = 1 := by
    rw [ringDiff_succ]
    omega
  have taken := Chip.onMac_of_get mac fun y => { y with rx := lmod y.rx r fun z => { z with taken := z.taken + 1 } }
  simp only [lmod_of_get side] at taken
  simp [returns, Chip.mac_of_get mac, side, runs, Chip.dmaRead_of_clean index, one, single, Chip.dmaRead_of_clean entry,
    taken]

theorem takeReturn_of_mem {h : Hamper} {i b : Nat} {g : RxRing} (c : Chip) (ring : h.rings[i]? = some g) (held : b ∈ g.held) :
    takeReturn i b (h, c) =
      ({ free := h.free ++ [b], rings := h.rings.set i { g with held := g.held.erase b } }, c) := by
  simp [takeReturn, Hamper.ring_of_get ring, held, Hamper.returned_of_mem ring held]

theorem takeReturn_of_notMem {h : Hamper} {i b : Nat} {g : RxRing} (c : Chip) (ring : h.rings[i]? = some g)
    (other : b ∉ g.held) : takeReturn i b (h, c) =
      (h, (c.onDrop fun d => { d with badReturns := d.badReturns + 1, badReturnSeen := true }).raise 0x0632 .note) := by
  simp [takeReturn, Hamper.ring_of_get ring, other]

/-- Settles O22: each clause is the lemma on the move of the buffers, and `returns_of_one` on what the engine reads. -/
theorem bufferCycle : Obligations.BufferCycle := by
  unfold Obligations.BufferCycle
  intro s m r g live ring
  refine ⟨?refill, ?returns⟩
  case refill =>
    rintro n rfl
    refine completesHam_actHam _ (exec_hamperRefill m r s) live ?_ (.refl _ _) rfl
    simp only [refill, Hamper.ring_of_get ring, Hamper.refill_of_get ring]
  case returns =>
    intro x q b mac side runs index entry one returned
    have effect : returns m.val r.val (s.ham, s.chip.begin) = takeReturn _ b _ :=
      returned ▸ returns_of_one (c := s.chip.begin) mac side runs (rxTarget_pos m r) index entry one
    refine ⟨fun held => ?_, fun other => ?_⟩
    · rw [takeReturn_of_mem _ ring held] at effect
      refine completesHam_actHam _ (exec_bufferReturn m r s) live effect (.setMac (by decide) (.refl _ _)) ⟨rfl, ?_⟩
      rw [Chip.settle_macs, Chip.setMac_macs (c := s.chip.begin) mac, Chip.begin_macs]
    · rw [takeReturn_of_notMem _ ring other] at effect
      refine completesHam_actHam _ (exec_bufferReturn m r s) live effect ?_ ⟨rfl, ?_, ?_⟩
      · exact .raise (by decide) (.onDrop (by decide) (.setMac (by decide) (.refl _ _)))
      · rw [Chip.settle_drop]
        rfl
      · rw [Chip.settle_err]
        exact Chip.recorded_eq rfl rfl

end Sys2Proof.Machine

namespace Sys2Proof.Machine

/-! Running a command, from the part that it makes -/

theorem completes_of_effect {i : Instr} {s : State} {named : List Piece} {P : Chip → Prop} (f : Chip → Chip) {c : Chip}
    (run : Sys2Proof.Machine.exec i s = act f s) (live : s.live) (effect : f s.chip.begin = c)
    (frame : s.chip.begin.keeps ([.out, .irq] ++ named) c) (holds : P c.settle) : Completes i s named P := by
  subst effect
  exact completes_act f run live frame holds

theorem completesAt_of_effect {i : Instr} {s : State} {t : Nat} {named : List Piece} {P : Chip → Prop} (f : Chip → Chip)
    {c : Chip} (run : Sys2Proof.Machine.exec i s = act f s) (live : s.live) (effect : f s.chip.begin = c)
    (frame : (s.chip.begin.advance t).keeps ([.out, .irq] ++ named) c) (holds : P c.settle)
    (timeless : Piece.clk ∉ named ∧ Piece.ptp ∉ named := by decide) : CompletesAt i s t named P := by
  subst effect
  exact completes_at f run live timeless frame holds

/-! Rings of which no head is to complete without being sent (07 R194, R214) -/

variable {c d : Chip} {m r n : Nat} {x : Mac}

/-- The head of ring r, if there is one, may still be sent. -/
def Chip.waits (m r : Nat) (c : Chip) : Prop :=
  ∀ f ∈ ((c.mac m).tx.getD r {}).queue.head?, f.fixed = none ∧ c.txBar m = none

theorem Chip.txFlush_of_waits (h : c.waits m r) : c.txFlush m r n = c := by
  cases n with
  | zero => rfl
  | succ n =>
    unfold Chip.txFlush
    cases queue : ((c.mac m).tx.getD r {}).queue with
    | nil => rfl
    | cons f q =>
      obtain ⟨unfixed, unbarred⟩ := h f (by rw [queue]; rfl)
      simp [unfixed, unbarred]

theorem Chip.waits_of_empty (h : ((c.mac m).tx.getD r {}).queue = []) : c.waits m r := by
  rw [Chip.waits, h]
  simp

theorem foldl_eq_of_forall_mem {α β : Type} {f : α → β → α} {l : List β} {a : α} (h : ∀ b ∈ l, f a b = a) : l.foldl f a = a := by
  induction l with
  | nil => rfl
  | cons b l ih =>
    rw [List.foldl_cons, h b (List.mem_cons_self ..)]
    exact ih fun b' hb => h b' (List.mem_cons_of_mem _ hb)

theorem Chip.txFlushAll_of_waits (h : ∀ r, c.waits m r) : c.txFlushAll m = c :=
  foldl_eq_of_forall_mem fun r _ => Chip.txFlush_of_waits (h r)

/-- A ring of a quiet MAC is empty. -/
theorem Mac.quiet.queue {x : Mac} (h : x.quiet) (r : Nat) : (x.tx.getD r {}).queue = [] := by
  rw [List.getD_eq_getElem?_getD]
  cases get : x.tx[r]? with
  | none => rfl
  | some y => exact (h.2 y (List.mem_of_getElem? get)).1

theorem Chip.waits_of_quiet (mac : c.macs[m]? = some x) (quiet : x.quiet) (r : Nat) : c.waits m r :=
  Chip.waits_of_empty (by rw [Chip.mac_of_get mac, quiet.queue])

theorem Chip.txFlushAll_of_quiet (mac : c.macs[m]? = some x) (quiet : x.quiet) : c.txFlushAll m = c :=
  Chip.txFlushAll_of_waits (Chip.waits_of_quiet mac quiet)

/-- A LINK port with nothing to send starts nothing. -/
theorem Chip.linkKick_of_quiet (mac : c.macs[m]? = some x) (quiet : x.quiet) : c.linkKick m = c := by
  rw [Chip.linkKick, Chip.txFlushAll_of_quiet mac quiet]
  have empty : (List.range 8).find? (fun r => !((c.mac m).tx.getD r {}).queue.isEmpty) = none :=
    List.find?_eq_none.mpr fun r _ => by rw [Chip.mac_of_get mac, quiet.queue]; simp
  simp only [empty, ite_self]

end Sys2Proof.Machine

namespace Sys2Proof.Machine

/-! The LINK ports come up and go down (07 R189, R190, R222) -/

variable {c : Chip} {m : Nat} {x : Mac}

theorem exec_linkUp (p : Fin 2) (t : Nat) (s : State) : Sys2Proof.Machine.exec (.linkUp p t) s = execLinkUp p t s := by rfl

theorem exec_linkDown (p : Fin 2) (lock loc rem : Bool) (s : State) :
    Sys2Proof.Machine.exec (.linkDown p lock loc rem) s = execLinkDown p lock loc rem s := by rfl

theorem exec_sfpFault (p : Fin 2) (absent : Bool) (optics : SfpOptics) (s : State) :
    Sys2Proof.Machine.exec (.sfpFault p absent optics) s = execSfpFault p absent optics s := by rfl

@[simp] theorem Chip.ptpUp_macs : (c.ptpUp m).macs = c.macs := rfl
@[simp] theorem Chip.ptpUp_err : (c.ptpUp m).err = c.err := rfl
@[simp] theorem Chip.ptpUp_sys : (c.ptpUp m).sys = c.sys := rfl
@[simp] theorem Chip.ptpUp_clk : (c.ptpUp m).clk = c.clk := rfl
@[simp] theorem Chip.ptpDown_macs : (c.ptpDown m).macs = c.macs := rfl
@[simp] theorem Chip.ptpDown_err : (c.ptpDown m).err = c.err := rfl
@[simp] theorem Chip.ptpDown_sys : (c.ptpDown m).sys = c.sys := rfl

/-- A port that has come up, one whose receiver shows this, one that has gone down, and one whose module shows this. -/
def Mac.risen (x : Mac) : Mac :=
  { x with up := true, change := true, cut := false, blockLock := true, localFault := false, remoteFault := false }
def Mac.shows (lock loc rem : Bool) (x : Mac) : Mac := { x with blockLock := lock, localFault := loc, remoteFault := rem }
def Mac.fallen (x : Mac) : Mac := { x with up := false, change := true, cut := true, sending := none }
def Mac.module (absent : Bool) (optics : SfpOptics) (x : Mac) : Mac :=
  { x with modAbs := absent, txFault := optics.txFault, rxLos := optics.rxLos }

theorem Chip.linkFalls_of_down {note : Bool} (mac : c.macs[m]? = some x) (down : x.up = false) : c.linkFalls m note = c := by
  simp [Chip.linkFalls, Chip.mac_of_get mac, down]

/-- A port that sends nothing and has nothing to send goes down. -/
theorem Chip.linkFalls_of_quiet (mac : c.macs[m]? = some x) (up : x.up = true) (quiet : x.quiet) (idle : x.sending = none) :
    c.linkFalls m true = ((c.setMac m x.fallen).ptpDown m).raise (if m = 0 then 0x0601 else 0x0701) .note := by
  have fallen := Chip.onMac_of_get mac fun x => x.fallen
  have still := Chip.txFlushAll_of_quiet (Chip.setMac_get (y := x.fallen) mac) quiet
  simp only [Mac.fallen] at fallen still
  simp only [Chip.linkFalls, Chip.mac_of_get mac, up, Bool.not_true, Bool.false_eq_true, if_false, idle, if_true, fallen,
    still, Mac.fallen]

/-- A fault of the module of a port that is down anyway is a FAULT and no more. -/
theorem Chip.sfpFail_of_down (mac : c.macs[m]? = some x) (down : x.up = false) :
    c.sfpFail m = c.raise (if m = 0 then 0x0603 else 0x0703) .fault :=
  Chip.linkFalls_of_down (c := Chip.raise _ _ _ _ _) mac down

/-- Settles O24: each clause is the effect of the row on a MAC that has nothing to send. -/
theorem linkPorts : Obligations.LinkPorts := by
  unfold Obligations.LinkPorts
  intro s p x t live mac quiet idle enabled
  refine ⟨?linkUp, ?linkDown, ?sfpFault⟩
  case linkUp =>
    intro down present good
    have mac' : (s.chip.begin.advance t).macs[p.val]? = some x := by simpa using mac
    have rises := Chip.onMac_of_get mac' Mac.risen
    refine completes_of_effect _ (exec_linkUp p t s) live (c := (((s.chip.begin.advance t).setMac p.val
      x.risen).ptpUp p.val).raise (if p.val = 0 then 0x0602 else 0x0702) .note) ?_ ?_ ⟨?_, ?_, ?_⟩
    · have allowed : (x.portEn && !x.up && !x.modAbs && !x.txFault) = true := by simp [enabled, down, present, good]
      rw [← Chip.mac_of_get mac'] at allowed
      rw [← rises]
      refine (if_pos allowed).trans (Chip.linkKick_of_quiet (x := x.risen) ?_ quiet)
      exact Chip.onMac_get mac' _
    · exact .raise (by decide) (.ptpUp (by decide) (.setMac (by decide) (.advance (by decide) (by decide) (.refl _ _))))
    · rw [Chip.settle_clk]
      exact Chip.advance_clk ..
    · exact Chip.settle_raise_err (c := s.chip) (by simp) (by simp)
    · rw [Chip.settle_macs]
      exact (Chip.setMac_macs mac').trans (by rw [Chip.advance_macs]; rfl)
  case linkDown =>
    intro lock loc rem up fails
    have shown := Chip.onMac_of_get (c := s.chip.begin) mac (Mac.shows lock loc rem)
    have fell := Chip.linkFalls_of_quiet (Chip.setMac_get (c := s.chip.begin) mac) (x := x.shows lock loc rem) up quiet idle
    refine completes_of_effect _ (exec_linkDown p lock loc rem s) live (c := ((s.chip.begin.setMac p.val
      (x.shows lock loc rem).fallen).ptpDown p.val).raise (if p.val = 0 then 0x0601 else 0x0701) .note) ?_ ?_ ⟨?_, ?_⟩
    · rw [Chip.setMac_setMac, ← shown] at fell
      have seen : (!lock || loc || rem) = true := by simpa [or_assoc] using fails
      exact (if_pos seen).trans fell
    · exact .raise (by decide) (.ptpDown (by decide) (.setMac (by decide) (.refl _ _)))
    · exact Chip.settle_raise_err (c := s.chip) rfl rfl
    · rw [Chip.settle_macs]
      refine (Chip.setMac_macs (c := s.chip.begin) mac).trans ?_
      rw [Mac.fallen, Mac.shows, ← idle]
      rfl
  case sfpFault =>
    intro absent fault los down news
    have shown := Chip.onMac_of_get (c := s.chip.begin) mac (Mac.module absent ⟨fault, los⟩)
    refine completes_of_effect _ (exec_sfpFault p absent ⟨fault, los⟩ s) live (c := (s.chip.begin.setMac p.val
      (x.module absent ⟨fault, los⟩)).raise (if p.val = 0 then 0x0603 else 0x0703) .fault) ?_ ?_ ⟨?_, ?_⟩
    · have seen : (x.portEn && ((absent && !x.modAbs) || (fault && !x.txFault))) = true := by simp [enabled, news]
      rw [← Chip.mac_of_get (c := s.chip.begin) mac] at seen
      rw [← shown]
      refine (if_pos seen).trans (Chip.sfpFail_of_down (x := x.module absent ⟨fault, los⟩) ?_ down)
      exact Chip.onMac_get (c := s.chip.begin) mac _
    · exact .raise (by decide) (.setMac (by decide) (.refl _ _))
    · exact Chip.settle_raise_err (c := s.chip) rfl rfl
    · rw [Chip.settle_macs]
      exact Chip.setMac_macs (c := s.chip.begin) mac

end Sys2Proof.Machine

namespace Sys2Proof.Machine

/-! The buffer of a speech channel (07 R205) -/

theorem mset_length_le {α : Type} (m : List (Nat × α)) (k : Nat) (v : α) : (mset m k v).length ≤ m.length + 1 := by
  induction m with
  | nil => exact le_rfl
  | cons p m ih =>
    unfold mset
    split
    · exact Nat.le_succ _
    · split
      · exact le_rfl
      · simpa using ih

/-- The first `k` samples of a frame, entered where none was received before. -/
def speechFilled (mf : Nat) (at_ : Nat → Int) (buf : Map Int) (k : Nat) : Map Int :=
  (List.range k).foldl (fun b i => if (mget? b (mf + i)).isSome then b else mset b (mf + i) (at_ i)) buf

theorem Speech.take_eq (mf : Nat) (at_ : Nat → Int) (x : Speech) :
    x.take mf at_ = (speechFilled mf at_ x.buf 64).drop ((speechFilled mf at_ x.buf 64).length - 4160) := rfl

theorem speechFilled_succ (mf : Nat) (at_ : Nat → Int) (buf : Map Int) (k : Nat) :
    speechFilled mf at_ buf (k + 1) = if (mget? (speechFilled mf at_ buf k) (mf + k)).isSome then speechFilled mf at_ buf k
      else mset (speechFilled mf at_ buf k) (mf + k) (at_ k) := by
  rw [speechFilled, List.range_succ, List.foldl_append]
  rfl

theorem speechFilled_length_le (mf : Nat) (at_ : Nat → Int) (buf : Map Int) (k : Nat) :
    (speechFilled mf at_ buf k).length ≤ buf.length + k := by
  induction k with
  | zero => exact le_rfl
  | succ k ih =>
    rw [speechFilled_succ]
    split
    · omega
    · exact (mset_length_le ..).trans (by omega)

/-- Where nothing was received of the frame's samples, the entered ones read back and the others are still missing. -/
theorem mget?_speechFilled {mf : Nat} {at_ : Nat → Int} {buf : Map Int} (missing : ∀ i < 64, mget? buf (mf + i) = none)
    {k : Nat} (short : k ≤ 64) :
    ∀ i < 64, mget? (speechFilled mf at_ buf k) (mf + i) = if i < k then some (at_ i) else none := by
  induction k with
  | zero => exact missing
  | succ k ih =>
    intro i lt
    have before := ih (by omega)
    have new : (mget? (speechFilled mf at_ buf k) (mf + k)).isSome = false := by simp [before k (by omega)]
    rw [speechFilled_succ, new, if_neg Bool.false_ne_true]
    rcases eq_or_ne i k with rfl | other
    · simp
    · rw [mget?_mset_ne _ _ (by omega), before i lt]
      exact if_congr (by omega) rfl rfl

/-- A buffer of up to 4096 samples has room for a frame, so all of a frame that is new to it reads back. -/
theorem Speech.mget?_take {x : Speech} {mf : Nat} (at_ : Nat → Int) (room : x.buf.length ≤ 4096)
    (new : ∀ q ∈ x.buf, q.1 < mf ∨ mf + 64 ≤ q.1) {i : Nat} (lt : i < 64) : mget? (x.take mf at_) (mf + i) = some (at_ i) := by
  have kept : (speechFilled mf at_ x.buf 64).length - 4160 = 0 := by
    have := speechFilled_length_le mf at_ x.buf 64
    omega
  have missing : ∀ i < 64, mget? x.buf (mf + i) = none := fun i lt =>
    mget?_of_forall_ne fun q hq e => by have := new q hq; omega
  rw [Speech.take_eq, kept, List.drop_zero, mget?_speechFilled missing le_rfl i lt, if_pos lt]

end Sys2Proof.Machine

namespace Sys2Proof.Machine

/-! Fallback speech (07 R203 to R207) -/

theorem exec_speechFrameRx (bytes : List Byte) (fcsOk : Bool) (t : Nat) (s : State) :
    Sys2Proof.Machine.exec (.speechFrameRx bytes fcsOk t) s = execSpeechFrameRx bytes fcsOk t s := by rfl

theorem exec_speechWindow (n : Fin 4) (s : State) :
    Sys2Proof.Machine.exec (.speechWindow n) s = execSpeechWindow n s := by rfl

/-- The one channel of a mask of one bit. -/
theorem indices_two_pow : ∀ n : Fin 4, indices 4 (Nat.testBit (2 ^ n.val)) = [n.val] := by decide

theorem Chip.pegConflict_of_ne {c : Chip} {bytes : List Byte} (other : be bytes 6 6 ≠ c.station) : c.pegConflict bytes = c := by
  simp [Chip.pegConflict, other]

theorem Chip.speechPeg_onDrop (f : DropUnit → DropUnit) (n : Nat) (c : Chip) : (c.onDrop f).speechPeg n = c.speechPeg n := rfl

/-- Sample i of a frame of one channel. -/
def speechSample (bytes : List Byte) (i : Nat) : Int := signed 16 (be bytes ((etherType bytes).2 + 12 + 2 * i) 2)

/-- A channel that a frame has filled. -/
def Speech.received (buf : Map Int) (clk : Nat) (x : Speech) : Speech :=
  { x with buf := buf, lastAt := some clk, heard := true, silent := false }

@[simp] theorem Speech.received_buf (buf : Map Int) (clk : Nat) (x : Speech) : (x.received buf clk).buf = buf := rfl

@[simp] theorem Speech.received_miss (buf : Map Int) (clk : Nat) (x : Speech) : (x.received buf clk).miss = x.miss := rfl

/-- A frame of channel n alone, with its first sample at index mf, that passes every check and is neither late nor early. -/
structure Chip.Hears (c : Chip) (n : Fin 4) (bytes : List Byte) (mf : Nat) : Prop where
  named : c.speechPeg n.val ≠ 0
  takes : c.rxOn 2 = true
  speech : c.isSpeech bytes = true
  long : 60 ≤ bytes.length
  short : bytes.length ≤ 1518
  accepted : c.accepts 2 bytes = true
  group : be bytes 0 6 = ctlGroup
  level : c.levelOk (be bytes ((etherType bytes).2 + 1) 1) = true
  peg : be bytes ((etherType bytes).2 + 2) 1 = c.speechPeg n.val
  mask : be bytes ((etherType bytes).2 + 3) 1 % 16 = 2 ^ n.val
  index : mf = extend32 (be bytes ((etherType bytes).2 + 4) 4) c.speechIndex
  inTime : (c.nowNs - c.epoch * 10 ^ 9) * 16000 ≤ (mf + c.dropIt 3) * 10 ^ 9
  near : mf ≤ c.speechIndex + 4096

theorem Chip.speechFrame_of_hears {c : Chip} {n : Fin 4} {x : Speech} {bytes : List Byte} {mf : Nat}
    (channel : c.drop.speech[n.val]? = some x) (h : c.Hears n bytes mf) (heard : x.silent = false) :
    c.speechFrame bytes = c.onDrop fun d => { d with
      speech := d.speech.set n.val (x.received (x.take mf (speechSample bytes)) c.clk) } := by
  have x_eq : c.drop.speech.getD n.val {} = x := getD_of_get channel _
  have late : ¬ (mf + c.dropIt 3) * 10 ^ 9 < (c.nowNs - c.epoch * 10 ^ 9) * 16000 := Nat.not_lt.mpr h.inTime
  have early : ¬ c.speechIndex + 4096 < mf := Nat.not_lt.mpr h.near
  unfold Chip.speechFrame
  simp only [h.takes, h.speech, h.accepted, h.group, h.level, h.peg, h.mask, ← h.index, late, early, Nat.not_lt.mpr h.long,
    Nat.not_lt.mpr h.short, indices_two_pow, h.named, Bool.not_true, Bool.false_eq_true, ne_eq, not_true_eq_false, or_self,
    if_false, List.zipIdx_cons, List.zipIdx_nil, List.foldl_cons, List.foldl_nil, x_eq, heard, List.length_singleton,
    Nat.mul_one, Nat.add_zero]
  rfl

/-- Settles O26: a frame by `Chip.speechFrame_of_hears`, and its samples by `Speech.mget?_take`. -/
theorem fallbackSpeech : Obligations.FallbackSpeech := by
  unfold Obligations.FallbackSpeech
  intro s n x live channel named
  refine ⟨?frame, ?bad, ?heard, ?silent⟩
  case frame =>
    intro bytes t mf takes speech long short other accepted group level peg mask past heard index inTime room near
    have now : s.chip.begin.advance t = s.chip.begin := if_pos past
    have hears : s.chip.begin.Hears n bytes mf :=
      ⟨named, takes, speech, long, short, accepted, group, level, peg, mask, index, inTime, near⟩
    have filled := Chip.speechFrame_of_hears (c := s.chip.begin) channel hears heard
    refine completesAt_of_effect _ (exec_speechFrameRx bytes true t s) live (c := s.chip.begin.speechFrame bytes) ?_ ?_ ?_
    · have same := Chip.pegConflict_of_ne (c := s.chip.begin) other
      simp only [now, Chip.speechRx, if_true, same]
    · rw [now, filled]
      exact .onDrop (by decide) (.refl _ _)
    · rw [Chip.settle_drop, filled]
      refine ⟨x.received (x.take mf (speechSample bytes)) s.chip.clk, rfl, rfl, rfl, rfl, Speech.received_miss ..,
        fun new i lt => ?_⟩
      rw [Speech.received_buf, Speech.mget?_take (speechSample bytes) room new lt, speechSample]
  case bad =>
    intro t bytes takes
    have takes' : (s.chip.begin.advance t).rxOn 2 = true := by simpa [Chip.rxOn, Chip.mac] using takes
    refine completesAt_of_effect _ (exec_speechFrameRx bytes false t s) live
      (c := (s.chip.begin.advance t).macCount 2 1) ?_ (.onMac (by decide) (.refl _ _)) ?_
    · simp only [Chip.speechRx, Bool.false_eq_true, if_false, takes', if_true]
    · rw [Chip.settle_macs, Chip.macCount, Chip.onMac_macs, Chip.advance_macs, Chip.begin_macs]
  case heard =>
    intro heard
    have x_eq : s.chip.begin.drop.speech.getD n.val {} = x := getD_of_get channel _
    refine completes_of_effect _ (exec_speechWindow n s) live (c := s.chip.begin.onDrop fun d => { d with
      speech := d.speech.set n.val { x with heard := false } }) ?_ (.onDrop (by decide) (.refl _ _)) ?_
    · simp only [x_eq, heard, Bool.not_true, Bool.and_false, Bool.false_and, Bool.or_false, Bool.false_eq_true, if_false]
    · rw [Chip.settle_drop]
      rfl
  case silent =>
    intro unheard heard
    have x_eq : s.chip.begin.drop.speech.getD n.val {} = x := getD_of_get channel _
    have named' : (decide (s.chip.begin.speechPeg n.val ≠ 0)) = true := decide_eq_true named
    refine completes_of_effect _ (exec_speechWindow n s) live (c := (s.chip.begin.onDrop fun d => { d with
      speech := d.speech.set n.val { x with silent := true } }).raise 0x0803 .fault n.val) ?_
      (.raise (by decide) (.onDrop (by decide) (.refl _ _))) ⟨?_, Chip.settle_raise_err (c := s.chip) rfl rfl⟩
    · simp only [x_eq, unheard, heard, Chip.speechPeg_onDrop, named', Bool.not_false, Bool.and_self, Bool.or_true, if_true]
    · rw [Chip.settle_drop]
      rfl

end Sys2Proof.Machine

namespace Sys2Proof.Machine

/-! What time leaves of the questions that are asked of a received frame -/

section
variable (m t : Nat) (bs : List Byte) (c : Chip)

@[simp] theorem Chip.advance_mac : (c.advance t).mac m = c.mac m := by simp [Chip.mac]

@[simp] theorem Chip.advance_rxOn : (c.advance t).rxOn m = c.rxOn m := by simp [Chip.rxOn]

@[simp] theorem Chip.advance_accepts : (c.advance t).accepts m bs = c.accepts m bs := by
  unfold Chip.advance
  split <;> rfl

@[simp] theorem Chip.advance_classify : (c.advance t).classify m bs = c.classify m bs := by
  unfold Chip.advance
  split <;> rfl

@[simp] theorem Chip.advance_isSpeech : (c.advance t).isSpeech bs = c.isSpeech bs := by
  unfold Chip.advance
  split <;> rfl

@[simp] theorem Chip.advance_dmaHalted : (c.advance t).dmaHalted m = c.dmaHalted m := by simp [Chip.dmaHalted]

end

/-! Buffers of one ring that a frame takes (07 R208, R210) -/

section
variable {h : Hamper} {i n : Nat} {r : RxRing}

/-- A frame that is good takes its buffers from the ring to the owner. -/
theorem Hamper.complete_take (get : h.rings[i]? = some r) (whole : r.asm = []) :
    (h.take i n).complete i (r.posted.take n).length =
      { h with rings := h.rings.set i { r with posted := r.posted.drop n, held := r.held ++ r.posted.take n } } := by
  obtain ⟨posted, asm, held⟩ := r
  obtain rfl : asm = [] := whole
  have taken := set_get get { posted := posted.drop n, asm := posted.take n, held := held }
  simp only [Hamper.take, Hamper.complete, lmod_of_get get, lmod_of_get taken, List.set_set, List.nil_append,
    List.drop_length, List.take_length]

/-- One with a bad FCS leaves its buffers at the tail of the ring. -/
theorem Hamper.giveBack_take (get : h.rings[i]? = some r) (whole : r.asm = []) :
    (h.take i n).giveBack i r.asm.length =
      { h with rings := h.rings.set i { r with posted := r.posted.drop n ++ r.posted.take n } } := by
  obtain ⟨posted, asm, held⟩ := r
  obtain rfl : asm = [] := whole
  have taken := set_get get { posted := posted.drop n, asm := posted.take n, held := held }
  simp only [Hamper.take, Hamper.giveBack, lmod_of_get get, lmod_of_get taken, List.set_set, List.nil_append,
    List.length_nil, List.take_zero, List.drop_zero]

end

/-! Frames of what reception runs -/

section
variable {L : List Piece} {a b : Chip} {m : Nat}

theorem Chip.keeps.store {x : Nat} {bs : List Byte} (k : Piece.mem ∈ L) (h : a.keeps L b) : a.keeps L (b.store x bs) := .onMem k h

theorem Chip.keeps.macCount {i : Nat} (k : Piece.macs ∈ L) (h : a.keeps L b) : a.keeps L (b.macCount m i) := .onMac k h

theorem Chip.keeps.fillBuffers {bufs : List Nat} {bs : List Byte} (k : Piece.mem ∈ L) (h : a.keeps L b) :
    a.keeps L (b.fillBuffers bufs bs) := by
  induction bufs generalizing b bs with
  | nil => exact h
  | cons x bufs ih => exact ih (.store k h)

theorem Chip.keeps.timed {len : Nat} (k : Piece.ptp ∈ L) (e : Piece.err ∈ L) (h : a.keeps L b) : a.keeps L (b.timed m len).2 := by
  unfold Chip.timed
  dsimp only
  split
  · exact .onPtp k (.onPtp k h)
  · exact .raiseFirst e (.onPtp k (.onPtp k h))

theorem Chip.keeps.stampOut (k : Piece.ptp ∈ L) (h : a.keeps L b) : a.keeps L (b.stampOut m).2 := by
  unfold Chip.stampOut
  split
  · exact h
  · exact .onPtp k h

theorem Chip.keeps.rxDescriptor {r : Nat} {ws : List Word} (k : Piece.mem ∈ L) (l : Piece.macs ∈ L) (i : Piece.irq ∈ L)
    (h : a.keeps L b) : a.keeps L (b.rxDescriptor m r ws) := by
  unfold Chip.rxDescriptor
  exact .ite (.pulse i (.onMac l (.store k h))) (.onMac l (.store k h))

@[simp] theorem Chip.fillBuffers_dmaHalted (bufs : List Nat) (bs : List Byte) (ch : Nat) (c : Chip) :
    (c.fillBuffers bufs bs).dmaHalted ch = c.dmaHalted ch := by
  induction bufs generalizing c bs with
  | nil => rfl
  | cons x bufs ih => exact ih _ _

end

/-! A completion of a receive ring (07 R212) -/

/-- MAC x once a frame has been delivered on its ring r, of which the side was q. -/
structure Mac.Delivered (x : Mac) (r : Nat) (q : RxSide) (trunc : Bool) (y : Mac) (z : RxSide) : Prop where
  counts : y.counts = if trunc then x.counts else lmod x.counts 0 (· + 1)
  tx : y.tx = x.tx
  up : y.up = x.up
  rx : y.rx = x.rx.set r z
  made : z.made = q.made + 1

/-- The part c once a frame has been delivered on ring r of MAC m, of which the block's side was q. -/
def Chip.Delivers (c : Chip) (m r : Nat) (x : Mac) (q : RxSide) (trunc : Bool) (d : Chip) : Prop :=
  c.keeps [.ptp, .mem, .macs, .irq, .err] d ∧ ∃ y z, d.macs = c.macs.set m y ∧ x.Delivered r q trunc y z

@[simp] theorem Chip.pulse_macs (v : Fin 32) (c : Chip) : (c.pulse v).macs = c.macs := rfl

@[simp] theorem Chip.stampOut_macs (m : Nat) (c : Chip) : (c.stampOut m).2.macs = c.macs :=
  (Chip.keeps.stampOut (L := [.ptp]) (by decide) (.refl _ _)).get_macs

section
variable {c : Chip} {m r : Nat} {x : Mac} {q : RxSide}

/-- An update of the block's side of one receive ring. -/
theorem Chip.onMac_rx_macs (mac : c.macs[m]? = some x) (side : x.rx[r]? = some q) (f : RxSide → RxSide) :
    (c.onMac m fun x => { x with rx := lmod x.rx r f }).macs = c.macs.set m { x with rx := x.rx.set r (f q) } := by
  rw [Chip.onMac_macs, lmod_of_get mac, lmod_of_get side]

theorem Chip.rxDescriptor_macs (ws : List Word) (mac : c.macs[m]? = some x) (side : x.rx[r]? = some q) :
    (c.rxDescriptor m r ws).macs = c.macs.set m { x with rx := x.rx.set r { q with made := q.made + 1 } } := by
  have made : ((c.mac m).rx.getD r {}).made = q.made := by rw [Chip.mac_of_get mac, getD_of_get side]
  unfold Chip.rxDescriptor
  simp only [apply_ite Chip.macs, Chip.pulse_macs, ite_self, made]
  exact Chip.onMac_rx_macs (c := Chip.putWords _ _ _) mac side _

/-- The descriptor of a frame is written, and a firmware owner of the ring finds the frame. -/
def Chip.shown (m r : Nat) (ws : List Word) (f : RxFrame) (c : Chip) : Chip :=
  let c := c.rxDescriptor m r ws
  c.onMac m fun x => { x with rx := lmod x.rx r fun y =>
    if r < 3 then { y with inbox := y.inbox ++ [{ f with at_ := c.clk }] } else y }

theorem rxComplete_eq (h : Hamper) (bufs : List Nat) (ws : List Word) (timed : Bool) (f : RxFrame) :
    ∃ ws', rxComplete m r bufs ws timed f (h, c) = (h.complete (ringIx m r) bufs.length,
      let d := (if timed then c.stampOut m else ((ws.drop 4).take 3, c)).2.shown m r ws' f
      if f.trunc then d else d.macCount m 0) := ⟨_, rfl⟩

theorem Chip.shown_delivers (mac : c.macs[m]? = some x) (side : x.rx[r]? = some q) (ws : List Word) (f : RxFrame) :
    c.Delivers m r x q true (c.shown m r ws f) := by
  have written := Chip.rxDescriptor_macs ws mac side
  have mac' : (c.rxDescriptor m r ws).macs[m]? = some { x with rx := x.rx.set r { q with made := q.made + 1 } } := by
    rw [written]
    exact set_get mac _
  have macs := Chip.onMac_rx_macs mac' (set_get side _) fun y =>
    if r < 3 then { y with inbox := y.inbox ++ [{ f with at_ := (c.rxDescriptor m r ws).clk }] } else y
  rw [written, List.set_set] at macs
  refine ⟨.onMac (by decide) (.rxDescriptor (by decide) (by decide) (by decide) (.refl _ _)), _, _, macs, rfl, rfl, rfl,
    List.set_set .., ?_⟩
  split <;> rfl

/-- A frame that is not truncated is counted. -/
theorem Chip.Delivers.counted {d : Chip} (mac : c.macs[m]? = some x) (h : c.Delivers m r x q true d) :
    c.Delivers m r x q false (d.macCount m 0) := by
  obtain ⟨frame, y, z, macs, delivered⟩ := h
  have mac' : d.macs[m]? = some y := macs ▸ set_get mac y
  refine ⟨.macCount (by decide) frame, { y with counts := lmod y.counts 0 (· + 1) }, z, ?_, ?_, delivered.tx, delivered.up,
    delivered.rx, delivered.made⟩
  · rw [Chip.macCount, Chip.onMac_macs, lmod_of_get mac', macs, List.set_set]
  · simp [delivered.counts]

/-- What comes before a delivery may fill the buffers and time the frame. -/
theorem Chip.Delivers.after {b d : Chip} {trunc : Bool} (before : c.keeps [.ptp, .mem, .err] b) (h : b.Delivers m r x q trunc d) :
    c.Delivers m r x q trunc d := by
  obtain ⟨frame, y, z, macs, delivered⟩ := h
  exact ⟨(before.mono (by decide)).trans frame, y, z, macs.trans (by rw [before.get_macs]), delivered⟩

theorem rxComplete_delivers {h : Hamper} (mac : c.macs[m]? = some x) (side : x.rx[r]? = some q) (bufs : List Nat)
    (ws : List Word) (timed : Bool) (f : RxFrame) :
    ∃ d, rxComplete m r bufs ws timed f (h, c) = (h.complete (ringIx m r) bufs.length, d) ∧ c.Delivers m r x q f.trunc d := by
  obtain ⟨ws', run⟩ := rxComplete_eq (m := m) (r := r) (c := c) h bufs ws timed f
  refine ⟨_, run, ?_⟩
  have stamped : c.keeps [.ptp, .mem, .err] (if timed then c.stampOut m else ((ws.drop 4).take 3, c)).2 := by
    cases timed
    · exact .refl _ _
    · exact .stampOut (by decide) (.refl _ _)
  have mac' := stamped.get_macs ▸ mac
  refine Chip.Delivers.after stamped ?_
  have shown := Chip.shown_delivers mac' side ws' f
  cases trunc : f.trunc
  · exact shown.counted mac'
  · exact shown

theorem deliverRx_delivers {h : Hamper} (mac : c.macs[m]? = some x) (side : x.rx[r]? = some q) (runs : c.dmaHalted m = false)
    (bs : List Byte) (trunc timed : Bool) (bufs : List Nat) :
    ∃ d, deliverRx m r bs trunc timed bufs (h, c) = (h.complete (ringIx m r) bufs.length, d) ∧ c.Delivers m r x q trunc d := by
  have stamped : c.keeps [.ptp, .err] (if timed then c.timed m bs.length else (false, c)).2 := by
    cases timed
    · exact .refl _ _
    · exact .timed (by decide) (by decide) (.refl _ _)
  have runs' : (if timed then c.timed m bs.length else (false, c)).2.dmaHalted m = false := by
    rw [Chip.dmaHalted, stamped.get_mem]
    exact runs
  have mac' := stamped.get_macs ▸ mac
  have run : deliverRx m r bs trunc timed bufs (h, c) = rxComplete m r bufs _ _ _ (h, _) := if_neg (by simp [runs'])
  rw [run]
  have completed := rxComplete_delivers (h := h) mac' side bufs
  exact (completed _ _ _).imp fun d => And.imp_right (.after (stamped.mono (by decide)))

end

/-! A frame received whole on a MAC (07 R188 to R192, R208 to R211) -/

/-- MAC m takes the frame for ring r. -/
structure Chip.Takes (c : Chip) (m : Nat) (bs : List Byte) (r : Nat) : Prop where
  on : c.rxOn m = true
  long : 60 ≤ bs.length
  short : bs.length ≤ 1518
  accepted : c.accepts m bs = true
  noPause : ¬(m < 2 ∧ (etherType bs).1 = 0x8808)
  ring : c.classify m bs = some r

section
variable {h : Hamper} {c : Chip} {m r : Nat} {bs : List Byte} {x : Mac} {q : RxSide} {g : RxRing}

/-- The filter turns a frame away. -/
theorem receive_of_filtered (on : c.rxOn m = true) (long : 60 ≤ bs.length) (short : bs.length ≤ 1518)
    (away : c.accepts m bs = false) : receive m bs true (h, c) = (h, c.macCount m 3) := by
  simp [receive, on, Nat.not_lt.mpr long, Nat.not_lt.mpr short, away]

theorem receive_of_takes (takes : c.Takes m bs r) (fcsOk : Bool) :
    receive m bs fcsOk (h, c) =
      if !fcsOk then receiveBad m r bs (h, c)
      else if (h.ring (ringIx m r)).posted.length < buffersFor bs then
        truncate m r (h.ring (ringIx m r)).posted.length bs (h, c)
      else deliverRx m r bs false (c.rxTimed m r) ((h.ring (ringIx m r)).posted.take (buffersFor bs))
        (h.take (ringIx m r) (buffersFor bs), c.fillBuffers ((h.ring (ringIx m r)).posted.take (buffersFor bs)) bs) := by
  simp only [receive, takes.on, Nat.not_lt.mpr takes.long, Nat.not_lt.mpr takes.short, takes.accepted, takes.noPause,
    takes.ring, Bool.not_true, Bool.false_and, Bool.false_eq_true, or_self, if_true, if_false]

theorem receive_bad (takes : c.Takes m bs r) (ring : h.rings[ringIx m r]? = some g) (whole : g.asm = []) {n : Nat}
    (taken : n = min (buffersFor bs) g.posted.length) :
    receive m bs false (h, c) =
      ({ h with rings := h.rings.set (ringIx m r) { g with posted := g.posted.drop n ++ g.posted.take n } },
        (c.fillBuffers (g.posted.take n) bs).macCount m 1) := by
  rw [receive_of_takes takes, receiveBad]
  simp only [Bool.not_false, if_true, Hamper.ring_of_get ring, ← taken, Hamper.giveBack_take ring whole]

theorem receive_good (takes : c.Takes m bs r) (mac : c.macs[m]? = some x) (side : x.rx[r]? = some q)
    (ring : h.rings[ringIx m r]? = some g) (whole : g.asm = []) (room : buffersFor bs ≤ g.posted.length)
    (runs : c.dmaHalted m = false) :
    ∃ d, receive m bs true (h, c) =
      ({ h with rings := h.rings.set (ringIx m r) { g with
          posted := g.posted.drop (buffersFor bs), held := g.held ++ g.posted.take (buffersFor bs) } }, d) ∧
      c.Delivers m r x q false d := by
  have filled : c.keeps [.ptp, .mem, .err] (c.fillBuffers (g.posted.take (buffersFor bs)) bs) :=
    .fillBuffers (by decide) (.refl _ _)
  rw [receive_of_takes takes]
  simp only [Bool.not_true, Bool.false_eq_true, if_false, Hamper.ring_of_get ring, Nat.not_lt.mpr room,
    ← Hamper.complete_take ring whole]
  refine (deliverRx_delivers (filled.get_macs ▸ mac) side ?_ ..).imp fun d => And.imp_right (.after filled)
  rw [Chip.fillBuffers_dmaHalted, runs]

theorem truncate_delivers (mac : c.macs[m]? = some x) (side : x.rx[r]? = some q)
    (ring : h.rings[ringIx m r]? = some g) (whole : g.asm = []) (some : g.posted ≠ []) (runs : c.dmaHalted m = false) :
    ∃ d, truncate m r g.posted.length bs (h, c) =
      ({ h with rings := h.rings.set (ringIx m r) { g with posted := [], held := g.held ++ g.posted } }, d) ∧
      Chip.Delivers ((c.macCount m 5).onDrop fun d => { d with truncs := d.truncs + 1, truncSeen := true }) m r
        { x with counts := lmod x.counts 5 (· + 1) } q true d := by
  have moved := Hamper.complete_take (n := g.posted.length) ring whole
  rw [List.take_length, List.drop_length] at moved
  have empty : g.posted.length ≠ 0 := by simpa using some
  rw [truncate, Hamper.ring_of_get ring, List.take_length, if_neg empty, ← moved]
  generalize counted : ((c.macCount m 5).onDrop fun d => { d with truncs := d.truncs + 1, truncSeen := true }) = b
  have filled : b.keeps [.ptp, .mem, .err] ((b.raiseFirst 0x0633 .note).fillBuffers g.posted bs) :=
    .fillBuffers (by decide) (.raiseFirst (by decide) (.refl _ _))
  have mac' : b.macs[m]? = Option.some { x with counts := lmod x.counts 5 (· + 1) } := by
    rw [← counted]
    exact Chip.onMac_get mac _
  have noted : b.keeps [.err] (b.raiseFirst 0x0633 .note) := .raiseFirst (by decide) (.refl _ _)
  refine (deliverRx_delivers (x := { x with counts := lmod x.counts 5 (· + 1) }) (filled.get_macs ▸ mac') side ?_ ..).imp
    fun d => And.imp_right (.after filled)
  rw [Chip.fillBuffers_dmaHalted, Chip.dmaHalted, noted.get_mem, ← counted]
  exact runs

end

theorem exec_linkFrameRx (p : Fin 2) (bytes : List Byte) (fcsOk : Bool) (t : Nat) (s : State) :
    Sys2Proof.Machine.exec (.linkFrameRx p bytes fcsOk t) s = execLinkFrameRx p bytes fcsOk t s := by rfl

theorem exec_rxTruncation (m : Fin 3) (bytes : List Byte) (t : Nat) (s : State) :
    Sys2Proof.Machine.exec (.rxTruncation m bytes t) s = execRxTruncation m bytes t s := by rfl

/-- A command at CORE clock t that may move hampers. -/
theorem completesHam_at {i : Instr} {s : State} {t : Nat} {named : List Piece} {P : Hamper → Chip → Prop}
    (f : Hamper × Chip → Hamper × Chip) {h : Hamper} {c : Chip} (run : Sys2Proof.Machine.exec i s = actHam f s)
    (live : s.live) (effect : f (s.ham, s.chip.begin) = (h, c))
    (frame : (s.chip.begin.advance t).keeps ([.out, .irq, .ptp] ++ named) c) (holds : P h c.settle)
    (timeless : Piece.clk ∉ named := by decide) :
    CompletesHam i s (.clk :: .ptp :: named) fun h c => c.clk = max s.chip.clk t ∧ P h c := by
  refine completesHam_actHam f run live effect ?_ ⟨?_, holds⟩
  · exact (Chip.keeps.advance (by simp) (by simp) (.refl _ _)).trans (frame.mono fun p => by simp; tauto)
  · rw [Chip.settle_clk, frame.get_clk (by simpa using timeless), Chip.advance_clk, Chip.begin_clk]

/-- Settles O21: a frame turned away by `receive_of_filtered`, the others by `receive_bad`, `receive_good` and
`truncate_delivers`, on the part at the CORE clock of the frame. -/
theorem frameReception : Obligations.FrameReception := by
  unfold Obligations.FrameReception
  intro s p x bytes t live mac up enabled long short
  have mac' : (s.chip.begin.advance t).macs[p.val]? = some x := by simpa using mac
  have on : (s.chip.begin.advance t).rxOn p.val = true := by
    rw [Chip.rxOn, if_pos p.isLt, Chip.mac_of_get mac', up, enabled]
    rfl
  refine ⟨?filtered, ?taken⟩
  case filtered =>
    intro away
    have effect := receive_of_filtered (h := s.ham) on long short ((Chip.advance_accepts ..).trans away)
    have run := (exec_linkFrameRx p bytes true t s).trans (actHam_eq_act _ live effect)
    refine completesAt_of_effect _ run live rfl (.macCount (by decide) (.refl _ _)) ?_
    rw [Chip.settle_macs, Chip.macCount, Chip.onMac_macs, lmod_of_get mac', Chip.advance_macs, Chip.begin_macs]
  case taken =>
    intro r q g accepted noPause ring' side ring whole
    have takes : (s.chip.begin.advance t).Takes p.val bytes r :=
      ⟨on, long, short, (Chip.advance_accepts ..).trans accepted, fun h => noPause h.2, (Chip.advance_classify ..).trans ring'⟩
    refine ⟨?bad, ?good, ?truncated⟩
    case bad =>
      intro n taken
      have filled : (s.chip.begin.advance t).keeps [.mem] ((s.chip.begin.advance t).fillBuffers (g.posted.take n) bytes) :=
        .fillBuffers (by decide) (.refl _ _)
      refine completesHam_at _ (exec_linkFrameRx p bytes false t s) live (receive_bad takes ring whole taken)
        (.macCount (by decide) (filled.mono (by decide))) ⟨?_, rfl⟩
      rw [Chip.settle_macs, Chip.macCount, Chip.onMac_macs, filled.get_macs, lmod_of_get mac', Chip.advance_macs,
        Chip.begin_macs]
    case good =>
      intro room runs
      obtain ⟨d, effect, frame, y, z, macs, delivered⟩ :=
        receive_good takes mac' side ring whole room ((Chip.advance_dmaHalted ..).trans runs)
      refine completesHam_at _ (exec_linkFrameRx p bytes true t s) live effect (frame.mono (by decide)) ⟨rfl, y, z, ?_⟩
      rw [Chip.settle_macs, macs, Chip.advance_macs]
      exact ⟨rfl, delivered.counts, delivered.tx, delivered.up.trans up, delivered.rx, delivered.made⟩
    case truncated =>
      intro few some runs
      obtain ⟨d, delivery, frame, y, z, macs, delivered⟩ :=
        truncate_delivers (bs := bytes) mac' side ring whole some ((Chip.advance_dmaHalted ..).trans runs)
      refine completesHam_at _ (exec_rxTruncation ⟨p.val, by omega⟩ bytes t s) live (c := d) ?_ ?_ ⟨?_, rfl, y, z, ?_⟩
      · have link : p.val ≠ 2 := by omega
        simp only [link, takes.on, takes.accepted, takes.ring, Hamper.ring_of_get ring, few, Bool.not_true, Bool.false_eq_true,
          or_self, if_true, if_false]
        exact delivery
      · exact .trans (.onDrop (by decide) (.macCount (by decide) (.refl _ _))) (frame.mono (by decide))
      · rw [Chip.settle_drop, frame.get_drop, Chip.onDrop_drop]
        simp [Chip.macCount]
      · rw [Chip.settle_macs, macs]
        refine ⟨?_, delivered.counts, delivered.tx, delivered.rx, delivered.made⟩
        rw [Chip.onDrop_macs, Chip.macCount, Chip.onMac_macs, lmod_of_get mac', List.set_set, Chip.advance_macs, Chip.begin_macs]

end Sys2Proof.Machine

namespace Sys2Proof.Machine

/-! What a write leaves of the other bytes (17 R446 to R448) -/

section
variable {α : Type}

theorem Rising.of_cons {p : Nat × α} {m : List (Nat × α)} (h : Rising (p :: m)) : Rising m := (List.pairwise_cons.mp h).2

theorem mget?_eq_none_of_lt {m : List (Nat × α)} {k : Nat} (h : ∀ p ∈ m, k < p.1) : mget? m k = none :=
  mget?_of_forall_ne fun p hp => (h p hp).ne'

theorem mget?_mdel_self {m : List (Nat × α)} (rising : Rising m) (k : Nat) : mget? (mdel m k) k = none := by
  induction m with
  | nil => rfl
  | cons p m ih =>
    obtain ⟨i, v⟩ := p
    unfold mdel
    split
    · next e => exact mget?_eq_none_of_lt fun p hp => e ▸ (List.pairwise_cons.mp rising).1 p hp
    · next ne =>
      split
      · next lt => simp [mget?, ne, lt]
      · next ge => simpa [mget?, ne, ge] using ih rising.of_cons

theorem mget?_mdel_ne {m : List (Nat × α)} (rising : Rising m) {j k : Nat} (ne : j ≠ k) : mget? (mdel m k) j = mget? m j := by
  induction m with
  | nil => rfl
  | cons p m ih =>
    obtain ⟨i, v⟩ := p
    have above := (List.pairwise_cons.mp rising).1
    unfold mdel
    split
    · next e =>
      subst e
      rcases lt_or_gt_of_ne ne with lt | gt
      · rw [mget?_eq_none_of_lt fun p hp => lt.trans (above p hp)]
        simp [mget?, ne, lt]
      · simp [mget?, ne, Nat.not_lt.mpr gt.le]
    · split
      · rfl
      · simp only [mget?, ih rising.of_cons]

/-- What is there stays there when another index is removed, whatever the order. -/
theorem mget?_mdel_of_some {m : List (Nat × α)} {j k : Nat} {v : α} (ne : j ≠ k) (h : mget? m j = some v) :
    mget? (mdel m k) j = some v := by
  induction m with
  | nil => exact h
  | cons p m ih =>
    obtain ⟨i, w⟩ := p
    by_cases here : j = i
    · have kept : k ≠ i := fun e => ne (here.trans e.symm)
      have first : w = v := by simpa [mget?, here] using h
      unfold mdel
      rw [if_neg kept]
      split <;> simp [mget?, here, first]
    · have before : ¬ j < i := fun lt => by simp [mget?, here, lt] at h
      have later : mget? m j = some v := by simpa [mget?, here, before] using h
      unfold mdel
      split
      · exact later
      · split
        · exact h
        · simpa [mget?, here, before] using ih later

/-- Removing entries of lower index changes nothing that is read at an index, whatever the order. -/
theorem mget?_filter_of_lt {m : List (Nat × α)} {j : Nat} {p : Nat × α → Bool} (low : ∀ q ∈ m, p q = false → q.1 < j) :
    mget? (m.filter p) j = mget? m j := by
  induction m with
  | nil => rfl
  | cons q m ih =>
    obtain ⟨i, w⟩ := q
    have rest := ih fun q hq => low q (List.mem_cons_of_mem _ hq)
    cases kept : p (i, w) with
    | true => simp [kept, mget?, rest]
    | false =>
      have lt : i < j := low (i, w) (List.mem_cons_self ..) kept
      simp [kept, mget?, rest, lt.ne', Nat.not_lt.mpr lt.le]

end

section
variable {m : Memory} {a : Nat} {b : Byte}

theorem Memory.put_zeroedAt (x : Nat) : (m.put a b).zeroedAt x = m.zeroedAt x := by
  unfold Memory.put
  split <;> rfl

theorem Memory.put_loadOf (x : Nat) : (m.put a b).loadOf x = m.loadOf x := by
  unfold Memory.put
  split <;> rfl

theorem Memory.put_cells :
    (m.put a b).cells = if (b = 0 && m.zeroedAt a) = true then mdel m.cells a else mset m.cells a b := by
  unfold Memory.put
  split <;> rfl

theorem Memory.get?_eq (m : Memory) (x : Nat) :
    m.get? x = (mget? m.cells x).or (if m.zeroedAt x then some 0 else none) := by
  unfold Memory.get?
  cases mget? m.cells x <;> rfl

theorem Memory.get?_put_self (wf : m.wf = true) : (m.put a b).get? a = some b := by
  obtain ⟨rising, -⟩ := (Memory.wf_iff m).mp wf
  rw [Memory.get?_eq, Memory.put_zeroedAt, Memory.put_cells]
  split
  · next h =>
    obtain ⟨zero, zeroed⟩ : b = 0 ∧ m.zeroedAt a = true := by simpa using h
    simp [mget?_mdel_self rising, zeroed, zero]
  · simp

theorem Memory.get?_put_ne (wf : m.wf = true) {x : Nat} (ne : x ≠ a) : (m.put a b).get? x = m.get? x := by
  obtain ⟨rising, -⟩ := (Memory.wf_iff m).mp wf
  rw [Memory.get?_eq, Memory.get?_eq, Memory.put_zeroedAt, Memory.put_cells]
  split
  · rw [mget?_mdel_ne rising ne]
  · rw [mget?_mset_ne _ _ ne]

/-- A byte after a write of one byte. -/
theorem Memory.byte_put (wf : m.wf = true) (x : Nat) : (m.put a b).byte x = if x = a then b else m.byte x := by
  unfold Memory.byte
  rw [Memory.put_loadOf]
  split_ifs with here
  · rw [here, Memory.get?_put_self wf, Option.getD_some]
  · rw [Memory.get?_put_ne wf here]

/-- A byte after a write of bytes. -/
theorem Memory.byte_puts {bs : List Byte} (wf : m.wf = true) (x : Nat) :
    (m.puts a bs).byte x = if a ≤ x ∧ x < a + bs.length then bs.getD (x - a) 0 else m.byte x := by
  induction bs generalizing m a with
  | nil => simp [Memory.puts]
  | cons b bs ih =>
    rw [Memory.puts, ih (Memory.wf_put wf a b), Memory.byte_put wf, List.length_cons]
    rcases lt_trichotomy x a with lt | rfl | gt
    · rw [if_neg (by omega), if_neg (by omega), if_neg (by omega)]
    · rw [if_neg (by omega), if_pos rfl, if_pos (by omega), Nat.sub_self, List.getD_cons_zero]
    · have next : x - a = x - (a + 1) + 1 := by omega
      rw [if_neg (Nat.ne_of_gt gt), next, List.getD_cons_succ]
      exact if_congr (by omega) rfl rfl

/-- What was written stays written, whatever the order of the list. -/
theorem Memory.isSome_get?_put {x : Nat} (h : (m.get? x).isSome = true) : ((m.put a b).get? x).isSome = true := by
  rw [Memory.get?_eq] at h ⊢
  rw [Memory.put_zeroedAt, Memory.put_cells]
  cases zeroed : m.zeroedAt x
  · obtain ⟨v, hv⟩ : ∃ v, mget? m.cells x = some v := by simpa [zeroed, Option.isSome_iff_exists] using h
    rcases eq_or_ne x a with rfl | ne
    · simp [zeroed]
    · split
      · simp [mget?_mdel_of_some ne hv]
      · simp [mget?_mset_ne _ _ ne, hv]
  · simp

theorem Memory.isSome_get?_puts {bs : List Byte} {x : Nat} (h : (m.get? x).isSome = true) :
    ((m.puts a bs).get? x).isSome = true := by
  induction bs generalizing m a with
  | nil => exact h
  | cons b bs ih => exact ih (Memory.isSome_get?_put h)

theorem Memory.puts_loadOf (bs : List Byte) (x : Nat) : (m.puts a bs).loadOf x = m.loadOf x := by
  induction bs generalizing m a with
  | nil => rfl
  | cons b bs ih => rw [Memory.puts, ih, Memory.put_loadOf]

/-- A word without an error is not struck, and was written or came up good (17 R445, R447). -/
theorem Memory.ecc_eq_good_iff (w : Nat) : m.ecc w = .good ↔ mget? m.upset w = none ∧
    ((m.get? w).isSome = true ∨ (m.loadOf w).isSome = true ∨ Config.unwrittenOutcome w = 0) := by
  unfold Memory.ecc
  cases mget? m.upset w with
  | some u => cases u <;> simp
  | none =>
    cases m.get? w with
    | some b => simp
    | none =>
      cases m.loadOf w with
      | some n => simp
      | none =>
        simp only [Option.isSome_none, Bool.false_eq_true, if_false, false_or, true_and]
        generalize Config.unwrittenOutcome w = o
        revert o
        decide

end

end Sys2Proof.Machine

namespace Sys2Proof.Machine

/-! Writes over words without an error (17 R455): nothing is reported, and the bytes around them stay -/

/-- The part with the bytes of its memories as given. -/
def Chip.withBytes (b : Memory) (c : Chip) : Chip := c.onMem fun u => { u with bytes := b }

/-- Only bytes from `lo` up to `hi` are written. -/
def Chip.Rewrites (lo hi : Nat) (c d : Chip) : Prop :=
  ∃ b, d = c.withBytes b ∧ (c.mem.bytes.wf = true → b.wf = true ∧ ∀ x, x < lo ∨ hi ≤ x → b.byte x = c.mem.bytes.byte x)

section
variable {c d e : Chip} {lo hi : Nat}

theorem Chip.Rewrites.refl (lo hi : Nat) (c : Chip) : c.Rewrites lo hi c := ⟨c.mem.bytes, rfl, fun wf => ⟨wf, fun _ _ => rfl⟩⟩

theorem Chip.Rewrites.trans (h : c.Rewrites lo hi d) (k : d.Rewrites lo hi e) : c.Rewrites lo hi e := by
  obtain ⟨b, rfl, hb⟩ := h
  obtain ⟨b', rfl, hb'⟩ := k
  refine ⟨b', rfl, fun wf => ?_⟩
  obtain ⟨wf', outside⟩ := hb wf
  obtain ⟨wf'', outside'⟩ := hb' wf'
  exact ⟨wf'', fun x hx => (outside' x hx).trans (outside x hx)⟩

theorem Chip.Rewrites.mono {lo' hi' : Nat} (h : c.Rewrites lo hi d) (low : lo' ≤ lo) (high : hi ≤ hi') :
    c.Rewrites lo' hi' d := by
  obtain ⟨b, rfl, hb⟩ := h
  exact ⟨b, rfl, fun wf => (hb wf).imp_right fun outside x hx => outside x (by omega)⟩

theorem Chip.Rewrites.keeps (h : c.Rewrites lo hi d) : c.keeps [.mem] d := by
  obtain ⟨b, rfl, -⟩ := h
  exact .onMem (by decide) (.refl _ _)

theorem Chip.Rewrites.dmaHalted (h : c.Rewrites lo hi d) (ch : Nat) : d.dmaHalted ch = c.dmaHalted ch := by
  obtain ⟨b, rfl, -⟩ := h
  rfl

theorem Chip.Rewrites.byte (h : c.Rewrites lo hi d) (wf : c.mem.bytes.wf = true) {x : Nat} (outside : x < lo ∨ hi ≤ x) :
    d.mem.bytes.byte x = c.mem.bytes.byte x := by
  obtain ⟨b, rfl, hb⟩ := h
  exact (hb wf).2 x outside

end

theorem eccSize_cases (t : Nat) : eccSize t = 4 ∨ eccSize t = 8 ∨ eccSize t = 16 := by
  unfold eccSize
  split_ifs <;> simp

/-- A word is the only one that its own bytes touch. -/
theorem eccWords_self {w : Nat} (aligned : w % eccSize (targetIndex w) = 0) :
    eccWords w (eccSize (targetIndex w)) = [w] := by
  have one : (w % eccSize (targetIndex w) + eccSize (targetIndex w) + eccSize (targetIndex w) - 1) /
      eccSize (targetIndex w) = 1 := by
    rw [aligned]
    rcases eccSize_cases (targetIndex w) with e | e | e <;> rw [e]
  simp only [eccWords, eccBase, one]
  simp [aligned]

section
variable {c d : Chip} {a w : Nat} {bs : List Byte}

/-- A write of words leaves a word above them good. -/
theorem Chip.ecc_store_of_good {v : Nat} (good : c.mem.bytes.ecc v = .good) (above : ∀ w ∈ eccWords a bs.length, w < v) :
    (c.store a bs).mem.bytes.ecc v = .good := by
  rw [Memory.ecc_eq_good_iff] at good ⊢
  obtain ⟨unstruck, written⟩ := good
  refine ⟨?_, ?_⟩
  · refine Eq.trans (mget?_filter_of_lt fun u _ hu => above u.1 ?_) unstruck
    simpa using hu
  · have loaded : (c.mem.bytes.puts a bs).loadOf v = c.mem.bytes.loadOf v := Memory.puts_loadOf ..
    refine written.imp (Memory.isSome_get?_puts (m := c.mem.bytes) (a := a) (bs := bs)) (Or.imp_left fun h => ?_)
    exact (congrArg Option.isSome loaded).trans h

/-- A write of bytes that all are within the range, or read as before. -/
theorem Chip.store_rewrites {lo hi : Nat}
    (same : ∀ x, a ≤ x → x < a + bs.length → x < lo ∨ hi ≤ x → bs.getD (x - a) 0 = c.mem.bytes.byte x) :
    c.Rewrites lo hi (c.store a bs) := by
  refine ⟨_, rfl, fun wf => ⟨Memory.wf_puts wf a bs, fun x outside => ?_⟩⟩
  refine (Memory.byte_puts wf x).trans ?_
  split
  · next within => exact same x within.1 within.2 outside
  · rfl

theorem Chip.merge_getD {i : Nat} (lt : i < eccSize (targetIndex w)) : (c.merge w a bs).getD i 0 =
    if a ≤ w + i ∧ w + i < a + bs.length then bs.getD (w + i - a) 0 else c.mem.bytes.byte (w + i) := by
  simp [Chip.merge, Memory.bytes, List.getD_eq_getElem?_getD, lt]

theorem Chip.merge_rewrites : c.Rewrites a (a + bs.length) (c.store w (c.merge w a bs)) := by
  refine Chip.store_rewrites fun x low high outside => ?_
  rw [Chip.merge_length] at high
  have here : w + (x - w) = x := by omega
  rw [Chip.merge_getD (by omega), here, if_neg (by omega)]

theorem Chip.word_rewrites {n : Nat} (whole : a ≤ w ∧ w + n ≤ a + bs.length) :
    c.Rewrites a (a + bs.length) (c.store w ((bs.drop (w - a)).take n)) := by
  refine Chip.store_rewrites fun x low high outside => ?_
  rw [List.length_take] at high
  omega

/-- Writes of words in rising order, none of which is uncorrectable when its turn comes. -/
theorem foldl_rewrites {f : Bool × Chip → Nat → Bool × Chip} {aligned whole : Nat → Prop} {lo hi : Nat}
    (step : ∀ c w, aligned w → whole w ∨ c.mem.bytes.ecc w = .good → ∃ d, f (true, c) w = (true, d) ∧ c.Rewrites lo hi d ∧
      ∀ v, w < v → c.mem.bytes.ecc v = .good → d.mem.bytes.ecc v = .good)
    {ws : List Nat} (sorted : ws.Pairwise (· < ·)) (fit : ∀ w ∈ ws, aligned w) (ok : ∀ w ∈ ws, whole w ∨ c.mem.bytes.ecc w = .good) :
    ∃ d, ws.foldl f (true, c) = (true, d) ∧ c.Rewrites lo hi d := by
  induction ws generalizing c with
  | nil => exact ⟨c, rfl, .refl ..⟩
  | cons w ws ih =>
    obtain ⟨above, sorted⟩ := List.pairwise_cons.mp sorted
    obtain ⟨d, run, first, good⟩ := step c w (fit w (List.mem_cons_self ..)) (ok w (List.mem_cons_self ..))
    obtain ⟨e, runs, rest⟩ := ih (c := d) sorted (fun v hv => fit v (List.mem_cons_of_mem _ hv)) fun v hv =>
      (ok v (List.mem_cons_of_mem _ hv)).imp_right (good v (above v hv))
    exact ⟨e, by rw [List.foldl_cons, run, runs], first.trans rest⟩

/-- A write by a core, an engine or a DMA channel that finds no error in the words that it covers in part. -/
theorem Chip.innerStore_of_good {master : Byte} (sorted : (eccWords a bs.length).Pairwise (· < ·))
    (aligned : ∀ w ∈ eccWords a bs.length, w % eccSize (targetIndex w) = 0)
    (ok : ∀ w ∈ eccWords a bs.length,
      (a ≤ w ∧ w + eccSize (targetIndex w) ≤ a + bs.length) ∨ c.mem.bytes.ecc w = .good) :
    ∃ d, c.innerStore master a bs = (true, d) ∧ c.Rewrites a (a + bs.length) d := by
  unfold Chip.innerStore
  refine foldl_rewrites (whole := fun w => a ≤ w ∧ w + eccSize (targetIndex w) ≤ a + bs.length)
    (fun c w fit ok => ?_) sorted aligned ok
  have above : ∀ {part : List Byte}, part.length = eccSize (targetIndex w) →
      ∀ v, w < v → c.mem.bytes.ecc v = .good → (c.store w part).mem.bytes.ecc v = .good := by
    intro part size v lt good
    refine Chip.ecc_store_of_good good ?_
    rw [size, eccWords_self fit]
    simpa using lt
  by_cases whole : a ≤ w ∧ w + eccSize (targetIndex w) ≤ a + bs.length
  · refine ⟨_, if_pos whole, Chip.word_rewrites whole, above ?_⟩
    rw [List.length_take, List.length_drop]
    omega
  · have good := ok.resolve_left whole
    refine ⟨c.store w (c.merge w a bs), (if_neg whole).trans ?_, Chip.merge_rewrites, above (Chip.merge_length ..)⟩
    simp only [Chip.correct_of_good good, good]

end

end Sys2Proof.Machine

namespace Sys2Proof.Machine

/-! The ECC words of a descriptor of 32 bytes, in whatever memory it lies (07 R214, 17 R445) -/

section
variable {a o n w : Nat}

/-- Every target begins and ends at a multiple of 32. -/
theorem targetIndex_add (aligned : a % 32 = 0) (lt : o < 32) : targetIndex (a + o) = targetIndex a := by
  have below : ∀ b, b % 32 = 0 → (a + o < b ↔ a < b) := fun b hb => by omega
  have above : ∀ b, b % 32 = 0 → (b ≤ a + o ↔ b ≤ a) := fun b hb => by omega
  have target : targetOf (a + o) = targetOf a := by
    unfold targetOf
    simp (disch := decide) only [below, above]
    by_cases low : 0x20000000 ≤ a
    · have n : (a + o - 0x20000000) / 0x40000 = (a - 0x20000000) / 0x40000 := by omega
      simp only [n]
    · simp only [low, false_and, if_false]
  unfold targetIndex
  rw [target]
  simp (disch := decide) only [below, above]

theorem mem_eccWords (aligned : a % 32 = 0) (within : o + n ≤ 32) (pos : 0 < n) :
    w ∈ eccWords (a + o) n ↔
      w % eccSize (targetIndex a) = 0 ∧ a + o < w + eccSize (targetIndex a) ∧ w < a + o + n := by
  have target := targetIndex_add aligned (show o < 32 by omega)
  simp only [eccWords, eccBase, target, List.mem_map, List.mem_range]
  refine ⟨?_, fun h => ⟨(w - (a + o - (a + o) % eccSize (targetIndex a))) / eccSize (targetIndex a), ?_, ?_⟩⟩
  · rintro ⟨i, hi, rfl⟩
    rcases eccSize_cases (targetIndex a) with e | e | e <;> rw [e] at hi ⊢ <;> omega
  all_goals rcases eccSize_cases (targetIndex a) with e | e | e <;> rw [e] at h ⊢ <;> omega

theorem eccWords_sorted (a n : Nat) : (eccWords a n).Pairwise (· < ·) := by
  have pos : 0 < eccSize (targetIndex a) := by
    rcases eccSize_cases (targetIndex a) with e | e | e <;> rw [e] <;> decide
  refine List.pairwise_map.mpr (List.Pairwise.imp (fun lt => ?_) List.pairwise_lt_range)
  exact Nat.add_lt_add_left (Nat.mul_lt_mul_of_pos_right lt pos) _

/-- A word that a write within a descriptor touches has the size of every word of the descriptor, and begins where one begins. -/
theorem eccSize_of_mem (aligned : a % 32 = 0) (within : o + n ≤ 32) (pos : 0 < n) (touched : w ∈ eccWords (a + o) n) :
    eccSize (targetIndex w) = eccSize (targetIndex a) ∧ w % eccSize (targetIndex w) = 0 := by
  obtain ⟨base, low, high⟩ := (mem_eccWords aligned within pos).mp touched
  have above : a ≤ w := by rcases eccSize_cases (targetIndex a) with e | e | e <;> rw [e] at base low <;> omega
  have target : targetIndex w = targetIndex a := by
    have := targetIndex_add aligned (show w - a < 32 by omega)
    rwa [Nat.add_sub_cancel' above] at this
  exact ⟨by rw [target], by rw [target, base]⟩

end

/-! A completion of a transmit descriptor that is read without an error (07 R214) -/

theorem txBase_mod (m r k : Nat) : (txBase m r + 32 * k) % 32 = 0 := by
  have base : macBase m % 32 = 0 := by
    rcases m with _ | _ | _ | m
    all_goals rfl
  unfold txBase
  split <;> omega

section
variable {c : Chip} {a : Nat} {bs : List Byte}

/-- Words 1 and 2: the words that they lie in are those of the first half of the descriptor. -/
theorem Chip.innerStore_status (master : Byte) (aligned : a % 32 = 0) (clean : c.mem.bytes.clean a 16 = true)
    (two : bs.length = 8) : ∃ d, c.innerStore master (a + 4) bs = (true, d) ∧ c.Rewrites (a + 4) (a + 32) d := by
  have fits := fun w hw => eccSize_of_mem (w := w) (o := 4) (n := 8) aligned (by decide) (by decide) hw
  have good : ∀ w ∈ eccWords (a + 4) bs.length, c.mem.bytes.ecc w = .good := fun w hw => by
    rw [two, mem_eccWords aligned (by decide) (by decide)] at hw
    refine Memory.ecc_of_clean clean ((mem_eccWords (o := 0) aligned (by decide) (by decide)).mpr ?_)
    omega
  obtain ⟨d, run, rewrites⟩ := Chip.innerStore_of_good (master := master) (eccWords_sorted ..)
    (fun w hw => (fits w (two ▸ hw)).2) fun w hw => .inr (good w hw)
  exact ⟨d, run, rewrites.mono le_rfl (by omega)⟩

/-- Words 4 to 7 are the whole second half. -/
theorem Chip.innerStore_stamp (master : Byte) (aligned : a % 32 = 0) (four : bs.length = 16) :
    ∃ d, c.innerStore master (a + 16) bs = (true, d) ∧ c.Rewrites (a + 4) (a + 32) d := by
  have fits := fun w hw => eccSize_of_mem (w := w) (o := 16) (n := 16) aligned (by decide) (by decide) hw
  have whole : ∀ w ∈ eccWords (a + 16) bs.length,
      a + 16 ≤ w ∧ w + eccSize (targetIndex w) ≤ a + 16 + bs.length := fun w hw => by
    rw [four] at hw
    rw [(fits w hw).1, four]
    rw [mem_eccWords aligned (by decide) (by decide)] at hw
    rcases eccSize_cases (targetIndex a) with e | e | e <;> rw [e] at hw ⊢ <;> omega
  obtain ⟨d, run, rewrites⟩ := Chip.innerStore_of_good (master := master) (c := c) (eccWords_sorted ..)
    (fun w hw => by rw [four] at hw; exact (fits w hw).2) fun w hw => .inl (whole w hw)
  exact ⟨d, run, rewrites.mono (by omega) (by omega)⟩

end

end Sys2Proof.Machine

namespace Sys2Proof.Machine

/-! The completion of one frame whose descriptor is read without an error (07 R214) -/

/-- A completion on a host ring is an interrupt cause. -/
def Chip.hostPulse (r : Nat) (c : Chip) : Chip := if 4 ≤ r then c.pulse 26 else c

section
variable {c : Chip} {L : List Piece} {a : Chip} (r : Nat)

theorem Chip.keeps.hostPulse (k : Piece.irq ∈ L) (h : a.keeps L c) : a.keeps L (c.hostPulse r) := by
  unfold Chip.hostPulse
  exact .ite (.pulse k h) h

@[simp] theorem Chip.hostPulse_macs : (c.hostPulse r).macs = c.macs := by unfold Chip.hostPulse; split <;> rfl
@[simp] theorem Chip.hostPulse_mem : (c.hostPulse r).mem = c.mem := by unfold Chip.hostPulse; split <;> rfl
@[simp] theorem Chip.hostPulse_out : (c.hostPulse r).out = c.out := by unfold Chip.hostPulse; split <;> rfl
@[simp] theorem Chip.hostPulse_drop : (c.hostPulse r).drop = c.drop := by unfold Chip.hostPulse; split <;> rfl
@[simp] theorem Chip.hostPulse_err : (c.hostPulse r).err = c.err := by unfold Chip.hostPulse; split <;> rfl
@[simp] theorem Chip.hostPulse_boot : (c.hostPulse r).boot = c.boot := by unfold Chip.hostPulse; split <;> rfl

end

/-- The MAC when the owner of ring r, which held `y`, finds one more descriptor completed; and when that is also counted. -/
def Mac.consumes (r : Nat) (y : TxSide) (x : Mac) : Mac := { x with tx := x.tx.set r { y with consumed := y.consumed + 1 } }
def Mac.counted (i : Nat) (x : Mac) : Mac := { x with counts := lmod x.counts i (· + 1) }
def Mac.completed (r : Nat) (y : TxSide) (status : Nat) (x : Mac) : Mac :=
  (x.consumes r y).counted (if status = 0 then 6 else 7)

section
variable {c d : Chip} {m r k lo hi status : Nat} {x z : Mac} {y : TxSide} {f : TxFrame} {ts : List Word}

theorem Chip.macCount_of_get (mac : c.macs[m]? = some x) (i : Nat) : c.macCount m i = c.setMac m (x.counted i) :=
  Chip.onMac_of_get mac (Mac.counted i)

theorem Chip.postNext_of_nil (mac : c.macs[m]? = some x) (side : x.tx[r]? = some y) (served : y.owner = []) :
    c.postNext m r = c := by
  have get : (c.mac m).tx.getD r {} = y := by rw [Chip.mac_of_get mac, getD_of_get side]
  unfold Chip.postNext
  rw [get, served]

/-- What is written to the memories does not depend on the MACs. -/
theorem Chip.Rewrites.of_setMac (h : (c.setMac m x).Rewrites lo hi d) : ∃ e, c.Rewrites lo hi e ∧ d = e.setMac m x := by
  obtain ⟨b, rfl, hb⟩ := h
  exact ⟨c.withBytes b, ⟨b, rfl, hb⟩, rfl⟩

theorem Chip.Rewrites.macs (h : c.Rewrites lo hi d) : d.macs = c.macs := h.keeps.get_macs

theorem Chip.txComplete_of_clean (attempts : Nat) (mac : c.macs[m]? = some x) (side : x.tx[r]? = some y) (served : y.owner = [])
    (runs : c.dmaHalted m = false) (clean : c.mem.bytes.clean (txBase m r + 32 * k) 16 = true) (three : ts.length = 3) :
    ∃ d, c.Rewrites (txBase m r + 32 * k + 4) (txBase m r + 32 * k + 32) d ∧ c.txComplete m r k attempts status ts =
      (d.setMac m (if status = 0 then x.consumes r y else (x.consumes r y).counted 7)).hostPulse r := by
  obtain ⟨d, run, first⟩ := Chip.innerStore_status (bs := wordBytes [(c.word (txBase m r + 32 * k + 4) &&& 0x00FFFFFF) |||
    BitVec.ofNat 32 (status * 2 ^ 24), BitVec.ofNat 32 attempts]) (BitVec.ofNat 8 (0x30 + m)) (txBase_mod m r k) clean
    (wordBytes_length _)
  have get : (c.mac m).tx.getD r {} = y := by rw [Chip.mac_of_get mac, getD_of_get side]
  obtain ⟨e, run', second⟩ := Chip.innerStore_stamp (c := d) (bs := wordBytes (ts ++
    [if y.consumed.toNat / 256 % 2 = 0 then 0x80000000 else 0])) (BitVec.ofNat 8 (0x30 + m)) (txBase_mod m r k)
    ((wordBytes_length _).trans (by simp [three]))
  have mac' : e.macs[m]? = some x := by rw [second.macs, first.macs, mac]
  refine ⟨e, first.trans second, ?_⟩
  have consumed := Chip.onMac_of_get mac' fun x => { x with tx := lmod x.tx r fun y => { y with consumed := y.consumed + 1 } }
  rw [lmod_of_get side] at consumed
  change _ = e.setMac m (x.consumes r y) at consumed
  have running : d.dmaHalted m = false := (first.dmaHalted m).trans runs
  have posted := Chip.setMac_get (y := x.consumes r y) mac'
  have side' : (x.consumes r y).tx[r]? = some { y with consumed := y.consumed + 1 } := set_get side _
  simp only [Chip.txComplete, get, run, running, Bool.false_eq_true, if_false, run', consumed]
  by_cases sent : status = 0
  · rw [if_pos sent, if_pos sent]
    exact Chip.postNext_of_nil (c := Chip.hostPulse r _) (by rw [Chip.hostPulse_macs]; exact posted) side' served
  · rw [if_neg sent, if_neg sent, Chip.macCount_of_get posted 7, Chip.setMac_setMac]
    exact Chip.postNext_of_nil (c := Chip.hostPulse r _) (x := (x.consumes r y).counted 7)
      (by rw [Chip.hostPulse_macs]; exact Chip.setMac_get mac') side' served

/-- A frame is done with: its descriptor completes and the MAC counts it. -/
theorem Chip.txDone_of_clean (mac : c.macs[m]? = some x) (side : x.tx[r]? = some y) (served : y.owner = [])
    (slot : f.slot = some k) (runs : c.dmaHalted m = false) (clean : c.mem.bytes.clean (txBase m r + 32 * k) 16 = true) :
    ∃ d, c.Rewrites (txBase m r + 32 * k + 4) (txBase m r + 32 * k + 32) d ∧
      c.txDone m r f status [0, 0, 0] false = (d.setMac m (x.completed r y status)).hostPulse r := by
  by_cases sent : status = 0
  · obtain ⟨d, writes, completes⟩ := Chip.txComplete_of_clean (c := c.setMac m (x.counted 6)) (status := status)
      (ts := [0, 0, 0]) f.attempts (Chip.setMac_get mac) side served runs clean rfl
    obtain ⟨e, writes', rfl⟩ := writes.of_setMac
    refine ⟨e, writes', ?_⟩
    have running : (c.setMac m (x.counted 6)).dmaHalted m = false := runs
    simp only [Chip.txDone, sent, slot, if_true, Chip.macCount_of_get mac, running, Bool.false_eq_true, if_false]
    rw [sent, if_pos rfl, Chip.setMac_setMac] at completes
    rw [completes, Mac.completed, if_pos rfl]
    rfl
  · obtain ⟨d, writes, completes⟩ := Chip.txComplete_of_clean (status := status) (ts := [0, 0, 0]) f.attempts mac side served runs
      clean rfl
    refine ⟨d, writes, ?_⟩
    simp only [Chip.txDone, sent, slot, if_false, runs, Bool.false_eq_true]
    rw [completes, Mac.completed, if_neg sent, if_neg sent]

end

end Sys2Proof.Machine

namespace Sys2Proof.Machine

/-! Rings of which one head is done with, and the others wait (07 R194, R214) -/

/-- No frame that waits in these rings has a status already. -/
def unfixed (tx : List TxSide) : Prop := ∀ z ∈ tx, ∀ g ∈ z.queue, g.fixed = none

/-- The MAC with ring r as given. -/
def Mac.withTx (r : Nat) (y : TxSide) (x : Mac) : Mac := { x with tx := x.tx.set r y }

section
variable {c d : Chip} {m r k s : Nat} {x : Mac} {y : TxSide} {f : TxFrame} {q : List TxFrame} {tx : List TxSide}

theorem unfixed.queue (h : unfixed tx) (r : Nat) : ∀ f ∈ (tx.getD r {}).queue, f.fixed = none := by
  rw [List.getD_eq_getElem?_getD]
  cases get : tx[r]? with
  | none => simp
  | some y => exact h y (List.mem_of_getElem? get)

theorem unfixed.set (h : unfixed tx) (hy : ∀ g ∈ y.queue, g.fixed = none) : unfixed (tx.set r y) := fun z hz => by
  rcases List.mem_or_eq_of_mem_set hz with hz | rfl
  · exact h z hz
  · exact hy

theorem Chip.txBar_congr (up : (d.mac m).up = (c.mac m).up) (enabled : (d.mac m).portEn = (c.mac m).portEn)
    (boot : d.boot = c.boot) : d.txBar m = c.txBar m := by
  simp [Chip.txBar, up, enabled, boot]

theorem Chip.txBar_setMac {z : Mac} (mac : c.macs[m]? = some x) (up : z.up = x.up) (enabled : z.portEn = x.portEn) :
    (c.setMac m z).txBar m = c.txBar m := by
  have got := Chip.setMac_get (y := z) mac
  exact Chip.txBar_congr (by rw [Chip.mac_of_get got, Chip.mac_of_get mac, up])
    (by rw [Chip.mac_of_get got, Chip.mac_of_get mac, enabled]) rfl

@[simp] theorem Chip.advance_txBar {t : Nat} : (c.advance t).txBar m = c.txBar m := by simp [Chip.txBar]

theorem Chip.waits_of_unfixed (mac : c.macs[m]? = some x) (bar : c.txBar m = none) (h : unfixed x.tx) (r : Nat) :
    c.waits m r := fun f hf => by
  rw [Chip.mac_of_get mac] at hf
  exact ⟨h.queue r f (List.mem_of_mem_head? hf), bar⟩

/-- What one ring of the flush does is all that the flush does, when the other rings wait before and every ring after. -/
theorem Chip.txFlushAll_of_one (lt : r < 8) (before : ∀ i, i ≠ r → c.waits m i)
    (flush : c.txFlush m r (((c.mac m).tx.getD r {}).queue.length + ((c.mac m).tx.getD r {}).owner.length) = d)
    (after : ∀ i, d.waits m i) : c.txFlushAll m = d := by
  obtain ⟨low, high, rings, first⟩ := List.eq_append_cons_of_mem (List.mem_range.mpr lt)
  unfold Chip.txFlushAll
  rw [rings, List.foldl_append, foldl_eq_of_forall_mem fun i hi =>
    Chip.txFlush_of_waits (before i fun e => first (e ▸ hi)), List.foldl_cons, flush]
  exact foldl_eq_of_forall_mem fun i _ => Chip.txFlush_of_waits (after i)

/-- A head that has a status completes with it. -/
theorem Chip.txFlush_of_fixed {n : Nat} (mac : c.macs[m]? = some x) (side : x.tx[r]? = some y) (queue : y.queue = f :: q)
    (fixed : f.fixed = some s) (idle : x.busy r = false) : c.txFlush m r (n + 1) =
      ((c.setMac m (x.withTx r { y with queue := q })).txDone m r f s [0, 0, 0] false).txFlush m r n := by
  have get : (c.mac m).tx.getD r {} = y := by rw [Chip.mac_of_get mac, getD_of_get side]
  have dropped := Chip.onMac_of_get mac fun x => { x with tx := lmod x.tx r fun y => { y with queue := y.queue.drop 1 } }
  rw [lmod_of_get side, queue] at dropped
  have idle' : (c.mac m).busy r = false := by rw [Chip.mac_of_get mac, idle]
  rw [Chip.txFlush, get, queue]
  simp only [fixed, idle', Bool.false_eq_true, if_false, dropped]
  rfl

/-- The head of a ring is all that is done with when a MAC that may send flushes its rings. -/
theorem Chip.txFlushAll_of_fixed (lt : r < 8) (mac : c.macs[m]? = some x) (side : x.tx[r]? = some y)
    (queue : y.queue = f :: q) (fixed : f.fixed = some s) (idle : x.busy r = false)
    (others : unfixed (x.withTx r { y with queue := q }).tx) (bar : c.txBar m = none) (served : y.owner = [])
    (slot : f.slot = some k) (runs : c.dmaHalted m = false) (clean : c.mem.bytes.clean (txBase m r + 32 * k) 16 = true) :
    ∃ d, c.Rewrites (txBase m r + 32 * k + 4) (txBase m r + 32 * k + 32) d ∧ c.txFlushAll m =
      (d.setMac m ((x.withTx r { y with queue := q }).completed r { y with queue := q } s)).hostPulse r := by
  have get : (c.mac m).tx.getD r {} = y := by rw [Chip.mac_of_get mac, getD_of_get side]
  have side' : (x.withTx r { y with queue := q }).tx[r]? = some { y with queue := q } := set_get side _
  obtain ⟨d, writes, done⟩ := Chip.txDone_of_clean (c := c.setMac m (x.withTx r { y with queue := q })) (status := s)
    (Chip.setMac_get mac) side' served slot runs clean
  obtain ⟨e, writes', rfl⟩ := writes.of_setMac
  rw [Chip.setMac_setMac] at done
  have mac' : e.macs[m]? = some x := by rw [writes'.macs, mac]
  have after : ∀ i, (Chip.hostPulse r (e.setMac m ((x.withTx r { y with queue := q }).completed r
      { y with queue := q } s))).waits m i := by
    have got := Chip.setMac_get (y := (x.withTx r { y with queue := q }).completed r { y with queue := q } s) mac'
    rw [← Chip.hostPulse_macs r] at got
    have tail : ∀ g ∈ q, g.fixed = none := others _ (List.mem_of_getElem? side')
    refine Chip.waits_of_unfixed got (bar ▸ Chip.txBar_congr ?_ ?_ ?_) (others.set tail)
    · rw [Chip.mac_of_get got, Chip.mac_of_get mac]
      rfl
    · rw [Chip.mac_of_get got, Chip.mac_of_get mac]
      rfl
    · rw [Chip.hostPulse_boot, Chip.setMac_boot, writes'.keeps.get_boot]
  have length : y.queue.length + y.owner.length = q.length + 1 := by rw [queue, served]; rfl
  refine ⟨e, writes', Chip.txFlushAll_of_one lt (fun i ne f hf => ⟨?_, bar⟩) ?_ after⟩
  · rw [Chip.mac_of_get mac] at hf
    have same : (x.withTx r { y with queue := q }).tx.getD i {} = x.tx.getD i {} := by
      rw [List.getD_eq_getElem?_getD, List.getD_eq_getElem?_getD, Mac.withTx, List.getElem?_set_ne ne.symm]
    exact others.queue i f (same ▸ List.mem_of_mem_head? hf)
  · rw [get, length, Chip.txFlush_of_fixed mac side queue fixed idle, done]
    exact Chip.txFlush_of_waits (after r)

end

end Sys2Proof.Machine

namespace Sys2Proof.Machine

/-! Frames that become stale, frames that end well and descriptors that are fetched (07 R194, R214) -/

section
variable {c : Chip} {m r k s : Nat} {x : Mac} {y z : TxSide} {f : TxFrame} {q : List TxFrame} {stale : TxFrame → Bool}

@[simp] theorem Mac.withTx_withTx : (x.withTx r y).withTx r z = x.withTx r z := by simp [Mac.withTx]

/-- A ring that is changed and then completes a descriptor. -/
theorem Mac.completed_withTx : (x.withTx r y).completed r z s = { x with
    tx := x.tx.set r { z with consumed := z.consumed + 1 }, counts := lmod x.counts (if s = 0 then 6 else 7) (· + 1) } := by
  simp [Mac.completed, Mac.counted, Mac.consumes, Mac.withTx]

theorem Mac.quiet.withTx (h : x.quiet) (queue : z.queue = []) (owner : z.owner = []) : (x.withTx r z).quiet := by
  refine ⟨by rw [Mac.withTx, List.length_set, h.1], fun v hv => ?_⟩
  rcases List.mem_or_eq_of_mem_set hv with hv | rfl
  · exact h.2 v hv
  · exact ⟨queue, owner⟩

theorem Chip.markStale_of_head (mac : c.macs[m]? = some x) (side : x.tx[r]? = some y) (queue : y.queue = f :: q)
    (served : y.owner = []) (late : stale f = true) (untried : f.attempts = 0) (unmarked : f.fixed = none)
    (rest : ∀ g ∈ q, stale g = false) :
    c.markStale m r stale = c.setMac m (x.withTx r { y with queue := { f with fixed := some 3 } :: q }) := by
  have others : q.map (fun f => if stale f && f.attempts = 0 && f.fixed.isNone then { f with fixed := some 3 } else f) = q := by
    refine (List.map_congr_left fun g hg => ?_).trans (List.map_id q)
    simp [rest g hg]
  refine (Chip.onMac_of_get mac _).trans ?_
  simp only [lmod_of_get side, queue, served, List.map_cons, List.map_nil, others]
  simp [late, untried, unmarked, Mac.withTx]

/-- The head of a ring that is too late completes with status 3, and nothing else does. -/
theorem Chip.txFlushAll_markStale (lt : r < 8) (mac : c.macs[m]? = some x) (side : x.tx[r]? = some y)
    (queue : y.queue = f :: q) (served : y.owner = []) (late : stale f = true) (untried : f.attempts = 0)
    (rest : ∀ g ∈ q, stale g = false) (slot : f.slot = some k) (h : unfixed x.tx) (idle : x.busy r = false)
    (bar : c.txBar m = none) (runs : c.dmaHalted m = false) (clean : c.mem.bytes.clean (txBase m r + 32 * k) 16 = true) :
    ∃ d, c.Rewrites (txBase m r + 32 * k + 4) (txBase m r + 32 * k + 32) d ∧ (c.markStale m r stale).txFlushAll m =
      (d.setMac m ((x.withTx r { y with queue := q }).completed r { y with queue := q } 3)).hostPulse r := by
  have waiting : ∀ g ∈ f :: q, g.fixed = none := queue ▸ h y (List.mem_of_getElem? side)
  have tail : ∀ g ∈ q, g.fixed = none := fun g hg => waiting g (List.mem_cons_of_mem _ hg)
  have marked := Chip.markStale_of_head mac side queue served late untried (waiting f (List.mem_cons_self ..)) rest
  have got := Chip.setMac_get (y := x.withTx r { y with queue := { f with fixed := some 3 } :: q }) mac
  obtain ⟨d, writes, flushed⟩ := Chip.txFlushAll_of_fixed (q := q) lt got
    (set_get (y := { y with queue := { f with fixed := some 3 } :: q }) side) rfl rfl idle
    (by rw [Mac.withTx_withTx]; exact h.set tail) ((Chip.txBar_setMac (z := x.withTx r _) mac rfl rfl).trans bar) served slot runs clean
  obtain ⟨e, writes', rfl⟩ := writes.of_setMac
  refine ⟨e, writes', ?_⟩
  rw [marked, flushed, Mac.withTx_withTx, Chip.setMac_setMac]

/-- A MAC that has put its frame out. -/
def Mac.idle (x : Mac) : Mac := { x with sending := none }

theorem Chip.ptpSent_of_none {ns : Nat} (asks : f.asks = none) (follow : f.follow = []) : c.ptpSent m r f ns = c := by
  simp [Chip.ptpSent, asks, follow]

/-- A frame that no one wants a time of ends well. -/
theorem Chip.txSent_of_clean (mac : c.macs[m]? = some x) (sending : x.sending = some (r, f)) (side : x.tx[r]? = some y)
    (served : y.owner = []) (slot : f.slot = some k) (untimed : f.tsReq = false) (follow : f.follow = []) (asks : f.asks = none)
    (runs : c.dmaHalted m = false) (clean : c.mem.bytes.clean (txBase m r + 32 * k) 16 = true) :
    ∃ d, (c.emit (.frame m (padFrame f.bytes))).Rewrites (txBase m r + 32 * k + 4) (txBase m r + 32 * k + 32) d ∧
      c.txSent m = (d.setMac m (x.idle.completed r y 0)).hostPulse r := by
  have ended : (c.onMac m fun x => { x with sending := none }) = c.setMac m x.idle := Chip.onMac_of_get mac _
  obtain ⟨d, writes, done⟩ := Chip.txDone_of_clean (c := (c.emit (.frame m (padFrame f.bytes))).setMac m x.idle) (status := 0)
    (Chip.setMac_get mac) side served slot runs clean
  obtain ⟨e, writes', rfl⟩ := writes.of_setMac
  refine ⟨e, writes', ?_⟩
  rw [Chip.setMac_setMac] at done
  simp only [Chip.txSent, Chip.mac_of_get mac, sending, untimed, Bool.false_eq_true, if_false, Bool.false_and,
    Chip.ptpSent_of_none asks follow, ended]
  exact done

end

end Sys2Proof.Machine

namespace Sys2Proof.Machine

/-! One descriptor of a host ring is fetched (07 R214) -/

section
variable {b : Memory} {a i n : Nat}

theorem Memory.take_bytes (le : i ≤ n) : (b.bytes a n).take i = b.bytes a i := by
  rw [Memory.bytes, ← List.map_take, List.take_range, Nat.min_eq_left le, Memory.bytes]

theorem Memory.drop_bytes : (b.bytes a (i + n)).drop i = b.bytes (a + i) n := by
  rw [Memory.bytes, List.range_add, List.map_append, List.drop_left' (by simp), List.map_map, Memory.bytes]
  refine List.map_congr_left fun j _ => ?_
  simp [Nat.add_assoc]

end

section
variable {c : Chip} {m r a w1 : Nat} {x : Mac} {y : TxSide} {f : TxFrame}

theorem Chip.enqueue_of_get (mac : c.macs[m]? = some x) (side : x.tx[r]? = some y) : c.enqueue m r f =
    c.setMac m (x.withTx r { y with queue := y.queue ++ [f], fetched := y.fetched + 1 }) := by
  rw [Mac.withTx, ← lmod_of_get side fun y => { y with queue := y.queue ++ [f], fetched := y.fetched + 1 }]
  exact Chip.onMac_of_get mac _

/-- The frame that a descriptor in this slot names with its words 0 and 1. -/
def postedFrame (b : Memory) (slot a w1 time : Nat) : TxFrame :=
  { slot := some slot, bytes := b.bytes a (w1 % 2048), tsReq := w1.testBit 16, postedAt := time }

/-- One descriptor is posted and its frame lies in shared SRAM: it is fetched. -/
theorem Chip.txFetch_of_one (host : 4 ≤ r) (mac : c.macs[m]? = some x) (side : x.tx[r]? = some y) (runs : c.dmaHalted m = false)
    (index : c.mem.bytes.clean (txBase m r + 0x2000) 4 = true)
    (descriptor : c.mem.bytes.clean (txBase m r + 32 * (y.fetched.toNat % 256)) 8 = true)
    (room : ringDiff y.fetched y.consumed < 256)
    (one : BitVec.ofNat 16 (ofLe (c.mem.bytes.bytes (txBase m r + 0x2000) 4)) = y.fetched + 1)
    (address : a = ofLe (c.mem.bytes.bytes (txBase m r + 32 * (y.fetched.toNat % 256)) 4))
    (word : w1 = ofLe (c.mem.bytes.bytes (txBase m r + 32 * (y.fetched.toNat % 256) + 4) 4))
    (aligned : a % 4 = 0) (long : 14 ≤ w1 % 2048) (short : w1 % 2048 ≤ 1518) (low : 0x40000000 ≤ a)
    (high : a + w1 % 2048 ≤ 0x40800000) (clean : c.mem.bytes.clean a (w1 % 2048) = true) :
    c.txFetch m r = c.enqueue m r (postedFrame c.mem.bytes (y.fetched.toNat % 256) a w1 c.clk) := by
  have get : (c.mac m).tx.getD r {} = y := by rw [Chip.mac_of_get mac, getD_of_get side]
  have single : min (256 - ringDiff y.fetched y.consumed) (ringDiff (y.fetched + 1) y.fetched) = 1 := by
    have : ringDiff (y.fetched + 1) y.fetched = 1 := by simp [ringDiff]
    omega
  have good : ¬ (a % 4 ≠ 0 ∨ w1 % 2048 < 14 ∨ 1518 < w1 % 2048 ∨ a < 0x40000000 ∨ 0x40800000 < a + w1 % 2048) := by omega
  have first := Memory.take_bytes (b := c.mem.bytes) (a := txBase m r + 32 * (y.fetched.toNat % 256)) (show 4 ≤ 8 by decide)
  have second := Memory.drop_bytes (b := c.mem.bytes) (a := txBase m r + 32 * (y.fetched.toNat % 256)) (i := 4) (n := 4)
  have device : ¬ (r < 4 ∨ c.dmaHalted m = true) := by rw [runs]; simp; omega
  rw [Chip.txFetch, if_neg device]
  simp only [get, Chip.dmaRead_of_clean index, one, single, List.range_one, List.foldl_cons, List.foldl_nil, runs,
    Bool.false_eq_true, if_false, Chip.dmaRead_of_clean descriptor, first, second, ← address, ← word, good,
    Chip.dmaRead_of_clean clean, postedFrame]

end

end Sys2Proof.Machine

namespace Sys2Proof.Machine

/-! Frames sent by a MAC (07 R194, R214) -/

theorem exec_txRingPoll (m : Fin 3) (r : Fin 8) (t : Nat) (s : State) :
    Sys2Proof.Machine.exec (.txRingPoll m r t) s = execTxRingPoll m r t s := by rfl

theorem exec_linkTxFrameEnd (p : Fin 2) (t : Nat) (s : State) :
    Sys2Proof.Machine.exec (.linkTxFrameEnd p t) s = execLinkTxFrameEnd p t s := by rfl

theorem exec_audioFrameStale (p : Fin 2) (s : State) :
    Sys2Proof.Machine.exec (.audioFrameStale p) s = execAudioFrameStale p s := by rfl

section
variable {c : Chip} {m r : Nat} {x : Mac} {y : TxSide} {f : TxFrame} {o : Out}

theorem Mac.quiet.unfixed (h : x.quiet) : unfixed x.tx := fun z hz g hg => by
  rw [(h.2 z hz).1] at hg
  exact absurd hg List.not_mem_nil

theorem Chip.txFlushAll_of_unfixed (mac : c.macs[m]? = some x) (bar : c.txBar m = none) (h : unfixed x.tx) :
    c.txFlushAll m = c := Chip.txFlushAll_of_waits (Chip.waits_of_unfixed mac bar h)

/-- A LINK port that is sending starts nothing. -/
theorem Chip.linkKick_of_sending (mac : c.macs[m]? = some x) (bar : c.txBar m = none) (h : unfixed x.tx)
    (sending : x.sending ≠ none) : c.linkKick m = c := by
  have busy : (c.mac m).sending.isSome = true := by
    rw [Chip.mac_of_get mac]
    exact Option.isSome_iff_ne_none.mpr sending
  rw [Chip.linkKick, Chip.txFlushAll_of_unfixed mac bar h]
  simp [busy]

/-- A MAC that is sending, or DROP, starts nothing when a frame has been fetched. -/
theorem Chip.kick_enqueue (n : Fin 3) (mac : c.macs[n.val]? = some x) (side : x.tx[r]? = some y) (unmarked : f.fixed = none)
    (bar : c.txBar n.val = none) (h : unfixed x.tx) (sending : x.sending ≠ none) :
    (if n.val < 2 then (c.enqueue n.val r f).linkKick n.val else (c.enqueue n.val r f).txFlushAll 2) =
      c.enqueue n.val r f := by
  have waiting : ∀ g ∈ y.queue ++ [f], g.fixed = none := fun g hg => by
    rcases List.mem_append.mp hg with hg | hg
    · exact h y (List.mem_of_getElem? side) g hg
    · exact List.mem_singleton.mp hg ▸ unmarked
  have got := Chip.setMac_get (y := x.withTx r { y with queue := y.queue ++ [f], fetched := y.fetched + 1 }) mac
  have bar' := (Chip.txBar_setMac (z := x.withTx r { y with queue := y.queue ++ [f], fetched := y.fetched + 1 }) mac rfl
    rfl).trans bar
  rw [Chip.enqueue_of_get mac side]
  split
  next => exact Chip.linkKick_of_sending got bar' (h.set waiting) sending
  next drop =>
    have two : n.val = 2 := by omega
    rw [two] at got bar' ⊢
    exact Chip.txFlushAll_of_unfixed got bar' (h.set waiting)

/-- The tick of an audio frame has come, at block `blk`. -/
def TxFrame.overdue (blk : Nat) (f : TxFrame) : Bool := match f.seq with | some o => decide (o ≤ blk) | none => false

theorem TxFrame.overdue_of_seq {i blk : Nat} (seq : f.seq = some i) (due : i ≤ blk) : f.overdue blk = true := by
  rw [TxFrame.overdue, seq]
  exact decide_eq_true due

theorem TxFrame.not_overdue {blk : Nat} (early : ∀ i, f.seq = some i → blk < i) : f.overdue blk = false := by
  unfold TxFrame.overdue
  cases seq : f.seq with
  | none => rfl
  | some i => exact decide_eq_false (by have := early i seq; omega)

/-- What was put out first stays first when the command settles. -/
theorem Chip.settle_out_of_singleton (h : c.out = [o]) : c.settle.out = [o] ++ c.settle.out.drop 1 := by
  obtain ⟨l, out⟩ := c.settle_out
  rw [out, h]
  rfl

end

/-- Settles O23: each clause runs its row on the one descriptor that it names, and the rings that it does not name wait. -/
theorem frameTransmission : Obligations.FrameTransmission := by
  unfold Obligations.FrameTransmission
  intro s m x t live mac
  have mac' : (s.chip.begin.advance t).macs[m.val]? = some x := by simpa using mac
  refine ⟨?poll, ?frameEnd, ?stale⟩
  case poll =>
    intro r y a w1 host side quiet sending bar runs index descriptor room one address word aligned long short low high clean
    have fetched := Chip.txFetch_of_one (c := s.chip.begin.advance t) host mac' side ((Chip.advance_dmaHalted ..).trans runs)
      (by simpa using index) (by simpa using descriptor) room (by simpa using one) (by simpa using address) (by simpa using word)
      aligned long short low high (by simpa using clean)
    have still := Chip.kick_enqueue (c := s.chip.begin.advance t) m mac' side
      (f := postedFrame (s.chip.begin.advance t).mem.bytes (y.fetched.toNat % 256) a w1 (s.chip.begin.advance t).clk) rfl
      ((Chip.advance_txBar ..).trans bar) quiet.unfixed sending
    rw [← fetched] at still
    refine completesAt_of_effect _ (exec_txRingPoll m r t s) live (c := _) still ?_ ?_
    · rw [fetched]
      exact .onMac (by decide) (.refl _ _)
    · rw [Chip.settle_macs, fetched, Chip.enqueue_of_get mac' side, Chip.setMac_macs mac', Chip.advance_macs,
        Chip.advance_mem, Chip.advance_clk, (quiet.2 y (List.mem_of_getElem? side)).1, List.nil_append]
      rfl
  case frameEnd =>
    rintro p f r k y same sending quiet side slot untimed follow asks runs clean wf
    rw [same] at mac'
    obtain ⟨empty, served⟩ := quiet.2 y (List.mem_of_getElem? side)
    obtain ⟨d, writes, sent⟩ := Chip.txSent_of_clean (c := s.chip.begin.advance t) mac' sending side
      served slot untimed follow asks ((Chip.advance_dmaHalted ..).trans runs)
      (by simpa using clean)
    have dmac : d.macs[p.val]? = some x := writes.macs ▸ mac'
    have got := Chip.setMac_get (y := x.idle.completed r y 0) dmac
    rw [← Chip.hostPulse_macs r] at got
    have still := Chip.linkKick_of_quiet got (quiet.withTx (z := { y with consumed := y.consumed + 1 }) empty served)
    rw [← sent] at still
    refine completesAt_of_effect _ (exec_linkTxFrameEnd p t s) live (c := _) still ?_ ⟨?_, ?_, fun a ha => ?_⟩
    · rw [sent]
      refine .hostPulse _ (by decide) (.setMac (by decide) (.trans (.emit (by decide) (.refl _ _)) (writes.keeps.mono (by decide))))
    · rw [sent]
      refine Chip.settle_out_of_singleton ?_
      rw [Chip.hostPulse_out]
      exact writes.keeps.get_out.trans (congrArg (· ++ _) (Chip.advance_out ..))
    · rw [Chip.settle_macs, sent, Chip.hostPulse_macs, Chip.setMac_macs dmac, writes.macs]
      exact congrArg (List.set · _ _) (Chip.advance_macs ..)
    · rw [Chip.settle_mem, sent, Chip.hostPulse_mem, Chip.setMac_mem]
      have mem : ((s.chip.begin.advance t).emit (.frame p.val (padFrame f.bytes))).mem = s.chip.mem := Chip.advance_mem ..
      rw [writes.byte (by rw [mem]; exact wf) ha, mem]
  case stale =>
    rintro p y f q o k same side queue served seq due slot untried bar idle h runs clean rest
    rw [same] at mac bar
    obtain ⟨d, writes, flushed⟩ := Chip.txFlushAll_markStale (c := s.chip.begin)
      (stale := TxFrame.overdue s.chip.sys.blk) (by decide) mac side queue served (TxFrame.overdue_of_seq seq due) untried
      (fun g hg => TxFrame.not_overdue (rest g hg)) slot h idle bar runs clean
    have dmac : d.macs[p.val]? = some x := writes.macs ▸ mac
    refine completes_of_effect _ (exec_audioFrameStale p s) live (c := _) flushed ?_ ?_
    · exact .hostPulse _ (by decide) (.setMac (by decide) (writes.keeps.mono (by decide)))
    · rw [Chip.settle_macs, Chip.hostPulse_macs, Chip.setMac_macs dmac, writes.macs, Mac.completed_withTx]
      rfl

end Sys2Proof.Machine

namespace Sys2Proof.Machine

/-! Entering the raises forgets no code that has been raised in this window (18 R465 to R468) -/

section
variable {c : Chip} (r : Rec)

theorem Chip.fatal_seen : (c.fatal r).err.seen = c.err.seen := by
  simp only [Chip.fatal, Chip.onErr]
  repeat' split
  all_goals rfl

theorem Chip.seen_subset_noteLoss : c.err.seen ⊆ (c.noteLoss r).err.seen := by
  unfold Chip.noteLoss
  split
  · exact List.Subset.refl _
  · dsimp only
    have grown : c.err.seen ⊆ (0x0301, 0) :: c.err.seen := List.subset_cons_self ..
    split
    · exact grown
    · split
      · exact grown
      · exact grown

theorem Err.count_seen (e : Err) (cls : Cls) : (e.count cls).seen = e.seen := by cases cls <;> rfl

theorem Chip.seen_subset_enter1 : c.err.seen ⊆ (c.enter1 r).err.seen := by
  have last : ∀ {d : Chip} {x : Rec} {q : Prop} [Decidable q], c.err.seen ⊆ d.err.seen →
      c.err.seen ⊆ (if q then d.fatal x else d).err.seen := by
    intro d x q _ h
    split
    · rwa [Chip.fatal_seen]
    · exact h
  have counted : ∀ cls, c.err.seen ⊆ (c.err.count cls).seen := fun cls => by
    rw [Err.count_seen]
    exact List.Subset.refl _
  have lost : ∀ {d : Chip} {x : Rec}, c.err.seen ⊆ d.err.seen → c.err.seen ⊆ ((d.lose x).noteLoss x).err.seen :=
    fun {d x} h => List.Subset.trans (show c.err.seen ⊆ (d.lose x).err.seen from h) (Chip.seen_subset_noteLoss x)
  unfold Chip.enter1
  apply last
  split
  · exact counted _
  · split
    · exact counted _
    · split
      · split
        · exact counted _
        · exact counted _
      · exact lost (counted _)

theorem Chip.seen_subset_settle : c.err.seen ⊆ c.settle.err.seen := by
  have entered : ∀ (rs : List Rec) (d : Chip), d.err.seen ⊆ (rs.foldl (fun d r => d.enter1 r) d).err.seen := by
    intro rs
    induction rs with
    | nil => exact fun d => List.Subset.refl _
    | cons r rs ih => exact fun d => List.Subset.trans (Chip.seen_subset_enter1 r) (ih _)
  rw [Chip.settle_err]
  exact entered _ (c.onErr fun e => { e with raising := [] })

/-- A raise of a window is remembered in it. -/
theorem Chip.mem_seen_raiseFirst (code : Nat) (cls : Cls) (k d : Nat) : (code, k) ∈ (c.raiseFirst code cls k d).err.seen := by
  unfold Chip.raiseFirst
  split
  next seen => exact seen
  next => exact List.mem_cons_self ..

end

end Sys2Proof.Machine

namespace Sys2Proof.Machine

/-! Steps of the DROP bus that send (07 R199 to R202) -/

theorem exec_dropTxOpportunity (t : Nat) (s : State) :
    Sys2Proof.Machine.exec (.dropTxOpportunity t) s = execDropTxOpportunity t s := by rfl

theorem exec_dropCollision (late : Bool) (t : Nat) (s : State) :
    Sys2Proof.Machine.exec (.dropCollision late t) s = execDropCollision late t s := by rfl

theorem exec_dropTxEnd (t : Nat) (s : State) : Sys2Proof.Machine.exec (.dropTxEnd t) s = execDropTxEnd t s := by rfl

theorem exec_dropQ3Stale (t : Nat) (s : State) : Sys2Proof.Machine.exec (.dropQ3Stale t) s = execDropQ3Stale t s := by rfl

theorem exec_dropFrameRx (bytes : List Byte) (fcsOk : Bool) (t : Nat) (s : State) :
    Sys2Proof.Machine.exec (.dropFrameRx bytes fcsOk t) s = execDropFrameRx bytes fcsOk t s := by rfl

section
variable {c : Chip} {m r : Nat} {x : Mac} {y : TxSide} {f : TxFrame} {q : List TxFrame}

theorem Chip.txBar_drop (mac : c.macs[2]? = some x) (enabled : x.portEn = true) (peg : c.boot.peg ≠ 0) : c.txBar 2 = none := by
  have barred : ¬ ((!(c.mac 2).portEn) = true ∨ c.boot.peg = 0) := by simpa [Chip.mac_of_get mac, enabled] using peg
  exact if_neg barred

/-- Only ring 7 feeds the queue with the highest priority. -/
theorem Chip.dropHead_three (waiting : ((c.mac 2).tx.getD 7 {}).queue ≠ []) : c.dropHead 3 = some 7 := by
  have rings : ∀ g : Nat → Bool, (List.range 8).filter (fun r => dropQueue r = 3 && g r) = if g 7 then [7] else [] := by
    intro g
    simp [List.range_succ, dropQueue, List.filter_cons]
  have alone : ∀ g : Nat → Bool, ([7].find? g).or [7].head? = some 7 := fun g => by cases h : g 7 <;> simp [List.find?, h]
  have filled : (!((c.mac 2).tx.getD 7 {}).queue.isEmpty) = true := by simpa using waiting
  simp only [Chip.dropHead, rings, filled, if_true]
  exact alone _

/-- The MAC that starts frame f of ring r, and leaves the ring as given. -/
def Mac.starts (r : Nat) (f : TxFrame) (y : TxSide) (x : Mac) : Mac :=
  { x with sending := some (r, { f with attempts := f.attempts + 1 }), tx := x.tx.set r y }

theorem Chip.txStart_of_head (mac : c.macs[m]? = some x) (side : x.tx[r]? = some y) (queue : y.queue = f :: q) :
    c.txStart m r = c.setMac m (x.starts r f { y with queue := q }) := by
  have get : (c.mac m).tx.getD r {} = y := by rw [Chip.mac_of_get mac, getD_of_get side]
  have started := Chip.onMac_of_get mac fun x => { x with
    sending := some (r, { f with attempts := f.attempts + 1 }), tx := lmod x.tx r fun y => { y with queue := y.queue.drop 1 } }
  rw [lmod_of_get side, queue] at started
  rw [Chip.txStart, get, queue]
  exact started

end

/-- Nothing stops DROP: the head of its highest queue starts. -/
theorem dropTxOpportunity_starts {s : State} {x : Mac} {t : Nat} {y : TxSide} {f : TxFrame} {q : List TxFrame} (live : s.live)
    (mac : s.chip.macs[2]? = some x) (bar : s.chip.txBar 2 = none) (idle : x.sending = none) (side : x.tx[7]? = some y)
    (queue : y.queue = f :: q) (h : unfixed x.tx) (speaks : s.chip.sys.xqSilent.getLsbD 16 = false)
    (runs : s.chip.dmaHalted 2 = false) (due : f.waitUntil ≤ max s.chip.clk t) :
    CompletesAt (.dropTxOpportunity t) s t [.macs, .drop] fun c =>
      c.drop = { s.chip.drop with carrier := true } ∧ c.macs = s.chip.macs.set 2 { x with
        sending := some (7, { f with attempts := f.attempts + 1 }), tx := x.tx.set 7 { y with queue := q } } := by
  have mac' : (s.chip.begin.advance t).macs[2]? = some x := by simpa using mac
  have still := Chip.txFlushAll_of_unfixed mac' ((Chip.advance_txBar ..).trans bar) h
  have get : ((s.chip.begin.advance t).mac 2).tx.getD 7 {} = y := by rw [Chip.mac_of_get mac', getD_of_get side]
  have head := Chip.dropHead_three (c := s.chip.begin.advance t) (by rw [get, queue]; exact List.cons_ne_nil _ _)
  have started := Chip.txStart_of_head mac' side queue
  have goes : ¬ (((s.chip.begin.advance t).mac 2).sending.isSome = true ∨ ((s.chip.begin.advance t).txBar 2).isSome = true ∨
      (s.chip.begin.advance t).sys.xqSilent.getLsbD 16 = true ∨ (s.chip.begin.advance t).dmaHalted 2 = true) := by
    rw [Chip.mac_of_get mac', idle, Chip.advance_txBar, Chip.advance_dmaHalted, Chip.advance_sys]
    rintro (h | h | h | h)
    · cases h
    · cases bar ▸ h
    · cases speaks ▸ h
    · cases runs ▸ h
  refine completesAt_of_effect _ (exec_dropTxOpportunity t s) live (c := ((s.chip.begin.advance t).setMac 2
    (x.starts 7 f { y with queue := q })).onDrop fun d => { d with carrier := true }) ?_ (.onDrop (by decide) (.setMac (by decide) (.refl _ _))) ⟨?_, ?_⟩
  · rw [← started]
    simp only [still, goes, if_false, List.findSome?_cons, head, get, queue]
    rw [if_neg (by rw [Chip.advance_clk]; exact Nat.not_lt.mpr due)]
  · rw [Chip.settle_drop]
    exact congrArg (fun d : DropUnit => { d with carrier := true }) (Chip.advance_drop ..)
  · rw [Chip.settle_macs]
    refine (Chip.setMac_macs mac').trans ?_
    rw [Chip.advance_macs]
    rfl

section
variable {c d : Chip} {m r k n : Nat} {x z : Mac} {y : TxSide} {f : TxFrame}

/-- The part after a collision, before it is said what becomes of the frame. -/
def Chip.collided (x : Mac) (c : Chip) : Chip :=
  ((c.dropCount 0).onDrop fun d => { d with collSeen := true, carrier := false }).setMac 2 x.idle

theorem Chip.collided_of_get (mac : c.macs[2]? = some x) :
    (((c.dropCount 0).onDrop fun d => { d with collSeen := true, carrier := false }).onMac 2 fun x => { x with sending := none }) =
      c.collided x := Chip.onMac_of_get (c := (c.dropCount 0).onDrop _) mac _

theorem Chip.collided_macs (mac : c.macs[2]? = some x) : (c.collided x).macs = c.macs.set 2 x.idle :=
  Chip.setMac_macs (c := (c.dropCount 0).onDrop _) mac

theorem Chip.collided_get (mac : c.macs[2]? = some x) : (c.collided x).macs[2]? = some x.idle :=
  Chip.setMac_get (c := (c.dropCount 0).onDrop _) mac

theorem Chip.keeps.collided {L : List Piece} {a : Chip} (drop : Piece.drop ∈ L) (macs : Piece.macs ∈ L) (h : a.keeps L c) :
    a.keeps L (c.collided x) := .setMac macs (.onDrop drop (.onDrop drop h))

theorem Chip.keeps.dropCount {L : List Piece} {a : Chip} (drop : Piece.drop ∈ L) (h : a.keeps L c) :
    a.keeps L (c.dropCount n) := .onDrop drop h

theorem Chip.keeps.dropNote {L : List Piece} {a : Chip} (drop : Piece.drop ∈ L) (err : Piece.err ∈ L) (h : a.keeps L c) :
    a.keeps L (c.dropNote n) := .raiseFirst err (.dropCount drop h)

theorem Chip.mem_seen_dropNote : (0x0801, 0) ∈ (c.dropNote n).err.seen := Chip.mem_seen_raiseFirst ..

theorem Chip.dropNote_drop : (c.dropNote n).drop = (c.dropCount (if n = 2 then 2 else 3)).drop :=
  (Chip.keeps.raiseFirst (L := [.err]) (by decide) (.refl _ _)).get_drop

/-- The frame takes the place that it had in its ring, to be sent again after `clks`. -/
def Mac.backsOff (r : Nat) (f : TxFrame) (y : TxSide) (clks : Nat) (x : Mac) : Mac :=
  x.idle.withTx r { y with queue := { f with waitUntil := clks } :: y.queue }

theorem Chip.onMac_backsOff (mac : c.macs[m]? = some x.idle) (side : x.tx[r]? = some y) :
    (c.onMac m fun x => { x with tx := lmod x.tx r fun y => { y with queue := { f with waitUntil := n } :: y.queue } }) =
      c.setMac m (x.backsOff r f y n) :=
  (Chip.onMac_of_get mac _).trans (congrArg (fun tx => c.setMac m { x.idle with tx := tx }) (lmod_of_get side _))

/-- Whatever else DROP has done, no other frame completes when a descriptor has. -/
theorem Chip.txFlushAll_hostPulse (mac : d.macs[2]? = some z) (enabled : z.portEn = true) (peg : d.boot.peg ≠ 0)
    (h : unfixed z.tx) : (d.hostPulse r).txFlushAll 2 = d.hostPulse r := by
  have mac' : (d.hostPulse r).macs[2]? = some z := by rw [Chip.hostPulse_macs, mac]
  exact Chip.txFlushAll_of_unfixed mac' (Chip.txBar_drop mac' enabled (by rw [Chip.hostPulse_boot]; exact peg)) h

end

/-- Before the 16th attempt, the frame waits for a random number of slots (07 R200). -/
theorem dropCollision_backsOff {s : State} {x : Mac} {t r : Nat} {y : TxSide} {f : TxFrame} (live : s.live)
    (mac : s.chip.macs[2]? = some x) (sending : x.sending = some (r, f)) (side : x.tx[r]? = some y) (few : f.attempts < 16) :
    CompletesAt (.dropCollision false t) s t [.macs, .drop, .fresh] fun c =>
      c.drop = { s.chip.drop with collSeen := true, carrier := false, counts := lmod s.chip.drop.counts 0 (· + 1) } ∧
        c.fresh = s.chip.fresh + 1 ∧
        ∃ n, n < 2 ^ min f.attempts 10 ∧ c.macs = s.chip.macs.set 2 { x with
          sending := none, tx := x.tx.set r { y with queue := { f with waitUntil := t + n * 40960 } :: y.queue } } := by
  have mac' : (s.chip.begin.advance t).macs[2]? = some x := by simpa using mac
  have slots := Nat.mod_lt (Config.backoff ((s.chip.begin.advance t).collided x).fresh) (Nat.two_pow_pos (min f.attempts 10))
  generalize drawn : Config.backoff ((s.chip.begin.advance t).collided x).fresh % 2 ^ min f.attempts 10 = n at slots
  refine completesAt_of_effect _ (exec_dropCollision false t s) live (c := ((s.chip.begin.advance t).collided x).tick.setMac 2
    (x.backsOff r f y (t + n * 40960))) ?_ (.setMac (by decide) (.tick (by decide) (.collided (by decide) (by decide) (.refl _ _))))
    ⟨?_, ?_, n, slots, ?_⟩
  · have back := Chip.onMac_backsOff (c := ((s.chip.begin.advance t).collided x).tick) (f := f) (n := t + n * 40960)
      (Chip.collided_get mac') side
    simp only [Chip.mac_of_get mac', sending, Chip.collided_of_get mac', Bool.false_eq_true, if_false, Nat.not_le.mpr few, drawn,
      back]
  · rw [Chip.settle_drop]
    exact congrArg (fun d : DropUnit => { d with collSeen := true, carrier := false, counts := lmod d.counts 0 (· + 1) })
      (Chip.advance_drop ..)
  · rw [Chip.settle_fresh]
    exact congrArg (· + 1) (Chip.advance_fresh ..)
  · rw [Chip.settle_macs]
    refine (Chip.setMac_macs (c := ((s.chip.begin.advance t).collided x).tick) (Chip.collided_get mac')).trans ?_
    have ended : ((s.chip.begin.advance t).collided x).tick.macs = s.chip.macs.set 2 x.idle :=
      (Chip.collided_macs mac').trans (congrArg (List.set · 2 _) (Chip.advance_macs ..))
    rw [ended, List.set_set]
    rfl

/-- At the 16th attempt the frame is done with (07 R200). -/
theorem dropCollision_discards {s : State} {x : Mac} {t r k : Nat} {y : TxSide} {f : TxFrame} (live : s.live)
    (mac : s.chip.macs[2]? = some x) (enabled : x.portEn = true) (sending : x.sending = some (r, f)) (side : x.tx[r]? = some y)
    (many : 16 ≤ f.attempts) (peg : s.chip.boot.peg ≠ 0) (h : unfixed x.tx) (slot : f.slot = some k) (served : y.owner = [])
    (runs : s.chip.dmaHalted 2 = false) (clean : s.chip.mem.bytes.clean (txBase 2 r + 32 * k) 16 = true) :
    CompletesAt (.dropCollision true t) s t [.macs, .mem, .drop, .err] fun c =>
      c.drop = { s.chip.drop with
        collSeen := true, carrier := false
        counts := lmod (lmod (lmod s.chip.drop.counts 0 (· + 1)) 1 (· + 1)) 2 (· + 1) } ∧
      c.macs = s.chip.macs.set 2 { x with
        sending := none, counts := lmod x.counts 7 (· + 1), tx := x.tx.set r { y with consumed := y.consumed + 1 } } ∧
      (0x0801, 0) ∈ c.err.seen := by
  have mac' : (s.chip.begin.advance t).macs[2]? = some x := by simpa using mac
  have noted : (s.chip.begin.advance t).keeps [.drop, .macs, .err]
      ((((s.chip.begin.advance t).collided x).dropCount 1).dropNote 2) :=
    .dropNote (by decide) (by decide) (.dropCount (by decide) (.collided (by decide) (by decide) (.refl _ _)))
  have macs : ((((s.chip.begin.advance t).collided x).dropCount 1).dropNote 2).macs = s.chip.macs.set 2 x.idle := by
    refine (Chip.keeps.dropNote (L := [.drop, .err]) (by decide) (by decide) (.refl _ _)).get_macs.trans ?_
    exact (Chip.collided_macs mac').trans (by rw [Chip.advance_macs]; rfl)
  have mem := noted.get_mem
  rw [Chip.advance_mem] at mem
  obtain ⟨d, writes, done⟩ := Chip.txDone_of_clean (c := (((s.chip.begin.advance t).collided x).dropCount 1).dropNote 2)
    (x := x.idle) (status := 2) (by rw [macs]; exact set_get mac _) side served slot (by rw [Chip.dmaHalted, mem]; exact runs)
    (by rw [mem]; exact clean)
  have dmac : d.macs[2]? = some x.idle := by rw [writes.macs, macs]; exact set_get mac _
  have still := Chip.txFlushAll_hostPulse (r := r) (Chip.setMac_get (y := x.idle.completed r y 2) dmac) enabled
    (by rw [Chip.setMac_boot, writes.keeps.get_boot, noted.get_boot, Chip.advance_boot]; exact peg)
    (h.set (h y (List.mem_of_getElem? side)))
  refine completesAt_of_effect _ (exec_dropCollision true t s) live (c := (d.setMac 2 (x.idle.completed r y 2)).hostPulse r) ?_
    (.hostPulse _ (by decide) (.setMac (by decide) ((noted.mono (by decide)).trans (writes.keeps.mono (by decide)))))
    ⟨?_, ?_, ?_⟩
  · simp only [Chip.mac_of_get mac', sending, Chip.collided_of_get mac', if_true, many, done, still]
  · rw [Chip.settle_drop, Chip.hostPulse_drop, Chip.setMac_drop, writes.keeps.get_drop, Chip.dropNote_drop]
    exact congrArg (fun d : DropUnit => { d with
      collSeen := true, carrier := false, counts := lmod (lmod (lmod d.counts 0 (· + 1)) 1 (· + 1)) 2 (· + 1) })
      (Chip.advance_drop ..)
  · rw [Chip.settle_macs, Chip.hostPulse_macs, Chip.setMac_macs dmac, writes.macs, macs, List.set_set]
    rfl
  · refine Chip.seen_subset_settle ?_
    rw [Chip.hostPulse_err, Chip.setMac_err, writes.keeps.get_err]
    exact Chip.mem_seen_dropNote

/-- The frame has been sent. -/
theorem dropTxEnd_completes {s : State} {x : Mac} {t r k : Nat} {y : TxSide} {f : TxFrame} (live : s.live)
    (mac : s.chip.macs[2]? = some x) (enabled : x.portEn = true) (sending : x.sending = some (r, f)) (side : x.tx[r]? = some y)
    (peg : s.chip.boot.peg ≠ 0) (h : unfixed x.tx) (slot : f.slot = some k) (served : y.owner = []) (untimed : f.tsReq = false)
    (follow : f.follow = []) (asks : f.asks = none) (runs : s.chip.dmaHalted 2 = false)
    (clean : s.chip.mem.bytes.clean (txBase 2 r + 32 * k) 16 = true) :
    CompletesAt (.dropTxEnd t) s t [.macs, .mem, .drop] fun c =>
      c.out = [.frame 2 (padFrame f.bytes)] ++ c.out.drop 1 ∧ c.drop = { s.chip.drop with carrier := false } ∧
        c.macs = s.chip.macs.set 2 { x with
          sending := none, counts := lmod x.counts 6 (· + 1), tx := x.tx.set r { y with consumed := y.consumed + 1 } } := by
  have mac' : (s.chip.begin.advance t).macs[2]? = some x := by simpa using mac
  obtain ⟨d, writes, sent⟩ := Chip.txSent_of_clean (c := s.chip.begin.advance t) mac' sending side served slot untimed follow asks
    ((Chip.advance_dmaHalted ..).trans runs) (by simpa using clean)
  have emitted : (s.chip.begin.advance t).keeps [.out] ((s.chip.begin.advance t).emit (.frame 2 (padFrame f.bytes))) :=
    .emit (by decide) (.refl _ _)
  have dmac : (d.onDrop fun d => { d with carrier := false }).macs[2]? = some x := writes.macs ▸ mac'
  have still := Chip.txFlushAll_hostPulse (r := r) (Chip.setMac_get (y := x.idle.completed r y 0) dmac) enabled
    (by rw [Chip.setMac_boot]; exact (writes.keeps.get_boot.trans (Chip.advance_boot ..)) ▸ peg)
    (h.set (h y (List.mem_of_getElem? side)))
  have ends : ((d.setMac 2 (x.idle.completed r y 0)).hostPulse r).onDrop (fun d => { d with carrier := false }) =
      ((d.onDrop fun d => { d with carrier := false }).setMac 2 (x.idle.completed r y 0)).hostPulse r := by
    unfold Chip.hostPulse
    split <;> rfl
  refine completesAt_of_effect _ (exec_dropTxEnd t s) live
    (c := ((d.onDrop fun d => { d with carrier := false }).setMac 2 (x.idle.completed r y 0)).hostPulse r) ?_
    (.hostPulse _ (by decide) (.setMac (by decide) (.onDrop (by decide)
      ((emitted.mono (by decide)).trans (writes.keeps.mono (by decide)))))) ⟨?_, ?_, ?_⟩
  · simp only [sent, ends, still]
  · refine Chip.settle_out_of_singleton ?_
    rw [Chip.hostPulse_out]
    exact writes.keeps.get_out.trans (congrArg (· ++ _) (Chip.advance_out ..))
  · rw [Chip.settle_drop, Chip.hostPulse_drop, Chip.setMac_drop, Chip.onDrop_drop, writes.keeps.get_drop, emitted.get_drop,
      Chip.advance_drop]
    rfl
  · rw [Chip.settle_macs, Chip.hostPulse_macs, Chip.setMac_macs dmac]
    have macs : d.macs = s.chip.macs := writes.macs.trans (Chip.advance_macs ..)
    exact congrArg (List.set · _ _) macs

section
variable {c : Chip} {x : Mac} {y : TxSide} {f : TxFrame}

/-- The frame has waited in the queue of the highest priority for as long as it may. -/
def Chip.outdated (c : Chip) (f : TxFrame) : Bool := decide (f.postedAt + c.dropIt 2 * usClk ≤ c.clk)

@[simp] theorem Chip.advance_dropIt (t i : Nat) : (c.advance t).dropIt i = c.dropIt i := by
  simp [Chip.dropIt, Chip.itN, Chip.it]

theorem Chip.raiseFirst_onMac {m code key : Nat} {cls : Cls} {g : Mac → Mac} :
    (c.onMac m g).raiseFirst code cls key = (c.raiseFirst code cls key).onMac m g := by
  unfold Chip.raiseFirst
  by_cases seen : (code, key) ∈ c.err.seen
  · have seen' : (code, key) ∈ (c.onMac m g).err.seen := seen
    rw [if_pos seen, if_pos seen']
  · have seen' : (code, key) ∉ (c.onMac m g).err.seen := seen
    rw [if_neg seen, if_neg seen']
    rfl

theorem Chip.markStale_dropNote {m r n : Nat} {stale : TxFrame → Bool} :
    (c.markStale m r stale).dropNote n = (c.dropNote n).markStale m r stale :=
  Chip.raiseFirst_onMac (c := c.dropCount (if n = 2 then 2 else 3))

/-- One frame has become stale. -/
theorem Chip.dropStale_of_one (mac : c.macs[2]? = some x) (side : x.tx[7]? = some y) (queue : y.queue = [f])
    (late : c.outdated f = true) (untried : f.attempts = 0) (unmarked : f.fixed = none) :
    c.dropStale = ((c.dropNote 3).markStale 2 7 c.outdated).txFlushAll 2 := by
  have get : (c.mac 2).tx.getD 7 {} = y := by rw [Chip.mac_of_get mac, getD_of_get side]
  have hit : [f].filter (fun f => c.outdated f && f.attempts = 0 && f.fixed.isNone) = [f] := by simp [late, untried, unmarked]
  have effect : c.dropStale = (([f].filter fun f => c.outdated f && f.attempts = 0 && f.fixed.isNone).foldl
      (fun c _ => c.dropNote 3) (c.markStale 2 7 c.outdated)).txFlushAll 2 := by
    rw [← queue, ← get]
    rfl
  rw [effect, hit, List.foldl_cons, List.foldl_nil, Chip.markStale_dropNote]

end

/-- The one frame that waits in the highest queue has waited too long (07 R202). -/
theorem dropQ3Stale_completes {s : State} {x : Mac} {t k : Nat} {y : TxSide} {f : TxFrame} (live : s.live) (mac : s.chip.macs[2]? = some x)
    (enabled : x.portEn = true) (side : x.tx[7]? = some y) (queue : y.queue = [f]) (served : y.owner = []) (slot : f.slot = some k)
    (untried : f.attempts = 0) (peg : s.chip.boot.peg ≠ 0) (idle : x.busy 7 = false) (h : unfixed x.tx)
    (late : f.postedAt + s.chip.dropIt 2 * usClk ≤ max s.chip.clk t) (runs : s.chip.dmaHalted 2 = false)
    (clean : s.chip.mem.bytes.clean (txBase 2 7 + 32 * k) 16 = true) :
    CompletesAt (.dropQ3Stale t) s t [.macs, .mem, .drop, .err] fun c =>
      c.drop = { s.chip.drop with counts := lmod s.chip.drop.counts 3 (· + 1) } ∧ (0x0801, 0) ∈ c.err.seen ∧
        c.macs = s.chip.macs.set 2 { x with
          tx := x.tx.set 7 { y with queue := [], consumed := y.consumed + 1 }, counts := lmod x.counts 7 (· + 1) } := by
  have mac' : (s.chip.begin.advance t).macs[2]? = some x := by simpa using mac
  have noted : (s.chip.begin.advance t).keeps [.drop, .err] ((s.chip.begin.advance t).dropNote 3) :=
    .dropNote (by decide) (by decide) (.refl _ _)
  have outdated : (s.chip.begin.advance t).outdated f = true := by
    refine decide_eq_true ?_
    rw [Chip.advance_clk]
    exact (congrArg (f.postedAt + · * usClk) (Chip.advance_dropIt ..)).le.trans late
  have waits : f.fixed = none := h y (List.mem_of_getElem? side) f (by rw [queue]; exact List.mem_singleton_self _)
  have mac'' : ((s.chip.begin.advance t).dropNote 3).macs[2]? = some x := noted.get_macs ▸ mac'
  have mem := noted.get_mem.trans (Chip.advance_mem ..)
  obtain ⟨d, writes, flushed⟩ := Chip.txFlushAll_markStale (stale := (s.chip.begin.advance t).outdated) (by decide) mac'' side queue
    served outdated untried (by simp) slot h idle
    (Chip.txBar_drop mac'' enabled (by rw [noted.get_boot, Chip.advance_boot]; exact peg))
    (by rw [Chip.dmaHalted, mem]; exact runs) (by rw [mem]; exact clean)
  have dmac : d.macs[2]? = some x := by rw [writes.macs, mac'']
  refine completesAt_of_effect _ (exec_dropQ3Stale t s) live (c := _)
    ((Chip.dropStale_of_one mac' side queue outdated untried waits).trans flushed)
    (.hostPulse _ (by decide) (.setMac (by decide) ((noted.mono (by decide)).trans (writes.keeps.mono (by decide)))))
    ⟨?_, ?_, ?_⟩
  · rw [Chip.settle_drop, Chip.hostPulse_drop, Chip.setMac_drop, writes.keeps.get_drop, Chip.dropNote_drop]
    exact congrArg (fun d : DropUnit => { d with counts := lmod d.counts 3 (· + 1) }) (Chip.advance_drop ..)
  · refine Chip.seen_subset_settle ?_
    rw [Chip.hostPulse_err, Chip.setMac_err, writes.keeps.get_err]
    exact Chip.mem_seen_dropNote
  · rw [Chip.settle_macs, Chip.hostPulse_macs, Chip.setMac_macs dmac, writes.macs, noted.get_macs, Chip.advance_macs,
      Mac.completed_withTx]
    rfl

section
variable {c : Chip} {m r : Nat} {x y : Mac} {z : RxSide}

@[simp] theorem Chip.advance_station (t : Nat) : (c.advance t).station = c.station := by simp [Chip.station]

theorem Chip.popInbox_of_empty (mac : c.macs[m]? = some x) (empty : (x.rx.getD r {}).inbox = []) : c.popInbox m r = (none, c) := by
  unfold Chip.popInbox
  rw [Chip.mac_of_get mac, empty]

/-- A frame that goes to a ring of the host leaves ring 0 of DROP to its owner, who has nothing to take. -/
theorem inbox_of_host {rx : List RxSide} (host : 3 ≤ r) (empty : ∀ v ∈ rx.take 1, v.inbox = []) : ((rx.set r z).getD 0 {}).inbox = [] := by
  have ne : r ≠ 0 := by omega
  rw [List.getD_eq_getElem?_getD, List.getElem?_set_ne ne]
  cases rx with
  | nil => rfl
  | cons v vs => exact empty v (List.mem_cons_self ..)

end

/-- A good frame for a host ring is delivered there, and the firmware finds nothing new in its own ring. -/
theorem dropFrameRx_delivers {s : State} {x : Mac} {t r : Nat} {bytes : List Byte} {q : RxSide} {g : RxRing} (live : s.live)
    (mac : s.chip.macs[2]? = some x) (enabled : x.portEn = true) (long : 60 ≤ bytes.length) (short : bytes.length ≤ 1518)
    (hears : s.chip.sys.xqSilent.getLsbD 15 = false) (data : s.chip.isSpeech bytes = false)
    (accepted : s.chip.accepts 2 bytes = true) (chosen : s.chip.classify 2 bytes = some r) (host : 3 ≤ r)
    (foreign : be bytes 6 6 ≠ s.chip.station) (side : x.rx[r]? = some q) (ring : s.ham.rings[ringIx 2 r]? = some g)
    (whole : g.asm = []) (room : buffersFor bytes ≤ g.posted.length) (runs : s.chip.dmaHalted 2 = false)
    (empty : ∀ z ∈ x.rx.take 1, z.inbox = []) :
    CompletesHam (.dropFrameRx bytes true t) s [.clk, .ptp, .macs, .mem, .err] fun h c =>
      c.clk = max s.chip.clk t ∧
        h = { s.ham with rings := s.ham.rings.set (ringIx 2 r) { g with
          posted := g.posted.drop (buffersFor bytes), held := g.held ++ g.posted.take (buffersFor bytes) } } ∧
        ∃ y z, c.macs = s.chip.macs.set 2 y ∧ y.counts = lmod x.counts 0 (· + 1) ∧ y.tx = x.tx ∧
          y.rx = x.rx.set r z ∧ z.made = q.made + 1 := by
  have mac' : (s.chip.begin.advance t).macs[2]? = some x := by simpa using mac
  have on : (s.chip.begin.advance t).rxOn 2 = true := by
    rw [Chip.rxOn, if_neg (by decide), Chip.mac_of_get mac', enabled, Chip.advance_sys]
    simpa using hears
  have takes : (s.chip.begin.advance t).Takes 2 bytes r :=
    ⟨on, long, short, (Chip.advance_accepts ..).trans accepted, by simp, (Chip.advance_classify ..).trans chosen⟩
  obtain ⟨d, effect, frame, y, z, macs, delivered⟩ :=
    receive_good takes mac' side ring whole room ((Chip.advance_dmaHalted ..).trans runs)
  have got : d.macs[2]? = some y := by rw [macs]; exact set_get mac' y
  have nothing := Chip.popInbox_of_empty got (r := 0) (by rw [delivered.rx]; exact inbox_of_host host empty)
  refine completesHam_at _ (exec_dropFrameRx bytes true t s) live (c := d) ?_ (frame.mono (by decide)) ⟨rfl, y, z, ?_⟩
  · have data' : (s.chip.begin.advance t).isSpeech bytes = false := (Chip.advance_isSpeech ..).trans data
    have other : be bytes 6 6 ≠ (s.chip.begin.advance t).station := fun same => foreign (same.trans (Chip.advance_station ..))
    simp only [data', Bool.false_eq_true, if_false, if_true, Chip.pegConflict_of_ne other, effect, nothing]
  · rw [Chip.settle_macs, macs, Chip.advance_macs]
    exact ⟨rfl, delivered.counts, delivered.tx, delivered.rx, delivered.made⟩

/-- Settles O25: each clause is the lemma on its row. -/
theorem dropBus : Obligations.DropBus := by
  unfold Obligations.DropBus
  intro s x t live mac enabled
  refine ⟨?opportunity, ?sending, ?stale, ?received⟩
  case opportunity =>
    intro y f q idle side queue h peg speaks runs due
    exact dropTxOpportunity_starts live mac (Chip.txBar_drop mac enabled peg) idle side queue h speaks runs due
  case sending =>
    intro r f y sending side
    refine ⟨dropCollision_backsOff live mac sending side, ?discard, ?ends⟩
    case discard =>
      intro k many peg h slot served fresh runs clean
      exact dropCollision_discards live mac enabled sending side many peg h slot served runs clean
    case ends =>
      intro k peg h slot served untimed follow asks runs clean
      exact dropTxEnd_completes live mac enabled sending side peg h slot served untimed follow asks runs clean
  case stale =>
    intro y f k side queue served slot untried peg idle h late runs clean
    exact dropQ3Stale_completes live mac enabled side queue served slot untried peg idle h late runs clean
  case received =>
    intro bytes r q g long short hears data accepted chosen host foreign side ring whole room runs empty
    exact dropFrameRx_delivers live mac enabled long short hears data accepted chosen host foreign side ring whole room runs empty

end Sys2Proof.Machine

namespace Sys2Proof.Machine

/-! Running a command of the serial ports, and one port of the part -/

/-- Until the flow table of a cold press is built, the ports run in the profile in force (05 R137). -/
theorem Chip.portView_of_unbuilt {c : Chip} (f : Chip → Chip) (unbuilt : ∀ k, c.cmd.cold = some k → k.built = false) :
    c.portView f = f c := by
  unfold Chip.portView
  split
  next k cold => rw [unbuilt k cold, if_neg Bool.false_ne_true]
  next => rfl

theorem act_portView {s : State} (f : Chip → Chip) (unbuilt : ∀ k, s.chip.cmd.cold = some k → k.built = false) :
    act (Chip.portView f) s = act f s := by
  rw [act_next, act_next, Chip.portView_of_unbuilt (c := s.chip.begin) f unbuilt]

section
variable {c : Chip} {p : Nat} {x y z : SapPort}

/-- The part with serial port p as given. -/
def Chip.setSap (p : Nat) (x : SapPort) (c : Chip) : Chip := c.onSap fun u => { u with ports := u.ports.set p x }

theorem Chip.setSap_get (port : c.sap.ports[p]? = some x) : (c.setSap p y).sap.ports[p]? = some y := set_get port y

@[simp] theorem Chip.setSap_setSap : (c.setSap p y).setSap p z = c.setSap p z := by
  simp [Chip.setSap, Chip.onSap]

theorem Chip.onSap_lmod (port : c.sap.ports[p]? = some x) (f : SapPort → SapPort) :
    (c.onSap fun u => { u with ports := lmod u.ports p f }) = c.setSap p (f x) := by
  simp only [Chip.setSap, Chip.onSap, lmod_of_get port]

theorem Chip.keeps.setSap {L : List Piece} {a b : Chip} (k : Piece.sap ∈ L) (h : a.keeps L b) : a.keeps L (b.setSap p x) :=
  .onSap k h

/-- A change of some ports also shows the pins that it brings to rest. -/
theorem Chip.sapShow_keeps (f : Chip → Chip) : (f c).keeps [.out] (c.sapShow f) :=
  .foldl _ _ (.refl _ _) fun _ _ => .ite (.emit (by decide) (.refl _ _)) (.refl _ _)

theorem Chip.sapShow_onSap_lmod (port : c.sap.ports[p]? = some x) (f : SapPort → SapPort) :
    (c.setSap p (f x)).keeps [.out] (c.sapShow (Chip.onSap fun u => { u with ports := lmod u.ports p f })) :=
  Chip.onSap_lmod port f ▸ Chip.sapShow_keeps _

end

/-- A command that sets one port and does no more. -/
theorem completes_setSap {i : Instr} {s : State} {p : Nat} {y : SapPort} {P : Chip → Prop} (f : Chip → Chip)
    (run : Sys2Proof.Machine.exec i s = act f s) (live : s.live) (effect : f s.chip.begin = s.chip.begin.setSap p y)
    (holds : P (s.chip.begin.setSap p y).settle) : Completes i s [.sap] P :=
  completes_of_effect f run live effect (.setSap (by decide) (.refl _ _)) holds

theorem Chip.settle_setSap_sap (p : Nat) (y : SapPort) (c : Chip) :
    (c.begin.setSap p y).settle.sap = { c.sap with ports := c.sap.ports.set p y } := Chip.settle_sap _

end Sys2Proof.Machine

namespace Sys2Proof.Machine

/-! A frame of a port that runs, with no slot that waits and no pair that mutes (08 R226, R229 to R231) -/

section
variable {c : Chip} {p : Nat} {x z : SapPort}

theorem mget?_nil {α : Type} (k : Nat) : mget? ([] : List (Nat × α)) k = none := rfl

theorem stepWaits_nil (limit n : Nat) (last now : Map Int) : stepWaits limit n last now [] = ([], 0) := rfl

theorem SapPort.passed_eq (n : Nat) (x : SapPort) :
    x.passed n = { x with dataSeen := true, dataFrame := if x.dataSeen then x.dataFrame else n } := by
  obtain ⟨⟩ := x
  unfold SapPort.passed
  dsimp only
  split
  next seen => rw [seen]
  next => rfl

theorem SapPort.settled_of_run (runs : x.st = .run) : x.settled = x := by
  simp [SapPort.settled, runs]

/-- Whether or not a port that runs passed data, it runs on with the frame that it took. -/
theorem SapPort.ended {n k : Nat} {m : Map Smp} (runs : z.st = .run) (frame : z.frame = k) (fmt : z.fmt = x.fmt)
    (captured : mget? z.captured n = some m) (passing : Bool) :
    (if passing then z.passed n else z).settled.frame = k ∧ (if passing then z.passed n else z).settled.st = .run ∧
      (if passing then z.passed n else z).settled.fmt = x.fmt ∧
      mget? (if passing then z.passed n else z).settled.captured n = some m := by
  cases passing
  · rw [if_neg Bool.false_ne_true, SapPort.settled_of_run runs]
    exact ⟨frame, runs, fmt, captured⟩
  · rw [if_pos rfl, SapPort.passed_eq, SapPort.settled_of_run (by exact runs)]
    exact ⟨frame, runs, fmt, captured⟩

/-- Every enabled slot passes: what the receive slots bring is captured by channel, and the transmit slots send. -/
theorem Chip.sapFrame_of_run (din : List Bool) (port : c.sap.ports[p]? = some x) (runs : x.st = .run) (noRx : x.rxWait = [])
    (noTx : x.txWait = []) (plain : c.itB (item 0x09 p 0x10) = false) (crosses : c.sys.xqSilent.getLsbD 1 = false) :
    ∃ y, c.sapFrame p din = (c.setSap p y).emit (.sap p x.frame (sapWire c.prof x.fmt
        ((slotsOf x.txMask).map fun k => (k, c.sapTx p x.frame x k)))) ∧
      y.frame = x.frame + 1 ∧ y.st = .run ∧ y.fmt = x.fmt ∧
      mget? y.captured x.frame = some ((slotsOf x.rxMask).zipIdx.map fun q => (q.2, enter (entryWord x.fmt din q.1))) := by
  have get : c.sap.ports.getD p {} = x := getD_of_get port _
  unfold Chip.sapFrame
  simp only [get, SapPort.running, runs, noRx, noTx, plain, crosses, stepWaits_nil, mget?_nil, Chip.sapTimeouts,
    reduceCtorEq, decide_false, decide_true, ne_eq, not_false_eq_true, Bool.and_self, Bool.false_and, Bool.true_and,
    Bool.or_self, Bool.not_true, Bool.not_false, Bool.false_eq_true, if_false, if_true, Option.isNone_none,
    List.filter_true, List.map_map, Nat.add_zero, lt_self_iff_false]
  exact ⟨_, rfl, SapPort.ended rfl rfl rfl (mget?_mset_self ..) _⟩

end

end Sys2Proof.Machine

namespace Sys2Proof.Machine

/-! The wait of one channel ends (08 R236) -/

section
variable {c : Chip} {p ch n f : Nat} {tx : Bool} {x y : SapPort}

/-- A port that waits no more for what has ended: it runs once nothing else waits. -/
structure SapPort.Resumes (rx tx : Map Nat) (y : SapPort) : Prop where
  rxWait : y.rxWait = rx
  txWait : y.txWait = tx
  dataSeen : y.dataSeen = true
  st : y.st = .run ↔ y.rxWait = [] ∧ y.txWait = []

theorem SapPort.settled_of_zcWait (waits : x.st = .zcWait) :
    x.settled = { x with st := if x.rxWait = [] ∧ x.txWait = [] then .run else .zcWait } := by
  obtain ⟨⟩ := x
  obtain rfl := waits
  simp only [SapPort.settled, decide_true, Bool.true_and, Bool.and_eq_true, List.isEmpty_iff]
  split <;> rfl

theorem SapPort.resumes (waits : x.st = .zcWait) : (x.passed n).settled.Resumes x.rxWait x.txWait := by
  rw [SapPort.passed_eq, SapPort.settled_of_zcWait (by exact waits)]
  refine ⟨rfl, rfl, rfl, ?_⟩
  by_cases last : x.rxWait = [] ∧ x.txWait = [] <;> simp [last]

theorem SapPort.endWait_rx (waits : x.st = .zcWait) (waiting : mget? x.rxWait (slotOf x.rxMask ch) = some f) :
    (x.endWait false ch).Resumes (mdel x.rxWait (slotOf x.rxMask ch)) x.txWait := by
  have active : x.st ≠ .stopping := by simp [waits]
  simp only [SapPort.endWait, Bool.false_eq_true, if_false, waiting, Option.isNone_some, if_neg active]
  exact SapPort.resumes (x := { x with rxWait := mdel x.rxWait (slotOf x.rxMask ch) }) waits

theorem SapPort.endWait_tx (waits : x.st = .zcWait) (waiting : mget? x.txWait (slotOf x.txMask ch) = some f) :
    (x.endWait true ch).Resumes x.rxWait (mdel x.txWait (slotOf x.txMask ch)) := by
  have active : x.st ≠ .stopping := by simp [waits]
  simp only [SapPort.endWait, Bool.false_eq_true, if_false, if_true, waiting, Option.isNone_some, if_neg active]
  exact SapPort.resumes (x := { x with txWait := mdel x.txWait (slotOf x.txMask ch) }) waits

theorem SapPort.settled_zcTimeouts : x.settled.zcTimeouts = x.zcTimeouts := by
  unfold SapPort.settled
  split <;> rfl

theorem SapPort.endWait_zcTimeouts : (x.endWait tx ch).zcTimeouts = x.zcTimeouts := by
  unfold SapPort.endWait
  cases tx <;> simp only [SapPort.passed_eq, apply_ite SapPort.zcTimeouts, SapPort.settled_zcTimeouts, ite_self]

/-- A sample of 0 is a crossing in any frame but the one where the wait began. -/
theorem crossed_zero {began : Nat} (later : began < n) (prev : Option Int) : crossed began n prev 0 = true := by
  simp [crossed, later]

/-- A port with one more wait that has timed out. -/
def SapPort.timedOut (x : SapPort) : SapPort := { x with zcTimeouts := x.zcTimeouts + 1, zcSeen := true }

theorem Chip.sapTimeouts_one (port : c.sap.ports[p]? = some x) :
    c.sapTimeouts p 1 = (c.setSap p x.timedOut).raiseFirst 0x0C04 .note p p := by
  rw [← Chip.onSap_lmod port SapPort.timedOut]
  rfl

end

section
variable {s : State} {p : Fin 16} {x : SapPort} {tx : Bool} {ch : Fin 32} {f : Nat} {P : Chip → Prop}

/-- The sample of a channel that waits is 0 in the next frame. -/
theorem completes_zeroCrossing {word : Word} (live : s.live) (port : s.chip.sap.ports[p.val]? = some x)
    (unbuilt : ∀ k, s.chip.cmd.cold = some k → k.built = false)
    (waiting : mget? (if tx then x.txWait else x.rxWait) (slotOf (if tx then x.txMask else x.rxMask) ch.val) = some f)
    (later : f < x.frame)
    (zero : (if tx then s.chip.sapTx p.val x.frame x (slotOf (if tx then x.txMask else x.rxMask) ch.val)
      else (enter word).v) = 0)
    (holds : P (s.chip.begin.setSap p.val (x.endWait tx ch.val)).settle) :
    Completes (.zeroCrossing p ⟨tx, ch⟩ word) s [.sap] P := by
  have get : s.chip.begin.sap.ports.getD p.val {} = x := getD_of_get port _
  have began : mget (if tx then x.txWait else x.rxWait) (slotOf (if tx then x.txMask else x.rxMask) ch.val) 0 = f := by
    rw [mget, waiting, Option.getD_some]
  have zero' : (if tx then s.chip.begin.sapTx p.val x.frame x (slotOf (if tx then x.txMask else x.rxMask) ch.val)
    else (enter word).v) = 0 := zero
  refine completes_setSap _ (act_portView _ unbuilt) live ?_ holds
  simp only [get, began, zero', crossed_zero later, if_true]
  exact Chip.onSap_lmod (c := s.chip.begin) port _

end

end Sys2Proof.Machine

namespace Sys2Proof.Machine

/-- Clocks that stop once every transmit channel has crossed (08 R237). -/
theorem SapPort.stop_of_sent {x : SapPort} (sent : x.txWait = []) : x.stop = { x with st := .stopped, rxWait := [] } := by
  rw [SapPort.stop, ← sent]

theorem exec_leadFramesEnd (p : Fin 16) (s : State) :
    Sys2Proof.Machine.exec (.leadFramesEnd p) s = execLeadFramesEnd p s := by rfl

theorem exec_sapStoppingEnd (p : Fin 16) (s : State) :
    Sys2Proof.Machine.exec (.sapStoppingEnd p) s = execSapStoppingEnd p s := by rfl

/-- Settles O29: each clause runs its row on the one port that it names. -/
theorem serialPorts : Obligations.SerialPorts := by
  unfold Obligations.SerialPorts
  intro s p x live port unbuilt
  have get : s.chip.begin.sap.ports.getD p.val {} = x := getD_of_get port _
  refine ⟨?frame, ?release, ?lead, ?crossingRx, ?crossingTx, ?timeout, ?stopping⟩
  case frame =>
    intro din crosses runs noRx noTx plain
    obtain ⟨y, effect, ran⟩ := Chip.sapFrame_of_run (c := s.chip.begin) din port runs noRx noTx plain crosses
    refine completes_of_effect _ (act_portView _ unbuilt) live effect
      (.emit (by decide) (.setSap (by decide) (.refl _ _))) ⟨⟨y, Chip.settle_sap _, ran⟩, ?_⟩
    rw [Chip.settle_out_of_singleton rfl]
    rfl
  case release =>
    intro k held
    have effect := Chip.onSap_lmod (c := s.chip.begin) port fun x =>
      if s.chip.itN (item 0x09 p.val 0x11) ≤ mget x.pairs k.val 0 then { x with pairs := mdel x.pairs k.val } else x
    rw [if_pos held] at effect
    exact completes_setSap _ (act_portView _ unbuilt) live effect (Chip.settle_setSap_sap ..)
  case lead =>
    intro leads due
    have due' : (x.st = .lead && x.startFrame + x.fmt.leadFrames ≤ x.frame) = true := by simp [leads, due]
    have effect := Chip.onSap_lmod (c := s.chip.begin) port fun x =>
      if x.st = .lead && x.startFrame + x.fmt.leadFrames ≤ x.frame then ({ x with st := .run }).passed x.frame else x
    rw [if_pos due', SapPort.passed_eq] at effect
    exact completes_setSap _ (exec_leadFramesEnd p s) live effect (Chip.settle_setSap_sap ..)
  case crossingRx =>
    intro ch f word waits waiting later zero
    obtain ⟨rx, tx, seen, runs⟩ := SapPort.endWait_rx waits waiting
    exact completes_zeroCrossing live port unbuilt (tx := false) waiting later zero
      ⟨_, Chip.settle_setSap_sap .., rx, tx, seen, runs⟩
  case crossingTx =>
    intro ch f word waits waiting later zero
    obtain ⟨rx, tx, seen, runs⟩ := SapPort.endWait_tx waits waiting
    exact completes_zeroCrossing live port unbuilt (tx := true) waiting later zero
      ⟨_, Chip.settle_setSap_sap .., tx, rx, seen, runs⟩
  case timeout =>
    intro ch f waits waiting due
    obtain ⟨rx, tx, -, -⟩ := SapPort.endWait_rx waits waiting
    refine completes_of_effect _ (act_portView _ unbuilt) live (c := (s.chip.begin.setSap p.val
      (x.endWait false ch.val).timedOut).raiseFirst 0x0C04 .note p.val p.val) ?_
      (.raiseFirst (by decide) (.setSap (by decide) (.refl _ _)))
      ⟨(x.endWait false ch.val).timedOut, ?_, rx, tx, ?_, rfl, ?_⟩
    · have due' : f + zcFrames s.chip.begin.prof (s.chip.begin.itN (item 0x09 p.val 0x0F)) ≤ x.frame := due
      simp only [get, Bool.false_eq_true, if_false, waiting, due', if_true]
      rw [Chip.onSap_lmod (c := s.chip.begin) port, Chip.sapTimeouts_one (Chip.setSap_get (c := s.chip.begin) port),
        Chip.setSap_setSap]
    · rw [Chip.settle_sap, (Chip.keeps.raiseFirst (L := [.err]) (by decide) (.refl _ _)).get_sap]
      rfl
    · exact congrArg (· + 1) SapPort.endWait_zcTimeouts
    · exact Chip.seen_subset_settle (Chip.mem_seen_raiseFirst ..)
  case stopping =>
    intro stops none
    have ends : (x.st = .stopping && x.txWait.isEmpty) = true := by simp [stops, none]
    have shown := Chip.sapShow_onSap_lmod (c := s.chip.begin) port fun x =>
      if x.st = .stopping && x.txWait.isEmpty then x.stop else x
    rw [if_pos ends, SapPort.stop_of_sent none] at shown
    refine completes_of_effect _ (exec_sapStoppingEnd p s) live rfl
      (.trans (.setSap (by decide) (.refl _ _)) (shown.mono (by decide))) ?_
    rw [Chip.settle_sap, shown.get_sap]
    rfl

end Sys2Proof.Machine

namespace Sys2Proof.Machine

/-! Clock errors, and the ports that they stop (10 R271, R272; 08 R239) -/

section
variable {L : List Piece} {a b c : Chip} {m p f : Nat} {x : ModCh} {y : SapPort} {prof : Profile} {items : Items} {k : Clk}

/-- The part with the clock monitors as given. -/
def Chip.withClock (k : Clk) (c : Chip) : Chip := { c with clock := k }

theorem Chip.keeps.withClock (m : Piece.clock ∈ L) (h : a.keeps L b) : a.keeps L (b.withClock k) :=
  h.trans fun p hp => by
    cases p
    case clock => exact absurd m hp
    case irq => exact ⟨rfl, rfl, rfl⟩
    all_goals rfl

/-- The part with the MOD PLL reported unlocked, and with a good report of the MEDIA clock (10 R271). -/
def Chip.modUnlocked (c : Chip) : Chip :=
  (c.withClock { c.clock with modLock := false, modUnlockSeen := true }).raise 0x1102 .note
def Chip.mediaGood (n : BitVec 13) (c : Chip) : Chip := c.withClock { c.clock with mediaRun := n, mediaOk := true }

theorem Chip.keeps.modUnlocked (m : Piece.clock ∈ L) (e : Piece.err ∈ L) (h : a.keeps L b) : a.keeps L b.modUnlocked :=
  .raise e (.withClock m h)

theorem Chip.keeps.mediaGood {n : BitVec 13} (m : Piece.clock ∈ L) (h : a.keeps L b) : a.keeps L (b.mediaGood n) :=
  .withClock m h

@[simp] theorem Chip.modUnlocked_clock :
    c.modUnlocked.clock = { c.clock with modLock := false, modUnlockSeen := true } := rfl
@[simp] theorem Chip.mediaGood_clock (n : BitVec 13) :
    (c.mediaGood n).clock = { c.clock with mediaRun := n, mediaOk := true } := rfl

theorem Chip.keeps.modClockError (n : Piece.pow ∈ L) (e : Piece.err ∈ L) (h : a.keeps L b) : a.keeps L b.modClockError :=
  .ite (.onPow n (.onPow n h)) (.raise e (.onPow n (.onPow n h)))

/-- The channels of a clock error, its flag and time, and the rails, whether or not it is the first. -/
theorem Chip.modClockError_pow : c.modClockError.pow.clkErr = true ∧ c.modClockError.pow.errAt = c.clk ∧
    c.modClockError.pow.rails = c.pow.rails.map fun r => { r with duty := 0 } := by
  unfold Chip.modClockError
  simp only [apply_ite Chip.pow, Chip.raise_pow, ite_self]
  exact ⟨rfl, rfl, rfl⟩

theorem Chip.modClockError_ch_of_play (get : c.pow.ch[m]? = some x) (plays : x.st = .play) :
    c.modClockError.pow.ch[m]? = some { x.off .off c with clkHold := !x.disabling } := by
  unfold Chip.modClockError
  cases first : c.pow.clkErr <;> simp [Chip.onMods, first, get, plays]

theorem Chip.keeps.clockEnds (n : Piece.pow ∈ L) (h : a.keeps L b) : a.keeps L b.clockEnds := .ite (.onPow n h) h

theorem Chip.clockEnds_of_none (clear : c.pow.clkErr = false) : c.clockEnds = c := by
  simp [Chip.clockEnds, clear]

theorem Chip.clockEnds_of_good (error : c.pow.clkErr = true) (good : c.clockBad = false) :
    c.clockEnds = c.onPow fun p => { p with clkErr := false, clkQual := true, errAt := c.clk } := by
  simp [Chip.clockEnds, error, good]

theorem Chip.keeps.sapShow {g : Chip → Chip} (o : Piece.out ∈ L) (h : a.keeps L (g b)) : a.keeps L (b.sapShow g) :=
  h.trans ((Chip.sapShow_keeps g).mono (by simpa using o))

theorem Chip.keeps.sapClockError (o : Piece.out ∈ L) (n : Piece.sap ∈ L) (e : Piece.err ∈ L) (h : a.keeps L b) :
    a.keeps L b.sapClockError := .ite (.raise e (.sapShow o (.onSap n h))) (.sapShow o (.onSap n h))

theorem Chip.sapClockError_ports : c.sapClockError.sap.ports = c.sap.ports.map SapPort.hold := by
  unfold Chip.sapClockError
  simp only [apply_ite Chip.sap, Chip.raise_sap, ite_self]
  rw [(Chip.sapShow_keeps _).get_sap]
  rfl

/-! Ports that restart with the stored items (08 R239) -/

@[simp] theorem SapPort.settled_fmt : y.settled.fmt = y.fmt := by unfold SapPort.settled; split <;> rfl
@[simp] theorem SapPort.settled_restarts : y.settled.restarts = y.restarts := by unfold SapPort.settled; split <;> rfl

theorem SapPort.startStored_of_broken (broken : sapBroken prof items p = true) :
    (y.startStored prof items p f).st = .stopped ∧ (y.startStored prof items p f).formatErr = true ∧
      (y.startStored prof items p f).restarts = y.restarts := by
  simp [SapPort.startStored, broken, SapPort.stop]

theorem SapPort.startStored_of_enabled (enabled : (sapFmt items p).enable = true) (whole : sapBroken prof items p = false) :
    (y.startStored prof items p f).fmt = sapFmt items p ∧ (y.startStored prof items p f).restarts = y.restarts + 1 := by
  simp [SapPort.startStored, whole, enabled, SapPort.start]

theorem SapPort.startStored_of_disabled (disabled : (sapFmt items p).enable = false) :
    (y.startStored prof items p f).st = .stopped ∧ (y.startStored prof items p f).restarts = y.restarts := by
  simp [SapPort.startStored, sapBroken, disabled, SapPort.stop]

theorem Chip.keeps.sapQualified (o : Piece.out ∈ L) (n : Piece.sap ∈ L) (e : Piece.err ∈ L) (h : a.keeps L b) :
    a.keeps L b.sapQualified := .ite (.raise e (.sapShow o (.onSap n h))) (.sapShow o (.onSap n h))

theorem Chip.sapQualified_get (port : c.sap.ports[p]? = some y) : c.sapQualified.sap.ports[p]? = some
    (if y.st = .clockHold then y.startStored c.prof c.sys.now.items p (c.sampleNow + 1) else y) := by
  unfold Chip.sapQualified
  simp only [apply_ite Chip.sap, Chip.raise_sap, ite_self]
  rw [(Chip.sapShow_keeps _).get_sap]
  simp [port]

end

end Sys2Proof.Machine

namespace Sys2Proof.Machine

/-! Channels of the power stage, and the sweep that measures them (10 R279 to R281) -/

section
variable {L : List Piece} {a b c : Chip} {m : Nat} {x y : ModCh}

/-- The part with channel m as given. -/
def Chip.setMod (m : Nat) (x : ModCh) (c : Chip) : Chip := c.onPow fun p => { p with ch := p.ch.set m x }

theorem Chip.modCh_of_get (get : c.pow.ch[m]? = some x) : c.modCh m = x := getD_of_get get _

theorem Chip.setMod_get (get : c.pow.ch[m]? = some x) : (c.setMod m y).pow.ch[m]? = some y := set_get get y

theorem Chip.setMod_setMod {z : ModCh} : (c.setMod m y).setMod m z = c.setMod m z := by
  simp [Chip.setMod, Chip.onPow]

/-- A change of every channel alike. -/
theorem Chip.onMods_const (f : ModCh → ModCh) : (c.onMods fun _ => f).pow = { c.pow with ch := c.pow.ch.map f } := by
  have same : c.pow.ch.mapIdx (fun _ => f) = c.pow.ch.map f := List.ext_getElem? fun i => by simp
  rw [Chip.onMods, Chip.onPow_pow, same]

theorem Chip.onMod_of_get (get : c.pow.ch[m]? = some x) (f : ModCh → ModCh) : c.onMod m f = c.setMod m (f x) := by
  simp only [Chip.onMod, Chip.setMod, Chip.onPow, lmod_of_get get]

/-- The part with every channel off because its input is lost (10 R273). -/
def Chip.inputOff (c : Chip) : Chip :=
  (c.onMods fun _ x => { x with wasOn := x.st.switching, drive := [] }).onPow fun p =>
    { p with inputLost := true, inputBack := false }

theorem Chip.inputLose_of_present (present : c.pow.inputLost = false) : c.inputLose = c.inputOff.raise 0x0E07 .fault := by
  simp only [Chip.inputLose, present, Bool.false_eq_true, if_false, Chip.inputOff]

theorem Chip.keeps.setMod (n : Piece.pow ∈ L) (h : a.keeps L b) : a.keeps L (b.setMod m x) := .onPow n h

theorem Chip.alarmEnds_of_get (get : c.pow.ch[m]? = some x) (alarm : x.zAlarm = true) :
    c.alarmEnds m = (c.setMod m { x with zAlarm := false }).raise 0x0E12 .note m := by
  simp only [Chip.alarmEnds, Chip.modCh_of_get get, alarm, if_true, Chip.onMod_of_get get]

theorem Chip.keeps.sweepPoint {w : Sweep} (n : Piece.pow ∈ L) (h : a.keeps L b) : a.keeps L (b.sweepPoint w) :=
  .onPow n (.foldl _ _ h fun _ _ => .onPow n (.refl _ _))

theorem Chip.foldl_onMod_rails (f : Chip → Nat → ModCh → ModCh) (l : List Nat) :
    (l.foldl (fun c m => c.onMod m (f c m)) c).pow.rails = c.pow.rails := by
  induction l generalizing c with
  | nil => rfl
  | cons m l ih => exact ih

theorem Chip.sweepPoint_pow (w : Sweep) : (c.sweepPoint w).pow.sweep = some { w with began := c.sys.blk } ∧
    (c.sweepPoint w).pow.rails = c.pow.rails := ⟨rfl, Chip.foldl_onMod_rails _ _⟩

end

end Sys2Proof.Machine

namespace Sys2Proof.Machine

/-! What the commands of the power stage run -/

section
variable {s : State} {t : Nat}

theorem exec_clockError (cause : ClockCause) :
    Sys2Proof.Machine.exec (.clockError cause t) s = execClockError cause t s := by rfl

theorem exec_clockError_modUnlock : Sys2Proof.Machine.exec (.clockError .modUnlock t) s =
    act (fun c => (c.advance t).modUnlocked.modClockError.sapClockError) s := exec_clockError .modUnlock

theorem exec_clockError_mediaRun {n : BitVec 13} (low : 4146 ≤ n.toNat) (high : n.toNat ≤ 4187) :
    Sys2Proof.Machine.exec (.clockError (.mediaRun n) t) s = act (fun c => ((c.advance t).mediaGood n).clockEnds) s := by
  have good : (decide (n.toNat < 4146) || decide (4187 < n.toNat)) = false := by simp [low, high]
  rw [exec_clockError, execClockError]
  simp only [good, reduceCtorEq, Bool.false_eq_true, if_false, Chip.mediaGood, Chip.withClock]

theorem exec_clockQualified : Sys2Proof.Machine.exec (.clockQualified t) s = execClockQualified t s := by rfl

theorem exec_railTripHoldEnd (k : Fin 8) :
    Sys2Proof.Machine.exec (.railTripHoldEnd k t) s = execRailTripHoldEnd k t s := by rfl

theorem exec_xq6InputLost : Sys2Proof.Machine.exec (.xq6InputLost t) s = execXq6InputLost t s := by rfl

theorem exec_xq6InputResume : Sys2Proof.Machine.exec (.xq6InputResume t) s = execXq6InputResume t s := by rfl

theorem exec_pilotWindowEnd (m : Fin 64) :
    Sys2Proof.Machine.exec (.pilotWindowEnd m) s = execPilotWindowEnd m s := by rfl

theorem exec_sweepPointEnd (k : Fin 8) : Sys2Proof.Machine.exec (.sweepPointEnd k) s = execSweepPointEnd k s := by rfl

@[simp] theorem Chip.advance_modIt (c : Chip) (m f : Nat) : (c.advance t).modIt m f = c.modIt m f := by
  simp [Chip.modIt, Chip.itN, Chip.it]

@[simp] theorem Chip.advance_railIt (c : Chip) (k f : Nat) : (c.advance t).railIt k f = c.railIt k f := by
  simp [Chip.railIt, Chip.itN, Chip.it]

end

end Sys2Proof.Machine

namespace Sys2Proof.Machine

/-! The clauses of the power stage -/

/-- A command that completes with one effect completes with what follows from it. -/
theorem CompletesAt.imp {i : Instr} {s : State} {t : Nat} {named : List Piece} {P Q : Chip → Prop}
    (h : CompletesAt i s t named P) (k : ∀ c, P c → Q c) : CompletesAt i s t named Q := by
  obtain ⟨u, run, pending, ham, frame, clk, ptp, holds⟩ := h
  exact ⟨u, run, pending, ham, frame, clk, ptp, k _ holds⟩

section
variable {s : State} {t : Nat}

/-- The MOD PLL is unlocked: the modulators turn off, the ports stop and the rails go low (10 R271, R272; 08 R239). -/
theorem clockError_completes (live : s.live) :
    Completes (.clockError .modUnlock t) s [.clk, .ptp, .clock, .pow, .sap, .err] fun c =>
      c.clk = max s.chip.clk t ∧ c.clock = { s.chip.clock with modLock := false, modUnlockSeen := true } ∧
        c.pow.clkErr = true ∧ c.pow.errAt = max s.chip.clk t ∧ c.sap.ports = s.chip.sap.ports.map SapPort.hold ∧
        (∀ r ∈ c.pow.rails, r.duty = 0) ∧
        ∀ (m : Nat) (x : ModCh), s.chip.pow.ch[m]? = some x → x.st = .play → x.disabling = false →
          ∃ y, c.pow.ch[m]? = some y ∧ y.st = .off ∧ y.clkHold = true ∧ y.drive = [] := by
  have begun : (s.chip.begin.advance t).keeps [.clock, .err] (s.chip.begin.advance t).modUnlocked :=
    .modUnlocked (by decide) (by decide) (.refl _ _)
  have clock := Chip.modUnlocked_clock (c := s.chip.begin.advance t)
  have pow : (s.chip.begin.advance t).modUnlocked.pow = s.chip.pow := begun.get_pow.trans (Chip.advance_pow ..)
  obtain ⟨error, time, rails⟩ := Chip.modClockError_pow (c := (s.chip.begin.advance t).modUnlocked)
  have off : (s.chip.begin.advance t).modUnlocked.keeps [.pow, .err] (s.chip.begin.advance t).modUnlocked.modClockError :=
    .modClockError (by decide) (by decide) (.refl _ _)
  have silent : (s.chip.begin.advance t).modUnlocked.modClockError.keeps [.out, .sap, .err]
      (s.chip.begin.advance t).modUnlocked.modClockError.sapClockError :=
    .sapClockError (by decide) (by decide) (by decide) (.refl _ _)
  refine completes_of_effect _ exec_clockError_modUnlock live rfl (.trans (.advance (by decide) (by decide) (.refl _ _))
    ((begun.mono (by decide)).trans ((off.mono (by decide)).trans (silent.mono (by decide))))) ?_
  rw [begun.get_clk, Chip.advance_clk] at time
  simp only [Chip.settle_clk, Chip.settle_clock, Chip.settle_pow, Chip.settle_sap]
  rw [silent.get_clk, off.get_clk, begun.get_clk, Chip.advance_clk, silent.get_clock, off.get_clock, clock,
    Chip.advance_clock, silent.get_pow, error, time, rails, Chip.sapClockError_ports, off.get_sap, begun.get_sap,
    Chip.advance_sap]
  refine ⟨rfl, rfl, rfl, rfl, rfl, by simp, fun m x get plays on =>
    ⟨_, Chip.modClockError_ch_of_play (pow ▸ get) plays, rfl, ?_, rfl⟩⟩
  simp [on]

/-- A good report of the MEDIA clock (10 R271, R272). -/
theorem mediaRun_completes {n : BitVec 13} (live : s.live) (low : 4146 ≤ n.toNat) (high : n.toNat ≤ 4187) :
    CompletesAt (.clockError (.mediaRun n) t) s t [.clock, .pow] fun c =>
      c.clock = { s.chip.clock with mediaRun := n, mediaOk := true } ∧
        (s.chip.pow.clkErr = false → c.pow = s.chip.pow) ∧
        (s.chip.pow.clkErr = true → s.chip.clock.modLock = true → s.chip.sys.xqSilent.getLsbD 5 = false →
          c.pow = { s.chip.pow with clkErr := false, clkQual := true, errAt := max s.chip.clk t }) := by
  have begun : (s.chip.begin.advance t).keeps [.clock] ((s.chip.begin.advance t).mediaGood n) :=
    .mediaGood (by decide) (.refl _ _)
  have ends : ((s.chip.begin.advance t).mediaGood n).keeps [.pow] ((s.chip.begin.advance t).mediaGood n).clockEnds :=
    .clockEnds (by decide) (.refl _ _)
  have clock := Chip.mediaGood_clock (c := s.chip.begin.advance t) n
  have pow : ((s.chip.begin.advance t).mediaGood n).pow = s.chip.pow := begun.get_pow.trans (Chip.advance_pow ..)
  rw [Chip.advance_clock, Chip.begin_clock] at clock
  refine completesAt_of_effect _ (exec_clockError_mediaRun low high) live rfl
    ((begun.mono (by decide)).trans (ends.mono (by decide))) ⟨?_, fun clear => ?_, fun error locked speaks => ?_⟩
  · rw [Chip.settle_clock, ends.get_clock, clock]
  · rw [Chip.settle_pow, Chip.clockEnds_of_none (by rw [pow, clear]), pow]
  · have good : ((s.chip.begin.advance t).mediaGood n).clockBad = false := by
      rw [Chip.clockBad, clock, begun.get_sys, Chip.advance_sys, Chip.begin_sys, speaks, locked]
      rfl
    rw [Chip.settle_pow, Chip.clockEnds_of_good (by rw [pow, error]) good, Chip.onPow_pow, pow, begun.get_clk,
      Chip.advance_clk, Chip.begin_clk]

/-- The clocks are qualified: the channels resume at the next tick, and the ports that hold restart (10 R272; 08 R239). -/
theorem clockQualified_completes (live : s.live) (unbuilt : ∀ k, s.chip.cmd.cold = some k → k.built = false)
    (qualifies : s.chip.pow.clkQual = true) (due : s.chip.pow.errAt + 10 * msClk ≤ max s.chip.clk t) :
    CompletesAt (.clockQualified t) s t [.pow, .sap, .err] fun c =>
      c.pow = { s.chip.pow with clkQual := false, resume := true } ∧
        ∀ (p : Nat) (x : SapPort), s.chip.sap.ports[p]? = some x → ∃ f, c.sap.ports[p]? = some
          (if x.st = .clockHold then x.startStored s.chip.prof s.chip.sys.now.items p f else x) := by
  have begun : (s.chip.begin.advance t).keeps [.pow] (s.chip.begin.advance t).modQualified := .onPow (by decide) (.refl _ _)
  have starts : (s.chip.begin.advance t).modQualified.keeps [.out, .sap, .err]
      (s.chip.begin.advance t).modQualified.sapQualified :=
    .sapQualified (by decide) (by decide) (by decide) (.refl _ _)
  have sys : (s.chip.begin.advance t).modQualified.sys = s.chip.sys := begun.get_sys.trans (Chip.advance_sys ..)
  refine completesAt_of_effect _ exec_clockQualified live (c := (s.chip.begin.advance t).modQualified.sapQualified) ?_
    ((begun.mono (by decide)).trans (starts.mono (by decide)))
    ⟨?_, fun p x port => ⟨(s.chip.begin.advance t).modQualified.sampleNow + 1, ?_⟩⟩
  · have now : ((s.chip.begin.advance t).pow.clkQual &&
        (s.chip.begin.advance t).pow.errAt + 10 * msClk ≤ (s.chip.begin.advance t).clk) = true := by
      simpa [qualifies] using due
    refine (if_pos now).trans (Chip.portView_of_unbuilt _ ?_)
    rw [begun.get_cmd, Chip.advance_cmd]
    exact unbuilt
  · rw [Chip.settle_pow, starts.get_pow, Chip.modQualified, Chip.onPow_pow, Chip.advance_pow]
    rfl
  · rw [Chip.settle_sap, Chip.sapQualified_get (y := x) (by rwa [begun.get_sap, Chip.advance_sap]), Chip.prof, sys]
    rfl

/-- The hold of a rail group ends (10 R277). -/
theorem railTripHoldEnd_completes {k : Fin 8} {r : RailGrp} {h : Nat} (live : s.live)
    (rail : s.chip.pow.rails[k.val]? = some r) (held : r.hold = some h) (due : h + s.chip.railIt k.val 7 * msClk ≤ t) :
    CompletesAt (.railTripHoldEnd k t) s t [.pow] fun c =>
      c.pow = { s.chip.pow with rails := s.chip.pow.rails.set k.val { r with hold := none } } := by
  refine completesAt_of_effect _ (exec_railTripHoldEnd k) live rfl (.onPow (by decide) (.refl _ _)) ?_
  have due' : h + (s.chip.begin.advance t).railIt k.val 7 * msClk ≤ t := by rwa [Chip.advance_railIt]
  rw [Chip.settle_pow, Chip.onPow_pow, Chip.advance_pow, lmod_of_get (l := s.chip.begin.pow.rails) rail, held]
  simp only [due', if_true]
  rfl

/-- Entries of XQ_6 stop: every channel is off and remembers whether it was on (10 R273). -/
theorem xq6InputLost_completes (live : s.live) (present : s.chip.pow.inputLost = false) :
    CompletesAt (.xq6InputLost t) s t [.pow, .err] fun c =>
      c.pow = { s.chip.pow with
        inputLost := true, inputBack := false
        ch := s.chip.pow.ch.map fun x => { x with wasOn := x.st.switching, drive := [] } } ∧
      c.err = s.chip.recorded 0x0E07 .fault := by
  have changed : (s.chip.begin.advance t).keeps [.pow] (s.chip.begin.advance t).inputOff :=
    .onPow (by decide) (.onPow (by decide) (.refl _ _))
  refine completesAt_of_effect _ exec_xq6InputLost live (c := (s.chip.begin.advance t).inputOff.raise 0x0E07 .fault)
    (Chip.inputLose_of_present (by rwa [Chip.advance_pow])) (.raise (by decide) (changed.mono (by decide))) ⟨?_, ?_⟩
  · rw [Chip.settle_pow, Chip.raise_pow, Chip.inputOff, Chip.onPow_pow, Chip.onMods_const, Chip.advance_pow]
    rfl
  · exact Chip.settle_raise_err (changed.get_err.trans (Chip.advance_err ..)) (changed.get_sys.trans (Chip.advance_sys ..))

/-- Entries of XQ_6 resume (10 R273). -/
theorem xq6InputResume_completes (live : s.live) (lost : s.chip.pow.inputLost = true) :
    CompletesAt (.xq6InputResume t) s t [.pow] fun c =>
      c.pow = { s.chip.pow with inputLost := false, inputBack := true } := by
  have lost' : (s.chip.begin.advance t).pow.inputLost = true := by rwa [Chip.advance_pow]
  refine completesAt_of_effect _ exec_xq6InputResume live (if_pos lost') (.onPow (by decide) (.refl _ _)) ?_
  rw [Chip.settle_pow, Chip.onPow_pow, Chip.advance_pow]
  rfl

end

section
variable {s : State} {m : Fin 64} {x : ModCh} {q : Meas} {z : ZRes}

/-- A pilot window of channel m has ended, with result z (10 R279). -/
structure PilotEnds (s : State) (m : Fin 64) (x : ModCh) (q : Meas) (z : ZRes) : Prop where
  live : s.live
  channel : s.chip.pow.ch[m.val]? = some x
  done : x.done = some q
  result : z = q.result (s.chip.modIt m.val 2) (s.chip.modIt m.val 3) q.ok false

/-- The part once channel m, which was x, shows z. -/
def Chip.measured (m : Nat) (x : ModCh) (z : ZRes) (c : Chip) : Chip := c.setMod m { x with z := z, done := none }

/-- The magnitude of z is in the range of channel m (10 R280). -/
def Chip.inRange (c : Chip) (m : Nat) (z : ZRes) : Bool := c.modIt m 8 ≤ z.mag && z.mag ≤ c.modIt m 9

theorem PilotEnds.effect (h : PilotEnds s m x q z) : ∃ f, Sys2Proof.Machine.exec (.pilotWindowEnd m) s = act f s ∧
    f s.chip.begin =
      if z.valid && x.st = .play && !s.chip.inRange m.val z then
        (s.chip.begin.setMod m.val { x with z := z, done := none, zAlarm := true }).raise 0x0E11 .fault m.val
      else if z.valid && s.chip.inRange m.val z then (s.chip.begin.measured m.val x z).alarmEnds m.val
      else s.chip.begin.measured m.val x z := by
  refine ⟨_, exec_pilotWindowEnd m, ?_⟩
  have shows := Chip.onMod_of_get (c := s.chip.begin) h.channel fun x => { x with z := z, done := none }
  have alarms := Chip.onMod_of_get (Chip.setMod_get (c := s.chip.begin) (y := { x with z := z, done := none }) h.channel)
    fun x => { x with zAlarm := true }
  have z_eq : q.result (s.chip.begin.modIt m.val 2) (s.chip.begin.modIt m.val 3) q.ok false = z := h.result.symm
  simp only [Chip.modCh_of_get (c := s.chip.begin) h.channel, h.done, z_eq, shows, alarms, Chip.setMod_setMod]
  rfl

/-- A valid result out of range, on a channel that plays, is an alarm. -/
theorem PilotEnds.alarms (h : PilotEnds s m x q z) (valid : z.valid = true) (plays : x.st = .play)
    (outside : z.mag < s.chip.modIt m.val 8 ∨ s.chip.modIt m.val 9 < z.mag) :
    Completes (.pilotWindowEnd m) s [.pow, .err] fun c =>
      c.pow = { s.chip.pow with ch := s.chip.pow.ch.set m.val { x with z := z, done := none, zAlarm := true } } ∧
        c.err = s.chip.recorded 0x0E11 .fault m.val := by
  obtain ⟨f, run, effect⟩ := h.effect
  have out : s.chip.inRange m.val z = false := by
    simp only [Chip.inRange, Bool.and_eq_false_iff, decide_eq_false_iff_not]
    omega
  rw [if_pos (by simp [valid, plays, out])] at effect
  exact completes_of_effect f run h.live effect (.raise (by decide) (.setMod (by decide) (.refl _ _)))
    ⟨Chip.settle_pow _, Chip.settle_raise_err (c := s.chip) rfl rfl⟩

/-- A valid result in range ends an alarm. -/
theorem PilotEnds.alarmEnds (h : PilotEnds s m x q z) (valid : z.valid = true) (alarm : x.zAlarm = true)
    (low : s.chip.modIt m.val 8 ≤ z.mag) (high : z.mag ≤ s.chip.modIt m.val 9) :
    Completes (.pilotWindowEnd m) s [.pow, .err] fun c =>
      c.pow = { s.chip.pow with ch := s.chip.pow.ch.set m.val { x with z := z, done := none, zAlarm := false } } ∧
        c.err = s.chip.recorded 0x0E12 .note m.val := by
  obtain ⟨f, run, effect⟩ := h.effect
  have within : s.chip.inRange m.val z = true := by simp [Chip.inRange, low, high]
  have ended := Chip.alarmEnds_of_get
    (Chip.setMod_get (c := s.chip.begin) (y := { x with z := z, done := none }) h.channel) alarm
  rw [if_neg (by simp [within]), if_pos (by simp [valid, within]), Chip.measured, ended, Chip.setMod_setMod] at effect
  exact completes_of_effect f run h.live effect (.raise (by decide) (.setMod (by decide) (.refl _ _)))
    ⟨Chip.settle_pow _, Chip.settle_raise_err (c := s.chip) rfl rfl⟩

/-- An invalid result is shown and no more. -/
theorem PilotEnds.shows (h : PilotEnds s m x q z) (invalid : z.valid = false) :
    Completes (.pilotWindowEnd m) s [.pow] fun c =>
      c.pow = { s.chip.pow with ch := s.chip.pow.ch.set m.val { x with z := z, done := none } } := by
  obtain ⟨f, run, effect⟩ := h.effect
  rw [if_neg (by simp [invalid]), if_neg (by simp [invalid])] at effect
  exact completes_of_effect f run h.live effect (.setMod (by decide) (.refl _ _)) (Chip.settle_pow _)

end

/-- The sweep of w when its next point begins: with these results, and the channels that are still swept (10 R281). -/
def Chip.nextPoint (c : Chip) (w : Sweep) (mags : Map (List ZRes)) : Sweep :=
  { w with
    mags := mags, point := w.point + 1
    part := w.part.filter fun m => (c.modCh m).st.swept && !(c.modCh m).disabling }

/-- A sweep point ends before the ninth: the next begins, with the channels that are still swept (10 R281). -/
theorem sweepPointEnd_completes {s : State} {k : Fin 8} {w : Sweep} (live : s.live) (sweep : s.chip.pow.sweep = some w)
    (group : w.groups.head? = some k.val) (due : w.began + s.chip.W / 10 ≤ s.chip.sys.blk) (early : w.point < 8) :
    Completes (.sweepPointEnd k) s [.pow] fun c =>
      ∃ mags, c.pow.sweep = some { w with
        mags := mags, point := w.point + 1, began := s.chip.sys.blk
        part := w.part.filter fun m => (s.chip.modCh m).st.swept && !(s.chip.modCh m).disabling } ∧
        c.pow.rails = s.chip.pow.rails := by
  have effect : ∃ f, Sys2Proof.Machine.exec (.sweepPointEnd k) s = act f s ∧
      ∃ mags, f s.chip.begin = s.chip.begin.sweepPoint (s.chip.nextPoint w mags) := by
    refine ⟨_, exec_sweepPointEnd k, ?_⟩
    have sweep' : s.chip.begin.pow.sweep = some w := sweep
    have due' : ¬ s.chip.begin.sys.blk < w.began + s.chip.begin.W / 10 := Nat.not_lt.mpr due
    have before : w.point < 9 := by omega
    have next : w.point + 1 < 9 := by omega
    simp only [sweep', group, due', before, next, ne_eq, not_true_eq_false, or_self, if_false, if_true, true_or]
    exact ⟨_, rfl⟩
  obtain ⟨f, run, mags, point⟩ := effect
  obtain ⟨next, rails⟩ := Chip.sweepPoint_pow (c := s.chip.begin) (s.chip.nextPoint w mags)
  refine completes_of_effect f run live point (.sweepPoint (by decide) (.refl _ _)) ⟨mags, ?_, ?_⟩
  · rw [Chip.settle_pow, next]
    rfl
  · rw [Chip.settle_pow, rails]
    rfl

/-- Settles O28: each clause is the lemma on its row; the ports of CLOCK_QUALIFIED by the cases of `SapPort.startStored`. -/
theorem powerStage : Obligations.PowerStage := by
  unfold Obligations.PowerStage
  intro s t live
  refine ⟨clockError_completes live, fun n => mediaRun_completes live, ?qualified,
    fun k r h => railTripHoldEnd_completes live, xq6InputLost_completes live, xq6InputResume_completes live, ?pilot,
    fun k w => sweepPointEnd_completes live⟩
  case qualified =>
    intro unbuilt qualifies due
    refine (clockQualified_completes live unbuilt qualifies due).imp fun c ⟨pow, ports⟩ => ⟨pow, fun p x port => ?_⟩
    obtain ⟨f, restarts⟩ := ports p x port
    refine ⟨fun other => ?_, fun holds broken => ?_, fun holds enabled whole => ?_, fun holds disabled => ?_⟩
    · rw [restarts, if_neg other]
    all_goals rw [if_pos holds] at restarts
    · exact ⟨_, restarts, SapPort.startStored_of_broken broken⟩
    · exact ⟨_, restarts, SapPort.startStored_of_enabled enabled whole⟩
    · exact ⟨_, restarts, SapPort.startStored_of_disabled disabled⟩
  case pilot =>
    intro m x q z channel done result
    have ends : PilotEnds s m x q z := ⟨live, channel, done, result⟩
    exact ⟨ends.alarms, ends.alarmEnds, ends.shows⟩

end Sys2Proof.Machine

namespace Sys2Proof.Machine

/-! What the commands of the AIN block run -/

section
variable {s : State}

theorem exec_ainGainStep (n : Fin 16) : Sys2Proof.Machine.exec (.ainGainStep n) s = execAinGainStep n s := by rfl

theorem exec_biasOverload (n : Fin 16) : Sys2Proof.Machine.exec (.biasOverload n) s = execBiasOverload n s := by rfl

theorem exec_insertionChange (n : Fin 16) :
    Sys2Proof.Machine.exec (.insertionChange n) s = execInsertionChange n s := by rfl

theorem exec_classChange (n : Fin 16) : Sys2Proof.Machine.exec (.classChange n) s = execClassChange n s := by rfl

theorem exec_stuck (n : Fin 16) (k : Fin 4) : Sys2Proof.Machine.exec (.stuck n k) s = execStuck n k s := by rfl

theorem exec_contactStateChange (k : Fin 32) :
    Sys2Proof.Machine.exec (.contactStateChange k) s = execContactStateChange k s := by rfl

theorem exec_chatterEnd (g : ChatterOf) : Sys2Proof.Machine.exec (.chatterEnd g) s = execChatterEnd g s := by rfl

theorem exec_ainScan (x : ScanIn) : Sys2Proof.Machine.exec (.ainScan x) s = execAinScan x s := by rfl

theorem exec_mainsHalfCycle (rms : Nat) (freq : Option Nat) (t : Nat) :
    Sys2Proof.Machine.exec (.mainsHalfCycle rms freq t) s = execMainsHalfCycle rms freq t s := by rfl

theorem exec_mainsZcTimeout (t : Nat) : Sys2Proof.Machine.exec (.mainsZcTimeout t) s = execMainsZcTimeout t s := by rfl

theorem exec_mainsRestore (t : Nat) : Sys2Proof.Machine.exec (.mainsRestore t) s = execMainsRestore t s := by rfl

theorem exec_batteryCondition (critical : Bool) :
    Sys2Proof.Machine.exec (.batteryCondition critical) s = execBatteryCondition critical s := by rfl

theorem exec_railWindow (r : Fin 8) : Sys2Proof.Machine.exec (.railWindow r) s = execRailWindow r s := by rfl

end

/-- The records after a command of which one raise reached the records. -/
theorem Chip.settle_err_of_raise {a c : Chip} {code d : Nat} {cls : Cls} (err : a.err = (c.raise code cls d).err)
    (sys : a.sys = c.sys) : a.settle.err = c.recorded code cls d :=
  (Chip.settle_err a).trans (Chip.recorded_eq err sys)

/-! Items in force: neither the start of a command nor time changes them -/

@[simp] theorem Chip.begin_itN (id : Nat) (c : Chip) : c.begin.itN id = c.itN id := rfl

@[simp] theorem Chip.advance_itN (t id : Nat) (c : Chip) : (c.advance t).itN id = c.itN id := by simp [Chip.itN, Chip.it]

end Sys2Proof.Machine

namespace Sys2Proof.Machine

/-! One analogue input (09 R248 to R254): its state, its bias and its event -/

section
variable {c : Chip} {n : Nat} {x y z b : AinIn}

/-- The part with input n in this state. -/
def Chip.setAin (n : Nat) (y : AinIn) (c : Chip) : Chip := c.onAin fun a => { a with ins := a.ins.set n y }

theorem Chip.onAinIn_of_get (get : c.ain.ins[n]? = some x) (f : AinIn → AinIn) : c.onAinIn n f = c.setAin n (f x) := by
  simp [Chip.onAinIn, Chip.setAin, Chip.onAin, lmod_of_get get]

theorem Chip.setAin_get (get : c.ain.ins[n]? = some x) : (c.setAin n y).ain.ins[n]? = some y := set_get get y

@[simp] theorem Chip.setAin_setAin : (c.setAin n y).setAin n z = c.setAin n z := by
  simp [Chip.setAin, Chip.onAin]

theorem Chip.onAinIn_onAinIn (get : c.ain.ins[n]? = some x) (f g : AinIn → AinIn) :
    (c.onAinIn n f).onAinIn n g = c.setAin n (g (f x)) := by
  rw [Chip.onAinIn_of_get (Chip.onAinIn_get get f), Chip.onAinIn_of_get get, Chip.setAin_setAin]

theorem Chip.keeps.setAin {L : List Piece} {a : Chip} (k : Piece.ain ∈ L) (h : a.keeps L c) : a.keeps L (c.setAin n y) :=
  .onAin k h

/-- The bias of an input that was removed or overloaded is off (09 R249, R250). -/
theorem Chip.biasOn_eq_false (get : c.ain.ins[n]? = some x) (off : x.removed = true ∨ x.overload = true) :
    c.biasOn n = false := by
  rw [Chip.biasOn, Chip.ainIn_of_get get]
  obtain off | off := off <;> simp [off]

/-- A report changes no more of the AIN block than the event, and it sets the event where insertion changed (09 R254). -/
theorem Chip.ainReport_ain (n : Nat) (b : AinIn) (c : Chip) :
    ∃ ev at_, (c.ainReport n b).ain = { c.ain with event := ev, eventBlk := at_ } ∧
      ((c.ainIn n).inserted ≠ b.inserted → ev = c.ain.event ||| BitVec.ofNat 32 (2 ^ n) ∧ at_ = c.ain.scanBlk) := by
  obtain ⟨same, inserted, -⟩ | event := c.ainReport_cases n b
  · exact ⟨c.ain.event, c.ain.eventBlk, by rw [same], fun changed => absurd inserted changed⟩
  · exact ⟨_, _, by rw [event], fun _ => ⟨rfl, rfl⟩⟩

theorem Chip.ainReport_of_cls (get : c.ain.ins[n]? = some x) (changed : x.cls ≠ b.cls) : c.ainReport n b = c.ainEvent n := by
  obtain ⟨-, -, cls, -⟩ | event := c.ainReport_cases n b
  · exact absurd (Chip.ainIn_of_get get ▸ cls) changed
  · exact event

@[simp] theorem Deb.flip_state (scan limit : Nat) (stuck : Bool) (d : Deb) : (d.flip scan limit stuck).1.state = !d.state := by
  unfold Deb.flip
  dsimp only
  split <;> rfl

/-- The class in force is the input's own while it is inserted and NONE else; besides it, settling an input touches the
candidate and the buttons only (09 R251, R252). -/
theorem AinIn.settle_shape (scan : Nat) (x : AinIn) : ∃ cls cand buttons stuck,
    x.settle scan = { x with cls := cls, cand := cand, buttons := buttons, stuck := stuck } ∧
      (x.inserted = true → cls = x.cls) ∧ (x.inserted = false → cls = 0) := by
  have released : ∀ y : AinIn, ∃ buttons stuck,
      (if y.cls = 3 then y else { y with buttons := y.buttons.mapIdx fun k b => b.release scan (y.stuck.getLsbD k), stuck := 0 }) =
        { y with buttons := buttons, stuck := stuck } := fun y => by
    by_cases station : y.cls = 3
    · exact ⟨y.buttons, y.stuck, if_pos station⟩
    · exact ⟨_, _, if_neg station⟩
  unfold AinIn.settle
  cases x.inserted
  · obtain ⟨buttons, stuck, shape⟩ := released { x with cls := 0, cand := (0, 0) }
    exact ⟨0, (0, 0), buttons, stuck, shape, nofun, fun _ => rfl⟩
  · obtain ⟨buttons, stuck, shape⟩ := released x
    exact ⟨x.cls, x.cand, buttons, stuck, shape, fun _ => rfl, nofun⟩

end

end Sys2Proof.Machine

namespace Sys2Proof.Machine

/-! The clauses of an input's accessory -/

section
variable {s : State} {n : Fin 16} {x : AinIn}

/-- The gain moves 1 dB towards its item (09 R248). -/
theorem ainGainStep_completes (live : s.live) (get : s.chip.ain.ins[n.val]? = some x) :
    Completes (.ainGainStep n) s [.ain] fun c =>
      ∃ g, c.ain = { s.chip.ain with ins := s.chip.ain.ins.set n.val { x with gain := g } } ∧
        (x.gain < s.chip.itN (item 0x0A n.val 1) → g = x.gain + 1) ∧
        (s.chip.itN (item 0x0A n.val 1) < x.gain → g + 1 = x.gain) ∧
        (x.gain = s.chip.itN (item 0x0A n.val 1) → g = x.gain) := by
  refine completes_of_effect _ (exec_ainGainStep n) live (Chip.onAinIn_of_get (c := s.chip.begin) get _)
    (.setAin (by decide) (.refl _ _)) ⟨_, Chip.settle_ain _, fun below => if_pos below, fun above => ?_, fun there => ?_⟩
  · rw [Chip.begin_itN, if_neg (Nat.lt_asymm above), if_pos above]
    omega
  · rw [Chip.begin_itN, if_neg there.not_lt, if_neg there.not_gt]

/-- An overload switches the bias off (09 R249). -/
theorem biasOverload_completes (live : s.live) (get : s.chip.ain.ins[n.val]? = some x) (on : s.chip.biasOn n.val = true) :
    Completes (.biasOverload n) s [.ain, .err] fun c =>
      c.ain = { s.chip.ain with ins := s.chip.ain.ins.set n.val { x with overload := true, biasOvl := true } } ∧
        c.biasOn n.val = false ∧ c.err = s.chip.recorded 0x0D05 .note n.val := by
  refine completes_of_effect _ (exec_biasOverload n) live
    (c := (s.chip.begin.setAin n.val { x with overload := true, biasOvl := true }).raise 0x0D05 .note n.val) ?_
    (.raise (by decide) (.setAin (by decide) (.refl _ _))) ⟨Chip.settle_ain _, ?_, Chip.settle_raise_err (c := s.chip) rfl rfl⟩
  · rw [← Chip.onAinIn_of_get (c := s.chip.begin) get fun y => { y with overload := true, biasOvl := true }]
    exact if_pos on
  · refine Chip.biasOn_eq_false (x := { x with overload := true, biasOvl := true }) ?_ (.inr rfl)
    rw [Chip.settle_ain]
    exact Chip.setAin_get (c := s.chip.begin) get

/-- Input x after its DET contact has become d: a removal mutes it from this sample, and an insertion ends an overload of
its bias (09 R249, R250). -/
def AinIn.detects (d : Deb) (first : Nat) (x : AinIn) : AinIn :=
  if d.state then { x with det := d, removed := false, mutedFrom := none, overload := false }
  else { x with det := d, removed := true, mutedFrom := some first }

/-- Input x after its DET contact has changed at this scan, with the class in force (09 R250, R251, R253). -/
def AinIn.detected (scan limit first : Nat) (x : AinIn) : AinIn := (x.detects (x.det.flip scan limit false).1 first).settle scan

/-- The part after the DET contact of input n changed, before the change is reported. -/
def Chip.detChange (n : Nat) (x : AinIn) (c : Chip) : Chip :=
  let limit := c.itN (item 0x0A n 6)
  let e := c.setAin n (x.detected c.ain.scans limit (c.sampleNow + 1))
  if (x.det.flip c.ain.scans limit false).2 then e.raise 0x0D02 .note n else e

theorem Chip.keeps.detChange {L : List Piece} {a c : Chip} {n : Nat} (m : Piece.ain ∈ L) (e : Piece.err ∈ L) (h : a.keeps L c) :
    a.keeps L (c.detChange n x) :=
  .ite (.raise e (.setAin m h)) (.setAin m h)

theorem Chip.detChange_ain {c : Chip} {n : Nat} : (c.detChange n x).ain = { c.ain with
    ins := c.ain.ins.set n (x.detected c.ain.scans (c.itN (item 0x0A n 6)) (c.sampleNow + 1)) } := by
  unfold Chip.detChange
  dsimp only
  split <;> rfl

/-- What becomes of an input whose DET contact changed (09 R249 to R251). -/
structure AinIn.DetChanged (x : AinIn) (first : Nat) (y : AinIn) : Prop where
  state : y.det.state = !x.det.state
  gain : y.gain = x.gain
  removal : x.det.state = true → y.removed = true ∧ y.mutedFrom = some first
  insertion : x.det.state = false → y.removed = false ∧ y.overload = false
  cls : y.inserted = false → y.cls = 0

theorem AinIn.detChanged (scan limit first : Nat) :
    x.DetChanged first (x.detected scan limit first) := by
  obtain ⟨cls, cand, buttons, stuck, settled, -, none⟩ :=
    AinIn.settle_shape scan (x.detects (x.det.flip scan limit false).1 first)
  have det : (x.detects (x.det.flip scan limit false).1 first).det = (x.det.flip scan limit false).1 := by
    unfold AinIn.detects
    split <;> rfl
  rw [AinIn.detected, settled]
  refine ⟨?state, ?gain, fun inserted => ?removal, fun removed => ?insertion, none⟩
  case state => rw [det, Deb.flip_state]
  case gain =>
    unfold AinIn.detects
    split <;> rfl
  case removal => simp [AinIn.detects, inserted]
  case insertion => simp [AinIn.detects, removed]

/-- INSERTION_CHANGE of a DET contact that has held changes the input, then reports. -/
theorem execInsertionChange_eq (get : s.chip.ain.ins[n.val]? = some x) (held : 20 ≤ x.det.count) :
    ∃ f, execInsertionChange n s = act f s ∧
      f s.chip.begin = (s.chip.begin.detChange n.val x).ainReport n.val x := by
  refine ⟨_, rfl, ?_⟩
  simp only [Chip.ainIn_of_get (c := s.chip.begin) get, if_neg (Nat.not_lt.mpr held)]
  refine congrArg (Chip.ainReport n.val x) ?_
  unfold Chip.detChange
  dsimp only
  split
  · exact congrArg (Chip.raise 0x0D02 .note n.val none) (Chip.onAinIn_onAinIn (c := s.chip.begin) get _ _)
  · exact Chip.onAinIn_onAinIn (c := s.chip.begin) get _ _

/-- An insertion or a removal (09 R250, R251, R254). -/
theorem insertionChange_completes (live : s.live) (get : s.chip.ain.ins[n.val]? = some x) (held : 20 ≤ x.det.count) :
    Completes (.insertionChange n) s [.ain, .err] fun c =>
      ∃ y ev at_, c.ain = { s.chip.ain with ins := s.chip.ain.ins.set n.val y, event := ev, eventBlk := at_ } ∧
        y.det.state = !x.det.state ∧ y.gain = x.gain ∧
        (x.det.state = true → y.removed = true ∧ c.biasOn n.val = false ∧ y.mutedFrom = some (s.chip.sampleNow + 1)) ∧
        (x.det.state = false → y.removed = false ∧ y.overload = false) ∧ (y.inserted = false → y.cls = 0) ∧
        (y.inserted ≠ x.inserted → ev = s.chip.ain.event ||| BitVec.ofNat 32 (2 ^ n.val) ∧ at_ = s.chip.ain.scanBlk) := by
  obtain ⟨f, run, effect⟩ := execInsertionChange_eq get held
  have y := AinIn.detChanged (x := x) s.chip.ain.scans (s.chip.itN (item 0x0A n.val 6)) (s.chip.sampleNow + 1)
  have ain := Chip.detChange_ain (x := x) (c := s.chip.begin) (n := n.val)
  obtain ⟨ev, at_, report, event⟩ := Chip.ainReport_ain n.val x (s.chip.begin.detChange n.val x)
  rw [ain] at report event
  refine completes_of_effect f (exec_insertionChange n |>.trans run) live effect
    (.ainReport (by decide) (.detChange (by decide) (by decide) (.refl _ _)))
    ⟨_, ev, at_, (Chip.settle_ain _).trans report, y.state, y.gain, fun inserted => ?_, y.insertion, y.cls, fun changed => ?_⟩
  · obtain ⟨removed, muted⟩ := y.removal inserted
    refine ⟨removed, Chip.biasOn_eq_false ?_ (.inl removed), muted⟩
    rw [Chip.settle_ain, report]
    exact set_get get _
  · refine event ?_
    rwa [Chip.ainIn_of_get (by rw [ain]; exact set_get get _)]

/-- A class that has held is in force, and reported; SHORT raises a NOTE (09 R251, R254). -/
theorem classChange_completes (live : s.live) (get : s.chip.ain.ins[n.val]? = some x) (held : 100 ≤ x.cand.2)
    (other : x.cand.1 ≠ x.cls) (inserted : x.inserted = true) :
    Completes (.classChange n) s [.ain, .err] fun c =>
      ∃ y, c.ain = { s.chip.ain with
          ins := s.chip.ain.ins.set n.val y, event := s.chip.ain.event ||| BitVec.ofNat 32 (2 ^ n.val)
          eventBlk := s.chip.ain.scanBlk } ∧
        y.cls = x.cand.1 ∧ y.det = x.det ∧
        c.err = if x.cand.1 = 5 then s.chip.recorded 0x0D04 .note n.val else s.chip.err := by
  obtain ⟨y, settled, cls, det⟩ : ∃ y, AinIn.settle s.chip.ain.scans { x with cls := x.cand.1 } = y ∧
      y.cls = x.cand.1 ∧ y.det = x.det := by
    obtain ⟨cls, cand, buttons, stuck, settled, own, -⟩ := AinIn.settle_shape s.chip.ain.scans { x with cls := x.cand.1 }
    exact ⟨_, settled, own inserted, rfl⟩
  have shown : s.chip.begin.onAinIn n.val (fun y => { y with cls := y.cand.1 }.settle s.chip.ain.scans) =
      s.chip.begin.setAin n.val y := (Chip.onAinIn_of_get (c := s.chip.begin) get _).trans (by rw [settled])
  have reported : ∀ d : Chip, d.ain = (s.chip.begin.setAin n.val y).ain → d.ainReport n.val x = d.ainEvent n.val := fun d ain =>
    Chip.ainReport_of_cls (x := y) (by rw [ain]; exact Chip.setAin_get (c := s.chip.begin) get) (cls ▸ other)
  have waited : ¬(x.cand.2 < 100 ∨ x.cand.1 = x.cls ∨ (!x.inserted) = true) := by simp [held, other, inserted]
  have begun : s.chip.begin.ainIn n.val = x := Chip.ainIn_of_get get
  refine completes_of_effect _ (exec_classChange n) live
    (c := (if x.cand.1 = 5 then (s.chip.begin.setAin n.val y).raise 0x0D04 .note n.val
      else s.chip.begin.setAin n.val y).ainEvent n.val) ?_
    (.ainEvent (by decide) (.ite (.raise (by decide) (.setAin (by decide) (.refl _ _))) (.setAin (by decide) (.refl _ _))))
    ⟨y, ?_, cls, det, ?_⟩
  · simp only [begun, if_neg waited, Chip.begin_ain, shown]
    refine reported _ ?_
    split <;> rfl
  · rw [Chip.settle_ain]
    split <;> rfl
  · split
    · exact Chip.settle_err_of_raise rfl rfl
    · exact Chip.settle_quiet (c := (s.chip.begin.setAin n.val y).ainEvent n.val) live.2.1

end

end Sys2Proof.Machine

namespace Sys2Proof.Machine

/-- Settles O13: each clause is the lemma on its command. -/
theorem accessoryInputs : Obligations.AccessoryInputs := by
  unfold Obligations.AccessoryInputs
  intro s n x live get
  exact ⟨ainGainStep_completes live get, biasOverload_completes live get, insertionChange_completes live get,
    classChange_completes live get⟩

end Sys2Proof.Machine

namespace Sys2Proof.Machine

/-! STUCK under a CHATTER guard (09 R253): the declaration leaves the guard of the button as it was -/

@[simp] theorem Chip.ainReport_ins (n : Nat) (b : AinIn) (c : Chip) : (c.ainReport n b).ain.ins = c.ain.ins := by
  obtain ⟨ev, at_, report, -⟩ := c.ainReport_ain n b
  rw [report]

/-- STUCK of a button that is due changes the STUCK bits of its input, and nothing else of it. -/
theorem Completes.stuck_ins {s : State} {n : Fin 16} {k : Fin 4} {x : AinIn} {b : Deb} {named : List Piece} {P : Chip → Prop}
    (completes : Completes (.stuck n k) s named P) (live : s.live) (get : s.chip.ain.ins[n.val]? = some x)
    (button : x.buttons[k.val]? = some b) (pressed : b.state = true) (fresh : x.stuck.getLsbD k.val = false)
    (due : b.since + 1000 * s.chip.itN (item 0x0A n.val 5) ≤ s.chip.ain.scans) :
    ∃ c, P c ∧ c.ain.ins[n.val]? = some { x with stuck := x.stuck ||| BitVec.ofNat 4 (2 ^ k.val) } := by
  obtain ⟨t, run, -, -, -, holds⟩ := completes
  have declares : (b.state && !x.stuck.getLsbD k.val &&
      decide (b.since + 1000 * s.chip.begin.itN (item 0x0A n.val 5) ≤ s.chip.ain.scans)) = true := by
    rw [pressed, fresh]
    exact decide_eq_true due
  rw [exec_stuck, execStuck, act_live _ live.1] at run
  simp only [Chip.ainIn_of_get (c := s.chip.begin) get, getD_of_get button, Chip.begin_ain, declares, if_true] at run
  obtain rfl := Host.Outcome.next.inj run
  refine ⟨_, holds, ?_⟩
  rw [Chip.settle_ain, Chip.ainReport_ins]
  exact Chip.onAinIn_get (c := s.chip.begin) get _

/-- A button that went on and off twelve times, 20 scans apart, and has stayed pressed since scan 2000: its CHATTER guard,
which began at the eleventh change, reports it pressed. -/
def chatteringButton : Deb := {
  state := true, since := 2000, chatter := some (true, 11980)
  changes := (List.range 12).map fun i => { scan := 2000 - 20 * i, before := i % 2 = 1 } }

/-- A call station with that button. -/
def chatteringStation : AinIn := {
  det := { state := true }, cls := 3, cand := (3, 100), buttons := [chatteringButton, {}, {}, {}] }

/-- The button is at AIN_0, where ain.ptt_max_hold is 1 s, and has been held for that long. -/
def State.stuckInChatter : State :=
  let c := State.reset.chip
  { State.reset with chip := { c with
      sys := { c.sys with now := { c.sys.now with items := [(item 0x0A 0 5, 1)] } }
      ain := { c.ain with scans := 3000, ins := c.ain.ins.set 0 chatteringStation } } }

theorem State.stuckInChatter_live : State.stuckInChatter.live := ⟨rfl, rfl, rfl⟩

theorem State.stuckInChatter_due : chatteringButton.since + 1000 * State.stuckInChatter.chip.itN (item 0x0A (0 : Fin 16).val 5) ≤
    State.stuckInChatter.chip.ain.scans := by decide +kernel

/-- Refutes O14: STUCK of a button whose CHATTER guard reports it pressed leaves that guard as it was, where the statement
makes it report the button released. -/
theorem not_callStationButtons : ¬ Obligations.CallStationButtons := by
  unfold Obligations.CallStationButtons
  intro h
  obtain ⟨-, stuck, -, -⟩ := h State.stuckInChatter 0 0 chatteringStation chatteringButton State.stuckInChatter_live rfl rfl
  obtain ⟨c, ⟨y, ev, at_, ain, released, -, -⟩, kept⟩ := (stuck rfl (by decide) State.stuckInChatter_due).stuck_ins
    (x := chatteringStation) State.stuckInChatter_live rfl rfl rfl (by decide) State.stuckInChatter_due
  have same : some y = some { chatteringStation with stuck := 1 } := by
    rw [ain] at kept
    exact kept
  rw [released] at same
  exact absurd (congrArg AinIn.buttons (Option.some.inj same)) (by decide)

end Sys2Proof.Machine

namespace Sys2Proof.Machine

/-! Supervised contacts (09 R255, R256) -/

section
variable {c : Chip} {k : Nat} {x y z : Contact}

/-- The part with contact k in this state. -/
def Chip.setContact (k : Nat) (y : Contact) (c : Chip) : Chip := c.onAin fun a => { a with contacts := a.contacts.set k y }

theorem Chip.onContact_of_get (get : c.ain.contacts[k]? = some x) (f : Contact → Contact) :
    c.onContact k f = c.setContact k (f x) := by
  simp [Chip.onContact, Chip.setContact, Chip.onAin, lmod_of_get get]

theorem Chip.setContact_get (get : c.ain.contacts[k]? = some x) : (c.setContact k y).ain.contacts[k]? = some y := set_get get y

theorem Chip.setContact_setContact : (c.setContact k y).setContact k z = c.setContact k z := by
  simp [Chip.setContact, Chip.onAin]

theorem Chip.keeps.setContact {L : List Piece} {a : Chip} (m : Piece.ain ∈ L) (h : a.keeps L c) : a.keeps L (c.setContact k y) :=
  .onAin m h

/-- The state that a contact is to report: its CHATTER guard holds the state it had (09 R256). -/
def Contact.due (x : Contact) : Nat := (x.chatter.map Prod.fst).getD x.deb

/-- The debounced changes of the last 1000 scans (09 R253). -/
def Contact.recent (scan : Nat) (x : Contact) : List (Nat × Nat) := x.changes.filter fun h => scan < h.1 + 1000

theorem Chip.contactReport_of_same (get : c.ain.contacts[k]? = some x) (same : x.due = x.st) : c.contactReport k = c := by
  rw [Contact.due] at same
  rw [Chip.contactReport, getD_of_get get]
  cases guard : x.chatter <;> simp_all

/-- What a report of another state raises: the FAULT 0x0D10 for OPEN or SHORT, and the NOTE 0x0D11 for the return from them
(09 R256). -/
def Chip.contactRaise (k old new : Nat) (c : Chip) : Chip :=
  if new = 2 ∨ new = 3 then c.raise 0x0D10 .fault k else if old = 2 ∨ old = 3 then c.raise 0x0D11 .note k else c

theorem Chip.contactReport_of_ne (get : c.ain.contacts[k]? = some x) (other : x.due ≠ x.st) :
    c.contactReport k = ((c.setContact k { x with st := x.due }).ainEvent 16).contactRaise k x.st x.due := by
  rw [Contact.due] at *
  rw [Chip.contactReport, getD_of_get get]
  cases guard : x.chatter <;> simp_all [Chip.contactRaise, Chip.onContact_of_get get]

@[simp] theorem Chip.contactRaise_ain (k old new : Nat) : (c.contactRaise k old new).ain = c.ain := by
  unfold Chip.contactRaise
  split
  · rfl
  · split <;> rfl

theorem Chip.keeps.contactRaise {L : List Piece} {a : Chip} {old new : Nat} (m : Piece.err ∈ L) (h : a.keeps L c) :
    a.keeps L (c.contactRaise k old new) := .ite (.raise m h) (.ite (.raise m h) h)

/-- The records after the report of another state. -/
theorem Chip.settle_contactRaise_err {d : Chip} (old new : Nat) (err : c.err = d.err) (sys : c.sys = d.sys)
    (quiet : c.err.raising = []) : (c.contactRaise k old new).settle.err =
      if new = 2 ∨ new = 3 then d.recorded 0x0D10 .fault k
      else if old = 2 ∨ old = 3 then d.recorded 0x0D11 .note k else d.err := by
  unfold Chip.contactRaise
  split
  · exact Chip.settle_raise_err err sys
  · split
    · exact Chip.settle_raise_err err sys
    · rw [Chip.settle_quiet quiet, err]

end

end Sys2Proof.Machine

namespace Sys2Proof.Machine

/-! The clauses of the contacts -/

section
variable {s : State} {k : Fin 32} {x : Contact}

/-- The contact after a debounced change of its state (09 R255). -/
def Contact.debounced (scan : Nat) (x : Contact) : Contact :=
  { x with deb := x.cand.1, changes := (scan, x.deb) :: x.recent scan }

/-- A debounced change that no guard holds back is reported, with its FAULT or NOTE (09 R255, R256). -/
theorem contactStateChange_completes (live : s.live) (get : s.chip.ain.contacts[k.val]? = some x)
    (enabled : s.chip.itB (item 0x0A (0x10 + k.val) 1) = true) (held : 20 ≤ x.cand.2) (other : x.cand.1 ≠ x.deb)
    (unguarded : x.chatter = none)
    (calm : (x.recent s.chip.ain.scans).length < s.chip.itN (item 0x0A (0x10 + k.val) 2)) (shown : x.st = x.deb) :
    Completes (.contactStateChange k) s [.ain, .err] fun c =>
      ∃ y, c.ain = { s.chip.ain with
        contacts := s.chip.ain.contacts.set k.val y, event := s.chip.ain.event ||| BitVec.ofNat 32 (2 ^ 16)
        eventBlk := s.chip.ain.scanBlk } ∧
        y.deb = x.cand.1 ∧ y.st = x.cand.1 ∧ y.loop_ = x.loop_ ∧
        (x.cand.1 = 2 ∨ x.cand.1 = 3 → c.err = s.chip.recorded 0x0D10 .fault k.val) ∧
        (¬(x.cand.1 = 2 ∨ x.cand.1 = 3) → x.st = 2 ∨ x.st = 3 → c.err = s.chip.recorded 0x0D11 .note k.val) ∧
        (¬(x.cand.1 = 2 ∨ x.cand.1 = 3) → ¬(x.st = 2 ∨ x.st = 3) → c.err = s.chip.err) := by
  have due : (x.debounced s.chip.ain.scans).due = x.cand.1 := by simp [Contact.due, Contact.debounced, unguarded]
  have report := Chip.contactReport_of_ne (x := x.debounced s.chip.ain.scans) (Chip.setContact_get (c := s.chip.begin) get)
    (by rw [due]; exact shown ▸ other)
  rw [due, Chip.setContact_setContact] at report
  have err := Chip.settle_contactRaise_err (k := k.val) (d := s.chip) (x.debounced s.chip.ain.scans).st x.cand.1
    (c := (s.chip.begin.setContact k.val { x.debounced s.chip.ain.scans with st := x.cand.1 }).ainEvent 16) rfl rfl live.2.1
  refine completes_of_effect _ (exec_contactStateChange k) live (Eq.trans ?_ report)
    (.contactRaise (by decide) (.ainEvent (by decide) (.setContact (by decide) (.refl _ _))))
    ⟨{ x.debounced s.chip.ain.scans with st := x.cand.1 }, ?_, rfl, rfl, rfl, fun bad => ?_,
      fun good was => ?_, fun good was => ?_⟩
  · have waited : ¬((!s.chip.itB (item 0x0A (0x10 + k.val) 1)) = true ∨ x.cand.2 < 20 ∨ x.cand.1 = x.deb) := by
      simp [enabled, held, other]
    have begun : s.chip.begin.ain.contacts.getD k.val {} = x := getD_of_get get _
    simp only [begun]
    refine (if_neg waited).trans (congrArg (Chip.contactReport k.val) ((Chip.onContact_of_get (c := s.chip.begin) get _).trans
      (congrArg (fun y => s.chip.begin.setContact k.val y) (if_neg ?_))))
    rw [Bool.and_eq_true, decide_eq_true_eq]
    exact fun ⟨_, chatters⟩ => absurd calm (Nat.not_lt.mpr (Nat.le_of_lt_succ chatters))
  · rw [Chip.settle_ain, Chip.contactRaise_ain]
    rfl
  · rw [err, if_pos bad]
  · exact err.trans ((if_neg good).trans (if_pos was))
  · exact err.trans ((if_neg good).trans (if_neg was))

/-- CHATTER_END of a contact whose guard has run out: the guard ends where the changes have, goes on else, and the contact
reports (09 R253, R256). -/
theorem execChatterEnd_contact {q : Nat × Nat} (get : s.chip.ain.contacts[k.val]? = some x) (guard : x.chatter = some q)
    (ended : q.2 ≤ s.chip.ain.scans) : ∃ f, execChatterEnd (.contact k) s = act f s ∧
      f s.chip.begin = (s.chip.begin.setContact k.val
        (if (x.recent s.chip.ain.scans).length ≤ s.chip.itN (item 0x0A (0x10 + k.val) 2) then { x with chatter := none }
        else { x with chatter := some (q.1, q.2 + 10000) })).contactReport k.val := by
  refine ⟨_, rfl, congrArg (Chip.contactReport k.val) ((Chip.onContact_of_get (c := s.chip.begin) get _).trans ?_)⟩
  refine congrArg (fun y => s.chip.begin.setContact k.val y) ?_
  simp only [guard]
  exact if_neg (Nat.not_lt.mpr ended)

/-- A CHATTER guard goes on while changes go on (09 R253, R256). -/
theorem chatterEnd_contact_extends {q : Nat × Nat} (live : s.live) (get : s.chip.ain.contacts[k.val]? = some x)
    (guard : x.chatter = some q) (reports : q.1 = x.st) (ended : q.2 ≤ s.chip.ain.scans)
    (chatters : s.chip.itN (item 0x0A (0x10 + k.val) 2) < (x.recent s.chip.ain.scans).length) :
    Completes (.chatterEnd (.contact k)) s [.ain, .err] fun c =>
      c.ain = { s.chip.ain with contacts := s.chip.ain.contacts.set k.val { x with chatter := some (q.1, q.2 + 10000) } } ∧
        c.err = s.chip.err := by
  obtain ⟨f, run, effect⟩ := execChatterEnd_contact get guard ended
  rw [if_neg (Nat.not_le.mpr chatters),
    Chip.contactReport_of_same (x := { x with chatter := some (q.1, q.2 + 10000) })
      (Chip.setContact_get (c := s.chip.begin) get) reports] at effect
  exact completes_of_effect f ((exec_chatterEnd _).trans run) live effect (.setContact (by decide) (.refl _ _))
    ⟨Chip.settle_ain _, Chip.settle_quiet live.2.1⟩

/-- A CHATTER guard that ends lets the debounced state be reported (09 R253, R256). -/
theorem chatterEnd_contact_ends {q : Nat × Nat} (live : s.live) (get : s.chip.ain.contacts[k.val]? = some x)
    (guard : x.chatter = some q) (ended : q.2 ≤ s.chip.ain.scans)
    (calm : (x.recent s.chip.ain.scans).length ≤ s.chip.itN (item 0x0A (0x10 + k.val) 2)) :
    Completes (.chatterEnd (.contact k)) s [.ain, .err] fun c =>
      ∃ y ev at_, c.ain = { s.chip.ain with contacts := s.chip.ain.contacts.set k.val y, event := ev, eventBlk := at_ } ∧
        y.chatter = none ∧ y.st = x.deb ∧ y.deb = x.deb := by
  obtain ⟨f, run, effect⟩ := execChatterEnd_contact get guard ended
  have get' := Chip.setContact_get (y := { x with chatter := none }) (c := s.chip.begin) get
  rw [if_pos calm] at effect
  by_cases same : x.deb = x.st
  · rw [Chip.contactReport_of_same get' same] at effect
    exact completes_of_effect f ((exec_chatterEnd _).trans run) live effect (.setContact (by decide) (.refl _ _))
      ⟨_, _, _, Chip.settle_ain _, rfl, same.symm, rfl⟩
  · rw [Chip.contactReport_of_ne get' same, Chip.setContact_setContact] at effect
    refine completes_of_effect f ((exec_chatterEnd _).trans run) live effect
      (.contactRaise (by decide) (.ainEvent (by decide) (.setContact (by decide) (.refl _ _))))
      ⟨{ x with chatter := none, st := x.deb }, s.chip.ain.event ||| BitVec.ofNat 32 (2 ^ 16), s.chip.ain.scanBlk, ?_,
        rfl, rfl, rfl⟩
    rw [Chip.settle_ain, Chip.contactRaise_ain]
    rfl

end

/-- Settles O15: each clause is the lemma on its command. -/
theorem supervisedContacts : Obligations.SupervisedContacts := by
  unfold Obligations.SupervisedContacts
  intro s k x live get
  exact ⟨contactStateChange_completes live get, fun q guard reports ended =>
    ⟨chatterEnd_contact_extends live get guard reports ended, chatterEnd_contact_ends live get guard ended⟩⟩

end Sys2Proof.Machine

namespace Sys2Proof.Machine

/-! Events of the supplies and PSU_ALERT_N (09 R258 to R260) -/

section
variable {c d : Chip}

/-- The mains have failed: no half-cycle counts as good (09 R258). -/
def Ain.failed (a : Ain) : Ain := { a with mainsFail := true, goodSince := none }

/-- An event of a supply: bit 17 of AIN_EVENT, and the conditions of PSU_ALERT_N (09 R254, R260). -/
theorem Chip.powerEvent_ain : c.powerEvent.ain = { c.ain with
    event := c.ain.event ||| BitVec.ofNat 32 (2 ^ 17), eventBlk := c.ain.scanBlk, psuCause := c.psuConditions
    psuAlert := decide (c.psuConditions &&& c.itN (item 0x0A 0x30 0x30) ≠ 0) || (c.ain.psuAlert && !false) } := rfl

theorem event_getLsbD_seventeen (w : Word) : (w ||| BitVec.ofNat 32 (2 ^ 17)).getLsbD 17 = true := by
  rw [BitVec.getLsbD_or, Bool.or_eq_true]
  exact .inr (by decide)

/-- LOW is one of the four conditions. -/
theorem Chip.psuConditions_of_low (low : c.ain.low.on = true) : c.psuConditions &&& 15 ≠ 0 := by
  have every : ∀ mains critical rail : Bool, (b2n mains + 2 * b2n true + 4 * b2n critical + 8 * b2n rail) &&& 15 ≠ 0 := by
    decide
  rw [Chip.psuConditions, low]
  exact every _ _ _

theorem Chip.mainsFails_of_failed (failed : c.ain.mainsFail = true) : c.mainsFails = c.onAin Ain.failed := if_pos failed

theorem Chip.mainsFails_of_good (good : c.ain.mainsFail = false) :
    c.mainsFails = ((c.onAin Ain.failed).raise 0x0D20 .fault).powerEvent := if_neg (by simp [good])

/-- MAINS_FAIL is declared once: what it leaves, and the event that comes with it (09 R258). -/
theorem Chip.mainsFails_ain (c : Chip) : ∃ ev eb cause alert,
    c.mainsFails.ain = { c.ain.failed with event := ev, eventBlk := eb, psuCause := cause, psuAlert := alert } ∧
      (c.ain.mainsFail = false → ev.getLsbD 17 = true) ∧ (c.ain.mainsFail = true → ev = c.ain.event) := by
  cases before : c.ain.mainsFail
  · rw [Chip.mainsFails_of_good before, Chip.powerEvent_ain]
    exact ⟨_, _, _, _, rfl, fun _ => event_getLsbD_seventeen _, nofun⟩
  · rw [Chip.mainsFails_of_failed before]
    exact ⟨_, _, _, _, rfl, nofun, fun _ => rfl⟩

theorem Chip.mainsFails_err_of_good (good : c.ain.mainsFail = false) : c.mainsFails.err = (c.raise 0x0D20 .fault).err := by
  rw [Chip.mainsFails_of_good good]
  rfl

theorem Chip.mainsFails_err_of_failed (failed : c.ain.mainsFail = true) : c.mainsFails.err = c.err := by
  rw [Chip.mainsFails_of_failed failed]
  rfl

@[simp] theorem Chip.mainsFails_sys : c.mainsFails.sys = c.sys :=
  (Chip.keeps.mainsFails (L := [.ain, .err]) (by decide) (by decide) (.refl _ c)).get_sys

@[simp] theorem Chip.mainsFails_itN (id : Nat) : c.mainsFails.itN id = c.itN id := by simp [Chip.itN, Chip.it]

theorem Chip.raise_err_congr {code n : Nat} {cls : Cls} (err : c.err = d.err) (sys : c.sys = d.sys) :
    (c.raise code cls n).err = (d.raise code cls n).err := by
  simp [Chip.raise, err, sys]

end

end Sys2Proof.Machine

namespace Sys2Proof.Machine

/-! The 1 kHz scan (09 R250, R251, R259) -/

section
variable {c : Chip} {x : ScanIn}

theorem Chip.keeps.ainScan {L : List Piece} {a : Chip} (m : Piece.ain ∈ L) (h : a.keeps L c) : a.keeps L (c.ainScan x) :=
  .psuAlert m (.onAin m h)

theorem Chip.ainScan_counts : (c.ainScan x).ain.scans = c.ain.scans + 1 ∧ (c.ainScan x).ain.scanBlk = c.sys.blk ∧
    (c.ainScan x).ain.event = c.ain.event ∧
      (c.ainScan x).ain.batt = min 0xFFFF (x.batt.toNat * c.itN (item 0x0A 0x30 4) / 4096) := by
  simp [Chip.ainScan, Chip.psuAlert]

/-- What a scan makes of an input that it measures. -/
theorem Chip.ainScan_ins {n : Nat} {y : AinIn} {q : Bool × Nat × Nat} (get : c.ain.ins[n]? = some y)
    (reading : x.inputs[n]? = some q) : ∃ z, (c.ainScan x).ain.ins[n]? = some z ∧
      z.rc = min 0xFFFF (q.2.1 / 10) ∧ z.rd = min 0xFFFF (q.2.2 / 10) ∧ z.det = y.det.scan q.1 ∧ z.cls = y.cls ∧
        z.cand.1 = classOf y.inserted q.2.1 q.2.2 := by
  obtain ⟨closed, rc, rd⟩ := q
  simp only [Chip.ainScan, Chip.psuAlert, Chip.onAin_ain, List.getElem?_mapIdx, get, Option.map_some, reading]
  refine ⟨_, rfl, ?_⟩
  refine ⟨rfl, rfl, rfl, rfl, ?_⟩
  split <;> rfl

end

end Sys2Proof.Machine

namespace Sys2Proof.Machine

/-! Half-cycles of the mains (09 R257, R258) -/

/-- The half-cycle that a zero crossing ends is bad: its RMS voltage is below ain.mains_low, or its frequency is outside
45 Hz to 65 Hz (09 R258). -/
def badCycle (v low : Nat) (freq : Option Nat) : Bool :=
  decide (v < low) || freq.any fun f => decide (f < 4500) || decide (6500 < f)

/-- What a zero crossing at t measured, and since when every half-cycle was good, where the one that it ends began then and
was bad, or not (09 R257, R258). -/
def Ain.crossed (v : Nat) (freq : Option Nat) (bad : Bool) (began t : Nat) (a : Ain) : Ain :=
  { a with
    vrms := min 0xFFF v, freq := (freq.map (min 0x1FFF)).getD a.freq
    goodSince := if bad then none else a.goodSince <|> some began, lastZc := some t }

/-- 15 ms have passed since the latest zero crossing (09 R258). -/
def Ain.overdue (t : Nat) (a : Ain) : Bool := a.lastZc.any fun z => decide (z + 15 * msClk ≤ t)

theorem Ain.overdue_of_le {a : Ain} {z t : Nat} (zc : a.lastZc = some z) (late : z + 15 * msClk ≤ t) : a.overdue t = true := by
  rw [Ain.overdue, zc, Option.any_some]
  exact decide_eq_true late

theorem Ain.not_overdue {a : Ain} {t : Nat} (early : ∀ z, a.lastZc = some z → t < z + 15 * msClk) : a.overdue t = false := by
  unfold Ain.overdue
  cases zc : a.lastZc with
  | none => rfl
  | some z =>
    rw [Option.any_some]
    exact decide_eq_false (Nat.not_le.mpr (early z zc))

/-- The part c with the mains failed: the failure is reported and recorded, and no input has changed. -/
structure Chip.MainsFailed (c d : Chip) : Prop where
  failed : d.ain.mainsFail = true
  event : d.ain.event.getLsbD 17 = true
  ins : d.ain.ins = c.ain.ins
  err : d.err = (c.raise 0x0D20 .fault).err
  sys : d.sys = c.sys

section
variable {c d : Chip}

@[simp] theorem Chip.mainsFails_ins : c.mainsFails.ain.ins = c.ain.ins := by
  obtain ⟨_, _, _, _, ain, -, -⟩ := c.mainsFails_ain
  rw [ain]
  rfl

@[simp] theorem Chip.mainsFails_lastZc : c.mainsFails.ain.lastZc = c.ain.lastZc := by
  obtain ⟨_, _, _, _, ain, -, -⟩ := c.mainsFails_ain
  rw [ain]
  rfl

@[simp] theorem Chip.mainsFails_vrms : c.mainsFails.ain.vrms = c.ain.vrms := by
  obtain ⟨_, _, _, _, ain, -, -⟩ := c.mainsFails_ain
  rw [ain]
  rfl

@[simp] theorem Chip.mainsFails_goodSince : c.mainsFails.ain.goodSince = none := by
  obtain ⟨_, _, _, _, ain, -, -⟩ := c.mainsFails_ain
  rw [ain]
  rfl

@[simp] theorem Chip.mainsFails_mainsFail : c.mainsFails.ain.mainsFail = true := by
  obtain ⟨_, _, _, _, ain, -, -⟩ := c.mainsFails_ain
  rw [ain]
  rfl

theorem Chip.MainsFailed.declared (good : d.ain.mainsFail = false) (ins : d.ain.ins = c.ain.ins) (err : d.err = c.err)
    (sys : d.sys = c.sys) : c.MainsFailed d.mainsFails := by
  obtain ⟨_, _, _, _, ain, event, -⟩ := d.mainsFails_ain
  refine ⟨Chip.mainsFails_mainsFail, ?_, Chip.mainsFails_ins.trans ins,
    (Chip.mainsFails_err_of_good good).trans (Chip.raise_err_congr err sys), Chip.mainsFails_sys.trans sys⟩
  rw [ain]
  exact event good

/-- A failure is declared once. -/
theorem Chip.MainsFailed.again (h : c.MainsFailed d) : c.MainsFailed d.mainsFails := by
  obtain ⟨_, _, _, _, ain, -, event⟩ := d.mainsFails_ain
  refine ⟨Chip.mainsFails_mainsFail, ?_, Chip.mainsFails_ins.trans h.ins, (Chip.mainsFails_err_of_failed h.failed).trans h.err,
    Chip.mainsFails_sys.trans h.sys⟩
  rw [ain]
  exact event h.failed ▸ h.event

theorem Chip.MainsFailed.crossed {v began t : Nat} {freq : Option Nat} {bad : Bool} (h : c.MainsFailed d) :
    c.MainsFailed (d.onAin (Ain.crossed v freq bad began t)) := ⟨h.failed, h.event, h.ins, h.err, h.sys⟩

theorem Chip.MainsFailed.settle_err (h : c.MainsFailed d) : d.settle.err = c.recorded 0x0D20 .fault :=
  Chip.settle_err_of_raise h.err h.sys

end

section
variable {s : State} {rms t v : Nat} {freq : Option Nat} {late bad : Bool}

/-- The RMS voltage of a half-cycle in volts, from the operand in 0.1 mV at the pin (09 R257, log 64). -/
def Chip.mainsVolts (rms : Nat) (c : Chip) : Nat := rms * c.itN (item 0x0A 0x30 1) / 500

/-- The part after a crossing at t that comes late, or not, and ends a bad half-cycle, or not. -/
def Chip.halfCycle (late bad : Bool) (v : Nat) (freq : Option Nat) (t : Nat) (c : Chip) : Chip :=
  let b := if late then c.mainsFails else c
  let began := if late then t else b.ain.lastZc.getD t
  let e := b.onAin (Ain.crossed v freq bad began t)
  if bad then e.mainsFails else e

/-- MAINS_HALF_CYCLE, once it is known whether its crossing is late and whether the half-cycle is bad. -/
theorem execMainsHalfCycle_eq (hl : s.chip.ain.overdue t = late)
    (hb : badCycle (s.chip.mainsVolts rms) (s.chip.itN (item 0x0A 0x30 2)) freq = bad) :
    ∃ f, execMainsHalfCycle rms freq t s = act f s ∧
      f s.chip.begin = (s.chip.begin.advance t).halfCycle late bad (s.chip.mainsVolts rms) freq t := by
  refine ⟨_, rfl, ?_⟩
  subst hl hb
  have items (id : Nat) : (if s.chip.ain.overdue t then (s.chip.begin.advance t).mainsFails else s.chip.begin.advance t).itN id =
      s.chip.itN id := by
    split <;> simp
  have overdue : ((s.chip.begin.advance t).ain.lastZc.any fun z => decide (z + 15 * msClk ≤ t)) = s.chip.ain.overdue t := by
    rw [Chip.advance_ain]
    rfl
  cases freq
  all_goals
    simp only [overdue, items]
    rfl

theorem Chip.keeps.halfCycle {L : List Piece} {a c : Chip} (m : Piece.ain ∈ L) (e : Piece.err ∈ L) (h : a.keeps L c) :
    a.keeps L (c.halfCycle late bad v freq t) :=
  have crossed := Chip.keeps.onAin m (Chip.keeps.ite (.mainsFails m e h) h)
  .ite (.mainsFails m e crossed) crossed

/-- A crossing that is late, or ends a bad half-cycle, declares a failure of good mains (09 R258). -/
theorem Chip.halfCycle_failed {c d : Chip} (good : d.ain.mainsFail = false) (ins : d.ain.ins = c.ain.ins) (err : d.err = c.err)
    (sys : d.sys = c.sys) (fails : late = true ∨ bad = true) : c.MainsFailed (d.halfCycle late bad v freq t) := by
  unfold Chip.halfCycle
  cases late <;> cases bad
  · simp at fails
  · exact .declared good ins err sys
  · exact (Chip.MainsFailed.declared good ins err sys).crossed
  · exact (Chip.MainsFailed.declared good ins err sys).crossed.again

theorem Chip.halfCycle_lastZc {c : Chip} : (c.halfCycle late bad v freq t).ain.lastZc = some t := by
  unfold Chip.halfCycle
  cases bad
  · rfl
  · exact Chip.mainsFails_lastZc

theorem Chip.halfCycle_vrms {c : Chip} : (c.halfCycle late bad v freq t).ain.vrms = min 0xFFF v := by
  unfold Chip.halfCycle
  cases bad
  · rfl
  · exact Chip.mainsFails_vrms

/-- A half-cycle below ain.mains_low (09 R258). -/
theorem mainsHalfCycle_low (live : s.live) (low : s.chip.mainsVolts rms < s.chip.itN (item 0x0A 0x30 2))
    (good : s.chip.ain.mainsFail = false) : CompletesAt (.mainsHalfCycle rms freq t) s t [.ain, .err] fun c =>
      c.ain.mainsFail = true ∧ c.ain.goodSince = none ∧ c.ain.lastZc = some t ∧ c.ain.event.getLsbD 17 = true ∧
        c.ain.vrms = min 0xFFF (s.chip.mainsVolts rms) ∧ c.ain.ins = s.chip.ain.ins ∧
        c.err = s.chip.recorded 0x0D20 .fault := by
  have bad : badCycle (s.chip.mainsVolts rms) (s.chip.itN (item 0x0A 0x30 2)) freq = true := by
    rw [badCycle, decide_eq_true low, Bool.true_or]
  obtain ⟨f, run, effect⟩ := execMainsHalfCycle_eq rfl bad
  have failed : s.chip.MainsFailed
      ((s.chip.begin.advance t).halfCycle (s.chip.ain.overdue t) true (s.chip.mainsVolts rms) freq t) :=
    Chip.halfCycle_failed (by simpa using good) (by simp) (by simp) (by simp) (.inr rfl)
  refine completesAt_of_effect f ((exec_mainsHalfCycle ..).trans run) live effect
    (.halfCycle (by decide) (by decide) (.refl _ _)) ?_
  rw [Chip.settle_ain]
  exact ⟨failed.failed, Chip.mainsFails_goodSince, Chip.halfCycle_lastZc, failed.event, Chip.halfCycle_vrms, failed.ins,
    failed.settle_err⟩

/-- A good half-cycle that the next crossing ends in time (09 R257, R258). -/
theorem mainsHalfCycle_good (live : s.live) (high : s.chip.itN (item 0x0A 0x30 2) ≤ s.chip.mainsVolts rms)
    (early : ∀ z, s.chip.ain.lastZc = some z → t < z + 15 * msClk) :
    CompletesAt (.mainsHalfCycle rms none t) s t [.ain] fun c =>
      c.ain = { s.chip.ain with
        vrms := min 0xFFF (s.chip.mainsVolts rms), goodSince := s.chip.ain.goodSince <|> some (s.chip.ain.lastZc.getD t)
        lastZc := some t } := by
  have good : badCycle (s.chip.mainsVolts rms) (s.chip.itN (item 0x0A 0x30 2)) none = false := by
    rw [badCycle, decide_eq_false (Nat.not_lt.mpr high)]
    rfl
  obtain ⟨f, run, effect⟩ := execMainsHalfCycle_eq (Ain.not_overdue early) good
  refine completesAt_of_effect f ((exec_mainsHalfCycle ..).trans run) live effect (.onAin (by decide) (.refl _ _)) ?_
  rw [Chip.settle_ain]
  simp only [Chip.halfCycle, Bool.false_eq_true, if_false, Chip.onAin_ain, Chip.advance_ain]
  rfl

/-- A crossing that comes 15 ms after the one before, or later (09 R258). -/
theorem mainsHalfCycle_late {z : Nat} (live : s.live) (zc : s.chip.ain.lastZc = some z) (late : z + 15 * msClk ≤ t)
    (good : s.chip.ain.mainsFail = false) : CompletesAt (.mainsHalfCycle rms freq t) s t [.ain, .err] fun c =>
      c.ain.mainsFail = true ∧ c.ain.lastZc = some t ∧ c.err = s.chip.recorded 0x0D20 .fault := by
  obtain ⟨f, run, effect⟩ := execMainsHalfCycle_eq (rms := rms) (freq := freq) (Ain.overdue_of_le zc late) rfl
  have failed : s.chip.MainsFailed ((s.chip.begin.advance t).halfCycle true
      (badCycle (s.chip.mainsVolts rms) (s.chip.itN (item 0x0A 0x30 2)) freq) (s.chip.mainsVolts rms) freq t) :=
    Chip.halfCycle_failed (by simpa using good) (by simp) (by simp) (by simp) (.inl rfl)
  refine completesAt_of_effect f ((exec_mainsHalfCycle ..).trans run) live effect
    (.halfCycle (by decide) (by decide) (.refl _ _)) ?_
  rw [Chip.settle_ain]
  exact ⟨failed.failed, Chip.halfCycle_lastZc, failed.settle_err⟩

end

end Sys2Proof.Machine

namespace Sys2Proof.Machine

/-! The clauses of the scans, the battery and the rails -/

section
variable {c d : Chip} {code n : Nat} {cls : Cls} {s : State}

/-- An update of the AIN block with a raise and the event of a supply, as the mains, the battery and the rails report. -/
theorem Chip.keeps.supplyEvent {L : List Piece} {a : Chip} {f : Ain → Ain} (m : Piece.ain ∈ L) (e : Piece.err ∈ L)
    (h : a.keeps L c) : a.keeps L ((c.onAin f).raise code cls n).powerEvent := .powerEvent m (.raise e (.onAin m h))

theorem Chip.settle_supplyEvent_err {f : Ain → Ain} (err : c.err = d.err) (sys : c.sys = d.sys) :
    ((c.onAin f).raise code cls n).powerEvent.settle.err = d.recorded code cls n :=
  Chip.settle_err_of_raise (Chip.raise_err_congr err sys) sys

/-- A scan takes what it measured (09 R250, R251, R259). -/
theorem ainScan_completes (x : ScanIn) (live : s.live) : CompletesAt (.ainScan x) s x.t [.ain] fun c =>
    c.ain.scans = s.chip.ain.scans + 1 ∧ c.ain.scanBlk = s.chip.sys.blk ∧ c.ain.event = s.chip.ain.event ∧
      c.ain.batt = min 0xFFFF (x.batt.toNat * s.chip.itN (item 0x0A 0x30 4) / 4096) ∧
      (∀ (n : Nat) (y : AinIn) (q : Bool × Nat × Nat), s.chip.ain.ins[n]? = some y → x.inputs[n]? = some q →
        ∃ z, c.ain.ins[n]? = some z ∧ z.rc = min 0xFFFF (q.2.1 / 10) ∧ z.rd = min 0xFFFF (q.2.2 / 10) ∧
          z.det = y.det.scan q.1 ∧ z.cls = y.cls ∧ z.cand.1 = classOf y.inserted q.2.1 q.2.2) := by
  refine completesAt_of_effect _ (exec_ainScan x) live rfl (.ainScan (by decide) (.refl _ _)) ?_
  obtain ⟨scans, blk, event, batt⟩ := Chip.ainScan_counts (c := s.chip.begin.advance x.t) (x := x)
  simp only [Chip.advance_ain, Chip.advance_sys, Chip.advance_itN, Chip.begin_ain, Chip.begin_sys, Chip.begin_itN]
    at scans blk event batt
  rw [Chip.settle_ain]
  exact ⟨scans, blk, event, batt, fun n y q get reading =>
    Chip.ainScan_ins (by rwa [Chip.advance_ain]) reading⟩

/-- 15 ms without a zero crossing (09 R258). -/
theorem mainsZcTimeout_completes {z t : Nat} (live : s.live) (zc : s.chip.ain.lastZc = some z) (late : z + 15 * msClk ≤ t)
    (good : s.chip.ain.mainsFail = false) : CompletesAt (.mainsZcTimeout t) s t [.ain, .err] fun c =>
      c.ain.mainsFail = true ∧ c.ain.goodSince = none ∧ c.ain.lastZc = none ∧ c.err = s.chip.recorded 0x0D20 .fault := by
  have failed : s.chip.MainsFailed (s.chip.begin.advance t).mainsFails :=
    .declared (by simpa using good) (by simp) (by simp) (by simp)
  refine completesAt_of_effect _ (exec_mainsZcTimeout t) live
    (c := (s.chip.begin.advance t).mainsFails.onAin fun a => { a with lastZc := none }) (if_pos ?_)
    (.onAin (by decide) (.mainsFails (by decide) (by decide) (.refl _ _))) ?_
  · rw [Chip.advance_ain]
    exact Ain.overdue_of_le zc late
  · rw [Chip.settle_ain]
    exact ⟨failed.failed, Chip.mainsFails_goodSince, rfl, Chip.settle_err_of_raise failed.err failed.sys⟩

/-- The mains were good for ain.mains_restore (09 R258). -/
theorem mainsRestore_completes {f z t : Nat} (live : s.live) (fails : s.chip.ain.mainsFail = true)
    (since : s.chip.ain.goodSince = some f) (zc : s.chip.ain.lastZc = some z)
    (restored : f + s.chip.itN (item 0x0A 0x30 3) * msClk ≤ z) : CompletesAt (.mainsRestore t) s t [.ain, .err] fun c =>
      c.ain.mainsFail = false ∧ c.ain.goodSince = some f ∧ c.err = s.chip.recorded 0x0D21 .note := by
  refine completesAt_of_effect _ (exec_mainsRestore t) live
    (c := (((s.chip.begin.advance t).onAin fun a => { a with mainsFail := false }).raise 0x0D21 .note).powerEvent) ?_
    (.supplyEvent (by decide) (by decide) (.refl _ _)) ⟨?_, ?_, Chip.settle_supplyEvent_err (by simp) (by simp)⟩
  · simp only [Chip.advance_ain, Chip.begin_ain, fails, since, zc, Chip.advance_itN, Chip.begin_itN]
    exact if_pos restored
  · rw [Chip.settle_ain]
    rfl
  · rw [Chip.settle_ain]
    exact (congrArg Ain.goodSince (Chip.advance_ain t s.chip.begin)).trans since

/-- The battery becomes LOW (09 R259, R260). -/
theorem batteryCondition_low (live : s.live) (off : s.chip.ain.low.on = false) (held : 100 ≤ s.chip.ain.low.set) :
    Completes (.batteryCondition false) s [.ain, .err] fun c =>
      c.ain.low.on = true ∧ c.ain.critical = s.chip.ain.critical ∧ c.err = s.chip.recorded 0x0D22 .fault ∧
        (s.chip.itN (item 0x0A 0x30 0x30) = 15 → c.ain.psuAlert = true) := by
  refine completes_of_effect _ (exec_batteryCondition false) live
    (c := ((s.chip.begin.onAin fun a => { a with low := { on := true } }).raise 0x0D22 .fault).powerEvent) ?_
    (.supplyEvent (by decide) (by decide) (.refl _ _))
    ⟨?_, ?_, Chip.settle_supplyEvent_err rfl rfl, fun all => ?_⟩
  · simp only [Bool.false_eq_true, if_false, Chip.begin_ain, off, Bool.not_false, Bool.true_and, decide_eq_true_eq, if_pos held]
  · rw [Chip.settle_ain]
    rfl
  · rw [Chip.settle_ain]
    rfl
  · rw [Chip.settle_ain, Chip.powerEvent_ain, Bool.or_eq_true]
    refine .inl (decide_eq_true ?_)
    have mask : ((s.chip.begin.onAin fun a => { a with low := { on := true } }).raise 0x0D22 .fault).itN
        (item 0x0A 0x30 0x30) = 15 := all
    rw [mask]
    exact Chip.psuConditions_of_low rfl

/-- The battery is no more CRITICAL (09 R259). -/
theorem batteryCondition_notCritical (live : s.live) (on : s.chip.ain.critical.on = true)
    (held : 100 ≤ s.chip.ain.critical.clear) : Completes (.batteryCondition true) s [.ain, .err] fun c =>
      c.ain.critical.on = false ∧ c.ain.low = s.chip.ain.low ∧ c.err = s.chip.recorded 0x0D24 .note := by
  refine completes_of_effect _ (exec_batteryCondition true) live
    (c := ((s.chip.begin.onAin fun a => { a with critical := { on := false } }).raise 0x0D24 .note).powerEvent) ?_
    (.supplyEvent (by decide) (by decide) (.refl _ _)) ⟨?_, ?_, Chip.settle_supplyEvent_err rfl rfl⟩
  · simp only [if_true, Chip.begin_ain, on, Bool.not_true, Bool.false_and, Bool.false_eq_true, if_false, Bool.true_and,
      decide_eq_true_eq, if_pos held]
  · rw [Chip.settle_ain]
    rfl
  · rw [Chip.settle_ain]
    rfl

/-- The rail after it left its window or came back (09 R259). -/
def RailSense.turned (y : RailSense) : RailSense := { y with out := !y.out, count := 0 }

/-- A rail leaves its window, or comes back (09 R259). -/
theorem railWindow_completes {r : Fin 8} {q : RailSense} (live : s.live) (get : s.chip.ain.rails[r.val]? = some q)
    (held : 3 ≤ q.count) : Completes (.railWindow r) s [.ain, .err] fun c =>
      c.ain.rails = s.chip.ain.rails.set r.val { q with out := !q.out, count := 0 } ∧ c.ain.ins = s.chip.ain.ins ∧
        c.err = if q.out then s.chip.recorded 0x0D24 .note r.val else s.chip.recorded 0x0D23 .fault r.val := by
  have begun : s.chip.begin.ain.rails.getD r.val {} = q := getD_of_get get _
  obtain ⟨f, run, effect⟩ : ∃ f, Sys2Proof.Machine.exec (.railWindow r) s = act f s ∧
      f s.chip.begin = ((s.chip.begin.onAin fun a => { a with rails := lmod a.rails r.val RailSense.turned }).raise
        (if q.out then 0x0D24 else 0x0D23) (if q.out then .note else .fault) r.val).powerEvent := by
    refine ⟨_, exec_railWindow r, ?_⟩
    simp only [begun, if_neg (Nat.not_lt.mpr held)]
    cases q.out <;> rfl
  refine completes_of_effect f run live effect (.supplyEvent (by decide) (by decide) (.refl _ _)) ⟨?_, ?_, ?_⟩
  · rw [Chip.settle_ain]
    exact lmod_of_get get RailSense.turned
  · rw [Chip.settle_ain]
    rfl
  · refine (Chip.settle_supplyEvent_err (c := s.chip.begin) (d := s.chip) rfl rfl).trans ?_
    cases q.out <;> rfl

end

/-- Settles O16: each clause is the lemma on its command. -/
theorem supplySense : Obligations.SupplySense := by
  unfold Obligations.SupplySense
  intro s live
  exact ⟨fun x => ainScan_completes x live, fun rms freq t => mainsHalfCycle_low live,
    fun rms t => mainsHalfCycle_good live,
    fun z t zc late good => ⟨mainsZcTimeout_completes live zc late good, fun rms freq => mainsHalfCycle_late live zc late good⟩,
    fun f z t => mainsRestore_completes live, batteryCondition_low live, batteryCondition_notCritical live,
    fun r q => railWindow_completes live⟩

end Sys2Proof.Machine

namespace Sys2Proof.Machine

/-! What the commands on one channel run (10 R267 to R270) -/

section
variable {s : State} (m : Fin 64)

theorem exec_channelTrip (driver : Bool) (t : Nat) :
    Sys2Proof.Machine.exec (.channelTrip m driver t) s = execChannelTrip m driver t s := by rfl

theorem exec_tripReport : Sys2Proof.Machine.exec (.tripReport m) s = execTripReport m s := by rfl

theorem exec_retryStart : Sys2Proof.Machine.exec (.retryStart m) s = execRetryStart m s := by rfl

theorem exec_retryEnd : Sys2Proof.Machine.exec (.retryEnd m) s = execRetryEnd m s := by rfl

theorem exec_rampUpComplete : Sys2Proof.Machine.exec (.rampUpComplete m) s = execRampUpComplete m s := by rfl

theorem exec_disableRampEnd : Sys2Proof.Machine.exec (.disableRampEnd m) s = execDisableRampEnd m s := by rfl

theorem exec_playAttemptReset : Sys2Proof.Machine.exec (.playAttemptReset m) s = execPlayAttemptReset m s := by rfl

end

end Sys2Proof.Machine

namespace Sys2Proof.Machine

/-! One channel changes, and errors may be raised: what playing a block and the end of an alarm do (10 R265, R280) -/

section
variable {L : List Piece} {a c d e : Chip} {m n before : Nat} {x y z : ModCh}

/-- d is c with y as its channel m, and with what has been raised meanwhile. -/
def Chip.SetsMod (m : Nat) (y : ModCh) (c d : Chip) : Prop := ∃ r, d = (c.setMod m y).onErr fun _ => r

theorem Chip.setsMod_setMod : c.SetsMod m y (c.setMod m y) := ⟨c.err, rfl⟩

/-- A part sets a channel to what it is. -/
theorem Chip.setMod_of_get (get : c.pow.ch[m]? = some x) : c.setMod m x = c := by
  obtain ⟨_, at_m⟩ := List.getElem?_eq_some_iff.mp get
  have same : c.pow.ch.set m x = c.pow.ch := at_m ▸ List.set_getElem_self _
  rw [Chip.setMod, Chip.onPow, same]

theorem Chip.setsMod_self (get : c.pow.ch[m]? = some x) : c.SetsMod m x c := ⟨c.err, by rw [Chip.setMod_of_get get]; rfl⟩

theorem Chip.SetsMod.raise {code k : Nat} {cls : Cls} {b : Option Nat} (h : c.SetsMod m y d) :
    c.SetsMod m y (d.raise code cls k b) := by
  obtain ⟨r, rfl⟩ := h
  exact ⟨_, rfl⟩

theorem Chip.SetsMod.raiseFirst {code key k : Nat} {cls : Cls} (h : c.SetsMod m y d) :
    c.SetsMod m y (d.raiseFirst code cls key k) := by
  unfold Chip.raiseFirst
  split
  · exact h
  · obtain ⟨r, rfl⟩ := h
    exact ⟨_, rfl⟩

theorem Chip.SetsMod.trans (h : c.SetsMod m y d) (k : d.SetsMod m z e) : c.SetsMod m z e := by
  obtain ⟨r, rfl⟩ := h
  obtain ⟨r', rfl⟩ := k
  refine ⟨r', ?_⟩
  change ((c.setMod m y).setMod m z).onErr (fun _ => r') = _
  rw [Chip.setMod_setMod]

theorem Chip.SetsMod.get (h : c.SetsMod m y d) (get : c.pow.ch[m]? = some x) : d.pow.ch[m]? = some y := by
  obtain ⟨r, rfl⟩ := h
  exact Chip.setMod_get get

theorem Chip.SetsMod.pow (h : c.SetsMod m y d) : d.pow = { c.pow with ch := c.pow.ch.set m y } := by
  obtain ⟨r, rfl⟩ := h
  rfl

theorem Chip.keeps.setsMod (n : Piece.pow ∈ L) (e : Piece.err ∈ L) (sets : c.SetsMod m y d) (h : a.keeps L c) : a.keeps L d := by
  obtain ⟨r, rfl⟩ := sets
  exact .onErr e (.setMod n h)

/-- What playing a block may change of a channel: its samples, its gains and what it counts as clipped (10 R265). -/
def ModCh.Played (x y : ModCh) : Prop :=
  ∃ drive gain lrGain clips clipSeen,
    y = { x with drive := drive, gain := gain, lrGain := lrGain, clips := clips, clipSeen := clipSeen }

theorem Chip.modClips_setsMod (get : c.pow.ch[m]? = some x) (hits : Nat) :
    ∃ y, x.Played y ∧ c.SetsMod m y (c.modClips m hits) := by
  unfold Chip.modClips
  split
  · exact ⟨x, ⟨_, _, _, _, _, rfl⟩, Chip.setsMod_self get⟩
  · rw [Chip.onMod_of_get get]
    exact ⟨_, ⟨_, _, _, _, _, rfl⟩, Chip.setsMod_setMod.raiseFirst⟩

theorem ModCh.Played.trans (h : x.Played y) (k : y.Played z) : x.Played z := by
  obtain ⟨_, _, _, _, _, rfl⟩ := h
  obtain ⟨_, _, _, _, _, rfl⟩ := k
  exact ⟨_, _, _, _, _, rfl⟩

/-- A change of the samples and the gains, and then the count of the clips. -/
theorem Chip.onMod_modClips_setsMod (get : c.pow.ch[m]? = some x) {f : ModCh → ModCh} (plays : x.Played (f x)) (hits : Nat) :
    ∃ y, x.Played y ∧ c.SetsMod m y ((c.onMod m f).modClips m hits) := by
  rw [Chip.onMod_of_get get]
  obtain ⟨y, played, sets⟩ := Chip.modClips_setsMod (c := c.setMod m (f x)) (Chip.setMod_get get) hits
  exact ⟨y, plays.trans played, Chip.setsMod_setMod.trans sets⟩

/-- A channel that switches, with qualified clocks and its input, plays its block. -/
theorem Chip.modPlay_setsMod (get : c.pow.ch[m]? = some x) (on : x.st.switching = true) (qualified : c.pow.clockHeld = false)
    (present : c.pow.inputLost = false) : ∃ y, x.Played y ∧ c.SetsMod m y (c.modPlay n m) := by
  simp only [Chip.modPlay, Chip.modCh_of_get get, on, qualified, present, Bool.not_true, Bool.false_eq_true, or_self, if_false]
  exact Chip.onMod_modClips_setsMod get ⟨_, _, _, _, _, rfl⟩ _

theorem Chip.modReplay_setsMod (get : c.pow.ch[m]? = some x) : ∃ y, x.Played y ∧ c.SetsMod m y (c.modReplay m before) := by
  unfold Chip.modReplay
  split
  · exact ⟨x, ⟨_, _, _, _, _, rfl⟩, Chip.setsMod_self get⟩
  · exact Chip.onMod_modClips_setsMod get ⟨_, _, _, _, _, rfl⟩ _

theorem Chip.alarmEnds_setsMod (get : c.pow.ch[m]? = some x) : c.SetsMod m { x with zAlarm := false } (c.alarmEnds m) := by
  cases alarm : x.zAlarm with
  | true =>
    rw [Chip.alarmEnds_of_get get alarm]
    exact Chip.setsMod_setMod.raise
  | false =>
    have idle : c.alarmEnds m = c := by simp [Chip.alarmEnds, Chip.modCh_of_get get, alarm]
    rw [idle, ← alarm]
    exact Chip.setsMod_self get

end

/-- A command that does no more than change one channel and raise errors. -/
theorem completes_of_setsMod {i : Instr} {s : State} {m : Nat} {y : ModCh} {P : ModCh → Prop} (f : Chip → Chip)
    (run : Sys2Proof.Machine.exec i s = act f s) (live : s.live) (sets : s.chip.begin.SetsMod m y (f s.chip.begin)) (holds : P y) :
    Completes i s [.pow, .err] fun c => ∃ y, c.pow = { s.chip.pow with ch := s.chip.pow.ch.set m y } ∧ P y :=
  completes_of_effect f run live rfl (.setsMod (by decide) (by decide) sets (.refl _ _))
    ⟨y, (Chip.settle_pow _).trans sets.pow, holds⟩

end Sys2Proof.Machine

namespace Sys2Proof.Machine

/-! Trips and failed attempts (10 R267, R269, R277) -/

theorem lmod_get {α : Type} {l : List α} {n : Nat} {x : α} (h : l[n]? = some x) (f : α → α) : (lmod l n f)[n]? = some (f x) := by
  rw [lmod_of_get h, set_get h]

section
variable {L : List Piece} {a c d : Chip} {m n : Nat} {x : ModCh} {driver : Bool}

/-- The state that a channel enters with n attempts used: LOCKED_OUT once they are all used (10 R269). -/
def Chip.trippedSt (m n : Nat) (c : Chip) : ModSt := if c.modIt m 6 ≤ n then .lockedOut else .tripped

@[simp] theorem Chip.advance_trippedSt (t : Nat) : (c.advance t).trippedSt m n = c.trippedSt m n := by
  simp [Chip.trippedSt]

/-- LOCKED_OUT has its FAULT (10 R269). -/
def Chip.lockFault (m n : Nat) (c : Chip) : Chip := if c.modIt m 6 ≤ n then c.raise 0x0E02 .fault m else c

@[simp] theorem Chip.lockFault_pow : (c.lockFault m n).pow = c.pow := by
  rw [Chip.lockFault, apply_ite Chip.pow, Chip.raise_pow, ite_self]

@[simp] theorem Chip.lockFault_sys : (c.lockFault m n).sys = c.sys := by
  rw [Chip.lockFault, apply_ite Chip.sys, Chip.raise_sys, ite_self]

@[simp] theorem Chip.lockFault_clk : (c.lockFault m n).clk = c.clk := by
  rw [Chip.lockFault, apply_ite Chip.clk, Chip.raise_clk, ite_self]

theorem Chip.keeps.lockFault (e : Piece.err ∈ L) (h : a.keeps L c) : a.keeps L (c.lockFault m n) := .ite (.raise e h) h

theorem Chip.keeps.railHold {k : Nat} (p : Piece.pow ∈ L) (h : a.keeps L c) : a.keeps L (c.railHold k) := .onPow p h

/-- The state and the records where an attempt or a trip leaves n attempts used. -/
theorem Chip.lockFault_outcome (err : d.err = (a.lockFault m n).err) (sys : d.sys = c.sys) (from_err : a.err = c.err)
    (from_sys : a.sys = c.sys) (quiet : c.err.raising = []) :
    (c.modIt m 6 ≤ n → c.trippedSt m n = .lockedOut ∧ d.settle.err = c.recorded 0x0E02 .fault m) ∧
      (n < c.modIt m 6 → c.trippedSt m n = .tripped ∧ d.settle.err = c.err) := by
  have item : a.modIt m 6 = c.modIt m 6 := by simp [Chip.modIt, Chip.itN, Chip.it, from_sys]
  unfold Chip.lockFault at err
  rw [item] at err
  refine ⟨fun used => ⟨if_pos used, ?_⟩, fun free => ⟨if_neg (Nat.not_le.mpr free), ?_⟩⟩
  · rw [if_pos used] at err
    exact Chip.settle_err_of_raise (err.trans (Chip.raise_err_congr from_err from_sys)) sys
  · rw [if_neg (Nat.not_le.mpr free), from_err] at err
    exact (Chip.settle_quiet (err ▸ quiet)).trans err

/-- A channel after a failed attempt or a trip that leaves n attempts used (10 R269). -/
def ModCh.failed (m n : Nat) (c : Chip) (x : ModCh) : ModCh := { x.off (c.trippedSt m n) c with attempts := n }

theorem Chip.modTripped_of_get (get : c.pow.ch[m]? = some x) (attempt : Bool) : c.modTripped m attempt =
    (c.setMod m (x.failed m (x.attempts + b2n attempt) c)).lockFault m (x.attempts + b2n attempt) := by
  simp only [Chip.modTripped, Chip.modCh_of_get get, Chip.onMod_of_get get]
  rfl

/-- MOD_CH.CAUSE of a trip (10 R267). -/
def tripCause (driver : Bool) : Nat := if driver then 2 else 1

/-- A trip notes its cause, and awaits its report (10 R267). -/
def ModCh.caused (driver : Bool) (x : ModCh) : ModCh := { x with cause := tripCause driver, flt := x.flt || driver }
def ModCh.awaits (driver : Bool) (b : Nat) (x : ModCh) : ModCh := { x with unreported := some (tripCause driver, b) }

/-- The part once channel m, which was x, has tripped with n attempts used, before the trip awaits its report. -/
def Chip.tripped (m n : Nat) (x : ModCh) (c : Chip) : Chip :=
  ((c.setMod m (x.failed m n c)).lockFault m n).railHold (m / 8)

@[simp] theorem Chip.tripped_sys : (c.tripped m n x).sys = c.sys := Chip.lockFault_sys

theorem Chip.tripped_pow : (c.tripped m n x).pow = { c.pow with
    ch := c.pow.ch.set m (x.failed m n c)
    rails := lmod c.pow.rails (m / 8) fun r =>
      { r with hold := some c.clk, set := 10 * c.railIt (m / 8) 2, duty := c.railDuty (m / 8) (10 * c.railIt (m / 8) 2) } } := by
  simp only [Chip.tripped, Chip.railHold, Chip.onPow_pow, Chip.lockFault_pow, Chip.lockFault_clk, Chip.railDuty, Chip.railIt,
    Chip.itN, Chip.it, Chip.lockFault_sys]
  rfl

theorem Chip.tripped_setMod_pow {y : ModCh} : ((c.tripped m n x).setMod m y).pow = { c.pow with
    ch := c.pow.ch.set m y
    rails := lmod c.pow.rails (m / 8) fun r =>
      { r with hold := some c.clk, set := 10 * c.railIt (m / 8) 2, duty := c.railDuty (m / 8) (10 * c.railIt (m / 8) 2) } } := by
  rw [Chip.setMod, Chip.onPow_pow, Chip.tripped_pow]
  simp only [List.set_set]

theorem Chip.keeps.tripped (p : Piece.pow ∈ L) (e : Piece.err ∈ L) (h : a.keeps L c) : a.keeps L (c.tripped m n x) :=
  .railHold p (.lockFault e (.setMod p h))

/-- A trip of a channel that switches (10 R267). -/
theorem Chip.modTrip_of_switching (get : c.pow.ch[m]? = some x) (on : x.st.switching = true)
    (used : n = x.attempts + b2n (x.st = .retry)) : c.modTrip m driver =
      (c.tripped m n (x.caused driver)).setMod m (((x.caused driver).failed m n c).awaits driver c.sys.blk) := by
  subst used
  have trips : c.modTrip m driver =
      let d := ((c.onMod m (ModCh.caused driver)).modTripped m ((c.modCh m).st = .retry)).railHold (m / 8)
      d.onMod m (ModCh.awaits driver d.sys.blk) := if_neg (by simp [Chip.modCh_of_get get, on])
  have failed := Chip.modTripped_of_get (Chip.setMod_get (y := x.caused driver) get) (x.st = .retry)
  rw [Chip.setMod_setMod] at failed
  have channel : (c.tripped m (x.attempts + b2n (x.st = .retry)) (x.caused driver)).pow.ch[m]? =
      some ((x.caused driver).failed m (x.attempts + b2n (x.st = .retry)) c) := by
    rw [Chip.tripped_pow]
    exact set_get get _
  rw [Chip.onMod_of_get get, Chip.modCh_of_get get, failed] at trips
  refine trips.trans ((Chip.onMod_of_get channel _).trans ?_)
  rw [← Chip.tripped_sys (c := c)]
  rfl

end

end Sys2Proof.Machine

namespace Sys2Proof.Machine

/-! The clauses of the channel states -/

section
variable {s : State} {m : Fin 64} {x : ModCh}

/-- A command that completes with one effect completes with what follows from it. -/
theorem Completes.imp {i : Instr} {named : List Piece} {P Q : Chip → Prop} (h : Completes i s named P) (k : ∀ c, P c → Q c) :
    Completes i s named Q := by
  obtain ⟨u, run, pending, ham, frame, holds⟩ := h
  exact ⟨u, run, pending, ham, frame, k _ holds⟩

/-- A command that does nothing. -/
theorem completes_of_idle {i : Instr} {named : List Piece} {P : Chip → Prop} (f : Chip → Chip)
    (run : Sys2Proof.Machine.exec i s = act f s) (live : s.live) (idle : f s.chip.begin = s.chip.begin)
    (holds : P s.chip.begin.settle) : Completes i s named P :=
  completes_of_effect f run live idle (.refl _ _) holds

/-- The protection trips a channel that switches (10 R267, R269, R277). -/
theorem channelTrip_completes {driver : Bool} {t n : Nat} (live : s.live) (get : s.chip.pow.ch[m.val]? = some x)
    (on : x.st.switching = true) (used : n = x.attempts + b2n (x.st = .retry)) :
    CompletesAt (.channelTrip m driver t) s t [.pow, .err] fun c => ∃ y,
      c.pow.ch = s.chip.pow.ch.set m.val y ∧ c.pow.trip = s.chip.pow.trip ∧ y.attempts = n ∧
        y.cause = tripCause driver ∧ y.flt = (x.flt || driver) ∧ y.drive = [] ∧ y.since = s.chip.sys.blk ∧
        y.unreported = some (y.cause, s.chip.sys.blk) ∧
        (s.chip.modIt m.val 6 ≤ n → y.st = .lockedOut ∧ c.err = s.chip.recorded 0x0E02 .fault m.val) ∧
        (n < s.chip.modIt m.val 6 → y.st = .tripped ∧ c.err = s.chip.err) ∧
        ∀ r, s.chip.pow.rails[m.val / 8]? = some r → ∃ d, c.pow.rails[m.val / 8]? = some { r with
          hold := some (max s.chip.clk t), set := 10 * s.chip.railIt (m.val / 8) 2, duty := d } := by
  have get' : (s.chip.begin.advance t).pow.ch[m.val]? = some x := by rwa [Chip.advance_pow]
  refine completesAt_of_effect _ (exec_channelTrip m driver t) live
    (Chip.modTrip_of_switching (driver := driver) get' on used)
    (.setMod (by decide) (.tripped (by decide) (by decide) (.refl _ _)))
    ⟨((x.caused driver).failed m n (s.chip.begin.advance t)).awaits driver (s.chip.begin.advance t).sys.blk, ?_⟩
  obtain ⟨locks, stays⟩ := Chip.lockFault_outcome (m := m.val) (n := n)
    (d := ((s.chip.begin.advance t).tripped m n (x.caused driver)).setMod m
      (((x.caused driver).failed m n (s.chip.begin.advance t)).awaits driver (s.chip.begin.advance t).sys.blk))
    rfl (Chip.tripped_sys.trans (Chip.advance_sys ..)) (Chip.advance_err ..) (Chip.advance_sys ..) live.2.1
  have state : (((x.caused driver).failed m n (s.chip.begin.advance t)).awaits driver (s.chip.begin.advance t).sys.blk).st =
      s.chip.trippedSt m n := Chip.advance_trippedSt t
  rw [Chip.settle_pow, Chip.tripped_setMod_pow, Chip.advance_pow, Chip.advance_clk, Chip.advance_railIt, state]
  refine ⟨rfl, rfl, rfl, rfl, rfl, rfl, ?_, ?_, locks, stays, fun r rail => ⟨_, lmod_get rail _⟩⟩
  · exact congrArg Sys.blk (Chip.advance_sys ..)
  · rw [Chip.advance_sys]
    rfl

/-- The CORE side records a trip in a block after it, while XQ_8 speaks (10 R267). -/
theorem tripReport_completes {cause b : Nat} (live : s.live) (get : s.chip.pow.ch[m.val]? = some x)
    (awaits : x.unreported = some (cause, b)) (later : b < s.chip.sys.blk) (speaks : s.chip.sys.xqSilent.getLsbD 8 = false) :
    Completes (.tripReport m) s [.pow, .err] fun c =>
      c.pow = { s.chip.pow with
        ch := s.chip.pow.ch.set m.val { x with unreported := none, trips := x.trips + 1 }
        trip := s.chip.pow.trip ||| BitVec.ofNat 64 (2 ^ m.val) } ∧
      c.err = s.chip.recorded (if cause = 2 then 0x0E06 else 0x0E01) .note m.val := by
  refine completes_of_effect _ (exec_tripReport m) live
    (c := ((s.chip.begin.setMod m { x with unreported := none, trips := x.trips + 1 }).onPow fun p =>
      { p with trip := p.trip ||| BitVec.ofNat 64 (2 ^ m.val) }).raise (if cause = 2 then 0x0E06 else 0x0E01) .note m) ?_
    (.raise (by decide) (.onPow (by decide) (.setMod (by decide) (.refl _ _))))
    ⟨Chip.settle_pow _, Chip.settle_raise_err (c := s.chip) rfl rfl⟩
  have due : ¬(s.chip.begin.sys.blk ≤ b ∨ s.chip.begin.sys.xqSilent.getLsbD 8 = true) :=
    not_or.mpr ⟨Nat.not_le.mpr later, Bool.eq_false_iff.mp speaks⟩
  simp only [Chip.modCh_of_get (c := s.chip.begin) get, awaits, if_neg due, Chip.onMod_of_get (c := s.chip.begin) get]

/-- TRIPPED has lasted for mod.retry_interval: RETRY begins, and its block plays (10 R269, R270). -/
theorem retryStart_completes (live : s.live) (get : s.chip.pow.ch[m.val]? = some x) (tripped : x.st = .tripped)
    (normal : s.chip.err.safe = false) (qualified : s.chip.pow.clockHeld = false) (present : s.chip.pow.inputLost = false)
    (due : x.sinceClk + s.chip.modIt m.val 5 * msClk ≤ s.chip.sys.tickAt) :
    Completes (.retryStart m) s [.pow, .err] fun c => ∃ y,
      c.pow = { s.chip.pow with ch := s.chip.pow.ch.set m.val y } ∧ y.st = .retry ∧ y.attempts = x.attempts ∧
        y.since = s.chip.sys.blk ∧ y.forced = false ∧ y.extra = some {
          freq := s.chip.modIt m.val 0x11
          first := s.chip.sys.blk + s.chip.W / 100
          last := s.chip.sys.blk + s.chip.W / 10 } := by
  have effect : ∃ f, Sys2Proof.Machine.exec (.retryStart m) s = act f s ∧
      f s.chip.begin = (s.chip.begin.setMod m (x.retry m s.chip.begin)).modPlay s.chip.sys.blk m := by
    refine ⟨_, exec_retryStart m, ?_⟩
    have starts : (x.st = .tripped && !s.chip.begin.err.safe && !s.chip.begin.pow.clockHeld && !s.chip.begin.pow.inputLost &&
        x.sinceClk + s.chip.begin.modIt m 5 * msClk ≤ s.chip.begin.sys.tickAt) = true := by
      simp only [Chip.begin_err, Chip.begin_pow, tripped, normal, qualified, present, decide_true, Bool.not_false, Bool.and_self,
        Bool.true_and]
      exact decide_eq_true due
    simp only [Chip.modCh_of_get (c := s.chip.begin) get, if_pos starts, Chip.onMod_of_get (c := s.chip.begin) get]
    rfl
  obtain ⟨f, run, retries⟩ := effect
  obtain ⟨y, ⟨_, _, _, _, _, rfl⟩, plays⟩ := Chip.modPlay_setsMod (n := s.chip.sys.blk)
    (Chip.setMod_get (c := s.chip.begin) (y := x.retry m s.chip.begin) get) rfl qualified present
  have sets := Chip.setsMod_setMod.trans plays
  rw [← retries] at sets
  exact completes_of_setsMod f run live sets ⟨rfl, rfl, rfl, rfl, rfl⟩

/-- The gain has reached 1.0: PLAY (10 R269). -/
theorem rampUpComplete_completes (live : s.live) (get : s.chip.pow.ch[m.val]? = some x) (ramps : x.st = .rampUp)
    (enabled : x.disabling = false) (present : s.chip.pow.inputLost = false) (ended : x.gain.r = 0) :
    Completes (.rampUpComplete m) s [.pow, .err] fun c =>
      c.pow = { s.chip.pow with ch := s.chip.pow.ch.set m.val { x with
        st := .play, since := s.chip.sys.blk, sinceClk := s.chip.clk, disabling := false, fromRetry := false } } ∧
      c.err = if x.fromRetry then s.chip.recorded 0x0E03 .note m.val else s.chip.err := by
  have effect : ∃ f, Sys2Proof.Machine.exec (.rampUpComplete m) s = act f s ∧ f s.chip.begin =
      let d := s.chip.begin.setMod m { x.enter .play s.chip.begin with fromRetry := false }
      if x.fromRetry then d.raise 0x0E03 .note m else d := by
    refine ⟨_, exec_rampUpComplete m, ?_⟩
    have plays : (x.st = .rampUp && !x.disabling && !s.chip.begin.pow.inputLost && x.gain.r = 0) = true := by
      simp [ramps, enabled, present, ended]
    simp only [Chip.modCh_of_get (c := s.chip.begin) get, if_pos plays, Chip.onMod_of_get (c := s.chip.begin) get]
  obtain ⟨f, run, plays⟩ := effect
  cases retried : x.fromRetry
  all_goals rw [retried] at plays
  · exact completes_of_effect f run live plays (.setMod (by decide) (.refl _ _))
      ⟨Chip.settle_pow _, Chip.settle_quiet live.2.1⟩
  · exact completes_of_effect f run live plays (.raise (by decide) (.setMod (by decide) (.refl _ _)))
      ⟨Chip.settle_pow _, Chip.settle_raise_err (c := s.chip) rfl rfl⟩

/-- A command that makes one change of its channel, and no more. -/
theorem completes_of_onMod {i : Instr} {g : Chip → ModCh → ModCh} {y : ModCh}
    (run : Sys2Proof.Machine.exec i s = act (fun c => c.onMod m (g c)) s) (live : s.live)
    (get : s.chip.pow.ch[m.val]? = some x) (change : g s.chip.begin x = y) :
    Completes i s [.pow] fun c => c.pow = { s.chip.pow with ch := s.chip.pow.ch.set m.val y } := by
  subst change
  exact completes_of_effect _ run live (Chip.onMod_of_get (c := s.chip.begin) get _) (.setMod (by decide) (.refl _ _))
    (Chip.settle_pow _)

/-- The ramp to 0 of a disable has ended: OFF (10 R269). -/
theorem disableRampEnd_completes (live : s.live) (get : s.chip.pow.ch[m.val]? = some x) (on : x.st.switching = true)
    (disabling : x.disabling = true) (present : s.chip.pow.inputLost = false) (ended : x.gain.r = 0) :
    Completes (.disableRampEnd m) s [.pow] fun c =>
      c.pow = { s.chip.pow with ch := s.chip.pow.ch.set m.val (x.off .off s.chip.begin) } :=
  completes_of_onMod (exec_disableRampEnd m) live get (if_pos (by simp [on, disabling, present, ended]))

/-- 60 s in PLAY (10 R269). -/
theorem playAttemptReset_completes (live : s.live) (get : s.chip.pow.ch[m.val]? = some x) (plays : x.st = .play)
    (due : x.since + 60 * s.chip.W ≤ s.chip.sys.blk) : Completes (.playAttemptReset m) s [.pow] fun c =>
      c.pow = { s.chip.pow with ch := s.chip.pow.ch.set m.val { x with attempts := 0 } } := by
  have minute : (x.st = .play && x.since + 60 * s.chip.begin.W ≤ s.chip.begin.sys.blk) = true :=
    (Bool.and_eq_true ..).mpr ⟨decide_eq_true plays, decide_eq_true due⟩
  exact completes_of_onMod (exec_playAttemptReset m) live get (if_pos minute)

/-- While the input is lost the channel states are held (10 R273). -/
theorem channel_held_of_inputLost (live : s.live) (get : s.chip.pow.ch[m.val]? = some x) (lost : s.chip.pow.inputLost = true) :
    ∀ i ∈ [Instr.retryStart m, .retryEnd m, .rampUpComplete m, .disableRampEnd m],
      Completes i s [.pow] fun c => c.pow = s.chip.pow := by
  have same : s.chip.begin.settle.pow = s.chip.pow := Chip.settle_pow _
  simp only [List.forall_mem_cons, List.not_mem_nil, false_imp_iff, implies_true, and_true]
  refine ⟨?retryStart, ?retryEnd, ?rampUpComplete, ?disableRampEnd⟩
  case retryStart => exact completes_of_idle _ (exec_retryStart m) live (if_neg (by simp [lost])) same
  case retryEnd => exact completes_of_idle _ (exec_retryEnd m) live (if_pos (.inr (.inr (.inl lost)))) same
  case rampUpComplete => exact completes_of_idle _ (exec_rampUpComplete m) live (if_neg (by simp [lost])) same
  case disableRampEnd =>
    refine completes_of_idle _ (exec_disableRampEnd m) live ?_ same
    rw [Chip.onMod_of_get (c := s.chip.begin) get, if_neg (by simp [lost])]
    exact Chip.setMod_of_get get

end

/-! A retry ends (10 R270) -/

section
variable {s : State} {m : Fin 64} {x : ModCh} {q : Meas} {z : ZRes}

/-- The 100 ms of channel m in RETRY have passed, and its measurement q has the result z. -/
structure RetryEnds (s : State) (m : Fin 64) (x : ModCh) (q : Meas) (z : ZRes) : Prop where
  live : s.live
  channel : s.chip.pow.ch[m.val]? = some x
  retries : x.st = .retry
  enabled : x.disabling = false
  present : s.chip.pow.inputLost = false
  measurable : s.chip.coldOverlap = false
  due : x.since + s.chip.W / 10 ≤ s.chip.sys.blk
  extra : x.extra = some q
  result : z = q.result (s.chip.modIt m.val 2) (s.chip.modIt m.val 3) q.ok true

/-- The channel x with the result of its retry, and in RAMP_UP after it. -/
def ModCh.retried (z : ZRes) (x : ModCh) : ModCh := { x with z := z, extra := none }
def ModCh.recovers (m : Nat) (c : Chip) (x : ModCh) : ModCh := { x.ramp retryGain m c with fromRetry := true }

theorem RetryEnds.effect (h : RetryEnds s m x q z) : ∃ f before, Sys2Proof.Machine.exec (.retryEnd m) s = act f s ∧
    f s.chip.begin =
      if z.valid && s.chip.inRange m.val z then
        ((s.chip.begin.setMod m ((x.retried z).recovers m s.chip.begin)).modReplay m before).alarmEnds m
      else (s.chip.begin.setMod m (x.retried z)).modTripped m true := by
  refine ⟨_, clipHits (s.chip.begin.modAmp s.chip.begin.sys.blk m), exec_retryEnd m, ?_⟩
  have now : ¬(x.st ≠ .retry ∨ x.disabling = true ∨ s.chip.begin.pow.inputLost = true ∨ s.chip.begin.coldOverlap = true ∨
      s.chip.begin.sys.blk < x.since + s.chip.begin.W / 10) := by
    have measurable : s.chip.begin.coldOverlap = false := h.measurable
    have due : x.since + s.chip.begin.W / 10 ≤ s.chip.sys.blk := h.due
    simp [h.retries, h.enabled, h.present, measurable, due]
  have shows := Chip.onMod_of_get (c := s.chip.begin) h.channel (ModCh.retried z)
  have recovers := Chip.onMod_of_get (Chip.setMod_get (c := s.chip.begin) (y := x.retried z) h.channel)
    (ModCh.recovers m s.chip.begin)
  rw [Chip.setMod_setMod] at recovers
  have result : q.result (s.chip.begin.modIt m.val 2) (s.chip.begin.modIt m.val 3) q.ok true = z := h.result.symm
  rw [← recovers, ← shows]
  simp only [Chip.modCh_of_get (c := s.chip.begin) h.channel, if_neg now, h.extra, Option.getD_some, result,
    Bool.and_assoc]
  rfl

/-- A valid result in range: RAMP_UP, and its block plays with the ramp (10 R269, R270, R280). -/
theorem RetryEnds.recovers (h : RetryEnds s m x q z) (valid : z.valid = true) (low : s.chip.modIt m.val 8 ≤ z.mag)
    (high : z.mag ≤ s.chip.modIt m.val 9) : Completes (.retryEnd m) s [.pow, .err] fun c => ∃ y,
      c.pow = { s.chip.pow with ch := s.chip.pow.ch.set m.val y } ∧ y.st = .rampUp ∧ y.fromRetry = true ∧ y.z = z ∧
        y.zAlarm = false ∧ y.extra = none ∧ y.attempts = x.attempts := by
  obtain ⟨f, before, run, effect⟩ := h.effect
  have within : s.chip.inRange m.val z = true := by simp [Chip.inRange, low, high]
  rw [if_pos (by simp [valid, within])] at effect
  have ramps := Chip.setMod_get (c := s.chip.begin) (y := (x.retried z).recovers m s.chip.begin) h.channel
  obtain ⟨y, ⟨_, _, _, _, _, rfl⟩, plays⟩ := Chip.modReplay_setsMod (before := before) ramps
  have sets := Chip.setsMod_setMod.trans (plays.trans (Chip.alarmEnds_setsMod (plays.get ramps)))
  rw [← effect] at sets
  exact completes_of_setsMod f run h.live sets ⟨rfl, rfl, rfl, rfl, rfl, rfl⟩

/-- A result that is invalid or out of range: the attempt has failed (10 R269, R270). -/
theorem RetryEnds.fails (h : RetryEnds s m x q z)
    (bad : z.valid = false ∨ z.mag < s.chip.modIt m.val 8 ∨ s.chip.modIt m.val 9 < z.mag) :
    Completes (.retryEnd m) s [.pow, .err] fun c => ∃ y,
      c.pow = { s.chip.pow with ch := s.chip.pow.ch.set m.val y } ∧ y.attempts = x.attempts + 1 ∧ y.z = z ∧
        (s.chip.modIt m.val 6 ≤ x.attempts + 1 → y.st = .lockedOut ∧ c.err = s.chip.recorded 0x0E02 .fault m.val) ∧
        (x.attempts + 1 < s.chip.modIt m.val 6 → y.st = .tripped ∧ c.err = s.chip.err) := by
  obtain ⟨f, before, run, effect⟩ := h.effect
  have unfit : ¬ (z.valid && s.chip.inRange m.val z) = true := by
    simp only [Chip.inRange, Bool.and_eq_true, decide_eq_true_eq, not_and, not_le]
    rcases bad with invalid | small | large
    · simp [invalid]
    · exact fun _ enough => absurd small (Nat.not_lt.mpr enough)
    · exact fun _ _ => large
  rw [if_neg unfit, Chip.modTripped_of_get (Chip.setMod_get (c := s.chip.begin) h.channel), Chip.setMod_setMod] at effect
  obtain ⟨locks, stays⟩ := Chip.lockFault_outcome (c := s.chip) (m := m.val) (n := x.attempts + 1)
    (d := (s.chip.begin.setMod m ((x.retried z).failed m (x.attempts + 1) s.chip.begin)).lockFault m (x.attempts + 1))
    rfl Chip.lockFault_sys rfl rfl h.live.2.1
  refine completes_of_effect f run h.live effect (.lockFault (by decide) (.setMod (by decide) (.refl _ _)))
    ⟨(x.retried z).failed m (x.attempts + 1) s.chip.begin, ?_, rfl, rfl, locks, stays⟩
  rw [Chip.settle_pow, Chip.lockFault_pow]
  rfl

end

/-- Settles O27: each clause is the lemma on its command. -/
theorem channelStates : Obligations.ChannelStates := by
  unfold Obligations.ChannelStates
  intro s m x live get
  refine ⟨?trips, fun cause b awaits later speaks => tripReport_completes live get awaits later speaks,
    retryStart_completes live get, ?retries, rampUpComplete_completes live get, ?disabled,
    channel_held_of_inputLost live get, playAttemptReset_completes live get⟩
  case trips =>
    intro driver t on
    refine (channelTrip_completes live get on rfl).imp ?_
    rintro c ⟨y, ch, trip, attempts, rest⟩
    rw [← attempts] at rest
    exact ⟨y, ch, trip, attempts, rest⟩
  case retries =>
    intro q z retries enabled present measurable due extra result
    have ends : RetryEnds s m x q z := ⟨live, get, retries, enabled, present, measurable, due, extra, result⟩
    exact ⟨ends.recovers, ends.fails⟩
  case disabled =>
    intro on disabling present ended
    exact (disableRampEnd_completes live get on disabling present ended).imp fun c pow =>
      ⟨_, pow, rfl, rfl, rfl, rfl, rfl⟩

end Sys2Proof.Machine

namespace Sys2Proof.Machine

/-! The load of the block index (19 R494): it may begin a new window (02 R58) -/

/-- The part after block index b is loaded. -/
def Chip.loadIndex (b : Nat) (c : Chip) : Chip :=
  ((c.window b).onSys fun q => { q with blk := b, reload := false }).listenBack (b + 1)

theorem exec_tickIndexReload {s : State} (live : s.live) (reload : s.chip.sys.reload = true)
    (run : s.chip.sys.tickRun = true) (ticking : s.chip.ticking = true) (silent : s.chip.audioOnce = false) :
    Sys2Proof.Machine.exec .tickIndexReload s = .next { s with
      chip := (s.chip.begin.loadIndex (blockAt s.chip.prof s.chip.epoch s.chip.nowNs)).settle } := by
  have arm : Sys2Proof.Machine.exec .tickIndexReload s = execTickIndexReload s := rfl
  have due : (s.chip.begin.sys.reload && s.chip.begin.sys.tickRun && s.chip.begin.ticking && !s.chip.begin.audioOnce) = true := by
    have ticking' : s.chip.begin.ticking = true := ticking
    simp [reload, run, ticking', silent]
  rw [arm, execTickIndexReload, act_live _ live.1, if_pos due]
  rfl

/-- An index of another window clears what was noted as raised in the present one (02 R58). -/
theorem Chip.loadIndex_err_of_ne {b : Nat} {c : Chip} (moves : b / c.W ≠ c.sys.blk / c.W) :
    (c.loadIndex b).err = { c.err with seen := [] } := by
  have listens : ∀ d : Chip, (d.listenBack (b + 1)).err = d.err := fun d => by
    unfold Chip.listenBack
    split <;> rfl
  rw [Chip.loadIndex, listens, Chip.onSys_err, Chip.window, if_neg moves]
  rfl

/-- Before audio the time counter has been stepped to 1 s, so the index of the next tick is of another window; a loss of a
record has been noted in the present window. -/
def State.reloadAcrossWindow : State :=
  let c := State.reset.chip
  { State.reset with chip := { c with
      sys := { c.sys with reload := true, tickRun := true }
      ref := { c.ref with enabled := true }
      boot := { c.boot with stage := .ref }
      ptp := { c.ptp with time := 10 ^ 9 * 2 ^ 32 }
      err := { c.err with seen := [(0x0301, 0)] } } }

theorem State.reloadAcrossWindow_live : State.reloadAcrossWindow.live := ⟨rfl, rfl, rfl⟩

/-- Media time 1 s is block 12,000, the first of the next window. -/
theorem State.reloadAcrossWindow_moves :
    blockAt State.reloadAcrossWindow.chip.prof State.reloadAcrossWindow.chip.epoch State.reloadAcrossWindow.chip.nowNs /
      State.reloadAcrossWindow.chip.W ≠ State.reloadAcrossWindow.chip.sys.blk / State.reloadAcrossWindow.chip.W := by
  decide +kernel

/-- Refutes O18: a TICK_INDEX_RELOAD that loads an index of another window forgets which errors were raised in the present one (02
R58): the ERR block is a piece that its frame does not name. -/
theorem not_dpllSteps : ¬ Obligations.DpllSteps := by
  unfold Obligations.DpllSteps
  intro h
  obtain ⟨-, -, -, -, -, -, load⟩ := h State.reloadAcrossWindow 0 State.reloadAcrossWindow_live rfl
  obtain ⟨t, ht, -, -, frame, -⟩ := load rfl rfl rfl rfl
  rw [exec_tickIndexReload State.reloadAcrossWindow_live rfl rfl rfl rfl] at ht
  obtain rfl := Host.Outcome.next.inj ht
  have cleared := Chip.loadIndex_err_of_ne (c := State.reloadAcrossWindow.chip.begin) State.reloadAcrossWindow_moves
  have unmoved := frame.get_err
  rw [Chip.settle_quiet (congrArg Err.raising cleared), cleared] at unmoved
  exact absurd (congrArg Err.seen unmoved) (by decide)

end Sys2Proof.Machine

namespace Sys2Proof.Machine

/-! A PTP message is taken from its receive ring (17 R451, R453) -/

theorem exec_delayRespRx (rx : PtpRx) (seq : BitVec 16) (resp : DelayResp) (t : Nat) (s : State) :
    Sys2Proof.Machine.exec (.delayRespRx rx seq resp t) s = execDelayRespRx rx seq resp t s := by rfl

/-- What a DELAY_RESP_RX takes of free values is what the message takes that is read from the receive ring. -/
theorem Completes.delayRespRx_fresh {s : State} {rx : PtpRx} {seq : BitVec 16} {resp : DelayResp} {t : Nat}
    {named : List Piece} {P : Chip → Prop} (live : s.live) (unnamed : Piece.fresh ∉ [.out, .irq] ++ named)
    (h : Completes (.delayRespRx rx seq resp t) s named P) :
    ((s.chip.begin.advance t).takePtp rx.port.val).fresh = s.chip.fresh := by
  obtain ⟨u, hu, -, -, frame, -⟩ := h
  rw [exec_delayRespRx, execDelayRespRx, act_live _ live.1] at hu
  obtain rfl := Host.Outcome.next.inj hu
  rw [← frame.get_fresh unnamed, Chip.settle_fresh]
  generalize (s.chip.begin.advance t).takePtp rx.port.val = c
  dsimp only
  split
  · split <;> rfl
  · rfl

/-- A port that follows has asked for the delay; the answer waits in ring 1 of LINKA, and a correctable upset has struck the
first ECC word of its descriptor. -/
def State.answeredOverUpset : State :=
  let c := State.reset.chip
  { State.reset with chip := { c with
      ptp := { c.ptp with ports := c.ptp.ports.set 0 { st := .following, asked := some (5, 10) } }
      macs := c.macs.set 0 { up := true, portEn := true, rx := {} ::
        { made := 1, inbox := [{ bytes := List.replicate 68 0, trunc := false, bufs := [3], at_ := 0 }] } :: List.replicate 6 {} }
      mem := { c.mem with bytes := { zeroed := [(0x40000000, 0x40800000)], upset := [(rxBase 0 1, false)] } } } }

theorem State.answeredOverUpset_live : State.answeredOverUpset.live := ⟨rfl, rfl, rfl⟩

/-- The CMD core reads the descriptor, and the log of the darn takes a free value for its syndrome (17 R451, R459, log 8). -/
theorem State.answeredOverUpset_fresh :
    ((State.answeredOverUpset.chip.begin.advance 0).takePtp 0).fresh = State.answeredOverUpset.chip.fresh + 1 := by
  decide +kernel

/-- Refutes O20: a DELAY_RESP_RX whose message lies over a correctable word moves the counter of free values, a piece that
its frame does not name. -/
theorem not_ptpPorts : ¬ Obligations.PtpPorts := by
  unfold Obligations.PtpPorts
  intro h
  obtain ⟨-, -, -, -, -, -, -, -, answer⟩ := h State.answeredOverUpset 0 _ 0 State.answeredOverUpset_live rfl
  have unmoved := (answer {} 5 0 10 0 (by decide +kernel) rfl rfl).delayRespRx_fresh State.answeredOverUpset_live (by decide)
  exact Nat.succ_ne_self _ (State.answeredOverUpset_fresh.symm.trans unmoved)

end Sys2Proof.Machine

namespace Sys2Proof.Machine

/-! What the commands of the REF block run -/

section
variable {s : State} {t : Nat} {g : Chip → Chip} {c : Chip} {i : Instr} {named : List Piece} {P : Chip → Prop}

theorem exec_refEvent (x : Fin 6) (ev : RefEv) : Sys2Proof.Machine.exec (.refEvent x ev) s = execRefEvent x ev s := by rfl

theorem exec_inputStopped (x : Fin 6) : Sys2Proof.Machine.exec (.inputStopped x t) s = execInputStopped x t s := by rfl

theorem exec_inputQualified (x : Fin 6) :
    Sys2Proof.Machine.exec (.inputQualified x t) s = execInputQualified x t s := by rfl

theorem exec_wtrExpiry (x : Fin 6) : Sys2Proof.Machine.exec (.wtrExpiry x t) s = execWtrExpiry x t s := by rfl

theorem exec_selectorEvaluation :
    Sys2Proof.Machine.exec (.selectorEvaluation t) s = execSelectorEvaluation t s := by rfl

theorem exec_driftVote : Sys2Proof.Machine.exec (.driftVote t) s = execDriftVote t s := by rfl

/-- Once the REF block is enabled, its commands act on the part at their CORE clock (19 R491). -/
theorem refAct_of_enabled (on : s.chip.ref.enabled = true) :
    refAct t g s = act (fun c => g (c.advance t)) s := by
  have enabled : (s.chip.begin.advance t).ref.enabled = true := by simpa using on
  simp only [refAct, act_next, enabled, if_true]

/-- How a statement about a command of the REF block at CORE clock `t` is reached. -/
theorem completesAt_of_refAct (run : Sys2Proof.Machine.exec i s = refAct t g s) (live : s.live)
    (on : s.chip.ref.enabled = true) (effect : g (s.chip.begin.advance t) = c)
    (frame : (s.chip.begin.advance t).keeps ([.out, .irq] ++ named) c) (holds : P c.settle)
    (timeless : Piece.clk ∉ named ∧ Piece.ptp ∉ named := by decide) : CompletesAt i s t named P :=
  completesAt_of_effect _ (run.trans (refAct_of_enabled on)) live effect frame holds timeless

/-- One that changes the PTP block besides. -/
theorem completes_of_refAct (run : Sys2Proof.Machine.exec i s = refAct t g s) (live : s.live)
    (on : s.chip.ref.enabled = true) (effect : g (s.chip.begin.advance t) = c)
    (frame : (s.chip.begin.advance t).keeps ([.out, .irq] ++ named) c) (holds : P c.settle)
    (timed : Piece.clk ∈ named ∧ Piece.ptp ∈ named := by decide) : Completes i s named P :=
  completes_of_effect _ (run.trans (refAct_of_enabled on)) live effect
    ((Chip.keeps.advance (by simp [timed.1]) (by simp [timed.2]) (.refl _ _)).trans frame) holds

end

/-! What time leaves of the questions that are asked of a reference input -/

section
variable {c : Chip} {t x : Nat}

@[simp] theorem Chip.begin_refIn : c.begin.refIn x = c.refIn x := rfl
@[simp] theorem Chip.begin_refSel (f : Nat) : c.begin.refSel f = c.refSel f := rfl
@[simp] theorem Chip.begin_grandmaster : c.begin.grandmaster = c.grandmaster := rfl
@[simp] theorem Chip.begin_refPeriod : c.begin.refPeriod x = c.refPeriod x := rfl
@[simp] theorem Chip.begin_refCause (ev : RefEv) : c.begin.refCause x ev = c.refCause x ev := rfl
@[simp] theorem Chip.advance_refIn : (c.advance t).refIn x = c.refIn x := by simp [Chip.refIn]
@[simp] theorem Chip.advance_refSel (f : Nat) : (c.advance t).refSel f = c.refSel f := by simp [Chip.refSel]
@[simp] theorem Chip.advance_ptpIt (f : Nat) : (c.advance t).ptpIt f = c.ptpIt f := by simp [Chip.ptpIt, Chip.it]
@[simp] theorem Chip.advance_grandmaster : (c.advance t).grandmaster = c.grandmaster := by simp [Chip.grandmaster]
@[simp] theorem Chip.advance_refPeriod : (c.advance t).refPeriod x = c.refPeriod x := by
  simp [Chip.refPeriod, Chip.wclkRate, Chip.prof]
@[simp] theorem Chip.advance_refCause (ev : RefEv) : (c.advance t).refCause x ev = c.refCause x ev := by
  simp [Chip.refCause]
end

/-! One reference input (11 R292, R293, R297) -/

section
variable {c : Chip} {x k : Nat} {i y z : RefIn} {ev : RefEv}

/-- The part with reference input x in this state. -/
def Chip.setRefIn (x : Nat) (y : RefIn) (c : Chip) : Chip := c.onRef fun r => { r with ins := r.ins.set x y }

theorem Chip.onRefIn_of_get (get : c.ref.ins[x]? = some i) (f : RefIn → RefIn) : c.onRefIn x f = c.setRefIn x (f i) := by
  simp [Chip.onRefIn, Chip.setRefIn, Chip.onRef, lmod_of_get get]

theorem Chip.setRefIn_get (get : c.ref.ins[x]? = some i) : (c.setRefIn x y).ref.ins[x]? = some y := set_get get y

@[simp] theorem Chip.setRefIn_setRefIn : (c.setRefIn x y).setRefIn x z = c.setRefIn x z := by
  simp [Chip.setRefIn, Chip.onRef]

@[simp] theorem Chip.setRefIn_ref : (c.setRefIn x y).ref = { c.ref with ins := c.ref.ins.set x y } := rfl
@[simp] theorem Chip.setRefIn_clk : (c.setRefIn x y).clk = c.clk := rfl
@[simp] theorem Chip.setRefIn_err : (c.setRefIn x y).err = c.err := rfl
@[simp] theorem Chip.setRefIn_sys : (c.setRefIn x y).sys = c.sys := rfl

theorem Chip.keeps.setRefIn {L : List Piece} {a : Chip} (m : Piece.ref ∈ L) (h : a.keeps L c) : a.keeps L (c.setRefIn x y) :=
  .onRef m h

theorem Chip.lockWatch_of_ne (other : c.ref.st ≠ .acquire) : c.lockWatch = c.onRef fun r => { r with lockSince := none } := by
  simp [Chip.lockWatch, Chip.onRef, other]

theorem Chip.dpll_of_ne {st : Dpll} (other : c.ref.st ≠ st) :
    c.dpll st = c.onRef fun r => { r with st := st, stateChange := true } := if_neg other

/-- Input i of index x once it has shown an event at this clock (11 R290, R292); PPS_IN gives the phase of input 4. -/
def RefIn.shows (x : Nat) (ev : RefEv) (clk : Nat) (i : RefIn) : RefIn :=
  if x = 4 && ev.pps then { i with pps := true, ppsAt := clk, phase := ev.phase }
  else { i with
    present := true, lastAt := clk, phase := if x = 4 then i.phase else ev.phase
    offGrid := if ev.offGrid then i.offGrid + 1 else 0, rateMoved := false, freq := ev.gate.or i.freq
    gates := match ev.gate with
      | some g => (clk, g) :: i.gates.filter fun q => clk < q.1 + 3600 * secClk
      | none => i.gates }

/-- Input i when it is disqualified (11 R293). -/
def RefIn.disqualified (cause : Nat) (i : RefIn) : RefIn :=
  { i with qualified := false, eligible := false, warn := false, cause := cause, goodSince := none }

/-- The event is recorded, and the phase of the selected input is taken anew (11 R292, R298). -/
def Chip.refNoted (x : Nat) (ev : RefEv) (c : Chip) : Chip :=
  let d := c.onRefIn x (RefIn.shows x ev c.clk)
  if d.ref.selected = x && (x ≠ 4 || (x = 4 && ev.pps)) then d.onRef fun r => { r with delta := d.refDelta x, moved := 0 } else d

/-- The count of R292 on input x goes on, or it starts again with the next event. -/
def Chip.refCounts (x : Nat) (c : Chip) : Chip :=
  c.onRefIn x fun i => { i with
    goodSince := if (c.refIn x).arriving x && c.refCalm x then i.goodSince <|> some c.clk else none }

theorem Chip.refEvent_of_none (good : c.refCause x ev = none) :
    c.refEvent x ev = ((c.refNoted x ev).refCounts x).lockWatch := by
  rw [Chip.refEvent, good]
  rfl

theorem Chip.refEvent_of_some (bad : c.refCause x ev = some k) :
    c.refEvent x ev = ((((c.refNoted x ev).disqualify x k).onRefIn x fun i => { i with
      goodSince := some (c.refNoted x ev).clk }).refCounts x).lockWatch := by
  rw [Chip.refEvent, bad]
  rfl

theorem Chip.refNoted_of_unselected (get : c.ref.ins[x]? = some i) (other : c.ref.selected ≠ x) :
    c.refNoted x ev = c.setRefIn x (i.shows x ev c.clk) := by
  rw [Chip.refNoted, Chip.onRefIn_of_get get]
  simp [other]

/-- Recording an event changes its input and the phase of the selection only. -/
theorem Chip.refNoted_ref (get : c.ref.ins[x]? = some i) : ∃ d m,
    c.refNoted x ev = c.onRef fun r => { r with ins := r.ins.set x (i.shows x ev c.clk), delta := d, moved := m } := by
  rw [Chip.refNoted, Chip.onRefIn_of_get get]
  split
  · exact ⟨_, _, rfl⟩
  · exact ⟨c.ref.delta, c.ref.moved, rfl⟩

/-- The clock since which every condition of R292 has held for input i, as given (11 R292). -/
def RefIn.goodFrom (since : Option Nat) (i : RefIn) : RefIn := { i with goodSince := since }

/-- While its events arrive, and unless it was disqualified for DRIFT, an input counts on (11 R292). -/
theorem Chip.refCounts_of_get (get : c.ref.ins[x]? = some i) : ∃ since, c.refCounts x = c.setRefIn x (i.goodFrom since) ∧
    (i.cause ≠ 5 → i.arriving x = true → since = (i.goodSince <|> some c.clk)) := by
  refine ⟨_, Chip.onRefIn_of_get get _, fun cause arriving => if_pos ?_⟩
  simp [Chip.refCalm, Chip.refIn_of_get get, cause, arriving]

theorem RefIn.shows_of_pps (pps : x = 4 ∧ ev.pps = true) (clk : Nat) :
    i.shows x ev clk = { i with pps := true, ppsAt := clk, phase := ev.phase } := by
  rw [RefIn.shows, if_pos (by simpa using pps)]

theorem RefIn.shows_of_main (main : ¬(x = 4 ∧ ev.pps = true)) (clk : Nat) : ∃ gates, i.shows x ev clk = { i with
      present := true, lastAt := clk, phase := if x = 4 then i.phase else ev.phase
      offGrid := if ev.offGrid then i.offGrid + 1 else 0, rateMoved := false, freq := ev.gate.or i.freq, gates := gates } ∧
    ∀ g, ev.gate = some g → gates.head? = some (clk, g) := by
  rw [RefIn.shows, if_neg (by simpa using main)]
  exact ⟨_, rfl, fun g full => by simp [full]⟩

/-- An event leaves what only the vote and a qualification change. -/
theorem RefIn.shows_rest (clk : Nat) : (i.shows x ev clk).qualified = i.qualified ∧ (i.shows x ev clk).eligible = i.eligible ∧
    (i.shows x ev clk).cause = i.cause ∧ (i.shows x ev clk).nu = i.nu ∧ (i.shows x ev clk).dev = i.dev ∧
    (i.shows x ev clk).goodSince = i.goodSince := by
  unfold RefIn.shows
  split <;> exact ⟨rfl, rfl, rfl, rfl, rfl, rfl⟩

@[simp] theorem RefIn.shows_qualified (clk : Nat) : (i.shows x ev clk).qualified = i.qualified := (RefIn.shows_rest clk).1

/-- An event without a cause on an input that is not selected is recorded, and no more (11 R292). -/
theorem Chip.refEvent_of_good (get : c.ref.ins[x]? = some i) (good : c.refCause x ev = none) (other : c.ref.selected ≠ x) :
    ∃ since, c.refEvent x ev = (c.setRefIn x ((i.shows x ev c.clk).goodFrom since)).lockWatch ∧
      (i.cause ≠ 5 → (i.shows x ev c.clk).arriving x = true → since = (i.goodSince <|> some c.clk)) := by
  obtain ⟨since, counts, held⟩ := Chip.refCounts_of_get (Chip.setRefIn_get (y := i.shows x ev c.clk) get)
  obtain ⟨-, -, cause, -, -, began⟩ := RefIn.shows_rest (i := i) (x := x) (ev := ev) c.clk
  rw [cause, began] at held
  refine ⟨since, ?_, held⟩
  rw [Chip.refEvent_of_none good, Chip.refNoted_of_unselected get other, counts, Chip.setRefIn_setRefIn]

/-- Input x is disqualified while it is not selected (11 R300). -/
theorem Chip.disqualify_of_unselected (get : c.ref.ins[x]? = some i) (good : i.qualified = true) (other : c.ref.selected ≠ x) :
    c.disqualify x k = (c.setRefIn x (i.disqualified k)).raise 0x0B01 .note x := by
  have unselected : (c.setRefIn x (i.disqualified k)).ref.selected ≠ x := other
  unfold Chip.disqualify
  rw [Chip.onRefIn_of_get get, Chip.onRefIn_of_get get, Chip.refIn_of_get get, good]
  dsimp only
  rw [if_neg (by simp), if_neg fun ⟨selected, _⟩ => unselected selected]
  rfl

/-- The REF block when the selected input is lost: holdover begins at this clock, with the input in state z (11 R300, R302,
R303). -/
def Ref.loses (x : Nat) (z : RefIn) (clk : Nat) (target : Int) (r : Ref) : Ref :=
  { r with
    ins := r.ins.set x z, heldInput := r.selected, selected := 6, switching := false, lockSince := none
    holdSince := some clk, holdModel := r.modelValid, holdTarget := target, st := .holdover, stateChange := true }

/-- The selected input is disqualified in LOCKED (11 R300). -/
theorem Chip.disqualify_of_selected (get : c.ref.ins[x]? = some i) (good : i.qualified = true) (selected : c.ref.selected = x)
    (locked : c.ref.st = .locked) : ∃ target,
      c.disqualify x k = (c.raise 0x0B02 .fault x).onRef (Ref.loses x (i.disqualified k) c.clk target) := by
  have selected' : (c.setRefIn x (i.disqualified k)).ref.selected = x := selected
  have locked' : (c.setRefIn x (i.disqualified k)).ref.st = .locked := locked
  refine ⟨((c.setRefIn x (i.disqualified k)).raise 0x0B02 .fault x).holdTarget, ?_⟩
  unfold Chip.disqualify
  rw [Chip.onRefIn_of_get get, Chip.onRefIn_of_get get, Chip.refIn_of_get get, good]
  dsimp only
  rw [if_neg (by simp)]
  refine (if_pos ⟨selected', .inr locked'⟩).trans ?_
  rw [Chip.holdover]
  refine Chip.dpll_of_ne (c := Chip.onRef _ _) fun held => ?_
  have held' : c.ref.st = .holdover := held
  simp [locked] at held'

/-- What changes of the lost input after the loss changes no more. -/
theorem Chip.onRef_loses_setRefIn {clk : Nat} {target : Int} :
    (c.onRef (Ref.loses x y clk target)).setRefIn x z = c.onRef (Ref.loses x z clk target) := by
  simp [Chip.setRefIn, Chip.onRef, Ref.loses]

/-- An event with a cause on the selected input in LOCKED: besides the phase of the selection, what its loss brings (11 R293,
R300). -/
theorem Chip.refEvent_of_bad (get : c.ref.ins[x]? = some i) (bad : c.refCause x ev = some k) (good : i.qualified = true)
    (selected : c.ref.selected = x) (locked : c.ref.st = .locked) : ∃ d m target z,
      c.refEvent x ev = (c.onRef fun r => { r with delta := d, moved := m }.loses x z c.clk target).raise 0x0B02 .fault x ∧
        z.qualified = false ∧ z.eligible = false ∧ z.cause = k := by
  obtain ⟨d, m, noted⟩ := Chip.refNoted_ref (ev := ev) get
  have noted_get : (c.refNoted x ev).ref.ins[x]? = some (i.shows x ev c.clk) := by
    rw [noted]
    exact set_get get _
  obtain ⟨target, loses⟩ := Chip.disqualify_of_selected (k := k) noted_get (by simpa using good)
    (by rw [noted]; exact selected) (by rw [noted]; exact locked)
  have lost_get : ∀ y, (((c.refNoted x ev).raise 0x0B02 .fault x).onRef (Ref.loses x y (c.refNoted x ev).clk target)).ref.ins[x]? =
      some y := fun y => set_get (l := (c.refNoted x ev).ref.ins) noted_get y
  obtain ⟨since, counts, -⟩ := Chip.refCounts_of_get (lost_get { (i.shows x ev c.clk).disqualified k with
    goodSince := some (c.refNoted x ev).clk })
  refine ⟨d, m, target, (i.shows x ev c.clk |>.disqualified k).goodFrom since, ?_, rfl, rfl, rfl⟩
  rw [Chip.refEvent_of_some bad, loses, Chip.onRefIn_of_get (lost_get _), Chip.onRef_loses_setRefIn, counts,
    Chip.onRef_loses_setRefIn, Chip.lockWatch_of_ne (by simp [Ref.loses]), noted]
  simp [Chip.onRef, Chip.raise, Ref.loses, RefIn.goodFrom]

/-- The port of a PTP input whose events have stopped is no longer in step (11 R319). -/
def Chip.portStops (x : Nat) (c : Chip) : Chip := if x ≤ 2 then c.onPort x fun p => { p with syncOk := false } else c

theorem Chip.keeps.portStops {L : List Piece} {a : Chip} (m : Piece.ptp ∈ L) (h : a.keeps L c) : a.keeps L (c.portStops x) :=
  .ite (.onPort m h) h

@[simp] theorem Chip.portStops_ref : (c.portStops x).ref = c.ref := by
  unfold Chip.portStops
  split <;> rfl

@[simp] theorem Chip.portStops_clk : (c.portStops x).clk = c.clk := by
  unfold Chip.portStops
  split <;> rfl

@[simp] theorem Chip.portStops_err : (c.portStops x).err = c.err := by
  unfold Chip.portStops
  split <;> rfl

@[simp] theorem Chip.portStops_sys : (c.portStops x).sys = c.sys := by
  unfold Chip.portStops
  split <;> rfl

/-- A qualified input stops that is not selected (11 R293, R300). -/
theorem Chip.refStops_of_qualified (get : c.ref.ins[x]? = some i) (good : i.qualified = true) (other : c.ref.selected ≠ x) :
    c.refStops x = ((c.portStops x).setRefIn x (i.disqualified 1)).raise 0x0B01 .note x := by
  have lost := Chip.disqualify_of_unselected (c := c.portStops x) (i := i) (k := 1) (by simpa using get) good (by simpa using other)
  rw [← lost, Chip.refStops, Chip.refIn_of_get get, good]
  rfl

/-- An input stops that was disqualified for DRIFT (11 R295). -/
theorem Chip.refStops_of_drifted (get : c.ref.ins[x]? = some i) (unqualified : i.qualified = false) (drifted : i.cause = 5) :
    c.refStops x = ((c.portStops x).setRefIn x { i with goodSince := none, cause := 1 }).raise 0x0B01 .note x := by
  have get' : (c.portStops x).ref.ins[x]? = some i := by simpa using get
  have set : ((c.portStops x).onRefIn x fun i => { i with goodSince := none }).onRefIn x (fun i => { i with cause := 1 }) =
      (c.portStops x).setRefIn x { i with goodSince := none, cause := 1 } := by
    rw [Chip.onRefIn_of_get get', Chip.onRefIn_of_get (Chip.setRefIn_get get'), Chip.setRefIn_setRefIn]
  rw [← set, Chip.refStops, Chip.refIn_of_get get, unqualified, drifted]
  rfl

end

/-! The clauses of the reference inputs -/

section
variable {s : State} {x : Fin 6} {i : RefIn} {t : Nat}

/-- PTP inputs of a grandmaster are not followed (11 R312). -/
theorem grandmaster_ptp_eq_false {d : Chip} (follower : d.grandmaster = false ∨ 2 < x.val) : (d.grandmaster && decide (x.val ≤ 2)) = false := by
  rcases follower with plain | other
  · simp [plain]
  · simp [Nat.not_le.mpr other]

/-- What an event shows is asked of an input other than LOSC, and not of a PTP input of a grandmaster (11 R312). -/
theorem refEvent_asked {ev : RefEv} {d : Chip} (input : x.val < 5) (follower : d.grandmaster = false ∨ 2 < x.val) :
    (if x.val = 5 ∨ (d.grandmaster ∧ x.val ≤ 2) then d else d.refEvent x.val ev) = d.refEvent x.val ev := by
  refine if_neg ?_
  rintro (losc | ⟨master, ptp⟩)
  · omega
  · rcases follower with not_master | _
    · simp [not_master] at master
    · omega

/-- An event without a cause (11 R292, R293). -/
theorem refEvent_completes_of_good {ev : RefEv} (live : s.live) (on : s.chip.ref.enabled = true)
    (get : s.chip.ref.ins[x.val]? = some i) (input : x.val < 5) (good : s.chip.refCause x.val ev = none)
    (other : s.chip.ref.selected ≠ x.val) (follower : s.chip.grandmaster = false ∨ 2 < x.val) :
    CompletesAt (.refEvent x ev) s ev.t [.ref] fun c =>
      ∃ since, c.ref = { s.chip.ref with
          ins := s.chip.ref.ins.set x.val ((i.shows x.val ev (max s.chip.clk ev.t)).goodFrom since)
          lockSince := c.ref.lockSince } ∧
        (s.chip.ref.st ≠ .acquire → c.ref.lockSince = none) ∧
        (i.cause ≠ 5 → (i.shows x.val ev (max s.chip.clk ev.t)).arriving x.val = true →
          since = (i.goodSince <|> some (max s.chip.clk ev.t))) := by
  obtain ⟨since, effect, held⟩ := Chip.refEvent_of_good (c := s.chip.begin.advance ev.t) (x := x.val) (ev := ev) (i := i)
    (by simpa using get) (by simpa using good) (by simpa using other)
  rw [Chip.advance_clk, Chip.begin_clk] at effect held
  refine completesAt_of_refAct (exec_refEvent x ev) live on ((refEvent_asked input (by simpa using follower)).trans effect)
    (.lockWatch (by decide) (.setRefIn (by decide) (.refl _ _))) ⟨since, ?_, fun other => ?_, held⟩
  · rw [Chip.settle_ref, Chip.lockWatch, Chip.setRefIn, Chip.onRef_ref, Chip.onRef_ref, Chip.advance_ref, Chip.begin_ref]
  · rw [Chip.settle_ref, Chip.lockWatch_of_ne]
    · rfl
    · simpa [Chip.setRefIn] using other

/-- An event that shows a cause against the selected input in LOCKED: holdover begins (11 R293, R300, R302, R303). -/
theorem refEvent_completes_of_bad {ev : RefEv} {k : Nat} (live : s.live) (on : s.chip.ref.enabled = true)
    (get : s.chip.ref.ins[x.val]? = some i) (input : x.val < 5) (bad : s.chip.refCause x.val ev = some k)
    (good : i.qualified = true) (selected : s.chip.ref.selected = x.val) (locked : s.chip.ref.st = .locked)
    (follower : s.chip.grandmaster = false ∨ 2 < x.val) :
    CompletesAt (.refEvent x ev) s ev.t [.ref, .err] fun c =>
      c.ref.st = .holdover ∧ c.ref.stateChange = true ∧ c.ref.selected = 6 ∧ c.ref.switching = false ∧
        c.ref.holdSince = some (max s.chip.clk ev.t) ∧ c.ref.heldInput = x.val ∧ c.ref.freq = s.chip.ref.freq ∧
        (∃ y, c.ref.ins = s.chip.ref.ins.set x.val y ∧ y.qualified = false ∧ y.eligible = false ∧ y.cause = k) ∧
        c.err = s.chip.recorded 0x0B02 .fault x.val := by
  obtain ⟨d, m, target, z, effect, unqualified, uneligible, cause⟩ := Chip.refEvent_of_bad (c := s.chip.begin.advance ev.t)
    (x := x.val) (ev := ev) (i := i) (k := k) (by simpa using get) (by simpa using bad) good (by simpa using selected)
    (by simpa using locked)
  refine completesAt_of_refAct (exec_refEvent x ev) live on ((refEvent_asked input (by simpa using follower)).trans effect)
    (.raise (by decide) (.onRef (by decide) (.refl _ _))) ?_
  rw [Chip.settle_ref, Chip.advance_clk, Chip.begin_clk]
  refine ⟨rfl, rfl, rfl, rfl, rfl, ?_, ?_, ⟨z, ?_, unqualified, uneligible, cause⟩, ?_⟩
  · simpa [Ref.loses] using selected
  · simp [Ref.loses]
  · simp [Ref.loses]
  · exact Chip.settle_raise_err (c := s.chip) (by simp) (by simp)

/-- What INPUT_STOPPED runs once no event of the input has come for two periods; edges of PPS_IN may have stopped too. -/
theorem inputStopped_effect {d : Chip} (get : d.ref.ins[x.val]? = some i) (input : x.val < 5)
    (present : i.present = true) (due : i.lastAt + 2 * d.refPeriod x.val ≤ t) (pps : Bool) :
    (if x.val < 5 && (((d.refIn x.val).present && (d.refIn x.val).lastAt + 2 * d.refPeriod x.val ≤ t) || pps) then
        (d.onRefIn x.val fun j => { j with
          present := j.present && !((d.refIn x.val).present && (d.refIn x.val).lastAt + 2 * d.refPeriod x.val ≤ t)
          pps := j.pps && !pps }).refStops x.val
      else d) = (d.setRefIn x.val { i with present := false, pps := i.pps && !pps }).refStops x.val := by
  rw [Chip.onRefIn_of_get get, Chip.refIn_of_get get]
  simp [present, due, input]

/-- The events of a qualified input that is not selected stop (11 R293). -/
theorem inputStopped_completes_of_qualified (live : s.live) (on : s.chip.ref.enabled = true)
    (get : s.chip.ref.ins[x.val]? = some i) (input : x.val < 5) (present : i.present = true)
    (due : i.lastAt + 2 * s.chip.refPeriod x.val ≤ t) (good : i.qualified = true) (other : s.chip.ref.selected ≠ x.val) :
    Completes (.inputStopped x t) s [.clk, .ptp, .ref, .err] fun c =>
      c.clk = max s.chip.clk t ∧ c.ref.st = s.chip.ref.st ∧ c.ref.selected = s.chip.ref.selected ∧
        (∃ y, c.ref.ins = s.chip.ref.ins.set x.val y ∧ y.present = false ∧ y.qualified = false ∧ y.eligible = false ∧
          y.cause = 1 ∧ y.goodSince = none) ∧
        c.err = s.chip.recorded 0x0B01 .note x.val := by
  have get' : (s.chip.begin.advance t).ref.ins[x.val]? = some i := by simpa using get
  have effect := fun pps => inputStopped_effect get' input present (t := t) (by simpa using due) pps
  have stops := fun y h => Chip.refStops_of_qualified (Chip.setRefIn_get (y := y) get') h (by simpa [Chip.setRefIn] using other)
  refine completes_of_refAct (exec_inputStopped x) live on ((effect _).trans (stops _ good))
    (.raise (by decide) (.setRefIn (by decide) (.portStops (by decide) (.setRefIn (by decide) (.refl _ _)))))
    ⟨by simp, ?_, ?_, ?_, Chip.settle_raise_err (c := s.chip) (by simp) (by simp)⟩
  all_goals simp only [Chip.settle_ref, Chip.raise_ref, Chip.setRefIn_ref, Chip.portStops_ref, Chip.advance_ref,
    Chip.begin_ref, List.set_set]
  exact ⟨_, rfl, rfl, rfl, rfl, rfl, rfl⟩

/-- The events of an input stop that was disqualified for DRIFT (11 R295). -/
theorem inputStopped_completes_of_drifted (live : s.live) (on : s.chip.ref.enabled = true)
    (get : s.chip.ref.ins[x.val]? = some i) (input : x.val < 5) (present : i.present = true)
    (due : i.lastAt + 2 * s.chip.refPeriod x.val ≤ t) (unqualified : i.qualified = false) (drifted : i.cause = 5) :
    Completes (.inputStopped x t) s [.clk, .ptp, .ref, .err] fun c =>
      (∃ y, c.ref.ins = s.chip.ref.ins.set x.val y ∧ y.present = false ∧ y.qualified = false ∧ y.cause = 1) ∧
        c.ref.st = s.chip.ref.st ∧ c.err = s.chip.recorded 0x0B01 .note x.val := by
  have get' : (s.chip.begin.advance t).ref.ins[x.val]? = some i := by simpa using get
  have effect := fun pps => inputStopped_effect get' input present (t := t) (by simpa using due) pps
  have stops := fun y h k => Chip.refStops_of_drifted (Chip.setRefIn_get (y := y) get') h k
  refine completes_of_refAct (exec_inputStopped x) live on ((effect _).trans (stops _ unqualified drifted))
    (.raise (by decide) (.setRefIn (by decide) (.portStops (by decide) (.setRefIn (by decide) (.refl _ _)))))
    ⟨?_, ?_, Chip.settle_raise_err (c := s.chip) (by simp) (by simp)⟩
  all_goals simp only [Chip.settle_ref, Chip.raise_ref, Chip.setRefIn_ref, Chip.portStops_ref, Chip.advance_ref,
    Chip.begin_ref, List.set_set]
  exact ⟨_, rfl, rfl, unqualified, rfl⟩

/-- An input has met the conditions of R292 for ref.qual_time (11 R292, R297). -/
theorem inputQualified_completes {g : Nat} (live : s.live) (on : s.chip.ref.enabled = true)
    (get : s.chip.ref.ins[x.val]? = some i) (input : x.val < 5) (since : i.goodSince = some g)
    (arriving : i.arriving x.val = true) (unqualified : i.qualified = false)
    (calm : i.cause ≠ 5 ∨ i.dev.natAbs < 100 * s.chip.refSel 1) (follower : s.chip.grandmaster = false ∨ 2 < x.val)
    (due : g + s.chip.itN (item 0x0C x.val 2) * secClk ≤ t) :
    CompletesAt (.inputQualified x t) s t [.ref] fun c =>
      c.ref = { s.chip.ref with ins := s.chip.ref.ins.set x.val { i with
        qualified := true, qualAt := t, before := true, eligible := !i.before } } := by
  have get' : (s.chip.begin.advance t).ref.ins[x.val]? = some i := by simpa using get
  refine completesAt_of_refAct (exec_inputQualified x) live on
    (c := (s.chip.begin.advance t).setRefIn x.val { i with qualified := true, qualAt := t, before := true, eligible := !i.before })
    ?_ (.setRefIn (by decide) (.refl _ _)) (by simp [Chip.setRefIn])
  have calm' : (s.chip.begin.advance t).refCalm x.val = true := by
    simpa [Chip.refCalm, Chip.refIn_of_get get, unqualified] using calm
  dsimp only
  rw [Chip.refIn_of_get get', since]
  dsimp only
  rw [if_pos, Chip.onRefIn_of_get get', since]
  simp [input, unqualified, arriving, calm', grandmaster_ptp_eq_false follower, due]

/-- The wait to restore ends (11 R297). -/
theorem wtrExpiry_completes (live : s.live) (on : s.chip.ref.enabled = true)
    (get : s.chip.ref.ins[x.val]? = some i) (input : x.val < 5) (qualified : i.qualified = true)
    (waits : i.eligible = false) (follower : s.chip.grandmaster = false ∨ 2 < x.val)
    (due : i.qualAt + s.chip.refSel 4 * secClk ≤ t) :
    CompletesAt (.wtrExpiry x t) s t [.ref] fun c =>
      c.ref = { s.chip.ref with ins := s.chip.ref.ins.set x.val { i with eligible := true } } := by
  have get' : (s.chip.begin.advance t).ref.ins[x.val]? = some i := by simpa using get
  refine completesAt_of_refAct (exec_wtrExpiry x) live on
    (c := (s.chip.begin.advance t).setRefIn x.val { i with eligible := true })
    ?_ (.setRefIn (by decide) (.refl _ _)) (by simp [Chip.setRefIn])
  dsimp only
  rw [Chip.refIn_of_get get', if_pos, Chip.onRefIn_of_get get']
  simp [input, qualified, waits, grandmaster_ptp_eq_false follower, due]

end

/-- Settles O17: each clause is the lemma on its row; what an event leaves of its input by the two cases of `RefIn.shows`. -/
theorem referenceInputs : Obligations.ReferenceInputs := by
  unfold Obligations.ReferenceInputs
  intro s x i live on get input
  refine ⟨fun ev good other follower => ?recorded,
    fun ev k bad good selected locked follower =>
      refEvent_completes_of_bad live on get input bad good selected locked follower,
    fun t present due good other => inputStopped_completes_of_qualified live on get input present due good other,
    fun t present due unqualified drifted =>
      inputStopped_completes_of_drifted live on get input present due unqualified drifted,
    fun t g since present pps unqualified calm follower due => ?qualified,
    fun t qualified waits follower due => wtrExpiry_completes live on get input qualified waits follower due⟩
  case qualified =>
    exact inputQualified_completes live on get input since (by simpa [RefIn.arriving, present] using pps) unqualified calm
      follower due
  case recorded =>
    refine (refEvent_completes_of_good live on get input good other follower).imp ?_
    rintro c ⟨since, ref, unlocked, held⟩
    obtain ⟨qualified, eligible, cause, nu, dev, -⟩ := RefIn.shows_rest (i := i) (x := x.val) (ev := ev) (max s.chip.clk ev.t)
    refine ⟨_, ref, unlocked, qualified, eligible, cause, nu, dev, fun pps => ?_, fun main => ?_⟩
    · rw [RefIn.shows_of_pps pps]
      exact ⟨rfl, rfl, rfl, rfl, rfl, rfl⟩
    · obtain ⟨gates, shows, head⟩ := RefIn.shows_of_main (i := i) main (max s.chip.clk ev.t)
      rw [shows] at held ⊢
      exact ⟨rfl, rfl, rfl, rfl, head, fun undrifted arrives => held undrifted (by simpa [RefIn.arriving] using arrives)⟩

end Sys2Proof.Machine

namespace Sys2Proof.Machine

/-! The evaluation of the selector (11 R297 to R299) -/

section
variable {c : Chip}

/-- 10 ms of steering move the frequency by at most 100 units, within its limits (11 R298, R299). -/
theorem Chip.steer_freq (within : c.ref.freq.natAbs ≤ 6000000) :
    (c.steer.ref.freq - c.ref.freq).natAbs ≤ 100 ∧ c.steer.ref.freq.natAbs ≤ 6000000 ∧
      c.steer.ptp.incr = ptpIncr c.steer.ref.freq := by
  have freq : c.steer.ref.freq = max (-6000000) (min 6000000 (if c.ref.freq + 100 < c.aimFreq then c.ref.freq + 100
    else if c.aimFreq < c.ref.freq - 100 then c.ref.freq - 100 else c.aimFreq)) := rfl
  refine ⟨?_, ?_, rfl⟩ <;> rw [freq] <;> split_ifs <;> omega

/-- Of the REF block steering changes the frequency, how far media time has moved, and the count of R302. -/
theorem Chip.steer_ref : ∃ freq history moved lockSince,
    c.steer.ref = { c.ref with freq := freq, history := history, moved := moved, lockSince := lockSince } :=
  ⟨_, _, _, _, rfl⟩

theorem Chip.steer_err : c.steer.err = c.err :=
  (Chip.keeps.steer (L := [.ref, .ptp]) (by decide) (by decide) (.refl _ _)).get_err

/-- The selection is made anew, unless a switch or a test runs (11 R297, R301). -/
def Chip.reselect (c : Chip) : Chip :=
  if c.ref.switching || c.ref.testing then c
  else match c.refPick with
    | some x => if x = c.ref.selected then c else c.refSwitch x
    | none => c

theorem Chip.reselect_cases :
    c.reselect = c ∨ ∃ x, c.reselect = c.refSwitch x ∧ c.ref.switching = false ∧ x ≠ c.ref.selected := by
  unfold Chip.reselect
  split
  · exact .inl rfl
  · next idle =>
    rw [Bool.not_eq_true, Bool.or_eq_false_iff] at idle
    split
    · next x pick =>
      split
      · exact .inl rfl
      · next other => exact .inr ⟨x, rfl, idle.1, other⟩
    · exact .inl rfl

/-- A switch while audio runs: the output keeps its frequency, and the DPLL acquires input x (11 R298, R308). -/
theorem Chip.refSwitch_ref {x : Nat} (audio : c.audioOnce = true) :
    (c.refSwitch x).ref.selected = x ∧ (c.refSwitch x).ref.switching = true ∧ (c.refSwitch x).ref.st = .acquire ∧
      (c.refSwitch x).ref.switches = c.ref.switches + 1 ∧ (c.refSwitch x).ref.freq = c.ref.freq := by
  have started : ∀ d : Chip, (d.dpll .acquire).audioOnce = d.audioOnce ∧ (d.dpll .acquire).ref.st = .acquire ∧
      (d.dpll .acquire).ref.selected = d.ref.selected ∧ (d.dpll .acquire).ref.switching = d.ref.switching ∧
      (d.dpll .acquire).ref.switches = d.ref.switches ∧ (d.dpll .acquire).ref.freq = d.ref.freq := fun d => by
    unfold Chip.dpll
    split
    · next acquires => exact ⟨rfl, acquires, rfl, rfl, rfl, rfl⟩
    · exact ⟨rfl, rfl, rfl, rfl, rfl, rfl⟩
  unfold Chip.refSwitch
  dsimp only
  obtain ⟨runs, st, selected, switching, switches, freq⟩ := started (c.onRef fun r => { r with
    selected := x, switching := true, delta := c.refDeltaNow x, moved := 0, switches := r.switches + 1, holdSince := none
    lockSince := none })
  rw [if_pos (by simpa using runs.trans audio)]
  split
  all_goals exact ⟨selected, switching, st, switches, freq⟩

theorem Chip.keeps.reselect {L : List Piece} {a b : Chip} (m : Piece.ref ∈ L) (e : Piece.err ∈ L) (audio : b.audioOnce = true)
    (h : a.keeps L b) : a.keeps L b.reselect := by
  obtain same | ⟨x, switches, -⟩ := Chip.reselect_cases (c := b)
  · rwa [same]
  · rw [switches]
    exact .refSwitch m e audio h

/-- Before the selection an evaluation changes the inputs only: LOSC may be eligible again (11 R296). -/
theorem Chip.evaluate_eq : ∃ ins, c.evaluate = (c.onRef fun r => { r with ins := ins }).reselect.steer := by
  cases drift : c.ref.loscDrift
  · exact ⟨lmod c.ref.ins 5 fun i => { i with eligible := true }, by rw [Chip.evaluate, drift]; rfl⟩
  · exact ⟨c.ref.ins, by rw [Chip.evaluate, drift]; rfl⟩

theorem Chip.keeps.evaluate {L : List Piece} {a b : Chip} (m : Piece.ref ∈ L) (n : Piece.ptp ∈ L) (e : Piece.err ∈ L)
    (audio : b.audioOnce = true) (h : a.keeps L b) : a.keeps L b.evaluate := by
  obtain ⟨ins, eq⟩ := Chip.evaluate_eq (c := b)
  rw [eq]
  exact .steer m n (.reselect m e audio (.onRef m h))

/-- The selection and the state stay, or a switch starts (11 R297, R298). -/
theorem Chip.evaluate_selection (audio : c.audioOnce = true) :
    c.evaluate.ref.selected = c.ref.selected ∧ c.evaluate.ref.st = c.ref.st ∧ c.evaluate.err = c.err ∨
      c.evaluate.ref.switching = true ∧ c.evaluate.ref.st = .acquire ∧ c.evaluate.ref.switches = c.ref.switches + 1 ∧
        c.ref.switching = false ∧ c.evaluate.ref.selected ≠ c.ref.selected := by
  obtain ⟨ins, eq⟩ := Chip.evaluate_eq (c := c)
  obtain ⟨_, _, _, _, steers⟩ := Chip.steer_ref (c := (c.onRef fun r => { r with ins := ins }).reselect)
  rw [eq, Chip.steer_err, steers]
  obtain same | ⟨x, switch, idle, other⟩ := Chip.reselect_cases (c := c.onRef fun r => { r with ins := ins })
  · left
    rw [same]
    exact ⟨rfl, rfl, rfl⟩
  · right
    obtain ⟨selected, switching, st, switches, -⟩ := Chip.refSwitch_ref (c := c.onRef fun r => { r with ins := ins }) (x := x) audio
    rw [switch]
    exact ⟨switching, st, switches, idle, fun unchanged => other (selected.symm.trans unchanged)⟩

/-- The frequency moves by at most 100 units, within its limits (11 R298, R299). -/
theorem Chip.evaluate_freq (audio : c.audioOnce = true) (within : c.ref.freq.natAbs ≤ 6000000) :
    (c.evaluate.ref.freq - c.ref.freq).natAbs ≤ 100 ∧ c.evaluate.ref.freq.natAbs ≤ 6000000 ∧
      c.evaluate.ptp.incr = ptpIncr c.evaluate.ref.freq := by
  obtain ⟨ins, eq⟩ := Chip.evaluate_eq (c := c)
  have freq : (c.onRef fun r => { r with ins := ins }).reselect.ref.freq = c.ref.freq := by
    obtain same | ⟨x, switch, -⟩ := Chip.reselect_cases (c := c.onRef fun r => { r with ins := ins })
    · rw [same]
      rfl
    · obtain ⟨-, -, -, -, freq⟩ := Chip.refSwitch_ref (c := c.onRef fun r => { r with ins := ins }) (x := x) audio
      rw [switch]
      exact freq
  rw [eq, ← freq]
  exact Chip.steer_freq (freq ▸ within)

end

/-! What the REF registers show (11 R318) -/

section
variable {c : Chip}

@[simp] theorem Chip.showQuick_ref : c.showQuick.ref = { c.ref with quick := c.refQuick } := rfl
@[simp] theorem Chip.showQuick_ptp : c.showQuick.ptp = c.ptp := rfl
@[simp] theorem Chip.showQuick_err : c.showQuick.err = c.err := rfl
@[simp] theorem Chip.showQuick_clk : c.showQuick.clk = c.clk := rfl
@[simp] theorem Chip.showQuick_refQuick : c.showQuick.refQuick = c.refQuick := rfl
@[simp] theorem Chip.showSecond_ref : c.showSecond.ref = { c.ref with shown := c.refWords } := rfl
@[simp] theorem Chip.showSecond_refWords : c.showSecond.refWords = c.refWords := rfl

@[simp] theorem Chip.settle_refQuick : c.settle.refQuick = c.refQuick := by simp [Chip.refQuick, Chip.deltaNow]

@[simp] theorem Chip.settle_refWords : c.settle.refWords = c.refWords := by
  simp [Chip.refWords, Chip.refInWord, Chip.wtrLeft, Chip.refIn, Chip.refSel, Chip.itN, Chip.it]

end

/-- SELECTOR_EVALUATION while audio runs (11 R297 to R299). -/
theorem selectorEvaluation_completes {s : State} {t : Nat} (live : s.live) (on : s.chip.ref.enabled = true)
    (audio : s.chip.audioOnce = true) (within : s.chip.ref.freq.natAbs ≤ 6000000) :
    Completes (.selectorEvaluation t) s [.clk, .ptp, .ref, .err] fun c =>
      c.clk = max s.chip.clk t ∧ (c.ref.freq - s.chip.ref.freq).natAbs ≤ 100 ∧ c.ref.freq.natAbs ≤ 6000000 ∧
        c.ptp.incr = ptpIncr c.ref.freq ∧ c.ref.quick = c.refQuick ∧
        (c.ref.selected = s.chip.ref.selected ∧ c.ref.st = s.chip.ref.st ∧ c.err = s.chip.err ∨
          c.ref.switching = true ∧ c.ref.st = .acquire ∧ c.ref.switches = s.chip.ref.switches + 1 ∧
            s.chip.ref.switching = false ∧ c.ref.selected ≠ s.chip.ref.selected) := by
  have audio' : (s.chip.begin.advance t).audioOnce = true := by simpa using audio
  have frame : ∀ {L : List Piece}, Piece.ref ∈ L → Piece.ptp ∈ L → Piece.err ∈ L →
      (s.chip.begin.advance t).keeps L (s.chip.begin.advance t).evaluate :=
    fun r p e => .evaluate r p e audio' (.refl _ _)
  obtain ⟨slew, limit, incr⟩ := Chip.evaluate_freq audio' (by simpa using within)
  refine completes_of_refAct exec_selectorEvaluation live on rfl (.onRef (by decide) (frame (by decide) (by decide) (by decide)))
    ⟨?_, ?_, ?_, ?_, ?_, ?_⟩
  · have clk := (frame (L := [.ref, .ptp, .err]) (by decide) (by decide) (by decide)).get_clk
    simpa using clk
  · simpa using slew
  · simpa using limit
  · simpa using incr
  · simp
  · obtain ⟨selected, st, err⟩ | switch := Chip.evaluate_selection audio'
    · refine .inl ⟨by simpa using selected, by simpa using st, ?_⟩
      rw [Chip.settle_quiet] <;> rw [Chip.showQuick_err, err, Chip.advance_err, Chip.begin_err]
      exact live.2.1
    · exact .inr (by simpa using switch)

/-! The drift vote (11 R294 to R296) -/

section
variable {c : Chip} {x k : Nat} {d : Int}

/-- NO_VOTE and the frequency of the output. -/
def Chip.verdict (c : Chip) : Bool × Int := (c.ref.noVote, c.ref.freq)

theorem Chip.onRefIn_verdict (f : RefIn → RefIn) : (c.onRefIn x f).verdict = c.verdict := rfl

theorem Chip.ite_verdict {p : Prop} [Decidable p] {a b : Chip} (ha : a.verdict = c.verdict) (hb : b.verdict = c.verdict) :
    (if p then a else b).verdict = c.verdict := by
  split
  · exact ha
  · exact hb

theorem Chip.foldl_verdict {f : Chip → Nat → Chip} (step : ∀ c x, (f c x).verdict = c.verdict) (l : List Nat) :
    (l.foldl f c).verdict = c.verdict := by
  induction l generalizing c with
  | nil => rfl
  | cons x l ih => exact ih.trans (step c x)

theorem Chip.dpll_verdict (st : Dpll) : (c.dpll st).verdict = c.verdict := by
  unfold Chip.dpll
  split <;> rfl

theorem Chip.holdover_verdict : c.holdover.verdict = c.verdict := Chip.dpll_verdict (c := c.onRef _) _

theorem Chip.disqualify_verdict : (c.disqualify x k).verdict = c.verdict := by
  unfold Chip.disqualify
  exact Chip.ite_verdict rfl (Chip.ite_verdict Chip.holdover_verdict rfl)

theorem Chip.refWarn_verdict : (c.refWarn x d).verdict = c.verdict := by
  unfold Chip.refWarn
  exact Chip.ite_verdict rfl rfl

theorem Chip.loscVote_verdict : (c.loscVote d).verdict = c.verdict := by
  have drift : (if 100 * c.refSel 2 < d.natAbs && !c.ref.loscDrift then
      ((c.onRef fun r => { r with loscDrift := true, modelValid := false }).onRefIn 5 fun i => { i with eligible := false }).raise
        0x0B06 .fault
      else c).verdict = c.verdict := Chip.ite_verdict rfl rfl
  unfold Chip.loscVote
  dsimp only
  split
  · exact Chip.ite_verdict drift drift
  · exact drift

/-- Measuring the offsets of a second changes no qualification. -/
theorem Chip.qualified_of_mapIdx {g : Nat → RefIn → RefIn} (same : ∀ n i, (g n i).qualified = i.qualified) :
    ((c.onRef fun r => { r with ins := r.ins.mapIdx g }).refIn x).qualified = (c.refIn x).qualified := by
  simp only [Chip.refIn, Chip.onRef_ref, List.getD_eq_getElem?_getD, List.getElem?_mapIdx]
  cases c.ref.ins[x]? with
  | none => rfl
  | some i => exact same x i

/-- The inputs that vote (11 R294). -/
def Chip.voters (c : Chip) : List Nat := (List.range 6).filter fun x => (c.refIn x).qualified

/-- Input i of index x with its offset of this second: LOSC is the nominal frequency, and an input whose events arrive has the
mean of its gates in the vote's window (11 R294). -/
def RefIn.measured (window clk x : Nat) (i : RefIn) : RefIn :=
  if x = 5 then { i with nu := 0 }
  else if i.arriving x then { i with nu := mean ((i.gates.filter fun q => clk < q.1 + window * secClk).map Prod.snd) }
  else i

theorem RefIn.measured_qualified (window clk : Nat) (i : RefIn) : (i.measured window clk x).qualified = i.qualified := by
  unfold RefIn.measured
  split
  · rfl
  · split <;> rfl

/-- The part with the offsets of this second. -/
def Chip.withOffsets (c : Chip) : Chip :=
  c.onRef fun r => { r with ins := r.ins.mapIdx (RefIn.measured (c.refSel 3) c.clk) }

theorem Chip.withOffsets_voters : c.withOffsets.voters = c.voters := by
  unfold Chip.voters Chip.withOffsets
  simp only [Chip.qualified_of_mapIdx (g := RefIn.measured _ _) fun n i => RefIn.measured_qualified _ _ i]

/-- What a vote makes of an input that was disqualified for DRIFT (11 R295). -/
theorem Chip.rejoins_verdict (f g : RefIn → RefIn) (p q : Prop) [Decidable p] [Decidable q] :
    (if p then (if q then c.onRefIn x f else (c.onRefIn x f).onRefIn x g) else c).verdict = c.verdict :=
  Chip.ite_verdict (Chip.ite_verdict (Chip.onRefIn_verdict f) ((Chip.onRefIn_verdict g).trans (Chip.onRefIn_verdict f))) rfl

/-- NO_VOTE is set exactly when fewer than three inputs vote, and a vote leaves the frequency (11 R294, R295). -/
theorem Chip.driftVote_verdict : c.driftVote.verdict = (decide (c.voters.length < 3), c.ref.freq) := by
  rw [← Chip.withOffsets_voters]
  unfold Chip.driftVote
  refine (Chip.foldl_verdict (fun c x => ?rejoins) _).trans ?_
  case rejoins => exact Chip.rejoins_verdict _ _ _ _
  by_cases enough : 3 ≤ c.withOffsets.voters.length
  · rw [decide_eq_false (Nat.not_lt.mpr enough)]
    refine (congrArg Chip.verdict (if_pos enough)).trans (Chip.foldl_verdict (fun c x => ?_) _)
    have warned : ∀ d, (c.refWarn x d).verdict = c.verdict := fun d => Chip.refWarn_verdict
    exact Chip.ite_verdict (Chip.loscVote_verdict.trans (warned _))
      (Chip.ite_verdict (Chip.disqualify_verdict.trans (warned _)) (warned _))
  · rw [decide_eq_true (Nat.not_le.mp enough)]
    refine (congrArg Chip.verdict (if_neg enough)).trans (Chip.loscVote_verdict.trans
      ((Chip.foldl_verdict (fun c x => Chip.refWarn_verdict) _).trans ?_))
    split
    · next before => exact congrArg (·, c.ref.freq) before
    · rfl

end

/-- DRIFT_VOTE records, leaves the frequency, and shows the registers of the second (11 R294, R295, R318). -/
theorem driftVote_completes {s : State} {t : Nat} (live : s.live) (on : s.chip.ref.enabled = true) :
    CompletesAt (.driftVote t) s t [.ref, .err] fun c =>
      c.ref.noVote = decide (s.chip.voters.length < 3) ∧ c.ref.freq = s.chip.ref.freq ∧ c.ref.shown = c.refWords := by
  have voters : (s.chip.begin.advance t).voters = s.chip.voters := by simp [Chip.voters]
  obtain ⟨noVote, freq⟩ := Prod.mk.inj (Chip.driftVote_verdict (c := s.chip.begin.advance t))
  refine completesAt_of_refAct exec_driftVote live on rfl (.onRef (by decide) (.driftVote (by decide) (by decide) (.refl _ _)))
    ⟨?_, ?_, ?_⟩
  · simpa [voters] using noVote
  · simpa using freq
  · simp

/-- Settles O19: the evaluation, and the vote by the number of inputs that vote. -/
theorem selectorSteps : Obligations.SelectorSteps := by
  unfold Obligations.SelectorSteps
  intro s t live on
  have vote := driftVote_completes (t := t) live on
  refine ⟨selectorEvaluation_completes live on, fun enough => vote.imp fun c ⟨noVote, rest⟩ => ⟨?_, rest⟩,
    fun few _ => vote.imp fun c ⟨noVote, rest⟩ => ⟨?_, rest⟩⟩
  · exact noVote.trans (decide_eq_false (Nat.not_lt.mpr enough))
  · exact noVote.trans (decide_eq_true few)

end Sys2Proof.Machine

namespace Sys2Proof.Machine

/-! What the commands of the twin link run -/

theorem exec_twinLinkChange (a b al : Bool) (s : State) :
    Sys2Proof.Machine.exec (.twinLinkChange a b al) s = execTwinLinkChange a b al s := by rfl

theorem exec_twinFrameRx (f : TwinFrame) (s : State) :
    Sys2Proof.Machine.exec (.twinFrameRx f) s = execTwinFrameRx f s := by rfl

theorem exec_twinFrameMissed (bad : Bool) (s : State) :
    Sys2Proof.Machine.exec (.twinFrameMissed bad) s = execTwinFrameMissed bad s := by rfl

theorem exec_roleTakeEffect (s : State) : Sys2Proof.Machine.exec .roleTakeEffect s = execRoleTakeEffect s := by rfl

theorem exec_pathFail (p : HbPath) (t : Nat) (s : State) :
    Sys2Proof.Machine.exec (.pathFail p t) s = execPathFail p t s := by rfl

theorem exec_pathTRestore (s : State) : Sys2Proof.Machine.exec .pathTRestore s = execPathTRestore s := by rfl

end Sys2Proof.Machine

namespace Sys2Proof.Machine

/-! Roles (12 R322, R342, R343) -/

section
variable {c a b : Chip} {L : List Piece} {N : Nat} {r : Role} {e : Word} {full : Bool}

/-- TWIN when ROLE has become r: a change of it is told in ROLE_CHANGE (12 R351). -/
def Twin.withRole (r : Role) (t : Twin) : Twin := { t with role := r, roleChange := t.roleChange || decide (t.role ≠ r) }

/-- The role once a standby is MENDING exactly while a region mends. -/
def Twin.settledRole (t : Twin) : Role :=
  if t.role = .standby ∨ t.role = .mending then if t.mending.isEmpty then .standby else .mending else t.role

theorem Chip.setRole_twin {note : Bool} : (c.setRole r note).twin = c.twin.withRole r := by
  unfold Chip.setRole Twin.withRole
  by_cases same : c.twin.role = r
  · subst same
    simp
  · cases note <;> simp [same]

theorem Chip.roleSettle_twin : c.roleSettle.twin = c.twin.withRole c.twin.settledRole := by
  have standby : c.isStandby = true ↔ c.twin.role = .standby ∨ c.twin.role = .mending := by simp [Chip.isStandby]
  unfold Chip.roleSettle Twin.settledRole
  by_cases h : c.isStandby = true
  · rw [if_pos h, if_pos (standby.mp h), Chip.setRole_twin]
  · rw [if_neg h, if_neg fun k => h (standby.mpr k)]
    simp [Twin.withRole]

theorem Chip.keeps.setRole {note : Bool} (m : Piece.twin ∈ L) (n : Piece.err ∈ L) (h : a.keeps L b) :
    a.keeps L (b.setRole r note) := by
  unfold Chip.setRole
  exact .ite h (.ite (.raise n (.onTwin m h)) (.onTwin m h))

theorem Chip.keeps.roleSettle (m : Piece.twin ∈ L) (n : Piece.err ∈ L) (h : a.keeps L b) : a.keeps L b.roleSettle := by
  unfold Chip.roleSettle
  exact .ite (.setRole m n h) h

/-- Some path to the peer is up (12 R340). -/
def Twin.reaches (t : Twin) : Prop := t.pathT = true ∨ t.pathL = true ∨ t.pathD = true

theorem Chip.allLost_of_reaches (up : c.twin.reaches) : c.allLost = c := by
  have some_path : (c.twin.pathT || c.twin.pathL || c.twin.pathD) = true := by
    simpa [Twin.reaches, or_assoc] using up
  exact if_pos some_path

/-- A lead that loses its last path says so once (12 R342). -/
theorem Chip.allLost_of_lead (lost : ¬ c.twin.reaches) (lead : c.twin.role = .lead) (told : c.twin.peerLost = false) :
    c.allLost = (c.onTwin fun t => { t with peerLost := true }).raise 0x0F08 .fault := by
  have no_path : (c.twin.pathT || c.twin.pathL || c.twin.pathD) = false := by
    simpa [Twin.reaches, and_assoc] using lost
  simp only [Chip.allLost, no_path, lead, told, Bool.false_eq_true, if_false]

theorem Chip.keeps.allLost (m : Piece.twin ∈ L) (n : Piece.err ∈ L) (h : a.keeps L b) : a.keeps L b.allLost := by
  unfold Chip.allLost
  refine .ite h ?_
  split
  · exact .ite h (.raise n (.onTwin m h))
  · exact .raise n (.setRole m n h)
  · exact .raise n (.setRole m n h)
  · exact h

/-- The role that a decision for r gives: a standby that mends stays MENDING. -/
def Twin.decidedRole (r : Role) (t : Twin) : Role := if r = .standby && !t.mending.isEmpty then .mending else r

/-- The part when a decision for the role, the epoch and the full mend has taken effect at tick N (12 R343). -/
def Chip.decided (N : Nat) (r : Role) (e : Word) (full : Bool) (c : Chip) : Chip :=
  ((c.dutyUntil (N + 1) r).setRole r true).onTwin fun t => { t with
    next := none, epoch := e, peerLost := false, suspended := !t.pathT, fullMend := t.fullMend || full }

/-- The same when a unit that leads mends no more (12 R339). -/
def Chip.decidedEnds (N : Nat) (r : Role) (e : Word) (full : Bool) (c : Chip) : Chip :=
  if r = .lead then (c.decided N r e full).mendsEnd N else c.decided N r e full

theorem Chip.takeRole_of_next (next : c.twin.next = some (r, e, full)) :
    c.takeRole N = (c.decidedEnds N (c.twin.decidedRole r) e full).allLost := by
  unfold Chip.takeRole
  rw [next]
  rfl

theorem Chip.dutyUntil_twin : ∃ duty, (c.dutyUntil N r).twin = { c.twin with dutyTo := duty } := by
  unfold Chip.dutyUntil
  dsimp only
  split
  · exact ⟨_, rfl⟩
  · exact ⟨c.twin.dutyTo, rfl⟩

theorem Chip.decided_twin : ∃ duty, (c.decided N r e full).twin = { c.twin.withRole r with
    dutyTo := duty, next := none, epoch := e, peerLost := false, suspended := !c.twin.pathT
    fullMend := c.twin.fullMend || full } := by
  obtain ⟨duty, sends⟩ := c.dutyUntil_twin (N := N + 1) (r := r)
  refine ⟨duty, ?_⟩
  rw [Chip.decided, Chip.onTwin_twin, Chip.setRole_twin, sends]
  rfl

theorem Chip.keeps.takeRole (m : Piece.twin ∈ L) (n : Piece.err ∈ L) (h : a.keeps L b) : a.keeps L (b.takeRole N) := by
  have duty : ∀ r, a.keeps L (b.dutyUntil (N + 1) r) := fun r => .ite (.onTwin m h) h
  unfold Chip.takeRole
  split
  · exact h
  · exact .allLost m n (.ite (.onTwin m (.onTwin m (.setRole m n (duty _)))) (.onTwin m (.setRole m n (duty _))))

end

end Sys2Proof.Machine

namespace Sys2Proof.Machine

section
variable {c : Chip} {s : State} {N : Nat} {r : Role} {e : Word} {full : Bool}

/-- What TWIN shows of a decision for role r and epoch e once it has taken effect, with a path up (12 R343). -/
structure Twin.Took (r : Role) (e : Word) (old t : Twin) : Prop where
  next : t.next = none
  epoch : t.epoch = e
  told : t.peerLost = false
  role : t.role = r
  mending : t.mending = if r = .lead then [] else old.mending
  change : t.roleChange = (old.roleChange || decide (old.role ≠ r))

/-- ROLE_CHANGE tells when two changes of ROLE have not led back (12 R351). -/
theorem Twin.Took.withRole_change {old t : Twin} {q : Role} (h : old.Took r e t) (moved : q ≠ old.role) :
    (t.withRole q).roleChange = true := by
  simp only [Twin.withRole, h.change, h.role, Bool.or_eq_true, decide_eq_true_eq]
  by_cases first : old.role = r
  · exact .inr fun same => moved (same.symm.trans first.symm)
  · exact .inl (.inr first)

theorem Chip.decidedEnds_took : c.twin.Took r e (c.decidedEnds N r e full).twin := by
  obtain ⟨duty, decided⟩ := c.decided_twin (N := N) (r := r) (e := e) (full := full)
  unfold Chip.decidedEnds
  split
  next lead =>
    rw [Chip.mendsEnd, Chip.onTwin_twin, decided]
    exact ⟨rfl, rfl, rfl, rfl, (if_pos lead).symm, rfl⟩
  next other =>
    rw [decided]
    exact ⟨rfl, rfl, rfl, rfl, (if_neg other).symm, rfl⟩

/-- A decision leaves the paths. -/
theorem Chip.decidedEnds_reaches : (c.decidedEnds N r e full).twin.reaches ↔ c.twin.reaches := by
  obtain ⟨duty, decided⟩ := c.decided_twin (N := N) (r := r) (e := e) (full := full)
  unfold Chip.decidedEnds
  split
  · rw [Chip.mendsEnd, Chip.onTwin_twin, decided]
    rfl
  · rw [decided]
    rfl

theorem Chip.takeRole_took (next : c.twin.next = some (r, e, full)) (up : c.twin.reaches) :
    c.twin.Took (c.twin.decidedRole r) e (c.takeRole N).twin := by
  rw [Chip.takeRole_of_next next, Chip.allLost_of_reaches (Chip.decidedEnds_reaches.mpr up)]
  exact Chip.decidedEnds_took

/-- A decided role takes effect while a path is up. -/
theorem roleTakeEffect_completes (live : s.live) (next : s.chip.twin.next = some (r, e, full)) (up : s.chip.twin.reaches) :
    Completes .roleTakeEffect s [.twin, .err] fun c =>
      c.twin.next = none ∧ c.twin.epoch = e ∧ c.twin.peerLost = false ∧
        (r = .lead → c.twin.role = .lead ∧ c.twin.mending = []) ∧
        (r = .standby → c.twin.mending = s.chip.twin.mending ∧
          (c.twin.role = .standby ↔ s.chip.twin.mending = []) ∧ (c.twin.role = .mending ↔ s.chip.twin.mending ≠ [])) ∧
        (c.twin.role ≠ s.chip.twin.role → c.twin.roleChange = true) := by
  have took := Chip.takeRole_took (c := s.chip.begin) (N := s.chip.sys.blk + 1) next up
  refine completes_of_effect _ (exec_roleTakeEffect s) live rfl
    (.roleSettle (by decide) (by decide) (.takeRole (by decide) (by decide) (.refl _ _))) ?_
  rw [Chip.settle_twin, Chip.roleSettle_twin]
  refine ⟨took.next, took.epoch, took.told, fun lead => ?_, fun standby => ?_, took.withRole_change⟩
  · subst lead
    exact ⟨by simp [Twin.withRole, Twin.settledRole, took.role, Twin.decidedRole], took.mending⟩
  · subst standby
    obtain ⟨-, -, -, role, mending, -⟩ := took
    by_cases idle : s.chip.twin.mending = []
    · simp [Twin.withRole, Twin.settledRole, Twin.decidedRole, role, mending, idle]
    · simp [Twin.withRole, Twin.settledRole, Twin.decidedRole, role, mending, idle]

/-- A lead by decision that has no path left has lost its peer (12 R342). -/
theorem Chip.takeRole_of_lost (next : c.twin.next = some (.lead, e, full)) (lost : ¬ c.twin.reaches) :
    (c.takeRole N).twin.next = none ∧ (c.takeRole N).twin.role = .lead ∧ (c.takeRole N).twin.peerLost = true := by
  have took := c.decidedEnds_took (N := N) (r := .lead) (e := e) (full := full)
  have alone := Chip.allLost_of_lead (mt Chip.decidedEnds_reaches.mp lost) took.role took.told
  rw [(Chip.takeRole_of_next next).trans alone]
  exact ⟨took.next, took.role, rfl⟩

theorem roleTakeEffect_lost (live : s.live) (next : s.chip.twin.next = some (.lead, e, full)) (lost : ¬ s.chip.twin.reaches) :
    Completes .roleTakeEffect s [.twin, .err] fun c =>
      c.twin.next = none ∧ c.twin.role = .lead ∧ c.twin.peerLost = true := by
  obtain ⟨decided, lead, alone⟩ := Chip.takeRole_of_lost (c := s.chip.begin) (N := s.chip.sys.blk + 1) next lost
  refine completes_of_effect _ (exec_roleTakeEffect s) live rfl
    (.roleSettle (by decide) (by decide) (.takeRole (by decide) (by decide) (.refl _ _))) ?_
  rw [Chip.settle_twin, Chip.roleSettle_twin]
  exact ⟨decided, by simp [Twin.withRole, Twin.settledRole, lead], alone⟩

end

end Sys2Proof.Machine

namespace Sys2Proof.Machine

/-! Block frames (12 R325, R340, R341, R347) -/

section
variable {c a b : Chip} {L : List Piece} {f : TwinFrame} {role : BitVec 3} {safe : Bool} {epoch : Word} {paths : BitVec 3}
  {level : Byte} {peg : Nat}

/-- The part when it has noted what the peer says of itself (12 R341, R343). -/
def Chip.notesPeer (role : BitVec 3) (safe : Bool) (epoch : Word) (paths : BitVec 3) (level : Byte) (peg : Nat) (c : Chip) :
    Chip :=
  c.onTwin fun t => { t with
    peerPeg := peg, peerRole := role, peerPaths := paths, peerLevel := level, peerEpoch := epoch, peerSafe := safe
    epoch := if c.isStandby && role = 2 then epoch else t.epoch, taken := if role = 1 then 0 else t.taken }

/-- The part with its decision against the peer, where it decides (12 R343). -/
def Chip.decidesAgainst (role : BitVec 3) (epoch : Word) (peg : Nat) (c : Chip) : Chip :=
  if c.decides then
    let d := c.decision role epoch peg
    let full := d.1 = .standby && (c.twin.role = .negotiating || c.twin.role = .lead)
    c.onTwin fun t => { t with next := some (d.1, d.2, full) }
  else c

/-- The part when it has compared the peer's twin-state level with its own (12 R347). -/
def Chip.comparesLevel (level : Byte) (c : Chip) : Chip :=
  if !c.paired && c.twin.next.isNone then c
  else if level ≠ twinLevel && !c.twin.unmatched then
    (c.onTwin fun t => { t with unmatched := true }).raise 0x0F0A .note
  else if level = twinLevel && c.twin.unmatched then
    c.onTwin fun t => { t with unmatched := false, fullMend := t.fullMend || c.isStandby }
  else c

theorem Chip.peerSeen_eq : c.peerSeen role safe epoch paths level peg =
    ((c.notesPeer role safe epoch paths level peg).decidesAgainst role epoch peg).comparesLevel level := rfl

theorem Chip.notesPeer_twin : ∃ own taken, (c.notesPeer role safe epoch paths level peg).twin = { c.twin with
    peerPeg := peg, peerRole := role, peerPaths := paths, peerLevel := level, peerEpoch := epoch, peerSafe := safe
    epoch := own, taken := taken } := ⟨_, _, rfl⟩

theorem Chip.decidesAgainst_twin : ∃ next, (c.decidesAgainst role epoch peg).twin = { c.twin with next := next } := by
  unfold Chip.decidesAgainst
  split
  · exact ⟨_, rfl⟩
  · exact ⟨c.twin.next, rfl⟩

theorem Chip.comparesLevel_twin : ∃ unmatched full,
    (c.comparesLevel level).twin = { c.twin with unmatched := unmatched, fullMend := full } := by
  unfold Chip.comparesLevel
  split
  · exact ⟨c.twin.unmatched, c.twin.fullMend, rfl⟩
  · split
    · exact ⟨true, c.twin.fullMend, rfl⟩
    · split
      · exact ⟨false, c.twin.fullMend || c.isStandby, rfl⟩
      · exact ⟨c.twin.unmatched, c.twin.fullMend, rfl⟩

/-- What is heard of the peer is kept, and may change the epoch, the count of its records, a decision and UNMATCHED. -/
theorem Chip.peerSeen_twin : ∃ own taken next unmatched full,
    (c.peerSeen role safe epoch paths level peg).twin = { c.twin with
      peerPeg := peg, peerRole := role, peerPaths := paths, peerLevel := level, peerEpoch := epoch, peerSafe := safe
      epoch := own, taken := taken, next := next, unmatched := unmatched, fullMend := full } := by
  obtain ⟨own, taken, noted⟩ :=
    c.notesPeer_twin (role := role) (safe := safe) (epoch := epoch) (paths := paths) (level := level) (peg := peg)
  obtain ⟨next, decided⟩ := (c.notesPeer role safe epoch paths level peg).decidesAgainst_twin
    (role := role) (epoch := epoch) (peg := peg)
  obtain ⟨unmatched, full, compared⟩ :=
    ((c.notesPeer role safe epoch paths level peg).decidesAgainst role epoch peg).comparesLevel_twin (level := level)
  exact ⟨own, taken, next, unmatched, full, by rw [Chip.peerSeen_eq, compared, decided, noted]⟩

theorem Chip.keeps.peerSeen (m : Piece.twin ∈ L) (n : Piece.err ∈ L) (h : a.keeps L b) :
    a.keeps L (b.peerSeen role safe epoch paths level peg) := by
  have decided : a.keeps L ((b.notesPeer role safe epoch paths level peg).decidesAgainst role epoch peg) :=
    .ite (.onTwin m (.onTwin m h)) (.onTwin m h)
  exact .ite decided (.ite (.raise n (.onTwin m decided)) (.ite (.onTwin m decided) decided))

theorem Chip.unmatchedSwap_twin : ∃ next, (c.unmatchedSwap f).twin = { c.twin with next := next } := by
  unfold Chip.unmatchedSwap
  dsimp only
  split
  · exact ⟨c.twin.next, rfl⟩
  · split
    · exact ⟨_, rfl⟩
    · split
      · exact ⟨_, rfl⟩
      · exact ⟨c.twin.next, rfl⟩

theorem Chip.keeps.unmatchedSwap (m : Piece.twin ∈ L) (h : a.keeps L b) : a.keeps L (b.unmatchedSwap f) := by
  unfold Chip.unmatchedSwap
  exact .ite h (.ite (.onTwin m h) (.ite (.onTwin m h) h))

/-- The part when a good frame has been counted, before its mirror records are taken. -/
def Chip.hears (f : TwinFrame) (c : Chip) : Chip :=
  let c := c.peerSeen f.role f.safe f.epoch f.paths f.level f.peg.toNat
  (c.unmatchedSwap f).onTwin fun t => { t with
    frame := some f, goodRun := t.goodRun + 1, missRun := 0, ageT := 0, frameOk := true, peerHealth := f.health
    versionDiff := decide (f.level = twinLevel) && f.version ≠ ((c.running.map ImageHead.version).getD 0) }

theorem Chip.hears_twin : ∃ own taken next unmatched full diff, (c.hears f).twin = { c.twin with
    peerPeg := f.peg.toNat, peerRole := f.role, peerPaths := f.paths, peerLevel := f.level, peerEpoch := f.epoch
    peerSafe := f.safe, epoch := own, taken := taken, next := next, unmatched := unmatched, fullMend := full
    frame := some f, goodRun := c.twin.goodRun + 1, missRun := 0, ageT := 0, frameOk := true, peerHealth := f.health
    versionDiff := diff } := by
  obtain ⟨own, taken, _, unmatched, full, seen⟩ := c.peerSeen_twin (role := f.role) (safe := f.safe) (epoch := f.epoch)
    (paths := f.paths) (level := f.level) (peg := f.peg.toNat)
  obtain ⟨next, swapped⟩ := (c.peerSeen f.role f.safe f.epoch f.paths f.level f.peg.toNat).unmatchedSwap_twin (f := f)
  refine ⟨own, taken, next, unmatched, full, (c.hears f).twin.versionDiff, ?_⟩
  rw [Chip.hears, Chip.onTwin_twin, swapped, seen]

theorem Chip.keeps.hears (m : Piece.twin ∈ L) (n : Piece.err ∈ L) (h : a.keeps L b) : a.keeps L (b.hears f) :=
  .onTwin m (.unmatchedSwap m (.peerSeen m n h))

/-- A path that is up lets a frame say that the peer is there. -/
def Chip.found (c : Chip) : Chip := if c.twin.next.isNone then c.onTwin fun t => { t with peerLost := false } else c

theorem Chip.takeFrame_of_down (down : (c.hears f).twin.pathT = false) : c.takeFrame f = c.hears f := by
  have skips : (!(c.hears f).twin.pathT) = true := by rw [down]; rfl
  exact if_pos skips

theorem Chip.newRecords_of_none (none : f.mirror = []) : c.newRecords f = [] := by
  simp [Chip.newRecords, none]

/-- A frame without records only acknowledges, and under UNMATCHED does nothing more. -/
theorem Chip.takeFrame_of_up (up : (c.hears f).twin.pathT = true) (none : f.mirror = []) :
    c.takeFrame f = if (c.hears f).found.twin.unmatched then (c.hears f).found else
      ((c.hears f).found.frameCounts f).onTwin fun t => { t with taken := t.taken + 0 } := by
  have goes : ¬ (!(c.hears f).twin.pathT) = true := by rw [up]; decide
  refine (if_neg goes).trans ?_
  unfold Chip.found
  dsimp only
  rw [Chip.newRecords_of_none none]
  rfl

theorem Chip.keeps.frameCounts (m : Piece.twin ∈ L) (h : a.keeps L b) : a.keeps L (b.frameCounts f) := .onTwin m h

theorem Chip.keeps.found (m : Piece.twin ∈ L) (h : a.keeps L b) : a.keeps L b.found := .ite (.onTwin m h) h

theorem Chip.found_twin : ∃ lost, c.found.twin = { c.twin with peerLost := lost } := by
  unfold Chip.found
  split
  · exact ⟨false, rfl⟩
  · exact ⟨c.twin.peerLost, rfl⟩

/-- How many of the records in waiting a frame acknowledges: its count counts if it lies among their numbers (12 R325). -/
def Twin.acked (f : TwinFrame) (t : Twin) : Nat :=
  if t.sent ≤ f.heard ∧ f.heard ≤ t.sent + t.unacked.length then f.heard - t.sent else 0

theorem Chip.frameCounts_twin : ∃ part taken, (c.frameCounts f).twin = { c.twin with
    unacked := c.twin.unacked.drop (c.twin.acked f), sent := c.twin.sent + c.twin.acked f, part := part, taken := taken } :=
  ⟨_, _, rfl⟩

/-- A frame without records, or one on a path T that is down: what it acknowledges leaves the
records in waiting, and no other does. -/
theorem Chip.takeFrame_twin (quiet : (c.hears f).twin.pathT = false ∨ f.mirror = []) : ∃ n lost part taken,
    (c.takeFrame f).twin = { (c.hears f).twin with
      unacked := (c.hears f).twin.unacked.drop n, sent := (c.hears f).twin.sent + n, peerLost := lost, part := part
      taken := taken } ∧
    ((c.hears f).twin.pathT = true → (c.hears f).twin.unmatched = false → n = (c.hears f).twin.acked f) ∧
    ((c.hears f).twin.pathT = false → n = 0) := by
  cases up : (c.hears f).twin.pathT with
  | false =>
    rw [Chip.takeFrame_of_down up]
    exact ⟨0, _, _, _, rfl, nofun, fun _ => rfl⟩
  | true =>
    rw [Chip.takeFrame_of_up up (quiet.resolve_left (by simp [up]))]
    obtain ⟨lost, found⟩ := (c.hears f).found_twin
    cases unmatched : (c.hears f).twin.unmatched with
    | true =>
      rw [if_pos (by rw [found]; exact unmatched), found]
      exact ⟨0, lost, _, _, rfl, nofun, nofun⟩
    | false =>
      obtain ⟨part, taken, counted⟩ := (c.hears f).found.frameCounts_twin (f := f)
      rw [if_neg (by rw [found]; simp [unmatched]), Chip.onTwin_twin, counted, found]
      exact ⟨_, lost, part, _, rfl, fun _ _ => rfl, nofun⟩

theorem Chip.keeps.takeFrame (m : Piece.twin ∈ L) (n : Piece.err ∈ L)
    (quiet : (b.hears f).twin.pathT = false ∨ f.mirror = []) (h : a.keeps L b) : a.keeps L (b.takeFrame f) := by
  cases up : (b.hears f).twin.pathT with
  | false =>
    rw [Chip.takeFrame_of_down up]
    exact .hears m n h
  | true =>
    rw [Chip.takeFrame_of_up up (quiet.resolve_left (by simp [up]))]
    exact .ite (.found m (.hears m n h)) (.onTwin m (.frameCounts m (.found m (.hears m n h))))

end

end Sys2Proof.Machine

namespace Sys2Proof.Machine

/-! The clauses of the link -/

section
variable {s : State} {f : TwinFrame}

theorem twinLinkChange_completes (live : s.live) (a b al : Bool) : Completes (.twinLinkChange a b al) s [.twin] fun c =>
    c.twin = { s.chip.twin with lane0 := a, lane1 := b, aligned := a && b && al } :=
  completes_of_effect _ (exec_twinLinkChange a b al s) live rfl (.onTwin (by decide) (.refl _ _)) (Chip.settle_twin _)

/-- A frame of the peer, on lanes that are aligned, while the crossing delivers it (12 R325). -/
structure Chip.HearsPeer (f : TwinFrame) (c : Chip) : Prop where
  paired : c.twin.role ≠ .solo
  peer : f.peg.toNat = c.twinIt 2
  named : f.peg ≠ 0
  aligned : c.twin.aligned = true
  delivers : c.sys.xqSilent.getLsbD 13 = false

theorem Chip.HearsPeer.exec (h : s.chip.HearsPeer f) : Sys2Proof.Machine.exec (.twinFrameRx f) s =
    act (fun c => if f.n.toNat = s.chip.sys.blk then c.takeFrame f else c.missFrame false) s := by
  have ours : ¬ (s.chip.begin.twin.role = .solo ∨ f.peg.toNat ≠ s.chip.begin.twinIt 2 ∨ f.peg = 0) := by
    rintro (alone | foreign | unnamed)
    exacts [h.paired alone, foreign h.peer, h.named unnamed]
  have stray : (!s.chip.begin.twin.aligned || s.chip.begin.sys.xqSilent.getLsbD 13 ||
      decide (f.n.toNat ≠ s.chip.begin.sys.blk)) = decide (f.n.toNat ≠ s.chip.sys.blk) := by
    rw [Chip.begin_twin, Chip.begin_sys, h.aligned, h.delivers]
    rfl
  rw [exec_twinFrameRx, execTwinFrameRx, act_next, act_next]
  simp only [if_neg ours, stray, decide_eq_true_eq, ite_not]

/-- A good frame of the present block. -/
theorem twinFrameRx_good (live : s.live) (h : s.chip.HearsPeer f) (now : f.n.toNat = s.chip.sys.blk)
    (quiet : s.chip.twin.pathT = false ∨ f.mirror = []) : Completes (.twinFrameRx f) s [.twin, .err] fun c =>
      c.twin.frame = some f ∧ c.twin.goodRun = s.chip.twin.goodRun + 1 ∧ c.twin.missRun = 0 ∧ c.twin.ageT = 0 ∧
        c.twin.frameOk = true ∧ c.twin.peerHealth = f.health ∧ c.twin.peerRole = f.role ∧ c.twin.peerEpoch = f.epoch ∧
        c.twin.peerSafe = f.safe ∧ c.twin.role = s.chip.twin.role ∧
        (s.chip.twin.pathT = true → c.twin.unmatched = false → s.chip.twin.sent ≤ f.heard →
          f.heard ≤ s.chip.twin.sent + s.chip.twin.unacked.length →
          c.twin.sent = f.heard ∧ c.twin.unacked = s.chip.twin.unacked.drop (f.heard - s.chip.twin.sent)) ∧
        (s.chip.twin.pathT = false → c.twin.unacked = s.chip.twin.unacked) := by
  obtain ⟨own, taken, next, unmatched, full, diff, heard⟩ := s.chip.begin.hears_twin (f := f)
  have path : (s.chip.begin.hears f).twin.pathT = s.chip.twin.pathT := by rw [heard]; rfl
  obtain ⟨n, lost, part, _, took, acked, kept⟩ := Chip.takeFrame_twin (path.symm ▸ quiet)
  refine completes_of_effect _ h.exec live (if_pos now) (.takeFrame (by decide) (by decide) (path.symm ▸ quiet) (.refl _ _)) ?_
  rw [Chip.settle_twin, took]
  rw [path] at acked kept
  rw [heard] at acked
  rw [heard]
  refine ⟨rfl, rfl, rfl, rfl, rfl, rfl, rfl, rfl, rfl, rfl, fun up matched low high => ?_, fun down => ?_⟩
  · obtain rfl : n = f.heard - s.chip.twin.sent := (acked up matched).trans (if_pos ⟨low, high⟩)
    exact ⟨Nat.add_sub_cancel' low, rfl⟩
  · obtain rfl := kept down
    rfl

/-- A frame of another block counts as missed (12 R340, log 50). -/
theorem twinFrameRx_misplaced (live : s.live) (h : s.chip.HearsPeer f) (other : f.n.toNat ≠ s.chip.sys.blk) :
    Completes (.twinFrameRx f) s [.twin] fun c => c.twin = { s.chip.twin with
      missed := s.chip.twin.missed + 1, missRun := s.chip.twin.missRun + 1, goodRun := 0, frameOk := false } :=
  completes_of_effect _ h.exec live (if_neg other) (.onTwin (by decide) (.refl _ _)) (Chip.settle_twin _)

/-- A frame that does not come, or comes damaged. -/
theorem twinFrameMissed_completes (live : s.live) (paired : s.chip.twin.role ≠ .solo) (bad : Bool) :
    Completes (.twinFrameMissed bad) s [.twin] fun c => c.twin = (s.chip.begin.missFrame bad).twin :=
  completes_of_effect _ (exec_twinFrameMissed bad s) live (if_neg paired) (.onTwin (by decide) (.refl _ _)) (Chip.settle_twin _)

end

/-! The clauses of the paths -/

section
variable {c : Chip} {s : State} {t l : Nat}

theorem Chip.failT_of_reaches (up : c.twin.pathT = true) (other : c.twin.pathL = true) (duty : c.isStandby = false) :
    c.failT = (c.onTwin fun t => { t with pathT := false, goodRun := 0, suspended := c.paired }).raise 0x0F01 .note := by
  generalize made : (c.onTwin fun t => { t with pathT := false, goodRun := 0, suspended := c.paired }).raise 0x0F01 .note = d
  have still : d.isStandby = false := made ▸ duty
  have reaches : d.twin.reaches := .inr (.inl (made ▸ other))
  have goes : ¬ (!c.twin.pathT) = true := by simp [up]
  unfold Chip.failT
  rw [if_neg goes, made]
  simp only [still, Bool.false_eq_true, if_false, Chip.allLost_of_reaches reaches]

theorem Chip.settleAwaits_of_none (none : c.cmd.awaits = []) : c.settleAwaits = c := by
  unfold Chip.settleAwaits
  rw [none]
  exact ite_self _

/-- How a statement about a command is reached that changes TWIN and raises a NOTE. -/
theorem completesAt_of_twinNote {i : Instr} {code : Nat} {g : Twin → Twin} (f : Chip → Chip)
    (run : Sys2Proof.Machine.exec i s = act f s) (live : s.live)
    (effect : f s.chip.begin = ((s.chip.begin.advance t).onTwin g).raise code .note) :
    CompletesAt i s t [.twin, .err] fun c => c.twin = g s.chip.twin ∧ c.err = s.chip.recorded code .note := by
  refine completesAt_of_effect _ run live effect (.raise (by decide) (.onTwin (by decide) (.refl _ _)))
    ⟨?_, Chip.settle_err_of_raise (Chip.raise_err_congr ?_ ?_) ?_⟩
  all_goals simp

/-- Path T fails after three missed frames (12 R340, R342). -/
theorem pathFail_T (live : s.live) (missed : 3 ≤ s.chip.twin.missRun) (up : s.chip.twin.pathT = true)
    (other : s.chip.twin.pathL = true) (duty : s.chip.isStandby = false) (none : s.chip.cmd.awaits = []) :
    CompletesAt (.pathFail .T t) s t [.twin, .err] fun c =>
      c.twin = { s.chip.twin with pathT := false, goodRun := 0, suspended := s.chip.paired } ∧
        c.err = s.chip.recorded 0x0F01 .note := by
  have twin := Chip.advance_twin t s.chip.begin
  have paired : (s.chip.begin.advance t).paired = s.chip.paired := by rw [Chip.paired, twin]; rfl
  have fails := Chip.failT_of_reaches (c := s.chip.begin.advance t) (by rw [twin]; exact up) (by rw [twin]; exact other)
    (by rw [Chip.isStandby, twin]; exact duty)
  rw [paired] at fails
  have settles := Chip.settleAwaits_of_none (c := (s.chip.begin.advance t).failT) (by rw [fails]; simpa using none)
  exact completesAt_of_twinNote _ (exec_pathFail .T t s) live
    ((if_pos (twin ▸ missed)).trans (settles.trans fails))

/-- A heartbeat path that fails leaves another (12 R342). -/
theorem Chip.allLost_of_note {g : Twin → Twin} {code : Nat} (up : (g c.twin).reaches) :
    ((c.onTwin g).raise code .note).allLost = (c.onTwin g).raise code .note :=
  Chip.allLost_of_reaches up

theorem pathFail_L (live : s.live) (last : s.chip.twin.lastL = some l) (up : s.chip.twin.pathL = true)
    (late : l + 30 * msClk ≤ max s.chip.clk t) (other : s.chip.twin.pathT = true ∨ s.chip.twin.pathD = true) :
    CompletesAt (.pathFail .L t) s t [.twin, .err] fun c =>
      c.twin = { s.chip.twin with pathL := false } ∧ c.err = s.chip.recorded 0x0F03 .note := by
  have left := Chip.allLost_of_note (c := s.chip.begin.advance t) (g := fun t => { t with pathL := false }) (code := 0x0F03)
    (by simpa [Twin.reaches] using other)
  refine completesAt_of_twinNote _ (exec_pathFail .L t s) live ((if_pos ?_).trans left)
  simp [last, up, late]

theorem pathFail_D (live : s.live) (last : s.chip.twin.lastD = some l) (up : s.chip.twin.pathD = true)
    (late : l + 300 * msClk ≤ max s.chip.clk t) (other : s.chip.twin.pathT = true ∨ s.chip.twin.pathL = true) :
    CompletesAt (.pathFail .D t) s t [.twin, .err] fun c =>
      c.twin = { s.chip.twin with pathD := false } ∧ c.err = s.chip.recorded 0x0F03 .note := by
  have left := Chip.allLost_of_note (c := s.chip.begin.advance t) (g := fun t => { t with pathD := false }) (code := 0x0F03)
    (by simpa [Twin.reaches] using other)
  refine completesAt_of_twinNote _ (exec_pathFail .D t s) live ((if_pos ?_).trans left)
  simp [last, up, late]

/-- Path T is back after three good frames (12 R340, R342). -/
theorem pathTRestore_completes (live : s.live) (down : s.chip.twin.pathT = false) (good : 3 ≤ s.chip.twin.goodRun) :
    Completes .pathTRestore s [.twin, .err] fun c =>
      c.twin.pathT = true ∧ c.twin.suspended = false ∧ c.twin.role = s.chip.twin.role ∧
        c.err = s.chip.recorded 0x0F02 .note := by
  have due : (!s.chip.begin.twin.pathT && decide (3 ≤ s.chip.begin.twin.goodRun)) = true := by simp [down, good]
  refine completes_of_effect _ (exec_pathTRestore s) live (if_pos due) (.raise (by decide) (.onTwin (by decide) (.refl _ _))) ?_
  rw [Chip.settle_twin]
  exact ⟨rfl, rfl, rfl, Chip.settle_err_of_raise (Chip.raise_err_congr rfl rfl) rfl⟩

end

/-- Settles O37: each clause is the lemma on its row. -/
theorem twinLink : Obligations.TwinLink := by
  unfold Obligations.TwinLink
  intro s t live
  refine ⟨twinLinkChange_completes live, fun f paired peer named aligned delivers => ?frame, fun paired =>
    ⟨twinFrameMissed_completes live paired true, twinFrameMissed_completes live paired false⟩,
    fun _ _ _ next up => roleTakeEffect_completes live next up, fun _ _ next downT downL downD => ?lost,
    pathFail_T live, fun _ => pathFail_L live, fun _ => pathFail_D live, pathTRestore_completes live⟩
  case frame =>
    have hears : s.chip.HearsPeer f := ⟨paired, peer, named, aligned, delivers⟩
    exact ⟨twinFrameRx_good live hears, twinFrameRx_misplaced live hears⟩
  case lost => exact roleTakeEffect_lost live next (by simp [Twin.reaches, downT, downL, downD])

end Sys2Proof.Machine

namespace Sys2Proof.Machine

/-! A heartbeat is taken from its receive ring (12 R341; 17 R451, R453) -/

section
variable {c : Chip} {s : State} {drop : Bool} {hb : Heartbeat} {t : Nat}

/-- The part when it has noted the time of a heartbeat, and that its path is up (12 R340, R342). -/
def Chip.timesBeat (drop : Bool) (c : Chip) : Chip :=
  let up := if drop then c.twin.pathD else c.twin.pathL
  let c := c.onTwin fun t =>
    if drop then { t with lastD := some c.clk, pathD := true } else { t with lastL := some c.clk, pathL := true }
  if up then c else c.raise 0x0F04 .note

/-- The part when it has heard a heartbeat of its peer, before a standby joins the profile of its lead (12 R323, R341). -/
def Chip.hearsBeat (drop : Bool) (hb : Heartbeat) (c : Chip) : Chip :=
  ((c.timesBeat drop).peerSeen hb.role hb.safe hb.epoch hb.paths hb.twinLevel hb.peg.toNat).onTwin fun t => { t with
    peerProfile := some hb.profile, peerLost := t.peerLost && t.next.isSome }

theorem exec_heartbeatRx : Sys2Proof.Machine.exec (.heartbeatRx drop hb t) s = act (fun c =>
    let c := (c.advance t).takeHeartbeat drop
    if c.twin.role = .solo ∨ hb.peg.toNat ≠ c.twinIt 2 ∨ hb.peer.toNat ≠ c.boot.peg.toNat ∨ hb.peg = 0 then c
    else (c.hearsBeat drop hb).joinProfile hb.profile) s := by rfl

theorem Chip.hearsBeat_fresh : (c.hearsBeat drop hb).fresh = c.fresh :=
  (Chip.keeps.onTwin (L := [.twin, .err]) (by decide) (.peerSeen (by decide) (by decide)
    (.ite (.onTwin (by decide) (.refl _ _)) (.raise (by decide) (.onTwin (by decide) (.refl _ _)))))).get_fresh

theorem Chip.timesBeat_role : (c.timesBeat drop).twin.role = c.twin.role := by
  unfold Chip.timesBeat
  rw [apply_ite Chip.twin, Chip.raise_twin, ite_self, Chip.onTwin_twin]
  cases drop <;> rfl

theorem Chip.hearsBeat_role : (c.hearsBeat drop hb).twin.role = c.twin.role := by
  obtain ⟨_, _, _, _, _, seen⟩ := (c.timesBeat drop).peerSeen_twin (role := hb.role) (safe := hb.safe) (epoch := hb.epoch)
    (paths := hb.paths) (level := hb.twinLevel) (peg := hb.peg.toNat)
  rw [Chip.hearsBeat, Chip.onTwin_twin, seen]
  exact Chip.timesBeat_role

theorem Chip.joinProfile_of_lead {p : Profile} (lead : c.twin.role = .lead) : c.joinProfile p = c := by
  simp [Chip.joinProfile, Chip.isStandby, lead]

/-- What a HEARTBEAT_RX of a lead takes of free values is what the frame takes that is read from the receive ring. -/
theorem Completes.heartbeatRx_fresh {named : List Piece} {P : Chip → Prop} (live : s.live)
    (unnamed : Piece.fresh ∉ [.out, .irq] ++ named)
    (lead : ((s.chip.begin.advance t).takeHeartbeat drop).twin.role = .lead)
    (h : Completes (.heartbeatRx drop hb t) s named P) :
    ((s.chip.begin.advance t).takeHeartbeat drop).fresh = s.chip.fresh := by
  obtain ⟨u, hu, -, -, frame, -⟩ := h
  rw [exec_heartbeatRx, act_live _ live.1] at hu
  obtain rfl := Host.Outcome.next.inj hu
  rw [← frame.get_fresh unnamed, Chip.settle_fresh]
  dsimp only
  split
  · rfl
  · rw [Chip.joinProfile_of_lead (Chip.hearsBeat_role.trans lead), Chip.hearsBeat_fresh]

end

/-- A lead whose peer has peg 4: a heartbeat of it waits in ring 2 of LINKA, and a correctable upset has struck the first ECC
word of its descriptor. -/
def State.beatenOverUpset : State :=
  let c := State.reset.chip
  { State.reset with chip := { c with
      sys := { c.sys with now := { c.sys.now with items := [(item 0x0D 0 2, 4)] } }
      twin := { c.twin with role := .lead }
      macs := c.macs.set 0 { up := true, portEn := true, rx := {} :: {} :: { made := 1, inbox :=
        [{ bytes := List.replicate 60 0, trunc := false, bufs := [3], at_ := 0 }] } :: List.replicate 5 {} }
      mem := { c.mem with bytes := { zeroed := [(0x40000000, 0x40800000)], upset := [(rxBase 0 2, false)] } } } }

/-- A heartbeat of that peer. -/
def peerBeat : Heartbeat :=
  { level := 1, peg := 4, role := 3, unmatched := false, safe := false, epoch := 3, paths := 7, twinLevel := twinLevel,
    peer := 0, block := 0, health := 0 }

theorem State.beatenOverUpset_live : State.beatenOverUpset.live := ⟨rfl, rfl, rfl⟩

/-- The SUP core reads the descriptor, and the log of the darn takes a free value for its syndrome (17 R451, R459, log 8). -/
theorem State.beatenOverUpset_taken :
    ((State.beatenOverUpset.chip.begin.advance 0).takeHeartbeat false).twin.role = .lead ∧
      ((State.beatenOverUpset.chip.begin.advance 0).takeHeartbeat false).fresh = State.beatenOverUpset.chip.fresh + 1 := by
  decide +kernel

/-- Refutes O38: a HEARTBEAT_RX whose frame lies over a correctable word moves the counter of free values, a piece that its
frame does not name. -/
theorem not_heartbeats : ¬ Obligations.Heartbeats := by
  unfold Obligations.Heartbeats
  intro h
  obtain ⟨-, -, heard⟩ := h State.beatenOverUpset 0 State.beatenOverUpset_live nofun
  obtain ⟨onLink, -⟩ := heard peerBeat (by decide +kernel) rfl nofun (.inl rfl)
  obtain ⟨lead, moved⟩ := State.beatenOverUpset_taken
  have unmoved := Completes.heartbeatRx_fresh State.beatenOverUpset_live (by decide) lead onLink
  exact Nat.succ_ne_self _ (moved.symm.trans unmoved)

end Sys2Proof.Machine

namespace Sys2Proof.Machine

/-! The records of one raise (18 R463 to R468) -/

section
variable (c : Chip) (r : Rec)

/-- The handling of a FATAL leaves the queue, the latch and what waits (18 R471, R472). -/
theorem Chip.fatal_err : ∃ abandon handling entry, (c.fatal r).err =
    { c.err with fatalSeen := true, abandon := abandon, handling := handling, entry := entry } := by
  simp only [Chip.fatal, Chip.onErr_err]
  repeat' split
  all_goals exact ⟨_, _, _, rfl⟩

@[simp] theorem Chip.fatal_queue : (c.fatal r).err.queue = c.err.queue := by
  obtain ⟨_, _, _, h⟩ := c.fatal_err r
  rw [h]

@[simp] theorem Chip.fatal_raising : (c.fatal r).err.raising = c.err.raising := by
  obtain ⟨_, _, _, h⟩ := c.fatal_err r
  rw [h]

@[simp] theorem Chip.fatal_host : (c.fatal r).host = c.host := rfl

@[simp] theorem Err.count_queue (e : Err) (cls : Cls) : (e.count cls).queue = e.queue := by cases cls <;> rfl
@[simp] theorem Err.count_first (e : Err) (cls : Cls) : (e.count cls).first = e.first := by cases cls <;> rfl
@[simp] theorem Err.count_raising (e : Err) (cls : Cls) : (e.count cls).raising = e.raising := by cases cls <;> rfl

@[simp] theorem Chip.lose_raising : (c.lose r).err.raising = c.err.raising := rfl

@[simp] theorem Chip.noteLoss_raising : (c.noteLoss r).err.raising = c.err.raising := by
  unfold Chip.noteLoss
  dsimp only
  split_ifs <;> rfl

@[simp] theorem Chip.enter1_raising : (c.enter1 r).err.raising = c.err.raising := by
  unfold Chip.enter1
  dsimp only
  split_ifs <;> simp [Err.repeated]

/-- Once the raises are entered none waits. -/
theorem Chip.enterAll_raising : c.enterAll.err.raising = [] := by
  have entered : ∀ (rs : List Rec) (d : Chip), (rs.foldl (fun d r => d.enter1 r) d).err.raising = d.err.raising := by
    intro rs
    induction rs with
    | nil => exact fun d => rfl
    | cons r rs ih => exact fun d => (ih _).trans (d.enter1_raising r)
  exact entered _ _

@[simp] theorem Chip.deliver_pulses (v : Nat) : (c.deliver v).host.pulses = c.host.pulses := by
  unfold Chip.deliver
  dsimp only
  split <;> rfl

theorem Chip.settleIrq_pulses : c.settleIrq.host.pulses = [] := by
  have delivered : ∀ (vs : List Nat) (d : Chip), (vs.foldl Chip.deliver d).host.pulses = d.host.pulses := by
    intro vs
    induction vs with
    | nil => exact fun d => rfl
    | cons v vs ih => exact fun d => (ih _).trans (d.deliver_pulses v)
  exact delivered _ _

/-- What is settled has nothing left to settle. -/
theorem Chip.settled_settle : c.settle.settled :=
  ⟨by rw [Chip.settle_err, Chip.enterAll_raising], Chip.settleIrq_pulses _⟩

end

/-! A raise that repeats a queued record, and a FATAL (18 R465) -/

section
variable {c : Chip} {r : Rec}

/-- What the part adds to a raise is nothing that repeats are told by. -/
theorem repeats_marked (q : List Rec) (safe during : Bool) (seq : Nat) :
    repeats q { r with safe := safe, during := during, seq := seq } = repeats q r := rfl

/-- A repeat changes the queued record and the counters. -/
theorem Chip.enter1_of_repeats (h : repeats c.err.queue r = true) :
    c.enter1 r = c.onErr fun e => ({ e.count r.cls with nextSeq := e.nextSeq + 1 } : Err).repeated r := by
  have other : r.cls ≠ .fatal := by
    intro fatal
    simp [repeats, fatal] at h
  unfold Chip.enter1
  dsimp only
  rw [if_neg other, repeats_marked, if_pos h]
  rfl

/-- The only record with a code and a DETAIL is the one that a repeat raises. -/
theorem map_repeats_eq_set {q : List Rec} {n : Nat} {x : Rec} (get : q[n]? = some x) (code : x.code = r.code)
    (detail : x.detail = r.detail)
    (only : ∀ k y, q[k]? = some y → y.code = r.code → y.detail = r.detail → k = n) (f : Rec → Rec) :
    (q.map fun y => if y.code = r.code && y.detail = r.detail then f y else y) = q.set n (f x) := by
  refine List.ext_getElem? fun k => ?_
  rw [List.getElem?_map, List.getElem?_set]
  by_cases k_eq : n = k
  · subst k_eq
    rw [get, if_pos rfl, if_pos (List.getElem?_eq_some_iff.mp get).1]
    simp [code, detail]
  · rw [if_neg k_eq]
    cases at_k : q[k]? with
    | none => rfl
    | some y =>
      have ne : ¬(y.code = r.code ∧ y.detail = r.detail) := fun h => k_eq (only k y at_k h.1 h.2).symm
      simp [ne]

/-- A FATAL that finds room is queued as it came, with what the part adds to it, and pulses vector 3. -/
theorem Chip.enter1_of_fatal (fatal : r.cls = .fatal) (room : c.err.queue.length < 16) :
    (c.enter1 r).err.queue = c.err.queue ++ [{ r with
        safe := c.err.safe, during := !c.err.safe && (c.err.handling.isSome || c.err.entry.isSome), seq := c.err.nextSeq }] ∧
      (c.enter1 r).host.pulses = 3 :: c.host.pulses := by
  have alone : repeats c.err.queue r = false := by simp [repeats, fatal]
  unfold Chip.enter1
  dsimp only
  rw [if_pos fatal, repeats_marked, alone]
  simp [fatal, room]

end

/-- Settles O10: a repeat by `Chip.enter1_of_repeats`, a FATAL by `Chip.enter1_of_fatal`. -/
theorem repeatedError : Obligations.RepeatedError := by
  unfold Obligations.RepeatedError
  intro c r x n get code detail
  refine ⟨fun other only => ?_, fun fatal room => ?_⟩
  · have again : repeats c.err.queue r = true := by
      simp only [repeats, ne_eq, other, not_false_eq_true, decide_true, Bool.true_and, List.any_eq_true]
      exact ⟨x, List.mem_of_getElem? get, by simp [code, detail]⟩
    rw [Chip.enter1_of_repeats again]
    refine ⟨?_, rfl, Err.count_first _ _⟩
    simp only [Chip.onErr_err, Err.repeated, Err.count_queue]
    exact map_repeats_eq_set get code detail only _
  · obtain ⟨queued, pulsed⟩ := Chip.enter1_of_fatal fatal room
    exact ⟨_, queued, rfl, rfl, rfl, fatal, pulsed⟩

end Sys2Proof.Machine

namespace Sys2Proof.Machine

/-! What every command answers: it leaves the queue, and it leaves nothing unsettled (18 R463, 15 R413) -/

/-- Whatever state an outcome of `s` answers, its queue is that of `s`, and it is settled if `s` is. -/
def Answer.orderly (s : State) (o : Host.Outcome State Fault Refusal) : Prop :=
  ∀ t, o = .next t → t.pending = s.pending ∧ (s.chip.settled → t.chip.settled)

theorem orderly_act (f : Chip → Chip) (s : State) : Answer.orderly s (act f s) := by
  rintro t ⟨⟩
  refine ⟨rfl, fun settled => ?_⟩
  dsimp only
  split
  · exact settled
  · exact Chip.settled_settle _

theorem orderly_actHam (f : Hamper × Chip → Hamper × Chip) (s : State) : Answer.orderly s (actHam f s) := by
  unfold actHam
  split
  · rintro t ⟨⟩
    exact ⟨rfl, id⟩
  · rintro t ⟨⟩
    exact ⟨rfl, fun _ => Chip.settled_settle _⟩

theorem orderly_command {opcode : Nat} {h : Hdr} {params : List Word} {run : Chip → Option Rep × Chip} (s : State) :
    Answer.orderly s (command opcode h params run s) := orderly_actHam _ s

theorem orderly_spiTransaction {op : Byte} {f : Hamper × Chip → List Byte × Bool × Chip} (s : State) :
    Answer.orderly s (spiTransaction op f s) := orderly_actHam _ s

theorem orderly_csrStep {master : Byte} {addr : Nat} {f : Chip → Bool × Chip} (s : State) :
    Answer.orderly s (csrStep master addr f s) := orderly_act _ s

theorem orderly_refAct {t : Nat} {f : Chip → Chip} (s : State) : Answer.orderly s (refAct t f s) := orderly_act _ s

theorem orderly_next {s u : State} (queue : u.pending = s.pending) (settled : s.chip.settled → u.chip.settled) :
    Answer.orderly s (.next u) := by
  rintro t ⟨⟩
  exact ⟨queue, settled⟩

theorem Chip.settled_afterReset (held : Bool) (c : Chip) : (c.afterReset held).settled := ⟨rfl, rfl⟩

theorem State.resetPart_pending (held : Bool) (s : State) : (s.resetPart held).pending = s.pending := by
  simp only [State.resetPart]

/-- A reset of the part drops what waits to be recorded. -/
theorem orderly_resetPart {s : State} {c : Chip} (held : Bool) :
    Answer.orderly s (.next (({ s with chip := c } : State).resetPart held)) :=
  orderly_next (State.resetPart_pending _ _) fun _ => Chip.settled_afterReset held c

theorem orderly_powerReset (s : State) : Answer.orderly s (actRaw State.powerReset s) := orderly_resetPart true

theorem orderly_execResetAssert (s : State) : Answer.orderly s (execResetAssert s) := orderly_resetPart true

theorem orderly_execResetRelease (s : State) : Answer.orderly s (execResetRelease s) := by
  unfold execResetRelease actRaw
  dsimp only
  split
  · exact orderly_resetPart _
  · exact orderly_next rfl id

theorem orderly_execTestEnReset (high : Bool) (s : State) : Answer.orderly s (execTestEnReset high s) := by
  unfold execTestEnReset actRaw
  dsimp only
  split
  · exact orderly_resetPart _
  · split
    · exact orderly_resetPart _
    · exact orderly_next rfl id

theorem orderly_execBoundaryScan (ir : JtagIr) (shift : List Bool) (s : State) :
    Answer.orderly s (execBoundaryScan ir shift s) := by
  refine orderly_next rfl fun settled => ?_
  cases ir
  case extest =>
    dsimp only
    split <;> exact settled
  all_goals exact settled

/-- Every command runs on the part and settles it, but for the resets, the pins of test and the boundary scan. -/
theorem orderly_exec (i : Instr) (s : State) : Answer.orderly s (Sys2Proof.Machine.exec i s) := by
  cases i
  all_goals dsimp only [exec]
  case brownOut | thermalTrip => exact orderly_powerReset s
  case resetAssert => exact orderly_execResetAssert s
  case resetRelease => exact orderly_execResetRelease s
  case testEnReset => exact orderly_execTestEnReset _ s
  case boundaryScan => exact orderly_execBoundaryScan _ _ s
  case linkFrameRx | rxTruncation | dropFrameRx | hamperRefill | bufferReturn | blockTick | dmaRestart | commandPacket |
    startupWatchdog | latchingRead | coldPressLedgerCheck | barAccess => exact orderly_actHam _ s
  case spiWrite | spiRead | spiStatus | cmdPut | rplGet | spiUnknownOpcode => exact orderly_spiTransaction s
  case hello | getVersion | tackSet | tackGet | tackClear | press | pressAt | pressedGet | tackList |
    jobStatus | jobResultRead | jobAbandon | snapshot | ledgerRead | countersRead | rinse | fill | lineSweep |
    pilotMeasure | channelRetry | selfTest | flowTableRebuild | refForce | refClearHistory | twinMend | twinSwap |
    twinForceLead | imageStage | imageVerify | imageActivate | errRead | errAck | safeExit | profileSet | pegReport |
    sessionOpen => exact orderly_command s
  case hostReqProdWrite | hostRplConsWrite | hostIrqPendClear | mbxGo | mbxAck | mbxCancel | mbxBindWrite | mbxLockSet |
    mbxDbRingWrite | busLockWrite | busLockForce | busService | errHeadAck | errRearmBus | errRearmMem |
    overflowSeenClear => exact orderly_csrStep s
  case refEvent | inputStopped | inputQualified | wtrExpiry | driftVote | selectorEvaluation | switchComplete | dpllLocked |
    holdoverLimit | modelUpdate => exact orderly_refAct s
  all_goals exact orderly_act _ s

/-- Settles O1: `step` is defined by its cases on the queue. -/
theorem frontCommandRuns : Obligations.FrontCommandRuns := by
  unfold Obligations.FrontCommandRuns
  refine ⟨fun c q s => rfl, fun s empty => ?_⟩
  unfold Machine.step
  rw [empty]

/-- Settles O2: what `orderly_exec` says of the queue. -/
theorem queueUntouched : Obligations.QueueUntouched := by
  unfold Obligations.QueueUntouched
  exact fun c s t h => (orderly_exec c s t h).1

/-- Settles O6: a step runs the front command by `orderly_exec`, and with no command nothing changes. -/
theorem nothingUnrecorded : Obligations.NothingUnrecorded := by
  unfold Obligations.NothingUnrecorded
  intro s t settled h
  unfold Steps Machine.step at h
  split at h
  · cases h
    exact settled
  · exact (orderly_exec _ _ t h).2 settled

/-! The pins of the host and of errors (15 R416, 18 R481), and a byte that is written (17 R445) -/

/-- Settles O11: a word is not 0 exactly where it has a bit that is 1. -/
theorem spiInterruptPin : Obligations.SpiInterruptPin := by
  unfold Obligations.SpiInterruptPin
  refine ⟨fun c => ?_, rfl⟩
  have bits : c.host.pend &&& c.host.spiIrqEn = 0 ↔ ∀ v, v < 32 → (c.host.pend &&& c.host.spiIrqEn).getLsbD v = false := by
    refine ⟨fun zero v _ => by simp [zero], fun none => BitVec.eq_of_getLsbD_eq fun v hv => ?_⟩
    simp [none v hv]
  rw [Chip.spiIrq, decide_eq_true_eq, ne_eq, bits]
  simp only [BitVec.getLsbD_and, Bool.and_eq_false_iff, not_forall, exists_prop, not_or, Bool.not_eq_false]

/-- Settles O12: the conditions of R481 as they stand in `Chip.faultN`. -/
theorem faultPin : Obligations.FaultPin := by
  unfold Obligations.FaultPin
  refine fun c => ⟨fun early => by simp [Chip.faultN, early], fun once => ?_⟩
  have any (cls : Cls) : ((c.err.queue ++ c.err.first.toList).any fun r => r.cls = cls) = true ↔
      ∃ r, (r ∈ c.err.queue ∨ c.err.first = some r) ∧ r.cls = cls := by
    simp [List.any_eq_true, or_and_right, exists_or]
  simp only [Chip.faultN, once, Bool.not_true, Bool.false_or, Bool.or_eq_true, Bool.and_eq_true, decide_eq_true_eq, any,
    or_assoc]

/-- Settles O7, by `Memory.byte_put`. -/
theorem memoryReadBack : Obligations.MemoryReadBack := by
  unfold Obligations.MemoryReadBack
  refine fun m a b wf => ⟨?_, fun x other => ?_⟩
  · rw [Memory.byte_put wf, if_pos rfl]
  · rw [Memory.byte_put wf, if_neg other]

end Sys2Proof.Machine

namespace Sys2Proof.Machine

/-! A command that comes on its own, up to its reply (13 R359, R360) -/

section
variable {c : Chip} {s : State} {h : Hdr}

/-- The part when the CMD core has taken a command: it is counted, and its transport owes a reply (13 R375, 15 R408). -/
def Chip.takesFrom (h : Hdr) (c : Chip) : Chip :=
  let c := c.takes
  let c := match c.sessionOf h.session with
    | some z => c.onFlow fun u => { u with replyTo := z.peer }
    | none => c
  c.onHost fun u => { u with
    owed := if h.via = .pcie then u.owed + 1 else u.owed, spiOwed := if h.via = .spi then u.spiOwed + 1 else u.spiOwed }

theorem Chip.takesFrom_shape : ∃ address owed spiOwed, c.takesFrom h = { c with
    cmd := { c.cmd with taken := c.cmd.taken + 1 }
    flow := { c.flow with replyTo := address }, host := { c.host with owed := owed, spiOwed := spiOwed } } := by
  unfold Chip.takesFrom
  dsimp only
  cases c.takes.sessionOf h.session with
  | some z => exact ⟨z.peer, _, _, rfl⟩
  | none => exact ⟨c.flow.replyTo, _, _, rfl⟩

@[simp] theorem Chip.takesFrom_macs : (c.takesFrom h).macs = c.macs := by
  obtain ⟨_, _, _, shape⟩ := c.takesFrom_shape (h := h); rw [shape]
@[simp] theorem Chip.takesFrom_mem : (c.takesFrom h).mem = c.mem := by
  obtain ⟨_, _, _, shape⟩ := c.takesFrom_shape (h := h); rw [shape]
@[simp] theorem Chip.takesFrom_fresh : (c.takesFrom h).fresh = c.fresh := by
  obtain ⟨_, _, _, shape⟩ := c.takesFrom_shape (h := h); rw [shape]
@[simp] theorem Chip.takesFrom_sessions : (c.takesFrom h).flow.sessions = c.flow.sessions := by
  obtain ⟨_, _, _, shape⟩ := c.takesFrom_shape (h := h); rw [shape]

/-- What the checks of a command read is untouched when it is taken. -/
theorem Chip.takesFrom_checks (op : Nat) : (c.takesFrom h).serves op = c.serves op ∧
    (c.takesFrom h).ownCommand (hostHdr h) = c.ownCommand (hostHdr h) ∧ (c.takesFrom h).cmd.fails = c.cmd.fails := by
  obtain ⟨address, owed, spiOwed, shape⟩ := c.takesFrom_shape (h := h)
  rw [shape]
  exact ⟨rfl, rfl, rfl⟩

theorem reboot_fresh (p : Hamper × Chip) : (reboot p).2.fresh = p.2.fresh := by
  have flushed : ∀ (m : Nat) (d : Chip), (d.flushFrames m).fresh = d.fresh := by
    intro m d
    unfold Chip.flushFrames
    dsimp only
    generalize List.map _ _ ++ List.flatMap _ _ = frames
    induction frames generalizing d with
    | nil => rfl
    | cons f fs ih => exact ih (d.emit (.frame m f))
  unfold reboot
  split
  · simp [restart, Chip.afterReset, flushed]
  · rfl

/-- The part when it has answered a command that it has taken. -/
def Chip.ordered (op : Nat) (h : Hdr) (params : List Word) (run : Chip → Option Rep × Chip) (c : Chip) : Chip :=
  if !c.serves op then c.answer (hostHdr h) c.host.generation op { status := stBadOpcode }
  else if layoutFits op params ≠ some true then c.answer (hostHdr h) c.host.generation op { status := stBadLength }
  else c.order op (hostHdr h) c.host.generation params run

theorem command_eq (op : Nat) (h : Hdr) (params : List Word) (run : Chip → Option Rep × Chip) (s : State) :
    command op h params run s = actHam (fun p =>
      if !p.2.cmdFree || !p.2.canReply op h.via h.session then p
      else reboot (p.1, (p.2.takesFrom h).ordered op h params run)) s := by rfl

variable {op : Nat} {params : List Word} {run : Chip → Option Rep × Chip} {r : Rep} {d : Chip}

/-- A handler that answers has its reply sent. -/
theorem Chip.ordered_of_answered (serves : c.serves op = true) (own : c.ownCommand (hostHdr h) = true) (noPeer : h.peer = false)
    (noFail : c.cmd.fails = false) (fits : layoutFits op params = some true) (ran : run c = (some r, d)) :
    c.ordered op h params run = d.answer (hostHdr h) c.host.generation op r := by
  have unforwarded : (hostHdr h).forwarded = false := rfl
  have hostPeer : (hostHdr h).peer = false := noPeer
  simp [Chip.ordered, Chip.order, serves, fits, unforwarded, hostPeer, own, noFail, ran]

/-- A command for which the part is ready runs its handler, and the answer leaves. -/
theorem command_of_ready (ready : Ready op h s) (fits : layoutFits op params = some true)
    (ran : run (s.chip.begin.takesFrom h) = (some r, d)) :
    ∃ gen t, command op h params run s = .next t ∧ t.chip.fresh = (d.answer (hostHdr h) gen op r).fresh := by
  obtain ⟨live, free, replies, serves, own, noPeer, -, noFail⟩ := ready
  obtain ⟨serves', own', fails'⟩ := s.chip.begin.takesFrom_checks (h := h) op
  have answered := Chip.ordered_of_answered (serves'.trans serves) (own'.trans own) noPeer (fails'.trans noFail) fits ran
  have taken : ¬ (!s.chip.begin.cmdFree || !s.chip.begin.canReply op h.via h.session) = true := by
    rw [show s.chip.begin.cmdFree = true from free, show s.chip.begin.canReply op h.via h.session = true from replies]
    decide
  refine ⟨(s.chip.begin.takesFrom h).host.generation, _, (command_eq ..).trans (actHam_live _ live.1), ?_⟩
  dsimp only
  rw [if_neg taken, Chip.settle_fresh, reboot_fresh, answered]

end

/-! A reply of a management session whose port has gone down (06 R178, 07 R214; 17 R451, R459) -/

/-- LINKA is down and has nothing to send; the second ECC word of the first descriptor of its ring 0 can be corrected, and
session 5 is open. -/
structure Chip.RepliesOverUpset (c : Chip) : Prop where
  port : ∃ x, c.macs[0]? = some x ∧ x.tx[0]? = some ({} : TxSide) ∧ x.up = false ∧ x.sending = none
  runs : c.dmaHalted 0 = false
  zeroed : c.mem.bytes.zeroedAt 0x40480000 = true
  struck : mget? c.mem.bytes.upset 0x40480008 = some false
  open_ : (c.sessionOf 5).isSome = true

/-- The header of a command of that session. -/
def askHdr : Hdr := { via := .linkA, tag := 0, session := 5 }

section
variable {c d : Chip}

theorem Chip.RepliesOverUpset.of_eq (hit : c.RepliesOverUpset) (macs : d.macs = c.macs) (mem : d.mem = c.mem)
    (sessions : d.flow.sessions = c.flow.sessions) : d.RepliesOverUpset := by
  obtain ⟨port, runs, zeroed, struck, isOpen⟩ := hit
  refine ⟨by rwa [macs], ?_, by rwa [mem], by rwa [mem], ?_⟩
  · rwa [Chip.dmaHalted, mem]
  · rwa [Chip.sessionOf, sessions]

/-- The completion of the reply's descriptor darns that word, and the log of the darn takes a free value. -/
theorem Chip.RepliesOverUpset.sendReply_fresh (hit : c.RepliesOverUpset) (gen : Nat) (ws : List Word) :
    c.fresh < (c.sendReply .linkA gen 5 ws).fresh := by
  obtain ⟨⟨x, mac, unused, down, idle⟩, runs, zeroed, struck, isOpen⟩ := hit
  obtain ⟨z, session⟩ := Option.isSome_iff_exists.mp isOpen
  unfold Chip.sendReply
  simp only [viaPort, session, Chip.emit_fresh]
  rw [← Chip.onFlow_fresh (c := c)]
  exact Chip.sendMgmt_fresh_lt (c := c.onFlow _) mac unused down idle runs zeroed struck

/-- The count of a refused command leaves what its reply meets, and takes no free value. -/
theorem Chip.RepliesOverUpset.countRefusal (hit : c.RepliesOverUpset) (ws : List Word) :
    (c.countRefusal ws).RepliesOverUpset ∧ (c.countRefusal ws).fresh = c.fresh := by
  unfold Chip.countRefusal
  split
  · exact ⟨hit.of_eq rfl rfl rfl, rfl⟩
  · exact ⟨hit, rfl⟩

theorem Chip.RepliesOverUpset.replyOut_fresh (hit : c.RepliesOverUpset) {h : Hdr} (byPort : h.via = .linkA)
    (ofSession : h.session = 5) (direct : h.forwarded = false) (gen : Nat) (ws : List Word) :
    c.fresh < (c.replyOut h gen ws).fresh := by
  obtain ⟨counted, uncounted⟩ := hit.countRefusal ws
  unfold Chip.replyOut
  rw [direct, if_neg Bool.false_ne_true, byPort, ofSession, ← uncounted]
  exact counted.sendReply_fresh gen ws

theorem Chip.RepliesOverUpset.raise (hit : c.RepliesOverUpset) (code : Nat) (sev : Cls) (detail : Nat) :
    (c.raise code sev detail).RepliesOverUpset ∧ (c.raise code sev detail).fresh = c.fresh :=
  ⟨hit.of_eq rfl rfl rfl, rfl⟩

theorem Chip.RepliesOverUpset.answer_fresh (hit : c.RepliesOverUpset) {h : Hdr} (byPort : h.via = .linkA)
    (ofSession : h.session = 5) (direct : h.forwarded = false) (gen op : Nat) (r : Rep) :
    c.fresh < (c.answer h gen op r).fresh := by
  unfold Chip.answer
  dsimp only
  generalize raised : (if r.status = stInternal then c.raise _ _ _ else c) = b
  obtain ⟨hit', same⟩ : b.RepliesOverUpset ∧ b.fresh = c.fresh := by
    rw [← raised]
    split
    · exact hit.raise _ _ _
    · exact ⟨hit, rfl⟩
  rw [← same]
  exact hit'.replyOut_fresh byPort ofSession direct gen _

end

/-- A part that serves commands, with that port and that session; management is enabled. -/
def State.askedOverUpset : State :=
  let c := State.reset.chip
  { State.reset with chip := { c with
      boot := { c.boot with stage := .line }
      sys := { c.sys with now := { c.sys.now with items := [(item 0x01 0 0x15, 1)] } }
      flow := { c.flow with sessions := [{ id := 5, key := [] }] }
      macs := c.macs.set 0 { portEn := true }
      mem := { c.mem with bytes := { zeroed := [(0x40000000, 0x40800000)], upset := [(0x40480008, false)] } } } }

theorem State.askedOverUpset_live : State.askedOverUpset.live := ⟨rfl, rfl, rfl⟩

theorem State.askedOverUpset_hit : State.askedOverUpset.chip.RepliesOverUpset :=
  ⟨⟨_, rfl, rfl, rfl, rfl⟩, by decide +kernel, by decide +kernel, by decide +kernel, by decide +kernel⟩

theorem Chip.canReply_of_session {c : Chip} (enabled : c.sysIt 0x15 = 1) (isOpen : (c.sessionOf 5).isSome = true) (op : Nat) :
    c.canReply op .linkA 5 = true := by
  unfold Chip.canReply
  dsimp only
  rw [isOpen, enabled]
  rfl

/-- It is ready for every command of the session. -/
theorem State.askedOverUpset_ready (op : Nat) : Ready op askHdr State.askedOverUpset :=
  ⟨State.askedOverUpset_live, by decide +kernel, Chip.canReply_of_session (by decide +kernel) State.askedOverUpset_hit.open_ op, rfl, by decide +kernel, rfl, rfl, rfl⟩

/-- A command that its handler answers, and that changes nothing but the CMD unit, moves the counter of free values with its
reply. So it is not answered as a statement says that does not name that counter. -/
theorem State.askedOverUpset_not_answers {i : Instr} {op : Nat} {params : List Word} {run : Chip → Option Rep × Chip}
    {named : List Piece} {r rep : Rep} {d : Chip} {P : Chip → Prop}
    (arm : Sys2Proof.Machine.exec i State.askedOverUpset = command op askHdr params run State.askedOverUpset)
    (fits : layoutFits op params = some true)
    (ran : run (State.askedOverUpset.chip.begin.takesFrom askHdr) = (some rep, d))
    (frame : (State.askedOverUpset.chip.begin.takesFrom askHdr).keeps [.cmd] d)
    (unnamed : Piece.fresh ∉ [Piece.out, .irq] ++ replyPieces ++ named) :
    ¬ Answers i op askHdr State.askedOverUpset named r P := by
  rintro ⟨t, ht, -, -, kept, -⟩
  obtain ⟨gen, u, hu, moved⟩ := command_of_ready (State.askedOverUpset_ready op) fits ran
  obtain rfl := Host.Outcome.next.inj (ht.symm.trans (arm.trans hu))
  have hit : d.RepliesOverUpset :=
    State.askedOverUpset_hit.of_eq (frame.get_macs.trans Chip.takesFrom_macs) (frame.get_mem.trans Chip.takesFrom_mem)
      ((congrArg FlowUnit.sessions frame.get_flow).trans Chip.takesFrom_sessions)
  have unmoved : t.chip.fresh = d.fresh :=
    (kept.get_fresh unnamed).trans (frame.get_fresh.trans Chip.takesFrom_fresh).symm
  exact absurd (moved.symm.trans unmoved) (ne_of_gt (hit.answer_fresh rfl rfl rfl gen op rep))

/-! The refutations: one command of each statement -/

/-- Refutes O50: the reply to a HELLO moves the counter of free values, a piece that its frame does not name. -/
theorem not_systemCommands : ¬ Obligations.SystemCommands := by
  unfold Obligations.SystemCommands
  intro h
  obtain ⟨hello, -⟩ := h State.askedOverUpset askHdr
  exact State.askedOverUpset_not_answers (op := 0x0001) (params := [0]) (run := fun c => c.cmdHello 0) rfl rfl rfl (.refl _ _)
    (by decide) (hello 0 (State.askedOverUpset_ready 0x0001) (by decide))

/-- Refutes O51: so does the reply to a TACK_CLEAR. -/
theorem not_tackCommands : ¬ Obligations.TackCommands := by
  unfold Obligations.TackCommands
  intro h
  obtain ⟨-, -, -, -, clear, -⟩ := h State.askedOverUpset askHdr
  exact State.askedOverUpset_not_answers (op := 0x0102) (params := [])
    (run := fun c => c.cmdTackClear (hostHdr askHdr) c.host.generation) rfl rfl rfl (.onCmd (by decide) (.refl _ _)) (by decide)
    (clear (State.askedOverUpset_ready 0x0102) rfl)

/-- The part when it has taken a command of the session. -/
def askedChip : Chip := State.askedOverUpset.chip.begin.takesFrom askHdr

theorem askedChip_slotFor : askedChip.slotFor = some 0 := by decide +kernel

/-- Refutes O52: so does the reply to a FLOW_TABLE_REBUILD. -/
theorem not_presses : ¬ Obligations.Presses := by
  unfold Obligations.Presses
  intro h
  have ran : askedChip.cmdRebuild (hostHdr askHdr) =
      (some { status := stStarted, job := some 0 }, askedChip.takeJob 0 0x0600 0 [] 0) := by
    unfold Chip.cmdRebuild
    rw [if_neg (by decide +kernel), askedChip_slotFor]
    rfl
  obtain ⟨-, -, -, rebuild, -⟩ := h State.askedOverUpset askHdr rfl
  exact State.askedOverUpset_not_answers (op := 0x0600) (params := []) (run := fun c => c.cmdRebuild (hostHdr askHdr)) rfl rfl ran
    (.onCmd (by decide) (.onCmd (by decide) (.refl _ _))) (by decide)
    (rebuild 0 (State.askedOverUpset_ready 0x0600) (by decide +kernel) (by decide +kernel) (by decide) (by decide +kernel))

/-- Refutes O53: so does the reply to a JOB_STATUS. -/
theorem not_jobTable : ¬ Obligations.JobTable := by
  unfold Obligations.JobTable
  intro h
  obtain ⟨status, -⟩ := h State.askedOverUpset askHdr 0 {} (by decide +kernel)
  exact State.askedOverUpset_not_answers (op := 0x0200) (params := [w32 0]) (run := fun c => c.cmdJobStatus (w32 0)) rfl rfl rfl
    (.refl _ _) (by decide) (status (State.askedOverUpset_ready 0x0200))

/-- Refutes O54: so does the reply to an IMAGE_VERIFY. -/
theorem not_jobCommands : ¬ Obligations.JobCommands := by
  unfold Obligations.JobCommands
  intro h
  have ran : askedChip.cmdImageVerify askHdr 0 =
      (some { status := stStarted, job := some 0 }, askedChip.takeJob 0 0x0901 0 [0] 0) := by
    unfold Chip.cmdImageVerify
    rw [if_neg (by decide +kernel), askedChip_slotFor]
    rfl
  obtain ⟨-, -, -, -, -, -, verify, -⟩ := h State.askedOverUpset askHdr 0 _ _ (by decide +kernel) (by decide) (by decide +kernel) rfl rfl
  exact State.askedOverUpset_not_answers (op := 0x0901) (params := [0]) (run := fun c => c.cmdImageVerify askHdr 0) rfl rfl ran
    (.onCmd (by decide) (.onCmd (by decide) (.refl _ _))) (by decide)
    (verify 0 (State.askedOverUpset_ready 0x0901) (by decide +kernel))

/-- Refutes O55: so does the reply to a LEDGER_READ. -/
theorem not_immediateCommands : ¬ Obligations.ImmediateCommands := by
  unfold Obligations.ImmediateCommands
  intro h
  obtain ⟨ledger, -⟩ := h State.askedOverUpset askHdr
  obtain ⟨ws, answered⟩ := ledger (State.askedOverUpset_ready 0x0301)
  exact State.askedOverUpset_not_answers (op := 0x0301) (params := []) (run := fun c => c.cmdLedgerRead) rfl rfl rfl (.refl _ _)
    (by decide) answered

end Sys2Proof.Machine

namespace Sys2Proof.Machine

/-! What a statement of completion says of the effect of a command -/

section
variable {i : Instr} {s : State} {named : List Piece} {P : Chip → Prop}

theorem Completes.of_act {f : Chip → Chip} (h : Completes i s named P) (run : Sys2Proof.Machine.exec i s = act f s)
    (live : s.live) :
    s.chip.keeps ([.out, .irq] ++ named) (f s.chip.begin).settle ∧ P (f s.chip.begin).settle := by
  obtain ⟨t, ht, -, -, frame, holds⟩ := h
  rw [run, act_live _ live.1] at ht
  obtain rfl := Host.Outcome.next.inj ht
  exact ⟨frame, holds⟩

theorem Completes.of_actHam {f : Hamper × Chip → Hamper × Chip} (h : Completes i s named P)
    (run : Sys2Proof.Machine.exec i s = actHam f s) (live : s.live) :
    s.chip.keeps ([.out, .irq] ++ named) (f (s.ham, s.chip.begin)).2.settle ∧ P (f (s.ham, s.chip.begin)).2.settle := by
  obtain ⟨t, ht, -, -, frame, holds⟩ := h
  rw [run, actHam_live _ live.1] at ht
  obtain rfl := Host.Outcome.next.inj ht
  exact ⟨frame, holds⟩

end

/-! The safe state (13 R381, 18 R475): entry ends a SELF_TEST of the REF block -/

theorem exec_safeEntry (t : Nat) (s : State) : Sys2Proof.Machine.exec (.safeEntry t) s = act (fun c =>
    let c := c.advance t
    if c.entryDue then c.safeEntry (c.sys.blk + 1) else c) s := by rfl

/-- Refutes O34: the entry that ends a SELF_TEST changes the REF block, a piece that its frame does not name. -/
theorem not_safeState : ¬ Obligations.SafeState := by
  unfold Obligations.SafeState
  intro h
  obtain ⟨entry, -⟩ := h State.testedAtEntry 0 State.testedAtEntry_live
  obtain ⟨frame, -⟩ := (entry 0x0310 1 rfl rfl rfl).of_act (exec_safeEntry ..) State.testedAtEntry_live
  have kept := congrArg Ref.testing frame.get_ref
  rw [Chip.settle_ref] at kept
  revert kept
  decide +kernel

/-! Stage REF (19 R493, 07 R199): DROP is disabled while it sends -/

theorem exec_stageRefEntry (t : Nat) (s : State) :
    Sys2Proof.Machine.exec (.stageRefEntry t) s = act (fun c =>
      let c := c.advance t
      if c.boot.stage ≠ .line ∨ c.boot.peg = 0 then c
      else
        let c := (c.enterStage .ref).onRef fun r => { r with enabled := true }
        let c := if c.sysIt 0x38 = 1 then c.linkEnable 0 true else c
        let c := if c.sysIt 0x39 = 1 then c.linkEnable 1 true else c
        let c := c.dropEnable (c.dropIt 1 = 1)
        let c := (c.setHash c.sys.now.items).onSys fun s => { s with reload := true }
        ((c.ptpIdle 0).ptpIdle 1).ptpIdle 2) s := by rfl

/-- A unit with a peg in stage LINE and with `drop.enable` 0, of which DROP sends a frame of no descriptor. -/
def State.dropSends : State :=
  let c := State.reset.chip
  { State.reset with chip := { c with
      boot := { c.boot with stage := .line, peg := 1 }
      sys := { c.sys with now := { c.sys.now with items := [(item 0x0E 0 1, 0)] } }
      drop := { c.drop with carrier := true }
      macs := c.macs.set 2 { sending := some (0, { bytes := [] }) } } }

theorem State.dropSends_live : State.dropSends.live := ⟨rfl, rfl, rfl⟩

/-- Refutes O41: the entry of stage REF disables DROP and ends its carrier, where the frame does not name the DROP block. -/
theorem not_startupStages : ¬ Obligations.StartupStages := by
  unfold Obligations.StartupStages
  intro h
  obtain ⟨-, -, entry, -⟩ := h State.dropSends 0 State.dropSends_live
  obtain ⟨frame, -⟩ := (entry rfl (by decide)).of_act (exec_stageRefEntry ..) State.dropSends_live
  have kept := congrArg DropUnit.carrier frame.get_drop
  rw [Chip.settle_drop] at kept
  revert kept
  decide +kernel

/-! Packets of one CORE clock (13 R354): one whose transport comes later in the order stands behind the one that enters -/

theorem exec_cmdPut (bytes : List Byte) (s : State) :
    Sys2Proof.Machine.exec (.cmdPut bytes) s = actHam (fun p =>
      let st := p.2.spiStatusByte
      let c := p.2.onHost fun h => { h with spiLast := st }
      let r : List Byte × Bool × Chip :=
        if !c.spiReady then ([], true, c)
        else ([], false, (c.onHost fun h => { h with spiOwed := h.spiOwed + 1 }).enterStream
          { via := .spi, words := bytesWords (bytes.take 256), bytes := bytes.length })
      (p.1, (r.2.2.spiClose 0x10 r.2.1).emit (.spi (st :: r.1)))) s := by rfl

theorem exec_requestRingEntry (t : Nat) (s : State) :
    Sys2Proof.Machine.exec (.requestRingEntry t) s = act (fun c => (c.advance t).ringEntry) s := by rfl

/-- A part that takes packets, into whose command stream a packet of mailbox channel 2 came at this CORE clock; the request
ring holds a packet of no parameter words in an area of zeros. -/
def State.mailInStream : State :=
  let c := State.reset.chip
  { State.reset with chip := { c with
      boot := { c.boot with stage := .line }
      host := { c.host with reqProd := 1 }
      mem := { c.mem with bytes := { zeroed := [(0x40000000, 0x40800000)] } }
      cmd := { c.cmd with stream := [{ via := .mbx 2, words := [], bytes := 0 }] } } }

theorem State.mailInStream_live : State.mailInStream.live := ⟨rfl, rfl, rfl⟩

/-- Refutes O46: a packet of the SPI host enters ahead of one from a mailbox of the same CORE clock, not at the end. -/
theorem not_spiTarget : ¬ Obligations.SpiTarget := by
  unfold Obligations.SpiTarget
  intro h
  obtain ⟨-, -, -, -, put, -⟩ := h State.mailInStream _ State.mailInStream_live rfl
  obtain ⟨-, -, -, atEnd⟩ := (put [] (by decide +kernel)).of_actHam (exec_cmdPut ..) State.mailInStream_live
  have order := congrArg (fun d : Cmd => d.stream.map Pkt.via) atEnd
  rw [Chip.settle_cmd] at order
  revert order
  decide +kernel

/-- Refutes O47: so does a packet of the request ring. -/
theorem not_commandRings : ¬ Obligations.CommandRings := by
  unfold Obligations.CommandRings
  intro h
  obtain ⟨-, -, -, -, entry⟩ := h State.mailInStream 0 State.mailInStream_live
  obtain ⟨-, -, -, -, -, atEnd⟩ := Completes.of_act (entry 0 0x407E0000 16 (by decide) rfl (by decide +kernel) rfl
    (by decide +kernel) (by decide +kernel) rfl (by decide +kernel) (by decide +kernel)) (exec_requestRingEntry ..)
    State.mailInStream_live
  have order := congrArg (fun d : Cmd => d.stream.map Pkt.via) atEnd
  rw [Chip.settle_cmd] at order
  revert order
  decide +kernel

end Sys2Proof.Machine

namespace Sys2Proof.Machine

/-! Writes of registers that have a row of their own (15 R404, R410; 16 R433, R437): what a write that is taken reports -/

/-- Settling two parts that differ only in the HOST block and the outputs. -/
theorem Chip.keeps.both_settle {a b : Chip} (h : a.keeps [.out, .irq, .host] b) :
    a.settle.keeps [.out, .irq, .host] b.settle := by
  intro p hp
  have same := h p hp
  cases p <;> simp_all [Piece.same]
  exact (Chip.ErrSys.enterAll (a := a) (b := b) ⟨h.get_err.symm, h.get_sys.symm⟩).1

/-- The HOST block after a write of a word by this master, which was taken. -/
def HostUnit.reported (master status : Byte) (h : HostUnit) : HostUnit :=
  if master = 0x41 then { h with spiLast := status, spiErr := false } else h

theorem Chip.hostAfter_eq (c : Chip) (master : Byte) : c.hostAfter master = c.host.reported master c.spiStatusByte := rfl

section
variable {c : Chip} {master status : Byte} {addr : Nat}

theorem Chip.reportWrite_taken : ∃ o, c.reportWrite master addr status true =
      { c with host := c.host.reported master status, out := c.out ++ o } ∧
    (master = 0x40 → Out.posted true ∈ o) ∧ (master = 0x41 → Out.spi [status] ∈ o) := by
  unfold Chip.reportWrite HostUnit.reported
  by_cases pcie : master = 0x40
  · subst pcie
    exact ⟨[.posted true], rfl, fun _ => List.mem_singleton_self _, fun spi => absurd spi (by decide)⟩
  · rw [if_neg pcie]
    by_cases spi : master = 0x41
    · rw [if_pos spi, if_pos spi]
      exact ⟨[.spi [status]], rfl, fun h => absurd h pcie, fun _ => List.mem_singleton_self _⟩
    · rw [if_neg spi, if_neg spi]
      exact ⟨[], by rw [List.append_nil], fun h => absurd h pcie, fun h => absurd h spi⟩

theorem Chip.reportWrite_keeps : c.keeps [.out, .irq, .host] (c.reportWrite master addr status true) := by
  obtain ⟨o, report, -, -⟩ := c.reportWrite_taken (master := master) (addr := addr) (status := status)
  rw [report]
  intro p hp
  cases p <;> first | rfl | exact absurd hp (by decide)

end

section
variable {i : Instr} {s : State} {master : Byte} {addr : Nat} {named : List Piece} {P : Chip → Prop} {c : Chip}
  {f : Chip → Bool × Chip}

/-- What the part makes of such a write. -/
def Chip.rowWrite (master : Byte) (addr : Nat) (f : Chip → Bool × Chip) (c : Chip) : Chip :=
  match c.csrCause master true addr 4 with
  | some k => (c.refuse master true 4 addr k).reportWrite master addr c.spiStatusByte false
  | none => (f c).2.reportWrite master addr c.spiStatusByte (f c).1

theorem csrStep_eq : csrStep master addr f s = act (Chip.rowWrite master addr f) s := rfl

theorem Chip.rowWrite_of_permitted (permitted : c.csrCause master true addr 4 = none) :
    c.rowWrite master addr f = (f c).2.reportWrite master addr c.spiStatusByte (f c).1 := by
  unfold Chip.rowWrite
  rw [permitted]

theorem Chip.rowWrite_of_refused {k : Nat} (refused : c.csrCause master true addr 4 = some k) :
    c.rowWrite master addr f = (c.refuse master true 4 addr k).reportWrite master addr c.spiStatusByte false := by
  unfold Chip.rowWrite
  rw [refused]

/-- How a statement about a write that is taken is reached: from what the block makes of it. -/
theorem completes_taken (run : Sys2Proof.Machine.exec i s = csrStep master addr f s) (live : s.live)
    (permitted : s.chip.csrCause master true addr 4 = none) (taken : f s.chip.begin = (true, c))
    (frame : s.chip.begin.keeps ([.out, .irq] ++ named) c) (host : Piece.host ∈ named)
    (holds : ∀ d, d = (c.reportWrite master addr s.chip.spiStatusByte true).settle → s.chip.written master d →
      c.settle.keeps [.out, .irq, .host] d → d.host.bare = (c.host.reported master s.chip.spiStatusByte).bare → P d) :
    Completes i s named P := by
  have effect : s.chip.begin.rowWrite master addr f = c.reportWrite master addr s.chip.spiStatusByte true := by
    rw [Chip.rowWrite_of_permitted (c := s.chip.begin) permitted, taken]
    rfl
  have reported : c.keeps [.out, .irq, .host] (c.reportWrite master addr s.chip.spiStatusByte true) := c.reportWrite_keeps
  refine completes_of_effect _ (run.trans csrStep_eq) live effect (frame.trans (reported.mono fun p => ?_)) (holds _ rfl ?_ ?_ ?_)
  · simp only [List.cons_append, List.nil_append, List.mem_cons, List.not_mem_nil, or_false]
    rintro (rfl | rfl | rfl) <;> simp [host]
  · obtain ⟨o, report, posted, spi⟩ := c.reportWrite_taken (master := master) (addr := addr) (status := s.chip.spiStatusByte)
    rw [report]
    exact ⟨fun h => Chip.mem_settle_out (List.mem_append_right _ (posted h)),
      fun h => Chip.mem_settle_out (List.mem_append_right _ (spi h))⟩
  · exact reported.both_settle
  · obtain ⟨o, report, -, -⟩ := c.reportWrite_taken (master := master) (addr := addr) (status := s.chip.spiStatusByte)
    rw [Chip.settle_bare, report]

/-- The same of a write that changes nothing of the HOST block but for its report. -/
theorem completes_posted (run : Sys2Proof.Machine.exec i s = csrStep master addr f s) (live : s.live)
    (permitted : s.chip.csrCause master true addr 4 = none) (taken : f s.chip.begin = (true, c))
    (frame : s.chip.begin.keeps ([.out, .irq] ++ named) c) (host : Piece.host ∈ named) (unwritten : c.host = s.chip.host)
    (holds : ∀ d, s.chip.posted master d → c.settle.keeps [.out, .irq, .host] d → P d) : Completes i s named P :=
  completes_taken run live permitted taken frame host fun d _ written kept bare =>
    holds d ⟨written, by rw [bare, unwritten, Chip.hostAfter_eq]⟩ kept

end

/-! Refusals (16 R437, R438) -/

/-- The log of the BUS block after a refusal. -/
def BusUnit.refused (master : Byte) (write : Bool) (size addr cause : Nat) (b : BusUnit) : BusUnit :=
  let info := pack [(0, 8, master.toNat), (8, 1, b2n write), (9, 2, sizeCode size), (11, 5, targetIndex addr), (16, 3, cause)]
  { b with
    errCount := b.errCount + 1, errSeen := true, lastAddr := lo32 addr, lastInfo := info,
    firstAddr := if b.firstInfo = 0 then lo32 addr else b.firstAddr,
    firstInfo := if b.firstInfo = 0 then info else b.firstInfo }

section
variable {a c : Chip} {L : List Piece} {master status : Byte} {write ok : Bool} {size addr cause : Nat}

theorem Chip.keeps.errorResponse (out : Piece.out ∈ L) (err : Piece.err ∈ L) (host : Piece.host ∈ L) (irq : Piece.irq ∈ L)
    (dma : isDma master = true → Piece.mem ∈ L) (h : a.keeps L c) : a.keeps L (c.errorResponse master addr) := by
  unfold Chip.errorResponse
  refine .ite (.emit out h) (.ite (.raise err h) ?_)
  split
  · exact .onMem (dma ‹_›) (.raiseFirst err (.raise err h))
  · exact .ite (.onHost host irq h) h

theorem Chip.keeps.refuse (out : Piece.out ∈ L) (err : Piece.err ∈ L) (host : Piece.host ∈ L) (irq : Piece.irq ∈ L)
    (bus : Piece.bus ∈ L) (dma : isDma master = true → Piece.mem ∈ L) (h : a.keeps L c) :
    a.keeps L (c.refuse master write size addr cause) :=
  .errorResponse out err host irq dma (.raiseFirst err (.onBus bus h))

theorem Chip.keeps.reportWrite (out : Piece.out ∈ L) (err : Piece.err ∈ L) (host : Piece.host ∈ L) (irq : Piece.irq ∈ L)
    (h : a.keeps L c) : a.keeps L (c.reportWrite master addr status ok) := by
  unfold Chip.reportWrite Chip.spiClose
  refine .ite (.emit out h) (.ite (.emit out ?_) h)
  have failed : a.keeps L (if ok then c else c.spiFailAt addr) := .ite h (.onHost host irq h)
  exact .ite (.raiseFirst err (.onHost host irq (.onHost host irq (.onHost host irq failed))))
    (.onHost host irq (.onHost host irq failed))

@[simp] theorem Chip.raiseFirst_bus {code key detail : Nat} {cls : Cls} : (c.raiseFirst code cls key detail).bus = c.bus :=
  (Chip.keeps.raiseFirst (L := [.err]) (by decide) (.refl _ c)).get_bus

@[simp] theorem Chip.errorResponse_bus : (c.errorResponse master addr).bus = c.bus :=
  (Chip.keeps.errorResponse (L := [.out, .err, .host, .irq, .mem]) (by decide) (by decide) (by decide) (by decide)
    (fun _ => by decide) (.refl _ c)).get_bus

@[simp] theorem Chip.refuse_bus :
    (c.refuse master write size addr cause).bus = c.bus.refused master write size addr cause := by
  unfold Chip.refuse
  rw [Chip.errorResponse_bus, Chip.raiseFirst_bus]
  rfl

@[simp] theorem Chip.reportWrite_bus : (c.reportWrite master addr status ok).bus = c.bus :=
  (Chip.keeps.reportWrite (L := [.out, .err, .host, .irq]) (by decide) (by decide) (by decide) (by decide) (.refl _ c)).get_bus

/-- Cores, engines and hosts alone may access CSRs. -/
theorem Chip.not_isDma_of_permitted (permitted : c.csrCause master write addr size = none) : isDma master = false := by
  unfold Chip.csrCause at permitted
  cases dma : isDma master with
  | false => rfl
  | true => rw [dma, if_pos rfl] at permitted; cases permitted

end

/-! Semaphores (16 R441, R442) -/

theorem exec_busLockRead (master : Byte) (n : Fin 32) (s : State) :
    Sys2Proof.Machine.exec (.busLockRead master n) s = execBusLockRead master n s := by rfl

theorem exec_busLockWrite (master : Byte) (n : Fin 32) (value : Word) (s : State) :
    Sys2Proof.Machine.exec (.busLockWrite master n value) s =
      csrStep master (0x50010100 + 4 * n.val) (Chip.lockWrite master n.val value) s := by rfl

theorem exec_busLockForce (master : Byte) (value : Word) (s : State) :
    Sys2Proof.Machine.exec (.busLockForce master value) s =
      csrStep master 0x50010204 (fun c => (true, c.lockForce value)) s := by rfl

section
variable {c : Chip} {master : Byte} {n : Nat} {value : Word}

theorem Chip.lockRead_eq : (c.lockRead master n).2 =
    c.onBus fun b => { b with owners := if c.owner n = 0 then b.owners.set n master else b.owners } := by
  unfold Chip.lockRead
  dsimp only
  split <;> rfl

theorem Chip.lockWrite_of_owner (owns : c.owner n = master) (key : value.toNat % 256 = 0) :
    c.lockWrite master n value = (true, c.onBus fun b => { b with owners := b.owners.set n 0 }) := by
  unfold Chip.lockWrite
  exact if_pos ⟨owns, key⟩

theorem Chip.lockWrite_of_other (other : c.owner n ≠ master ∨ value.toNat % 256 ≠ 0) :
    c.lockWrite master n value =
      (false, ((c.refuse master true 4 (0x50010100 + 4 * n) 7).onBus fun b => { b with
        semSeen := true, semMaster := master, semLock := BitVec.ofNat 5 n, semCause := if c.owner n = master then 2 else 1,
        semCount := satInc 0xFFFF b.semCount }).raise 0x0104 .note) := by
  unfold Chip.lockWrite
  exact if_neg fun h => other.elim (fun k => k h.1) (fun k => k h.2)

/-- A core has no report but the trap of a refusal. -/
theorem Chip.reportWrite_of_isCore {status : Byte} {addr : Nat} {ok : Bool} (core : isCore master = true) :
    c.reportWrite master addr status ok = c := by
  unfold Chip.reportWrite
  rw [if_neg (by rintro rfl; exact absurd core (by decide)), if_neg (by rintro rfl; exact absurd core (by decide))]

/-- No host forces a release, in service mode either. -/
theorem Chip.csrCause_lockForce_of_isHost (host : isHost master = true) : c.csrCause master true 0x50010204 4 = some 4 := by
  unfold Chip.csrCause
  rcases (by simpa [isHost] using host : master = 0x40 ∨ master = 0x41) with rfl | rfl <;> rfl

theorem Chip.csrCause_of_isCore {addr : Nat} (core : isCore master = true) (aligned : addr % 4 = 0) :
    c.csrCause master true addr 4 = none := by
  unfold Chip.csrCause
  rw [if_neg (by revert core; revert master; decide), if_neg (by omega), if_pos core]

end

/-- Settles O42: each clause from what the block makes of the access; a write by another master is refused by the block, a
forced release by a host before it. -/
theorem busSemaphores : Obligations.BusSemaphores := by
  unfold Obligations.BusSemaphores
  intro s master n value live
  refine ⟨fun permitted => ?read, fun permitted => ⟨fun owns key => ?release, fun other => ?refused⟩, fun core => ?force,
    fun host => ?hostForce⟩
  case read =>
    refine completes_of_effect _ (exec_busLockRead ..) live (c := (s.chip.begin.lockRead master n.val).2.emit
        (.busRead (some (s.chip.begin.lockRead master n.val).1))) ?_ ?_ ⟨?_, ?_⟩
    · rw [show s.chip.begin.csrCause master false (0x50010100 + 4 * n.val) 4 = none from permitted]
    · rw [Chip.lockRead_eq]
      exact .emit (by decide) (.onBus (by decide) (.refl _ _))
    · exact Chip.mem_settle_out (List.mem_append_right _ (List.mem_singleton_self _))
    · rw [Chip.settle_bus, Chip.lockRead_eq]
      rfl
  case release =>
    refine completes_posted (exec_busLockWrite ..) live permitted (Chip.lockWrite_of_owner owns key)
      (.onBus (by decide) (.refl _ _)) (by decide) rfl fun d posted kept => ⟨posted, ?_⟩
    rw [kept.get_bus, Chip.settle_bus]
    rfl
  case refused =>
    have effect := Chip.rowWrite_of_permitted (c := s.chip.begin) (f := Chip.lockWrite master n.val value) permitted
    rw [Chip.lockWrite_of_other (c := s.chip.begin) other] at effect
    refine completes_of_effect _ ((exec_busLockWrite ..).trans csrStep_eq) live effect ?_ ?_
    · have notDma := Chip.not_isDma_of_permitted permitted
      exact .reportWrite (by decide) (by decide) (by decide) (by decide) (.raise (by decide) (.onBus (by decide)
        (.refuse (by decide) (by decide) (by decide) (by decide) (by decide) (fun dma => by rw [dma] at notDma; cases notDma)
          (.refl _ _))))
    · rw [Chip.settle_bus, Chip.reportWrite_bus]
      refine ⟨?_, rfl, rfl, rfl, rfl, ?_, ?_⟩ <;> simp [Chip.raise, Chip.onBus, BusUnit.refused]
  case force =>
    have permitted : s.chip.csrCause master true 0x50010204 4 = none := Chip.csrCause_of_isCore core (by decide)
    have effect : s.chip.begin.rowWrite master 0x50010204 (fun c => (true, c.lockForce value)) =
        s.chip.begin.lockForce value := by
      rw [Chip.rowWrite_of_permitted (c := s.chip.begin) permitted, Chip.reportWrite_of_isCore core]
    refine completes_of_effect _ ((exec_busLockForce ..).trans csrStep_eq) live effect (.onBus (by decide) (.refl _ _)) ?_
    rw [Chip.settle_bus]
    rfl
  case hostForce =>
    refine completes_of_effect _ ((exec_busLockForce ..).trans csrStep_eq) live
      (Chip.rowWrite_of_refused (c := s.chip.begin) (Chip.csrCause_lockForce_of_isHost host)) ?_ ⟨?_, ?_, ?_, ?_⟩
    · exact .reportWrite (by decide) (by decide) (by decide) (by decide) (.refuse (by decide) (by decide) (by decide) (by decide)
        (by decide) (fun dma => absurd dma (by revert host; revert master; decide)) (.refl _ _))
    · rw [Chip.settle_bus, Chip.reportWrite_bus, Chip.refuse_bus]
      rfl
    · rw [Chip.settle_bus, Chip.reportWrite_bus, Chip.refuse_bus]
      rfl
    · rw [Chip.settle_bus, Chip.reportWrite_bus, Chip.refuse_bus]
      rfl
    · intro pcie
      refine Chip.mem_settle_out ?_
      unfold Chip.reportWrite
      rw [if_pos pcie]
      exact List.mem_append_right _ (List.mem_singleton_self _)

end Sys2Proof.Machine

namespace Sys2Proof.Machine

/-! Service mode (16 R436) -/

theorem exec_busService (master : Byte) (key : BitVec 16) (s : State) :
    Sys2Proof.Machine.exec (.busService master key) s =
      csrStep master 0x50010004 (Chip.serviceWrite master key.toNat) s := by rfl

section
variable {c : Chip} {master : Byte} {key : Nat}

theorem Chip.csrCause_service (allowed : isHost master = true ∨ isCore master = true) :
    c.csrCause master true 0x50010004 4 = none := by
  rcases allowed with host | core
  · unfold Chip.csrCause
    have listed : hostCsr 0x50010004 = true := by decide
    rcases (by simpa [isHost] using host : master = 0x40 ∨ master = 0x41) with rfl | rfl <;>
      simp [isDma, isCore, isEngine, isHost, listed]
  · exact Chip.csrCause_of_isCore core (by decide)

theorem Chip.serviceWrite_arm (enabled : c.boot.serviceDisable = false) :
    c.serviceWrite master 0x5E7A = (true, c.onBus fun b => { b with armed := some master }) := by
  simp [Chip.serviceWrite, enabled]

theorem Chip.serviceWrite_enter (enabled : c.boot.serviceDisable = false) (armed : c.bus.armed = some master) :
    c.serviceWrite master 0xA7E5 =
      (true, (c.onBus fun b => { b with service := master, armed := none }).raise 0x0110 .note) := by
  simp [Chip.serviceWrite, enabled, armed]

theorem Chip.serviceWrite_unarmed (enabled : c.boot.serviceDisable = false) (unarmed : c.bus.armed ≠ some master) :
    c.serviceWrite master 0xA7E5 = (true, c.onBus fun b => { b with armed := none }) := by
  simp [Chip.serviceWrite, enabled, unarmed]

theorem Chip.serviceWrite_leave (serving : c.bus.service ≠ 0) :
    c.serviceWrite master 0 = (true, (c.onBus fun b => { b with service := 0, armed := none }).raise 0x0111 .note) := by
  unfold Chip.serviceWrite Chip.leaveService
  rw [if_pos rfl, if_pos (show c.service = true from decide_eq_true serving)]

end

/-! Locked sequences (16 R439, R440) -/

/-- The remaining accesses of a sequence are refused. -/
def Chip.refuseRest (master : Byte) (cause : Nat) (rest : List LockAcc) (c : Chip) : Chip :=
  rest.foldl (fun c a => c.refuse master a.write a.size a.addr.toNat cause) c

theorem exec_lockTimeout (master : Byte) (target : BitVec 5) (rest : List LockAcc) (s : State) :
    Sys2Proof.Machine.exec (.lockTimeout master target rest) s = act (fun c =>
      if !isCore master ∧ !isEngine master then c
      else if 4 < rest.length ∨ !lockedIn target.toNat rest then c
      else if target.toNat = 29 then c.refuseRest master 2 rest
      else if target.toNat = 0 ∨ 28 < target.toNat then c
      else
        ((c.onBus fun b => { b with timeouts := b.timeouts + 1, timeoutSeen := true, lockSeq := (0, 0) }).raise
          0x0103 .fault).refuseRest master 6 rest) s := by rfl

section
variable {a c : Chip} {L : List Piece} {master : Byte} {cause : Nat} {rest : List LockAcc}

theorem Chip.keeps.refuseRest (out : Piece.out ∈ L) (err : Piece.err ∈ L) (host : Piece.host ∈ L) (irq : Piece.irq ∈ L)
    (bus : Piece.bus ∈ L) (dma : isDma master = true → Piece.mem ∈ L) (h : a.keeps L c) :
    a.keeps L (c.refuseRest master cause rest) :=
  .foldl _ rest h fun x _ => .refuse out err host irq bus dma (.refl _ x)

/-- Neither a core nor an engine is a host: their refusals leave the HOST block. -/
theorem Chip.keeps.refuse_inner {write : Bool} {size addr : Nat} (inner : isCore master = true ∨ isEngine master = true)
    (out : Piece.out ∈ L) (err : Piece.err ∈ L) (bus : Piece.bus ∈ L) (h : a.keeps L c) :
    a.keeps L (c.refuse master write size addr cause) := by
  have logged : a.keeps L ((c.onBus (BusUnit.refused master write size addr cause)).raiseFirst 0x0101 .note) :=
    .raiseFirst err (.onBus bus h)
  show a.keeps L (((c.onBus (BusUnit.refused master write size addr cause)).raiseFirst 0x0101 .note).errorResponse master addr)
  unfold Chip.errorResponse
  by_cases core : isCore master = true
  · rw [if_pos core]
    exact .emit out logged
  · rw [if_neg core, if_pos (inner.resolve_left core)]
    exact .raise err logged

theorem Chip.keeps.refuseRest_inner (inner : isCore master = true ∨ isEngine master = true)
    (out : Piece.out ∈ L) (err : Piece.err ∈ L) (bus : Piece.bus ∈ L) (h : a.keeps L c) :
    a.keeps L (c.refuseRest master cause rest) :=
  .foldl _ rest h fun x _ => .refuse_inner inner out err bus (.refl _ x)

/-- Each of them is counted; the counts of the locked sequences and the semaphores stay. -/
theorem Chip.refuseRest_bus : (c.refuseRest master cause rest).bus.errCount = c.bus.errCount + BitVec.ofNat 32 rest.length ∧
    (c.refuseRest master cause rest).bus.timeouts = c.bus.timeouts ∧
    (c.refuseRest master cause rest).bus.timeoutSeen = c.bus.timeoutSeen ∧
    (c.refuseRest master cause rest).bus.lockSeq = c.bus.lockSeq ∧
    (c.refuseRest master cause rest).bus.owners = c.bus.owners := by
  unfold Chip.refuseRest
  induction rest generalizing c with
  | nil => simp
  | cons x rest ih =>
    obtain ⟨count, timeouts, seen, sequence, owners⟩ := ih (c := c.refuse master x.write x.size x.addr.toNat cause)
    rw [Chip.refuse_bus] at count timeouts seen sequence owners
    refine ⟨?_, timeouts, seen, sequence, owners⟩
    rw [List.foldl_cons, count, List.length_cons]
    simp only [BusUnit.refused]
    bv_omega

end

/-- Settles O43: the writes of BUS_SERVICE from what its keys do; the end of a sequence from `Chip.refuseRest_bus`. -/
theorem serviceAndLocks : Obligations.ServiceAndLocks := by
  unfold Obligations.ServiceAndLocks
  intro s master live
  refine ⟨fun allowed enabled => ?service, fun target rest inner short locked => ?locks⟩
  case service =>
    have permitted : s.chip.csrCause master true 0x50010004 4 = none := Chip.csrCause_service allowed
    refine ⟨?arm, fun armed => ?enter, fun unarmed => ?unarmed, fun serving => ?leave⟩
    case arm =>
      refine completes_posted (exec_busService ..) live permitted (Chip.serviceWrite_arm (c := s.chip.begin) enabled)
        (.onBus (by decide) (.refl _ _)) (by decide) rfl fun d posted kept => ⟨posted, ?_⟩
      rw [kept.get_bus, Chip.settle_bus]
      rfl
    case enter =>
      refine completes_posted (exec_busService ..) live permitted (Chip.serviceWrite_enter (c := s.chip.begin) enabled armed)
        (.raise (by decide) (.onBus (by decide) (.refl _ _))) (by decide) rfl fun d posted kept => ⟨posted, ?_, ?_⟩
      · rw [kept.get_bus, Chip.settle_bus]
        rfl
      · rw [kept.get_err, Chip.settle_err]
        exact Chip.recorded_eq rfl rfl
    case unarmed =>
      refine completes_posted (exec_busService ..) live permitted (Chip.serviceWrite_unarmed (c := s.chip.begin) enabled unarmed)
        (.onBus (by decide) (.refl _ _)) (by decide) rfl fun d posted kept => ⟨posted, ?_⟩
      rw [kept.get_bus, Chip.settle_bus]
      rfl
    case leave =>
      refine completes_posted (exec_busService ..) live permitted (Chip.serviceWrite_leave (c := s.chip.begin) serving)
        (.raise (by decide) (.onBus (by decide) (.refl _ _))) (by decide) rfl fun d posted kept => ⟨posted, ?_, ?_⟩
      · rw [kept.get_bus, Chip.settle_bus]
        rfl
      · rw [kept.get_err, Chip.settle_err]
        exact Chip.recorded_eq rfl rfl
  case locks =>
    have known : ¬ ((!isCore master) = true ∧ (!isEngine master) = true) := by simpa using fun h => inner.resolve_left (by simp [h])
    have formed : ¬ (4 < rest.length ∨ (!lockedIn target.toNat rest) = true) := by simp [locked, short]
    refine ⟨fun low high => ?timeout, fun csr => ?csrTarget⟩
    case timeout =>
      refine completes_of_effect _ (exec_lockTimeout ..) live (by rw [if_neg known, if_neg formed, if_neg (by omega), if_neg (by omega)]) ?_ ?_
      · exact .refuseRest_inner inner (by decide) (by decide) (by decide) (.raise (by decide) (.onBus (by decide) (.refl _ _)))
      · obtain ⟨count, timeouts, seen, sequence, owners⟩ := Chip.refuseRest_bus (master := master) (cause := 6) (rest := rest)
          (c := (s.chip.begin.onBus fun b => { b with timeouts := b.timeouts + 1, timeoutSeen := true, lockSeq := (0, 0) }).raise
            0x0103 .fault)
        rw [Chip.settle_bus, Chip.settle_err]
        refine ⟨timeouts, seen, sequence, count, owners, ?_⟩
        rintro rfl
        exact Chip.recorded_eq rfl rfl
    case csrTarget =>
      subst csr
      refine completes_of_effect _ (exec_lockTimeout ..) live (by rw [if_neg known, if_neg formed, if_pos (by decide)]) ?_ ?_
      · exact .refuseRest_inner inner (by decide) (by decide) (by decide) (.refl _ _)
      · obtain ⟨count, timeouts, seen, sequence, owners⟩ := Chip.refuseRest_bus (master := master) (cause := 2) (rest := rest)
          (c := s.chip.begin)
        rw [Chip.settle_bus]
        refine ⟨timeouts, count, owners, ?_⟩
        rintro rfl
        exact Chip.settle_quiet live.2.1

end Sys2Proof.Machine

namespace Sys2Proof.Machine

/-- How a statement about a command that leaves the hampers is reached. -/
theorem completes_of_hamless {i : Instr} {s : State} {named : List Piece} {P : Chip → Prop} (f : Hamper × Chip → Hamper × Chip)
    {c : Chip} (run : Sys2Proof.Machine.exec i s = actHam f s) (live : s.live) (effect : f (s.ham, s.chip.begin) = (s.ham, c))
    (frame : s.chip.begin.keeps ([.out, .irq] ++ named) c) (holds : P c.settle) : Completes i s named P :=
  completes_of_effect _ (run.trans (actHam_eq_act f live effect)) live rfl frame holds

/-! The error registers (18 R467, R469, R470) -/

theorem exec_errHeadAck (master : Byte) (value : Word) (s : State) :
    Sys2Proof.Machine.exec (.errHeadAck master value) s =
      csrStep master 0x50030030 (fun c => (true, if value.getLsbD 0 then c.headAck else c)) s := by rfl

theorem exec_errRearmBus (master : Byte) (s : State) :
    Sys2Proof.Machine.exec (.errRearmBus master) s = csrStep master 0x50030034 (fun c => (true, c.rearmBus)) s := by rfl

theorem exec_errRearmMem (master : Byte) (s : State) :
    Sys2Proof.Machine.exec (.errRearmMem master) s = csrStep master 0x50030034 (fun c => (true, c.rearmMem)) s := by rfl

theorem exec_overflowSeenClear (master : Byte) (s : State) :
    Sys2Proof.Machine.exec (.overflowSeenClear master) s =
      csrStep master 0x50030000 (fun c => (true, c.clearOverflow)) s := by rfl

theorem exec_latchingRead (master : Byte) (r : LatchReg) (s : State) :
    Sys2Proof.Machine.exec (.latchingRead master r) s = actHam (fun p =>
      match p.2.csrCause master false (latchAddr r) 4 with
      | some k => (p.1, (p.2.refuse master false 4 (latchAddr r) k).emit (.busRead (refusedRead master)))
      | none =>
        let q := csrRead master (latchAddr r) p.1 p.2
        (p.1, q.2.emit (.busRead (some q.1)))) s := by rfl

theorem Chip.mem_emit (o : Out) (c : Chip) : o ∈ (c.emit o).out := List.mem_append_right _ (List.mem_singleton_self _)

theorem csrRead_errHead (master : Byte) (h : Hamper) (c : Chip) :
    csrRead master (latchAddr .errHead) h c = (csrPeek h c (latchAddr .errHead), c.latchHead) := by
  rfl

theorem csrRead_blkLo (master : Byte) (h : Hamper) (c : Chip) :
    csrRead master (latchAddr .blkLo) h c = (lo32 c.sys.blk, c.latchBlk) := by
  rfl

theorem Chip.latchHead_settled {c : Chip} {o : Out} (quiet : c.err.raising = []) :
    (c.latchHead.emit o).settle.err = c.latchHead.err :=
  Chip.settle_quiet (c := c.latchHead.emit o) quiet

/-- How a statement about a read that latches is reached. -/
theorem completes_of_permittedRead {master : Byte} (r : LatchReg) {s : State} {named : List Piece} {P : Chip → Prop}
    (live : s.live) (permitted : s.chip.csrCause master false (latchAddr r) 4 = none)
    (frame : s.chip.begin.keeps ([.out, .irq] ++ named) (csrRead master (latchAddr r) s.ham s.chip.begin).2)
    (holds : P ((csrRead master (latchAddr r) s.ham s.chip.begin).2.emit
      (.busRead (some (csrRead master (latchAddr r) s.ham s.chip.begin).1))).settle) :
    Completes (.latchingRead master r) s named P := by
  refine completes_of_hamless _ (exec_latchingRead master r s) live ?_ (.emit (by simp) frame) holds
  rw [show s.chip.begin.csrCause master false (latchAddr r) 4 = none from permitted]

section
variable {c : Chip} {p : Rec → Bool} {n : Nat}

/-- Acknowledged records of which no other block keeps anything leave the queue and the latch alone. -/
theorem Chip.ackWhere_of_plain (plain : ∀ r ∈ c.err.queue ++ c.err.first.toList, p r = true →
      r.code ≠ 0x1021 ∧ r.code ≠ 0x0E21 ∧ r.code ≠ 0x0101 ∧ c.mem.firstRec ≠ some (r.code, r.blk)) :
    c.ackWhere p = c.onErr fun e => { e with
      queue := e.queue.filter fun r => !p r, first := e.first.filter fun r => !p r } := by
  unfold Chip.ackWhere
  dsimp only
  rw [foldl_eq_of_forall_mem]
  · refine congrArg (Chip.onErr · c) (funext fun e => ?_)
    cases first : e.first with
    | none => rfl
    | some r => cases hit : p r <;> simp [Option.filter, hit]
  · intro r hr
    obtain ⟨member, hit⟩ := List.mem_filter.mp hr
    obtain ⟨noSink, noCross, noBus, noMem⟩ := plain r member hit
    have noRelease : ¬ (r.code = 0x1021 ∨ r.code = 0x0E21) := by tauto
    simp only [noRelease, noBus, if_false]
    exact if_neg fun k => noMem k.1

theorem Chip.headAck_of_plain (head : c.err.headSeq = some n) (queued : ∃ r ∈ c.err.queue, r.seq = n)
    (plain : ∀ r ∈ c.err.queue ++ c.err.first.toList, r.seq = n →
      r.code ≠ 0x1021 ∧ r.code ≠ 0x0E21 ∧ r.code ≠ 0x0101 ∧ c.mem.firstRec ≠ some (r.code, r.blk)) :
    c.headAck = c.onErr fun e => { e with queue := e.queue.filter (·.seq ≠ n), first := e.first.filter (·.seq ≠ n) } := by
  have found : (c.err.queue.any fun r => decide (r.seq = n)) = true := by simpa using queued
  simp only [Chip.headAck, head, found, if_true]
  rw [Chip.ackWhere_of_plain (by simpa using plain)]
  simp only [ne_eq, decide_not]

end

/-- Settles O45: the writes from what they do to their block, the reads from what they latch. -/
theorem errorRegisters : Obligations.ErrorRegisters := by
  unfold Obligations.ErrorRegisters
  intro s master live
  have quiet : s.chip.begin.err.raising = [] := live.2.1
  refine ⟨fun permitted => ⟨fun n head queued plain => ?ack, fun noHead => ?noHead, ?unset⟩,
    fun permitted => ⟨?rearmBus, ?rearmMem⟩, fun permitted => ?overflow, fun permitted => ?head, fun permitted => ?block⟩
  case ack =>
    have effect := Chip.headAck_of_plain (c := s.chip.begin) head queued plain
    refine completes_posted (exec_errHeadAck ..) live permitted (by rw [if_pos (by decide), effect])
      (.onErr (by decide) (.refl _ _)) (by decide) rfl fun d posted kept => ⟨posted, ?_⟩
    exact kept.get_err.trans (Chip.settle_quiet quiet)
  case noHead =>
    have effect : s.chip.begin.headAck = s.chip.begin := by
      unfold Chip.headAck
      rw [show s.chip.begin.err.headSeq = none from noHead]
    exact completes_posted (exec_errHeadAck ..) live permitted (by rw [if_pos (by decide), effect]) (.refl _ _) (by decide) rfl
      fun _ posted _ => posted
  case unset =>
    exact completes_posted (exec_errHeadAck ..) live permitted (by rw [if_neg (by decide)]) (.refl _ _) (by decide) rfl
      fun _ posted _ => posted
  case rearmBus =>
    refine completes_posted (exec_errRearmBus ..) live permitted rfl (.onBus (by decide) (.refl _ _)) (by decide) rfl
      fun d posted kept => ⟨posted, ?_⟩
    rw [kept.get_bus, Chip.settle_bus]
    rfl
  case rearmMem =>
    refine completes_posted (exec_errRearmMem ..) live permitted rfl (.onMem (by decide) (.refl _ _)) (by decide) rfl
      fun d posted kept => ⟨posted, ?_⟩
    rw [kept.get_mem, Chip.settle_mem]
    rfl
  case overflow =>
    refine completes_posted (exec_overflowSeenClear ..) live permitted rfl (.onErr (by decide) (.refl _ _)) (by decide) rfl
      fun d posted kept => ⟨posted, ?_⟩
    exact kept.get_err.trans (Chip.settle_quiet quiet)
  case head =>
    refine completes_of_permittedRead .errHead live permitted (by
      rw [csrRead_errHead]
      exact .onErr (by decide) (.refl _ _)) ⟨⟨_, Chip.mem_settle_out (Chip.mem_emit _ _)⟩, ?_⟩
    rw [csrRead_errHead, Chip.latchHead_settled quiet]
    refine ⟨fun empty => ?_, fun r q queue => ?_⟩
    · simp [Chip.latchHead, Chip.onErr, Chip.begin, empty]
    · simp [Chip.latchHead, Chip.onErr, Chip.begin, queue]
  case block =>
    refine completes_of_permittedRead .blkLo live permitted (by
      rw [csrRead_blkLo]
      exact .onSys (by decide) (.refl _ _)) ⟨?_, ?_⟩
    · rw [csrRead_blkLo]
      exact Chip.mem_settle_out (Chip.mem_emit _ _)
    · rw [csrRead_blkLo, Chip.settle_sys]
      rfl

end Sys2Proof.Machine

namespace Sys2Proof.Machine

/-! Pending interrupts (15 R413) -/

theorem packBits_succ (n : Nat) (p : Nat → Bool) : packBits (n + 1) p = packBits n p + b2n (p n) * 2 ^ n := by
  simp [packBits, List.range_succ]

theorem packBits_lt (n : Nat) (p : Nat → Bool) : packBits n p < 2 ^ n := by
  induction n with
  | zero => simp [packBits]
  | succ n ih =>
    rw [packBits_succ, Nat.pow_succ]
    cases p n <;> simp [b2n] <;> omega

theorem testBit_packBits {n i : Nat} (p : Nat → Bool) (h : i < n) : (packBits n p).testBit i = p i := by
  induction n with
  | zero => exact absurd h (Nat.not_lt_zero i)
  | succ n ih =>
    have low := packBits_lt n p
    rw [packBits_succ, Nat.add_comm, Nat.mul_comm]
    rcases Nat.lt_succ_iff_lt_or_eq.mp h with below | rfl
    · rw [Nat.testBit_two_pow_mul_add _ low, if_pos below, ih below]
    · rw [Nat.testBit_two_pow_mul_add _ low, if_neg (Nat.lt_irrefl _), Nat.sub_self]
      cases p i <;> rfl

section
variable {c : Chip}

@[simp] theorem Chip.deliver_pend (v : Nat) : (c.deliver v).host.pend = c.host.pend := by
  unfold Chip.deliver
  dsimp only
  split <;> rfl

theorem Chip.enterAll_of_quiet (quiet : c.err.raising = []) : c.enterAll = c := by
  have cleared : (c.onErr fun e => { e with raising := [] }) = c := by
    unfold Chip.onErr
    rw [← quiet]
  unfold Chip.enterAll
  dsimp only
  rw [quiet, cleared]
  rfl

/-- With nothing raised and no pulse, the levels become pending. -/
theorem Chip.settle_pend (quiet : c.err.raising = []) (noPulse : c.host.pulses = []) (v : Fin 32) :
    c.settle.host.pend.getLsbD v.val = (c.host.pend.getLsbD v.val || c.rawLevel v.val) := by
  have delivered : ∀ (l : List Nat) (a : Chip), (l.foldl Chip.deliver a).host.pend = a.host.pend := by
    intro l
    induction l with
    | nil => exact fun a => rfl
    | cons v l ih => exact fun a => (ih _).trans (Chip.deliver_pend v)
  unfold Chip.settle Chip.settleIrq
  rw [Chip.enterAll_of_quiet quiet]
  dsimp only
  rw [delivered, noPulse]
  have level : c.rawWord.getLsbD v.val = c.rawLevel v.val := by
    rw [Chip.rawWord, BitVec.getLsbD_ofNat, testBit_packBits _ v.isLt]
    simp
  have none : (BitVec.ofNat 32 (packBits 32 fun _ => false)).getLsbD v.val = false := by
    rw [BitVec.getLsbD_ofNat, testBit_packBits _ v.isLt]
    simp
  simp only [List.any_nil, Chip.onHost, BitVec.getLsbD_or, level, none, Bool.or_false]

end

theorem exec_hostIrqPendClear (master : Byte) (value : Word) (s : State) :
    Sys2Proof.Machine.exec (.hostIrqPendClear master value) s =
      csrStep master 0x50050040 (fun c => (true, c.irqClear value)) s := by rfl

theorem exec_msixUnmask (vec : Option (Fin 32)) (s : State) :
    Sys2Proof.Machine.exec (.msixUnmask vec) s = act (fun c => c.onHost fun h => match vec with
      | some v => { h with msix := lmod h.msix v.val fun e => e.set 3 (e.getD 3 0 &&& 0xFFFFFFFE) }
      | none => { h with funcMask := false }) s := by rfl

theorem exec_pcieReset (cause : PcieCause) (s : State) :
    Sys2Proof.Machine.exec (.pcieReset cause) s = act (Chip.pcieReset cause) s := by rfl

theorem exec_pcieLinkUp (speed : BitVec 2) (link : PcieUp) (s : State) :
    Sys2Proof.Machine.exec (.pcieLinkUp speed link) s = act (fun c =>
      (if c.host.linkUp then c else c.raise 0x0502 .note).onHost fun h => { h with
        linkUp := true, speed := speed, width := link.width, bme := link.cfg.bme, msixEn := link.cfg.msixEn
        funcMask := link.cfg.funcMask, d3hot := link.cfg.d3hot }) s := by rfl

/-- A report leaves the levels, and what is pending. -/
theorem Chip.reportWrite_rawLevel {c : Chip} {master status : Byte} {addr : Nat} (v : Nat) :
    (c.reportWrite master addr status true).rawLevel v = c.rawLevel v := by
  obtain ⟨o, report, -, -⟩ := c.reportWrite_taken (master := master) (addr := addr) (status := status)
  rw [report]
  unfold HostUnit.reported
  split <;> rfl

theorem Chip.reportWrite_irq {c : Chip} {master status : Byte} {addr : Nat} :
    (c.reportWrite master addr status true).host.pend = c.host.pend ∧
      (c.reportWrite master addr status true).host.pulses = c.host.pulses := by
  obtain ⟨o, report, -, -⟩ := c.reportWrite_taken (master := master) (addr := addr) (status := status)
  rw [report]
  unfold HostUnit.reported
  split <;> exact ⟨rfl, rfl⟩

/-! The reset of the PCIe transport (15 R402, R405; 16 R436, R442) -/

/-- A mailbox channel from PCIe is reset with the transport. -/
def MbxCh.dropped (x : MbxCh) : MbxCh := if x.valid && x.sender = 0x40 then { x with go := false, part := [] } else x

/-- The HOST block after a reset of the transport, but for what a reset of the block does. -/
def HostUnit.linkReset (cause : PcieCause) (h : HostUnit) : HostUnit :=
  { h with
    generation := h.generation + 1, reqProd := 0, reqCons := 0, reqHeld := false, rplProd := 0, rplCons := 0, owed := 0,
    msix := List.replicate 32 [0, 0, 0, 1], pend := 0, msixSent := (0, 0), funcMask := false, resetSeen := true,
    bme := false, msixEn := false, d3hot := false, linkUp := h.linkUp && cause = .flr,
    speed := if cause = .flr then h.speed else 0, width := if cause = .flr then h.width else 0 }

section
variable {c : Chip} {cause : PcieCause}

theorem Chip.pcieReset_linkDown : c.pcieReset .linkDown =
    (((c.onHost (HostUnit.linkReset .linkDown)).onMbx fun b => { b with ch := b.ch.map MbxCh.dropped }).crossSettle).raise
      0x0501 .note := by
  rfl

theorem Chip.pcieReset_of_other (other : cause ≠ .linkDown) (outside : c.bus.service ≠ 0x40) : c.pcieReset cause =
    ((((c.onHost fun h => (h.linkReset cause).blockReset).onMbx fun b => { b with
      ch := b.ch.map MbxCh.dropped }).crossSettle).raise 0x0501 .note).freeLocks (· = 0x40) := by
  have unserved : ¬ (((((c.onHost fun h => (h.linkReset cause).blockReset).onMbx fun b => { b with
      ch := b.ch.map MbxCh.dropped }).crossSettle).raise 0x0501 .note).bus.service = 0x40) := outside
  unfold Chip.pcieReset
  dsimp only
  rw [if_neg other, if_neg other]
  exact congrArg (Chip.freeLocks _) (if_neg unserved)

@[simp] theorem Chip.crossSettle_ch : c.crossSettle.mbx.ch = c.mbx.ch := rfl

theorem MbxCh.dropped_go {x : MbxCh} (valid : x.dropped.valid = true) (sender : x.dropped.sender = 0x40) :
    x.dropped.go = false := by
  unfold MbxCh.dropped at *
  by_cases hit : (x.valid && x.sender = 0x40) = true
  · rw [if_pos hit]
  · rw [if_neg hit] at valid sender
    exact absurd (by simp [valid, sender]) hit

end

/-- Settles O48: the W1C from `Chip.settle_pend`, the others from their effect. -/
theorem pcieLink : Obligations.PcieLink := by
  unfold Obligations.PcieLink
  intro s live
  refine ⟨fun master value permitted => ?clear, fun v e entry => ?unmask, ?unmaskAll, fun cause other outside => ?reset, ?down,
    fun speed width cfg => ?up⟩
  case clear =>
    refine completes_taken (exec_hostIrqPendClear ..) live permitted rfl (.onHost (by decide) (by decide) (.refl _ _)) (by decide)
      fun d settled written kept bare => ⟨⟨written, bare.trans ?_⟩, fun v => ?_⟩
    · rw [Chip.hostAfter_eq]
      unfold HostUnit.reported
      split <;> rfl
    · obtain ⟨pend, pulses⟩ := Chip.reportWrite_irq (c := s.chip.begin.irqClear value) (master := master)
        (status := s.chip.spiStatusByte) (addr := 0x50050040)
      rw [settled, Chip.settle_pend ?_ (pulses.trans live.2.2), Chip.reportWrite_rawLevel, pend]
      · have cleared : (s.chip.begin.irqClear value).host.pend = s.chip.host.pend &&& ~~~value := rfl
        rw [cleared, BitVec.getLsbD_and, BitVec.getLsbD_not]
        simp only [v.isLt, decide_true, Bool.true_and]
        rfl
      · rw [Chip.reportWrite_keeps.get_err]
        exact live.2.1
  case unmask =>
    refine completes_of_effect _ (exec_msixUnmask ..) live rfl (.onHost (by decide) (by decide) (.refl _ _)) ?_
    rw [Chip.settle_bare]
    have msix : s.chip.begin.host.msix[v.val]? = some e := entry
    simp only [Chip.onHost, lmod_of_get msix]
    rfl
  case unmaskAll =>
    refine completes_of_effect _ (exec_msixUnmask ..) live rfl (.onHost (by decide) (by decide) (.refl _ _)) ?_
    rw [Chip.settle_bare]
    rfl
  case reset =>
    refine completes_of_effect _ (exec_pcieReset ..) live (Chip.pcieReset_of_other (c := s.chip.begin) other outside) ?_ ?_
    · exact .onBus (by decide) (.raise (by decide) (.onMbx (by decide) (.onMbx (by decide)
        (.onHost (by decide) (by decide) (.refl _ _)))))
    · generalize settled : Chip.settle _ = t
      have bare : t.host.bare = (s.chip.host.linkReset cause).blockReset.bare := by
        rw [← settled, Chip.settle_bare]
        rfl
      refine ⟨congrArg HostUnit.reqProd bare, congrArg HostUnit.reqCons bare, congrArg HostUnit.rplProd bare,
        congrArg HostUnit.rplCons bare, congrArg HostUnit.owed bare, congrArg HostUnit.generation bare,
        congrArg HostUnit.resetSeen bare, congrArg HostUnit.bme bare, congrArg HostUnit.msixEn bare,
        congrArg HostUnit.linkUp bare, (congrArg HostUnit.spiReplies bare :), congrArg HostUnit.spiIrqEn bare,
        congrArg HostUnit.tickDiv bare, ?_, ?_, ?_⟩
      · rw [← settled, Chip.settle_err]
        exact Chip.recorded_eq rfl rfl
      · rw [← settled, Chip.settle_bus]
        simp [Chip.freeLocks, Chip.onBus, Chip.raise, Chip.crossSettle, Chip.onMbx, Chip.onHost, Chip.begin]
      · have channels : t.mbx.ch = s.chip.mbx.ch.map MbxCh.dropped := by
          rw [← settled, Chip.settle_mbx]
          rfl
        rw [channels]
        intro x hx valid sender
        obtain ⟨y, -, rfl⟩ := List.mem_map.mp hx
        exact MbxCh.dropped_go valid sender
  case down =>
    refine completes_of_effect _ (exec_pcieReset ..) live (Chip.pcieReset_linkDown (c := s.chip.begin)) ?_ ?_
    · exact .raise (by decide) (.onMbx (by decide) (.onMbx (by decide) (.onHost (by decide) (by decide) (.refl _ _))))
    · generalize settled : Chip.settle _ = t
      have bare : t.host.bare = (s.chip.host.linkReset .linkDown).bare := by
        rw [← settled, Chip.settle_bare]
        rfl
      refine ⟨congrArg HostUnit.reqProd bare, congrArg HostUnit.rplProd bare,
        (congrArg HostUnit.linkUp bare).trans (Bool.and_false _), congrArg HostUnit.speed bare, congrArg HostUnit.width bare, ?_⟩
      rw [← settled, Chip.settle_err]
      exact Chip.recorded_eq rfl rfl
  case up =>
    refine completes_of_effect _ (exec_pcieLinkUp ..) live rfl
      (.onHost (by decide) (by decide) (.ite (.refl _ _) (.raise (by decide) (.refl _ _)))) ⟨?_, ?_⟩
    · cases isUp : s.chip.host.linkUp with
      | true =>
        rw [if_pos rfl, if_pos (show s.chip.begin.host.linkUp = true from isUp)]
        exact Chip.settle_quiet (c := s.chip.begin.onHost _) live.2.1
      | false =>
        rw [if_neg Bool.false_ne_true, if_neg (show ¬ s.chip.begin.host.linkUp = true by
          rw [show s.chip.begin.host.linkUp = false from isUp]; exact Bool.false_ne_true), Chip.settle_err]
        exact Chip.recorded_eq rfl rfl
    · rw [Chip.settle_bare]
      split <;> rfl

end Sys2Proof.Machine

namespace Sys2Proof.Machine

/-! Writes that come about at a CORE clock -/

theorem completesAt_posted {i : Instr} {s : State} {t : Nat} {master : Byte} {addr : Nat} {named : List Piece} {P : Chip → Prop}
    {c : Chip} {f : Chip → Bool × Chip}
    (run : Sys2Proof.Machine.exec i s = csrStep master addr (fun c => f (c.advance t)) s) (live : s.live)
    (permitted : s.chip.csrCause master true addr 4 = none) (taken : f (s.chip.begin.advance t) = (true, c))
    (frame : (s.chip.begin.advance t).keeps ([.out, .irq] ++ named) c) (host : Piece.host ∈ named)
    (unwritten : c.host = s.chip.host)
    (holds : ∀ d, s.chip.posted master d → c.settle.keeps [.out, .irq, .host] d → P d)
    (timeless : Piece.clk ∉ named ∧ Piece.ptp ∉ named := by decide) : CompletesAt i s t named P := by
  obtain ⟨noClk, noPtp⟩ := timeless
  have advanced : s.chip.begin.keeps ([.out, .irq] ++ ([.clk, .ptp] ++ named)) c := by
    refine Chip.keeps.trans (Chip.keeps.advance (by simp) (by simp) (.refl _ _)) (frame.mono ?_)
    intro p
    simp
    tauto
  refine completes_posted run live permitted taken advanced (by simp [host]) unwritten fun d posted kept => ?_
  have clk : d.clk = (s.chip.begin.advance t).clk := by
    rw [kept.get_clk, Chip.settle_clk, frame.get_clk (by simp [noClk])]
  refine ⟨?_, ?_, holds d posted kept⟩
  · rw [clk]
    simp
  · rw [kept.get_ptp, Chip.settle_ptp, frame.get_ptp (by simp [noPtp]), clk, Chip.advance_ptp]
    simp [Chip.ptpAt]

/-! One mailbox channel (15 R417, R419) -/

section
variable {c : Chip} {k i n : Nat} {x y : MbxCh} {master : Byte}

/-- The part with channel k as given. -/
def Chip.setMbxCh (k : Nat) (x : MbxCh) (c : Chip) : Chip := c.onMbx fun b => { b with ch := b.ch.set k x }

theorem Chip.mbxCh_of_get (channel : c.mbx.ch[k]? = some x) : c.mbxCh k = x := getD_of_get channel _

theorem Chip.onMbxCh_of_get (channel : c.mbx.ch[k]? = some x) (f : MbxCh → MbxCh) : c.onMbxCh k f = c.setMbxCh k (f x) := by
  unfold Chip.onMbxCh Chip.setMbxCh Chip.onMbx
  dsimp only
  rw [lmod_of_get channel]

theorem Chip.setMbxCh_get (channel : c.mbx.ch[k]? = some x) : (c.setMbxCh k y).mbx.ch[k]? = some y := set_get channel _

@[simp] theorem Chip.setMbxCh_ch : (c.setMbxCh k y).mbx.ch = c.mbx.ch.set k y := rfl
@[simp] theorem Chip.setMbxCh_err : (c.setMbxCh k y).err = c.err := rfl
@[simp] theorem Chip.crossSettle_err : c.crossSettle.err = c.err := rfl

theorem Chip.ringMaster_of_bell {bit : Nat} (bell : bellOf master = some i) :
    c.ringMaster master bit = c.ring i (BitVec.ofNat 32 (2 ^ bit)) := by
  unfold Chip.ringMaster
  rw [bell]

theorem Chip.mbxSend_of_other {i : Nat} (channel : c.mbx.ch[k]? = some x) (receiver : x.receiver ≠ 0x01)
    (bell : bellOf x.receiver = some i) :
    c.mbxSend k n = (c.setMbxCh k { x with len := BitVec.ofNat 5 n, go := true, goAt := c.clk }).ring i
      (BitVec.ofNat 32 (2 ^ k)) := by
  unfold Chip.mbxSend
  dsimp only
  rw [Chip.mbxCh_of_get channel, if_neg fun h => receiver h.1, Chip.onMbxCh_of_get channel, Chip.ringMaster_of_bell bell]

/-- GO clears on a channel with nothing more to send. -/
theorem Chip.mbxEnd_of_done (channel : c.mbx.ch[k]? = some x) (untrapped : c.err.traps 0x01 = false) (rest : x.rest = [])
    (waiting : x.waiting = []) :
    c.mbxEnd k = ((c.setMbxCh k { x with go := false }).crossSettle).setMbxCh k { x with go := false, reply := false } := by
  have idle : ((c.setMbxCh k { x with go := false }).crossSettle).mbx.ch[k]? = some { x with go := false } :=
    Chip.setMbxCh_get channel
  unfold Chip.mbxEnd
  rw [Chip.onMbxCh_of_get channel]
  unfold Chip.mbxNext
  dsimp only
  rw [Chip.mbxCh_of_get idle, Chip.onMbxCh_of_get idle]
  simp only [Chip.crossSettle_err, Chip.setMbxCh_err, untrapped, Bool.or_self, Bool.false_eq_true, if_false, rest, waiting]

/-- A channel without GO stands in no reported pair. -/
theorem Chip.crossSettle_cross (channel : c.mbx.ch[k]? = some x) (idle : x.go = false) :
    c.crossSettle.mbx.cross.getLsbD k = false := by
  unfold Chip.crossSettle
  dsimp only [Chip.onMbx]
  rw [BitVec.getLsbD_ofNat]
  by_cases low : k < 16
  · rw [testBit_packBits _ low, List.any_eq_false.mpr, Bool.and_false]
    intro q hq
    obtain ⟨-, stands⟩ := List.mem_filter.mp hq
    have noGo : (c.mbxCh k).go = false := by rw [Chip.mbxCh_of_get channel, idle]
    intro names
    rcases (by simpa using names : q.1 = k ∨ q.2 = k) with rfl | rfl <;> simp [noGo] at stands
  · simp [low]

/-- The message of a channel with nothing more to send ends: the channel is idle, it stands in no reported pair, and no doorbell
rings. -/
theorem Chip.mbxEnd_shape {f : MbxCh → MbxCh} (channel : c.mbx.ch[k]? = some x) (untrapped : c.err.traps 0x01 = false)
    (rest : (f x).rest = []) (waiting : (f x).waiting = []) :
    ∃ b : Mbx, (c.onMbxCh k f).mbxEnd k = c.onMbx (fun _ => b) ∧
      b.ch = c.mbx.ch.set k { f x with go := false, reply := false } ∧ b.bells = c.mbx.bells ∧ b.cross.getLsbD k = false := by
  have changed : (c.setMbxCh k (f x)).mbx.ch[k]? = some (f x) := Chip.setMbxCh_get channel
  have idle : ((c.setMbxCh k (f x)).setMbxCh k { f x with go := false }).mbx.ch[k]? = some { f x with go := false } :=
    Chip.setMbxCh_get changed
  rw [Chip.onMbxCh_of_get channel, Chip.mbxEnd_of_done changed untrapped rest waiting]
  refine ⟨_, rfl, ?_, rfl, Chip.crossSettle_cross idle rfl⟩
  simp

end

/-- A core binds any channel between two masters of the table. -/
theorem Chip.mbxBind_of_isCore {c : Chip} {k : Nat} {master : Byte} {value : Word} (core : isCore master = true)
    (unlocked : c.mbx.locked = false)
    (known : value.getLsbD 16 = true → (bellOf (BitVec.ofNat 8 value.toNat)).isSome = true ∧
      (bellOf (BitVec.ofNat 8 (value.toNat / 256))).isSome = true ∧
      (BitVec.ofNat 8 value.toNat : Byte) ≠ BitVec.ofNat 8 (value.toNat / 256)) :
    (c.mbxBind master k value).2 = c.onMbxCh k fun x => { x with
      sender := BitVec.ofNat 8 value.toNat, receiver := BitVec.ofNat 8 (value.toNat / 256), valid := value.getLsbD 16 } := by
  have noEngine : isEngine master = false := by revert core; revert master; decide
  have noHost : isHost master = false := by revert core; revert master; decide
  have ends : (value.getLsbD 16 && !((bellOf (BitVec.ofNat 8 value.toNat)).isSome &&
      (bellOf (BitVec.ofNat 8 (value.toNat / 256))).isSome &&
      decide ((BitVec.ofNat 8 value.toNat : Byte) ≠ BitVec.ofNat 8 (value.toNat / 256)))) = false := by
    cases set : value.getLsbD 16 with
    | false => rfl
    | true =>
      obtain ⟨sender, receiver, apart⟩ := known set
      rw [sender, receiver, decide_eq_true apart]
      rfl
  unfold Chip.mbxBind
  dsimp only
  rw [unlocked, ends, noEngine, noHost]
  rfl

/-- The report of a pair that has held GO for the cross-wait time. -/
def Chip.crossDetect (k d : Fin 16) (c : Chip) : Chip :=
  let x := c.mbxCh k.val
  let y := c.mbxCh d.val
  let pair := (min k.val d.val, max k.val d.val)
  if c.mbxPair k.val d.val && x.go && y.go && !c.mbx.told.contains pair &&
      max x.goAt y.goAt + c.mbx.crossWait.toNat * usClk ≤ c.clk then
    let c := c.onMbx fun b => { b with
      told := pair :: b.told, cross := b.cross ||| (BitVec.ofNat 16 (2 ^ k.val) ||| BitVec.ofNat 16 (2 ^ d.val))
      crossEvents := b.crossEvents + 1 }
    ((c.ringMaster x.sender 31).ringMaster x.receiver 31).raise 0x0420 .note (min k.val d.val)
  else c

theorem exec_crossWaitDetect (k d : Fin 16) (t : Nat) (s : State) :
    Sys2Proof.Machine.exec (.crossWaitDetect k d t) s = act (fun c => (c.advance t).crossDetect k d) s := by rfl

theorem Chip.crossDetect_of_due {c : Chip} {k d : Fin 16} {x y : MbxCh} {i j : Nat} (channel : c.mbx.ch[k.val]? = some x)
    (other : c.mbx.ch[d.val]? = some y) (pair : c.mbxPair k.val d.val = true) (goX : x.go = true) (goY : y.go = true)
    (untold : c.mbx.told.contains (min k.val d.val, max k.val d.val) = false)
    (due : max x.goAt y.goAt + c.mbx.crossWait.toNat * usClk ≤ c.clk) (bellX : bellOf x.sender = some i)
    (bellY : bellOf x.receiver = some j) : c.crossDetect k d =
      (((c.onMbx fun b => { b with
        told := (min k.val d.val, max k.val d.val) :: b.told
        cross := b.cross ||| (BitVec.ofNat 16 (2 ^ k.val) ||| BitVec.ofNat 16 (2 ^ d.val))
        crossEvents := b.crossEvents + 1 }).ring i 0x80000000).ring j 0x80000000).raise 0x0420 .note (min k.val d.val) := by
  unfold Chip.crossDetect
  dsimp only
  rw [Chip.mbxCh_of_get channel, Chip.mbxCh_of_get other, pair, goX, goY, untold, if_pos (by simpa using due),
    Chip.ringMaster_of_bell bellX, Chip.ringMaster_of_bell bellY]
  rfl

theorem exec_mbxGo (master : Byte) (k : Fin 16) (len : BitVec 5) (t : Nat) (s : State) :
    Sys2Proof.Machine.exec (.mbxGo master k len t) s =
      csrStep master (mbxCtrl k.val) (fun c => (c.advance t).mbxGo master k.val len.toNat) s := by rfl

theorem exec_mbxAck (master : Byte) (k : Fin 16) (s : State) :
    Sys2Proof.Machine.exec (.mbxAck master k) s = csrStep master (mbxCtrl k.val) (Chip.mbxAck master k.val) s := by rfl

theorem exec_mbxCancel (master : Byte) (k : Fin 16) (s : State) :
    Sys2Proof.Machine.exec (.mbxCancel master k) s = csrStep master (mbxCtrl k.val) (Chip.mbxCancel master k.val) s := by rfl

theorem exec_mbxBindWrite (master : Byte) (k : Fin 16) (value : Word) (s : State) :
    Sys2Proof.Machine.exec (.mbxBindWrite master k value) s =
      csrStep master (0x50040000 + 4 * k.val) (Chip.mbxBind master k.val value) s := by rfl

theorem exec_mbxLockSet (master : Byte) (s : State) :
    Sys2Proof.Machine.exec (.mbxLockSet master) s =
      csrStep master 0x50040040 (fun c => (true, c.onMbx fun b => { b with locked := true })) s := by rfl

theorem exec_mbxDbRingWrite (master : Byte) (i : Fin 28) (value : Word) (s : State) :
    Sys2Proof.Machine.exec (.mbxDbRingWrite master i value) s =
      csrStep master (0x50042008 + 0x10 * i.val) (fun c => (true, c.ringWrite16 i.val value)) s := by rfl

theorem exec_replyCancel (k : Fin 16) (t : Nat) (s : State) :
    Sys2Proof.Machine.exec (.replyCancel k t) s = act (fun c =>
      let c := c.advance t
      let x := c.mbxCh k.val
      if x.go && x.reply && !c.err.traps 0x01 && x.goAt + 100 * msClk ≤ c.clk then
        ((c.onMbxCh k.val fun x => { x with cancelled := x.cancelled + 1, rest := [] }).mbxEnd k.val).raise 0x0421 .note k.val
      else c) s := by rfl

/-- Settles O49: GO from `Chip.mbxSend_of_other`; ACK, CANCEL and the end of a reply from `Chip.mbxEnd_of_done`. -/
theorem mailboxes : Obligations.Mailboxes := by
  unfold Obligations.Mailboxes
  intro s master k x live untrapped channel
  refine ⟨fun permitted valid => ⟨fun len t i sender idle atLeast atMost receiver bell => ?go,
      fun receiver room go part rest waiting => ?ack, fun sender go waiting => ?cancel⟩,
    fun value core unlocked known => ?bind, fun permitted => ?lock, fun i value permitted => ?ring,
    fun d y t i j other pair goX goY untold due bellX bellY => ?cross, fun t go reply due waiting => ?replyCancel⟩
  case go =>
    have channel' : (s.chip.begin.advance t).mbx.ch[k.val]? = some x := by simpa using channel
    refine completesAt_posted (exec_mbxGo ..) live permitted (c := ((s.chip.begin.advance t).setMbxCh k.val { x with
      len := len, go := true, goAt := (s.chip.begin.advance t).clk }).ring i (BitVec.ofNat 32 (2 ^ k.val))) ?_
      (.onMbx (by decide) (.onMbx (by decide) (.refl _ _))) (by decide) ?_ fun d posted kept => ⟨posted, ?_⟩
    · unfold Chip.mbxGo
      dsimp only
      rw [Chip.mbxCh_of_get channel', Chip.mbxSend_of_other channel' receiver bell]
      simp [valid, sender, idle, show ¬ (len.toNat < 8 ∨ 16 < len.toNat) by omega]
    · exact s.chip.begin.advance_host t
    · rw [kept.get_mbx, Chip.settle_mbx, kept.get_clk, Chip.settle_clk]
      simp only [Chip.ring, Chip.setMbxCh, Chip.onMbx, Chip.advance_mbx]
      rfl
  case ack =>
    obtain ⟨b, ended, ch, bells, cross⟩ := Chip.mbxEnd_shape (c := s.chip.begin) (f := fun x => { x with acked := x.acked + 1 })
      channel untrapped rest waiting
    refine completes_posted (exec_mbxAck ..) live permitted (c := s.chip.begin.onMbx fun _ => b) ?_ (.onMbx (by decide) (.refl _ _))
      (by decide) rfl fun d posted kept => ⟨posted, ?_⟩
    · unfold Chip.mbxAck
      dsimp only
      rw [Chip.mbxCh_of_get (c := s.chip.begin) channel, ended]
      have taken : ¬ (master = 0x01 ∧ isHost x.sender ∧ s.chip.begin.streamFull) := fun h => by
        rw [show s.chip.begin.streamFull = false from room h.1] at h
        exact Bool.false_ne_true h.2.2
      rw [if_neg taken]
      simp [valid, receiver, go]
    · rw [kept.get_mbx, Chip.settle_mbx]
      exact ⟨ch, bells, cross⟩
  case cancel =>
    obtain ⟨b, ended, ch, bells, cross⟩ := Chip.mbxEnd_shape (c := s.chip.begin)
      (f := fun x => { x with cancelled := x.cancelled + 1, part := [], rest := [] }) channel untrapped rfl waiting
    refine completes_posted (exec_mbxCancel ..) live permitted (c := s.chip.begin.onMbx fun _ => b) ?_
      (.onMbx (by decide) (.refl _ _)) (by decide) rfl fun d posted kept => ⟨posted, ?_⟩
    · unfold Chip.mbxCancel
      dsimp only
      rw [Chip.mbxCh_of_get (c := s.chip.begin) channel, ended]
      simp [valid, sender, go]
    · rw [kept.get_mbx, Chip.settle_mbx]
      exact ⟨ch, bells, cross⟩
  case bind =>
    have permitted : s.chip.csrCause master true (0x50040000 + 4 * k.val) 4 = none := Chip.csrCause_of_isCore core (by omega)
    have effect : s.chip.begin.rowWrite master (0x50040000 + 4 * k.val) (Chip.mbxBind master k.val value) =
        s.chip.begin.setMbxCh k.val { x with
          sender := BitVec.ofNat 8 value.toNat, receiver := BitVec.ofNat 8 (value.toNat / 256), valid := value.getLsbD 16 } := by
      rw [Chip.rowWrite_of_permitted (c := s.chip.begin) permitted, Chip.reportWrite_of_isCore core,
        Chip.mbxBind_of_isCore (c := s.chip.begin) core unlocked known, Chip.onMbxCh_of_get (c := s.chip.begin) channel]
    refine completes_of_effect _ ((exec_mbxBindWrite ..).trans csrStep_eq) live effect (.onMbx (by decide) (.refl _ _)) ?_
    rw [Chip.settle_mbx]
    rfl
  case lock =>
    refine completes_posted (exec_mbxLockSet ..) live permitted rfl (.onMbx (by decide) (.refl _ _)) (by decide) rfl
      fun d posted kept => ⟨posted, ?_⟩
    rw [kept.get_mbx, Chip.settle_mbx]
    rfl
  case ring =>
    refine completes_posted (exec_mbxDbRingWrite ..) live permitted rfl (.onMbx (by decide) (.refl _ _)) (by decide) rfl
      fun d posted kept => ⟨posted, ?_⟩
    rw [kept.get_mbx, Chip.settle_mbx]
    rfl
  case cross =>
    have pair' : (s.chip.begin.advance t).mbxPair k.val d.val = true := by
      unfold Chip.mbxPair Chip.mbxCh at *
      rw [Chip.advance_mbx]
      exact pair
    have effect := Chip.crossDetect_of_due (c := s.chip.begin.advance t) (k := k) (d := d) (by rw [Chip.advance_mbx]; exact channel)
      (by rw [Chip.advance_mbx]; exact other) pair' goX goY (by rw [Chip.advance_mbx]; exact untold)
      (by rw [Chip.advance_mbx, Chip.advance_clk]; exact due) bellX bellY
    refine completesAt_of_effect _ (exec_crossWaitDetect ..) live effect
      (.raise (by decide) (.onMbx (by decide) (.onMbx (by decide) (.onMbx (by decide) (.refl _ _))))) ⟨?_, ?_⟩
    · rw [Chip.settle_mbx]
      simp only [Chip.raise, Chip.ring, Chip.onMbx, Chip.advance_mbx]
      rfl
    · rw [Chip.settle_err]
      exact Chip.recorded_eq (by simp [Chip.raise, Chip.ring, Chip.onMbx]) (by simp [Chip.raise, Chip.ring, Chip.onMbx])
  case replyCancel =>
    have channel' : (s.chip.begin.advance t).mbx.ch[k.val]? = some x := by simpa using channel
    have untrapped' : (s.chip.begin.advance t).err.traps 0x01 = false := by simpa using untrapped
    obtain ⟨b, ended, ch, bells, cross⟩ := Chip.mbxEnd_shape
      (f := fun x => { x with cancelled := x.cancelled + 1, rest := [] }) channel' untrapped' rfl waiting
    refine completesAt_of_effect _ (exec_replyCancel ..) live
      (c := ((s.chip.begin.advance t).onMbx fun _ => b).raise 0x0421 .note k.val) ?_
      (.raise (by decide) (.onMbx (by decide) (.refl _ _))) ⟨?_, ?_⟩
    · dsimp only
      rw [Chip.mbxCh_of_get channel', ended, untrapped', go, reply]
      exact if_pos (by simpa using due)
    · rw [Chip.settle_mbx]
      simpa using ch
    · rw [Chip.settle_err]
      exact Chip.recorded_eq (by simp [Chip.raise, Chip.onMbx]) (by simp [Chip.raise, Chip.onMbx])

end Sys2Proof.Machine

namespace Sys2Proof.Machine

/-! Bytes and words (13 R357) -/

theorem leBytes_length (n x : Nat) : (leBytes n x).length = n := by
  induction n generalizing x with
  | zero => rfl
  | succ n ih => simp [leBytes, ih]

theorem ofLe_leBytes (n x : Nat) : ofLe (leBytes n x) = x % 256 ^ n := by
  induction n generalizing x with
  | zero => simp [leBytes, ofLe, Nat.mod_one]
  | succ n ih =>
    rw [leBytes, ofLe, ih, BitVec.toNat_ofNat]
    exact (Nat.pow_succ' ▸ Nat.mod_mul : x % 256 ^ (n + 1) = x % 256 + 256 * (x / 256 % 256 ^ n)).symm

/-- A word comes back from its bytes. -/
theorem ofLe_word (v : Word) : BitVec.ofNat 32 (ofLe (leBytes 4 v.toNat)) = v := by
  rw [ofLe_leBytes, Nat.mod_eq_of_lt (Nat.lt_of_lt_of_le v.isLt (by decide)), BitVec.ofNat_toNat, BitVec.setWidth_eq]

/-! Shared SRAM (16 R432, R435; 17 R450) -/

theorem targetIndex_sram {a : Nat} (low : 0x40000000 ≤ a) (high : a < 0x40800000) : targetIndex a = 28 := by
  have target : targetOf a = some (28, 0x40000000, 0x800000, 8) := by
    unfold targetOf
    rw [if_neg (by omega), if_neg (by omega), if_neg (by omega), if_neg (by omega), if_neg (by omega), if_pos (by omega)]
  unfold targetIndex
  rw [target]

theorem hostOwned_sram {a : Nat} (owned : hostOwned a = true) : 0x40000000 ≤ a ∧ a < 0x40800000 := by
  have areas : ∀ r ∈ hostAreas, 0x40000000 ≤ r.1 ∧ r.2 ≤ 0x40800000 := by decide +kernel
  obtain ⟨r, member, within⟩ := List.any_eq_true.mp owned
  obtain ⟨low, high⟩ := areas r member
  obtain ⟨above, below⟩ := (Bool.and_eq_true _ _).mp within
  have above := of_decide_eq_true above
  have below := of_decide_eq_true below
  omega

theorem filterMap_id_of_isSome {α : Type} {l : List (Option α)} (v : α) (all : l.all Option.isSome = true) :
    l.filterMap id = l.map fun b => b.getD v := by
  induction l with
  | nil => rfl
  | cons b l ih =>
    obtain ⟨head, tail⟩ := (Bool.and_eq_true _ _).mp (List.all_cons ▸ all)
    obtain ⟨x, rfl⟩ := Option.isSome_iff_exists.mp head
    rw [List.map_cons, ← ih tail]
    rfl

section
variable {c d : Chip} {a n master : Nat} {bs : List (Option Byte)} {data : List Byte} {off : List Nat}

/-- PCIe may write its own areas. -/
theorem Chip.memCause_of_owned (owned : ∀ i < n, hostOwned (a + i) = true) (pos : 0 < n) : c.memCause 0x40 true a n = none := by
  obtain ⟨low, high⟩ := hostOwned_sram (owned 0 pos)
  obtain ⟨low', high'⟩ := hostOwned_sram (owned (n - 1) (by omega))
  have first : targetIndex a = 28 := targetIndex_sram low (by omega)
  have last : targetIndex (a + (n - 1)) = 28 := targetIndex_sram low' high'
  have all : ((List.range n).all fun i => hostOwned (a + i)) = true :=
    List.all_eq_true.mpr fun i hi => owned i (List.mem_range.mp hi)
  unfold Chip.memCause
  rw [first, last, all]
  rfl

theorem Chip.byte_store (wf : c.mem.bytes.wf = true) (x : Nat) : (c.store a data).mem.bytes.byte x =
    if a ≤ x ∧ x < a + data.length then data.getD (x - a) 0 else c.mem.bytes.byte x :=
  Memory.byte_puts wf x

/-- A host write within one word of shared SRAM, which it covers whole or which has no error: the enabled bytes are written. -/
theorem Chip.hostStorePart_word (low : 0x40000000 ≤ a) (high : a < 0x40800000) (aligned : a % 8 = 0) (eight : bs.length = 8)
    (readable : bs.all Option.isSome = true ∨ c.mem.bytes.ecc a = .good) (wf : c.mem.bytes.wf = true) :
    ∃ d, c.hostStorePart master a bs = (true, d) ∧ c.keeps [.mem] d ∧ ∀ x, d.mem.bytes.byte x =
      if a ≤ x ∧ x < a + 8 then (bs.getD (x - a) none).getD (c.mem.bytes.byte x) else c.mem.bytes.byte x := by
  have size : eccSize (targetIndex a) = 8 := by rw [targetIndex_sram low high]; rfl
  have words : eccWords a 8 = [a] := by
    have self := eccWords_self (w := a) (by rw [size]; exact aligned)
    rwa [size] at self
  have part : ((List.range 8).map fun i => if a ≤ a + i then bs.getD (a + i - a) none else none) = bs := by
    refine List.ext_getElem (by simp [eight]) fun i hi _ => ?_
    simp only [List.getElem_map, List.getElem_range, Nat.le_add_right, if_true, Nat.add_sub_cancel_left]
    exact (List.getElem_eq_getD none).symm
  have stored : ∀ ds : List Byte, ds.length = 8 →
      (∀ i < 8, ds.getD i 0 = (bs.getD i none).getD (c.mem.bytes.byte (a + i))) → ∀ x, (c.store a ds).mem.bytes.byte x =
        if a ≤ x ∧ x < a + 8 then (bs.getD (x - a) none).getD (c.mem.bytes.byte x) else c.mem.bytes.byte x := by
    intro ds length same x
    rw [Chip.byte_store wf, length]
    by_cases within : a ≤ x ∧ x < a + 8
    · rw [if_pos within, if_pos within, same (x - a) (by omega), Nat.add_sub_cancel' within.1]
    · rw [if_neg within, if_neg within]
  unfold Chip.hostStorePart
  rw [eight, words]
  simp only [List.foldl_cons, List.foldl_nil, size, part]
  by_cases whole : bs.all Option.isSome = true
  · rw [if_pos whole]
    have values := fun v => filterMap_id_of_isSome v whole
    refine ⟨_, rfl, .onMem (by decide) (.refl _ _), stored _ (by rw [values 0, List.length_map, eight]) fun i hi => ?_⟩
    rw [values (c.mem.bytes.byte (a + i))]
    simp [List.getD_eq_getElem?_getD, eight, hi]
  · rw [if_neg whole]
    have good := readable.resolve_left whole
    by_cases none : bs.all Option.isNone = true
    · rw [if_pos none]
      refine ⟨c, rfl, .refl _ _, fun x => ?_⟩
      have off : (bs.getD (x - a) Option.none).getD (c.mem.bytes.byte x) = c.mem.bytes.byte x := by
        rw [List.getD_eq_getElem?_getD]
        cases get : bs[x - a]? with
        | none => rfl
        | some b =>
          have b_none := List.all_eq_true.mp none b (List.mem_of_getElem? get)
          rw [Option.isNone_iff_eq_none.mp b_none]
          rfl
      rw [off, ite_self]
    · rw [if_neg none, Chip.correct_of_clean (by simpa using good), good]
      refine ⟨_, rfl, .onMem (by decide) (.refl _ _), stored _ (by rw [List.length_mapIdx, eight]) fun i hi => ?_⟩
      simp [List.getD_eq_getElem?_getD, eight, hi]

/-- A PCIe write of the eight bytes of a word of its own. -/
theorem Chip.busWrite_word (owned : ∀ i < 8, hostOwned (a + i) = true) (aligned : a % 8 = 0) (eight : data.length = 8)
    (wf : c.mem.bytes.wf = true) : ∃ d, c.busWrite 0x40 a data = (true, d) ∧ c.keeps [.mem] d ∧ ∀ x, d.mem.bytes.byte x =
      if a ≤ x ∧ x < a + 8 then data.getD (x - a) 0 else c.mem.bytes.byte x := by
  obtain ⟨low, high⟩ : 0x40000000 ≤ a ∧ a < 0x40800000 := hostOwned_sram (owned 0 (by decide))
  have target : targetIndex a = 28 := targetIndex_sram low high
  obtain ⟨d, stored, kept, bytes⟩ := Chip.hostStorePart_word (master := 0x40) (bs := data.map some) low high aligned
    (by rw [List.length_map, eight]) (.inl (by simp)) wf
  refine ⟨d, ?_, kept, fun x => (bytes x).trans ?_⟩
  · have permitted : c.busCause 0x40 true a data.length = none := by
      unfold Chip.busCause
      rw [target, if_neg (by decide), Chip.memCause_of_owned (eight ▸ owned) (by omega)]
    have made : c.memStore 0x40 a data = (true, d) := by
      have whole : entryBytes a data = data := if_neg (by rw [target]; decide)
      unfold Chip.memStore
      rw [whole]
      exact (if_pos (by decide)).trans stored
    unfold Chip.busWrite
    rw [permitted, made, target]
    rfl
  · by_cases within : a ≤ x ∧ x < a + 8
    · rw [if_pos within, if_pos within]
      have lt : x - a < data.length := by omega
      simp [List.getD_eq_getElem?_getD, lt]
    · rw [if_neg within, if_neg within]

/-- The same with some bytes off, over a word without an error. -/
theorem Chip.busWritePart_word (owned : ∀ i < 8, hostOwned (a + i) = true) (aligned : a % 8 = 0) (eight : data.length = 8)
    (good : c.mem.bytes.ecc a = .good) (wf : c.mem.bytes.wf = true) :
    ∃ d, c.busWritePart a (data.mapIdx fun i b => if off.contains i then none else some b) = (true, d) ∧ c.keeps [.mem] d ∧
      ∀ x, d.mem.bytes.byte x =
        if a ≤ x ∧ x < a + 8 ∧ x - a ∉ off then data.getD (x - a) 0 else c.mem.bytes.byte x := by
  obtain ⟨low, high⟩ : 0x40000000 ≤ a ∧ a < 0x40800000 := hostOwned_sram (owned 0 (by decide))
  obtain ⟨low', high'⟩ := hostOwned_sram (owned 7 (by decide))
  have first : targetIndex a = 28 := targetIndex_sram low high
  have last : targetIndex (a + 7) = 28 := targetIndex_sram low' high'
  generalize enabled : (data.mapIdx fun i b => if off.contains i then none else some b) = bs
  have length : bs.length = 8 := by rw [← enabled, List.length_mapIdx, eight]
  obtain ⟨d, stored, kept, bytes⟩ := Chip.hostStorePart_word (master := 0x40) (bs := bs) low high aligned length (.inr good) wf
  refine ⟨d, ?_, kept, fun x => (bytes x).trans ?_⟩
  · have permitted : ((bs.zipIdx.filter fun q => q.1.isSome).findSome? fun q => c.memCause 0x40 true (a + q.2) 1) = none := by
      refine List.findSome?_eq_none_iff.mpr fun q hq => Chip.memCause_of_owned (fun i hi => ?_) (by decide)
      obtain ⟨-, index, -⟩ := List.mem_zipIdx (List.mem_of_mem_filter hq)
      obtain rfl : i = 0 := by omega
      exact owned q.2 (by omega)
    have kept : (bs.mapIdx fun i b => if noBits (a + i) then b.map fun _ => 0 else b) = bs := by
      refine List.ext_getElem (by simp) fun i hi hi' => ?_
      have bits : noBits (a + i) = false := by simp [noBits]; omega
      simp [bits]
    unfold Chip.busWritePart
    rw [first, length, last, permitted, kept, stored]
    rfl
  · by_cases within : a ≤ x ∧ x < a + 8
    · have lt : x - a < data.length := by omega
      have byte : bs.getD (x - a) none = if x - a ∈ off then none else some (data.getD (x - a) 0) := by
        rw [← enabled]
        simp [List.getD_eq_getElem?_getD, lt]
      rw [if_pos within, byte]
      by_cases disabled : x - a ∈ off
      · rw [if_pos disabled, if_neg (fun h => h.2.2 disabled)]
        rfl
      · rw [if_neg disabled, if_pos ⟨within.1, within.2, disabled⟩]
        rfl
    · rw [if_neg within, if_neg fun h => within ⟨h.1, h.2.1⟩]

/-- A PCIe read of words without an error. -/
theorem busRead_of_clean {h : Hamper} (low : 0x40000000 ≤ a) (high : a + n ≤ 0x40800000) (pos : 0 < n)
    (clean : c.mem.bytes.clean a n = true) : busRead 0x40 a n (h, c) = (some (c.viewBytes a n), c) := by
  have first : targetIndex a = 28 := targetIndex_sram low (by omega)
  have last : targetIndex (a + (n - 1)) = 28 := targetIndex_sram (by omega) (by omega)
  have permitted : c.busCause 0x40 false a n = none := by
    unfold Chip.busCause Chip.memCause
    rw [first, last]
    rfl
  have good := fun w => Memory.ecc_of_clean (w := w) clean
  have none : c.badWord (eccWords a n) = none := by
    refine List.find?_eq_none.mpr fun w hw => ?_
    simp [good w hw]
  have made : c.hostRead 0x40 a n = (some (c.viewBytes a n), c) := by
    simp [Chip.hostRead, Chip.correct_of_clean good, none]
  unfold busRead
  dsimp only
  rw [permitted, first]
  dsimp only
  rw [if_neg (by decide)]
  exact congrArg (fun r : Option (List Byte) × Chip =>
    (r.1, if r.1.isNone && (0x40 : Byte) = 0x40 then r.2.onHost fun h => { h with aerAbort := true } else r.2)) made

end

end Sys2Proof.Machine

namespace Sys2Proof.Machine

/-! Writes of any register (16 R433, R437), and accesses through a BAR (15 R403) -/

theorem exec_csrWrite (master : Byte) (addr value : Word) (s : State) :
    Sys2Proof.Machine.exec (.csrWrite master addr value) s = act (fun c =>
      let r := c.busWrite master addr.toNat (leBytes 4 value.toNat)
      r.2.reportWrite master addr.toNat c.spiStatusByte r.1) s := by rfl

theorem exec_barAccess (req : BarReq) (s : State) :
    Sys2Proof.Machine.exec (.barAccess req) s = execBarAccess req s := by rfl

/-- A write of a register acts as one that has a row of its own. -/
theorem exec_csrWrite_register {addr : Word} (register : targetIndex addr.toNat = 29) (master : Byte) (value : Word) (s : State) :
    Sys2Proof.Machine.exec (.csrWrite master addr value) s = csrStep master addr.toNat (csrPoke master addr.toNat value) s := by
  refine (exec_csrWrite ..).trans (congrArg (act · s) (funext fun c => ?_))
  show _ = c.rowWrite master addr.toNat (csrPoke master addr.toNat value)
  unfold Chip.busWrite Chip.busCause Chip.rowWrite
  rw [leBytes_length, ofLe_word, if_pos register]
  cases c.csrCause master true addr.toNat 4 with
  | some k => rfl
  | none =>
    dsimp only
    rw [if_pos register]

theorem csrPoke_spiIrqEn (master : Byte) (v : Word) (c : Chip) :
    csrPoke master 0x50050048 v c = (true, c.onHost fun h => { h with spiIrqEn := v }) := by
  have block : (0x50050048 - 0x50000000) / 0x10000 = 5 := by norm_num
  have offset : 0x50050048 % 0x10000 = 0x48 := by norm_num
  unfold csrPoke
  dsimp only
  rw [block, offset]
  rfl

theorem csrPoke_engOverrun (master : Byte) (v : Word) (c : Chip) :
    csrPoke master 0x50000024 v c =
      (true, c.onSys fun u => { u with engOverrun := u.engOverrun &&& ~~~(BitVec.ofNat 24 v.toNat) }) := by
  have block : (0x50000024 - 0x50000000) / 0x10000 = 0 := by norm_num
  have offset : 0x50000024 % 0x10000 = 0x24 := by norm_num
  unfold csrPoke
  dsimp only
  rw [block, offset]
  rfl

theorem exec_csrWrite_spiIrqEn (master : Byte) (value : Word) (s : State) :
    Sys2Proof.Machine.exec (.csrWrite master 0x50050048 value) s =
      csrStep master 0x50050048 (fun c => (true, c.onHost fun h => { h with spiIrqEn := value })) s := by
  have addr : (0x50050048 : Word).toNat = 0x50050048 := by decide
  rw [exec_csrWrite_register (by decide), addr]
  exact congrArg (csrStep master 0x50050048 · s) (funext fun c => csrPoke_spiIrqEn master value c)

theorem exec_csrWrite_engOverrun (master : Byte) (value : Word) (s : State) :
    Sys2Proof.Machine.exec (.csrWrite master 0x50000024 value) s = csrStep master 0x50000024 (fun c =>
      (true, c.onSys fun u => { u with engOverrun := u.engOverrun &&& ~~~(BitVec.ofNat 24 value.toNat) })) s := by
  have addr : (0x50000024 : Word).toNat = 0x50000024 := by decide
  rw [exec_csrWrite_register (by decide), addr]
  exact congrArg (csrStep master 0x50000024 · s) (funext fun c => csrPoke_engOverrun master value c)

section
variable {c : Chip} {master status : Byte} {write : Bool} {size addr cause : Nat} {req : BarReq}

/-- What the master sees of a refused write (15 R404, R410; 16 R437). -/
theorem Chip.mem_report_refused_posted (pcie : master = 0x40) :
    Out.posted false ∈ (c.reportWrite master addr status false).out := by
  unfold Chip.reportWrite
  rw [if_pos pcie]
  exact Chip.mem_emit _ _

@[simp] theorem Chip.raiseFirst_host {code key detail : Nat} {cls : Cls} :
    (c.raiseFirst code cls key detail).host = c.host := by
  unfold Chip.raiseFirst
  split <;> rfl

theorem Chip.report_refused_spi (spi : master = 0x41) :
    (c.reportWrite master addr status false).host.spiErr = true ∧
      (c.reportWrite master addr status false).host.spiErrAddr = lo32 addr := by
  subst spi
  unfold Chip.reportWrite Chip.spiClose
  rw [if_neg (by decide), if_pos rfl]
  dsimp only [Chip.emit]
  rw [if_neg Bool.false_ne_true, if_pos (Bool.not_false), Chip.raiseFirst_host]
  exact ⟨rfl, rfl⟩

theorem Chip.mem_refuse_trap (core : isCore master = true) :
    Out.trap master ∈ (c.refuse master write size addr cause).out := by
  unfold Chip.refuse Chip.errorResponse
  dsimp only
  rw [if_pos core]
  exact Chip.mem_emit _ _

theorem Chip.tableWord_of_eq {d : Chip} (cmd : d.cmd = c.cmd) (boot : d.boot = c.boot) (a : Nat) :
    d.tableWord a = c.tableWord a := by
  unfold Chip.tableWord Chip.job
  rw [cmd, boot]

theorem Chip.flowByte_of_eq {d : Chip} (flow : d.flow = c.flow) (a : Nat) : d.flowByte a = c.flowByte a := by
  unfold Chip.flowByte Chip.airingCopy
  rw [flow]

theorem Chip.viewByte_of_eq {d : Chip} (cmd : d.cmd = c.cmd) (boot : d.boot = c.boot) (flow : d.flow = c.flow)
    (mem : d.mem = c.mem) (fresh : d.fresh = c.fresh) (a : Nat) : d.viewByte a = c.viewByte a := by
  have words := Chip.tableWord_of_eq cmd boot
  have copies := Chip.flowByte_of_eq flow
  unfold Chip.viewByte
  simp only [words, copies, cmd, mem, fresh]

theorem Chip.viewBytes_of_eq {d : Chip} (cmd : d.cmd = c.cmd) (boot : d.boot = c.boot) (flow : d.flow = c.flow)
    (mem : d.mem = c.mem) (fresh : d.fresh = c.fresh) (a n : Nat) : d.viewBytes a n = c.viewBytes a n := by
  have byte := Chip.viewByte_of_eq cmd boot flow mem fresh
  unfold Chip.viewBytes
  simp only [byte]

/-- What is read does not depend on the outputs of the command before. -/
theorem Chip.begin_viewBytes (a n : Nat) : c.begin.viewBytes a n = c.viewBytes a n :=
  Chip.viewBytes_of_eq (d := c.begin) (c := c) rfl rfl rfl rfl rfl a n

/-- With PCIe silent no interrupt message crosses (01 R14). -/
theorem Chip.settle_out_of_silent (silent : c.sys.xqSilent.getLsbD 18 = true) : c.settle.out = c.out := by
  have delivered : ∀ (l : List Nat) (a : Chip), a.sys.xqSilent.getLsbD 18 = true → (l.foldl Chip.deliver a).out = a.out := by
    intro l
    induction l with
    | nil => exact fun _ _ => rfl
    | cons v l ih =>
      intro a silent
      have held : a.deliver v = a := by
        unfold Chip.deliver
        simp [silent]
      rw [List.foldl_cons, held]
      exact ih a silent
  obtain ⟨e, p, entered⟩ := Chip.errOnly_enterAll c
  unfold Chip.settle Chip.settleIrq
  dsimp only
  rw [delivered _ _ (by rw [entered]; exact silent), entered]
  rfl

end

/-- Settles O44: registers as rows of their own, memory by what a host's write and read of one word do. -/
theorem hostAccesses : Obligations.HostAccesses := by
  unfold Obligations.HostAccesses
  intro s master value live
  refine ⟨fun addr k refused => ?refused, fun permitted => ?irqEn, fun permitted => ?overrun,
    fun o data aligned owned eight wf awake => ?write, fun o data off aligned owned eight some wf awake clean => ?part,
    fun req barred still inBar crosses => ?unsupported, fun o aligned within awake clean => ?read⟩
  case refused =>
    have effect : s.chip.begin.busWrite master addr.toNat (leBytes 4 value.toNat) =
        (false, s.chip.begin.refuse master true 4 addr.toNat k) := by
      unfold Chip.busWrite
      rw [leBytes_length, show s.chip.begin.busCause master true addr.toNat 4 = .some k from refused]
    refine completes_of_effect _ (exec_csrWrite ..) live (by rw [effect]) ?_ ?_
    · exact .reportWrite (by decide) (by decide) (by decide) (by decide) (.refuse (by decide) (by decide) (by decide) (by decide)
        (by decide) (fun _ => by decide) (.refl _ _))
    · have bus : ((s.chip.begin.refuse master true 4 addr.toNat k).reportWrite master addr.toNat s.chip.begin.spiStatusByte
          false).settle.bus = s.chip.bus.refused master true 4 addr.toNat k := by
        rw [Chip.settle_bus, Chip.reportWrite_bus, Chip.refuse_bus]
        rfl
      rw [bus]
      refine ⟨rfl, rfl, by simp [BusUnit.refused, lo32], rfl, fun held => ?_, fun open_ => ?_, fun pcie => ?_, fun spi => ?_,
        fun core => ?_⟩
      · exact ⟨if_neg held, if_neg held⟩
      · simp [BusUnit.refused, open_, lo32]
      · exact Chip.mem_settle_out (Chip.mem_report_refused_posted pcie)
      · obtain ⟨failed, at_⟩ := Chip.report_refused_spi (c := s.chip.begin.refuse master true 4 addr.toNat k)
          (status := s.chip.begin.spiStatusByte) (addr := addr.toNat) spi
        have bare := ((s.chip.begin.refuse master true 4 addr.toNat k).reportWrite master addr.toNat s.chip.begin.spiStatusByte
          false).settle_bare
        exact ⟨(congrArg HostUnit.spiErr bare).trans failed,
          (congrArg HostUnit.spiErrAddr bare).trans (at_.trans (by simp [lo32]))⟩
      · rw [Chip.reportWrite_of_isCore core]
        exact Chip.mem_settle_out (Chip.mem_refuse_trap core)
  case irqEn =>
    refine completes_taken (exec_csrWrite_spiIrqEn ..) live permitted rfl
      (.onHost (by decide) (by decide) (.refl _ _)) (by decide) fun d _ written kept bare => ⟨written, bare.trans ?_⟩
    rw [Chip.hostAfter_eq]
    unfold HostUnit.reported
    split <;> rfl
  case overrun =>
    refine completes_posted (exec_csrWrite_engOverrun ..) live permitted rfl (.onSys (by decide) (.refl _ _)) (by decide) rfl fun d posted kept => ⟨posted, ?_⟩
    rw [kept.get_sys, Chip.settle_sys]
    rfl
  case write =>
    have low := hostOwned_sram (owned 0 (by decide))
    have base : barAddr false o = .some (0x40000000 + o) := by
      unfold barAddr
      rw [if_neg (by omega), if_neg (by decide), if_pos (by omega)]
    obtain ⟨d, made, kept, bytes⟩ := Chip.busWrite_word (c := s.chip.begin) owned (by omega) eight wf
    refine completes_of_hamless _ (exec_barAccess ..) live (c := d.emit (.posted true)) ?_
      (.emit (by decide) (kept.mono (by decide))) ⟨Chip.mem_settle_out (Chip.mem_emit _ _), fun x => ?_⟩
    · simp only [base, Chip.strike, List.foldl_nil, Bool.false_or, show s.chip.begin.host.d3hot = false from awake,
        Bool.false_eq_true, if_false, if_true, List.isEmpty_nil, List.take_of_length_le (Nat.le_of_eq eight), made]
    · rw [Chip.settle_mem]
      exact bytes x
  case part =>
    have low := hostOwned_sram (owned 0 (by decide))
    have base : barAddr false o = .some (0x40000000 + o) := by
      unfold barAddr
      rw [if_neg (by omega), if_neg (by decide), if_pos (by omega)]
    have size : eccSize (targetIndex (0x40000000 + o)) = 8 := by
      rw [targetIndex_sram (by omega) (by omega)]
      rfl
    have word : 0x40000000 + o ∈ eccWords (0x40000000 + o) 8 := by
      have self := eccWords_self (w := 0x40000000 + o) (by rw [size]; omega)
      rw [size] at self
      rw [self]
      exact List.mem_singleton_self _
    obtain ⟨d, made, kept, bytes⟩ := Chip.busWritePart_word (c := s.chip.begin) (off := off) owned (by omega) eight
      (Memory.ecc_of_clean clean word) wf
    refine completes_of_hamless _ (exec_barAccess ..) live (c := d.emit (.posted true)) ?_
      (.emit (by decide) (kept.mono (by decide))) ⟨Chip.mem_settle_out (Chip.mem_emit _ _), fun x => ?_⟩
    · simp only [base, Chip.strike, List.foldl_nil, Bool.false_or, show s.chip.begin.host.d3hot = false from awake,
        Bool.false_eq_true, if_false, if_true, List.isEmpty_eq_false_iff.mpr some,
        List.take_of_length_le (Nat.le_of_eq eight), made]
    · rw [Chip.settle_mem]
      exact bytes x
  case unsupported =>
    obtain ⟨a, base⟩ := Option.isSome_iff_exists.mp inBar
    have refused : (req.locked || s.chip.begin.host.d3hot) = true := (Bool.or_eq_true _ _).mpr barred
    refine completes_of_hamless _ (exec_barAccess ..) live (c := s.chip.begin.emit .unsupported) ?_ (.emit (by decide) (.refl _ _))
      (Chip.mem_settle_out (Chip.mem_emit _ _))
    simp only [base, still, Chip.strike, List.foldl_nil, refused, if_true, show s.chip.begin.sys.xqSilent.getLsbD 18 = false from crosses,
      Bool.false_eq_true, if_false]
  case read =>
    have base : barAddr false o = .some (0x40000000 + o) := by
      unfold barAddr
      rw [if_neg (by omega), if_neg (by decide), if_pos (by omega)]
    have answered := busRead_of_clean (h := s.ham) (c := s.chip.begin) (a := 0x40000000 + o) (n := 4) (by omega) (by omega)
      (by decide) clean
    refine completes_of_hamless _ (exec_barAccess ..) live (c := if s.chip.sys.xqSilent.getLsbD 18 then s.chip.begin
        else s.chip.begin.emit (.completion (.some (s.chip.viewBytes (0x40000000 + o) 4)))) ?_
      (.ite (.refl _ _) (.emit (by decide) (.refl _ _))) ⟨fun crosses => ?_, fun silent d => ?_⟩
    · simp only [base, Chip.strike, List.foldl_nil, Bool.false_or, show s.chip.begin.host.d3hot = false from awake,
        Bool.false_eq_true, if_false, answered, Chip.begin_viewBytes]
      rfl
    · rw [crosses, if_neg Bool.false_ne_true]
      exact Chip.mem_settle_out (Chip.mem_emit _ _)
    · rw [silent, if_pos rfl, Chip.settle_out_of_silent (c := s.chip.begin) silent]
      exact List.not_mem_nil

end Sys2Proof.Machine

namespace Sys2Proof.Machine

/-! Replies (13 R360, R375; 15 R406) -/

theorem pack_three (a b c u v w x y z : Nat) : pack [(a, u, x), (b, v, y), (c, w, z)] =
    BitVec.ofNat 32 (x % 2 ^ u * 2 ^ a + y % 2 ^ v * 2 ^ b + z % 2 ^ w * 2 ^ c) := by
  simp [pack]

theorem field_ofNat (n lo w : Nat) : field (BitVec.ofNat 32 n).toNat lo w = n % 2 ^ 32 / 2 ^ lo % 2 ^ w := by
  rw [field, BitVec.toNat_ofNat, Nat.shiftRight_eq_div_pow]

theorem field_pack_status (op status n : Nat) :
    field (pack [(0, 16, op), (16, 8, status), (24, 8, n)]).toNat 16 8 = status % 256 := by
  rw [pack_three, field_ofNat]
  omega

/-- The status field of a reply's first word. -/
theorem replyWords_status (op status tag peg w2 : Nat) (ws : List Word) :
    field ((replyWords op status tag peg w2 ws).getD 0 0).toNat 16 8 = status % 256 := by
  unfold replyWords
  dsimp only
  rw [List.cons_append, List.getD_cons_zero]
  exact field_pack_status ..

/-- The words of a reply that names no job. -/
theorem Chip.repWords_of_peg {c d : Chip} {op : Nat} {h : Hdr} {r : Rep} (jobless : r.job = none) (peg : d.boot.peg = c.boot.peg) :
    d.repWords op h r = c.repWords op h r := by
  unfold Chip.repWords
  rw [jobless, peg]

section
variable {c d : Chip} {h : Hdr} {gen op : Nat} {r : Rep} {ws params : List Word} {run : Chip → Option Rep × Chip}

theorem Chip.countRefusal_repWords (op : Nat) (h : Hdr) (r : Rep) : c.countRefusal (d.repWords op h r) =
    if 0x10 ≤ r.status % 256 then c.onCmd fun u => { u with refusals := u.refusals + 1 } else c := by
  unfold Chip.countRefusal Chip.repWords
  rw [replyWords_status]

/-- The part when it has put a reply to PCIe into the reply ring. -/
def Chip.pcieReplied (ws : List Word) (c : Chip) : Chip :=
  ((c.putWords (0x407E4000 + c.host.rplProd.toNat % 64 * 0x100) ws).onHost fun u => { u with
    rplProd := u.rplProd + 1, owed := u.owed - 1 }).emit (.reply .pcie ws)

/-- An answer to PCIe, for a packet since the latest reset of the transport. -/
theorem Chip.answer_pcie (via : h.via = .pcie) (direct : h.forwarded = false) (fresh : gen = c.host.generation)
    (status : r.status ≠ stInternal) : c.answer h gen op r =
      (if 0x10 ≤ r.status % 256 then c.onCmd fun u => { u with refusals := u.refusals + 1 } else c).pcieReplied
        (c.repWords op h r) := by
  unfold Chip.answer Chip.replyOut
  dsimp only
  rw [if_neg status, direct, if_neg Bool.false_ne_true, Chip.countRefusal_repWords, via]
  unfold Chip.sendReply
  dsimp only
  refine if_neg (not_not.mpr ?_)
  split <;> exact fresh

/-- A command that this unit executes itself and whose handler answers. -/
theorem Chip.order_of_answered (direct : h.forwarded = false) (noPeer : h.peer = false) (own : c.ownCommand h = true)
    (noFail : c.cmd.fails = false) (ran : run c = (some r, d)) : c.order op h gen params run = d.answer h gen op r := by
  unfold Chip.order
  simp [direct, noPeer, own, noFail, ran]

end

/-! The head of the command stream (13 R356 to R359) -/

/-- The part when the CMD core has taken a PCIe packet from the stream. -/
def Chip.pcieTaken (p : Pkt) (rest : List Pkt) (c : Chip) : Chip :=
  (((c.onCmd fun d => { d with stream := rest }).takes).onFlow fun u => { u with replyTo := p.head }).onHost fun u => { u with
    owed := u.owed + 1 }

theorem exec_commandPacket (s : State) :
    Sys2Proof.Machine.exec .commandPacket s = actHam (fun p => reboot (p.1, p.2.takePacket)) s := by rfl

section
variable {c d : Chip} {p : Pkt} {rest : List Pkt}

theorem Chip.mbxPump_of_empty (empty : ∀ x ∈ c.mbx.ch, x.part = []) : c.mbxPump = c := by
  have none : c.mbxWaits = none := by
    unfold Chip.mbxWaits indices
    dsimp only
    rw [List.filter_eq_nil_iff.mpr]
    · rfl
    · intro k _
      have part : (c.mbxCh k).part = [] := by
        unfold Chip.mbxCh
        rw [List.getD_eq_getElem?_getD]
        cases get : c.mbx.ch[k]? with
        | none => rfl
        | some x => exact empty x (List.mem_of_getElem? get)
      simp [part]
  unfold Chip.mbxPump
  refine foldl_eq_of_forall_mem fun k _ => ?_
  rw [none]

theorem Chip.takePacket_of_pcie (head : c.cmd.stream = p :: rest) (free : c.cmdFree = true) (via : p.via = .pcie)
    (direct : p.forwarded = false) (fresh : p.generation = c.host.generation) :
    c.takePacket = ((c.pcieTaken p rest).packet p).mbxPump := by
  have answerable : ∀ e : Chip, e.unanswerable p = false := by
    intro e
    unfold Chip.unanswerable
    rw [via]
  unfold Chip.takePacket
  rw [head]
  dsimp only
  rw [free, if_neg (by decide), direct, if_neg Bool.false_ne_true, if_neg Bool.false_ne_true, answerable,
    if_neg Bool.false_ne_true, if_neg Bool.false_ne_true]
  refine congrArg (fun e : Chip => (e.packet p).mbxPump) ?_
  unfold Chip.pcieTaken Chip.onHost
  dsimp only
  rw [if_pos ⟨via, fresh⟩]

/-- What is left to show of a packet of PCIe is what its command makes of the part. -/
theorem completes_packet {s : State} {named : List Piece} {P : Chip → Prop} (live : s.live) (head : s.chip.cmd.stream = p :: rest)
    (free : s.chip.cmdFree = true) (stays : s.chip.boot.resetDue = false) (via : p.via = .pcie) (direct : p.forwarded = false)
    (fresh : p.generation = s.chip.host.generation) (empty : ∀ x ∈ s.chip.mbx.ch, x.part = [])
    (effect : (s.chip.begin.pcieTaken p rest).packet p = d)
    (frame : s.chip.begin.keeps ([.out, .irq] ++ named) d) (quiet : Piece.boot ∉ named ∧ Piece.mbx ∉ named)
    (holds : P d.settle) : Completes .commandPacket s named P := by
  refine completes_of_hamless _ (exec_commandPacket s) live ?_ frame holds
  have noPart : ∀ x ∈ d.mbx.ch, x.part = [] := by
    rw [frame.get_mbx (by simp [quiet.2])]
    exact empty
  dsimp only
  rw [Chip.takePacket_of_pcie (c := s.chip.begin) head free via direct fresh, effect, Chip.mbxPump_of_empty noPart]
  have still : d.boot.resetDue = false := by
    rw [frame.get_boot (by simp [quiet.1])]
    exact stays
  unfold reboot
  rw [still]
  rfl

/-- A packet whose length and CHECK are right, for another peg. -/
theorem Chip.packet_discarded (whole : p.bytes = 4 * p.words.length) (header : 4 ≤ p.words.length) (short : p.words.length ≤ 64)
    (length : (p.words.getD 0 0).toNat / 2 ^ 24 = p.words.length - 4) (check : checkOk p.words = true)
    (named : (p.words.getD 2 0).toNat % 64 ≠ 0) (other : (p.words.getD 2 0).toNat % 64 ≠ c.boot.peg.toNat)
    (via : p.via = .pcie) (fresh : p.generation = c.host.generation) : (c.pcieTaken p rest).packet p =
      (c.onCmd fun d => { d with stream := rest, taken := d.taken + 1, discards := d.discards + 1 }).onFlow fun u =>
        { u with replyTo := p.head } := by
  have sized : ¬ (p.bytes % 4 ≠ 0 ∨ p.bytes < 16 ∨ 256 < p.bytes ∨ (p.words.getD 0 0).toNat / 2 ^ 24 ≠ p.bytes / 4 - 4) := by
    omega
  have foreign : (p.words.getD 2 0).toNat % 64 ≠ 0 ∧ (p.words.getD 2 0).toNat % 64 ≠ (c.pcieTaken p rest).boot.peg.toNat :=
    ⟨named, other⟩
  unfold Chip.packet
  dsimp only
  rw [if_neg sized, check, if_neg (by decide), if_pos foreign]
  unfold Chip.pcieTaken Chip.takes Chip.onHost Chip.onCmd Chip.onFlow
  dsimp only
  rw [if_pos ⟨via, fresh⟩, via, if_neg (by decide), Nat.add_sub_cancel]

theorem Chip.packet_short (short : p.bytes < 16) : c.packet p =
    c.answer p.hdr p.generation ((p.words.getD 0 0).toNat % 65536) { status := stBadLength } := by
  unfold Chip.packet
  exact if_pos (.inr (.inl short))

/-- A HELLO of a level that the ZK9 has. -/
theorem Chip.packet_hello {tag check level : Word} (words : p.words = [0x01000001, tag, 0, check, level]) (bytes : p.bytes = 20)
    (intact : checkOk p.words = true) (atMost : level.toNat ≤ 2) (direct : p.forwarded = false) (own : c.ownCommand p.hdr = true)
    (noFail : c.cmd.fails = false) : c.packet p = c.answer p.hdr p.generation 1 { ws := [9, pack [(0, 8, 0xA1),
      (8, 6, c.boot.peg.toNat), (16, 3, roleCode c.twin.role), (19, 2, Profile.code c.prof), (21, 1, b2n c.sys.audioEn),
      (22, 1, b2n c.err.safe)]] } := by
  have first : p.words.getD 0 0 = 0x01000001 := by rw [words]; rfl
  have third : p.words.getD 2 0 = 0 := by rw [words]; rfl
  have params : p.words.drop 4 = [level] := by rw [words]; rfl
  have sized : ¬ (p.bytes % 4 ≠ 0 ∨ p.bytes < 16 ∨ 256 < p.bytes ∨ (p.words.getD 0 0).toNat / 2 ^ 24 ≠ p.bytes / 4 - 4) := by
    rw [bytes, first]
    decide
  have opcode : (p.words.getD 0 0).toNat % 65536 = 1 := by rw [first]; decide
  have target : (p.words.getD 2 0).toNat % 64 = 0 := by rw [third]; decide
  have serves : c.serves 1 = true := by
    unfold Chip.serves
    split <;> rfl
  have noPeer : p.hdr.peer = false := by
    unfold Pkt.hdr
    rw [first]
    exact (by decide : BitVec.getLsbD (0x01000001 : Word) 17 = false)
  unfold Chip.packet
  dsimp only
  rw [if_neg sized, intact, if_neg (by decide), opcode, target, if_neg (fun h => h.1 rfl), serves, if_neg (by decide), params,
    show layoutFits 1 [level] = some true from rfl]
  refine Chip.order_of_answered direct noPeer own noFail ?_
  show c.cmdHello level = _
  unfold Chip.cmdHello
  rw [if_neg (by omega)]
  rfl

end

/-- A reply to PCIe changes the ring's memory and the HOST block. -/
theorem Chip.keeps.pcieReplied {L : List Piece} {a c : Chip} {ws : List Word} (out : Piece.out ∈ L) (irq : Piece.irq ∈ L)
    (host : Piece.host ∈ L) (mem : Piece.mem ∈ L) (h : a.keeps L c) : a.keeps L (c.pcieReplied ws) :=
  .emit out (.onHost host irq (.onMem mem h))

/-- A reply to PCIe is put out, in the words that the settled chip would give it too. -/
theorem Chip.mem_pcieReplied_settle {c e : Chip} {op : Nat} {h : Hdr} {r : Rep} (jobless : r.job = none) (peg : e.boot.peg = c.boot.peg) :
    Out.reply .pcie ((e.pcieReplied (c.repWords op h r)).settle.repWords op h r) ∈ (e.pcieReplied (c.repWords op h r)).settle.out := by
  have settled : (e.pcieReplied (c.repWords op h r)).settle.boot.peg = c.boot.peg :=
    (congrArg Boot.peg (Chip.settle_boot _)).trans peg
  rw [Chip.repWords_of_peg (c := c) (d := (e.pcieReplied (c.repWords op h r)).settle) jobless settled]
  exact Chip.mem_settle_out (Chip.mem_emit _ _)

/-- Settles O56: the three cases of `Chip.packet` that the statement names, each for a packet of PCIe. -/
theorem packetTaken : Obligations.PacketTaken := by
  unfold Obligations.PacketTaken
  intro s p rest live head free stays noFail via direct fresh empty
  refine ⟨fun whole header short length check named other => ?discarded, fun short => ?short,
    fun tag check level words bytes intact atMost own => ?hello⟩
  case discarded =>
    refine completes_packet live head free stays via direct fresh empty
      (Chip.packet_discarded (c := s.chip.begin) whole header short length check named other via fresh)
      (.onFlow (by decide) (.onCmd (by decide) (.refl _ _))) (by decide) ?_
    rw [Chip.settle_cmd]
    rfl
  case short =>
    have effect : (s.chip.begin.pcieTaken p rest).packet p = ((s.chip.begin.pcieTaken p rest).onCmd fun u => { u with
        refusals := u.refusals + 1 }).pcieReplied ((s.chip.begin.pcieTaken p rest).repWords ((p.words.getD 0 0).toNat % 65536) p.hdr
          { status := stBadLength }) := by
      rw [Chip.packet_short short, Chip.answer_pcie (c := s.chip.begin.pcieTaken p rest) (h := p.hdr) via direct fresh (by
        decide)]
      rfl
    refine completes_packet live head free stays via direct fresh empty effect
      (.pcieReplied (by decide) (by decide) (by decide) (by decide) (.onCmd (by decide) (.onHost (by decide) (by decide)
        (.onFlow (by decide) (.onCmd (by decide) (.onCmd (by decide) (.refl _ _))))))) (by decide) ⟨?_, ?_, ?_⟩
    · rw [Chip.settle_cmd]
      rfl
    · exact congrArg HostUnit.rplProd (Chip.settle_bare _)
    · exact Chip.mem_pcieReplied_settle (c := s.chip.begin.pcieTaken p rest) rfl rfl
  case hello =>
    have effect : (s.chip.begin.pcieTaken p rest).packet p = (s.chip.begin.pcieTaken p rest).pcieReplied
        ((s.chip.begin.pcieTaken p rest).repWords 1 p.hdr { ws := [9, pack [(0, 8, 0xA1), (8, 6, s.chip.boot.peg.toNat),
          (16, 3, roleCode s.chip.twin.role), (19, 2, Profile.code s.chip.prof), (21, 1, b2n s.chip.sys.audioEn),
          (22, 1, b2n s.chip.err.safe)]] }) := by
      rw [Chip.packet_hello (c := s.chip.begin.pcieTaken p rest) words bytes intact atMost direct own noFail,
        Chip.answer_pcie (c := s.chip.begin.pcieTaken p rest) (h := p.hdr) via direct fresh (by decide : (0 : Nat) ≠ stInternal)]
      rfl
    refine completes_packet live head free stays via direct fresh empty effect
      (.pcieReplied (by decide) (by decide) (by decide) (by decide) (.onHost (by decide) (by decide)
        (.onFlow (by decide) (.onCmd (by decide) (.onCmd (by decide) (.refl _ _)))))) (by decide) ⟨?_, ?_, ?_⟩
    · rw [Chip.settle_cmd]
      rfl
    · exact congrArg HostUnit.rplProd (Chip.settle_bare _)
    · exact Chip.mem_pcieReplied_settle (c := s.chip.begin.pcieTaken p rest) rfl rfl

end Sys2Proof.Machine

namespace Sys2Proof.Machine

/-! Resets of the part (19 R497; 20 R515, R516; 21 R532) -/

/-- What a reset leaves of a BOOT block. -/
def Boot.kept (b : Boot) : Boot :=
  { unitBase := b.unitBase, serviceDisable := b.serviceDisable, mgmtKey := b.mgmtKey, revoked := b.revoked, records := b.records,
    slots := b.slots, subsystem := b.subsystem, powerHeld := b.powerHeld, resetN := b.resetN, testEn := b.testEn,
    extest := b.extest, boundary := b.boundary }

theorem Boot.restarts.of_kept {a b : Boot} (base : b.unitBase = a.unitBase) (service : b.serviceDisable = a.serviceDisable)
    (key : b.mgmtKey = a.mgmtKey) (revoked : b.revoked = a.revoked) (records : b.records = a.records) (slots : b.slots = a.slots) :
    a.restarts b.kept :=
  ⟨rfl, rfl, rfl, base, service, key, revoked, records, slots⟩

theorem Chip.afterReset_eq (held : Bool) (c : Chip) :
    c.afterReset held = { State.reset.chip with held := held, fresh := c.fresh, boot := c.boot.kept } := by
  unfold Chip.afterReset State.reset Boot.kept
  rfl

/-- A reset leaves of the part the counter of free values and what the BOOT block keeps. -/
theorem State.resetPart_eq (held : Bool) (s : State) (c : Chip) (fresh : c.fresh = s.chip.fresh) :
    ({ s with chip := c } : State).resetPart held = s.afresh held c.boot.kept := by
  unfold State.resetPart State.afresh
  dsimp only
  rw [Chip.afterReset_eq, fresh]
  unfold State.reset
  rfl

theorem exec_thermalTrip (s : State) : Sys2Proof.Machine.exec .thermalTrip s = .next s.powerReset := by rfl

theorem exec_brownOut (r : Rail) (s : State) : Sys2Proof.Machine.exec (.brownOut r) s = .next s.powerReset := by rfl

theorem exec_resetAssert (s : State) : Sys2Proof.Machine.exec .resetAssert s =
    .next (({ s with chip := s.chip.onBoot fun b => { b with resetN := false } } : State).resetPart true) := by rfl

theorem exec_testEnReset (high : Bool) (s : State) : Sys2Proof.Machine.exec (.testEnReset high) s = .next (
    let c := s.chip.onBoot fun b => { b with testEn := high, extest := b.extest && high }
    if high then (({ s with chip := c } : State)).resetPart true
    else if s.chip.boot.testEn && c.boot.resetN && !c.boot.powerHeld then (({ s with chip := c } : State)).resetPart false
    else { s with chip := c.begin }) := by rfl

theorem exec_resetRelease (s : State) : Sys2Proof.Machine.exec .resetRelease s = .next (
    let c := (s.chip.onBoot fun b => { b with resetN := true }).begin
    if s.chip.held then (({ s with chip := c.onBoot fun b => { b with powerHeld := false } } : State)).resetPart c.boot.testEn
    else { s with chip := c }) := by rfl

theorem State.powerReset_eq (s : State) :
    s.powerReset = s.afresh true { s.chip.boot with powerHeld := true }.kept := s.resetPart_eq true _ rfl

/-- The resets that hold the part, and what they write of the BOOT block. -/
theorem exec_of_holding_reset {s : State} {i : Instr}
    (h : i = .thermalTrip ∨ i = .resetAssert ∨ i = .testEnReset true ∨ ∃ r, i = .brownOut r) :
    ∃ t b, Sys2Proof.Machine.exec i s = .next t ∧ t = s.afresh true b ∧ s.chip.boot.restarts b ∧
      b.resetN = (s.chip.boot.resetN && decide (i ≠ .resetAssert)) ∧
      b.testEn = (s.chip.boot.testEn || decide (i = .testEnReset true)) ∧
      b.powerHeld = (s.chip.boot.powerHeld || decide (i ≠ .resetAssert ∧ i ≠ .testEnReset true)) := by
  obtain rfl | rfl | rfl | ⟨r, rfl⟩ := h
  case inl => exact ⟨_, _, exec_thermalTrip s, s.powerReset_eq, .of_kept rfl rfl rfl rfl rfl rfl, by simp [Boot.kept]⟩
  case inr.inl =>
    exact ⟨_, _, exec_resetAssert s, s.resetPart_eq true _ rfl, .of_kept rfl rfl rfl rfl rfl rfl,
      by simp [Boot.kept, Chip.onBoot]⟩
  case inr.inr.inl =>
    exact ⟨_, _, exec_testEnReset true s, s.resetPart_eq true _ rfl, .of_kept rfl rfl rfl rfl rfl rfl,
      by simp [Boot.kept, Chip.onBoot]⟩
  case inr.inr.inr =>
    exact ⟨_, _, exec_brownOut r s, s.powerReset_eq, .of_kept rfl rfl rfl rfl rfl rfl, by simp [Boot.kept]⟩

theorem exec_startupWatchdog (t : Nat) (s : State) : Sys2Proof.Machine.exec (.startupWatchdog t) s = actHam (fun p =>
    let c := p.2.advance t
    if (c.boot.stage = .rom ∨ c.boot.stage = .load ∨ c.boot.stage = .sram) ∧ 2 * secClk ≤ c.clk then restart (p.1, c)
    else (p.1, c)) s := by rfl

/-- The watchdog of the first stages starts the part anew. -/
theorem exec_startupWatchdog_late {s : State} {t : Nat} (live : s.live)
    (stage : s.chip.boot.stage = .rom ∨ s.chip.boot.stage = .load ∨ s.chip.boot.stage = .sram)
    (late : 2 * secClk ≤ max s.chip.clk t) : ∃ u b, Sys2Proof.Machine.exec (.startupWatchdog t) s = .next u ∧
      u.pending = s.pending ∧ u.ham = State.reset.ham ∧ s.chip.boot.restarts b ∧
      (s.afresh false b).chip.keeps [.out, .irq] u.chip := by
  have due : ((s.chip.begin.advance t).boot.stage = .rom ∨ (s.chip.begin.advance t).boot.stage = .load ∨
      (s.chip.begin.advance t).boot.stage = .sram) ∧ 2 * secClk ≤ (s.chip.begin.advance t).clk := by
    simpa using ⟨stage, by simpa using late⟩
  refine ⟨_, (s.chip.begin.advance t).boot.kept, (exec_startupWatchdog t s).trans (actHam_live _ live.1), rfl, ?_, ?_, ?_⟩
  · dsimp only
    rw [if_pos due]
    unfold State.reset restart
    rfl
  · apply Boot.restarts.of_kept <;> simp
  · dsimp only
    rw [if_pos due]
    have anew : (restart (s.ham, s.chip.begin.advance t)).2 =
        { (s.afresh false (s.chip.begin.advance t).boot.kept).chip with out := (s.chip.begin.advance t).out } := by
      unfold restart State.afresh
      dsimp only
      rw [Chip.afterReset_eq, Chip.advance_fresh, Chip.begin_fresh]
    rw [anew]
    refine Chip.keeps.settle (L := []) ?_ ?_
    · rfl
    · intro p hp
      cases p <;> first | rfl | exact absurd (by decide) hp

/-! Temperature (20 R524) -/

/-- What TEMP_THRESHOLD does to the part. -/
def Chip.atTemp (temp : Int) (c : Chip) : Chip :=
  let hot := c.boot.hot
  let c := c.onRef fun r => { r with temp := temp }
  let set := fun n (c : Chip) => c.onBoot fun b => { b with hot := n }
  if temp < 10000 then if hot = 0 then c else (set 0 c).raise 0x0022 .note
  else
    let c := if 10500 ≤ temp ∧ hot = 0 then (set 1 c).raise 0x0020 .note else c
    if 11000 ≤ temp ∧ hot < 2 then (set 2 c).raise 0x0021 .fault else c

theorem exec_tempThreshold (temp : Int) (s : State) :
    Sys2Proof.Machine.exec (.tempThreshold temp) s = act (Chip.atTemp temp) s := by rfl

/-- A threshold is crossed: the temperature, the record that stands and the error. -/
def Chip.heated (temp : Int) (hot code : Nat) (cls : Cls) (c : Chip) : Chip :=
  ((c.onRef fun r => { r with temp := temp }).onBoot fun b => { b with hot := hot }).raise code cls

section
variable {c : Chip} {temp : Int}

theorem Chip.atTemp_warm (above : 10500 ≤ temp) (below : temp < 11000) (hot : c.boot.hot = 0) :
    c.atTemp temp = c.heated temp 1 0x0020 .note := by
  unfold Chip.atTemp
  dsimp only
  rw [if_neg (by omega), if_neg (by omega), if_pos ⟨above, hot⟩]
  rfl

theorem Chip.atTemp_hot (above : 11000 ≤ temp) (hot : c.boot.hot = 1) : c.atTemp temp = c.heated temp 2 0x0021 .fault := by
  unfold Chip.atTemp
  dsimp only
  rw [if_neg (by omega), if_pos ⟨above, by omega⟩, if_neg (by omega)]
  rfl

theorem Chip.atTemp_cool (below : temp < 10000) (hot : c.boot.hot ≠ 0) : c.atTemp temp = c.heated temp 0 0x0022 .note := by
  unfold Chip.atTemp
  dsimp only
  rw [if_pos below, if_neg hot]
  rfl

/-- How a clause of TEMP_THRESHOLD is reached. -/
theorem completes_heated {s : State} {hot code : Nat} {cls : Cls} (live : s.live)
    (effect : s.chip.begin.atTemp temp = s.chip.begin.heated temp hot code cls) :
    Completes (.tempThreshold temp) s [.ref, .boot, .err] fun c =>
      c.ref = { s.chip.ref with temp := temp } ∧ c.boot = { s.chip.boot with hot := hot } ∧ c.err = s.chip.recorded code cls :=
  completes_of_effect _ (exec_tempThreshold temp s) live effect
    (.raise (by decide) (.onBoot (by decide) (.onRef (by decide) (.refl _ _))))
    ⟨Chip.settle_ref _, Chip.settle_boot _, Chip.settle_err_of_raise (c := s.chip) rfl rfl⟩

end

/-! Boundary scan (21 R532) -/

/-- The cells that a scan of this many bits captures: free values (log 27). -/
def Chip.captured (n : Nat) (c : Chip) : List Bool := (List.range n).map fun i => (Config.freeWord (c.fresh + i)).getLsbD 0

/-- A scan that shifts these bits out and leaves the boundary register. -/
def Chip.scanned (bits : List Bool) (c : Chip) : Chip := (c.onBoot fun b => { b with extest := false }).emit (.tdo bits)

/-- A scan that loads the boundary register. -/
def Chip.scanLoaded (shift : List Bool) (extest : Bool) (c : Chip) : Chip :=
  ({ c with fresh := c.fresh + shift.length }.onBoot fun b => { b with boundary := shift, extest := extest }).emit
    (.tdo (c.captured shift.length))

theorem exec_boundaryScan (ir : JtagIr) (shift : List Bool) (s : State) :
    Sys2Proof.Machine.exec (.boundaryScan ir shift) s = .next { s with chip := match ir with
      | .bypass => s.chip.begin.scanned ((false :: shift).take shift.length)
      | .idcode => s.chip.begin.scanned (((List.range 32).map (Nat.testBit 0x10009B51) ++ shift).take shift.length)
      | .sample => s.chip.begin.scanLoaded shift false
      | .extest => if s.chip.boot.testEn then s.chip.begin.scanLoaded shift true
          else s.chip.begin.scanned ((false :: shift).take shift.length) } := by cases ir <;> rfl

/-- A scan acts on a part that is held in reset too. -/
theorem completes_of_chip {i : Instr} {s : State} {named : List Piece} {P : Chip → Prop} {c : Chip}
    (run : Sys2Proof.Machine.exec i s = .next { s with chip := c }) (frame : s.chip.begin.keeps ([.out, .irq] ++ named) c)
    (holds : P c) : Completes i s named P :=
  ⟨_, run, rfl, rfl, (Chip.keeps.begin (by simp) (.refl _ _)).trans frame, holds⟩

theorem completes_scanned {ir : JtagIr} {shift bits : List Bool} {s : State}
    (run : Sys2Proof.Machine.exec (.boundaryScan ir shift) s = .next { s with chip := s.chip.begin.scanned bits }) :
    Completes (.boundaryScan ir shift) s [.boot] fun c => c.out = [.tdo bits] ∧ c.boot = { s.chip.boot with extest := false } :=
  completes_of_chip run (.emit (by decide) (.onBoot (by decide) (.refl _ _))) ⟨rfl, rfl⟩

theorem completes_scanLoaded {ir : JtagIr} {shift : List Bool} {extest : Bool} {s : State}
    (run : Sys2Proof.Machine.exec (.boundaryScan ir shift) s = .next { s with chip := s.chip.begin.scanLoaded shift extest }) :
    Completes (.boundaryScan ir shift) s [.boot, .fresh] fun c =>
      (∃ cells, cells.length = shift.length ∧ c.out = [.tdo cells]) ∧
        c.boot = { s.chip.boot with boundary := shift, extest := extest } := by
  refine completes_of_chip run ?_ ⟨⟨s.chip.captured shift.length, by simp [Chip.captured], rfl⟩, rfl⟩
  intro p hp
  cases p <;> first | rfl | exact ⟨rfl, rfl, rfl⟩ | exact absurd (by decide) hp

/-- Settles O39: the resets by what `Chip.afterReset` keeps, the other commands by their effect. -/
theorem resetsAndScan : Obligations.ResetsAndScan := by
  unfold Obligations.ResetsAndScan
  intro s
  refine ⟨fun i h => exec_of_holding_reset h, fun held => ?release, fun free => ?released, fun stays => ?low, fun test high power =>
    ?leaves, fun t live stage late => exec_startupWatchdog_late live stage late, fun temp live => ⟨fun above below hot => ?warm,
    fun above hot => ?hot, fun below hot => ?cool⟩, fun bits => ⟨?bypass, ?idcode, ?sample, fun test => ?extest, fun test => ?noTest⟩⟩
  case release =>
    have run : Sys2Proof.Machine.exec .resetRelease s = .next (({ s with chip :=
        ((s.chip.onBoot fun b => { b with resetN := true }).begin.onBoot fun b => { b with powerHeld := false }) } : State).resetPart
          s.chip.boot.testEn) :=
      (exec_resetRelease s).trans (congrArg _ (if_pos held))
    exact ⟨_, _, run, s.resetPart_eq _ _ rfl, .of_kept rfl rfl rfl rfl rfl rfl, rfl, rfl, rfl⟩
  case released =>
    have run : Sys2Proof.Machine.exec .resetRelease s =
        .next { s with chip := (s.chip.onBoot fun b => { b with resetN := true }).begin } :=
      (exec_resetRelease s).trans (congrArg _ (if_neg (by simp [free])))
    exact ⟨_, run, rfl, rfl, .begin (by decide) (.onBoot (by decide) (.refl _ _)), rfl⟩
  case low =>
    have stays' : ¬ (s.chip.boot.testEn && s.chip.boot.resetN && !s.chip.boot.powerHeld) = true := by
      rcases stays with h | h <;> simp [h]
    have run : Sys2Proof.Machine.exec (.testEnReset false) s =
        .next { s with chip := (s.chip.onBoot fun b => { b with testEn := false, extest := b.extest && false }).begin } :=
      (exec_testEnReset false s).trans (congrArg _ (if_neg stays'))
    refine ⟨_, run, rfl, rfl, .begin (by decide) (.onBoot (by decide) (.refl _ _)), ?_⟩
    simp [Chip.onBoot]
  case leaves =>
    have due : (s.chip.boot.testEn && s.chip.boot.resetN && !s.chip.boot.powerHeld) = true := by simp [test, high, power]
    have run : Sys2Proof.Machine.exec (.testEnReset false) s = .next (({ s with chip :=
        (s.chip.onBoot fun b => { b with testEn := false, extest := b.extest && false }) } : State).resetPart false) :=
      (exec_testEnReset false s).trans (congrArg _ (if_pos due))
    exact ⟨_, _, run, s.resetPart_eq _ _ rfl, .of_kept rfl rfl rfl rfl rfl rfl, high, rfl, Bool.and_false _⟩
  case warm => exact completes_heated live (Chip.atTemp_warm above below hot)
  case hot => exact completes_heated live (Chip.atTemp_hot above hot)
  case cool => exact completes_heated live (Chip.atTemp_cool below hot)
  case bypass => exact completes_scanned (exec_boundaryScan .bypass bits s)
  case idcode => exact completes_scanned (exec_boundaryScan .idcode bits s)
  case sample => exact completes_scanLoaded (exec_boundaryScan .sample bits s)
  case extest => exact completes_scanLoaded ((exec_boundaryScan .extest bits s).trans (by simp [test]))
  case noTest => exact completes_scanned ((exec_boundaryScan .extest bits s).trans (by simp [test]))

end Sys2Proof.Machine

namespace Sys2Proof.Machine

/-! Enumeration (19 R486 to R488) -/

theorem exec_headPeg (t : Nat) (s : State) : Sys2Proof.Machine.exec (.headPeg t) s = act (fun c =>
    let c := c.advance t
    if c.boot.peg = 0 ∧ 5 * msClk ≤ c.clk then c.onBoot fun b => { b with peg := 1, tokenIn := true } else c) s := by rfl

/-- A token on PEG_IN that is valid: its second byte is the complement of the first. -/
def Chip.token (P : Nat) (c : Chip) : Chip :=
  let c := c.onBoot fun b => { b with tokenIn := true }
  let bad := decide (P = 0) || decide (63 ≤ P)
  let c := if bad then c.early 0x0011 .fault else c
  if c.boot.peg = 0 then if bad then c else c.onBoot fun b => { b with peg := BitVec.ofNat 6 P }
  else if c.boot.peg.toNat ≠ P ∧ !c.boot.differs then (c.onBoot fun b => { b with differs := true }).early 0x0013 .note
  else c

theorem exec_pegTokenRx (first second : Byte) (t : Nat) (s : State) :
    Sys2Proof.Machine.exec (.pegTokenRx first second t) s =
      act (fun c => if second ≠ first ^^^ 0xFF then c.advance t else (c.advance t).token first.toNat) s := by rfl

section
variable {c : Chip} {code P : Nat} {cls : Cls}

/-- Before the CMD core runs a code waits for it. -/
theorem Chip.early_waits (stage : c.boot.stage ∈ [Stage.rom, .load, .halt]) :
    c.early code cls = c.onBoot fun b => { b with notes := b.notes ++ [(code, cls)] } := by
  unfold Chip.early
  split
  · rfl
  · rfl
  · rfl
  · next notRom notLoad notHalt =>
      simp only [List.mem_cons, List.not_mem_nil, or_false] at stage
      rcases stage with h | h | h
      · exact (notRom h).elim
      · exact (notLoad h).elim
      · exact (notHalt h).elim

theorem Chip.early_raises (stage : c.boot.stage ∉ [Stage.rom, .load, .halt]) : c.early code cls = c.raise code cls := by
  unfold Chip.early
  split
  · next h => exact absurd stage (by simp [h])
  · next h => exact absurd stage (by simp [h])
  · next h => exact absurd stage (by simp [h])
  · rfl

/-- A code of enumeration leaves the peg and what was known of it. -/
theorem Chip.early_boot : ∃ notes, (c.early code cls).boot = { c.boot with notes := notes } := by
  unfold Chip.early
  split <;> exact ⟨_, rfl⟩

theorem Chip.token_takes (good : 1 ≤ P ∧ P ≤ 62) (peg : c.boot.peg = 0) :
    c.token P = c.onBoot fun b => { b with peg := BitVec.ofNat 6 P, tokenIn := true } := by
  have notBad : ¬ (decide (P = 0) || decide (63 ≤ P)) = true := by simp; omega
  unfold Chip.token
  dsimp only
  rw [if_neg notBad, if_neg notBad]
  exact if_pos peg

/-- A token that names no peg, where the part has none or knows already that the pegs differ. -/
theorem Chip.token_bad (bad : P = 0 ∨ 63 ≤ P) (known : c.boot.peg = 0 ∨ c.boot.differs = true) :
    c.token P = (c.onBoot fun b => { b with tokenIn := true }).early 0x0011 .fault := by
  have isBad : (decide (P = 0) || decide (63 ≤ P)) = true := by simpa using bad
  obtain ⟨notes, boot⟩ := Chip.early_boot (c := c.onBoot fun b => { b with tokenIn := true }) (code := 0x0011) (cls := .fault)
  unfold Chip.token
  dsimp only
  rw [if_pos isBad, if_pos isBad, boot]
  rcases known with peg | differs
  · exact if_pos peg
  · split
    · rfl
    · exact if_neg fun h => by simp [Chip.onBoot, differs] at h

/-- A token that names another peg than the part's, for the first time. -/
theorem Chip.token_differs (good : 1 ≤ P ∧ P ≤ 62) (peg : c.boot.peg ≠ 0) (other : c.boot.peg.toNat ≠ P)
    (differs : c.boot.differs = false) :
    c.token P = (c.onBoot fun b => { b with tokenIn := true, differs := true }).early 0x0013 .note := by
  have notBad : ¬ (decide (P = 0) || decide (63 ≤ P)) = true := by simp; omega
  unfold Chip.token
  dsimp only
  rw [if_neg notBad]
  exact (if_neg peg).trans (if_pos ⟨other, by simp [Chip.onBoot, differs]⟩)

/-- A token that names no peg, where the part has one: both codes. -/
theorem Chip.token_both (bad : P = 0 ∨ 63 ≤ P) (peg : c.boot.peg ≠ 0) (other : c.boot.peg.toNat ≠ P) (differs : c.boot.differs = false)
    (stage : c.boot.stage ∉ [Stage.rom, .load, .halt]) :
    c.token P = ((c.onBoot fun b => { b with tokenIn := true, differs := true }).raise 0x0011 .fault).raise 0x0013 .note := by
  have isBad : (decide (P = 0) || decide (63 ≤ P)) = true := by simpa using bad
  unfold Chip.token
  dsimp only
  rw [if_pos isBad, Chip.early_raises (c := c.onBoot fun b => { b with tokenIn := true }) stage]
  exact (if_neg peg).trans ((if_pos ⟨other, by simp [Chip.onBoot, Chip.raise, differs]⟩).trans (Chip.early_raises stage))

theorem Chip.token_same (peg : c.boot.peg ≠ 0) (same : c.boot.peg.toNat = P) (good : P ≤ 62) :
    c.token P = c.onBoot fun b => { b with tokenIn := true } := by
  have nonzero : P ≠ 0 := fun h => peg (BitVec.eq_of_toNat_eq (same.trans h))
  have notBad : ¬ (decide (P = 0) || decide (63 ≤ P)) = true := by simp; omega
  unfold Chip.token
  dsimp only
  rw [if_neg notBad]
  exact (if_neg peg).trans (if_neg fun h => h.1 same)

end

/-- How a clause of PEG_TOKEN_RX is reached, for a valid token. -/
theorem completesAt_token {s : State} {a : Byte} {t : Nat} {named : List Piece} {P : Chip → Prop} {c : Chip} (live : s.live)
    (effect : (s.chip.begin.advance t).token a.toNat = c) (frame : (s.chip.begin.advance t).keeps ([.out, .irq] ++ named) c)
    (holds : P c.settle) (timeless : Piece.clk ∉ named ∧ Piece.ptp ∉ named := by decide) :
    CompletesAt (.pegTokenRx a (a ^^^ 0xFF) t) s t named P :=
  completesAt_of_effect _ (exec_pegTokenRx a _ t s) live ((if_neg fun h => h rfl).trans effect) frame holds timeless

theorem exec_pegTokenSend (t : Nat) (s : State) : Sys2Proof.Machine.exec (.pegTokenSend t) s = act (fun c =>
    let c := c.advance t
    let due := match c.boot.tokenOut with
      | none => true
      | some q => decide (q + 10 * msClk ≤ c.clk)
    if c.boot.peg = 0 ∨ c.boot.peg = 62 ∨ !due then c
    else
      let P := BitVec.ofNat 8 (c.boot.peg.toNat + 1)
      (c.onBoot fun b => { b with tokenOut := some c.clk }).emit (.token P (P ^^^ 0xFF))) s := by rfl

/-! The boot ROM (19 R499, R502) -/

/-- The words of a boot record whose slots are 0 or 1 say that record. -/
theorem recordOf_recordWords {r : BootRec} (select : r.select < 2) (prev : r.prev < 2) : recordOf (recordWords r) = some r := by
  have flag : ∀ b : Bool, (w32 (b2n b)).toNat < 2 ∧ decide (w32 (b2n b) = 1) = b := by decide
  have small : ∀ n : Nat, n < 2 → (w32 n).toNat = n := fun n h => Nat.mod_eq_of_lt (by omega)
  unfold recordWords recordOf
  dsimp only [List.cons_append, List.nil_append]
  rw [if_pos ⟨rfl, rfl, by rw [small _ select]; exact select, (flag _).1, (flag _).1, by rw [small _ prev]; exact prev⟩,
    small _ select, small _ prev, (flag _).2, (flag _).2]

/-- A copy that is valid names slots 0 or 1. -/
theorem recordOf_slots {ws : List Word} {r : BootRec} (h : recordOf ws = some r) : r.select < 2 ∧ r.prev < 2 := by
  unfold recordOf at h
  split at h
  · split at h
    · next valid =>
        obtain ⟨-, -, select, -, -, prev⟩ := valid
        obtain rfl := Option.some.inj h
        exact ⟨select, prev⟩
    · exact absurd h (by simp)
  · exact absurd h (by simp)

/-- The copy in force is one of the two, and valid. -/
theorem Boot.current_copy {b : Boot} {k : Nat} {r : BootRec} (h : b.current = some (k, r)) :
    k < 2 ∧ recordOf (b.records.getD k []) = some r := by
  unfold Boot.current at h
  split at h
  · next r0 q0 first second =>
      dsimp only at h
      split at h
      · obtain ⟨rfl, rfl⟩ := Prod.mk.inj (Option.some.inj h)
        exact ⟨by omega, second⟩
      · obtain ⟨rfl, rfl⟩ := Prod.mk.inj (Option.some.inj h)
        exact ⟨by omega, first⟩
  · next first second =>
      obtain ⟨rfl, rfl⟩ := Prod.mk.inj (Option.some.inj h)
      exact ⟨by omega, first⟩
  · next first second =>
      obtain ⟨rfl, rfl⟩ := Prod.mk.inj (Option.some.inj h)
      exact ⟨by omega, second⟩
  · exact absurd h (by simp)

theorem Boot.current_of_records {a b : Boot} (h : a.records = b.records) : a.current = b.current := by
  unfold Boot.current
  rw [h]

/-- The record that is written into the other copy is the one in force from then on. -/
theorem Boot.record_set {b : Boot} {k : Nat} {r q : BootRec} (h : b.current = some (k, r)) (two : b.records.length = 2)
    (next : q.seq = r.seq + 1) (valid : recordOf (recordWords q) = some q) :
    ({ b with records := b.records.set (1 - k) (recordWords q) } : Boot).record = some q := by
  obtain ⟨small, copy⟩ := Boot.current_copy h
  obtain ⟨u, v, pair⟩ := List.length_eq_two.mp two
  rw [pair] at copy
  unfold Boot.record Boot.current
  dsimp only
  rw [pair]
  obtain rfl | rfl : k = 0 ∨ k = 1 := by omega
  · have first : recordOf u = some r := copy
    simp [valid, first, next]
  · have second : recordOf v = some r := copy
    simp [valid, second, next]

/-- The part once the boot ROM has read the flash. -/
def Chip.flashRead (records : List (List Word)) (images : List (Option ImageHead)) (c : Chip) : Chip :=
  ({ c with clock := { c.clock with coreLock := true, modLock := true, mediaOk := true } } : Chip).onBoot fun b =>
    { b.flashed records with slots := b.slots.mapIdx fun i z => if z.factory then { z with head := images.getD i none } else z }

theorem exec_romBoot (flashOk : Bool) (records : List (List Word)) (images : List (Option ImageHead)) (s : State) :
    Sys2Proof.Machine.exec (.romBoot flashOk records images) s = act (fun c =>
      if c.boot.stage ≠ .rom then c
      else if !flashOk then
        ({ c with clock := { c.clock with coreLock := true, modLock := true, mediaOk := true } } : Chip).romHalt 2
      else
        match (c.flashRead records images).boot.record with
        | none => (((c.flashRead records images).onBoot fun b => { b with notes := b.notes ++ [(0x0018, .fault)] }).bootSlot 0 0
            false).unselected
        | some r =>
          if r.trial && !r.tried then
            ((c.flashRead records images).writeRecord fun q => { q with tried := true }).bootSlot r.select r.select true
          else if r.trial then
            ((c.flashRead records images).writeRecord fun q => { q with select := r.prev, trial := false }).bootSlot r.prev r.select
              false
          else (c.flashRead records images).bootSlot r.select r.select false) s := by rfl

/-- The selected slot starts. -/
def Chip.slotStarted (i : Nat) (trial : Bool) (h : ImageHead) (c : Chip) : Chip :=
  ((c.onSlot i fun z => { z with verified := true, expect := z.bytes.length, head := some h }).enterStage .load).onBoot fun b =>
    { b with slot := i, trial := trial, fallback := false }

section
variable {c : Chip} {i : Nat} {z : ImgSlot} {h : ImageHead} {trial : Bool} {records : List (List Word)}
  {images : List (Option ImageHead)}

/-- The selected slot starts where it holds a valid image that came with the flash. -/
theorem Chip.bootSlot_started (slot : c.boot.slots[i]? = some z) (factory : z.factory = true) (head : z.head = some h)
    (valid : headOutcome c.boot.revoked h = 0) : c.bootSlot i i trial = c.slotStarted i trial h := by
  have found : c.slot i = z := getD_of_get slot _
  have checked : c.checkSlot i = (0, some h) := by
    unfold Chip.checkSlot
    dsimp only
    rw [found, if_pos factory, head]
    dsimp only
    rw [valid]
  have verified : c.verifySlot i = (0, some h, c.onSlot i fun z =>
      { z with verified := true, expect := z.bytes.length, head := some h }) := by
    unfold Chip.verifySlot
    dsimp only
    rw [checked]
    rfl
  unfold Chip.bootSlot
  dsimp only
  rw [verified]
  dsimp only
  rw [if_pos rfl]
  unfold Chip.slotStarted
  simp

theorem Chip.slotStarted_running (slot : c.boot.slots[i]? = some z) : (c.slotStarted i trial h).running = some h := by
  have set : (c.slotStarted i trial h).boot.slots[i]? = some { z with verified := true, expect := z.bytes.length, head := some h } := by
    show (lmod c.boot.slots i _)[i]? = _
    rw [lmod_of_get slot]
    exact set_get slot _
  unfold Chip.running Chip.slot
  exact congrArg ImgSlot.head (getD_of_get set _)

/-- The flash brings the heads of the images that came with it. -/
theorem Chip.flashRead_slot {k : Option ImageHead} (slot : c.boot.slots[i]? = some z) (factory : z.factory = true)
    (image : images[i]? = some k) : (c.flashRead records images).boot.slots[i]? = some { z with head := k } := by
  show (c.boot.slots.mapIdx _)[i]? = _
  rw [List.getElem?_mapIdx, slot]
  simp [factory, image]

theorem Chip.flashRead_current : (c.flashRead records images).boot.current = (c.boot.flashed records).current :=
  Boot.current_of_records rfl

theorem Chip.keeps.flashRead {L : List Piece} {a : Chip} (clock : Piece.clock ∈ L) (boot : Piece.boot ∈ L) (k : a.keeps L c) :
    a.keeps L (c.flashRead records images) :=
  .onBoot boot (k.trans fun p hp => by cases p <;> first | rfl | exact absurd clock hp | exact ⟨rfl, rfl, rfl⟩)

theorem Chip.keeps.slotStarted {L : List Piece} {a : Chip} (boot : Piece.boot ∈ L) (k : a.keeps L c) :
    a.keeps L (c.slotStarted i trial h) := .onBoot boot (.onBoot boot (.onBoot boot k))

theorem Chip.keeps.zeroAreas {L : List Piece} {a : Chip} {l : List (Nat × Nat)} (mem : Piece.mem ∈ L) (k : a.keeps L c) :
    a.keeps L (c.zeroAreas l) := .foldl _ _ k fun _ _ => .onMem mem (.refl _ _)

theorem Chip.keeps.initSram {L : List Piece} {a : Chip} {n : Nat} (mem : Piece.mem ∈ L) (mbx : Piece.mbx ∈ L)
    (cmd : Piece.cmd ∈ L) (k : a.keeps L c) : a.keeps L (c.initSram n) := .onCmd cmd (.onMbx mbx (.zeroAreas mem k))

theorem Chip.keeps.romHalt {L : List Piece} {a : Chip} {cause : Nat} (mem : Piece.mem ∈ L) (mbx : Piece.mbx ∈ L)
    (cmd : Piece.cmd ∈ L) (boot : Piece.boot ∈ L) (k : a.keeps L c) : a.keeps L (c.romHalt cause) :=
  .initSram mem mbx cmd (.onBoot boot (.onBoot boot k))

/-- HALT: the stage and its cause; the rest of the BOOT block stays. -/
theorem Chip.romHalt_boot (cause : Nat) :
    (c.romHalt cause).boot = { c.boot with stage := .halt, stageAt := c.clk, haltCause := cause } :=
  (Chip.keeps.initSram (L := [.mem, .mbx, .cmd]) (by decide) (by decide) (by decide) (.refl _ _)).get_boot (by decide)

theorem Chip.romHalt_clock (cause : Nat) : (c.romHalt cause).clock = c.clock :=
  (Chip.keeps.initSram (L := [.mem, .mbx, .cmd]) (by decide) (by decide) (by decide) (.refl _ _)).get_clock (by decide)

theorem Chip.running_of_boot {d : Chip} (same : d.boot = c.boot) : d.running = c.running := by
  unfold Chip.running Chip.slot
  rw [same]

theorem Chip.flashRead_record {k : Nat} {r : BootRec} (current : (c.boot.flashed records).current = some (k, r)) :
    (c.flashRead records images).boot.record = some r := by
  unfold Boot.record
  rw [Chip.flashRead_current, current]
  rfl

theorem Chip.writeRecord_of_current {k : Nat} {r : BootRec} (f : BootRec → BootRec) (current : c.boot.current = some (k, r)) :
    c.writeRecord f = c.onBoot fun b => { b with records := b.records.set (1 - k) (recordWords { f r with seq := r.seq + 1 }) } := by
  unfold Chip.writeRecord
  rw [current]
  rfl

end

/-- What ROM_BOOT does, by the record in force. -/
theorem romBoot_effect {s : State} {records : List (List Word)} {images : List (Option ImageHead)} {k : Nat} {r : BootRec}
    {named : List Piece} {P : Chip → Prop} {c : Chip} (live : s.live) (stage : s.chip.boot.stage = .rom)
    (current : (s.chip.boot.flashed records).current = some (k, r))
    (effect : (if r.trial && !r.tried then
        ((s.chip.begin.flashRead records images).writeRecord fun q => { q with tried := true }).bootSlot r.select r.select true
      else if r.trial then
        ((s.chip.begin.flashRead records images).writeRecord fun q => { q with select := r.prev, trial := false }).bootSlot r.prev
          r.select false
      else (s.chip.begin.flashRead records images).bootSlot r.select r.select false) = c)
    (frame : s.chip.begin.keeps ([.out, .irq] ++ named) c) (holds : P c.settle) :
    Completes (.romBoot true records images) s named P := by
  refine completes_of_effect _ (exec_romBoot true records images s) live ?_ frame holds
  have record : (s.chip.begin.flashRead records images).boot.record = some r := Chip.flashRead_record current
  dsimp only
  rw [if_neg (fun h => h stage), if_neg (by decide), record]
  exact effect

/-! The background erase (14 R399) -/

theorem exec_backgroundErase (slot : Fin 2) (sectors : Nat) (s : State) :
    Sys2Proof.Machine.exec (.backgroundErase slot sectors) s = act (fun c =>
      c.onSlot slot.val fun z => if z.factory then z else { z with erased := min 128 (z.erased + sectors) }) s := by rfl

theorem names_no_peg {a : Byte} (h : a = 0 ∨ 63 ≤ a.toNat) : a.toNat = 0 ∨ 63 ≤ a.toNat :=
  h.imp_left fun zero => congrArg BitVec.toNat zero

section
variable {s : State} {records : List (List Word)} {images : List (Option ImageHead)} {k : Nat} {r : BootRec} {z : ImgSlot}
  {h : ImageHead} (live : s.live) (stage : s.chip.boot.stage = .rom)
  (current : (s.chip.boot.flashed records).current = some (k, r)) (slot : s.chip.boot.slots[r.select]? = some z)
  (factory : z.factory = true) (image : images[r.select]? = some (some h)) (valid : headOutcome s.chip.boot.revoked h = 0)
include live stage current slot factory image valid

/-- The selected image of a record that is no trial starts. -/
theorem completes_romBoot_selected (trial : r.trial = false) :
    Completes (.romBoot true records images) s [.clock, .boot] fun c =>
      c.boot.stage = .load ∧ c.boot.slot = r.select ∧ c.boot.trial = false ∧ c.boot.fallback = false ∧
        c.boot.records = (s.chip.boot.flashed records).records ∧ c.boot.notes = s.chip.boot.notes ∧ c.running = some h := by
  have flashed := Chip.flashRead_slot (c := s.chip.begin) (records := records) slot factory image
  refine romBoot_effect live stage current ((if_neg (by simp [trial])).trans ((if_neg (by simp [trial])).trans
    (Chip.bootSlot_started flashed factory rfl valid))) (.slotStarted (by decide) (.flashRead (by decide) (by decide) (.refl _ _))) ?_
  refine ⟨?_, ?_, ?_, ?_, ?_, ?_, ?_⟩
  case refine_7 => exact (Chip.running_of_boot (Chip.settle_boot _)).trans (Chip.slotStarted_running flashed)
  all_goals
    rw [Chip.settle_boot]
    rfl

/-- The image of a trial that was not tried yet starts, and the record says that it was tried. -/
theorem completes_romBoot_trial (trial : r.trial = true) (tried : r.tried = false) :
    Completes (.romBoot true records images) s [.clock, .boot] fun c =>
      c.boot.stage = .load ∧ c.boot.slot = r.select ∧ c.boot.trial = true ∧ c.boot.fallback = false ∧
        c.boot.records = (s.chip.boot.flashed records).records.set (1 - k) (recordWords { r with tried := true, seq := r.seq + 1 }) ∧
        (s.chip.boot.records.length = 2 → c.boot.record = some { r with tried := true, seq := r.seq + 1 }) ∧
        c.running = some h := by
  have flashed := Chip.flashRead_slot (c := s.chip.begin) (records := records) slot factory image
  have written := Chip.writeRecord_of_current (c := s.chip.begin.flashRead records images) (fun q => { q with tried := true })
    ((Chip.flashRead_current (images := images)).trans current)
  refine romBoot_effect live stage current ((if_pos (by simp [trial, tried])).trans ((congrArg (Chip.bootSlot _ _ _) written).trans
    (Chip.bootSlot_started flashed factory rfl valid)))
    (.slotStarted (by decide) (.onBoot (by decide) (.flashRead (by decide) (by decide) (.refl _ _)))) ?_
  refine ⟨?_, ?_, ?_, ?_, ?_, fun two => ?_, ?_⟩
  case refine_7 => exact (Chip.running_of_boot (Chip.settle_boot _)).trans (Chip.slotStarted_running flashed)
  case refine_6 =>
    obtain ⟨-, copy⟩ := Boot.current_copy current
    obtain ⟨select, prev⟩ := recordOf_slots copy
    rw [Chip.settle_boot]
    refine Eq.trans ?_ (Boot.record_set (b := s.chip.boot.flashed records) current ?_ (q := { r with tried := true, seq := r.seq + 1 }) rfl
      (recordOf_recordWords select prev))
    · exact congrArg (Option.map Prod.snd) (Boot.current_of_records rfl)
    · exact List.length_mapIdx.trans two
  all_goals
    rw [Chip.settle_boot]
    rfl

end

/-- Settles O40: the tokens by what `Chip.token` does of each, the boot by the record in force and its slot. -/
theorem enumerationAndBoot : Obligations.EnumerationAndBoot := by
  unfold Obligations.EnumerationAndBoot
  intro s t live
  refine ⟨fun peg late => ?head, fun a low high peg => ?taken, fun a bad known => ⟨fun stage => ?badEarly, fun stage => ?bad⟩,
    fun a low high peg other differs stage => ?differs, fun a peg other differs => ⟨fun low high stage => ?differsEarly,
    fun bad stage => ?both⟩, fun a peg same high => ?same, fun a b invalid => ?invalid, fun peg last due => ?send,
    fun records images stage => ⟨?halt, fun k r z h current slot factory image valid => ⟨fun trial => ?boots,
    fun trial tried => ?tries⟩⟩, fun i n z slot staged => ?erase⟩
  case head =>
    have due : (s.chip.begin.advance t).boot.peg = 0 ∧ 5 * msClk ≤ (s.chip.begin.advance t).clk :=
      ⟨(congrArg Boot.peg (Chip.advance_boot t _)).trans peg, (Chip.advance_clk t s.chip.begin) ▸ late⟩
    refine completesAt_of_effect _ (exec_headPeg t s) live (if_pos due) (.onBoot (by decide) (.refl _ _)) ?_
    simp [Chip.onBoot]
  case taken =>
    refine completesAt_token live (Chip.token_takes ⟨low, high⟩ ((congrArg Boot.peg (Chip.advance_boot t _)).trans peg))
      (.onBoot (by decide) (.refl _ _)) ?_
    simp [Chip.onBoot]
  case badEarly =>
    refine completesAt_token live ((Chip.token_bad (names_no_peg bad) ?_).trans (Chip.early_waits ?_))
      (.onBoot (by decide) (.onBoot (by decide) (.refl _ _))) ?_
    · simpa using known
    · simpa [Chip.onBoot] using stage
    · simp [Chip.onBoot]
  case bad =>
    refine completesAt_token live ((Chip.token_bad (names_no_peg bad) ?_).trans (Chip.early_raises ?_))
      (.raise (by decide) (.onBoot (by decide) (.refl _ _))) ⟨?_, Chip.settle_err_of_raise ?_ ?_⟩
    · simpa using known
    · simpa [Chip.onBoot] using stage
    · simp [Chip.onBoot, Chip.raise]
    · simp [Chip.raise, Chip.onBoot]
    · simp [Chip.raise, Chip.onBoot]
  case differs =>
    refine completesAt_token live ((Chip.token_differs ⟨low, high⟩ ?_ ?_ ?_).trans (Chip.early_raises ?_))
      (.raise (by decide) (.onBoot (by decide) (.refl _ _))) ⟨?_, Chip.settle_err_of_raise ?_ ?_⟩
    · simpa using peg
    · simpa using other
    · simpa using differs
    · simpa [Chip.onBoot] using stage
    · simp [Chip.onBoot, Chip.raise]
    · simp [Chip.raise, Chip.onBoot]
    · simp [Chip.raise, Chip.onBoot]
  case differsEarly =>
    refine completesAt_token live ((Chip.token_differs ⟨low, high⟩ ?_ ?_ ?_).trans (Chip.early_waits ?_))
      (.onBoot (by decide) (.onBoot (by decide) (.refl _ _))) ?_
    · simpa using peg
    · simpa using other
    · simpa using differs
    · simpa [Chip.onBoot] using stage
    · simp [Chip.onBoot]
  case both =>
    refine completesAt_token live (Chip.token_both (names_no_peg bad) ?_ ?_ ?_ ?_)
      (.raise (by decide) (.raise (by decide) (.onBoot (by decide) (.refl _ _)))) ?_
    · simpa using peg
    · simpa using other
    · simpa using differs
    · simpa using stage
    · simp [Chip.onBoot, Chip.raise]
  case same =>
    refine completesAt_token live (Chip.token_same ?_ ?_ high) (.onBoot (by decide) (.refl _ _)) ?_
    · simpa using peg
    · simpa using same
    · simp [Chip.onBoot]
  case invalid => exact completesAt_of_effect _ (exec_pegTokenRx a b t s) live (if_pos invalid) (.refl _ _) trivial
  case send =>
    have stays : ¬ ((s.chip.begin.advance t).boot.peg = 0 ∨ (s.chip.begin.advance t).boot.peg = 62 ∨
        (!match (s.chip.begin.advance t).boot.tokenOut with
          | none => true
          | some q => decide (q + 10 * msClk ≤ (s.chip.begin.advance t).clk)) = true) := by
      rw [Chip.advance_boot, Chip.advance_clk]
      rintro (h | h | h)
      · exact peg h
      · exact last h
      · split at h
        · exact absurd h (by decide)
        · next q sent => simp [due q sent] at h
    refine completesAt_of_effect _ (exec_pegTokenSend t s) live (if_neg stays) (.emit (by decide) (.onBoot (by decide) (.refl _ _)))
      ⟨?_, ?_⟩
    · rw [Chip.settle_boot]
      simp [Chip.onBoot, Chip.emit]
    · rw [Chip.settle_out_of_singleton (congrArg (· ++ [_]) (Chip.advance_out t s.chip.begin)), Chip.advance_boot]
      rfl
  case halt => 
    refine completes_of_effect _ (exec_romBoot false records images s) live ((if_neg fun h => h stage).trans (if_pos rfl))
      (.romHalt (by decide) (by decide) (by decide) (by decide) ?_) ⟨?_, ?_, ?_⟩
    · intro p hp
      cases p <;> first | rfl | exact absurd (by decide) hp
    · rw [Chip.settle_boot, Chip.romHalt_boot]
      rfl
    · rw [Chip.settle_cmd]
      rfl
    · rw [Chip.settle_clock, Chip.romHalt_clock]
  case boots => exact completes_romBoot_selected live stage current slot factory image valid trial
  case tries => exact completes_romBoot_trial live stage current slot factory image valid trial tried
  case erase => 
    refine completes_of_effect _ (exec_backgroundErase i n s) live rfl (.onBoot (by decide) (.refl _ _)) ?_
    rw [Chip.settle_boot]
    have erased := lmod_of_get slot fun z => if z.factory then z else { z with erased := min 128 (z.erased + n) }
    unfold Chip.onSlot Chip.onBoot
    dsimp only
    rw [Chip.begin_boot, erased]
    simp [staged]

end Sys2Proof.Machine

namespace Sys2Proof.Machine

/-! What the functions of the model do to the memory: most leave it, and the others keep its canonical form -/

section
variable {α β : Type} {l : List β}

@[simp] theorem foldl_mem {f : Chip → β → Chip} {c : Chip} (h : ∀ d x, (f d x).mem = d.mem) : (l.foldl f c).mem = c.mem :=
  List.foldlRecOn (motive := fun d => d.mem = c.mem) l f rfl fun d same x _ => (h d x).trans same

@[simp] theorem foldl_snd_mem {f : α × Chip → β → α × Chip} {r : α × Chip} (h : ∀ d x, (f d x).2.mem = d.2.mem) :
    (l.foldl f r).2.mem = r.2.mem :=
  List.foldlRecOn (motive := fun d => d.2.mem = r.2.mem) l f rfl fun d same x _ => (h d x).trans same

@[simp] theorem foldl_wf {f : Chip → β → Chip} {c : Chip} (h : ∀ d x, d.mem.bytes.wf → (f d x).mem.bytes.wf)
    (k : c.mem.bytes.wf) : (l.foldl f c).mem.bytes.wf :=
  List.foldlRecOn (motive := fun d => d.mem.bytes.wf = true) l f k fun d form x _ => h d x form

@[simp] theorem foldl_snd_wf {f : α × Chip → β → α × Chip} {r : α × Chip}
    (h : ∀ d x, d.2.mem.bytes.wf → (f d x).2.mem.bytes.wf) (k : r.2.mem.bytes.wf) : (l.foldl f r).2.mem.bytes.wf :=
  List.foldlRecOn (motive := fun d => d.2.mem.bytes.wf = true) l f k fun d form x _ => h d x form

@[simp] theorem ite_wf {p : Prop} [Decidable p] {a b : Chip} (ha : a.mem.bytes.wf) (hb : b.mem.bytes.wf) :
    (if p then a else b).mem.bytes.wf := by
  split
  · exact ha
  · exact hb

@[simp] theorem ite_snd_wf {p : Prop} [Decidable p] {a b : α × Chip} (ha : a.2.mem.bytes.wf) (hb : b.2.mem.bytes.wf) :
    (if p then a else b).2.mem.bytes.wf := by
  split
  · exact ha
  · exact hb

/-- What leaves the memory leaves its form. -/
theorem wf_of_mem {c d : Chip} (same : d.mem = c.mem) (h : c.mem.bytes.wf) : d.mem.bytes.wf := same ▸ h

end

end Sys2Proof.Machine

namespace Sys2Proof.Machine

/-! Raising errors, latching and settling leave the memory -/

@[simp] theorem Chip.raiseFirst_mem (code : Nat) (cls : Cls) (key detail : Nat) (c : Chip) :
    (c.raiseFirst code cls key detail).mem = c.mem := by
  unfold Chip.raiseFirst
  split_ifs <;> simp

@[simp] theorem Chip.fatal_mem (r : Rec) (c : Chip) : (c.fatal r).mem = c.mem := rfl

@[simp] theorem Chip.lose_mem (r : Rec) (c : Chip) : (c.lose r).mem = c.mem := rfl

@[simp] theorem Chip.noteLoss_mem (r : Rec) (c : Chip) : (c.noteLoss r).mem = c.mem := by
  unfold Chip.noteLoss
  dsimp only
  split_ifs <;> simp

@[simp] theorem Chip.enter1_mem (r0 : Rec) (c : Chip) : (c.enter1 r0).mem = c.mem := by
  unfold Chip.enter1
  dsimp only
  split_ifs <;> simp

@[simp] theorem Chip.enterAll_mem (c : Chip) : c.enterAll.mem = c.mem := by simp [Chip.enterAll]

@[simp] theorem Chip.pulse_mem (v : Fin 32) (c : Chip) : (c.pulse v).mem = c.mem := rfl

@[simp] theorem Chip.deliver_mem (c : Chip) (v : Nat) : (c.deliver v).mem = c.mem := by
  unfold Chip.deliver
  dsimp only
  split_ifs <;> simp

@[simp] theorem Chip.settleIrq_mem (c : Chip) : c.settleIrq.mem = c.mem := by simp [Chip.settleIrq]

end Sys2Proof.Machine

namespace Sys2Proof.Machine

/-! Errors of the memory, stores and loads -/

@[simp] theorem Chip.memEvent_wf {kind master a : Nat} {code : Option Nat} {c : Chip} (h : c.mem.bytes.wf) :
    (c.memEvent kind master a code).mem.bytes.wf := by
  unfold Chip.memEvent
  dsimp only
  split_ifs <;> simp [h]

@[simp] theorem Chip.darn_wf {master w : Nat} {c : Chip} (h : c.mem.bytes.wf) : (c.darn master w).mem.bytes.wf := by
  unfold Chip.darn
  dsimp only
  have written := Memory.wf_upset (Memory.wf_puts h w (c.mem.bytes.bytes w (eccSize (targetIndex w)))) (mdel c.mem.bytes.upset w)
  split_ifs <;> simp [written]

@[simp] theorem Chip.ueRead_wf {master a code : Nat} {cls : Cls} {key : Nat} {c : Chip} (h : c.mem.bytes.wf) :
    (c.ueRead master a code cls key).mem.bytes.wf := by simp [Chip.ueRead, h]

@[simp] theorem Chip.correct_wf {master : Nat} {ws : List Nat} {c : Chip} (h : c.mem.bytes.wf) :
    (c.correct master ws).mem.bytes.wf := by
  refine foldl_wf (fun d w form => ?_) h
  split_ifs <;> simp [form]

@[simp] theorem Chip.strike_wf {us : List Upset} {c : Chip} (h : c.mem.bytes.wf) : (c.strike us).mem.bytes.wf := by
  refine foldl_wf (fun d u form => ?_) h
  split
  · exact Memory.wf_upset form _
  · exact form

@[simp] theorem Chip.store_wf {a : Nat} {bs : List Byte} {c : Chip} (h : c.mem.bytes.wf) : (c.store a bs).mem.bytes.wf :=
  Memory.wf_puts h a bs

@[simp] theorem Chip.hostStorePart_wf {master a : Nat} {bs : List (Option Byte)} {c : Chip} (h : c.mem.bytes.wf) :
    (c.hostStorePart master a bs).2.mem.bytes.wf := by
  refine foldl_snd_wf (fun d w form => ?_) h
  dsimp only
  split_ifs
  · simp [form]
  · exact form
  · split <;> simp [form]

@[simp] theorem Chip.hostStore_wf {master a : Nat} {bs : List Byte} {c : Chip} (h : c.mem.bytes.wf) :
    (c.hostStore master a bs).2.mem.bytes.wf := by simp [Chip.hostStore, h]

@[simp] theorem Chip.readSample_wf {engine s : Nat} {c : Chip} (h : c.mem.bytes.wf) :
    (c.readSample engine s).2.mem.bytes.wf := by
  unfold Chip.readSample
  dsimp only
  repeat' split
  all_goals simp [h]

@[simp] theorem Chip.storeEngine_wf {a : Nat} {x : Smp} {c : Chip} (h : c.mem.bytes.wf) : (c.storeEngine a x).mem.bytes.wf :=
  Chip.store_wf h

@[simp] theorem Chip.writePair_wf {s : Nat} {x y : Smp} {c : Chip} (h : c.mem.bytes.wf) : (c.writePair s x y).mem.bytes.wf :=
  by simp [Chip.writePair, h]

@[simp] theorem Chip.haltDma_wf {ch a : Nat} {c : Chip} (h : c.mem.bytes.wf) : (c.haltDma ch a).mem.bytes.wf :=
  by simp [Chip.haltDma, h]

@[simp] theorem Chip.dmaRead_wf {ch a n : Nat} {c : Chip} (h : c.mem.bytes.wf) : (c.dmaRead ch a n).2.mem.bytes.wf := by
  unfold Chip.dmaRead
  dsimp only
  repeat' split
  all_goals simp [h]

@[simp] theorem Chip.errorResponse_wf {master : Byte} {addr : Nat} {c : Chip} (h : c.mem.bytes.wf) :
    (c.errorResponse master addr).mem.bytes.wf := by
  unfold Chip.errorResponse
  split_ifs <;> simp [h]

@[simp] theorem Chip.coreTrap_wf {core : Byte} {a : Nat} {c : Chip} (h : c.mem.bytes.wf) : (c.coreTrap core a).mem.bytes.wf :=
  by simp [Chip.coreTrap, h]

@[simp] theorem Chip.coreRead_wf {core : Byte} {a n : Nat} {c : Chip} (h : c.mem.bytes.wf) :
    (c.coreRead core a n).2.mem.bytes.wf := by
  unfold Chip.coreRead
  dsimp only
  repeat' split
  all_goals simp [h]

@[simp] theorem Chip.coreReads_wf {core : Byte} {rs : List (Nat × Nat)} {c : Chip} (h : c.mem.bytes.wf) :
    (c.coreReads core rs).2.mem.bytes.wf := by
  refine foldl_snd_wf (fun d q form => ?_) h
  split_ifs <;> simp [form]

@[simp] theorem Chip.innerStore_wf {master : Byte} {a : Nat} {bs : List Byte} {c : Chip} (h : c.mem.bytes.wf) :
    (c.innerStore master a bs).2.mem.bytes.wf := by
  refine foldl_snd_wf (fun d w form => ?_) h
  dsimp only
  have corrected : (d.2.correct master.toNat [w]).mem.bytes.wf := Chip.correct_wf form
  have poisoned := Chip.store_wf (a := w) (bs := poisonMerge w (eccSize (targetIndex w)) a bs) corrected
  split_ifs
  · exact Chip.store_wf form
  · split
    · exact Chip.memEvent_wf poisoned
    · exact Chip.store_wf corrected
  · split
    · exact Chip.errorResponse_wf (by rw [Chip.raiseFirst_mem]; exact Chip.memEvent_wf poisoned)
    · exact Chip.store_wf corrected

@[simp] theorem Chip.putWords_wf {a : Nat} {ws : List Word} {c : Chip} (h : c.mem.bytes.wf) : (c.putWords a ws).mem.bytes.wf :=
  by simp [Chip.putWords, h]

end Sys2Proof.Machine

namespace Sys2Proof.Machine

/-! The rings of delays, the chains of the graph and its sinks -/

@[simp] theorem Chip.countClears_mem (n : Nat) (c : Chip) : (c.countClears n).mem = c.mem := by
  unfold Chip.countClears
  split_ifs <;> simp

@[simp] theorem Chip.countDefers_mem (n : Nat) (c : Chip) : (c.countDefers n).mem = c.mem := foldl_mem fun _ _ => rfl

@[simp] theorem Chip.ringWrite_wf {pages : List Nat} {n : Nat} {xs : List Smp} {c : Chip} (h : c.mem.bytes.wf) :
    (c.ringWrite pages n xs).mem.bytes.wf := by
  fun_induction Chip.ringWrite pages n xs c with
  | case1 n x y r c ih => exact ih (Chip.writePair_wf h)
  | case2 n xs c => exact h

@[simp] theorem Chip.ringRead_wf {engine : Nat} {pages : List Nat} {n d : Nat} {c : Chip} (h : c.mem.bytes.wf) :
    (c.ringRead engine pages n d).2.mem.bytes.wf := by simp [Chip.ringRead, h]

@[simp] theorem Chip.delayBlock_wf {engine : Nat} {pages : List Nat} {sel : Sel} {n0 b : Nat} {c : Chip} (h : c.mem.bytes.wf) :
    (c.delayBlock engine pages sel n0 b).2.mem.bytes.wf :=
  foldl_snd_wf (fun _ _ form => foldl_snd_wf (fun _ _ read => Chip.ringRead_wf read) form) h

@[simp] theorem Chip.chainBlock_wf {cfg : Gen} {n k : Nat} {c : Chip} (h : c.mem.bytes.wf) :
    (c.chainBlock cfg n k).2.mem.bytes.wf := by
  unfold Chip.chainBlock
  dsimp only
  split_ifs <;> simp [h]

@[simp] theorem Chip.pass2_wf {cfg : Gen} {n : Nat} {c : Chip} (h : c.mem.bytes.wf) : (c.pass2 cfg n).2.mem.bytes.wf :=
  foldl_snd_wf (fun _ _ form => Chip.chainBlock_wf form) h

@[simp] theorem Chip.chainOut_mem (cfg : Gen) (k : Nat) (xs ahead : List Smp) (c : Chip) :
    (c.chainOut cfg k xs ahead).2.mem = c.mem := by simp [Chip.chainOut]

theorem Chip.poisonState_mem {kind el i : Nat} {c d : Chip} (h : c.poisonState kind el i = some d) : d.mem = c.mem := by
  have kept : ∀ (b : Bool) (f : Graph → Graph), (if b then some (c.onGraph f) else none) = some d → d.mem = c.mem := by
    intro b f kept
    split at kept
    · rw [← Option.some.inj kept]
      rfl
    · exact absurd kept (by simp)
  unfold Chip.poisonState at h
  split at h
  all_goals first | exact kept _ _ h | exact absurd h (by simp)

@[simp] theorem Chip.readState_wf {c : Chip} (h : c.mem.bytes.wf) : c.readState.mem.bytes.wf := by
  refine foldl_wf (fun d q form => ?_) h
  split
  · exact form
  · next hit found =>
      obtain ⟨k, -, word⟩ := Option.bind_eq_some_iff.mp found
      have same := Chip.poisonState_mem word
      split
      · exact Chip.storeEngine_wf (Chip.ueRead_wf (same ▸ form))
      · exact Chip.darn_wf form

@[simp] theorem Chip.sinkBoundary_mem (items : Items) (e o : Nat) (c : Chip) : (c.sinkBoundary items e o).mem = c.mem := by
  unfold Chip.sinkBoundary
  dsimp only
  split_ifs <;> simp

@[simp] theorem Chip.exitCheck_mem (items : Items) (e o : Nat) (xs : List Smp) (c : Chip) :
    (c.exitCheck items e o xs).2.2.mem = c.mem := by
  refine List.foldlRecOn (motive := fun a : List Smp × Bool × SinkSt × Chip => a.2.2.2.mem = c.mem) xs _
    (Chip.sinkBoundary_mem _ _ _ _) fun a same x _ => ?_
  dsimp only
  split_ifs <;> exact same

@[simp] theorem Chip.releaseSinks_mem (code : Nat) (blk : Option Nat) (c : Chip) : (c.releaseSinks code blk).mem = c.mem := rfl

end Sys2Proof.Machine

namespace Sys2Proof.Machine

/-! The serial audio ports -/

@[simp] theorem Chip.sapIdle_mem (p : Nat) (fmt : SapFmt) (c : Chip) : (c.sapIdle p fmt).mem = c.mem := rfl

@[simp] theorem Chip.sapShow_mem {f : Chip → Chip} {c : Chip} (h : (f c).mem = c.mem) : (c.sapShow f).mem = c.mem := by
  refine (foldl_mem fun d q => ?_).trans h
  split_ifs
  · exact Chip.sapIdle_mem _ _ d
  · rfl

@[simp] theorem Chip.sapLand_mem (old new : Items) (L : Nat) (c : Chip) : (c.sapLand old new L).mem = c.mem :=
  Chip.sapShow_mem rfl

@[simp] theorem Chip.sapAlign_mem (n : Nat) (c : Chip) : (c.sapAlign n).mem = c.mem := rfl

@[simp] theorem Chip.sapTimeouts_mem (p k : Nat) (c : Chip) : (c.sapTimeouts p k).mem = c.mem := by
  unfold Chip.sapTimeouts
  split_ifs <;> simp

@[simp] theorem Chip.sapFrame_mem (p : Nat) (din : List Bool) (c : Chip) : (c.sapFrame p din).mem = c.mem := by
  unfold Chip.sapFrame
  extract_lets x put
  have kept : ∀ (y : SapPort) (d : Chip), (put y d).mem = d.mem := fun _ _ => rfl
  split_ifs
  · rfl
  · exact Chip.sapShow_mem (kept _ _)
  · show (if _ then Chip.raiseFirst _ _ _ _ (Chip.sapTimeouts _ _ (put _ c)) else Chip.sapTimeouts _ _ (put _ c)).mem = c.mem
    split_ifs <;> simp [kept]

@[simp] theorem Chip.sapClockError_mem (c : Chip) : c.sapClockError.mem = c.mem := by
  unfold Chip.sapClockError
  dsimp only
  split_ifs <;> simp -implicitDefEqProofs

@[simp] theorem Chip.sapQualified_mem (c : Chip) : c.sapQualified.mem = c.mem := by
  unfold Chip.sapQualified
  dsimp only
  split_ifs <;> simp -implicitDefEqProofs

@[simp] theorem Chip.sapColdStop_mem (c : Chip) : c.sapColdStop.mem = c.mem := by
  simp -implicitDefEqProofs [Chip.sapColdStop]

@[simp] theorem Chip.sapColdStart_mem (A : Nat) (c : Chip) : (c.sapColdStart A).mem = c.mem := by
  unfold Chip.sapColdStart
  dsimp only
  split_ifs <;> simp -implicitDefEqProofs

end Sys2Proof.Machine

namespace Sys2Proof.Machine

/-! The input rows, contacts and presence -/

@[simp] theorem Chip.onAinIn_mem (n : Nat) (f : AinIn → AinIn) (c : Chip) : (c.onAinIn n f).mem = c.mem := rfl

@[simp] theorem Chip.onContact_mem (k : Nat) (f : Contact → Contact) (c : Chip) : (c.onContact k f).mem = c.mem := rfl

@[simp] theorem Chip.ainEvent_mem (bit : Nat) (c : Chip) : (c.ainEvent bit).mem = c.mem := rfl

@[simp] theorem Chip.ainReport_mem (n : Nat) (before : AinIn) (c : Chip) : (c.ainReport n before).mem = c.mem := by
  unfold Chip.ainReport
  dsimp only
  split_ifs <;> simp

@[simp] theorem Chip.psuAlert_mem (release : Bool) (c : Chip) : (c.psuAlert release).mem = c.mem := rfl

@[simp] theorem Chip.powerEvent_mem (c : Chip) : c.powerEvent.mem = c.mem := rfl

@[simp] theorem Chip.contactReport_mem (k : Nat) (c : Chip) : (c.contactReport k).mem = c.mem := by
  unfold Chip.contactReport
  dsimp only
  split_ifs <;> simp

@[simp] theorem Chip.ainScan_mem (x : ScanIn) (c : Chip) : (c.ainScan x).mem = c.mem := rfl

@[simp] theorem Chip.ainLand_mem (old new : Items) (c : Chip) : (c.ainLand old new).mem = c.mem := rfl

@[simp] theorem Chip.mainsFails_mem (c : Chip) : c.mainsFails.mem = c.mem := by
  unfold Chip.mainsFails
  split_ifs <;> simp

end Sys2Proof.Machine

namespace Sys2Proof.Machine

/-! The slots of the job table -/

@[simp] theorem Chip.onJob_mem (k : Nat) (f : Job → Job) (c : Chip) : (c.onJob k f).mem = c.mem := rfl

@[simp] theorem Chip.takeJob_mem (k opcode : Nat) (tag : Word) (param : List Nat) (total : Nat) (c : Chip) :
    (c.takeJob k opcode tag param total).mem = c.mem := rfl

@[simp] theorem Chip.runJob_mem (k : Nat) (c : Chip) : (c.runJob k).mem = c.mem := rfl

@[simp] theorem Chip.partJob_mem (k : Nat) (ws : List Word) (progress : Nat) (c : Chip) : (c.partJob k ws progress).mem = c.mem :=
  rfl

@[simp] theorem Chip.endJob_mem (k : Nat) (st : JobSt) (fail : Nat) (ws : List Word) (c : Chip) :
    (c.endJob k st fail ws).mem = c.mem := by
  unfold Chip.endJob
  split_ifs <;> simp

end Sys2Proof.Machine

namespace Sys2Proof.Machine

/-! The power channels, the rails and the mains -/

@[simp] theorem Chip.onMod_mem (m : Nat) (f : ModCh → ModCh) (c : Chip) : (c.onMod m f).mem = c.mem := rfl

@[simp] theorem Chip.onMods_mem (f : Nat → ModCh → ModCh) (c : Chip) : (c.onMods f).mem = c.mem := rfl

@[simp] theorem Chip.modTripped_mem (m : Nat) (attempt : Bool) (c : Chip) : (c.modTripped m attempt).mem = c.mem := by
  unfold Chip.modTripped
  dsimp only
  split_ifs <;> simp

@[simp] theorem Chip.railHold_mem (k : Nat) (c : Chip) : (c.railHold k).mem = c.mem := rfl

@[simp] theorem Chip.modTrip_mem (m : Nat) (driver : Bool) (c : Chip) : (c.modTrip m driver).mem = c.mem := by
  unfold Chip.modTrip
  dsimp only
  split_ifs <;> simp

@[simp] theorem Chip.modLand_mem (ids : List Nat) (new : Items) (m : Nat) (c : Chip) : (c.modLand ids new m).mem = c.mem := by
  unfold Chip.modLand
  split_ifs <;> simp

@[simp] theorem Chip.modStates_mem (c : Chip) : c.modStates.mem = c.mem := by
  have resumed : ∀ d : Chip, ((List.range 64).foldl (fun c m =>
      if (c.modCh m).st = .play && (c.modCh m).fromRetry then
        (c.onMod m fun x => { x with fromRetry := false }).raise 0x0E03 .note m
      else c) d).mem = d.mem := fun d => foldl_mem fun a m => by
    split_ifs <;> rfl
  unfold Chip.modStates
  extract_lets resume back held d e g
  have kept : g.mem = c.mem := (Chip.onPow_mem _ e).trans ((resumed d).trans (Chip.onMods_mem _ c))
  split_ifs
  · exact (Chip.raise_mem _ _ _ _ g).trans kept
  · exact kept

@[simp] theorem Chip.modSafe_mem (c : Chip) : c.modSafe.mem = c.mem := rfl

@[simp] theorem Chip.modSafeEnd_mem (c : Chip) : c.modSafeEnd.mem = c.mem := rfl

@[simp] theorem Chip.modClips_mem (m hits : Nat) (c : Chip) : (c.modClips m hits).mem = c.mem := by
  unfold Chip.modClips
  split_ifs <;> simp

@[simp] theorem Chip.modPlay_mem (n m : Nat) (c : Chip) : (c.modPlay n m).mem = c.mem := by
  unfold Chip.modPlay
  dsimp only
  split_ifs <;> simp

@[simp] theorem Chip.modReplay_mem (m before : Nat) (c : Chip) : (c.modReplay m before).mem = c.mem := by
  unfold Chip.modReplay
  split_ifs <;> simp

@[simp] theorem Chip.modSense_mem (n cap m : Nat) (v i : List Smp) (present : Bool) (c : Chip) :
    (c.modSense n cap m v i present).mem = c.mem := rfl

@[simp] theorem Chip.railSet_mem (k t : Nat) (c : Chip) : (c.railSet k t).mem = c.mem := rfl

@[simp] theorem Chip.railsTick_mem (t : Nat) (c : Chip) : (c.railsTick t).mem = c.mem := by
  unfold Chip.railsTick
  split <;> simp -implicitDefEqProofs

@[simp] theorem Chip.modClockError_mem (c : Chip) : c.modClockError.mem = c.mem := by
  unfold Chip.modClockError
  dsimp only
  split_ifs <;> simp

@[simp] theorem Chip.clockEnds_mem (c : Chip) : c.clockEnds.mem = c.mem := by
  unfold Chip.clockEnds
  split_ifs <;> simp

@[simp] theorem Chip.sweepPoint_mem (w : Sweep) (c : Chip) : (c.sweepPoint w).mem = c.mem := by
  simp -implicitDefEqProofs [Chip.sweepPoint]

@[simp] theorem Chip.sweepStart_mem (w : Sweep) (c : Chip) : (c.sweepStart w).mem = c.mem := by
  simp -implicitDefEqProofs [Chip.sweepStart]

@[simp] theorem Chip.sweepResults_mem (w : Sweep) (k : Nat) (c : Chip) : (c.sweepResults w k).mem = c.mem := by
  refine foldl_mem fun d m => ?_
  dsimp only
  split_ifs <;> simp

@[simp] theorem Chip.sweepGroup_mem (n : Nat) (w : Sweep) (c : Chip) : (c.sweepGroup n w).mem = c.mem := by
  fun_induction Chip.sweepGroup n w c with
  | case1 w c => simp
  | case2 n w c k named => simp
  | case3 n w c k named ih => simp [ih]

@[simp] theorem Chip.modQualified_mem (c : Chip) : c.modQualified.mem = c.mem := rfl

@[simp] theorem Chip.alarmEnds_mem (m : Nat) (c : Chip) : (c.alarmEnds m).mem = c.mem := by
  unfold Chip.alarmEnds
  split_ifs <;> simp

@[simp] theorem Chip.inputLose_mem (c : Chip) : c.inputLose.mem = c.mem := by
  unfold Chip.inputLose
  split_ifs <;> simp

@[simp] theorem Chip.inputResume_mem (c : Chip) : c.inputResume.mem = c.mem := by
  unfold Chip.inputResume
  split_ifs <;> simp

end Sys2Proof.Machine

namespace Sys2Proof.Machine

/-! The references and the free-running clock -/

@[simp] theorem Chip.onRefIn_mem (x : Nat) (f : RefIn → RefIn) (c : Chip) : (c.onRefIn x f).mem = c.mem := rfl

@[simp] theorem Chip.lockWatch_mem (c : Chip) : c.lockWatch.mem = c.mem := rfl

@[simp] theorem Chip.setFreq_mem (f : Int) (c : Chip) : (c.setFreq f).mem = c.mem := rfl

@[simp] theorem Chip.dpll_mem (st : Dpll) (c : Chip) : (c.dpll st).mem = c.mem := by
  unfold Chip.dpll
  split_ifs <;> simp

@[simp] theorem Chip.holdover_mem (c : Chip) : c.holdover.mem = c.mem := by simp [Chip.holdover]

@[simp] theorem Chip.disqualify_mem (x cause : Nat) (c : Chip) : (c.disqualify x cause).mem = c.mem := by
  unfold Chip.disqualify
  dsimp only
  split_ifs <;> simp

@[simp] theorem Chip.refEvent_mem (x : Nat) (ev : RefEv) (c : Chip) : (c.refEvent x ev).mem = c.mem := by
  unfold Chip.refEvent
  extract_lets cause pps seen timed judged good
  clear_value cause
  have first : timed.mem = c.mem := by
    unfold timed
    split <;> rfl
  have second : judged.mem = c.mem := by
    unfold judged
    split
    · exact (Chip.disqualify_mem _ _ _).trans first
    · exact first
  exact second

@[simp] theorem Chip.refWarn_mem (x : Nat) (dev : Int) (c : Chip) : (c.refWarn x dev).mem = c.mem := by
  unfold Chip.refWarn
  dsimp only
  split_ifs <;> simp

@[simp] theorem Chip.loscVote_mem (dev : Int) (c : Chip) : (c.loscVote dev).mem = c.mem := by
  unfold Chip.loscVote
  dsimp only
  repeat' split
  all_goals simp

@[simp] theorem Chip.driftVote_mem (c : Chip) : c.driftVote.mem = c.mem := by
  simp -implicitDefEqProofs [Chip.driftVote, apply_ite Chip.mem]

@[simp] theorem Chip.timeStep_mem (ns : Int) (c : Chip) : (c.timeStep ns).mem = c.mem := rfl

@[simp] theorem Chip.refSwitch_mem (x : Nat) (c : Chip) : (c.refSwitch x).mem = c.mem := by
  unfold Chip.refSwitch
  dsimp only
  split_ifs <;> simp

@[simp] theorem Chip.steer_mem (c : Chip) : c.steer.mem = c.mem := by simp [Chip.steer]

@[simp] theorem Chip.evaluate_mem (c : Chip) : c.evaluate.mem = c.mem := by
  unfold Chip.evaluate
  dsimp only
  repeat' split
  all_goals simp

@[simp] theorem Chip.refClear_mem (c : Chip) : c.refClear.mem = c.mem := by
  unfold Chip.refClear
  dsimp only
  split_ifs <;> simp

@[simp] theorem Chip.refTestStart_mem (c : Chip) : c.refTestStart.mem = c.mem := by simp [Chip.refTestStart]

@[simp] theorem Chip.refTestEnd_mem (c : Chip) : c.refTestEnd.mem = c.mem := by
  unfold Chip.refTestEnd
  dsimp only
  repeat' split
  all_goals simp

@[simp] theorem Chip.modelUpdate_mem (temp : Int) (c : Chip) : (c.modelUpdate temp).mem = c.mem := by
  unfold Chip.modelUpdate
  dsimp only
  split_ifs <;> simp

@[simp] theorem Chip.onPort_mem (m : Nat) (f : PtpPort → PtpPort) (c : Chip) : (c.onPort m f).mem = c.mem := rfl

@[simp] theorem Chip.ptpIdle_mem (m : Nat) (c : Chip) : (c.ptpIdle m).mem = c.mem := rfl

@[simp] theorem Chip.ptpDown_mem (m : Nat) (c : Chip) : (c.ptpDown m).mem = c.mem := rfl

@[simp] theorem Chip.ptpUp_mem (m : Nat) (c : Chip) : (c.ptpUp m).mem = c.mem := rfl

@[simp] theorem Chip.showSecond_mem (c : Chip) : c.showSecond.mem = c.mem := rfl

@[simp] theorem Chip.showQuick_mem (c : Chip) : c.showQuick.mem = c.mem := rfl

@[simp] theorem Chip.refStops_mem (x : Nat) (c : Chip) : (c.refStops x).mem = c.mem := by
  unfold Chip.refStops
  dsimp only
  split_ifs <;> simp

end Sys2Proof.Machine

namespace Sys2Proof.Machine

/-! The MACs, their rings and the drop -/

@[simp] theorem Chip.setHash_mem (items : Items) (c : Chip) : (c.setHash items).mem = c.mem := rfl

@[simp] theorem Chip.macCount_mem (m i : Nat) (c : Chip) : (c.macCount m i).mem = c.mem := rfl

@[simp] theorem Chip.dropCount_mem (i : Nat) (c : Chip) : (c.dropCount i).mem = c.mem := rfl

@[simp] theorem Chip.timed_mem (m len : Nat) (c : Chip) : (c.timed m len).2.mem = c.mem := by
  unfold Chip.timed
  dsimp only
  split_ifs <;> simp

@[simp] theorem Chip.stampOut_mem (m : Nat) (c : Chip) : (c.stampOut m).2.mem = c.mem := by
  unfold Chip.stampOut
  split <;> simp

@[simp] theorem Chip.rxDescriptor_wf {m r : Nat} {ws : List Word} {c : Chip} (h : c.mem.bytes.wf) :
    (c.rxDescriptor m r ws).mem.bytes.wf := by
  unfold Chip.rxDescriptor
  split_ifs <;> simp [h]

@[simp] theorem Chip.fillBuffers_wf {bufs : List Nat} {bs : List Byte} {c : Chip} (h : c.mem.bytes.wf) :
    (c.fillBuffers bufs bs).mem.bytes.wf := by
  fun_induction Chip.fillBuffers bufs bs c with
  | case1 bs c => exact h
  | case2 bs c b more part ih => exact ih (Chip.store_wf h)

@[simp] theorem rxComplete_wf {m r : Nat} {bufs : List Nat} {ws : List Word} {timed : Bool} {f : RxFrame}
    {s : Hamper × Chip} (h : s.2.mem.bytes.wf) :
    (rxComplete m r bufs ws timed f s).2.mem.bytes.wf := by
  unfold rxComplete
  split_ifs <;> simp [h]

@[simp] theorem deliverRx_wf {m r : Nat} {bs : List Byte} {trunc timed : Bool} {bufs : List Nat} {s : Hamper × Chip}
    (h : s.2.mem.bytes.wf) :
    (deliverRx m r bs trunc timed bufs s).2.mem.bytes.wf := by
  unfold deliverRx
  dsimp only
  split_ifs <;> simp [h]

@[simp] theorem truncate_wf {m r n : Nat} {bs : List Byte} {s : Hamper × Chip} (h : s.2.mem.bytes.wf) :
    (truncate m r n bs s).2.mem.bytes.wf := by
  unfold truncate
  split_ifs <;> simp [h]

@[simp] theorem receiveBad_wf {m r : Nat} {bs : List Byte} {s : Hamper × Chip} (h : s.2.mem.bytes.wf) :
    (receiveBad m r bs s).2.mem.bytes.wf := by simp [receiveBad, h]

@[simp] theorem receive_wf {m : Nat} {bs : List Byte} {fcsOk : Bool} {s : Hamper × Chip} (h : s.2.mem.bytes.wf) :
    (receive m bs fcsOk s).2.mem.bytes.wf := by
  unfold receive
  dsimp only
  repeat' split
  all_goals simp [h]

@[simp] theorem Chip.giveBuffers_wf {m r : Nat} {bufs : List Nat} {c : Chip} (h : c.mem.bytes.wf) :
    (c.giveBuffers m r bufs).mem.bytes.wf := Chip.putWords_wf (foldl_wf (fun _ _ form => Chip.putWords_wf form) h)

@[simp] theorem Chip.readFrame_wf {m r : Nat} {f : RxFrame} {c : Chip} (h : c.mem.bytes.wf) :
    (c.readFrame m r f).2.mem.bytes.wf := by
  unfold Chip.readFrame
  split <;> simp [h]

@[simp] theorem Chip.popInbox_wf {m r : Nat} {c : Chip} (h : c.mem.bytes.wf) : (c.popInbox m r).2.mem.bytes.wf := by
  unfold Chip.popInbox
  dsimp only
  repeat' split
  all_goals simp [h]

@[simp] theorem refill_mem (m r : Nat) (s : Hamper × Chip) : (refill m r s).2.mem = s.2.mem := rfl

@[simp] theorem takeReturn_mem (i b : Nat) (s : Hamper × Chip) : (takeReturn i b s).2.mem = s.2.mem := by
  unfold takeReturn
  split_ifs <;> simp

@[simp] theorem returns_wf {m r : Nat} {s : Hamper × Chip} (h : s.2.mem.bytes.wf) : (returns m r s).2.mem.bytes.wf := by
  unfold returns
  extract_lets i x t p
  have read : p.2.mem.bytes.wf := Chip.dmaRead_wf h
  split_ifs
  · exact h
  split
  · exact read
  · refine foldl_snd_wf (fun d k form => ?_) read
    split_ifs
    · exact form
    · extract_lets e
      have entry : e.2.mem.bytes.wf := Chip.dmaRead_wf form
      split
      · exact entry
      · exact wf_of_mem (takeReturn_mem _ _ _) entry

@[simp] theorem Chip.enqueue_mem (m r : Nat) (f : TxFrame) (c : Chip) : (c.enqueue m r f).mem = c.mem := rfl

@[simp] theorem Chip.postTx_wf {m r : Nat} {f : TxFrame} {c : Chip} (h : c.mem.bytes.wf) : (c.postTx m r f).mem.bytes.wf :=
  by simp [Chip.postTx, h]

@[simp] theorem Chip.queueTx_wf {m r : Nat} {f : TxFrame} {c : Chip} (h : c.mem.bytes.wf) : (c.queueTx m r f).mem.bytes.wf := by
  unfold Chip.queueTx
  dsimp only
  split_ifs <;> simp [h]

@[simp] theorem Chip.postNext_wf {m r : Nat} {c : Chip} (h : c.mem.bytes.wf) : (c.postNext m r).mem.bytes.wf := by
  unfold Chip.postNext
  split <;> simp [h]

@[simp] theorem Chip.txComplete_wf {m r slot attempts status : Nat} {ts : List Word} {c : Chip} (h : c.mem.bytes.wf) :
    (c.txComplete m r slot attempts status ts).mem.bytes.wf := by
  unfold Chip.txComplete
  extract_lets n a w1 phase put c1 c2 c3
  have put_wf : ∀ o ws (d : Chip), d.mem.bytes.wf → (put o ws d).mem.bytes.wf := fun _ _ _ form => Chip.innerStore_wf form
  have status : c1.mem.bytes.wf := put_wf _ _ _ h
  have phased : c2.mem.bytes.wf := put_wf _ _ _ status
  have counted : c3.mem.bytes.wf := ite_wf phased (wf_of_mem (Chip.macCount_mem _ _ _) phased)
  split_ifs
  · exact status
  · exact Chip.postNext_wf (wf_of_mem (Chip.pulse_mem _ _) counted)
  · exact Chip.postNext_wf counted

@[simp] theorem Chip.txDone_wf {m r : Nat} {f : TxFrame} {status : Nat} {ts : List Word} {timed : Bool} {c : Chip}
    (h : c.mem.bytes.wf) :
    (c.txDone m r f status ts timed).mem.bytes.wf := by
  unfold Chip.txDone
  dsimp only
  repeat' split
  all_goals simp [h]

@[simp] theorem Chip.txFlush_wf {m r n : Nat} {c : Chip} (h : c.mem.bytes.wf) : (c.txFlush m r n).mem.bytes.wf := by
  fun_induction Chip.txFlush m r n c with
  | case1 c => exact h
  | case2 c n empty => exact h
  | case3 c n f rest queue st barred busy => exact h
  | case4 c n f rest queue st barred idle ih => exact ih (Chip.txDone_wf h)
  | case5 c n f rest queue clear => exact h

@[simp] theorem Chip.txFlushAll_wf {m : Nat} {c : Chip} (h : c.mem.bytes.wf) : (c.txFlushAll m).mem.bytes.wf := by
  unfold Chip.txFlushAll
  exact foldl_wf (fun _ _ form => Chip.txFlush_wf form) h

@[simp] theorem Chip.txStart_mem (m r : Nat) (c : Chip) : (c.txStart m r).mem = c.mem := by
  unfold Chip.txStart
  split <;> simp

@[simp] theorem Chip.linkKick_wf {m : Nat} {c : Chip} (h : c.mem.bytes.wf) : (c.linkKick m).mem.bytes.wf := by
  unfold Chip.linkKick
  dsimp only
  repeat' split
  all_goals simp [h]

@[simp] theorem Chip.ptpSent_wf {m r : Nat} {f : TxFrame} {ns : Nat} {c : Chip} (h : c.mem.bytes.wf) :
    (c.ptpSent m r f ns).mem.bytes.wf := by
  unfold Chip.ptpSent
  dsimp only
  repeat' split
  all_goals simp [h]

@[simp] theorem Chip.txSent_wf {m : Nat} {c : Chip} (h : c.mem.bytes.wf) : (c.txSent m).mem.bytes.wf := by
  unfold Chip.txSent
  dsimp only
  repeat' split
  all_goals simp [h]

@[simp] theorem releaseHeld_wf {m : Nat} {s : Hamper × Chip} (h : s.2.mem.bytes.wf) : (releaseHeld m s).2.mem.bytes.wf := by
  refine foldl_snd_wf (fun d held form => ?_) h
  dsimp only
  split_ifs
  · exact form
  split
  · exact rxComplete_wf form
  · split_ifs
    · exact Chip.txComplete_wf (wf_of_mem (Chip.stampOut_mem _ _) form)
    · exact Chip.txComplete_wf form

@[simp] theorem Chip.txFetch_wf {m r : Nat} {c : Chip} (h : c.mem.bytes.wf) : (c.txFetch m r).mem.bytes.wf := by
  unfold Chip.txFetch
  extract_lets p
  have read : p.2.mem.bytes.wf := Chip.dmaRead_wf h
  split_ifs
  · exact h
  split
  · exact read
  · refine foldl_wf (fun d _ form => ?_) read
    split_ifs
    · exact form
    extract_lets slot e
    have entry : e.2.mem.bytes.wf := Chip.dmaRead_wf form
    split
    · exact entry
    · extract_lets a w1 len bad q
      have frame : q.2.mem.bytes.wf := ite_snd_wf entry (Chip.dmaRead_wf entry)
      split
      · exact frame
      · exact wf_of_mem (Chip.enqueue_mem _ _ _ _) frame

@[simp] theorem Chip.dropNote_mem (status : Nat) (c : Chip) : (c.dropNote status).mem = c.mem := by simp [Chip.dropNote]

@[simp] theorem Chip.markStale_mem (m r : Nat) (stale : TxFrame → Bool) (c : Chip) : (c.markStale m r stale).mem = c.mem := rfl

@[simp] theorem Chip.dropStale_wf {c : Chip} (h : c.mem.bytes.wf) : c.dropStale.mem.bytes.wf := by simp [Chip.dropStale, h]

@[simp] theorem Chip.speechFrame_mem (bs : List Byte) (c : Chip) : (c.speechFrame bs).mem = c.mem := by
  simp -implicitDefEqProofs [Chip.speechFrame, apply_ite Chip.mem]

@[simp] theorem Chip.pegConflict_mem (bs : List Byte) (c : Chip) : (c.pegConflict bs).mem = c.mem := by
  unfold Chip.pegConflict
  split_ifs <;> simp

@[simp] theorem Chip.speechRx_mem (bs : List Byte) (fcsOk : Bool) (c : Chip) : (c.speechRx bs fcsOk).mem = c.mem := by
  unfold Chip.speechRx
  split_ifs <;> simp

@[simp] theorem Chip.speechSources_mem (b : Nat) (c : Chip) : (c.speechSources b).2.mem = c.mem := by
  refine foldl_snd_mem fun a n => ?_
  dsimp only
  split_ifs <;> simp -implicitDefEqProofs

@[simp] theorem Chip.speechLand_mem (old new : Items) (L : Nat) (c : Chip) : (c.speechLand old new L).mem = c.mem := rfl

@[simp] theorem Chip.linkFalls_wf {m : Nat} {note : Bool} {c : Chip} (h : c.mem.bytes.wf) :
    (c.linkFalls m note).mem.bytes.wf := by
  unfold Chip.linkFalls
  dsimp only
  repeat' split
  all_goals simp [h]

@[simp] theorem Chip.sfpFail_wf {m : Nat} {c : Chip} (h : c.mem.bytes.wf) : (c.sfpFail m).mem.bytes.wf :=
  by simp [Chip.sfpFail, h]

@[simp] theorem Chip.linkEnable_wf {m : Nat} {on : Bool} {c : Chip} (h : c.mem.bytes.wf) : (c.linkEnable m on).mem.bytes.wf := by
  unfold Chip.linkEnable
  dsimp only
  split_ifs <;> simp [h]

@[simp] theorem Chip.dropEnable_wf {on : Bool} {c : Chip} (h : c.mem.bytes.wf) : (c.dropEnable on).mem.bytes.wf := by
  unfold Chip.dropEnable
  dsimp only
  repeat' split
  all_goals simp [h]

@[simp] theorem Chip.portLand_wf {old new : Items} {c : Chip} (h : c.mem.bytes.wf) : (c.portLand old new).mem.bytes.wf := by
  unfold Chip.portLand
  split_ifs
  · exact h
  extract_lets ch on c1 c2
  have first : c1.mem.bytes.wf := ite_wf (Chip.linkEnable_wf h) h
  have second : c2.mem.bytes.wf := ite_wf (Chip.linkEnable_wf first) first
  exact ite_wf (Chip.dropEnable_wf second) second

end Sys2Proof.Machine

namespace Sys2Proof.Machine

/-! TALK and LISTEN, and the management of flows -/

@[simp] theorem Chip.talk_wf {items : Items} {o : Nat} {outs : Map (List Smp × Bool)} {late : List Nat} {c : Chip}
    (h : c.mem.bytes.wf) :
    (c.talk items o outs late).mem.bytes.wf := by
  unfold Chip.talk
  split
  · exact h
  · extract_lets d
    have queued : d.mem.bytes.wf := foldl_wf (fun _ _ form => Chip.queueTx_wf (Chip.queueTx_wf form)) h
    exact Chip.linkKick_wf (Chip.linkKick_wf queued)

@[simp] theorem Chip.onCtx_mem (x : Nat) (f : Listen → Listen) (c : Chip) : (c.onCtx x f).mem = c.mem := rfl

@[simp] theorem Chip.pathCount_mem (k i : Nat) (c : Chip) : (c.pathCount k i).mem = c.mem := rfl

@[simp] theorem Chip.dropped_mem (i : Nat) (c : Chip) : (c.dropped i).mem = c.mem := rfl

@[simp] theorem Chip.slack_mem (x k P t : Nat) (c : Chip) : (c.slack x k P t).mem = c.mem := rfl

@[simp] theorem Chip.delivers_mem (k : Nat) (c : Chip) : (c.delivers k).mem = c.mem := by
  unfold Chip.delivers
  dsimp only
  split_ifs <;> simp

@[simp] theorem Chip.copy_mem (f : FlowFrame) (l t : Nat) (c : Chip) : (c.copy f l t).mem = c.mem := by
  unfold Chip.copy
  dsimp only
  split
  · split_ifs <;> simp
  · simp -implicitDefEqProofs [apply_ite Chip.mem]

@[simp] theorem Chip.sendFrame_wf {m r : Nat} {bs : List Byte} {ts : Bool} {c : Chip} (h : c.mem.bytes.wf) :
    (c.sendFrame m r bs ts).mem.bytes.wf := by
  unfold Chip.sendFrame
  split_ifs <;> simp [h]

@[simp] theorem Chip.sendMgmt_wf {m : Nat} {bs : List Byte} {c : Chip} (h : c.mem.bytes.wf) : (c.sendMgmt m bs).mem.bytes.wf :=
  by simp [Chip.sendMgmt, h]

@[simp] theorem Chip.enterStream_mem (p : Pkt) (c : Chip) : (c.enterStream p).mem = c.mem := rfl

@[simp] theorem Chip.mgmt_wf {f : FlowFrame} {m : Nat} {c : Chip} (h : c.mem.bytes.wf) : (c.mgmt f m).mem.bytes.wf := by
  unfold Chip.mgmt
  extract_lets len id counter body check words head whole bad opens session pkt accept
  have accept_wf : ∀ d : Chip, d.mem.bytes.wf → (accept d).mem.bytes.wf := by
    intro d form
    unfold accept
    extract_lets full r
    split_ifs
    · exact wf_of_mem (Chip.enterStream_mem _ _) form
    · split <;> exact Chip.sendMgmt_wf form
  clear_value session accept
  split_ifs
  · exact h
  · exact h
  · exact h
  · exact h
  · exact accept_wf c h
  · exact h
  · split
    · exact Chip.sendMgmt_wf h
    · split_ifs
      · exact h
      · exact accept_wf _ h

@[simp] theorem Chip.arrive_wf {x : RxFrame} {l : Nat} {c : Chip} (h : c.mem.bytes.wf) : (c.arrive x l).mem.bytes.wf := by
  unfold Chip.arrive
  dsimp only
  split_ifs <;> simp [h]

@[simp] theorem Chip.takeCopy_wf {l : Nat} {c : Chip} (h : c.mem.bytes.wf) : (c.takeCopy l).mem.bytes.wf := by
  have popped : (c.popInbox l 0).2.mem.bytes.wf := Chip.popInbox_wf h
  unfold Chip.takeCopy
  split
  · next d taken =>
      rw [taken] at popped
      exact popped
  · next x d taken =>
      rw [taken] at popped
      exact Chip.arrive_wf popped

@[simp] theorem Chip.takeUntil_wf {t n : Nat} {c : Chip} (h : c.mem.bytes.wf) : (c.takeUntil t n).mem.bytes.wf := by
  fun_induction Chip.takeUntil t n c with
  | case1 c => exact h
  | case2 _ _ _ _ _ _ _ _ ih => exact ih (Chip.takeCopy_wf h)
  | case4 _ _ _ _ _ _ _ ih => exact ih (Chip.takeCopy_wf h)
  | case6 _ _ _ _ _ _ _ ih => exact ih (Chip.takeCopy_wf h)
  | _ => exact h

@[simp] theorem Chip.present_mem (items : Items) (P x : Nat) (c : Chip) : (c.present items P x).mem = c.mem := by
  unfold Chip.present
  extract_lets
  split
  · split
    · exact Chip.raise_mem _ _ _ _ _
    · rfl
  · split
    · exact Chip.raise_mem _ _ _ _ _
    · rfl

@[simp] theorem Chip.clearFrom_mem (old new : Items) (L : Nat) (c : Chip) : (c.clearFrom old new L).mem = c.mem := rfl

@[simp] theorem Chip.airingEnd_mem (c : Chip) : c.airingEnd.mem = c.mem := by
  unfold Chip.airingEnd
  split <;> simp

@[simp] theorem Chip.airingTrack_mem (c : Chip) : c.airingTrack.mem = c.mem := rfl

@[simp] theorem Chip.airingStart_mem (T : Nat) (c : Chip) : (c.airingStart T).mem = c.mem := by
  unfold Chip.airingStart
  split
  · simp -implicitDefEqProofs [apply_ite Chip.mem]
  · rfl

@[simp] theorem Chip.airingWithdraw_mem (c : Chip) : c.airingWithdraw.mem = c.mem := by
  unfold Chip.airingWithdraw
  split <;> simp

@[simp] theorem Chip.airingEnds_mem (P : Nat) (as : List Airing) (c : Chip) : (c.airingEnds P as).mem = c.mem := by
  fun_induction Chip.airingEnds P as c with
  | case1 c => rfl
  | case2 c a as due ih => exact ih.trans (Chip.airingEnd_mem _)
  | case3 => rfl

@[simp] theorem Chip.presentAll_mem (items : Items) (P : Nat) (c : Chip) : (c.presentAll items P).mem = c.mem :=
  by simp [Chip.presentAll]

@[simp] theorem Chip.closeBlock_wf {P : Nat} {c : Chip} (h : c.mem.bytes.wf) : (c.closeBlock P).mem.bytes.wf := by
  unfold Chip.closeBlock
  dsimp only
  split_ifs <;> simp [h]

@[simp] theorem Chip.listenReset_mem (J : Nat) (c : Chip) : (c.listenReset J).mem = c.mem := rfl

@[simp] theorem Chip.listenBack_mem (J : Nat) (c : Chip) : (c.listenBack J).mem = c.mem := by
  unfold Chip.listenBack
  split_ifs <;> simp

@[simp] theorem Chip.rewriteFlow_mem (c : Chip) : c.rewriteFlow.mem = c.mem := by
  unfold Chip.rewriteFlow
  split_ifs <;> simp

end Sys2Proof.Machine

namespace Sys2Proof.Machine

/-! The pages of the delay store -/

@[simp] theorem Chip.zeroPage_wf {p : Nat} {c : Chip} (h : c.mem.bytes.wf) : (c.zeroPage p).mem.bytes.wf := Memory.wf_zero h _ _

@[simp] theorem Chip.allocPage_wf {chain order : Nat} {st : PageSt} {c : Chip} (h : c.mem.bytes.wf) :
    (c.allocPage chain order st).2.mem.bytes.wf := by
  unfold Chip.allocPage
  split <;> simp [h]

@[simp] theorem Chip.allocPages_wf {chain n : Nat} {st : PageSt} {c : Chip} (h : c.mem.bytes.wf) :
    (c.allocPages chain n st).2.mem.bytes.wf := by
  refine foldl_snd_wf (fun a o form => ?_) h
  have allocated : (a.2.allocPage chain o st).2.mem.bytes.wf := Chip.allocPage_wf form
  split
  · next found =>
      rw [found] at allocated
      exact allocated
  · next found =>
      rw [found] at allocated
      exact allocated

@[simp] theorem Chip.freeFilling_mem (ps : List Nat) (c : Chip) : (c.freeFilling ps).mem = c.mem := rfl

@[simp] theorem Chip.landPages_mem (L chain : Nat) (ps : List Nat) (c : Chip) : (c.landPages L chain ps).mem = c.mem := rfl

@[simp] theorem Chip.releasePages_mem (N : Nat) (c : Chip) : (c.releasePages N).mem = c.mem := rfl

@[simp] theorem Chip.reallocRings_wf {items : Items} {c : Chip} (h : c.mem.bytes.wf) : (c.reallocRings items).mem.bytes.wf :=
  foldl_wf (fun _ _ form => Chip.allocPages_wf form) h

end Sys2Proof.Machine

namespace Sys2Proof.Machine

/-! The twin: roles, mends and heartbeats -/

@[simp] theorem Chip.setRole_mem (r : Role) (note : Bool) (c : Chip) : (c.setRole r note).mem = c.mem := by
  unfold Chip.setRole
  split_ifs <;> simp

@[simp] theorem Chip.roleSettle_mem (c : Chip) : c.roleSettle.mem = c.mem := by
  unfold Chip.roleSettle
  split_ifs <;> simp

@[simp] theorem Chip.mendsEnd_mem (N : Nat) (c : Chip) : (c.mendsEnd N).mem = c.mem := rfl

@[simp] theorem Chip.abandonMends_mem (c : Chip) : c.abandonMends.mem = c.mem := by
  unfold Chip.abandonMends
  split_ifs <;> simp

@[simp] theorem Chip.allLost_mem (c : Chip) : c.allLost.mem = c.mem := by
  unfold Chip.allLost
  dsimp only
  repeat' split
  all_goals simp

@[simp] theorem Chip.failT_mem (c : Chip) : c.failT.mem = c.mem := by
  unfold Chip.failT
  dsimp only
  split_ifs <;> simp

@[simp] theorem Chip.peerSeen_mem (role : BitVec 3) (safe : Bool) (epoch : Word) (paths : BitVec 3) (level : Byte) (peg : Nat)
    (c : Chip) : (c.peerSeen role safe epoch paths level peg).mem = c.mem := by
  unfold Chip.peerSeen
  extract_lets heard d full decided
  have kept : decided.mem = c.mem := by
    unfold decided
    split <;> rfl
  clear_value decided
  split_ifs
  · exact kept
  · exact (Chip.raise_mem _ _ _ _ _).trans kept
  · exact kept
  · exact kept

@[simp] theorem Chip.dutyUntil_mem (last : Nat) (r : Role) (c : Chip) : (c.dutyUntil last r).mem = c.mem := by
  unfold Chip.dutyUntil
  dsimp only
  split_ifs <;> simp

@[simp] theorem Chip.takeRole_mem (N : Nat) (c : Chip) : (c.takeRole N).mem = c.mem := by
  unfold Chip.takeRole
  dsimp only
  repeat' split
  all_goals simp

@[simp] theorem Chip.takeSwap_mem (N : Nat) (c : Chip) : (c.takeSwap N).mem = c.mem := by
  unfold Chip.takeSwap
  dsimp only
  repeat' split
  all_goals simp

@[simp] theorem Chip.twinLand_mem (ids : List Nat) (new : Items) (c : Chip) : (c.twinLand ids new).mem = c.mem := by
  unfold Chip.twinLand
  dsimp only
  split_ifs <;> simp

@[simp] theorem Chip.onPast_mem (G : Nat) (f : Past → Past) (c : Chip) : (c.onPast G f).mem = c.mem := rfl

@[simp] theorem Chip.capture_wf {N : Nat} {c : Chip} (h : c.mem.bytes.wf) : (c.capture N).mem.bytes.wf := by
  unfold Chip.capture
  split
  · exact h
  · extract_lets room r read send
    have sent : ∀ d : Chip, d.mem.bytes.wf → (send d).mem.bytes.wf := fun _ form => form
    clear_value send
    split_ifs
    · exact sent c h
    · exact h
    · have corrected : ((c.onTwin fun t => { t with bulk := [] }).correct 0x33 read).mem.bytes.wf := Chip.correct_wf h
      split
      · exact Chip.haltDma_wf corrected
      · exact sent _ corrected

@[simp] theorem Chip.loadSources_mem (r M N : Nat) (ws : Map (List Nat)) (c : Chip) : (c.loadSources r M N ws).mem = c.mem := by
  refine foldl_snd_mem fun a b => ?_
  dsimp only
  split <;> simp

@[simp] theorem Chip.loadBuses_mem (r M N : Nat) (ws : Map (List Nat)) (c : Chip) : (c.loadBuses r M N ws).mem = c.mem := by
  refine foldl_snd_mem fun a b => ?_
  dsimp only
  split <;> simp

@[simp] theorem Chip.refreshPass1_mem (N : Nat) (c : Chip) : (c.refreshPass1 N).mem = c.mem := by
  unfold Chip.refreshPass1
  split <;> simp

@[simp] theorem Chip.loadChain_wf {M N k : Nat} {st : ChainSt} {c : Chip} (h : c.mem.bytes.wf) :
    (c.loadChain M N k st).mem.bytes.wf := by
  unfold Chip.loadChain
  extract_lets keep d two e
  have second : two.2.mem.bytes.wf := by
    refine foldl_snd_wf (fun a b form => ?_) h
    dsimp only
    split
    · exact form
    · exact wf_of_mem (Chip.onPast_mem _ _ _) (Chip.chainBlock_wf form)
  refine foldl_wf (fun a b form => ?_) second
  split
  · exact form
  · exact wf_of_mem ((Chip.onPast_mem _ _ _).trans (Chip.chainOut_mem _ _ _ _ _)) form

@[simp] theorem Chip.loadChains_wf {M N : Nat} {ws : Map (List Nat)} {c : Chip} (h : c.mem.bytes.wf) :
    (c.loadChains M N ws).mem.bytes.wf := by
  refine foldl_wf (fun a q form => ?_) h
  split
  · exact Chip.loadChain_wf form
  · exact form

@[simp] theorem Chip.loadSinks_mem (M N : Nat) (ws : Map (List Nat)) (c : Chip) : (c.loadSinks M N ws).mem = c.mem := rfl

@[simp] theorem Chip.loadLast_mem (M N : Nat) (ws : Map (List Nat)) (c : Chip) : (c.loadLast M N ws).mem = c.mem := rfl

@[simp] theorem Chip.loadConfig_wf {M N : Nat} {ws : Map (List Nat)} {c : Chip} (h : c.mem.bytes.wf) :
    (c.loadConfig M N ws).mem.bytes.wf := by simp [Chip.loadConfig, h]

@[simp] theorem Chip.loadRing_wf {r M N : Nat} {ws : List (Nat × Nat)} {c : Chip} (h : c.mem.bytes.wf) :
    (c.loadRing r M N ws).mem.bytes.wf := foldl_wf (fun d x form => by simp -implicitDefEqProofs [form]) h

@[simp] theorem Chip.loadFilter_mem (r M N : Nat) (ws : List (Nat × Nat)) (c : Chip) : (c.loadFilter r M N ws).mem = c.mem := by
  have kept : ∀ (l : List (Nat × List Nat)) (adv : Nat) (d : Chip), (l.foldl (fun c q =>
      match (decOpt decTriple) q.2 with
      | some (o, _) => c.onGraph fun g => { g with fir := mmod g.fir q.1 {} fun f => { f with
          xchg := o.bind fun x => if x.1 ≤ x.2.2 + adv then none else some (x.1, x.2.1, x.2.2 + adv) } }
      | none => c) d).mem = d.mem := fun l adv d => foldl_mem fun a q => by split <;> rfl
  refine (kept _ _ _).trans (foldl_mem fun a w => ?_)
  dsimp only
  split_ifs <;> rfl

@[simp] theorem Chip.mendLoad_wf {N : Nat} {c : Chip} (h : c.mem.bytes.wf) : (c.mendLoad N).mem.bytes.wf := by
  unfold Chip.mendLoad
  split
  · exact h
  split_ifs
  · exact h
  extract_lets M words order mend d
  have loaded : d.mem.bytes.wf := by
    refine foldl_wf (fun a r form => ?_) h
    dsimp only
    split_ifs <;> simp [form]
  exact ite_wf (wf_of_mem (Chip.refreshPass1_mem _ _) loaded) loaded

@[simp] theorem Chip.startedIn_mem (G : Nat) (c : Chip) : (c.startedIn G).mem = c.mem := by
  unfold Chip.startedIn
  split_ifs <;> simp

@[simp] theorem Chip.mendBegin_mem (G r : Nat) (c : Chip) : (c.mendBegin G r).mem = c.mem := by
  unfold Chip.mendBegin
  split_ifs <;> simp

@[simp] theorem Chip.mendStart_mem (G r : Nat) (c : Chip) : (c.mendStart G r).mem = c.mem := by
  unfold Chip.mendStart
  split_ifs <;> simp

@[simp] theorem Chip.mendDone_mem (r : Nat) (c : Chip) : (c.mendDone r).mem = c.mem := by
  unfold Chip.mendDone
  dsimp only
  split_ifs <;> simp

@[simp] theorem Chip.fullMend_mem (G : Nat) (c : Chip) : (c.fullMend G).mem = c.mem := by simp [Chip.fullMend]

@[simp] theorem Chip.mendNew_mem (G r : Nat) (c : Chip) : (c.mendNew G r).mem = c.mem := by
  unfold Chip.mendNew
  split_ifs <;> simp

@[simp] theorem Chip.mendCheck_mem (G N : Nat) (bad : List Nat) (c : Chip) (q : Nat × Nat) :
    (c.mendCheck G N bad q).mem = c.mem := by
  unfold Chip.mendCheck
  dsimp only
  split_ifs <;> simp

@[simp] theorem Chip.mendDeferred_mem (G : Nat) (c : Chip) : (c.mendDeferred G).mem = c.mem := by simp [Chip.mendDeferred]

@[simp] theorem Chip.compare_mem (N : Nat) (c : Chip) : (c.compare N).mem = c.mem := by
  unfold Chip.compare
  extract_lets G d e
  have started : e.mem = c.mem := by simp [e, d, apply_ite Chip.mem]
  split
  · simp -implicitDefEqProofs [apply_ite Chip.mem, started]
  · exact started

@[simp] theorem Chip.sendBlockFrame_mem (N : Nat) (c : Chip) : (c.sendBlockFrame N).mem = c.mem := by
  unfold Chip.sendBlockFrame
  split_ifs <;> simp

@[simp] theorem Chip.health_mem (N : Nat) (inp : TickIn) (c : Chip) : (c.health N inp).mem = c.mem := by
  unfold Chip.health
  extract_lets _ _ _ _ _ _ recent moved shadowed probed
  have first : shadowed.mem = c.mem := by
    unfold shadowed
    split
    · rfl
    · exact (apply_ite Chip.mem _ _ _).trans (by simp [moved])
  have second : probed.mem = c.mem := by
    unfold probed
    split
    · exact first
    · exact (Chip.raise_mem _ _ _ _ _).trans first
  exact second

@[simp] theorem Chip.takeHeartbeat_wf {drop : Bool} {c : Chip} (h : c.mem.bytes.wf) : (c.takeHeartbeat drop).mem.bytes.wf := by
  have popped : (c.popInbox 0 2).2.mem.bytes.wf := Chip.popInbox_wf h
  unfold Chip.takeHeartbeat
  split_ifs
  · exact Chip.popInbox_wf h
  split
  · next found =>
      rw [found] at popped
      exact popped
  · next found =>
      rw [found] at popped
      exact Chip.popInbox_wf popped

end Sys2Proof.Machine

namespace Sys2Proof.Machine

/-! What lands at a tick -/

@[simp] theorem Chip.clearGraph_mem (items : Items) (o from_ : Nat) (c : Chip) : (c.clearGraph items o from_).mem = c.mem := rfl

@[simp] theorem Chip.clearRings_wf {c : Chip} (h : c.mem.bytes.wf) : c.clearRings.mem.bytes.wf :=
  foldl_wf (fun d x form => by simp -implicitDefEqProofs [form]) h

@[simp] theorem Chip.coldChains_wf {c : Chip} (h : c.mem.bytes.wf) : c.coldChains.mem.bytes.wf := by
  unfold Chip.coldChains
  dsimp only
  split_ifs <;> simp [h]

@[simp] theorem Chip.firBegin_mem (cfg : Gen) (c : Chip) : (c.firBegin cfg).mem = c.mem := by
  simp -implicitDefEqProofs [Chip.firBegin]

@[simp] theorem Chip.firSettle_mem (c : Chip) : c.firSettle.mem = c.mem := rfl

@[simp] theorem Chip.ringsLand_wf {L : Nat} {old new : Items} {q : Press} {c : Chip} (h : c.mem.bytes.wf) :
    (c.ringsLand L old new q).mem.bytes.wf := foldl_wf (fun d x form => by simp -implicitDefEqProofs [form]) h

@[simp] theorem Chip.ptpLand_mem (old new : Items) (c : Chip) : (c.ptpLand old new).mem = c.mem := by
  simp -implicitDefEqProofs [Chip.ptpLand, apply_ite Chip.mem]

@[simp] theorem Chip.unitsLand_wf {ids : List Nat} {old new : Items} {L : Nat} {c : Chip} (h : c.mem.bytes.wf) :
    (c.unitsLand ids old new L).mem.bytes.wf := by
  unfold Chip.unitsLand
  dsimp only
  split_ifs <;> simp [h]

@[simp] theorem Chip.bqSettle_mem (c : Chip) : c.bqSettle.mem = c.mem := rfl

@[simp] theorem Chip.skipSettle_mem (c : Chip) : c.skipSettle.mem = c.mem := rfl

@[simp] theorem Chip.divergenceEnds_mem (ids : List Nat) (old new : Items) (c : Chip) :
    (c.divergenceEnds ids old new).mem = c.mem := by
  unfold Chip.divergenceEnds
  split_ifs <;> simp

@[simp] theorem Chip.landPress_wf {L : Nat} {q : Press} {c : Chip} (h : c.mem.bytes.wf) : (c.landPress L q).mem.bytes.wf := by
  unfold Chip.landPress
  dsimp only
  repeat' split
  all_goals simp [h]

@[simp] theorem Chip.noteWaits_mem (N : Nat) (c : Chip) : (c.noteWaits N).mem = c.mem := by
  unfold Chip.noteWaits
  split_ifs <;> simp

@[simp] theorem Chip.landAt_wf {N : Nat} {c : Chip} (h : c.mem.bytes.wf) : (c.landAt N).mem.bytes.wf := by
  unfold Chip.landAt
  split_ifs
  · exact h
  · exact foldl_wf (fun _ _ form => Chip.landPress_wf form) (wf_of_mem (Chip.noteWaits_mem _ _) h)

end Sys2Proof.Machine

namespace Sys2Proof.Machine

/-! The image slots, and what a reset leaves -/

@[simp] theorem Chip.onSlot_mem (i : Nat) (f : ImgSlot → ImgSlot) (c : Chip) : (c.onSlot i f).mem = c.mem := rfl

@[simp] theorem Chip.verifySlot_mem (i : Nat) (c : Chip) : (c.verifySlot i).2.2.mem = c.mem := by
  unfold Chip.verifySlot
  dsimp only
  split_ifs <;> simp

@[simp] theorem Chip.writeRecord_mem (f : BootRec → BootRec) (c : Chip) : (c.writeRecord f).mem = c.mem := rfl

@[simp] theorem Chip.enterStage_mem (st : Stage) (c : Chip) : (c.enterStage st).mem = c.mem := rfl

@[simp] theorem Chip.zeroAreas_wf {l : List (Nat × Nat)} {c : Chip} (h : c.mem.bytes.wf) : (c.zeroAreas l).mem.bytes.wf :=
  foldl_wf (fun _ _ form => Memory.wf_zero form _ _) h

@[simp] theorem Chip.initSram_wf {channels : Nat} {c : Chip} (h : c.mem.bytes.wf) : (c.initSram channels).mem.bytes.wf := by
  simp -implicitDefEqProofs [Chip.initSram, h]

@[simp] theorem Chip.loadAreas_wf {l : List (Nat × Nat)} {c : Chip} (h : c.mem.bytes.wf) : (c.loadAreas l).mem.bytes.wf :=
  foldl_wf (fun _ _ form => Memory.wf_load form _ _ _) h

@[simp] theorem Chip.initEngine_wf {n : Nat} {c : Chip} (h : c.mem.bytes.wf) : (c.initEngine n).mem.bytes.wf :=
  by simp [Chip.initEngine, h]

/-- A reset leaves a memory that lists nothing. -/
@[simp] theorem Chip.afterReset_wf {held : Bool} {c : Chip} : (c.afterReset held).mem.bytes.wf := rfl

@[simp] theorem restart_wf {s : Hamper × Chip} : (restart s).2.mem.bytes.wf := rfl

end Sys2Proof.Machine

namespace Sys2Proof.Machine

/-! The boot ROM and the stages of start-up -/

@[simp] theorem Chip.early_mem (code : Nat) (cls : Cls) (c : Chip) : (c.early code cls).mem = c.mem := by
  unfold Chip.early
  split <;> simp

@[simp] theorem Chip.romHalt_wf {cause : Nat} {c : Chip} (h : c.mem.bytes.wf) : (c.romHalt cause).mem.bytes.wf :=
  by simp [Chip.romHalt, h]

@[simp] theorem Chip.bootSlot_wf {i selected : Nat} {trial : Bool} {c : Chip} (h : c.mem.bytes.wf) :
    (c.bootSlot i selected trial).mem.bytes.wf := by
  unfold Chip.bootSlot
  dsimp only
  split_ifs <;> simp [h]

@[simp] theorem Chip.unselected_mem (c : Chip) : c.unselected.mem = c.mem := rfl

@[simp] theorem Chip.commit_mem (c : Chip) : c.commit.mem = c.mem := by
  simp -implicitDefEqProofs [Chip.commit, apply_ite Chip.mem]

@[simp] theorem Chip.audioStart_mem (E : Nat) (c : Chip) : (c.audioStart E).mem = c.mem := by
  unfold Chip.audioStart
  dsimp only
  split_ifs <;> simp

end Sys2Proof.Machine

namespace Sys2Proof.Machine

/-! The SPI target and refused accesses of the bus -/

@[simp] theorem Chip.spiClose_mem (op : Byte) (err : Bool) (c : Chip) : (c.spiClose op err).mem = c.mem := by
  unfold Chip.spiClose
  split_ifs <;> simp

@[simp] theorem Chip.spiFailAt_mem (a : Nat) (c : Chip) : (c.spiFailAt a).mem = c.mem := rfl

@[simp] theorem Chip.refuse_wf {master : Byte} {write : Bool} {size addr cause : Nat} {c : Chip} (h : c.mem.bytes.wf) :
    (c.refuse master write size addr cause).mem.bytes.wf := by simp [Chip.refuse, h]

@[simp] theorem Chip.rearmBus_mem (c : Chip) : c.rearmBus.mem = c.mem := rfl

@[simp] theorem Chip.rearmMem_wf {c : Chip} (h : c.mem.bytes.wf) : c.rearmMem.mem.bytes.wf := h

@[simp] theorem Chip.lockRead_mem (master : Byte) (n : Nat) (c : Chip) : (c.lockRead master n).2.mem = c.mem := by
  unfold Chip.lockRead
  dsimp only
  split_ifs <;> simp

@[simp] theorem Chip.lockWrite_wf {master : Byte} {n : Nat} {value : Word} {c : Chip} (h : c.mem.bytes.wf) :
    (c.lockWrite master n value).2.mem.bytes.wf := by
  unfold Chip.lockWrite
  dsimp only
  split_ifs <;> simp [h]

@[simp] theorem Chip.freeLocks_mem (p : Byte → Bool) (c : Chip) : (c.freeLocks p).mem = c.mem := rfl

@[simp] theorem Chip.lockForce_mem (value : Word) (c : Chip) : (c.lockForce value).mem = c.mem := rfl

@[simp] theorem Chip.leaveService_mem (c : Chip) : c.leaveService.mem = c.mem := by
  unfold Chip.leaveService
  split_ifs <;> simp

@[simp] theorem Chip.serviceWrite_wf {master : Byte} {key : Nat} {c : Chip} (h : c.mem.bytes.wf) :
    (c.serviceWrite master key).2.mem.bytes.wf := by
  unfold Chip.serviceWrite
  split_ifs <;> simp [h]

@[simp] theorem Chip.ackWhere_wf {p : Rec → Bool} {c : Chip} (h : c.mem.bytes.wf) : (c.ackWhere p).mem.bytes.wf := by
  refine foldl_wf (fun d x form => ?_) h
  dsimp only
  split_ifs <;> simp -implicitDefEqProofs [form]

@[simp] theorem Chip.headAck_wf {c : Chip} (h : c.mem.bytes.wf) : c.headAck.mem.bytes.wf := by
  unfold Chip.headAck
  split <;> simp -implicitDefEqProofs [h]

@[simp] theorem Chip.clearOverflow_mem (c : Chip) : c.clearOverflow.mem = c.mem := rfl

@[simp] theorem Chip.reportWrite_mem (master : Byte) (addr : Nat) (status : Byte) (ok : Bool) (c : Chip) :
    (c.reportWrite master addr status ok).mem = c.mem := by
  unfold Chip.reportWrite
  split_ifs <;> simp

end Sys2Proof.Machine

namespace Sys2Proof.Machine

/-! Replies, mailboxes and semaphores of the host -/

@[simp] theorem Chip.countFull_mem (c : Chip) : c.countFull.mem = c.mem := rfl

@[simp] theorem Chip.ring_mem (i : Nat) (bits : Word) (c : Chip) : (c.ring i bits).mem = c.mem := rfl

@[simp] theorem Chip.ringMaster_mem (m : Byte) (bit : Nat) (c : Chip) : (c.ringMaster m bit).mem = c.mem := by
  unfold Chip.ringMaster
  split <;> simp

@[simp] theorem Chip.onMbxCh_mem (k : Nat) (f : MbxCh → MbxCh) (c : Chip) : (c.onMbxCh k f).mem = c.mem := rfl

@[simp] theorem Chip.mbxRefuse_wf {master : Byte} {k cause addr : Nat} {c : Chip} (h : c.mem.bytes.wf) :
    (c.mbxRefuse master k cause addr).2.mem.bytes.wf := by simp [Chip.mbxRefuse, h]

@[simp] theorem Chip.crossSettle_mem (c : Chip) : c.crossSettle.mem = c.mem := rfl

@[simp] theorem Chip.mbxDeliver_mem (k : Nat) (c : Chip) : (c.mbxDeliver k).mem = c.mem := by
  unfold Chip.mbxDeliver
  dsimp only
  split_ifs <;> simp

@[simp] theorem Chip.mbxPump_mem (c : Chip) : c.mbxPump.mem = c.mem := by
  refine foldl_mem fun d _ => ?_
  split
  · exact Chip.mbxDeliver_mem _ _
  · rfl

@[simp] theorem Chip.mbxSend_mem (k n : Nat) (c : Chip) : (c.mbxSend k n).mem = c.mem := by
  unfold Chip.mbxSend
  dsimp only
  split_ifs <;> simp

@[simp] theorem Chip.mbxNext_mem (k : Nat) (c : Chip) : (c.mbxNext k).mem = c.mem := by
  unfold Chip.mbxNext
  dsimp only
  repeat' split
  all_goals simp

@[simp] theorem Chip.mbxEnd_mem (k : Nat) (c : Chip) : (c.mbxEnd k).mem = c.mem := by simp [Chip.mbxEnd]

@[simp] theorem Chip.sendReply_wf {via : Transport} {generation : Nat} {session : BitVec 16} {words : List Word}
    {c : Chip} (h : c.mem.bytes.wf) :
    (c.sendReply via generation session words).mem.bytes.wf := by
  unfold Chip.sendReply
  dsimp only
  repeat' split
  all_goals simp [h]

@[simp] theorem Chip.reqProdWrite_wf {master : Byte} {v : BitVec 16} {c : Chip} (h : c.mem.bytes.wf) :
    (c.reqProdWrite master v).2.mem.bytes.wf := by
  unfold Chip.reqProdWrite
  split_ifs <;> simp [h]

@[simp] theorem Chip.rplConsWrite_wf {master : Byte} {v : BitVec 16} {c : Chip} (h : c.mem.bytes.wf) :
    (c.rplConsWrite master v).2.mem.bytes.wf := by
  unfold Chip.rplConsWrite
  split_ifs <;> simp [h]

@[simp] theorem Chip.coreFails_wf {core : Fin 2} {c : Chip} (h : c.mem.bytes.wf) : (c.coreFails core).mem.bytes.wf := by
  unfold Chip.coreFails
  dsimp only
  split_ifs <;> simp [h]

@[simp] theorem Chip.ringEntry_wf {c : Chip} (h : c.mem.bytes.wf) : c.ringEntry.mem.bytes.wf := by
  unfold Chip.ringEntry
  extract_lets hu a ws d len used e
  have corrected : e.mem.bytes.wf := Chip.correct_wf (Chip.correct_wf h)
  split_ifs
  · exact h
  · exact h
  · exact wf_of_mem (Chip.countFull_mem _) h
  split
  · exact Chip.coreTrap_wf corrected
  · exact wf_of_mem ((Chip.pulse_mem _ _).trans (Chip.enterStream_mem _ _)) corrected

@[simp] theorem Chip.irqClear_mem (v : Word) (c : Chip) : (c.irqClear v).mem = c.mem := rfl

@[simp] theorem Chip.pcieReset_mem (cause : PcieCause) (c : Chip) : (c.pcieReset cause).mem = c.mem := by
  unfold Chip.pcieReset
  dsimp only
  split_ifs <;> simp

@[simp] theorem Chip.mbxGo_wf {master : Byte} {k n : Nat} {c : Chip} (h : c.mem.bytes.wf) :
    (c.mbxGo master k n).2.mem.bytes.wf := by
  unfold Chip.mbxGo
  dsimp only
  split_ifs <;> simp [h]

@[simp] theorem Chip.mbxAck_wf {master : Byte} {k : Nat} {c : Chip} (h : c.mem.bytes.wf) :
    (c.mbxAck master k).2.mem.bytes.wf := by
  unfold Chip.mbxAck
  dsimp only
  split_ifs <;> simp [h]

@[simp] theorem Chip.mbxCancel_wf {master : Byte} {k : Nat} {c : Chip} (h : c.mem.bytes.wf) :
    (c.mbxCancel master k).2.mem.bytes.wf := by
  unfold Chip.mbxCancel
  dsimp only
  split_ifs <;> simp [h]

@[simp] theorem Chip.mbxMsg_wf {master : Byte} {k i : Nat} {v : Word} {c : Chip} (h : c.mem.bytes.wf) :
    (c.mbxMsg master k i v).2.mem.bytes.wf := by
  unfold Chip.mbxMsg
  dsimp only
  split_ifs <;> simp [h]

@[simp] theorem Chip.mbxBind_wf {master : Byte} {k : Nat} {v : Word} {c : Chip} (h : c.mem.bytes.wf) :
    (c.mbxBind master k v).2.mem.bytes.wf := by
  unfold Chip.mbxBind
  dsimp only
  split_ifs <;> simp [h]

@[simp] theorem Chip.ringWrite16_mem (i : Nat) (v : Word) (c : Chip) : (c.ringWrite16 i v).mem = c.mem := rfl

end Sys2Proof.Machine

namespace Sys2Proof.Machine

/-! PTP messages and announces -/

@[simp] theorem Chip.sendPtp_wf {m : Nat} {f : TxFrame} {c : Chip} (h : c.mem.bytes.wf) : (c.sendPtp m f).mem.bytes.wf := by
  unfold Chip.sendPtp
  split_ifs <;> simp [h]

@[simp] theorem Chip.takePtp_wf {m : Nat} {c : Chip} (h : c.mem.bytes.wf) : (c.takePtp m).mem.bytes.wf :=
  by simp [Chip.takePtp, h]

@[simp] theorem Chip.announceFollow_mem (m : Nat) (a : AnnounceMsg) (c : Chip) : (c.announceFollow m a).mem = c.mem := by
  unfold Chip.announceFollow
  dsimp only
  repeat' split
  all_goals simp

@[simp] theorem Chip.announceMaster_mem (m : Nat) (a : AnnounceMsg) (c : Chip) : (c.announceMaster m a).mem = c.mem := by
  unfold Chip.announceMaster
  dsimp only
  split_ifs <;> simp

@[simp] theorem Chip.ptpSync_wf {m origin ingress : Nat} {correction : Int} {c : Chip} (h : c.mem.bytes.wf) :
    (c.ptpSync m origin ingress correction).mem.bytes.wf := by
  unfold Chip.ptpSync
  dsimp only
  split_ifs <;> simp [h]

end Sys2Proof.Machine

namespace Sys2Proof.Machine

/-! Latching reads of registers -/

@[simp] theorem Chip.latchBlk_mem (c : Chip) : c.latchBlk.mem = c.mem := rfl

@[simp] theorem Chip.latchLand_mem (c : Chip) : c.latchLand.mem = c.mem := rfl

@[simp] theorem Chip.latchZ_mem (m : Nat) (c : Chip) : (c.latchZ m).mem = c.mem := rfl

@[simp] theorem Chip.latchPtp_mem (c : Chip) : c.latchPtp.mem = c.mem := rfl

@[simp] theorem Chip.latchFirst_mem (c : Chip) : c.latchFirst.mem = c.mem := rfl

@[simp] theorem Chip.latchHead_mem (c : Chip) : c.latchHead.mem = c.mem := rfl

@[simp] theorem Chip.csrTouch_mem (master : Byte) (a : Nat) (c : Chip) : (c.csrTouch master a).mem = c.mem := by
  unfold Chip.csrTouch
  split
  · simp
  · simp
  · split <;> simp

@[simp] theorem csrRead_mem (master : Byte) (a : Nat) (h : Hamper) (c : Chip) : (csrRead master a h c).2.mem = c.mem :=
  by simp [csrRead]

@[simp] theorem Chip.hostRead_wf {master a n : Nat} {c : Chip} (h : c.mem.bytes.wf) :
    (c.hostRead master a n).2.mem.bytes.wf := by
  unfold Chip.hostRead
  dsimp only
  repeat' split
  all_goals simp [h]

end Sys2Proof.Machine

namespace Sys2Proof.Machine

/-! Writes of registers -/

@[simp] theorem pokeSys_mem (o : Nat) (v : Word) (c : Chip) : (pokeSys o v c).mem = c.mem := by
  unfold pokeSys
  split <;> simp

@[simp] theorem pokeBus_wf {master : Byte} {o : Nat} {v : Word} {c : Chip} (h : c.mem.bytes.wf) :
    (pokeBus master o v c).2.mem.bytes.wf := by
  unfold pokeBus
  split
  · exact Chip.lockWrite_wf h
  split
  · exact h
  · exact Chip.serviceWrite_wf h
  · exact wf_of_mem (Chip.lockForce_mem _ _) h
  · exact h

@[simp] theorem pokeMem_wf {o : Nat} {v : Word} {c : Chip} (h : c.mem.bytes.wf) : (pokeMem o v c).mem.bytes.wf := by
  unfold pokeMem
  split_ifs <;> simp [h]

@[simp] theorem pokeErr_wf {o : Nat} {v : Word} {c : Chip} (h : c.mem.bytes.wf) : (pokeErr o v c).mem.bytes.wf := by
  unfold pokeErr
  dsimp only
  repeat' split
  all_goals simp [h]

@[simp] theorem Chip.mbxCtrlWrite_wf {master : Byte} {k : Nat} {v : Word} {c : Chip} (h : c.mem.bytes.wf) :
    (c.mbxCtrlWrite master k v).2.mem.bytes.wf := by
  unfold Chip.mbxCtrlWrite
  extract_lets both x r r1 r2
  have first : r1.2.mem.bytes.wf := ite_snd_wf (Chip.mbxAck_wf h) h
  have second : r2.2.mem.bytes.wf := ite_snd_wf (Chip.mbxCancel_wf first) first
  split_ifs
  · exact Chip.mbxRefuse_wf h
  · exact Chip.mbxRefuse_wf h
  · exact Chip.mbxGo_wf second
  · exact second
  · exact second

@[simp] theorem Chip.bellWrite_wf {master : Byte} {i : Nat} {mask : Bool} {a : Nat} {v : Word} {c : Chip} (h : c.mem.bytes.wf) :
    (c.bellWrite master i mask a v).2.mem.bytes.wf := by
  unfold Chip.bellWrite
  split_ifs <;> simp [h]

@[simp] theorem pokeMbx_wf {master : Byte} {o : Nat} {v : Word} {c : Chip} (h : c.mem.bytes.wf) :
    (pokeMbx master o v c).2.mem.bytes.wf := by
  unfold pokeMbx
  dsimp only
  repeat' split
  all_goals simp -implicitDefEqProofs [h]

@[simp] theorem pokeHost_wf {master : Byte} {o : Nat} {v : Word} {c : Chip} (h : c.mem.bytes.wf) :
    (pokeHost master o v c).2.mem.bytes.wf := by
  unfold pokeHost
  dsimp only
  repeat' split
  all_goals simp -implicitDefEqProofs [h]

@[simp] theorem pokeLink_wf {m o : Nat} {v : Word} {c : Chip} (h : c.mem.bytes.wf) : (pokeLink m o v c).mem.bytes.wf := by
  unfold pokeLink
  dsimp only
  repeat' split
  all_goals simp [h]

@[simp] theorem pokeDrop_wf {o : Nat} {v : Word} {c : Chip} (h : c.mem.bytes.wf) : (pokeDrop o v c).mem.bytes.wf := by
  unfold pokeDrop
  split
  · exact h
  split
  · exact h
  · exact ite_wf (Chip.dropEnable_wf h) h
  · exact h

@[simp] theorem pokePtp_mem (o : Nat) (v : Word) (c : Chip) : (pokePtp o v c).mem = c.mem := by
  unfold pokePtp
  split
  · rfl
  · split_ifs <;> rfl

@[simp] theorem pokeSap_mem (o : Nat) (v : Word) (c : Chip) : (pokeSap o v c).mem = c.mem := by
  unfold pokeSap
  split <;> simp

@[simp] theorem pokeAin_mem (o : Nat) (v : Word) (c : Chip) : (pokeAin o v c).mem = c.mem := by
  unfold pokeAin
  split
  · rfl
  · split_ifs <;> rfl

@[simp] theorem pokeMod_mem (o : Nat) (v : Word) (c : Chip) : (pokeMod o v c).mem = c.mem := by
  unfold pokeMod
  split
  · rfl
  · split <;> rfl

@[simp] theorem pokeTwin_mem (o : Nat) (v : Word) (c : Chip) : (pokeTwin o v c).mem = c.mem := by
  unfold pokeTwin
  split <;> simp

@[simp] theorem pokeGraph_mem (o : Nat) (v : Word) (c : Chip) : (pokeGraph o v c).mem = c.mem := by
  unfold pokeGraph
  split <;> simp

@[simp] theorem csrPoke_wf {master : Byte} {a : Nat} {v : Word} {c : Chip} (h : c.mem.bytes.wf) :
    (csrPoke master a v c).2.mem.bytes.wf := by
  fun_cases csrPoke master a v c
  all_goals first | exact h | simp [h, apply_ite Chip.mem]

@[simp] theorem Chip.memStore_wf {master : Byte} {a : Nat} {bs : List Byte} {c : Chip} (h : c.mem.bytes.wf) :
    (c.memStore master a bs).2.mem.bytes.wf := by
  unfold Chip.memStore
  split_ifs <;> simp [h]

@[simp] theorem Chip.busWrite_wf {master : Byte} {a : Nat} {bs : List Byte} {c : Chip} (h : c.mem.bytes.wf) :
    (c.busWrite master a bs).2.mem.bytes.wf := by
  unfold Chip.busWrite
  dsimp only
  repeat' split
  all_goals simp [h]

@[simp] theorem busRead_wf {master : Byte} {a n : Nat} {p : Hamper × Chip} (h : p.2.mem.bytes.wf) :
    (busRead master a n p).2.mem.bytes.wf := by
  unfold busRead
  dsimp only
  repeat' split
  all_goals simp [h]

@[simp] theorem Chip.busWritePart_wf {a : Nat} {bs : List (Option Byte)} {c : Chip} (h : c.mem.bytes.wf) :
    (c.busWritePart a bs).2.mem.bytes.wf := by
  unfold Chip.busWritePart
  dsimp only
  repeat' split
  all_goals simp [h]

@[simp] theorem spiWriteWords_wf {a : Nat} {ws : List Word} {r : Bool × Chip} (h : r.2.mem.bytes.wf) :
    (spiWriteWords a ws r).2.mem.bytes.wf := by
  fun_induction spiWriteWords a ws r with
  | case1 a r => exact h
  | case2 a r w ws q ih =>
    have written : q.2.mem.bytes.wf := Chip.busWrite_wf h
    exact ih (ite_wf written (wf_of_mem (Chip.spiFailAt_mem _ _) written))

@[simp] theorem spiReadWords_wf {hm : Hamper} {late : List Bool} {a : Nat} {c : Chip} (h : c.mem.bytes.wf) :
    (spiReadWords hm late a c).2.mem.bytes.wf := by
  fun_induction spiReadWords hm late a c with
  | case1 a c => exact h
  | case2 a c late ls r v q ih =>
    have read : r.2.mem.bytes.wf := busRead_wf h
    exact ih (ite_wf read (wf_of_mem (Chip.spiFailAt_mem _ _) read))

end Sys2Proof.Machine

namespace Sys2Proof.Machine

/-! Replies to commands, and the orders of a packet -/

@[simp] theorem Chip.countRefusal_mem (words : List Word) (c : Chip) : (c.countRefusal words).mem = c.mem := by
  unfold Chip.countRefusal
  split_ifs <;> simp

@[simp] theorem Chip.replyOut_wf {hd : Hdr} {gen : Nat} {words : List Word} {c : Chip} (h : c.mem.bytes.wf) :
    (c.replyOut hd gen words).mem.bytes.wf := by
  simp -implicitDefEqProofs [Chip.replyOut, h]

@[simp] theorem Chip.answer_wf {hd : Hdr} {gen opcode : Nat} {r : Rep} {c : Chip} (h : c.mem.bytes.wf) :
    (c.answer hd gen opcode r).mem.bytes.wf := by
  simp -implicitDefEqProofs [Chip.answer, h]

@[simp] theorem Chip.forward_mem (opcode : Nat) (h : Hdr) (gen : Nat) (sent kept : List Word) (count : Bool) (c : Chip) :
    (c.forward opcode h gen sent kept count).mem = c.mem := rfl

/-- An order keeps the form where the command that it runs does. -/
@[simp] theorem Chip.order_wf {opcode : Nat} {hd : Hdr} {gen : Nat} {params : List Word} {run : Chip → Option Rep × Chip}
    {c : Chip}     (runs : ∀ d : Chip, d.mem.bytes.wf → (run d).2.mem.bytes.wf) (h : c.mem.bytes.wf) :
    (c.order opcode hd gen params run).mem.bytes.wf := by
  unfold Chip.order
  extract_lets go joining
  have go_wf : ∀ d : Chip, d.mem.bytes.wf → (go d).mem.bytes.wf := by
    intro d form
    have ran := runs d form
    unfold go
    split
    · exact Chip.answer_wf form
    split
    · next found =>
        rw [found] at ran
        exact Chip.answer_wf ran
    · next found =>
        rw [found] at ran
        exact ran
  clear_value go
  have kept : joining.mem.bytes.wf := ite_wf h h
  split_ifs
  · exact go_wf c h
  · split
    · exact Chip.answer_wf h
    · exact wf_of_mem (Chip.forward_mem _ _ _ _ _ _ _) h
  · exact go_wf c h
  · exact Chip.answer_wf h
  · exact go_wf c h
  · exact wf_of_mem (Chip.forward_mem _ _ _ _ _ _ _) kept
  · exact go_wf c h

@[simp] theorem Chip.flushFrames_mem (m : Nat) (c : Chip) : (c.flushFrames m).mem = c.mem := by
  simp -implicitDefEqProofs [Chip.flushFrames]

@[simp] theorem reboot_wf {p : Hamper × Chip} (h : p.2.mem.bytes.wf) : (reboot p).2.mem.bytes.wf := by
  unfold reboot
  split_ifs
  · exact restart_wf
  · exact h

@[simp] theorem Chip.takes_mem (c : Chip) : c.takes.mem = c.mem := rfl

end Sys2Proof.Machine

namespace Sys2Proof.Machine

/-! Commands of the tack set -/

@[simp] theorem Chip.onFir_mem (m : Nat) (f : FirSt → FirSt) (c : Chip) : (c.onFir m f).mem = c.mem := rfl

@[simp] theorem Chip.tackOne_mem (c : Chip) (q : Nat × Int) : (c.tackOne q).mem = c.mem := by
  unfold Chip.tackOne
  split <;> simp

@[simp] theorem Chip.tackSet_mem (pairs : List (Word × Dword)) (c : Chip) : (c.tackSet pairs).2.mem = c.mem := by
  unfold Chip.tackSet
  dsimp only
  repeat' split
  all_goals simp

@[simp] theorem Chip.cmdTackSet_mem (h : Hdr) (gen : Nat) (pairs : List (Word × Dword)) (c : Chip) :
    (c.cmdTackSet h gen pairs).2.mem = c.mem := by
  unfold Chip.cmdTackSet
  dsimp only
  repeat' split
  all_goals simp

@[simp] theorem Chip.cmdTackGet_mem (h : Hdr) (gen : Nat) (ids : List Word) (c : Chip) :
    (c.cmdTackGet h gen ids).2.mem = c.mem := by
  unfold Chip.cmdTackGet
  dsimp only
  split_ifs <;> simp

@[simp] theorem Chip.clearTack_mem (c : Chip) : c.clearTack.mem = c.mem := rfl

@[simp] theorem Chip.cmdTackClear_mem (h : Hdr) (gen : Nat) (c : Chip) : (c.cmdTackClear h gen).2.mem = c.mem := by
  unfold Chip.cmdTackClear
  split_ifs <;> simp

@[simp] theorem Chip.cmdTackList_mem (h : Hdr) (gen : Nat) (first : Word) (c : Chip) :
    (c.cmdTackList h gen first).2.mem = c.mem := by
  unfold Chip.cmdTackList
  dsimp only
  split_ifs <;> simp

@[simp] theorem Chip.cmdPressedGet_mem (h : Hdr) (gen : Nat) (ids : List Word) (c : Chip) :
    (c.cmdPressedGet h gen ids).2.mem = c.mem := by
  unfold Chip.cmdPressedGet
  dsimp only
  split_ifs <;> simp

@[simp] theorem Chip.joinReply_mem (opcode : Nat) (params ws : List Word) (status : Nat) (c : Chip) :
    (c.joinReply opcode params ws status).2.mem = c.mem := by
  unfold Chip.joinReply
  dsimp only
  repeat' split
  all_goals simp

end Sys2Proof.Machine

namespace Sys2Proof.Machine

/-! Presses and their mirror records -/

@[simp] theorem Chip.reservePages_wf {rings : List (Nat × Nat)} {c : Chip} (h : c.mem.bytes.wf) :
    (c.reservePages rings).2.mem.bytes.wf := by
  unfold Chip.reservePages
  extract_lets free short
  clear_value short
  split
  · exact h
  · exact foldl_snd_wf (fun _ _ form => Chip.allocPages_wf form) h

@[simp] theorem Chip.fillBlocks_mem (n : Nat) (c : Chip) : (c.fillBlocks n).2.mem = c.mem := by
  unfold Chip.fillBlocks
  split_ifs <;> simp

@[simp] theorem Chip.sendMirror_mem (r : MirrorRec) (c : Chip) : (c.sendMirror r).mem = c.mem := rfl

@[simp] theorem Chip.rebuildStart_mem (c : Chip) : c.rebuildStart.mem = c.mem := by
  unfold Chip.rebuildStart
  split_ifs <;> simp

@[simp] theorem Chip.rebuildDrop_mem (c : Chip) : c.rebuildDrop.mem = c.mem := by
  unfold Chip.rebuildDrop
  split_ifs <;> simp

@[simp] theorem Chip.rebuildAbandon_mem (c : Chip) : c.rebuildAbandon.mem = c.mem := by simp [Chip.rebuildAbandon]

@[simp] theorem Chip.firAccept_mem (items : List (Nat × Int)) (c : Chip) : (c.firAccept items).mem = c.mem := by
  simp -implicitDefEqProofs [Chip.firAccept]

@[simp] theorem Chip.schedule_mem (q : Press) (c : Chip) : (c.schedule q).mem = c.mem := by simp [Chip.schedule]

@[simp] theorem Chip.validate_wf {named : Option Nat} {tack : List (Nat × Int)} {c : Chip} (h : c.mem.bytes.wf) :
    (c.validate named tack).2.mem.bytes.wf := by
  unfold Chip.validate
  extract_lets p prior rings r
  have reserved : (r.2.reservePages rings).2.mem.bytes.wf := Chip.reservePages_wf (wf_of_mem (Chip.fillBlocks_mem _ _) h)
  split
  · exact h
  split
  · next found =>
      rw [found] at reserved
      exact reserved
  · next found =>
      rw [found] at reserved
      exact reserved

@[simp] theorem Chip.accept_mem (h : Hdr) (named : Option Nat) (v : List (Nat × List Nat) × Nat) (c : Chip) :
    (c.accept h named v).2.mem = c.mem := by
  unfold Chip.accept
  dsimp only
  repeat' split
  all_goals simp

@[simp] theorem Chip.cmdPress_wf {hd : Hdr} {gen : Nat} {named : Option Nat} {c : Chip} (h : c.mem.bytes.wf) :
    (c.cmdPress hd gen named).2.mem.bytes.wf := by
  have checked : (c.validate named c.cmd.tack).2.mem.bytes.wf := Chip.validate_wf h
  unfold Chip.cmdPress
  split
  · exact h
  split
  · next found =>
      rw [found] at checked
      exact checked
  · next v d found =>
      rw [found] at checked
      split
      · exact wf_of_mem (Chip.sendMirror_mem (.tackSet (d.mirrored d.cmd.tack)) d) checked
      · exact wf_of_mem (Chip.accept_mem _ _ _ d) checked

@[simp] theorem Chip.rebuildComplete_mem (N : Nat) (c : Chip) : (c.rebuildComplete N).mem = c.mem := by
  unfold Chip.rebuildComplete
  dsimp only
  repeat' split
  all_goals simp

@[simp] theorem Chip.cmdRebuild_mem (h : Hdr) (c : Chip) : (c.cmdRebuild h).2.mem = c.mem := by
  unfold Chip.cmdRebuild
  repeat' split
  all_goals simp -implicitDefEqProofs

@[simp] theorem Chip.coldAccept_mem (p : Profile) (L A slot : Nat) (items : List (Nat × Int)) (c : Chip) :
    (c.coldAccept p L A slot items).mem = c.mem := by simp [Chip.coldAccept]

@[simp] theorem Chip.cmdProfileSet_mem (h : Hdr) (code : Word) (named : Nat) (c : Chip) :
    (c.cmdProfileSet h code named).2.mem = c.mem := by
  unfold Chip.cmdProfileSet
  dsimp only
  repeat' split
  all_goals simp

@[simp] theorem Chip.withdraw_mem (q : Press) (c : Chip) : (c.withdraw q).mem = c.mem := by
  simp -implicitDefEqProofs [Chip.withdraw, apply_ite Chip.mem]

end Sys2Proof.Machine

namespace Sys2Proof.Machine

/-! The handlers of the other commands -/

@[simp] theorem Chip.cmdHello_mem (level : Word) (c : Chip) : (c.cmdHello level).2.mem = c.mem := by
  unfold Chip.cmdHello
  split_ifs <;> simp

@[simp] theorem Chip.cmdGetVersion_mem (c : Chip) : c.cmdGetVersion.2.mem = c.mem := rfl

@[simp] theorem Chip.cmdPegReport_mem (c : Chip) : c.cmdPegReport.2.mem = c.mem := rfl

@[simp] theorem Chip.cmdSessionOpen_mem (h : Hdr) (nonce : List Word) (c : Chip) : (c.cmdSessionOpen h nonce).2.mem = c.mem := by
  unfold Chip.cmdSessionOpen
  split_ifs <;> simp

@[simp] theorem Chip.cmdJobStatus_mem (slot : Word) (c : Chip) : (c.cmdJobStatus slot).2.mem = c.mem := rfl

@[simp] theorem Chip.cmdJobResult_mem (slot first count : Word) (c : Chip) :
    (c.cmdJobResult slot first count).2.mem = c.mem := by
  unfold Chip.cmdJobResult
  dsimp only
  split_ifs <;> simp

@[simp] theorem Chip.jobStop_mem (k : Nat) (c : Chip) : (c.jobStop k).mem = c.mem := by
  unfold Chip.jobStop
  dsimp only
  repeat' split
  all_goals simp

@[simp] theorem Chip.abandonReply_mem (k status : Nat) (c : Chip) : (c.abandonReply k status).2.mem = c.mem := rfl

@[simp] theorem Chip.cmdJobAbandon_mem (slot w1 : Word) (c : Chip) : (c.cmdJobAbandon slot w1).2.mem = c.mem := by
  unfold Chip.cmdJobAbandon
  dsimp only
  repeat' split
  all_goals simp

@[simp] theorem Chip.cmdSnapshot_mem (h : Hdr) (gen : Nat) (ranges : List (Word × Word)) (c : Chip) :
    (c.cmdSnapshot h gen ranges).2.mem = c.mem := by
  unfold Chip.cmdSnapshot
  dsimp only
  repeat' split
  all_goals simp

@[simp] theorem Chip.zNow_mem (a : Nat) (c : Chip) : (c.zNow a).mem = c.mem := by
  unfold Chip.zNow
  split_ifs <;> simp

@[simp] theorem snapWord_wf {hm : Hamper} {a : Nat} {c : Chip} (h : c.mem.bytes.wf) : (snapWord hm a c).2.mem.bytes.wf := by
  have read : (c.hostRead 0x01 a 4).2.mem.bytes.wf := Chip.hostRead_wf h
  unfold snapWord
  split
  · exact h
  split
  · next found =>
      rw [found] at read
      exact read
  · next found =>
      rw [found] at read
      exact read

@[simp] theorem snapWords_wf {hm : Hamper} {ranges : List (Nat × Nat)} {c : Chip} (h : c.mem.bytes.wf) :
    (snapWords hm ranges c).2.mem.bytes.wf := foldl_snd_wf (fun _ _ form => snapWord_wf form) h

@[simp] theorem snapCapture_wf {hm : Hamper} {N : Nat} {c : Chip} (h : c.mem.bytes.wf) : (snapCapture hm N c).mem.bytes.wf := by
  refine foldl_wf (fun d x form => ?_) h
  dsimp only
  repeat' split
  all_goals simp -implicitDefEqProofs [form]

@[simp] theorem Chip.cmdLedgerRead_mem (c : Chip) : c.cmdLedgerRead.2.mem = c.mem := rfl

@[simp] theorem Chip.cmdCountersRead_mem (set first count : Word) (c : Chip) :
    (c.cmdCountersRead set first count).2.mem = c.mem := by
  unfold Chip.cmdCountersRead
  dsimp only
  split_ifs <;> simp

@[simp] theorem Chip.cmdErrRead_mem (w0 w1 : Word) (c : Chip) : (c.cmdErrRead w0 w1).2.mem = c.mem := by
  unfold Chip.cmdErrRead
  split_ifs <;> simp

@[simp] theorem Chip.cmdErrAck_wf {code : Word} {blk : Dword} {c : Chip} (h : c.mem.bytes.wf) :
    (c.cmdErrAck code blk).2.mem.bytes.wf := by
  unfold Chip.cmdErrAck
  dsimp only
  split_ifs <;> simp [h]

@[simp] theorem Chip.cmdSafeExit_mem (c : Chip) : c.cmdSafeExit.2.mem = c.mem := by
  unfold Chip.cmdSafeExit
  split_ifs <;> simp

end Sys2Proof.Machine

namespace Sys2Proof.Machine

/-! Commands that start jobs, and their ends -/

@[simp] theorem Chip.memJob_mem (opcode : Nat) (h : Hdr) (t : Nat) (param : List Nat) (len : Nat) (c : Chip) :
    (c.memJob opcode h t param len).2.mem = c.mem := by
  unfold Chip.memJob
  split <;> simp

@[simp] theorem Chip.cmdRinse_mem (h : Hdr) (start len : Word) (c : Chip) : (c.cmdRinse h start len).2.mem = c.mem := by
  unfold Chip.cmdRinse
  repeat' split
  all_goals simp -implicitDefEqProofs

@[simp] theorem Chip.cmdFill_mem (h : Hdr) (start len value tag : Word) (c : Chip) :
    (c.cmdFill h start len value tag).2.mem = c.mem := by
  unfold Chip.cmdFill
  repeat' split
  all_goals simp -implicitDefEqProofs

@[simp] theorem Chip.rinseEnd_wf {k : Nat} {find : JobFind} {c : Chip} (h : c.mem.bytes.wf) :
    (c.rinseEnd k find).mem.bytes.wf := by
  refine wf_of_mem (Chip.endJob_mem _ _ _ _ _) (foldl_wf (fun d w form => ?_) (Chip.strike_wf h))
  split
  · exact form
  · exact Chip.darn_wf form
  · exact Chip.memEvent_wf form

@[simp] theorem Chip.fillEnd_wf {k : Nat} {c : Chip} (h : c.mem.bytes.wf) : (c.fillEnd k).mem.bytes.wf :=
  by simp [Chip.fillEnd, h]

@[simp] theorem Chip.started_mem (k opcode : Nat) (h : Hdr) (param : List Nat) (n : Nat) (c : Chip) :
    (c.started k opcode h param n).2.mem = c.mem := rfl

@[simp] theorem Chip.cmdLineSweep_mem (h : Hdr) (groups : Word) (c : Chip) : (c.cmdLineSweep h groups).2.mem = c.mem := by
  unfold Chip.cmdLineSweep
  dsimp only
  repeat' split
  all_goals simp

@[simp] theorem Chip.cmdPilotMeasure_mem (h : Hdr) (mask : Dword) (window : Word) (c : Chip) :
    (c.cmdPilotMeasure h mask window).2.mem = c.mem := by
  unfold Chip.cmdPilotMeasure
  repeat' split
  all_goals simp -implicitDefEqProofs

@[simp] theorem Chip.cmdChannelRetry_mem (mask : Dword) (c : Chip) : (c.cmdChannelRetry mask).2.mem = c.mem := by
  unfold Chip.cmdChannelRetry
  dsimp only
  split_ifs <;> simp -implicitDefEqProofs

@[simp] theorem Chip.cmdSelfTest_mem (h : Hdr) (tests : Word) (c : Chip) : (c.cmdSelfTest h tests).2.mem = c.mem := by
  unfold Chip.cmdSelfTest
  dsimp only
  repeat' split
  all_goals simp

@[simp] theorem Chip.pilotEnd_mem (k : Nat) (c : Chip) : (c.pilotEnd k).mem = c.mem := by
  simp -implicitDefEqProofs [Chip.pilotEnd, apply_ite Chip.mem]

@[simp] theorem Chip.tableFail_mem (i : Nat) (c : Chip) : (c.tableFail i).mem = c.mem := rfl

@[simp] theorem Chip.testEnds_mem (i : Nat) (w : Word) (c : Chip) : (c.testEnds i w).mem = c.mem := by
  unfold Chip.testEnds
  dsimp only
  repeat' split
  all_goals simp

@[simp] theorem Chip.refTestTurn_mem (named : List Nat) (c : Chip) : (c.refTestTurn named).mem = c.mem := by
  unfold Chip.refTestTurn
  split_ifs <;> simp

@[simp] theorem Chip.selfTestEnd_mem (k : Nat) (find : JobFind) (c : Chip) : (c.selfTestEnd k find).mem = c.mem := by
  unfold Chip.selfTestEnd
  dsimp only
  split_ifs <;> simp

@[simp] theorem Chip.cmdRefForce_mem (input : Word) (c : Chip) : (c.cmdRefForce input).2.mem = c.mem := by
  unfold Chip.cmdRefForce
  dsimp only
  split_ifs <;> simp

@[simp] theorem Chip.cmdRefClear_mem (c : Chip) : c.cmdRefClear.2.mem = c.mem := by simp [Chip.cmdRefClear]

@[simp] theorem Chip.cmdTwinMend_mem (h : Hdr) (mask : Dword) (c : Chip) : (c.cmdTwinMend h mask).2.mem = c.mem := by
  unfold Chip.cmdTwinMend
  repeat' split
  all_goals first | rfl | simp -implicitDefEqProofs [-List.foldl_reverse, apply_ite Chip.mem]

@[simp] theorem Chip.mendJobEnd_mem (c : Chip) : c.mendJobEnd.mem = c.mem := by
  unfold Chip.mendJobEnd
  dsimp only
  repeat' split
  all_goals simp

@[simp] theorem Chip.swapAccept_mem (c : Chip) : c.swapAccept.2.mem = c.mem := by
  unfold Chip.swapAccept
  split_ifs <;> simp

@[simp] theorem Chip.cmdTwinSwap_mem (h : Hdr) (gen : Nat) (c : Chip) : (c.cmdTwinSwap h gen).2.mem = c.mem := by
  unfold Chip.cmdTwinSwap
  split_ifs <;> simp

@[simp] theorem Chip.cmdTwinForceLead_mem (h : Hdr) (c : Chip) : (c.cmdTwinForceLead h).2.mem = c.mem := by
  unfold Chip.cmdTwinForceLead
  dsimp only
  split_ifs <;> simp

@[simp] theorem Chip.cmdImageStage_mem (slot offset : Word) (data : List Word) (c : Chip) :
    (c.cmdImageStage slot offset data).2.mem = c.mem := by
  unfold Chip.cmdImageStage
  dsimp only
  split_ifs <;> simp

@[simp] theorem Chip.cmdImageVerify_mem (h : Hdr) (slot : Word) (c : Chip) : (c.cmdImageVerify h slot).2.mem = c.mem := by
  unfold Chip.cmdImageVerify
  repeat' split
  all_goals simp -implicitDefEqProofs

@[simp] theorem Chip.verifyEnd_mem (k : Nat) (c : Chip) : (c.verifyEnd k).mem = c.mem := by
  unfold Chip.verifyEnd
  dsimp only
  split_ifs <;> simp

@[simp] theorem Chip.cmdImageActivate_mem (h : Hdr) (w0 : Word) (c : Chip) : (c.cmdImageActivate h w0).2.mem = c.mem := by
  unfold Chip.cmdImageActivate
  dsimp only
  split_ifs <;> simp

@[simp] theorem Chip.jobStart_mem (k : Nat) (c : Chip) : (c.jobStart k).mem = c.mem := by
  unfold Chip.jobStart
  dsimp only
  repeat' split
  all_goals simp -implicitDefEqProofs

@[simp] theorem Chip.jobEnd_wf {k : Nat} {find : JobFind} {c : Chip} (h : c.mem.bytes.wf) : (c.jobEnd k find).mem.bytes.wf := by
  unfold Chip.jobEnd
  dsimp only
  repeat' split
  all_goals simp [h]

end Sys2Proof.Machine

namespace Sys2Proof.Machine

/-! Commands of the pair, and frames of the twin -/

@[simp] theorem Chip.joined_mem (a : Await) (words : List Word) (c : Chip) : (c.joined a words).2.mem = c.mem :=
  by simp [Chip.joined]

@[simp] theorem Chip.takeReply_wf {hd : Hdr} {words : List Word} {c : Chip} (h : c.mem.bytes.wf) :
    (c.takeReply hd words).mem.bytes.wf := by
  unfold Chip.takeReply
  dsimp only
  repeat' split
  all_goals simp -implicitDefEqProofs [h]

@[simp] theorem Chip.unpack_mem (items : List (Word × Dword)) (c : Chip) : (c.unpack items).2.mem = c.mem := by
  refine foldl_snd_mem fun a q => ?_
  dsimp only
  split
  · rfl
  · split <;> rfl

@[simp] theorem Chip.freeReserved_mem (c : Chip) : c.freeReserved.mem = c.mem := rfl

@[simp] theorem Chip.takeTackSet_wf {items : List (Word × Dword)} {c : Chip} (h : c.mem.bytes.wf) :
    (c.takeTackSet items).mem.bytes.wf := by
  unfold Chip.takeTackSet
  extract_lets d r tack
  have checked : (r.2.validate none tack).2.mem.bytes.wf := Chip.validate_wf (wf_of_mem (Chip.unpack_mem _ _) h)
  split
  · next found =>
      rw [found] at checked
      exact wf_of_mem (Chip.sendMirror_mem _ _) checked
  · next v e found =>
      rw [found] at checked
      refine wf_of_mem ?_ checked
      simp -implicitDefEqProofs [apply_ite Chip.mem]

@[simp] theorem Chip.takeRebuild_mem (items : List (Word × Dword)) (c : Chip) : (c.takeRebuild items).mem = c.mem := by
  simp -implicitDefEqProofs [Chip.takeRebuild]

@[simp] theorem Chip.swapVerdict_wf {ok : Bool} {a : Await} {c : Chip} (h : c.mem.bytes.wf) :
    (c.swapVerdict ok a).mem.bytes.wf := by
  simp -implicitDefEqProofs [Chip.swapVerdict, h]

@[simp] theorem Chip.takeVerdict_wf {status : Byte} {id : Word} {c : Chip} (h : c.mem.bytes.wf) :
    (c.takeVerdict status id).mem.bytes.wf := by
  unfold Chip.takeVerdict
  dsimp only
  repeat' split
  all_goals simp -implicitDefEqProofs [h]

@[simp] theorem Chip.takePress_mem (L : Nat) (items : List (Word × Dword)) (named : Bool) (c : Chip) :
    (c.takePress L items named).mem = c.mem := by
  simp -implicitDefEqProofs [Chip.takePress]

@[simp] theorem Chip.takeProfile_mem (p : Profile) (L A : Nat) (items : List (Word × Dword)) (c : Chip) :
    (c.takeProfile p L A items).mem = c.mem := by
  simp -implicitDefEqProofs [Chip.takeProfile]

@[simp] theorem Chip.takeWithdraw_mem (L : Nat) (c : Chip) : (c.takeWithdraw L).mem = c.mem := by
  unfold Chip.takeWithdraw
  dsimp only
  repeat' split
  all_goals simp

@[simp] theorem Chip.takeRecord_wf {r : MirrorRec} {c : Chip} (h : c.mem.bytes.wf) : (c.takeRecord r).mem.bytes.wf := by
  unfold Chip.takeRecord
  split <;> simp -implicitDefEqProofs [h]

@[simp] theorem Chip.takeRecords_wf {rs : List MirrorRec} {n : Nat} {c : Chip} (h : c.mem.bytes.wf) :
    (Chip.takeRecords rs n c).2.mem.bytes.wf := by
  fun_induction Chip.takeRecords rs n c with
  | case1 n c => exact h
  | case2 => exact h
  | case3 _ _ _ _ _ _ ih => exact ih (Chip.takeRecord_wf h)

@[simp] theorem Chip.frameCounts_mem (f : TwinFrame) (c : Chip) : (c.frameCounts f).mem = c.mem := rfl

@[simp] theorem Chip.settleAwaits_wf {c : Chip} (h : c.mem.bytes.wf) : c.settleAwaits.mem.bytes.wf := by
  unfold Chip.settleAwaits
  split
  · exact h
  · refine foldl_wf (fun d a form => ?_) h
    split
    · exact Chip.answer_wf form
    · exact Chip.takeVerdict_wf form

@[simp] theorem Chip.missFrame_mem (bad : Bool) (c : Chip) : (c.missFrame bad).mem = c.mem := rfl

@[simp] theorem Chip.unmatchedSwap_mem (f : TwinFrame) (c : Chip) : (c.unmatchedSwap f).mem = c.mem := by
  unfold Chip.unmatchedSwap
  dsimp only
  split_ifs <;> simp

@[simp] theorem Chip.takeFrame_wf {f : TwinFrame} {c : Chip} (h : c.mem.bytes.wf) : (c.takeFrame f).mem.bytes.wf := by
  unfold Chip.takeFrame
  dsimp only
  split_ifs <;> simp [h]

@[simp] theorem Chip.joinProfile_mem (p : Profile) (c : Chip) : (c.joinProfile p).mem = c.mem := by
  unfold Chip.joinProfile
  split_ifs <;> simp

end Sys2Proof.Machine

namespace Sys2Proof.Machine

/-! The safe state and the engines -/

@[simp] theorem Chip.overruns_mem (c : Chip) : c.overruns.mem = c.mem := by
  simp -implicitDefEqProofs [Chip.overruns, apply_ite Chip.mem]

@[simp] theorem ledgerCheck_mem (h : Hamper) (N : Nat) (c : Chip) : (ledgerCheck h N c).mem = c.mem := by
  unfold ledgerCheck
  dsimp only
  repeat' split
  all_goals simp -implicitDefEqProofs

@[simp] theorem Chip.haltGraph_mem (c : Chip) : c.haltGraph.mem = c.mem := rfl

@[simp] theorem Chip.safeJobs_mem (c : Chip) : c.safeJobs.mem = c.mem := by simp [Chip.safeJobs]

@[simp] theorem Chip.safePresses_mem (c : Chip) : c.safePresses.mem = c.mem := by
  unfold Chip.safePresses
  extract_lets d
  have ended : d.mem = c.mem := by simp -implicitDefEqProofs [d, apply_ite Chip.mem]
  split <;> simp [ended]

@[simp] theorem Chip.safeEntry_mem (T : Nat) (c : Chip) : (c.safeEntry T).mem = c.mem := by
  unfold Chip.safeEntry
  dsimp only
  repeat' split
  all_goals simp

@[simp] theorem Chip.cmdRestart_mem (c : Chip) : c.cmdRestart.mem = c.mem := rfl

@[simp] theorem Chip.coreReload_wf {verified : Bool} {c : Chip} (h : c.mem.bytes.wf) : (c.coreReload verified).mem.bytes.wf := by
  unfold Chip.coreReload
  dsimp only
  split_ifs <;> simp [h]

@[simp] theorem Chip.exitAbandon_mem (c : Chip) : c.exitAbandon.mem = c.mem := by
  unfold Chip.exitAbandon
  split_ifs <;> simp

@[simp] theorem Chip.exitSwap_mem (N : Nat) (c : Chip) : (c.exitSwap N).mem = c.mem := by
  unfold Chip.exitSwap
  dsimp only
  repeat' split
  all_goals simp

@[simp] theorem Chip.exitMend_mem (c : Chip) : c.exitMend.mem = c.mem := by
  unfold Chip.exitMend
  split_ifs <;> simp

@[simp] theorem Chip.setFade_mem (v0 v1 : Int) (first : Nat) (c : Chip) : (c.setFade v0 v1 first).mem = c.mem := rfl

@[simp] theorem Chip.exitStart_wf {N : Nat} {c : Chip} (h : c.mem.bytes.wf) : (c.exitStart N).mem.bytes.wf := by
  unfold Chip.exitStart
  split
  · split
    · have reset : ((indices 24 c.sys.engPwr.getLsbD).foldl (fun c n => c.initEngine n) c).mem.bytes.wf :=
        foldl_wf (fun _ _ form => Chip.initEngine_wf form) h
      refine wf_of_mem ?_ (Chip.clearRings_wf reset)
      simp
    · exact h
  · exact h

@[simp] theorem Chip.safeEnd_mem (N : Nat) (c : Chip) : (c.safeEnd N).mem = c.mem := by
  unfold Chip.safeEnd
  repeat' split
  all_goals simp -implicitDefEqProofs

end Sys2Proof.Machine

namespace Sys2Proof.Machine

/-! Presses that stop the tick, engine and DMA traps, the background rinse -/

@[simp] theorem Chip.coldView_mem {k : ColdPress} {f : Chip → Chip} {c : Chip} (h : ∀ d : Chip, (f d).mem = d.mem) :
    (c.coldView k f).mem = c.mem := h _

@[simp] theorem Chip.portView_mem {f : Chip → Chip} {c : Chip} (h : ∀ d : Chip, (f d).mem = d.mem) :
    (c.portView f).mem = c.mem := by
  unfold Chip.portView
  split
  · split
    · exact Chip.coldView_mem h
    · exact h c
  · exact h c

@[simp] theorem Chip.coldPorts_mem (c : Chip) : c.coldPorts.mem = c.mem := by
  unfold Chip.coldPorts
  repeat' split
  all_goals simp -implicitDefEqProofs

@[simp] theorem Chip.tickStop_wf {k : ColdPress} {N : Nat} {c : Chip} (h : c.mem.bytes.wf) : (c.tickStop k N).mem.bytes.wf := by
  have powered : ((indices 24 fun n => (engPowered k.profile).getLsbD n && !c.sys.engPwr.getLsbD n).foldl
      (fun c n => c.initEngine n) c).mem.bytes.wf := foldl_wf (fun _ _ form => Chip.initEngine_wf form) h
  refine wf_of_mem ?_ powered
  simp [Chip.tickStop]

@[simp] theorem Chip.coldUnits_mem (conv : Nat → Nat) (b A : Nat) (c : Chip) : (c.coldUnits conv b A).mem = c.mem := rfl

@[simp] theorem Chip.coldTwin_mem (A : Nat) (c : Chip) : (c.coldTwin A).mem = c.mem := rfl

@[simp] theorem Chip.coldFlows_mem (A : Nat) (c : Chip) : (c.coldFlows A).mem = c.mem := by
  unfold Chip.coldFlows
  dsimp only
  split_ifs <;> simp

@[simp] theorem Chip.coldGather_mem (c : Chip) : c.coldGather.mem = c.mem := by
  refine (foldl_mem fun a q => ?_).trans (Chip.freeFilling_mem (c.cmd.presses.flatMap fun q => pagesOf q.pages) c)
  split <;> simp

@[simp] theorem Chip.coldResume_wf {k : ColdPress} {c : Chip} (h : c.mem.bytes.wf) : (c.coldResume k).mem.bytes.wf := by
  simp -implicitDefEqProofs [Chip.coldResume, h, apply_ite Chip.mem]

@[simp] theorem Chip.coldTick_wf {c : Chip} (h : c.mem.bytes.wf) : c.coldTick.mem.bytes.wf := by
  unfold Chip.coldTick
  split <;> simp [h]

@[simp] theorem Chip.mediaStop_mem (c : Chip) : c.mediaStop.mem = c.mem := by
  unfold Chip.mediaStop
  dsimp only
  split_ifs <;> simp

@[simp] theorem Chip.window_mem (N : Nat) (c : Chip) : (c.window N).mem = c.mem := by
  unfold Chip.window
  split_ifs <;> simp

@[simp] theorem Chip.tickPulse_mem (N : Nat) (c : Chip) : (c.tickPulse N).mem = c.mem := by
  unfold Chip.tickPulse
  dsimp only
  split_ifs <;> simp

@[simp] theorem Chip.mediaBack_mem (c : Chip) : c.mediaBack.mem = c.mem := by
  simp -implicitDefEqProofs [Chip.mediaBack, apply_ite Chip.mem]

@[simp] theorem Chip.credit_mem (k : Nat) (hold : Bool) (c : Chip) : (c.credit k hold).mem = c.mem := by
  unfold Chip.credit
  split <;> simp

@[simp] theorem Chip.sourceSilent_wf {k : Nat} {c : Chip} (h : c.mem.bytes.wf) : (c.sourceSilent k).mem.bytes.wf := by
  unfold Chip.sourceSilent
  split <;> simp [h]

@[simp] theorem Chip.xqStop_wf {k : Fin 19} {midWrite : Bool} {c : Chip} (h : c.mem.bytes.wf) :
    (c.xqStop k midWrite).mem.bytes.wf := by
  unfold Chip.xqStop
  split_ifs <;> simp [h]

@[simp] theorem Chip.xqStart_wf {k : Fin 19} {c : Chip} (h : c.mem.bytes.wf) : (c.xqStart k).mem.bytes.wf := by
  unfold Chip.xqStart
  dsimp only
  repeat' split
  all_goals simp [h]

@[simp] theorem Chip.rewriteBank_mem (m : Nat) (c : Chip) : (c.rewriteBank m).mem = c.mem := by
  unfold Chip.rewriteBank
  split_ifs <;> simp

@[simp] theorem Chip.rewrites_mem (c : Chip) : c.rewrites.mem = c.mem := by simp [Chip.rewrites]

@[simp] theorem Chip.engineReload_wf {n : Nat} {c : Chip} (h : c.mem.bytes.wf) : (c.engineReload n).mem.bytes.wf := by
  unfold Chip.engineReload
  split
  · exact Memory.wf_sub h List.filter_sublist
  · exact h

@[simp] theorem Chip.engineTrapAt_wf {n a : Nat} {c : Chip} (h : c.mem.bytes.wf) : (c.engineTrapAt n a).mem.bytes.wf :=
  by simp [Chip.engineTrapAt, h]

@[simp] theorem Chip.engineTrap_wf {n : Nat} {c : Chip} (h : c.mem.bytes.wf) : (c.engineTrap n).mem.bytes.wf :=
  by simp [Chip.engineTrap, h]

@[simp] theorem Chip.ownRead_wf {c : Chip} {a : Word} (h : c.mem.bytes.wf) : (c.ownRead a).mem.bytes.wf := by
  unfold Chip.ownRead
  dsimp only
  repeat' split
  all_goals simp [h]

@[simp] theorem dmaRestart_wf {ch : Nat} {s : Hamper × Chip} (h : s.2.mem.bytes.wf) : (dmaRestart ch s).2.mem.bytes.wf := by
  unfold dmaRestart
  extract_lets d a master mine e
  have cleaned : e.mem.bytes.wf := ite_wf (Chip.store_wf h) h
  clear_value e
  split
  · exact h
  split
  · exact Chip.refuse_wf cleaned
  · exact Chip.haltDma_wf cleaned
  · have corrected := Chip.correct_wf (master := 0x30 + ch) (ws := [a]) cleaned
    exact ite_snd_wf (releaseHeld_wf corrected) corrected

@[simp] theorem Chip.rinsePass_wf {corrected uncorrected : List Nat} {c : Chip} (h : c.mem.bytes.wf) :
    (c.rinsePass corrected uncorrected).mem.bytes.wf := by
  unfold Chip.rinsePass
  split
  · exact h
  extract_lets mine d hits bad e g
  have darned : e.mem.bytes.wf := foldl_wf (fun _ _ form => Chip.darn_wf form) (Chip.strike_wf h)
  refine foldl_wf (fun a w form => ?_) darned
  have logged : ∀ code, ((a.onMem fun m => { m with ue := m.ue + 1, ueSeen := true }).memEvent 5 0x02 w code).mem.bytes.wf :=
    fun _ => Chip.memEvent_wf form
  exact ite_wf (logged _) (logged _)

@[simp] theorem Chip.fadesEnd_mem (c : Chip) : c.fadesEnd.mem = c.mem := rfl

@[simp] theorem Chip.rampsEnd_mem (c : Chip) : c.rampsEnd.mem = c.mem := rfl

@[simp] theorem Chip.exchangeEnd_mem (m : Nat) (c : Chip) : (c.exchangeEnd m).mem = c.mem := by
  unfold Chip.exchangeEnd
  split <;> simp

@[simp] theorem Chip.gateExpiry_mem (s : Nat) (c : Chip) : (c.gateExpiry s).mem = c.mem := by
  unfold Chip.gateExpiry
  repeat' split
  all_goals simp -implicitDefEqProofs

end Sys2Proof.Machine

namespace Sys2Proof.Machine

/-! The tick and the block it begins -/

@[simp] theorem Chip.captureInputs_mem (N : Nat) (inp : TickIn) (c : Chip) : (c.captureInputs N inp).mem = c.mem := rfl

@[simp] theorem Chip.blockInputs_mem (N : Nat) (c : Chip) : (c.blockInputs N).2.mem = c.mem := by simp [Chip.blockInputs]

@[simp] theorem Chip.measure_mem (N : Nat) (c : Chip) : (c.measure N).mem = c.mem := by
  simp -implicitDefEqProofs [Chip.measure]

@[simp] theorem Chip.pushPast_mem (N : Nat) (ins : Map (List Smp)) (c : Chip) : (c.pushPast N ins).mem = c.mem := by
  unfold Chip.pushPast
  split_ifs <;> simp

@[simp] theorem Chip.firstPass_mem (N : Nat) (ins : Map (List Smp)) (late : List LateOut) (c : Chip) :
    (c.firstPass N ins late).mem = c.mem := by simp [Chip.firstPass]

@[simp] theorem Chip.secondPass_wf {n : Nat} {late : List LateOut} {c : Chip} (h : c.mem.bytes.wf) :
    (c.secondPass n late).mem.bytes.wf := by simp [Chip.secondPass, h]

@[simp] theorem Chip.fadeOn_mem (O : Nat) (c : Chip) : (c.fadeOn O).mem = c.mem := rfl

@[simp] theorem Chip.modPath_mem (n m : Nat) (xs : List Smp) (c : Chip) : (c.modPath n m xs).2.mem = c.mem := by
  unfold Chip.modPath
  dsimp only
  split_ifs <;> simp

@[simp] theorem Chip.sinkPass_mem (n : Nat) (cfg : Gen) (read : Nat → Nat → Smp) (late : List LateOut) (e : Nat) (c : Chip) :
    (c.sinkPass n cfg read late e).2.2.mem = c.mem := by
  unfold Chip.sinkPass
  split_ifs <;> simp

@[simp] theorem Chip.thirdPass_mem (n : Nat) (src lim : Map (List Smp)) (late : List LateOut) (c : Chip) :
    (c.thirdPass n src lim late).2.mem = c.mem := by
  have sinks : ∀ (es : List Nat) (cfg : Gen) (read : Nat → Nat → Smp)
      (a : Map (List Smp) × Map (List Smp × Bool) × Chip),
      (es.foldl (fun (a : Map (List Smp) × Map (List Smp × Bool) × Chip) e =>
        let q := a.2.2.sinkPass n cfg read late e
        (mset a.1 e q.1, if e < 2048 then mset a.2.1 e (q.1, q.2.1) else a.2.1, q.2.2)) a).2.2.mem = a.2.2.mem := by
    intro es cfg read a
    refine List.foldlRecOn
      (motive := fun b : Map (List Smp) × Map (List Smp × Bool) × Chip => b.2.2.mem = a.2.2.mem) es _ rfl ?_
    exact fun b same e _ => (Chip.sinkPass_mem _ _ _ _ _ _).trans same
  refine (Chip.onPast_mem _ _ _).trans ((Chip.onGraph_mem _ _).trans ((Chip.fadeOn_mem _ _).trans ((sinks _ _ _ _).trans ?_)))
  refine (foldl_snd_mem fun a k => ?_).trans ?_
  · exact Chip.chainOut_mem _ _ _ _ _
  · exact Chip.firBegin_mem _ _

@[simp] theorem Chip.exitTail_mem (N e keep : Nat) (xs : List Smp) (c : Chip) : (c.exitTail N e keep xs).mem = c.mem :=
  by simp [Chip.exitTail]

@[simp] theorem Chip.lateExits_mem (N : Nat) (c : Chip) : (c.lateExits N).mem = c.mem := by
  unfold Chip.lateExits
  split_ifs <;> simp

@[simp] theorem Chip.modExits_mem (N : Nat) (c : Chip) : (c.modExits N).mem = c.mem := by
  unfold Chip.modExits
  split_ifs <;> simp

@[simp] theorem Chip.talkOut_wf {O : Nat} {outs : Map (List Smp × Bool)} {late : List LateOut} {c : Chip} (h : c.mem.bytes.wf) :
    (c.talkOut O outs late).mem.bytes.wf := by
  unfold Chip.talkOut
  dsimp only
  split_ifs <;> simp [h]

@[simp] theorem Chip.passes_wf {N : Nat} {ins : Map (List Smp)} {late : List LateOut} {c : Chip} (h : c.mem.bytes.wf) :
    (c.passes N ins late).mem.bytes.wf := by
  unfold Chip.passes
  extract_lets src lim two three d e r
  have first : d.mem.bytes.wf := wf_of_mem (Chip.firstPass_mem _ _ _ _) h
  have second : e.mem.bytes.wf := ite_wf (Chip.secondPass_wf first) first
  split
  · exact Chip.talkOut_wf (wf_of_mem (Chip.thirdPass_mem _ _ _ _ _) second)
  · exact ite_wf (Chip.talkOut_wf second) second

@[simp] theorem Chip.beginBlock_wf {N : Nat} {c : Chip} (h : c.mem.bytes.wf) : (c.beginBlock N).mem.bytes.wf := by
  simp -implicitDefEqProofs [Chip.beginBlock, h]

@[simp] theorem Chip.safeTick_mem (N : Nat) (c : Chip) : (c.safeTick N).mem = c.mem := by
  unfold Chip.safeTick
  dsimp only
  split_ifs <;> simp

@[simp] theorem Chip.configLoaded_wf {old : Items} {N : Nat} {c : Chip} (h : c.mem.bytes.wf) :
    (c.configLoaded old N).mem.bytes.wf := by
  unfold Chip.configLoaded
  dsimp only
  split_ifs <;> simp [h]

@[simp] theorem Chip.landTick_wf {N : Nat} {c : Chip} (h : c.mem.bytes.wf) : (c.landTick N).mem.bytes.wf := by
  unfold Chip.landTick
  extract_lets d e before f g i
  have landed : d.mem.bytes.wf := Chip.landAt_wf (wf_of_mem (by simp) h)
  have settled : e.mem.bytes.wf := ite_wf landed (wf_of_mem (Chip.firSettle_mem _) landed)
  have loaded : f.mem.bytes.wf := Chip.configLoaded_wf (Chip.mendLoad_wf settled)
  have started : g.mem.bytes.wf := ite_wf (wf_of_mem (Chip.audioStart_mem _ _) loaded) loaded
  have exited : i.mem.bytes.wf := wf_of_mem (Chip.safeEnd_mem _ _) (Chip.exitStart_wf started)
  split
  · exact ite_wf (wf_of_mem (Chip.setFade_mem _ _ _ _) exited) exited
  · exact exited

@[simp] theorem Chip.dutyTick_wf {N : Nat} {inp : TickIn} {c : Chip} (h : c.mem.bytes.wf) : (c.dutyTick N inp).mem.bytes.wf := by
  unfold Chip.dutyTick
  extract_lets d e f g i j k
  have aired : e.mem = c.mem := by simp [e, d]
  have failed : f.mem = c.mem := by
    unfold f
    split <;> simp [aired]
  have locked : g.mem = c.mem := by
    unfold g
    split
    · exact (apply_ite Chip.mem _ _ _).trans ((ite_self _).trans failed)
    · exact failed
  have internal : i.mem.bytes.wf := wf_of_mem (by simp [i, apply_ite Chip.mem, locked]) h
  have trapped : j.mem.bytes.wf := by
    unfold j
    split
    · exact Chip.coreFails_wf internal
    · exact internal
  have reloaded : k.mem.bytes.wf := by
    unfold k
    exact foldl_wf (fun _ _ form => Chip.engineReload_wf form) trapped
  exact wf_of_mem (Chip.mendJobEnd_mem _) (Chip.settleAwaits_wf reloaded)

@[simp] theorem Chip.edgeTick_mem (N : Nat) (inp : TickIn) (c : Chip) : (c.edgeTick N inp).mem = c.mem := by
  simp -implicitDefEqProofs [Chip.edgeTick]

@[simp] theorem Chip.playTick_mem (N : Nat) (c : Chip) : (c.playTick N).mem = c.mem := by simp [Chip.playTick]

@[simp] theorem Chip.passTick_wf {N : Nat} {inp : TickIn} {ins : Map (List Smp)} {c : Chip} (h : c.mem.bytes.wf) :
    (c.passTick N inp ins).mem.bytes.wf := by
  unfold Chip.passTick
  split
  · exact h
  split
  · exact ite_wf (Chip.talkOut_wf h) h
  extract_lets d late
  have trapped : d.mem.bytes.wf := by
    unfold d
    split
    · exact Chip.engineTrap_wf h
    · exact h
  exact Chip.passes_wf (Chip.readState_wf trapped)

@[simp] theorem tickBlock_wf {N : Nat} {inp : TickIn} {p : Hamper × Chip} (h : p.2.mem.bytes.wf) :
    (tickBlock N inp p).2.mem.bytes.wf := by
  unfold tickBlock
  extract_lets d q e f g i k
  have duties : d.mem.bytes.wf := Chip.dutyTick_wf (Chip.landTick_wf (wf_of_mem (Chip.safeTick_mem _ _) (Chip.beginBlock_wf h)))
  have restarted : q.2.mem.bytes.wf := by
    unfold q
    exact foldl_snd_wf (fun _ _ form => dmaRestart_wf form) duties
  have checked : e.mem.bytes.wf := wf_of_mem (by simp [e]) restarted
  have sent : f.mem.bytes.wf := wf_of_mem ((Chip.playTick_mem _ _).trans (Chip.sendBlockFrame_mem _ _))
    (snapCapture_wf (wf_of_mem (Chip.settle_mem e) checked))
  have read : g.mem.bytes.wf := foldl_wf (fun _ _ form => Chip.ownRead_wf form) sent
  have inputs : i.2.mem.bytes.wf := wf_of_mem (Chip.blockInputs_mem N g) read
  have captured : k.mem.bytes.wf := Chip.capture_wf (Chip.passTick_wf inputs)
  exact captured

@[simp] theorem Chip.stopTick_wf {k : ColdPress} {N : Nat} {c : Chip} (h : c.mem.bytes.wf) : (c.stopTick k N).mem.bytes.wf :=
  by simp [Chip.stopTick, h]

@[simp] theorem stopRest_wf {N : Nat} {p : Hamper × Chip} (h : p.2.mem.bytes.wf) : (stopRest N p).2.mem.bytes.wf := by
  simp -implicitDefEqProofs [stopRest, h]

@[simp] theorem stopLate_wf {before : Nat} {p : Hamper × Chip} (h : p.2.mem.bytes.wf) : (stopLate before p).2.mem.bytes.wf := by
  unfold stopLate
  split <;> simp -implicitDefEqProofs [h]

@[simp] theorem blockTick_wf {inp : TickIn} {p : Hamper × Chip} (h : p.2.mem.bytes.wf) : (blockTick inp p).2.mem.bytes.wf := by
  unfold blockTick
  extract_lets d e N
  have struck : d.mem.bytes.wf := Chip.strike_wf (wf_of_mem (Chip.advance_mem _ _) h)
  split
  · exact struck
  have begun : e.mem.bytes.wf := wf_of_mem (by simp [e]) (Chip.coldTick_wf struck)
  split
  · exact stopLate_wf begun
  split
  · exact ite_snd_wf (stopRest_wf (Chip.stopTick_wf begun)) (tickBlock_wf begun)
  · exact tickBlock_wf begun

end Sys2Proof.Machine

namespace Sys2Proof.Machine

/-! The packets of the command stream -/

@[simp] theorem handler_wf {opcode : Nat} {hd : Hdr} {gen : Nat} {ps : List Word} {c : Chip} (h : c.mem.bytes.wf) :
    (handler opcode hd gen ps c).2.mem.bytes.wf := by
  fun_cases handler opcode hd gen ps c
  all_goals first | exact h | simp [h]

@[simp] theorem Chip.packet_wf {p : Pkt} {c : Chip} (h : c.mem.bytes.wf) : (c.packet p).mem.bytes.wf := by
  unfold Chip.packet
  extract_lets hd op ps target no
  have refused : ∀ st, (no st).mem.bytes.wf := fun _ => Chip.answer_wf h
  clear_value no
  split
  · exact refused _
  split
  · exact Chip.replyOut_wf h
  split
  · exact h
  split
  · exact refused _
  split
  · exact refused _
  · exact refused _
  · exact Chip.order_wf (fun _ form => handler_wf form) h

@[simp] theorem Chip.takePacket_wf {c : Chip} (h : c.mem.bytes.wf) : c.takePacket.mem.bytes.wf := by
  unfold Chip.takePacket
  split
  · exact h
  split
  · exact h
  extract_lets d e f g i
  have taken : e.mem.bytes.wf := ite_wf h (wf_of_mem (Chip.takes_mem _) h)
  have owed : g.mem.bytes.wf := ite_wf taken taken
  refine wf_of_mem (Chip.mbxPump_mem _) (ite_wf owed (ite_wf ?_ (Chip.packet_wf owed)))
  exact Chip.order_wf (fun _ form => handler_wf form) owed

end Sys2Proof.Machine

namespace Sys2Proof.Machine

/-! What every command answers: the memory keeps its form -/

/-- Whatever state an outcome of `s` answers, its memory is in canonical form if that of `s` is. -/
def Answer.formed (s : State) (o : Host.Outcome State Fault Refusal) : Prop :=
  ∀ t, o = .next t → s.chip.mem.bytes.wf → t.chip.mem.bytes.wf

theorem formed_next {s u : State} (keeps : s.chip.mem.bytes.wf → u.chip.mem.bytes.wf) : Answer.formed s (.next u) := by
  rintro t ⟨⟩
  exact keeps

theorem formed_act {f : Chip → Chip} {s : State} (keeps : ∀ c : Chip, c.mem.bytes.wf → (f c).mem.bytes.wf) :
    Answer.formed s (act f s) := by
  refine formed_next fun form => ?_
  dsimp only
  split
  · exact form
  · exact wf_of_mem (Chip.settle_mem _) (keeps _ form)

theorem formed_actHam {f : Hamper × Chip → Hamper × Chip} {s : State}
    (keeps : ∀ p : Hamper × Chip, p.2.mem.bytes.wf → (f p).2.mem.bytes.wf) : Answer.formed s (actHam f s) := by
  unfold actHam
  split
  · exact formed_next id
  · exact formed_next fun form => wf_of_mem (Chip.settle_mem _) (keeps (s.ham, s.chip.begin) form)

theorem formed_refAct {t : Nat} {f : Chip → Chip} {s : State} (keeps : ∀ c : Chip, c.mem.bytes.wf → (f c).mem.bytes.wf) :
    Answer.formed s (refAct t f s) :=
  formed_act fun c form =>
    have advanced := wf_of_mem (Chip.advance_mem t c) form
    ite_wf (keeps _ advanced) advanced

theorem formed_csrStep {master : Byte} {addr : Nat} {f : Chip → Bool × Chip} {s : State}
    (keeps : ∀ c : Chip, c.mem.bytes.wf → (f c).2.mem.bytes.wf) : Answer.formed s (csrStep master addr f s) := by
  refine formed_act fun c form => ?_
  split
  · exact wf_of_mem (Chip.reportWrite_mem _ _ _ _ _) (Chip.refuse_wf form)
  · exact wf_of_mem (Chip.reportWrite_mem _ _ _ _ _) (keeps c form)

theorem formed_spiTransaction {op : Byte} {f : Hamper × Chip → List Byte × Bool × Chip} {s : State}
    (keeps : ∀ p : Hamper × Chip, p.2.mem.bytes.wf → (f p).2.2.mem.bytes.wf) : Answer.formed s (spiTransaction op f s) :=
  formed_actHam fun p form =>
    wf_of_mem (Chip.spiClose_mem _ _ _) (keeps (p.1, p.2.onHost fun h => { h with spiLast := p.2.spiStatusByte }) form)

theorem formed_command {opcode : Nat} {h : Hdr} {params : List Word} {run : Chip → Option Rep × Chip} {s : State}
    (keeps : ∀ c : Chip, c.mem.bytes.wf → (run c).2.mem.bytes.wf) : Answer.formed s (command opcode h params run s) := by
  refine formed_actHam fun p form => ?_
  dsimp only
  split
  · exact form
  refine reboot_wf (ite_wf (Chip.answer_wf ?_) (ite_wf (Chip.answer_wf ?_) (Chip.order_wf keeps ?_)))
  all_goals
    rw [Chip.onHost_mem]
    split <;> exact form

end Sys2Proof.Machine

namespace Sys2Proof.Machine

/-! The commands whose memory needs an argument of its own -/

theorem formed_resetPart {s : State} {c : Chip} (held : Bool) :
    Answer.formed s (.next (({ s with chip := c } : State).resetPart held)) :=
  formed_next fun _ => Chip.afterReset_wf

theorem formed_execResetRelease (s : State) : Answer.formed s (execResetRelease s) := by
  unfold execResetRelease actRaw
  dsimp only
  split
  · exact formed_resetPart _
  · exact formed_next id

theorem formed_execTestEnReset (high : Bool) (s : State) : Answer.formed s (execTestEnReset high s) := by
  unfold execTestEnReset actRaw
  dsimp only
  split
  · exact formed_resetPart _
  · split
    · exact formed_resetPart _
    · exact formed_next id

theorem formed_execBoundaryScan (ir : JtagIr) (shift : List Bool) (s : State) :
    Answer.formed s (execBoundaryScan ir shift s) := by
  refine formed_next fun form => ?_
  cases ir
  case extest =>
    dsimp only
    split <;> exact form
  all_goals exact form

theorem formed_execSpiUnknownOpcode (op : Byte) (s : State) : Answer.formed s (execSpiUnknownOpcode op s) :=
  formed_spiTransaction fun p h => by
    split <;> exact h

theorem formed_execLockTimeout (master : Byte) (target : BitVec 5) (rest : List LockAcc) (s : State) :
    Answer.formed s (execLockTimeout master target rest s) :=
  formed_act fun c h => by
    have refused : ∀ (cause : Nat) (d : Chip), d.mem.bytes.wf →
        (rest.foldl (fun c a => c.refuse master a.write a.size a.addr.toNat cause) d).mem.bytes.wf :=
      fun _ _ => foldl_wf fun _ _ => Chip.refuse_wf
    refine ite_wf h (ite_wf h (ite_wf (refused _ _ h) (ite_wf h (refused _ _ ?_))))
    exact wf_of_mem (Chip.raise_mem _ _ _ _ _) h

theorem formed_execTickStop (s : State) : Answer.formed s (execTickStop s) :=
  formed_act fun c h => by
    split
    · exact ite_wf (Chip.stopTick_wf h) h
    · exact h

theorem formed_execAiringIntervalEnd (s : State) : Answer.formed s (execAiringIntervalEnd s) :=
  formed_act fun c h => by
    split
    · exact ite_wf (wf_of_mem (Chip.airingEnd_mem c) h) h
    · exact h

theorem formed_execPathLost (k : Fin 4) (s : State) : Answer.formed s (execPathLost k s) :=
  formed_act fun c h => by
    split
    · exact ite_wf (wf_of_mem (Chip.raise_mem _ _ _ _ _) h) h
    · exact h

theorem formed_execDropFrameRx (bytes : List Byte) (fcsOk : Bool) (t : Nat) (s : State) :
    Answer.formed s (execDropFrameRx bytes fcsOk t s) :=
  formed_actHam fun p h => by
    have advanced : (p.2.advance t).mem.bytes.wf := wf_of_mem (Chip.advance_mem t p.2) h
    have pegged : (if fcsOk then (p.2.advance t).pegConflict bytes else p.2.advance t).mem.bytes.wf :=
      ite_wf (wf_of_mem (Chip.pegConflict_mem _ _) advanced) advanced
    dsimp only
    generalize (if fcsOk then (p.2.advance t).pegConflict bytes else p.2.advance t) = c at pegged ⊢
    have popped := Chip.popInbox_wf (m := 2) (r := 0) (receive_wf (m := 2) (bs := bytes) (fcsOk := fcsOk) (s := (p.1, c)) pegged)
    generalize receive 2 bytes fcsOk (p.1, c) = r at popped ⊢
    refine ite_snd_wf (wf_of_mem (Chip.speechRx_mem _ _ _) advanced) ?_
    split
    next taken =>
      rw [taken] at popped
      exact ite_wf popped (Chip.mgmt_wf popped)
    next taken =>
      rw [taken] at popped
      exact popped

theorem formed_execTwinFrameRx (f : TwinFrame) (s : State) : Answer.formed s (execTwinFrameRx f s) :=
  formed_act fun _ h => ite_wf h (ite_wf (wf_of_mem (Chip.missFrame_mem _ _) h) (Chip.takeFrame_wf h))

theorem formed_execZcTimeout (p : Fin 16) (tx : Bool) (ch : Fin 32) (s : State) :
    Answer.formed s (execZcTimeout p tx ch s) :=
  formed_act fun c h => by
    refine wf_of_mem (Chip.portView_mem fun d => ?_) h
    dsimp only
    split
    · split
      · exact Chip.sapTimeouts_mem _ _ _
      · rfl
    · rfl

theorem formed_execDpllLocked (t : Nat) (s : State) : Answer.formed s (execDpllLocked t s) :=
  formed_refAct fun c h => by
    split
    · exact ite_wf (wf_of_mem ((Chip.raise_mem _ _ _ _ _).trans (Chip.dpll_mem _ _)) h) h
    · exact h

theorem formed_execImageLoad (s : State) : Answer.formed s (execImageLoad s) := by
  unfold execImageLoad
  refine formed_act fun c h => ite_wf h ?_
  extract_lets c1 c2 c3 c4
  have loaded : c1.mem.bytes.wf := Chip.loadAreas_wf h
  have engines : c2.mem.bytes.wf := by
    unfold c2
    exact foldl_wf (fun _ _ => Chip.initEngine_wf) loaded
  clear_value c2
  have noted : c4.mem = c2.mem := foldl_mem (c := c3) fun _ _ => Chip.raise_mem _ _ _ _ _
  have kept : c4.mem.bytes.wf := wf_of_mem noted engines
  exact kept

theorem formed_execStageRefEntry (t : Nat) (s : State) : Answer.formed s (execStageRefEntry t s) := by
  unfold execStageRefEntry
  refine formed_act fun c h => ?_
  extract_lets c0 c1 c2 c3 c4 c5
  have advanced : c0.mem.bytes.wf := wf_of_mem (Chip.advance_mem t c) h
  have first : c2.mem.bytes.wf := ite_wf (Chip.linkEnable_wf advanced) advanced
  have second : c3.mem.bytes.wf := ite_wf (Chip.linkEnable_wf first) first
  have drop : c4.mem.bytes.wf := Chip.dropEnable_wf second
  exact ite_wf advanced drop

end Sys2Proof.Machine

namespace Sys2Proof.Machine

/-- Every command keeps the canonical form of memory: the resets leave a memory that lists nothing, and every other
command runs functions of the model that leave the memory or keep its form. -/
theorem formed_exec (i : Instr) (s : State) : Answer.formed s (Sys2Proof.Machine.exec i s) := by
  cases i
  all_goals dsimp only [exec]
  case brownOut | thermalTrip | resetAssert => exact formed_resetPart true
  case resetRelease => exact formed_execResetRelease s
  case testEnReset => exact formed_execTestEnReset _ s
  case boundaryScan => exact formed_execBoundaryScan _ _ s
  case spiUnknownOpcode => exact formed_execSpiUnknownOpcode _ s
  case lockTimeout => exact formed_execLockTimeout _ _ _ s
  case tickStop => exact formed_execTickStop s
  case airingIntervalEnd => exact formed_execAiringIntervalEnd s
  case pathLost => exact formed_execPathLost _ s
  case dropFrameRx => exact formed_execDropFrameRx _ _ _ s
  case twinFrameRx => exact formed_execTwinFrameRx _ s
  case zcTimeout => exact formed_execZcTimeout _ _ _ s
  case dpllLocked => exact formed_execDpllLocked _ s
  case imageLoad => exact formed_execImageLoad s
  case stageRefEntry => exact formed_execStageRefEntry _ s
  case spiRead =>
    exact formed_spiTransaction fun p h => by
      dsimp only
      repeat' split
      all_goals simp -implicitDefEqProofs [h]
  case spiWrite | cmdPut | rplGet =>
    exact formed_spiTransaction fun p h => by
      dsimp only
      split <;> simp -implicitDefEqProofs [h]
  case spiStatus =>
    exact formed_spiTransaction fun p h => by
      simp -implicitDefEqProofs [h]
  case inputQualified | holdoverLimit =>
    exact formed_refAct fun c h => by
      dsimp only
      split <;> simp -implicitDefEqProofs [h]
  case refEvent | inputStopped | wtrExpiry | driftVote | selectorEvaluation | switchComplete | modelUpdate =>
    exact formed_refAct fun c h => by
      simp -implicitDefEqProofs [h]
  case hostReqProdWrite | hostRplConsWrite | hostIrqPendClear | mbxGo | mbxAck | mbxCancel | mbxBindWrite |
    mbxLockSet | mbxDbRingWrite | busLockWrite | busLockForce | busService | errHeadAck | errRearmBus |
    errRearmMem | overflowSeenClear =>
    exact formed_csrStep fun c h => by
      simp -implicitDefEqProofs [h]
  case hello | getVersion | tackSet | tackGet | tackClear | press | pressAt | pressedGet | tackList | jobStatus |
    jobResultRead | jobAbandon | snapshot | ledgerRead | countersRead | rinse | fill | lineSweep | pilotMeasure |
    channelRetry | selfTest | flowTableRebuild | refForce | refClearHistory | twinMend | twinSwap | twinForceLead |
    imageStage | imageVerify | imageActivate | errRead | errAck | safeExit | profileSet | pegReport | sessionOpen =>
    exact formed_command fun c h => by
      simp -implicitDefEqProofs [h]
  case rxTruncation | barAccess =>
    exact formed_actHam fun p h => by
      dsimp only
      repeat' split
      all_goals simp -implicitDefEqProofs [h]
  case coldPressLedgerCheck | latchingRead =>
    exact formed_actHam fun p h => by
      dsimp only
      split <;> simp -implicitDefEqProofs [h]
  case commandPacket | blockTick | linkFrameRx | hamperRefill | bufferReturn | dmaRestart | startupWatchdog =>
    exact formed_actHam fun p h => by
      simp -implicitDefEqProofs [h]
  case dropTxOpportunity | dropCollision | announceRx | romBoot =>
    exact formed_act fun c h => by
      dsimp only
      repeat' split
      all_goals simp -implicitDefEqProofs [h]
  case ptpSyncRx =>
    exact formed_act fun c h => by
      dsimp only
      split_ifs <;> simp -implicitDefEqProofs [h]
  case busLockRead | todSet | tripReport | pilotWindowEnd | sweepPointEnd | copyArrival | txRingPoll | heartbeatSendL |
    pathFail | chatterEnd | mainsRestore | announceTimeout | masterReturn | delayReqRx | delayRespRx =>
    exact formed_act fun c h => by
      dsimp only
      split <;> simp -implicitDefEqProofs [h]
  case heartbeatRx | zeroCrossing | tempThreshold | pegTokenRx | refWaitEnd | twinStageEnd =>
    exact formed_act fun c h => by
      simp -implicitDefEqProofs [h, apply_ite Chip.mem]
  case csrWrite | requestRingEntry | msixUnmask | pcieReset | pcieLinkUp | crossWaitDetect | replyCancel |
    firBankRewrite | flowTableRewrite | pressLands | pageRelease | crossfadeEnd | rampEnd | firExchangeEnd |
    gateHoldExpiry | sinkWindowBoundary | sapColdRestart | coldPressResume | mediaSilent | mediaResume |
    xqSourceSilent | xqSourceResume | clockError | clockQualified | channelTrip | retryStart | retryEnd |
    rampUpComplete | disableRampEnd | playAttemptReset | railTripHoldEnd | xq6InputLost | xq6InputResume |
    jobStart | rebuildComplete | airingWithdraw | sessionIdleClose | presentationClose | missingWindow |
    linkTxFrameEnd | audioFrameStale | linkUp | linkDown | sfpFault | dropTxEnd | dropQ3Stale | speechFrameRx |
    speechWindow | twinFrameMissed | twinLinkChange | heartbeatSendD | roleTakeEffect | pathTRestore | sapFrame |
    nonaudioRelease | leadFramesEnd | sapStoppingEnd | ainScan | insertionChange | classChange | buttonChange |
    stuck | biasOverload | ainGainStep | contactStateChange | mainsHalfCycle | mainsZcTimeout | batteryCondition |
    railWindow | modelValid | tickIndexReload | announceSend | syncSend | safeEntry | coreReload | safeExitStart |
    safeStateEnd | exitAbandon | engineReload | backgroundRinsePass | headPeg | pegTokenSend | sramInit |
    delayStoreInit | audioEnable | jobEnd | backgroundErase =>
    exact formed_act fun c h => by
      simp -implicitDefEqProofs [h]

/-- Settles O5: a step runs the front command by `formed_exec`, and with no command nothing changes. -/
theorem memoryCanonical : Obligations.MemoryCanonical := by
  unfold Obligations.MemoryCanonical
  intro s t form h
  unfold Steps Machine.step at h
  split at h
  · cases h
    exact form
  · exact formed_exec _ _ t h form

end Sys2Proof.Machine
